-- ==== Sys2Proof/Word.lean ====
section
/-! DEFINITION. The word types of the ST64 and their plainest arithmetic: registers are 32 bits wide, every multi-byte
field is carried most significant byte first (R11), and time is counted in steps of 2^-16 ns (R12, R233). -/

namespace Sys2Proof

/-- A register (R14, Register conventions). -/
abbrev Word := BitVec 32

abbrev Byte := BitVec 8

/-- A sample word: TAG in [15:14], CODE in [13:0] (R83). -/
abbrev Sample := BitVec 16

/-- Steps of 2^-16 ns in one nanosecond. -/
def nsU : Nat := 65536

/-- One sample period of 0.5 ns in steps of 2^-16 ns (R10). -/
def periodU : Nat := 32768

/-- Microseconds in steps of 2^-16 ns. -/
def usU (n : Nat) : Nat := n * 1000 * nsU

/-- Milliseconds in steps of 2^-16 ns. -/
def msU (n : Nat) : Nat := n * 1000000 * nsU

/-- Seconds in steps of 2^-16 ns. -/
def secU (n : Nat) : Nat := n * 1000000000 * nsU

/-- Sample periods in a frame (R10). -/
def framePeriods : Nat := 4096

end Sys2Proof
end

