-- ==== Sys2Proof/Syntax.lean ====
section
/-! DEFINITION. The commands of the block: one constructor per row of spec/opcode_table.json, in the table's order.
A BCP row carries the datagram's header as received and the request's parameters (R318, R340). An event row carries
what the surroundings or the analogue part of the module show at that moment. -/

namespace Sys2Proof

abbrev Tile := Fin 4
abbrev Chan := Fin 16
abbrev Pin := Fin 20
/-- Ports in the numbering of LNK_PORTx: 0 Mainline A, 1 Mainline B, 2 A-in, 3 A-out, 4 B-in, 5 B-out, 6 management. -/
abbrev Port := Fin 7

/-- A wide time as its fields stand on the wire (R233). -/
structure Wide where
  s : BitVec 64
  ns : BitVec 32
  fr : BitVec 16
  deriving DecidableEq, Repr

/-- The header and origin of a received BCP datagram (R318, R321). `opcode` is the row's own except in NOP. -/
structure Req where
  port : Port
  mac : BitVec 48
  ip : BitVec 32
  udp : BitVec 16
  /-- Length of the UDP payload in bytes. -/
  udpLen : Nat
  magic : BitVec 16
  version : Byte
  flags : Byte
  target : BitVec 16
  seq : Word
  session : Word
  plen : BitVec 16
  module : BitVec 16
  /-- A reserved byte of the header, [20:31], is nonzero. -/
  resv : Bool
  /-- A reserved parameter byte or bit is nonzero (R340). -/
  presv : Bool
  /-- The CRC-32C over header and parameters is correct. -/
  crcOk : Bool
  /-- A register frame that the request needs, and its replay, are lost on a tile link (R48). -/
  frameLost : Bool
  /-- Requests of its session that are not answered yet as it arrives (R325, R327). -/
  ahead : Nat
  deriving DecidableEq, Repr

/-- A timing message as received on a timing port (R307), its type-specific bytes apart. -/
structure TmHead where
  port : Port
  version : Byte
  tmType : Byte
  seq : BitVec 16
  /-- A reserved byte is nonzero. -/
  resv : Bool
  deriving DecidableEq, Repr

/-- The checks of R285 and R288 on a received IPv4 packet. -/
structure IpFacts where
  version : Nat
  ihl : Nat
  headerOk : Bool
  fragment : Bool
  dst : BitVec 32
  proto : Nat
  dport : BitVec 16
  /-- The UDP checksum is zero or correct. -/
  udpOk : Bool
  deriving DecidableEq, Repr

/-- The sender's addresses in an ARP request (R286). -/
structure ArpSender where
  ip : Word
  mac : BitVec 48
  deriving DecidableEq, Repr

/-- A pin's averaged level, and how long it has been outside its window (R76). -/
structure PinLevel where
  levelUv : Int
  heldNs : Nat
  deriving DecidableEq, Repr

/-- How a port's link is lost: without alignment lock, or under Local or Remote Fault ordered sets, for how long (R300). -/
structure LinkLoss where
  heldUs : Nat
  localFault : Bool
  remoteFault : Bool
  deriving DecidableEq, Repr

/-- A received Ethernet frame as the checks of R283 see it. -/
structure FrameFacts where
  fcsOk : Bool
  length : Nat
  vlan : Bool
  pause : Bool
  etherType : BitVec 16
  ip : Option IpFacts
  /-- Target address of an ARP frame (R305). -/
  arpTarget : Option Word
  /-- RS-FEC codewords of its port corrected and uncorrectable since the frame told of before (R317). -/
  fecCorr : Nat
  fecUncorr : Nat
  deriving DecidableEq, Repr

/-- A received BDT ACK (R290, R294). -/
structure AckPkt where
  port : Port
  magic : BitVec 16
  version : Byte
  type : Byte
  flags : BitVec 16
  stream : BitVec 16
  segSeq : BitVec 64
  module : BitVec 16
  portByte : Byte
  resv : Byte
  firstOffset : BitVec 16
  dataLength : BitVec 16
  itemSeq : BitVec 64
  ranges : List (BitVec 64 × BitVec 64)
  crcOk : Bool
  deriving DecidableEq, Repr

/-- A PTP message type as R249 sorts them. -/
inductive PtpType where
  | sync | followUp | delayReq | delayResp | announce | signaling | management | pdelay
  deriving DecidableEq, Repr

/-- A PTP frame passing through a timing pair (R249, R250); times are module times in 2^-16 ns. -/
structure PtpFrame where
  type : PtpType
  versionPtp : Nat
  domainNumber : Byte
  twoStep : Bool
  seqId : BitVec 16
  source : BitVec 80
  correction : Int
  ingress : Nat
  egress : Nat
  fcsOk : Bool
  deriving DecidableEq, Repr

/-- A Follow_Up, by what pairs it with its Sync; its time in 2^-16 ns (R236). -/
structure FollowUp where
  source : BitVec 80
  domainNumber : Byte
  seqId : BitVec 16
  origin : Int
  correction : Int
  deriving DecidableEq, Repr

/-- A Sync, with the Follow_Up that came after it (R236, R237). -/
structure SyncMsg where
  port : Port
  domainNumber : Byte
  versionPtp : Nat
  minorVersionPtp : Nat
  twoStep : Bool
  followUp : Option FollowUp
  source : BitVec 80
  logInterval : BitVec 8
  seqId : BitVec 16
  /-- preciseOriginTimestamp of the master, in 2^-16 ns. -/
  origin : Int
  correction : Int
  /-- Ingress time on the domain's base, in 2^-16 ns. -/
  ingress : Int
  deriving DecidableEq, Repr

structure DelayRespMsg where
  port : Port
  domainNumber : Byte
  versionPtp : Nat
  minorVersionPtp : Nat
  source : BitVec 80
  requesting : BitVec 80
  seqId : BitVec 16
  logInterval : BitVec 8
  receive : Int
  correction : Int
  deriving DecidableEq, Repr

structure AnnounceMsg where
  port : Port
  domainNumber : Byte
  versionPtp : Nat
  minorVersionPtp : Nat
  /-- logMessageInterval: the master announces every 2^that seconds. -/
  logInterval : BitVec 8
  source : BitVec 80
  seqId : BitVec 16
  gmIdentity : BitVec 64
  priority1 : Byte
  gmClass : Byte
  accuracy : Byte
  variance : BitVec 16
  priority2 : Byte
  stepsRemoved : BitVec 16
  utcOffset : BitVec 16
  utcValid : Bool
  ptpTimescale : Bool
  deriving DecidableEq, Repr

/-- What the Timetable measures over the period just ended (R362); powers in 0.1 W, rates in 0.1 GB/s. -/
structure Measure where
  pIn : BitVec 16
  temps : List Int
  throughput : BitVec 16
  demand : BitVec 16
  mainVolts : BitVec 16
  mainAmps : BitVec 16
  auxVolts : BitVec 16
  auxAmps : BitVec 16
  /-- Compressed traffic of withdrawn engines has settled (R364). -/
  settled : Bool
  deriving DecidableEq, Repr

/-- One lane at a sync point (R374): a digest of its outputs and voted state, its lateness, a self-detected fault, the
correctable SRAM errors since the last one, and the digest of its re-execution (R377). -/
structure LaneStep where
  digest : BitVec 512
  lateNs : Nat
  selfFault : Bool
  sramCe : Nat
  replay : BitVec 512
  deriving DecidableEq, Repr

/-- What one lane hashes in an audit beside the seed (R380): its ROM, the patch code in its SRAM, its voted state at the
audit's sync point, and the output of the test kernel. -/
structure LaneAudit where
  rom : List Byte
  patch : List Byte
  voted : List Byte
  kernel : List Byte
  deriving DecidableEq, Repr

/-- How start-up goes on: the voltages and lock states it meets, or the step that fails (R355, R356). -/
structure StartFacts where
  mainMv : Nat
  /-- A power-good of step 3 is missing. -/
  railFail : Bool
  /-- Step 5 has locked the PLL to a source. -/
  locked : Bool
  /-- Tile links that train with a common version within 300 ms. -/
  tilesTrained : BitVec 4
  /-- Stacks that train. -/
  stacksTrained : BitVec 4
  /-- Ports whose link comes up in step 5, numbered as LNK_PORTx. -/
  portsUp : BitVec 7
  elapsedMs : BitVec 16
  deriving DecidableEq, Repr

/-- Who requests a clock gate (R276). -/
inductive Requester where
  | timetable | fault | host
  deriving DecidableEq, Repr

/-- A kind of record window: a program's capture or a channel's hit window. -/
inductive WinId where
  | prog (p : Fin 8)
  | hit (c : Fin 64)
  deriving DecidableEq, Repr

/-- The commands, in the order of spec/opcode_table.json. -/
inductive Instr where
  | sessionOpen (r : Req) (bcp bdt rec cblk : Byte × Byte) (timeout : BitVec 16) (client : List Byte)
  | sessionClose (r : Req)
  | sessionTimeout (slot : Fin 4)
  | nop (r : Req) (opcode : BitVec 16)
  | status (r : Req)
  | atnAck (r : Req) (mask replySeq : Word)
  | opStatus (r : Req)
  | modeSet (r : Req) (mode : Byte)
  | resetSoft (r : Req)
  | softReset
  | dataSession (r : Req) (hostPort : BitVec 16) (force : Bool)
  | regRead (r : Req) (address : Word) (count : BitVec 16)
  | regWrite (r : Req) (address value : Word)
  | regWriteMasked (r : Req) (address value mask : Word)
  | regRead64 (r : Req) (address : Word)
  | commit (r : Req)
  | commitApply (block : Fin 32)
  | pulseArm (r : Req) (sources : BitVec 16) (launch : Wide)
  | rangeCal (r : Req) (tiles : BitVec 4)
  | queueRead (r : Req) (maxCells : Byte)
  | recordRead (r : Req) (sequence : BitVec 64) (offset : Word) (length : BitVec 16)
  | fetchRecords (r : Req) (first : BitVec 64) (count : Word)
  | streamAbort (r : Req)
  | hold (r : Req) (pre post : Word) (store : Byte) (firstSeq : BitVec 64)
  | drain (r : Req) (mask : BitVec 64) (store autoRelease : Bool)
  | release (r : Req)
  | fetchRing (r : Req) (mask : BitVec 64) (tStart tEnd : Wide)
  | unitRead (r : Req) (unitSeq : BitVec 64) (offset : Word) (length : BitVec 16)
  | stepTime (r : Req) (form : Byte) (offset : BitVec 64) (time : Wide)
  | timeRead (r : Req)
  | switchover (r : Req)
  | streamStatus (r : Req)
  | cstInfo (r : Req)
  | cstStore (r : Req)
  | cstStoreComplete (firstOk secondOk : Bool)
  | authNonce (r : Req)
  | authLoad (r : Req) (offset : BitVec 16) (chunk : List Byte)
  | attest (r : Req) (challenge : BitVec 256)
  | attestRead (r : Req) (offset : Word) (length : BitVec 16)
  | pubkeyRead (r : Req) (offset : Word) (length : BitVec 16)
  | otpProgram (r : Req) (field : BitVec 16) (length : BitVec 16) (value : List Byte)
  | fwLoad (r : Req) (offset : Word) (chunk : List Byte)
  | fwInstall (r : Req) (imageLength : Word) (digest : BitVec 512)
  | privilegedCheck (readBackOk : Bool)
  | budgetSet (r : Req) (power thermal : BitVec 16)
  | budgetReport (r : Req)
  | provoke (r : Req) (mode dir : Byte) (n : Word) (k offset : BitVec 16) (pat : Word)
  | auditLanes (r : Req) (seed : Word)
  | auditComplete (l0 l1 l2 : LaneAudit)
  | jctPinWrite (r : Req) (t : Tile) (p : Pin) (value : Word)
  | excitationArm (r : Req) (t : Tile) (e : Fin 4) (value : Word)
  | excitationDisarm (r : Req) (t : Tile) (e : Fin 4) (value : Word)
  | pulseLaunch (t : Tile) (e : Fin 4)
  | sourceCompliance (t : Tile) (e : Fin 4)
  | biasCompliance (t : Tile) (b : Fin 4) (loadUa : Nat)
  | scoutCrossing (t : Tile) (k : Chan) (magNv : Nat)
  | upRange (t : Tile) (k : Chan) (highNv lowNv : Int)
  | downRange (t : Tile) (k : Chan) (quiet magNv : Nat)
  | wireCentreCapture (t : Tile) (p : Pin) (levelUv : Int)
  | wireFaultDetect (t : Tile) (p : Pin) (x : PinLevel)
  | wireCheckPeriod (t : Tile) (p : Pin) (first : Nat)
  | wireCheckResult (t : Tile) (p : Pin) (upUv downUv : Int)
  | dwellStart (t : Tile)
  | handover (t : Tile) (meanDiff gainDiff skewDiff : Nat) (slope : Bool)
  | calibrateDone (t : Tile) (trims : Word × Word) (completed : Bool)
  | returnShadowDone (t : Tile) (ofsStep gainStep skewStep : Int) (trimOutside : Bool)
  | handback (t : Tile)
  | forcedHandback (t : Tile)
  | clearPark (r : Req) (t : Tile) (value : Word)
  | reliefWarmupEnd (t : Tile)
  | calCtrlRangeCal (r : Req) (t : Tile) (value : Word)
  | rangeCalDone (t : Tile) (terms : List (Word × Word))
  | manualTrimApply (r : Req) (t : Tile) (value : Word)
  | manualTrimEffect (t : Tile)
  | signalBoxPeriod
  | timerExpire (p : Fin 8) (k : Fin 4)
  | prefillEnd (p : Fin 8)
  | rearmEnd (p : Fin 8)
  | captureClose (p : Fin 8)
  | hitWindowClose (c : Fin 64)
  | triggerLineMessage (m : TmHead) (lines set : Byte) (bytes : List Byte)
  | triggerPrimitiveForward (m : TmHead) (bytes : List Byte)
  | hello (m : TmHead) (verMin verMax : Byte) (module : BitVec 16)
  | helloSend (p : Port)
  | helloTimeout (p : Port)
  | frameForward (p : Port) (f : FrameFacts) (bytes : List Byte)
  | frameDropped (p : Port) (f : FrameFacts)
  | arpRequest (p : Port) (targetIp : Word) (sender : ArpSender) (bytes : List Byte)
  | sampleFrameReceived (t : Tile) (frameNo : Word) (errs : List (Nat × Byte)) (dead : BitVec 16) (skipped : List Bool) (replayOk : Bool)
  | frameOverdue (t : Tile) (lateNs : Nat) (replayOk : Bool)
  | switchSegmentReceived (t : Tile) (period : Nat) (levels : List (List Int)) (link : Option (List (Nat × Byte)))
  | laneAlignmentLoss (t : Tile)
  | tileLost (t : Tile)
  | tileRetry (t : Tile) (trained : Bool)
  | lookbackAgeOut (w : WinId) (first last : Nat)
  | recordSend
  | bdtDataSend (p : Fin 2) (stream : BitVec 16)
  | shortPacket (p : Fin 2) (stream : BitVec 16)
  | heartbeat (p : Fin 2)
  | ack (a : AckPkt)
  | retransmitTimeout (stream : BitVec 16) (seg : BitVec 64)
  | abandon (stream : BitVec 16) (seg : BitVec 64)
  | portDown (p : Port) (loss : LinkLoss)
  | portUp (p : Port)
  | lnkSwitch (r : Req) (value : Word)
  | switchoverOverlapEnd
  | storeAndForwardEnd (p : Fin 2)
  | exerciseB (r : Req) (value : Word)
  | unitComplete (c : Fin 64)
  | engineResult (e : Fin 32) (mismatch : Bool)
  | cmpDeadlineExpire (e : Fin 32)
  | quarantineRelease (r : Req) (value : Word)
  | cmpInject (r : Req) (value : Word)
  | ringUnitWrite
  | dptRegionWrite (r : Req) (value : Word)
  | holdFreeze (n : Fin 4)
  | storeHoldFreeze (n : Fin 4)
  | drainComplete (n : Fin 4)
  | releaseComplete (n : Fin 4)
  | scrubStep (upset : List (Nat × Byte))
  | scrubMapPass (upset : List (Nat × BitVec 72))
  | bucketLeak
  | stackTemperature (stack : Fin 4) (celsius : Int)
  | dptFlipArm (r : Req) (value : Word)
  | dptFlipAddr (r : Req) (value : Word)
  | dptMapflipArm (r : Req) (value : Word)
  | dptMapSel (r : Req) (value : Word)
  | sync (d : Fin 2) (m : SyncMsg)
  | delayResp (d : Fin 2) (m : DelayRespMsg)
  | announce (d : Fin 2) (m : AnnounceMsg)
  | delayReqSend (d : Fin 2) (egress : Int)
  | syncTimeout (d : Fin 2)
  | transparentClock (p : Port) (f : PtpFrame) (bytes : List Byte)
  | steeringTick
  | returnHoldExpire (d : Fin 2)
  | lTrained
  | timSnap (r : Req) (value : Word)
  | missingEdgeTrip (src : Fin 6)
  | blockLockLoss (src : Fin 2)
  | frequencyMeasurement (src : Fin 3) (ppb : Int) (vsOther : Int) (running : Bool)
  | xoRunning
  | xoTimeout
  | referenceSelect
  | wtrExpire (src : Fin 3)
  | pllLock (phasePs : Int)
  | clockLossStop (phasePs : Int)
  | samplingResume
  | coreFault
  | rcTrim (lane : Fin 3) (err : Int)
  | gateRequest (island : Fin 36) (by_ : Requester)
  | gateClosed (island : Fin 36)
  | gateBusy (island : Fin 36)
  | gateOpen (island : Fin 36) (by_ : Requester)
  | clkGateHostEng (r : Req) (value : Word) (busy : Word)
  | clkGateHostMisc (r : Req) (value : Word) (busy : Word)
  | timetableTick (m : Measure)
  | shedStep
  | shedRestore
  | pwrStatRestore (r : Req) (value : Word)
  | samplingStop
  | auxRailUp (mv : Nat) (straps : BitVec 12)
  | bootComplete (selfTest : BitVec 3) (patchOk : Bool)
  | patchFallback
  | startUp (f : StartFacts)
  | keyDerive
  | thermalTrip (sensor : Fin 24) (celsius : Int)
  | mainUv (mv : Nat) (heldUs : Nat)
  | mainOv (mv : Nat) (heldUs : Nat)
  | controlDomainRestart (mv : Nat) (f : StartFacts)
  | auxRailLoss (mv : Nat)
  | nrstLow (ns : Nat)
  | nrstRelease (straps : BitVec 12)
  | syncPoint (l0 l1 l2 : LaneStep)
  | resyncComplete (digestEqual : Bool)
  | ilkLaneResync (r : Req) (value : Word)
  | ilkLaneRetire (r : Req) (value : Word)
  | cstRecheck (upset : List (Nat × Byte))
  | attestJob
  | lnkProvArm (r : Req) (i : Fin 11) (value : Word)
  | tileLinkRetrained (t : Tile)
  | modeEntered
  | samplingStart
  | bootRepeat (selfTest : BitVec 3)
  deriving DecidableEq, Repr

end Sys2Proof
end

