-- ==== Sys2Proof/Decode.lean ====
section
/-! DEFINITION. Words and commands. No row of spec/opcode_table.json gives bits: the block takes commands whole, as
datagrams, frames and events, and no word of the table spells one. -/

namespace Sys2Proof

/-- The command that a word spells by the table's bits: none, for every row. -/
def decodeTableWord (_nbits _w : Nat) : Option Instr := none

end Sys2Proof
end

