-- ==== Sys2Proof/Config.lean ====
section
/-! DEFINITION. What the spec leaves to the implementation or defines by another standard. Each opaque constant has no
body: nothing can be proved of its value (log entries 5, 6 and 7). -/

namespace Sys2Proof.Config

/-- How far a time scale advances in one nominal sample period while it counts on the RC (R248), before the limit of
±0.5% of R253 is applied. -/
opaque rcAdvance : Nat → Nat

/-- The servo's new rate of a domain base after an offset; the spec gives the servo's bandwidth, not its gains (R238). -/
opaque servoRate : Nat → Int

/-- The frequency offset of the XO against module time at a moment, in 2^-44 (R246): the spec bounds it and does not give
it. -/
opaque xoOffset : Nat → Int

/-- The evaluation lag of the Signal Box, before it is brought into 200–300 periods (R135). -/
opaque lag : Nat → Nat

/-- Whether an nRST pulse of 0.5 µs to 1 µs resets (R417: it either resets fully or does nothing). -/
opaque shortPulseResets : Nat → Bool

/-- How long step 1 of a calibration store takes, before the limit of the 50 ms that the whole store has (R386). -/
opaque gatherTime : Nat → Nat

/-- How many bytes of a bank or an image have been written when a reset cuts the writing short (R388, R396). -/
opaque writtenBytes : Nat → Nat

/-- The address straps as they stand on the pins at an entry into Boot of which no command tells (R417). -/
opaque strapPins : Nat → BitVec 12

/-- A field that the spec names and gives no value in the case at hand. -/
opaque openWord : Nat → BitVec 32

/-- What a slice converts besides its input, in 2^-10 LSB: its own error, which the trims are there to correct, and what
SKEW and BW make of the signal around the sample (R85, R91): tile, slice, its SKEW and BW field values, free value. -/
opaque sliceError : Nat → Nat → BitVec 32 → Nat → Int

/-- Handles of long operations, before they are made unique in their session (R329). -/
opaque handle : Nat → BitVec 16

/-- Session ids, before they are made nonzero and unused (R322). -/
opaque sessionId : Nat → BitVec 32

/-- Nonces of AUTH_NONCE (R343). -/
opaque nonce : Nat → BitVec 128

/-- What a read of a Depot line with more than six erroneous bytes gives (R202: outside the manual's limits). -/
opaque wideLineError : Nat → Bool

/-- A byte that the reader of an uncorrectable or poisoned line is given, by free value and byte address (R203 states
only that the segment is flagged). -/
opaque damagedByte : Nat → Nat → BitVec 8

/-- What a block-map entry with more than two erroneous bits decodes to (R181 covers one and two). -/
opaque wideMapError : Nat → Nat

/-- The trims from which the relief slice starts a shadow, and the trims that the match gives (R96). -/
opaque matchedTrims : Nat → BitVec 32 × BitVec 32 × BitVec 32 × BitVec 32

/-- Whether the PROGRESS of an opcode counts bytes, items or nothing: R329 says that it is one of them. -/
opaque progressKind : BitVec 16 → Nat

/-- The trial trims of a slice in Calibrate, by free value and frame (R98). -/
opaque trialTrims : Nat → Nat → BitVec 32 × BitVec 32

/-- SHA3-512, defined by FIPS 202. -/
opaque sha3 : List (BitVec 8) → BitVec 512

/-- ML-DSA-87 verification, defined by FIPS 204: public key, message, context, signature. -/
opaque mldsaVerify : List (BitVec 8) → List (BitVec 8) → List (BitVec 8) → List (BitVec 8) → Bool

/-- ML-DSA-87 signing with the key derived from a seed: seed, message, context, byte index. -/
opaque mldsaSign : List (BitVec 8) → List (BitVec 8) → List (BitVec 8) → Nat → BitVec 8

/-- The ML-DSA-87 public key derived from a seed, byte by byte (R398). -/
opaque mldsaPublic : List (BitVec 8) → Nat → BitVec 8

/-- The module's ROM as the lanes hash it (R378, R399): the spec gives no contents. -/
opaque romDigest : BitVec 512

end Sys2Proof.Config
end

