-- ==== Sys2Proof/Machine/State.lean ====
section
/-! DEFINITION. The state of the block as plain data, and its value right after reset. Registers stand in two sparse
maps, the values in force and the shadows (R15, R339); what the units hold beyond their registers stands in one
structure per unit. A register that no map lists is at its stated reset value (Machine/Regs.lean). -/

namespace Sys2Proof.Machine

/-- Sparse words by address, addresses rising. -/
abbrev RegMap := List (Nat × Word)

/-- Sparse bytes by address in canonical form (Machine/Ops.lean: `Mem.wf`). -/
abbrev Mem := List Host.Cell

/-- The twelve modes (R346). -/
inductive Mode where
  | dormant | boot | safe | standby | calibrate | triggered | streaming | hold | drain | test | degraded | update
  deriving DecidableEq, Repr

inductive Variant where
  | f | l
  deriving DecidableEq, Repr

/-- A long operation of a session (R329), named from outside the session. -/
structure OpRef where
  session : Word
  handle : Nat
  deriving DecidableEq, Repr

/-- A long operation (R329). `counts` are the running counters of its result. -/
structure Op where
  handle : Nat
  opcode : BitVec 16
  done : Bool
  final : BitVec 16
  /-- Bytes moved so far. -/
  bytes : Nat
  counts : List Nat
  result : List Byte
  deriving DecidableEq, Repr

/-- A cached reply (R324, R326) and the moment of its last sending (R332). -/
structure Cached where
  seq : Word
  opcode : BitVec 16
  status : BitVec 16
  data : List Byte
  sent : Nat
  deriving DecidableEq, Repr

/-- A BCP session (R322–R329, R331, R343, R433). -/
structure Session where
  slot : Nat
  id : Word
  ip : BitVec 32
  udp : BitVec 16
  /-- Arrival port of the SESSION_OPEN, for the island in use of R280. -/
  port : Port
  version : Byte
  timeout : Nat
  last : Nat
  high : Option Word
  cache : List Cached
  atn : BitVec 12
  atnAt : List (Nat × Nat)
  snaps : RegMap
  highs : RegMap
  marks : List Nat
  ops : List Op
  nonce : Option (BitVec 128 × Nat)
  auth : Mem
  report : List Byte
  /-- SEQUENCEs of the latest requests taken, newest first, and whether each was executed (R325, R327). -/
  taken : List (Word × Bool)
  deriving DecidableEq, Repr

/-- A successful SESSION_OPEN, kept 10 s for its repetition (R322). -/
structure Opened where
  ip : BitVec 32
  udp : BitVec 16
  seq : Word
  session : Word
  at_ : Nat
  data : List Byte
  atn : Word
  deriving DecidableEq, Repr

/-- A block's latched shadow copy and the COMMITs that wait for it (R339). -/
structure Latch where
  block : Nat
  values : RegMap
  ops : List OpRef
  /-- First sample period that a boundary after the COMMIT may begin (R82, R147). -/
  first : Nat
  deriving DecidableEq, Repr

/-- The BCP server (R318–R345). -/
structure Bcp where
  sessions : List Session
  opened : List Opened
  latches : List Latch
  /-- Moment at which a soft reset is due (R341). -/
  resetAt : Option Nat
  /-- Operations that run on after their session has closed, with their opcodes: their results are discarded (R323). -/
  orphans : List (OpRef × BitVec 16)
  deriving DecidableEq, Repr

/-- A transition in progress (R354). -/
structure Trans where
  target : Mode
  base : Mode
  op : Option OpRef
  /-- The transition ends sampling (R350). -/
  ends : Bool
  /-- Programs are disarmed and hit windows have stopped opening (R350). -/
  stopping : Bool
  /-- First sample period that a boundary after its acceptance may begin (R350). -/
  first : Nat
  deriving DecidableEq, Repr

/-- Rails, power domains and modes (R21, R346–R359). -/
structure Modes where
  /-- The mode beneath Degraded (R347), and its base: its own, but in Hold and Test. -/
  inner : Mode
  base : Mode
  lastFrom : Mode
  staySafe : Bool
  /-- Update was entered from Degraded, which it stays in while a cause stands (R352). -/
  keepDegraded : Bool
  trans : Option Trans
  auxMv : Nat
  mainMv : Nat
  nrstLow : Bool
  control : Bool
  att : Bool
  data : Bool
  depot : Bool
  tiles : BitVec 4
  /-- A thermal trip holds the module in Safe until it has cooled (R357). -/
  thermal : Bool
  /-- Tiles that sample. -/
  sampling : Bool
  /-- First period that is no longer sampled, from a stop's frame boundary on (R273, R350). -/
  last : Option Nat
  /-- A transition has asked for sampling to start at the next frame boundary (R349). -/
  startPending : Bool
  /-- Ring writes as the mode allows them (R346). -/
  ringMode : Bool
  /-- Ring writes by the period from which on, newest first. -/
  ringEdges : List (Nat × Bool)
  deriving DecidableEq, Repr

/-- An armed excitation source with its latched launch time (R56). -/
structure Arm where
  source : Fin 4
  launch : Nat
  sent : Nat
  deriving DecidableEq, Repr

/-- Wire watch on one pin: since when it watches in its mode, the window centre and its moment, whether the present
excursion has been detected (R76); the start of the check period, a wanted check and a scheduled one by its first frame
(R77). -/
structure Wire where
  pin : Nat
  since : Nat
  centre : Option (Int × Nat)
  detected : Bool
  periodAt : Nat
  wanted : Bool
  check : Option Nat
  deriving DecidableEq, Repr

/-- A TSW output: its level before INV, the 2 ns steps it must still stay high, and the level at the connector, none at
high impedance (R73, R416). -/
structure Tsw where
  high : Bool
  left : Nat
  out : Option Bool
  deriving DecidableEq, Repr

/-- A channel's ranging amplifier beyond its registers (R63–R67). -/
structure Front where
  /-- Module time of a scout crossing that waits for its decision (R63), and of the scout's re-arm. -/
  crossed : Option Nat
  rearmAt : Nat
  /-- Period of the undelayed signal from which the hold count runs (R66). -/
  holdFrom : Nat
  /-- Range tags by the sample period from which on they hold, newest first. -/
  tags : List (Nat × Nat)
  deriving DecidableEq, Repr

/-- The four trim words of a slice (SLC_SLs_TRIM0–3). -/
structure Trims where
  t0 : Word
  t1 : Word
  t2 : Word
  t3 : Word
  deriving DecidableEq, Repr

/-- A dwell in progress (R96). -/
structure Dwell where
  slice : Nat
  /-- First period of the frame at which it began (D), and of the first frame after Calibrate. -/
  start : Nat
  calAt : Nat
  /-- Index of the free values that the slice's trims hold during Calibrate (R98). -/
  trial : Nat
  /-- The dwell retries a parked slice (R105). -/
  retry : Bool
  /-- The relief slice produces the channel's samples. -/
  standing : Bool
  calibrated : Bool
  returned : Bool
  deferred : Bool
  old : Trims
  new_ : Trims
  step : Int × Int × Int
  deriving DecidableEq, Repr

/-- An entry of the handback history (R104). -/
structure HistEntry where
  seconds : Word
  nanos : Word
  step : Int × Int × Int
  slice : Nat
  channel : Nat
  manual : Bool
  abandoned : Bool
  forced : Bool
  deriving DecidableEq, Repr

/-- The relief rotation of a tile beyond its CAL_ registers (R95–R113). -/
structure Relief where
  dwell : Option Dwell
  /-- Slice of the next dwell. -/
  next : Nat
  /-- A dwell waits for a Timetable grant (R109), the grant, and the first period of the frame at which the dwell then
  begins; a grant held for the present Timetable period, before the dwell is requested (R95). -/
  waiting : Bool
  granted : Bool
  startAt : Nat
  ahead : Bool
  retry : Bool
  warmUntil : Option Nat
  /-- Working slice that the relief slice stands in for while parked (R105), and the trims it had before its dwell. -/
  parked : Option Nat
  parkedOld : Trims
  matchFails : List (Nat × Nat)
  manual : Option (Nat × Trims × Nat)
  /-- What the first frame after a clock-loss stop must carry (R111): slice, channel, new trims, their step. -/
  resume : Option (Nat × Nat × Bool × (Int × Int × Int))
  rangeOp : Option OpRef
  hist : List HistEntry
  deriving DecidableEq, Repr

/-- A tile beyond its registers. -/
structure TileState where
  /-- Switch states, bit 2k + s (R69). -/
  sw : BitVec 32
  tsw0 : Tsw
  tsw1 : Tsw
  arms : List Arm
  /-- Bias sources that are loaded beyond 10 mA now (R59). -/
  sagging : BitVec 4
  /-- Amplifier terms by channel as the present sampling found them, CAL_CHk_AMP0 and AMP1 (R92, R112). -/
  amps : List (Word × Word)
  /-- Trims by slice and the period from which on they convert, newest first (R91). -/
  trimLog : List (Nat × Nat × Trims)
  /-- Spans in which the amplifiers have the reference injection at their inputs: first period, one past the last (R112). -/
  inject : List (Nat × Option Nat)
  fronts : Vector Front 16
  wires : List Wire
  /-- Frames of a voided wire check by channel: first and last period (R78). -/
  voids : List (Nat × Nat × Nat)
  relief : Relief
  /-- Flags HANDOVER and TRIM_STEP by the first period of their frame and the local channel (R94). -/
  nextFlags : List (Nat × Nat × Byte)
  /-- Channels that sample, by the period from which on, newest first. -/
  masks : List (Nat × BitVec 16)
  /-- First period of the next switch-stream segment (R312), the words of the frame being filled, and the last eight
  frames sent, by their first period (R311). -/
  swPeriod : Nat
  building : List Sample
  sent : List (Nat × List Sample)
  /-- Spans in which the relief slice is the source in the place of a slice: slice, first period, one past the last. -/
  spans : List (Nat × Nat × Option Nat)
  /-- Sample frames received since sampling started (R310, FRAME_NO expected next). -/
  frameNo : Nat
  /-- The module period of the next frame's first sample. -/
  framePeriod : Nat
  gapNext : Bool
  trainSince : Nat
  retryAt : Nat
  deriving DecidableEq, Repr

/-- A received frame in the look-back buffer (R28). -/
structure Frame where
  no : Nat
  first : Nat
  words : List Sample
  flags : List Byte
  sampling : BitVec 16
  ilv : BitVec 8
  lost : Bool
  /-- GAP: the first frame after sampling starts or resumes (R274, R310). -/
  gap : Bool
  deriving DecidableEq, Repr

/-- Words of one channel copied into a window: module channel, first period, words. -/
structure Piece where
  chan : Nat
  first : Nat
  words : List Sample
  deriving DecidableEq, Repr

/-- Frame flags of a channel inside a window: module channel, the frame's first period, the flags (R94, R152). -/
structure FlagMark where
  chan : Nat
  first : Nat
  flags : Byte
  deriving DecidableEq, Repr

/-- A capture or hit window and the record it becomes (R129, R139, R159). -/
structure Win where
  id : WinId
  trigger : Nat
  first : Nat
  pre : Nat
  post : Nat
  maxLen : Nat
  program : Bool
  close : Option Nat
  chans : BitVec 64
  ilv : BitVec 32
  coincidence : Word
  /-- Header flags known so far: TRUNCATED, WIRE_FAULT, CLOCK_LOSS, UNCAL at the close, and the time bits 8–10 of window
  period 0. -/
  flags : BitVec 16
  pieces : List Piece
  marks : List FlagMark
  /-- Lost spans: channel, first and last period, cause (0 link, 1 aged, 2 shed). -/
  lost : List (Nat × Nat × Nat × Nat)
  /-- Suspect spans: channel, first and last period, cause (0 wire check, 1 wire fault). -/
  suspect : List (Nat × Nat × Nat × Nat)
  swLost : List (Nat × Nat)
  /-- Switch bits of both switches, newest first, down to the period before the window. -/
  sws : List (BitVec 64 × BitVec 64)
  seq : Option Nat
  endAt : Option Nat
  long : Bool
  reserved : Nat
  place : Nat
  deriving DecidableEq, Repr

structure Cnt where
  val : BitVec 32
  run : Bool
  deriving DecidableEq, Repr

structure Tmr where
  val : BitVec 40
  run : Bool
  expired : Bool
  deriving DecidableEq, Repr

/-- A Signal Box program beyond its registers (R115, R116). -/
structure Prog where
  armed : Bool
  armPeriod : Nat
  state : BitVec 4
  cnt : Vector Cnt 4
  tmr : Vector Tmr 4
  prefill : Bool
  rearm : Bool
  win : Option Win
  /-- Last period of the previous window (R132). -/
  lastEnd : Option Nat
  deriving DecidableEq, Repr

/-- What one program shows the conditions of a period (R117). -/
structure ProgIn where
  armed : Bool
  state : BitVec 4
  ready : Bool
  cnt : List (BitVec 32)
  expired : List Bool
  deriving DecidableEq, Repr

/-- The inputs of one period (R117). -/
structure Inputs where
  sw0 : BitVec 64
  sw1 : BitVec 64
  lines : Byte
  progs : List ProgIn
  deriving DecidableEq, Repr

/-- A wire fault on a channel: the period of its detection, its close boundary, and the start and length in µs of the
suspect span (R81, R158). -/
structure WireMark where
  chan : Nat
  found : Nat
  boundary : Nat
  start : Nat
  lookback : Nat
  deriving DecidableEq, Repr

/-- A message in the queue of a timing-out port (R138, R306). -/
structure TmMsg where
  bytes : List Byte
  deriving DecidableEq, Repr

/-- The Signal Box (R115–R147). -/
structure Sbx where
  /-- Next period to evaluate, counted from the start of sampling, and the module time of period 0. -/
  period : Nat
  t0 : Int
  progs : Vector Prog 8
  hits : List Win
  /-- Last period of the previous hit window by channel. -/
  hitEnds : List (Nat × Nat)
  strStart : Nat
  closing : List Win
  /-- Channels, trigger and last periods of windows that closed in the last 1.1 ms (R81, R101). -/
  recent : List (BitVec 64 × Nat × Nat)
  /-- Wire faults whose period of detection is still to be evaluated, marker records that wait for their close boundary,
  and the clock-gap marker by its period and TIME (R81, R157). -/
  wireCuts : List WireMark
  wireMarks : List WireMark
  gapMark : Option (Nat × Nat)
  prev : Inputs
  /-- Switch words delivered by the switch streams: tile, period, bits. -/
  swBuf : List (Nat × Nat × BitVec 32)
  swLost : List (Nat × Nat)
  /-- Switch bits of evaluated periods, newest first (R72, R142). -/
  hist : List (BitVec 64 × BitVec 64)
  /-- Changes of the time bits 8–10 of R151: the period at the pins, and the bits before; newest first. -/
  timeLog : List (Nat × BitVec 16)
  linesA : Byte
  linesB : Byte
  /-- Line changes that wait for their period: period, in-port B, lines, set (R137). -/
  lineQ : List (Nat × Bool × Byte × Byte)
  look : Vector (List Frame) 4
  deriving DecidableEq, Repr

/-- A record that is built and waits for its turn (R159): its route field and whether it stands in the Store already. -/
structure Built where
  seq : Nat
  kind : Nat
  bytes : List Byte
  long : Bool
  place : Nat
  staged : Nat
  deriving DecidableEq, Repr

/-- An island of the Concourse (R33). -/
inductive Island where
  | receiver (t : Fin 4)
  | signalBox
  | engine (e : Fin 32)
  | builder
  | stackPort (k : Fin 4)
  | packetizer (p : Fin 2)
  | registerPort
  deriving DecidableEq, Repr

/-- A 64-byte cell with its routing tag (R32): destination, flow by its class (R35), cell type (R162), end mark (R161). -/
structure Cell where
  dest : Island
  flow : Nat
  type : Nat
  endMark : Bool
  data : List Byte
  deriving DecidableEq, Repr

/-- An entry of the live queue (R163): a record's cells or a reference, with the bytes a packetizer has taken. -/
structure LiveEnt where
  seq : Nat
  length : Nat
  cells : List Cell
  isRef : Bool
  taken : Nat
  /-- The record that a reference names, once it has been read from the Store, and its lost lines (R160, R203). -/
  read : Option (List Byte × List Nat)
  at_ : Nat
  deriving DecidableEq, Repr

/-- A record of the host-read queue and the number of its cells already returned (R169). -/
structure HrEnt where
  seq : Nat
  cells : List Cell
  taken : Nat
  deriving DecidableEq, Repr

/-- The record builder and queues (R159–R170). -/
structure Que where
  staging : Nat
  built : List Built
  live : List LiveEnt
  hostRead : List HrEnt
  /-- End of a Mainline's store-and-forward span (R167). -/
  safA : Option Nat
  safB : Option Nat
  /-- The record being taken from the live queue was started in store-and-forward service (R168). -/
  saf : Bool
  deriving DecidableEq, Repr

/-- A block-map entry (R181). -/
structure MapEnt where
  owner : BitVec 3
  slot : BitVec 2
  poison : Bool
  dirLost : Bool
  poisonLines : Nat
  starts : Nat
  generation : BitVec 32
  deriving DecidableEq, Repr

/-- A unit in the Ring or in held blocks (R184), with the generation of each block it occupies. -/
structure RUnit where
  useq : Nat
  chan : Nat
  block : Nat
  offset : Nat
  length : Nat
  descriptor : List Byte
  gens : List (Nat × BitVec 32)
  /-- Module times of the first and the last present sample (R187), and whether one is held. -/
  tFirst : Nat
  tEnd : Nat
  present : Bool
  deriving DecidableEq, Repr

/-- A record's place in the Store or in held blocks (R190) and the blocks it occupies: a long-path record has its
SEQUENCE only from its close on, and `stored` once all its cells are written. -/
structure SRec where
  seq : Option Nat
  stored : Bool
  block : Nat
  offset : Nat
  length : Nat
  gens : List (Nat × BitVec 32)
  order : Nat
  deriving DecidableEq, Repr

/-- A Depot reader that an error log entry names (R209). -/
inductive LogSource where
  | scrubber | uplink | hostRead | ringDrain | retransmission | directory | mapLookup
  deriving DecidableEq, Repr

/-- An entry of the error log (R209). -/
structure LogEnt where
  d0 : Word
  d1 : Word
  d2 : Word
  d3 : Word
  deriving DecidableEq, Repr

/-- A hold slot beyond its registers (R192–R200). -/
structure Hold where
  ta : Nat
  pre : Nat
  post : Nat
  firstSeq : Nat
  ringDone : Bool
  storeDone : Bool
  /-- Allocation order up to which records are to be frozen (R197). -/
  order : Nat
  op : Option OpRef
  drainOp : Option OpRef
  releaseOps : List OpRef
  mask : BitVec 64
  drainStore : Bool
  autoRelease : Bool
  deriving DecidableEq, Repr

/-- The Depot controller (R174–R212). -/
structure Depot where
  mem : Mem
  /-- XOR masks of erroneous codeword bytes: line, byte 0–71, mask (R201). -/
  errs : List (Nat × Nat × Byte)
  map : List (Nat × MapEnt)
  mapErrs : List (Nat × BitVec 72)
  lend : List (Nat × Nat)
  units : List RUnit
  recs : List SRec
  /-- Blocks whose directory has been written to the System region (R186, R190). -/
  dirs : List Nat
  /-- Writer positions: block and byte offset, none before the first block. -/
  ringPos : Option (Nat × Nat)
  storePos : Option (Nat × Nat)
  order : Nat
  holds : Vector Hold 4
  drainQ : List Nat
  log : List LogEnt
  mapSel : BitVec 64
  scrubLine : Nat
  passStart : Nat
  /-- Moments of the latest walk over the map and of the latest leak of the buckets (R205, R206). -/
  mapAt : Nat
  leakAt : Nat
  deriving DecidableEq, Repr

/-- A Ring unit being filled (R183). -/
structure UnitB where
  chan : Nat
  ilv : Bool
  /-- First period and its time-stamp. -/
  first : Nat
  time : Nat
  /-- Statuses and flags of the frame slots so far, and their words, oldest first. -/
  status : List (BitVec 2)
  flags : List Byte
  words : List Sample
  closed : Bool
  deriving DecidableEq, Repr

/-- A block in an engine (R218–R221). -/
structure Job where
  unit : UnitB
  at_ : Nat
  /-- When it is to be settled, by the CMP_DEADLINE in force when it was offered (R221, R227). -/
  due : Nat
  /-- The engine of the first attempt, for a retry (R220). -/
  first : Option Nat
  /-- A mismatched first attempt that waits for a retry engine. -/
  waiting : Bool
  /-- The retry runs on another engine. -/
  lent : Bool
  /-- Encoding has begun, and the encoder's output is corrupted (R226). -/
  started : Bool
  inject : Bool
  injectRetry : Bool
  deriving DecidableEq, Repr

/-- A unit ready for the Ring writer (R185). `fromEngine` units reach it as an engine's class 4 traffic; those that never
entered an engine, and those that a deadline or a failed retry sends raw, in class 1 (R36, R219, R221). -/
structure Ready where
  unit : UnitB
  compressed : Bool
  fromEngine : Bool
  body : List Byte
  deriving DecidableEq, Repr

/-- The compression engines (R217–R229). -/
structure Cmp where
  building : List UnitB
  jobs : Vector (List Job) 32
  lastEng : Nat
  /-- Moments of an engine's lasting faults in its 1 s window (R222). -/
  faults : List (Nat × List Nat)
  ready : List Ready
  /-- Input and output bytes of compressed units, and unit and stored bytes, in the present 1 ms period. -/
  inBytes : Nat
  outBytes : Nat
  unitBytes : Nat
  storedBytes : Nat
  deriving DecidableEq, Repr

/-- What a stream carries (R289, R292). -/
inductive Item where
  | record (seq : Nat)
  | unit (useq : Nat)
  | prbs
  deriving DecidableEq, Repr

/-- A sent segment that is not settled (R296): its items as offsets and lengths, and its times. -/
structure Seg where
  seq : Nat
  port : Fin 2
  parts : List (Item × Nat × Nat)
  firstOffset : Nat
  flags : BitVec 16
  sentAt : Nat
  /-- Order of the latest sending. -/
  order : Nat
  retx : Nat
  deadline : Nat
  deriving DecidableEq, Repr

/-- An item of a stream in the read queue (R163): its length, how many of its bytes have been sent, the Depot read cells
that hold the bytes read and not yet sent, from the cell of byte `start` on (R32, R162), its lost lines (R203), and the
generations of a unit's blocks before it was read (R189). -/
structure Loaded where
  item : Item
  length : Nat
  start : Nat
  cells : List Cell
  bad : List Nat
  gens : List (Nat × BitVec 32)
  deriving DecidableEq, Repr

/-- What a Ring request still looks for when its items run out: channels, span, and the UNIT_SEQ to go on from (R188). -/
structure RingReq where
  mask : BitVec 64
  tStart : Nat
  tEnd : Nat
  next : Nat
  deriving DecidableEq, Repr

/-- A BDT stream (R289–R297). -/
structure Stream where
  id : BitVec 16
  next : Nat
  segs : List Seg
  /-- Settled segments above an unsettled one, each with the order of its latest sending (R296). -/
  past : List (Nat × Nat)
  /-- Items still to be read; those in the read queue. -/
  items : List Item
  loaded : List Loaded
  ring : Option RingReq
  /-- The segment with END has gone out; no further item is taken (STREAM_ABORT, R303). -/
  ended : Bool
  stopped : Bool
  retx : Nat
  sentBytes : Nat
  /-- The PRBS31 register of the exercise stream (R303). -/
  prbs : Nat
  op : Option OpRef
  slot : Option (Fin 4)
  final : BitVec 16
  deriving DecidableEq, Repr

/-- A BDT destination (R341). -/
structure Bind where
  mac : BitVec 48
  ip : BitVec 32
  udp : BitVec 16
  deriving DecidableEq, Repr

/-- A timing port's message version state (R314). -/
structure TPort where
  upAt : Option Nat
  version : Option Nat
  seq : BitVec 16
  /-- Moment of the last HELLO sent, and whether one has been received. -/
  helloAt : Option Nat
  heard : Bool
  deriving DecidableEq, Repr

/-- What leaves the module (R319, R290, R307, R286, R56, R73). -/
inductive Tx where
  | reply (port : Port) (mac : BitVec 48) (ip : BitVec 32) (udp : BitVec 16) (opcode : BitVec 16) (status : BitVec 16)
      (replayed : Bool) (seq session attention : Word) (version : Byte) (data : List Byte)
  | data (port : Fin 2) (dest : Bind) (stream : BitVec 16) (seg : Nat) (flags : BitVec 16) (firstOffset : Nat)
      (itemSeq : Nat) (bytes : List Byte)
  | heartbeat (port : Fin 2) (dest : Bind) (next : Nat) (flags : BitVec 16) (time : Nat)
  | timing (port : Port) (bytes : List Byte)
  | ptp (port : Port) (correction : Int) (bytes : List Byte)
  | forward (port : Port) (bytes : List Byte)
  | arp (port : Port) (senderMac : BitVec 48) (senderIp : Word) (targetMac : BitVec 48) (targetIp : Word)
  | delayReq (port : Port) (domainNumber : Byte) (seqId : BitVec 16)
  /-- A pulse: its leading edge in ps of module time, baseline and amplitude in their steps, its direction and its width
  in sample periods (R54–R56). -/
  | pulse (tile : Fin 4) (source : Fin 4) (index : Nat) (timePs : Nat) (baseline amp : Nat) (negative : Bool) (width : Nat)
  | tsw (tile : Fin 4) (out0 out1 : Option Bool)
  /-- A provoked frame: four bytes from an offset on are XORed with a pattern (R316). -/
  | corrupt (offset : Nat) (pattern : Word) (frame : Tx)
  deriving DecidableEq, Repr

/-- What a provocation does to one frame (R316). -/
inductive Provoked where
  | pass
  | drop
  | xor (offset : Nat) (pattern : Word)
  | swapFirst
  | swapSecond
  deriving DecidableEq, Repr

/-- A PTP message of which one of its two commands has come, by what tells it from the others on its port, and what a
provocation did to its frame. `clock`: that command was the transparent clock's. -/
structure PtpSeen where
  clock : Bool
  port : Port
  type : PtpType
  source : BitVec 80
  seqId : BitVec 16
  fate : Provoked
  deriving DecidableEq, Repr

/-- The link controllers (R282–R317). -/
structure Lnk where
  streams : List Stream
  order : Nat
  bindA : Option Bind
  bindB : Option Bind
  overlap : Option Nat
  /-- Retransmissions that wait for the live queue: stream and SEG_SEQ, oldest first (R31, R163). -/
  resends : List (BitVec 16 × Nat)
  /-- Bonded ports that return and wait out their 10 ms (R304). -/
  rejoin : List (Fin 2)
  /-- Moment since which no Mainline is up (R296, R300). -/
  noneUp : Option Nat
  tports : Vector TPort 4
  /-- Message queues of A-out and B-out, and when the message being sent ends (R138). -/
  qA : List TmMsg
  qB : List TmMsg
  busyA : Nat
  busyB : Nat
  /-- Other frames that wait at A-out and B-out, with their lengths (R306). -/
  oA : List (Tx × Nat)
  oB : List (Tx × Nat)
  /-- Frames counted on a provoked target since ARM, by target (R316). -/
  prov : List (Nat × Nat)
  /-- Frames held back to be swapped with the next one, sent and received, by port (R316). -/
  heldTx : List (Nat × Tx)
  heldRx : List (Nat × List Instr)
  /-- PTP frames that an armed provocation has met, whose other command is still to come (log entry 160). -/
  ptpSeen : List PtpSeen
  deriving DecidableEq, Repr

/-- A pending residence time of a two-step Sync (R249). -/
structure Resid where
  seqId : BitVec 16
  source : BitVec 80
  domainNumber : Byte
  residence : Int
  at_ : Nat
  deriving DecidableEq, Repr

/-- A time domain beyond its registers (R236–R239). -/
structure Dom where
  /-- The base in 2^-60 ns and its rate in 2^-44. -/
  base : Int
  rate : Int
  lastSync : Nat
  good : Nat
  lockedAt : Option Nat
  master : Option AnnounceMsg
  /-- The masters heard, by their latest Announce and its moment, and the grandmaster last announced (R237, R239). -/
  heard : List (AnnounceMsg × Nat)
  lastGm : Option (BitVec 64)
  sync : Option SyncMsg
  gotResp : Bool
  req : Option (BitVec 16 × Int)
  reqSeq : BitVec 16
  reqLog : BitVec 8
  reqAt : Nat
  /-- The next offset is the first in ACQUIRING; an offset has been measured since a restart (R253); LOCKED for
  RETURN_HOLD (R245). -/
  fresh : Bool
  measured : Bool
  held : Bool
  pend : List Resid
  deriving DecidableEq, Repr

/-- A step of module time that waits for the next steering tick (R243). -/
structure StepReq where
  form : Nat
  value : Int
  op : Option OpRef
  deriving DecidableEq, Repr

/-- The Station Clock (R230–R255). -/
structure Tim where
  /-- Elapsed time and module time in 2^-16 ns. -/
  now : Nat
  mt : Nat
  domA : Dom
  domB : Dom
  baseL : Int
  rateL : Int
  steps : List StepReq
  /-- The first-lock step is due at the next tick (R242); SEL has been written, and committed (R245). -/
  firstDue : Bool
  wroteSel : Bool
  reselect : Bool
  /-- Moment since which L tracks, and since which it is the reference, with the bound it then held (R246, R253). -/
  trackAt : Option Nat
  /-- Time tracked before that, since the last reference use (R246, R255). -/
  tracked : Nat
  refAt : Nat
  refBound : Word
  stopAt : Nat
  stopBound : Word
  /-- Frame boundary at which the scales are to move to the RC, in module time (R248, R273). -/
  stopDue : Option Nat
  deriving DecidableEq, Repr

/-- The clock sources and gates beyond their registers (R256–R280). -/
structure Clk where
  validAt : List (Nat × Nat)
  xoRunAt : Option Nat
  /-- The PLL has been given a reference and acquires it (R267, R274). -/
  acquiring : Bool
  /-- Rate that the PLL applies to both paths while the XO is its reference, in 2^-44 (R270). -/
  lineRate : Int
  /-- The stop found tiles sampling (R274), and the moments of the loss and of the last sample. -/
  stopSampling : Bool
  lossAt : Nat
  lastSample : Nat
  rcLane : Nat
  /-- RCs that the trim has measured since Boot, by lane (R261). -/
  rcSeen : BitVec 3
  /-- Gate requests: island, by Timetable, fault, host. -/
  gates : List (Nat × Bool × Bool × Bool)
  closing : List Nat
  fenced : List Nat
  deriving DecidableEq, Repr

/-- The Interlocking lanes (R373–R380). -/
structure Ilk where
  /-- Moment of each lane's previous disagreement. -/
  lastDis : List (Nat × Nat)
  resync : Option Nat
  forced : List Nat
  /-- The lane that disagreed at the last sync point: its resync begins at the next one (R375). -/
  due : Option Nat
  /-- Lanes that the latest self-test of this Boot has kept out of the voter, and when that Boot began (R378). -/
  selfOut : BitVec 3
  bootAt : Nat
  /-- Audits in progress with their seeds, oldest first (R380). -/
  audits : List (OpRef × Word)
  deriving DecidableEq, Repr

/-- A job of the attestation engine (R399). -/
inductive AttJob where
  | report (op : OpRef) (challenge : BitVec 256)
  | check (op : OpRef) (opcode target : BitVec 16) (params : List Byte) (nonce : Option (BitVec 128 × Nat)) (auth : List Byte)
  deriving DecidableEq, Repr

/-- A CST_STORE in progress with the bank it writes (R386): the moment at which step 1 ends and the target's seal is zeroed,
and whether that has happened. -/
structure CstJob where
  target : Nat
  op : OpRef
  image : List Byte
  zeroAt : Nat
  zeroed : Bool
  deriving DecidableEq, Repr

/-- An FW_INSTALL past its checks: the slot, its seal zeroed, and the image that is being written (R396). -/
structure Install where
  op : OpRef
  slot : Nat
  image : List Byte
  deriving DecidableEq, Repr

/-- The nonvolatile memories: the OTP array (R390) and the MRAM that the constants pages lie in (R382). -/
structure Nv where
  otp : Mem
  mram : Mem
  deriving DecidableEq, Repr

/-- The persistent-state engine and the attestation engine beyond their registers (R382–R402). -/
structure Pers where
  cst : Option CstJob
  recheckAt : Nat
  fwBuf : Mem
  fwHeld : Nat
  install : Option Install
  jobs : List AttJob
  deriving DecidableEq, Repr

/-- The Timetable beyond its registers (R360–R371); costs in 0.01 W. -/
structure Timetable where
  /-- The loop runs (R355 step 8, R360). -/
  running : Bool
  granted : Nat
  /-- Consecutive ticks that call for shedding, ticks of headroom for a restore (R367, R369). -/
  overTicks : Nat
  restore : Nat
  /-- The latest tick left a shortfall of the mandatory load that the lane cannot carry (R366). -/
  short : Bool
  /-- What each shed step in force did: step, channels shed, lane lowered. -/
  steps : List (Nat × BitVec 64 × Bool)
  compOff : Bool
  laneDown : Nat
  /-- PWR_BUDGET as BUDGET_SET has written it, for the next tick (R361). -/
  budget : Option Word
  deriving DecidableEq, Repr

/-- The block's state. `pending` is the queue of waiting commands, first in, first out. `free` counts the free values
taken so far and is the model's own field (log entry 4); `evt` orders attention events and replies (R332). -/
structure State where
  pending : List Instr
  variant : Variant
  straps : BitVec 12
  regs : RegMap
  shadow : RegMap
  bcp : Bcp
  modes : Modes
  tiles : Vector TileState 4
  sbx : Sbx
  que : Que
  dpt : Depot
  cmp : Cmp
  lnk : Lnk
  tim : Tim
  clk : Clk
  ilk : Ilk
  nv : Nv
  pers : Pers
  tt : Timetable
  tx : List Tx
  evt : Nat
  free : Nat
  deriving DecidableEq, Repr

/-- Reasons to stop with a fault: the spec gives none to this block, so no meaning raises one. -/
inductive Fault where
  /-- Raised by nobody; the type is kept inhabited for the host's interface. Safe. -/
  | none_
  deriving DecidableEq, Repr

/-- Reasons to refuse a command. -/
inductive Refusal where
  /-- Raised by Machine/Dispatch.lean for a command whose meaning is not written yet. Safe: nothing is claimed of it. -/
  | notModelled (mnemonic : String)
  deriving DecidableEq, Repr

def Trims.reset : Trims := ⟨0, 0x200000, 0, 0⟩

def Relief.reset : Relief :=
  { dwell := none, next := 0, waiting := false, granted := false, startAt := 0, ahead := false, retry := false,
    warmUntil := none, parked := none, parkedOld := Trims.reset,
    matchFails := [], manual := none, resume := none, rangeOp := none, hist := [] }

def Front.reset : Front := ⟨none, 0, 0, []⟩

def TileState.reset : TileState :=
  { sw := 0, tsw0 := ⟨false, 0, none⟩, tsw1 := ⟨false, 0, none⟩, arms := [], sagging := 0, amps := [], trimLog := [],
    inject := [],
    fronts := Vector.replicate 16 Front.reset, wires := [],
    voids := [], relief := Relief.reset,
    nextFlags := [], masks := [], swPeriod := 0, building := [], sent := [], spans := [], frameNo := 0,
    framePeriod := 0, gapNext := false, trainSince := 0, retryAt := 0 }

def Prog.reset : Prog :=
  { armed := false, armPeriod := 0, state := 0, cnt := Vector.replicate 4 ⟨0, false⟩,
    tmr := Vector.replicate 4 ⟨0, false, false⟩, prefill := false, rearm := false, win := none, lastEnd := none }

def Inputs.reset : Inputs := ⟨0, 0, 0, []⟩

def Sbx.reset : Sbx :=
  { period := 0, t0 := 0, progs := Vector.replicate 8 Prog.reset, hits := [], hitEnds := [], strStart := 0,
    closing := [], recent := [], wireCuts := [], wireMarks := [], gapMark := none, prev := Inputs.reset, swBuf := [],
    swLost := [], hist := [], timeLog := [], linesA := 0,
    linesB := 0, lineQ := [], look := Vector.replicate 4 [] }

def Que.reset : Que :=
  { staging := 0, built := [], live := [], hostRead := [], safA := none, safB := none, saf := true }

def Hold.reset : Hold :=
  { ta := 0, pre := 0, post := 0, firstSeq := 0, ringDone := false, storeDone := false, order := 0, op := none,
    drainOp := none, releaseOps := [], mask := 0, drainStore := false, autoRelease := false }

def Depot.reset : Depot :=
  { mem := [], errs := [], map := [], mapErrs := [], lend := [], units := [], recs := [], dirs := [], ringPos := none,
    storePos := none, order := 0, holds := Vector.replicate 4 Hold.reset, drainQ := [], log := [], mapSel := 0,
    scrubLine := 0, passStart := 0, mapAt := 0, leakAt := 0 }

def Cmp.reset : Cmp :=
  { building := [], jobs := Vector.replicate 32 [], lastEng := 31, faults := [], ready := [], inBytes := 0,
    outBytes := 0, unitBytes := 0, storedBytes := 0 }

def TPort.reset : TPort := ⟨none, none, 0, none, false⟩

def Lnk.reset : Lnk :=
  { streams := [], order := 0, bindA := none, bindB := none, overlap := none, resends := [], rejoin := [], noneUp := some 0,
    tports := Vector.replicate 4 TPort.reset, qA := [], qB := [], busyA := 0, busyB := 0, oA := [], oB := [],
    prov := [], heldTx := [], heldRx := [], ptpSeen := [] }

def Dom.reset : Dom :=
  { base := 0, rate := 0, lastSync := 0, good := 0, lockedAt := none, master := none, heard := [], lastGm := none,
    sync := none, gotResp := false,
    req := none, reqSeq := 0, reqLog := 0, reqAt := 0, fresh := false, measured := true, held := false,
    pend := [] }

def Tim.reset : Tim :=
  { now := 0, mt := 0, domA := Dom.reset, domB := Dom.reset, baseL := 0, rateL := 0, steps := [], firstDue := false,
    wroteSel := false,
    reselect := false, trackAt := none, tracked := 0, refAt := 0, refBound := 0xFFFFFFFF, stopAt := 0, stopBound := 0xFFFFFFFF,
    stopDue := none }

def Clk.reset : Clk :=
  { validAt := [], xoRunAt := none, acquiring := false, lineRate := 0, stopSampling := false, lossAt := 0, lastSample := 0,
    rcLane := 0, rcSeen := 0, gates := [], closing := [], fenced := [] }

def Timetable.reset : Timetable :=
  { running := false, granted := 0, overTicks := 0, restore := 0, short := false, steps := [], compOff := false,
    laneDown := 0, budget := none }

def Bcp.reset : Bcp := { sessions := [], opened := [], latches := [], resetAt := none, orphans := [] }

/-- Right after a power-on reset: the module has just entered Boot (R359), with the auxiliary rail up, nRST high and
the main rail absent (log entry 1). -/
def Modes.reset : Modes :=
  { inner := .boot, base := .boot, lastFrom := .dormant, staySafe := false,
    keepDegraded := false, trans := none, auxMv := 3300, mainMv := 0, nrstLow := false, control := false, att := false,
    data := false, depot := false, tiles := 0, thermal := false, sampling := false, last := none, startPending := false,
    ringMode := false, ringEdges := [] }

def Ilk.reset : Ilk :=
  { lastDis := [], resync := none, forced := [], due := none, selfOut := 0, bootAt := 0, audits := [] }

/-- OTP and MRAM as an unprogrammed part holds them: every OTP bit is 0 until programmed (R390); the MRAM lists nothing
(log entry 3). -/
def Nv.reset : Nv := { otp := [], mram := [] }

def Pers.reset : Pers :=
  { cst := none, recheckAt := 0, fwBuf := [], fwHeld := 0, install := none, jobs := [] }

/-- The machine right after reset: CW-ST64-F (R2), every register at its stated reset value. -/
def State.reset : State :=
  { pending := [], variant := .f, straps := 0, regs := [], shadow := [], bcp := Bcp.reset, modes := Modes.reset,
    tiles := Vector.replicate 4 TileState.reset, sbx := Sbx.reset, que := Que.reset, dpt := Depot.reset,
    cmp := Cmp.reset, lnk := Lnk.reset, tim := Tim.reset, clk := Clk.reset, ilk := Ilk.reset, nv := Nv.reset, pers := Pers.reset,
    tt := Timetable.reset, tx := [], evt := 0, free := 0 }

end Sys2Proof.Machine
end

