-- ==== Sys2Proof/Machine/Regs.lean ====
section
/-! DEFINITION. The register maps of every block: for each register its address, its instances, its reset value and its
fields with their access codes and stated ranges (R13–R16, R44–R46). The tables follow the maps at the end of the
chapters; the comment beside a row names the register and a rule that gives it its meaning. -/

namespace Sys2Proof.Machine

/-- Access codes (R15). -/
inductive Access where
  | rw | ro | wo | wc | sh | lk
  deriving DecidableEq, Repr

/-- The values a field accepts: any; an unsigned range; a Signal Box term (R122) or action word (R125); a signed 20-bit
switch level; a signed 10-bit gain trim (R91). -/
inductive Limit where
  | any
  | range (low high : Nat)
  | term
  | act
  | s20
  | s500
  deriving DecidableEq, Repr

structure Field where
  acc : Access
  hi : Nat
  lo : Nat
  lim : Limit
  deriving DecidableEq, Repr

/-- One line of a map. `dims` are the index ranges with their strides, outermost first; the reset value of instance i
of the last index is `reset + i × stride`. -/
structure RegRow where
  base : Nat
  dims : List (Nat × Nat)
  reset : Nat
  stride : Nat
  fields : List Field
  deriving DecidableEq, Repr

def rowsIlk : List RegRow :=
  [ ⟨0x0, [], 0x10000, 0x0, [⟨.ro, 31, 0, .any⟩]⟩ -- ILK_ROMVER (R403)
  , ⟨0x4, [], 0x6400101, 0x0, [⟨.ro, 31, 0, .any⟩]⟩ -- ILK_IDENT (R5)
  , ⟨0x8, [], 0x0, 0x0, [⟨.ro, 31, 0, .any⟩]⟩ -- ILK_EUI64_LO (R403)
  , ⟨0xC, [], 0x0, 0x0, [⟨.ro, 31, 0, .any⟩]⟩ -- ILK_EUI64_HI (R403)
  , ⟨0x10, [], 0x111, 0x0, [⟨.ro, 10, 0, .any⟩]⟩ -- ILK_LANE_STAT (R403)
  , ⟨0x14, [], 0x0, 0x0, [⟨.wo, 10, 8, .any⟩, ⟨.wo, 2, 0, .any⟩]⟩ -- ILK_LANE_CTRL (R379)
  , ⟨0x20, [(3, 0x4)], 0x0, 0x0, [⟨.ro, 31, 0, .any⟩]⟩ -- ILK_LANEl_CNT (R403)
  , ⟨0x30, [], 0x0, 0x0, [⟨.ro, 17, 16, .any⟩, ⟨.ro, 10, 8, .any⟩, ⟨.ro, 0, 0, .any⟩]⟩ -- ILK_LAST (R375)
  , ⟨0x34, [], 0x0, 0x0, [⟨.ro, 31, 0, .any⟩]⟩ -- ILK_LAST_S (R375)
  , ⟨0x38, [], 0x0, 0x0, [⟨.ro, 29, 0, .any⟩]⟩ -- ILK_LAST_NS (R375)
  , ⟨0x40, [], 0x0, 0x0, [⟨.ro, 2, 0, .any⟩]⟩ -- ILK_RESET_CAUSE (R359)
  , ⟨0x44, [], 0x0, 0x0, [⟨.ro, 14, 12, .any⟩, ⟨.ro, 9, 8, .any⟩, ⟨.ro, 5, 5, .any⟩, ⟨.ro, 4, 4, .any⟩, ⟨.ro, 3, 0, .any⟩]⟩ -- ILK_BOOT (R394)
  , ⟨0x48, [], 0x0, 0x0, [⟨.ro, 31, 0, .any⟩]⟩ -- ILK_PATCH_GEN (R394)
  ]

def rowsPwr : List RegRow :=
  [ ⟨0x10000, [], 0x220002, 0x0, [⟨.ro, 27, 24, .any⟩, ⟨.ro, 23, 20, .any⟩, ⟨.ro, 19, 16, .any⟩, ⟨.ro, 9, 9, .any⟩, ⟨.ro, 8, 8, .any⟩, ⟨.ro, 3, 0, .any⟩]⟩ -- PWR_MODE (R346)
  , ⟨0x10004, [], 0x0, 0x0, [⟨.ro, 7, 4, .any⟩, ⟨.ro, 2, 2, .any⟩, ⟨.ro, 1, 1, .any⟩, ⟨.ro, 0, 0, .any⟩]⟩ -- PWR_DEGRADED (R367)
  , ⟨0x10008, [], 0x9600FA, 0x0, [⟨.sh, 23, 16, .range 60 150⟩, ⟨.sh, 8, 0, .range 60 250⟩]⟩ -- PWR_BUDGET (R361)
  , ⟨0x1000C, [], 0x8080503, 0x0, [⟨.sh, 31, 24, .range 1 32⟩, ⟨.sh, 23, 16, .range 1 40⟩, ⟨.sh, 15, 8, .range 1 20⟩, ⟨.sh, 7, 0, .range 1 20⟩]⟩ -- PWR_CFG (R362)
  , ⟨0x10010, [], 0x800A03E8, 0x0, [⟨.sh, 31, 31, .any⟩, ⟨.sh, 23, 16, .range 1 50⟩, ⟨.sh, 15, 0, .range 100 60000⟩]⟩ -- PWR_RESTORE (R369)
  , ⟨0x10018, [], 0x20000, 0x0, [⟨.ro, 27, 24, .any⟩, ⟨.ro, 17, 16, .any⟩, ⟨.wo, 11, 11, .any⟩, ⟨.ro, 10, 10, .any⟩, ⟨.ro, 9, 9, .any⟩, ⟨.ro, 8, 8, .any⟩]⟩ -- PWR_STAT (R372)
  , ⟨0x1001C, [], 0x0, 0x0, [⟨.ro, 15, 0, .any⟩]⟩ -- PWR_P_IN (R362)
  , ⟨0x10020, [], 0x0, 0x0, [⟨.ro, 15, 0, .any⟩]⟩ -- PWR_P_MAND (R362)
  , ⟨0x10024, [], 0x0, 0x0, [⟨.ro, 15, 0, .any⟩]⟩ -- PWR_P_EL (R362)
  , ⟨0x10028, [], 0x0, 0x0, [⟨.ro, 15, 0, .any⟩]⟩ -- PWR_B_EFF (R362)
  , ⟨0x1002C, [], 0x0, 0x0, [⟨.ro, 31, 0, .any⟩]⟩ -- PWR_CONC (R362)
  , ⟨0x10030, [], 0x0, 0x0, [⟨.ro, 29, 24, .any⟩, ⟨.ro, 23, 16, .any⟩, ⟨.ro, 11, 8, .any⟩, ⟨.ro, 1, 1, .any⟩, ⟨.ro, 0, 0, .any⟩]⟩ -- PWR_GRANT (R363)
  , ⟨0x10034, [], 0x0, 0x0, [⟨.ro, 20, 16, .any⟩, ⟨.ro, 9, 0, .any⟩]⟩ -- PWR_TEMP_MAX (R362)
  , ⟨0x10040, [(24, 0x4)], 0x0, 0x0, [⟨.ro, 9, 0, .any⟩]⟩ -- PWR_TEMPn (R362)
  , ⟨0x10100, [], 0x0, 0x0, [⟨.ro, 31, 0, .any⟩]⟩ -- PWR_RAIL_MAIN (R372)
  , ⟨0x10104, [], 0x0, 0x0, [⟨.ro, 31, 0, .any⟩]⟩ -- PWR_RAIL_AUX (R372)
  , ⟨0x10200, [(8, 0x8)], 0x0, 0x0, [⟨.sh, 31, 0, .any⟩]⟩ -- PWR_SHEDg_LO (R371)
  , ⟨0x10204, [(8, 0x8)], 0x0, 0x0, [⟨.sh, 31, 0, .any⟩]⟩ -- PWR_SHEDg_HI (R371)
  , ⟨0x10240, [], 0x0, 0x0, [⟨.ro, 31, 0, .any⟩]⟩ -- PWR_SHED_COUNT (R367)
  , ⟨0x10244, [], 0x0, 0x0, [⟨.ro, 31, 0, .any⟩]⟩ -- PWR_SHED_CH_LO (R368)
  , ⟨0x10248, [], 0x0, 0x0, [⟨.ro, 31, 0, .any⟩]⟩ -- PWR_SHED_CH_HI (R368)
  , ⟨0x10300, [], 0x4B, 0x0, [⟨.ro, 15, 0, .any⟩]⟩ -- PWR_COST_ENG (R363)
  , ⟨0x10304, [], 0x1F4, 0x0, [⟨.ro, 15, 0, .any⟩]⟩ -- PWR_COST_LANE (R363)
  , ⟨0x10308, [], 0x78, 0x0, [⟨.ro, 15, 0, .any⟩]⟩ -- PWR_COST_CH (R363)
  , ⟨0x1030C, [], 0x78, 0x0, [⟨.ro, 15, 0, .any⟩]⟩ -- PWR_COST_DRAIN (R363)
  , ⟨0x10310, [], 0x28, 0x0, [⟨.ro, 15, 0, .any⟩]⟩ -- PWR_COST_CAL (R363)
  , ⟨0x10314, [], 0x1E, 0x0, [⟨.ro, 15, 0, .any⟩]⟩ -- PWR_COST_SCRUB (R363)
  , ⟨0x10318, [], 0x96, 0x0, [⟨.ro, 15, 0, .any⟩]⟩ -- PWR_COST_ATT (R363)
  , ⟨0x10400, [], 0x20000000, 0x0, [⟨.ro, 31, 28, .any⟩, ⟨.ro, 27, 24, .any⟩, ⟨.ro, 19, 19, .any⟩, ⟨.ro, 18, 18, .any⟩, ⟨.ro, 17, 17, .any⟩, ⟨.ro, 16, 16, .any⟩, ⟨.ro, 15, 0, .any⟩]⟩ -- PWR_START (R355)
  , ⟨0x10404, [], 0x0, 0x0, [⟨.wc, 3, 3, .any⟩, ⟨.wc, 2, 2, .any⟩, ⟨.wc, 1, 1, .any⟩, ⟨.wc, 0, 0, .any⟩]⟩ -- PWR_TRIP (R357)
  ]

def rowsClk : List RegRow :=
  [ ⟨0x20000, [], 0x310, 0x0, [⟨.sh, 9, 9, .any⟩, ⟨.sh, 8, 8, .any⟩, ⟨.sh, 4, 4, .any⟩, ⟨.sh, 1, 0, .any⟩]⟩ -- CLK_CTRL (R268)
  , ⟨0x20004, [], 0x0, 0x0, [⟨.ro, 10, 0, .any⟩]⟩ -- CLK_STAT (R281)
  , ⟨0x20008, [], 0xA03E8, 0x0, [⟨.sh, 31, 16, .range 1 3600⟩, ⟨.sh, 15, 0, .range 100 10000⟩]⟩ -- CLK_TIMING (R262)
  , ⟨0x20010, [(3, 0x10)], 0x0, 0x0, [⟨.ro, 20, 16, .any⟩, ⟨.ro, 9, 8, .any⟩, ⟨.ro, 4, 4, .any⟩, ⟨.wc, 3, 3, .any⟩, ⟨.wc, 2, 2, .any⟩, ⟨.wc, 1, 1, .any⟩, ⟨.wc, 0, 0, .any⟩]⟩ -- CLK_SRCx_STAT (R263)
  , ⟨0x20014, [(3, 0x10)], 0x0, 0x0, [⟨.ro, 31, 0, .any⟩]⟩ -- CLK_SRCx_OFS (R261)
  , ⟨0x20040, [(3, 0x4)], 0x0, 0x0, [⟨.ro, 31, 16, .any⟩, ⟨.ro, 15, 14, .any⟩, ⟨.ro, 9, 0, .any⟩]⟩ -- CLK_RCn_STAT (R258)
  , ⟨0x20050, [], 0x0, 0x0, [⟨.ro, 31, 0, .any⟩]⟩ -- CLK_PLL_STAT (R267)
  , ⟨0x20054, [], 0x0, 0x0, [⟨.ro, 31, 0, .any⟩]⟩ -- CLK_PLL_WORD (R265)
  , ⟨0x20060, [], 0x0, 0x0, [⟨.ro, 31, 0, .any⟩]⟩ -- CLK_STOPS (R273)
  , ⟨0x20064, [], 0x0, 0x0, [⟨.ro, 31, 0, .any⟩]⟩ -- CLK_SWITCHES (R269)
  , ⟨0x20068, [], 0x0, 0x0, [⟨.ro, 31, 0, .any⟩]⟩ -- CLK_GATE_BUSY (R277)
  , ⟨0x2006C, [], 0x0, 0x0, [⟨.ro, 5, 0, .any⟩]⟩ -- CLK_GATE_LAST (R277)
  , ⟨0x20070, [], 0x0, 0x0, [⟨.rw, 31, 0, .any⟩]⟩ -- CLK_GATE_HOST_ENG (R280)
  , ⟨0x20074, [], 0x0, 0x0, [⟨.rw, 2, 0, .any⟩]⟩ -- CLK_GATE_HOST_MISC (R280)
  , ⟨0x20078, [], 0x0, 0x0, [⟨.ro, 31, 0, .any⟩]⟩ -- CLK_GATE_STAT_ENG (R276)
  , ⟨0x2007C, [], 0x0, 0x0, [⟨.ro, 3, 0, .any⟩]⟩ -- CLK_GATE_STAT_MISC (R276)
  , ⟨0x20080, [], 0x0, 0x0, [⟨.ro, 31, 0, .any⟩]⟩ -- CLK_STOP_LAST_S (R274)
  , ⟨0x20084, [], 0x0, 0x0, [⟨.ro, 29, 0, .any⟩]⟩ -- CLK_STOP_LAST_NS (R274)
  , ⟨0x20088, [], 0x0, 0x0, [⟨.ro, 31, 0, .any⟩]⟩ -- CLK_STOP_LEN (R274)
  ]

def rowsTim0 : List RegRow :=
  [ ⟨0x30000, [], 0x310, 0x0, [⟨.sh, 9, 9, .any⟩, ⟨.sh, 8, 8, .any⟩, ⟨.sh, 5, 5, .any⟩, ⟨.sh, 4, 4, .any⟩, ⟨.sh, 1, 0, .range 0 2⟩]⟩ -- TIM_CTRL (R245)
  , ⟨0x30004, [], 0x80, 0x0, [⟨.ro, 26, 24, .any⟩, ⟨.ro, 22, 20, .any⟩, ⟨.ro, 17, 16, .any⟩, ⟨.ro, 10, 10, .any⟩, ⟨.wc, 9, 9, .any⟩, ⟨.wc, 8, 8, .any⟩, ⟨.ro, 7, 7, .any⟩, ⟨.ro, 6, 6, .any⟩, ⟨.ro, 5, 5, .any⟩, ⟨.ro, 4, 4, .any⟩, ⟨.ro, 1, 1, .any⟩, ⟨.ro, 0, 0, .any⟩]⟩ -- TIM_STAT (R247)
  , ⟨0x30008, [], 0x0, 0x0, [⟨.wo, 0, 0, .any⟩]⟩ -- TIM_SNAP (R230)
  , ⟨0x30010, [(4, 0x10)], 0x0, 0x0, [⟨.ro, 31, 0, .any⟩]⟩ -- TIM_SNx_S_LO (R255)
  , ⟨0x30014, [(4, 0x10)], 0x0, 0x0, [⟨.ro, 31, 0, .any⟩]⟩ -- TIM_SNx_S_HI (R255)
  , ⟨0x30018, [(4, 0x10)], 0x0, 0x0, [⟨.ro, 29, 0, .any⟩]⟩ -- TIM_SNx_NS (R255)
  , ⟨0x3001C, [(4, 0x10)], 0x0, 0x0, [⟨.ro, 31, 31, .any⟩, ⟨.ro, 15, 0, .any⟩]⟩ -- TIM_SNx_FR (R255)
  , ⟨0x30050, [], 0x0, 0x0, [⟨.ro, 31, 0, .any⟩]⟩ -- TIM_AB_OFS_LO (R245)
  , ⟨0x30054, [], 0x0, 0x0, [⟨.ro, 31, 0, .any⟩]⟩ -- TIM_AB_OFS_HI (R245)
  , ⟨0x30058, [], 0x0, 0x0, [⟨.ro, 31, 0, .any⟩]⟩ -- TIM_MT_ERR_LO (R240)
  , ⟨0x3005C, [], 0x0, 0x0, [⟨.ro, 31, 0, .any⟩]⟩ -- TIM_MT_ERR_HI (R240)
  , ⟨0x30060, [], 0x0, 0x0, [⟨.ro, 31, 0, .any⟩]⟩ -- TIM_MT_RATE (R240)
  , ⟨0x30064, [], 0x3E8, 0x0, [⟨.sh, 16, 0, .range 100 100000⟩]⟩ -- TIM_MT_TAU (R240)
  , ⟨0x30068, [], 0x6403E8, 0x0, [⟨.sh, 31, 16, .range 1 10000⟩, ⟨.sh, 9, 0, .range 10 1000⟩]⟩ -- TIM_SLEW (R241)
  , ⟨0x3006C, [], 0xA03E8, 0x0, [⟨.sh, 31, 16, .range 1 3600⟩, ⟨.sh, 15, 0, .range 100 10000⟩]⟩ -- TIM_TIMEOUT (R239)
  , ⟨0x30070, [], 0xFFFFFFFF, 0x0, [⟨.ro, 31, 0, .any⟩]⟩ -- TIM_ERR_BOUND (R253)
  , ⟨0x30080, [], 0x0, 0x0, [⟨.ro, 17, 0, .any⟩]⟩ -- TIM_STEP_INFO (R244)
  , ⟨0x30084, [], 0x0, 0x0, [⟨.ro, 31, 0, .any⟩]⟩ -- TIM_STEP_SIZE_LO (R244)
  , ⟨0x30088, [], 0x0, 0x0, [⟨.ro, 31, 0, .any⟩]⟩ -- TIM_STEP_SIZE_HI (R244)
  , ⟨0x3008C, [], 0x0, 0x0, [⟨.ro, 31, 0, .any⟩]⟩ -- TIM_STEP_AT_S (R244)
  , ⟨0x30090, [], 0x0, 0x0, [⟨.ro, 29, 0, .any⟩]⟩ -- TIM_STEP_AT_NS (R244)
  , ⟨0x30094, [], 0x0, 0x0, [⟨.ro, 31, 0, .any⟩]⟩ -- TIM_STEP_QSEQ_LO (R244)
  , ⟨0x30098, [], 0x0, 0x0, [⟨.ro, 31, 0, .any⟩]⟩ -- TIM_STEP_QSEQ_HI (R244)
  , ⟨0x3009C, [], 0x0, 0x0, [⟨.ro, 31, 0, .any⟩]⟩ -- TIM_STEP_USEQ_LO (R244)
  , ⟨0x300A0, [], 0x0, 0x0, [⟨.ro, 31, 0, .any⟩]⟩ -- TIM_STEP_USEQ_HI (R244)
  , ⟨0x30100, [(2, 0x80)], 0x6, 0x10000, [⟨.lk, 22, 16, .any⟩, ⟨.lk, 2, 2, .any⟩, ⟨.lk, 1, 1, .any⟩]⟩ -- TIM_DOMx_CFG (R236)
  , ⟨0x30104, [(2, 0x80)], 0x0, 0x0, [⟨.sh, 31, 0, .any⟩]⟩ -- TIM_DOMx_ASYM_LO (R237)
  , ⟨0x30108, [(2, 0x80)], 0x0, 0x0, [⟨.sh, 31, 0, .any⟩]⟩ -- TIM_DOMx_ASYM_HI (R237)
  , ⟨0x3010C, [(2, 0x80)], 0x640064, 0x0, [⟨.sh, 31, 16, .range 10 10000⟩, ⟨.sh, 15, 0, .range 10 4000⟩]⟩ -- TIM_DOMx_SERVO (R238)
  , ⟨0x30110, [(2, 0x80)], 0x0, 0x0, [⟨.ro, 23, 16, .any⟩, ⟨.ro, 9, 9, .any⟩, ⟨.ro, 8, 8, .any⟩, ⟨.ro, 2, 0, .any⟩]⟩ -- TIM_DOMx_STAT (R239)
  , ⟨0x30114, [(2, 0x80)], 0x0, 0x0, [⟨.ro, 31, 0, .any⟩]⟩ -- TIM_DOMx_OFS_LO (R255)
  , ⟨0x30118, [(2, 0x80)], 0x0, 0x0, [⟨.ro, 31, 0, .any⟩]⟩ -- TIM_DOMx_OFS_HI (R255)
  , ⟨0x3011C, [(2, 0x80)], 0x0, 0x0, [⟨.ro, 31, 0, .any⟩]⟩ -- TIM_DOMx_MPD_LO (R255)
  , ⟨0x30120, [(2, 0x80)], 0x0, 0x0, [⟨.ro, 31, 0, .any⟩]⟩ -- TIM_DOMx_MPD_HI (R255)
  , ⟨0x30124, [(2, 0x80)], 0x0, 0x0, [⟨.ro, 31, 0, .any⟩]⟩ -- TIM_DOMx_GM_LO (R255)
  , ⟨0x30128, [(2, 0x80)], 0x0, 0x0, [⟨.ro, 31, 0, .any⟩]⟩ -- TIM_DOMx_GM_HI (R255)
  , ⟨0x3012C, [(2, 0x80)], 0x0, 0x0, [⟨.ro, 16, 0, .any⟩]⟩ -- TIM_DOMx_UTC (R233)
  , ⟨0x30130, [(2, 0x80)], 0x0, 0x0, [⟨.ro, 31, 0, .any⟩]⟩ -- TIM_DOMx_SYNC_CNT (R255)
  , ⟨0x30134, [(2, 0x80)], 0x0, 0x0, [⟨.ro, 31, 0, .any⟩]⟩ -- TIM_DOMx_TC_CNT (R255)
  , ⟨0x30138, [(2, 0x80)], 0x0, 0x0, [⟨.ro, 31, 0, .any⟩]⟩ -- TIM_DOMx_TC_DROP (R255)
  ]

def rowsTim1 : List RegRow :=
  [ ⟨0x3013C, [(2, 0x80)], 0x0, 0x0, [⟨.ro, 31, 0, .any⟩]⟩ -- TIM_DOMx_STEPS (R255)
  , ⟨0x30200, [], 0x0, 0x0, [⟨.ro, 31, 16, .any⟩, ⟨.ro, 8, 8, .any⟩, ⟨.ro, 1, 0, .any⟩]⟩ -- TIM_L_STAT (R246)
  , ⟨0x30204, [], 0x0, 0x0, [⟨.ro, 31, 0, .any⟩]⟩ -- TIM_L_RATE (R246)
  , ⟨0x30300, [(64, 0x4)], 0x0, 0x0, [⟨.ro, 15, 0, .any⟩]⟩ -- TIM_DLYc (R235)
  ]

def rowsTim : List RegRow := rowsTim0 ++ rowsTim1

def rowsLnk : List RegRow :=
  [ ⟨0x40000, [], 0xA0013, 0x0, [⟨.sh, 23, 16, .range 1 255⟩, ⟨.rw, 9, 9, .any⟩, ⟨.wo, 8, 8, .any⟩, ⟨.lk, 5, 4, .range 0 2⟩, ⟨.lk, 1, 1, .any⟩, ⟨.lk, 0, 0, .any⟩]⟩ -- LNK_ML_CTRL (R299)
  , ⟨0x40004, [], 0x3, 0x0, [⟨.ro, 10, 8, .any⟩, ⟨.ro, 5, 4, .any⟩, ⟨.ro, 1, 0, .any⟩]⟩ -- LNK_ML_STAT (R300)
  , ⟨0x40008, [], 0x0, 0x0, [⟨.ro, 11, 0, .any⟩]⟩ -- LNK_ADDR (R284)
  , ⟨0x4000C, [], 0xA400000, 0x0, [⟨.lk, 31, 0, .any⟩]⟩ -- LNK_IP (R284)
  , ⟨0x40010, [], 0x0, 0x0, [⟨.ro, 31, 0, .any⟩]⟩ -- LNK_MAC_LO (R284)
  , ⟨0x40014, [], 0x0, 0x0, [⟨.ro, 15, 0, .any⟩]⟩ -- LNK_MAC_HI (R284)
  , ⟨0x40018, [], 0x10002328, 0x0, [⟨.sh, 31, 16, .range 64 4096⟩, ⟨.sh, 13, 0, .range 576 9000⟩]⟩ -- LNK_BDT_CFG (R296)
  , ⟨0x40020, [], 0x0, 0x0, [⟨.ro, 31, 0, .any⟩]⟩ -- LNK_SEGS_LO (R317)
  , ⟨0x40024, [], 0x0, 0x0, [⟨.ro, 31, 0, .any⟩]⟩ -- LNK_SEGS_HI (R317)
  , ⟨0x40028, [], 0x0, 0x0, [⟨.ro, 31, 0, .any⟩]⟩ -- LNK_RETX (R317)
  , ⟨0x4002C, [], 0x0, 0x0, [⟨.ro, 31, 0, .any⟩]⟩ -- LNK_ABANDON (R317)
  , ⟨0x40030, [], 0x0, 0x0, [⟨.ro, 31, 0, .any⟩]⟩ -- LNK_SWITCHOVERS (R317)
  , ⟨0x40034, [], 0x0, 0x0, [⟨.ro, 31, 0, .any⟩]⟩ -- LNK_TM_DROP (R317)
  , ⟨0x40040, [], 0xF, 0x0, [⟨.sh, 3, 3, .any⟩, ⟨.sh, 2, 2, .any⟩, ⟨.sh, 1, 1, .any⟩, ⟨.sh, 0, 0, .any⟩]⟩ -- LNK_TP_CTRL (R305)
  , ⟨0x40044, [], 0x0, 0x0, [⟨.ro, 27, 0, .any⟩]⟩ -- LNK_VER (R314)
  , ⟨0x40100, [(7, 0x20)], 0x0, 0x0, [⟨.ro, 4, 4, .any⟩, ⟨.wc, 3, 3, .any⟩, ⟨.ro, 2, 0, .any⟩]⟩ -- LNK_PORTx_STAT (R317)
  , ⟨0x40104, [(7, 0x20)], 0x0, 0x0, [⟨.ro, 31, 0, .any⟩]⟩ -- LNK_PORTx_RX (R283)
  , ⟨0x40108, [(7, 0x20)], 0x0, 0x0, [⟨.ro, 31, 0, .any⟩]⟩ -- LNK_PORTx_FCS (R283)
  , ⟨0x4010C, [(7, 0x20)], 0x0, 0x0, [⟨.ro, 31, 0, .any⟩]⟩ -- LNK_PORTx_DROP (R283)
  , ⟨0x40110, [(7, 0x20)], 0x0, 0x0, [⟨.ro, 31, 0, .any⟩]⟩ -- LNK_PORTx_FEC_CORR (R283)
  , ⟨0x40114, [(7, 0x20)], 0x0, 0x0, [⟨.ro, 31, 0, .any⟩]⟩ -- LNK_PORTx_FEC_UNCORR (R283)
  , ⟨0x40200, [(4, 0x80)], 0x0, 0x0, [⟨.ro, 1, 0, .any⟩]⟩ -- LNK_TLt_STAT (R313)
  , ⟨0x40204, [(4, 0x80)], 0x0, 0x0, [⟨.ro, 31, 0, .any⟩]⟩ -- LNK_TLt_REPLAYS (R311)
  , ⟨0x40208, [(4, 0x80)], 0x0, 0x0, [⟨.ro, 31, 0, .any⟩]⟩ -- LNK_TLt_LOST (R311)
  , ⟨0x4020C, [(4, 0x80)], 0x0, 0x0, [⟨.ro, 31, 0, .any⟩]⟩ -- LNK_TLt_SW_LOST (R311)
  , ⟨0x40240, [(4, 0x80), (16, 0x4)], 0x0, 0x0, [⟨.ro, 31, 0, .any⟩]⟩ -- LNK_TLt_LANEl (R311)
  , ⟨0x40400, [(11, 0x10)], 0x0, 0x0, [⟨.rw, 31, 31, .any⟩, ⟨.wc, 16, 16, .any⟩, ⟨.rw, 8, 8, .any⟩, ⟨.rw, 2, 0, .range 0 4⟩]⟩ -- LNK_PROVi_CTRL (R316)
  , ⟨0x40404, [(11, 0x10)], 0x0, 0x0, [⟨.rw, 31, 0, .range 1 4294967295⟩]⟩ -- LNK_PROVi_N (R316)
  , ⟨0x40408, [(11, 0x10)], 0x0, 0x0, [⟨.rw, 31, 16, .range 1 65535⟩, ⟨.rw, 15, 0, .any⟩]⟩ -- LNK_PROVi_K (R316)
  , ⟨0x4040C, [(11, 0x10)], 0x0, 0x0, [⟨.rw, 31, 0, .any⟩]⟩ -- LNK_PROVi_PAT (R316)
  ]

def rowsSbx0 : List RegRow :=
  [ ⟨0x50000, [], 0x0, 0x0, [⟨.sh, 7, 0, .any⟩]⟩ -- SBX_ARM (R116)
  , ⟨0x50004, [], 0x0, 0x0, [⟨.ro, 31, 0, .any⟩]⟩ -- SBX_STAT (R147)
  , ⟨0x50008, [], 0x0, 0x0, [⟨.ro, 8, 0, .any⟩]⟩ -- SBX_LAG (R135)
  , ⟨0x5000C, [], 0x1, 0x0, [⟨.ro, 23, 16, .any⟩, ⟨.sh, 1, 0, .any⟩]⟩ -- SBX_XTRG (R136)
  , ⟨0x50010, [], 0x3, 0x0, [⟨.sh, 1, 1, .any⟩, ⟨.sh, 0, 0, .any⟩]⟩ -- SBX_PRIM (R138)
  , ⟨0x50014, [], 0x0, 0x0, [⟨.ro, 31, 0, .any⟩]⟩ -- SBX_PRIM_DROP (R138)
  , ⟨0x50018, [], 0x0, 0x0, [⟨.ro, 31, 0, .any⟩]⟩ -- SBX_SW_LOSS (R145)
  , ⟨0x50100, [], 0x0, 0x0, [⟨.lk, 31, 0, .any⟩]⟩ -- SBX_STR_EN_LO (R139)
  , ⟨0x50104, [], 0x0, 0x0, [⟨.lk, 31, 0, .any⟩]⟩ -- SBX_STR_EN_HI (R139)
  , ⟨0x50108, [], 0x40, 0x0, [⟨.lk, 16, 16, .any⟩, ⟨.lk, 12, 0, .range 0 4096⟩]⟩ -- SBX_STR_CFG (R139)
  , ⟨0x5010C, [], 0x80, 0x0, [⟨.lk, 15, 0, .any⟩]⟩ -- SBX_STR_POST (R139)
  , ⟨0x50110, [], 0x1000, 0x0, [⟨.lk, 16, 0, .range 16 65536⟩]⟩ -- SBX_STR_MAXLEN (R139)
  , ⟨0x50114, [], 0x10, 0x0, [⟨.lk, 15, 0, .any⟩]⟩ -- SBX_STR_REARM (R140)
  , ⟨0x50118, [], 0x0, 0x0, [⟨.ro, 31, 0, .any⟩]⟩ -- SBX_STR_IGN_PREFILL (R140)
  , ⟨0x5011C, [], 0x0, 0x0, [⟨.ro, 31, 0, .any⟩]⟩ -- SBX_STR_IGN_REARM (R140)
  , ⟨0x50120, [], 0x0, 0x0, [⟨.ro, 31, 0, .any⟩]⟩ -- SBX_STR_HITS_LO (R140)
  , ⟨0x50124, [], 0x0, 0x0, [⟨.ro, 31, 0, .any⟩]⟩ -- SBX_STR_HITS_HI (R140)
  , ⟨0x50400, [(64, 0x8)], 0x401000, 0x0, [⟨.lk, 28, 16, .range 1 4096⟩, ⟨.lk, 13, 8, .range 1 63⟩, ⟨.lk, 2, 2, .any⟩, ⟨.lk, 1, 1, .any⟩, ⟨.lk, 0, 0, .any⟩]⟩ -- SBX_MEASc_CFG (R142)
  , ⟨0x50404, [(64, 0x8)], 0x400, 0x0, [⟨.lk, 18, 0, .range 1 524287⟩]⟩ -- SBX_MEASc_LE (R142)
  , ⟨0x51000, [(8, 0x1000)], 0x0, 0x0, [⟨.lk, 4, 4, .any⟩, ⟨.lk, 3, 0, .any⟩]⟩ -- SBX_PROGp_CFG (R116)
  , ⟨0x51004, [(8, 0x1000)], 0x100, 0x0, [⟨.lk, 16, 0, .range 0 65536⟩]⟩ -- SBX_PROGp_PRE (R129)
  , ⟨0x51008, [(8, 0x1000)], 0x400, 0x0, [⟨.lk, 23, 0, .any⟩]⟩ -- SBX_PROGp_POST (R129)
  , ⟨0x5100C, [(8, 0x1000)], 0x1000000, 0x0, [⟨.lk, 24, 0, .range 1 16777216⟩]⟩ -- SBX_PROGp_MAXLEN (R129)
  , ⟨0x51010, [(8, 0x1000)], 0x0, 0x0, [⟨.lk, 23, 0, .any⟩]⟩ -- SBX_PROGp_REARM (R132)
  , ⟨0x51014, [(8, 0x1000)], 0x0, 0x0, [⟨.lk, 31, 0, .any⟩]⟩ -- SBX_PROGp_CAPMASK_LO (R129)
  , ⟨0x51018, [(8, 0x1000)], 0x0, 0x0, [⟨.lk, 31, 0, .any⟩]⟩ -- SBX_PROGp_CAPMASK_HI (R129)
  , ⟨0x51020, [(8, 0x1000)], 0x0, 0x0, [⟨.ro, 11, 0, .any⟩]⟩ -- SBX_PROGp_STATE (R147)
  , ⟨0x51024, [(8, 0x1000)], 0x0, 0x0, [⟨.ro, 31, 0, .any⟩]⟩ -- SBX_PROGp_IGN_PREFILL (R132)
  , ⟨0x51028, [(8, 0x1000)], 0x0, 0x0, [⟨.ro, 31, 0, .any⟩]⟩ -- SBX_PROGp_IGN_REARM (R132)
  , ⟨0x5102C, [(8, 0x1000)], 0x0, 0x0, [⟨.ro, 31, 0, .any⟩]⟩ -- SBX_PROGp_IGN_BUSY (R132)
  , ⟨0x51030, [(8, 0x1000)], 0x0, 0x0, [⟨.ro, 31, 0, .any⟩]⟩ -- SBX_PROGp_CAPTURES (R132)
  , ⟨0x51040, [(8, 0x1000), (8, 0x8)], 0x0, 0x0, [⟨.lk, 31, 0, .any⟩]⟩ -- SBX_PROGp_MASKm_LO (R115)
  , ⟨0x51044, [(8, 0x1000), (8, 0x8)], 0x0, 0x0, [⟨.lk, 31, 0, .any⟩]⟩ -- SBX_PROGp_MASKm_HI (R115)
  , ⟨0x51080, [(8, 0x1000), (4, 0x10)], 0x0, 0x0, [⟨.lk, 31, 0, .term⟩]⟩ -- SBX_PROGp_CNTk_SRC (R126)
  , ⟨0x51084, [(8, 0x1000), (4, 0x10)], 0x0, 0x0, [⟨.lk, 31, 0, .any⟩]⟩ -- SBX_PROGp_CNTk_LOAD (R126)
  , ⟨0x51088, [(8, 0x1000), (4, 0x10)], 0x0, 0x0, [⟨.lk, 31, 0, .any⟩]⟩ -- SBX_PROGp_CNTk_CMP (R123)
  , ⟨0x5108C, [(8, 0x1000), (4, 0x10)], 0x0, 0x0, [⟨.ro, 31, 0, .any⟩]⟩ -- SBX_PROGp_CNTk_VAL (R126)
  , ⟨0x510C0, [(8, 0x1000), (4, 0x10)], 0x1, 0x0, [⟨.lk, 31, 0, .any⟩]⟩ -- SBX_PROGp_TMRk_LOAD_LO (R127)
  , ⟨0x510C4, [(8, 0x1000), (4, 0x10)], 0x0, 0x0, [⟨.lk, 7, 0, .any⟩]⟩ -- SBX_PROGp_TMRk_LOAD_HI (R127)
  , ⟨0x510C8, [(8, 0x1000), (4, 0x10)], 0x0, 0x0, [⟨.ro, 31, 0, .any⟩]⟩ -- SBX_PROGp_TMRk_VAL_LO (R127)
  ]

def rowsSbx1 : List RegRow :=
  [ ⟨0x510CC, [(8, 0x1000), (4, 0x10)], 0x0, 0x0, [⟨.ro, 7, 0, .any⟩]⟩ -- SBX_PROGp_TMRk_VAL_HI (R127)
  , ⟨0x51800, [(8, 0x1000), (16, 0x80), (4, 0x20)], 0x0, 0x0, [⟨.lk, 7, 4, .any⟩, ⟨.lk, 1, 1, .any⟩, ⟨.lk, 0, 0, .any⟩]⟩ -- SBX_PROGp_Sj_Ti_CTRL (R121)
  , ⟨0x51804, [(8, 0x1000), (16, 0x80), (4, 0x20), (4, 0x4)], 0x0, 0x0, [⟨.lk, 31, 0, .term⟩]⟩ -- SBX_PROGp_Sj_Ti_TERMn (R122)
  , ⟨0x51814, [(8, 0x1000), (16, 0x80), (4, 0x20)], 0x0, 0x0, [⟨.lk, 31, 0, .act⟩]⟩ -- SBX_PROGp_Sj_Ti_ACT (R125)
  ]

def rowsSbx : List RegRow := rowsSbx0 ++ rowsSbx1

def rowsQue : List RegRow :=
  [ ⟨0x60000, [], 0x155, 0x0, [⟨.sh, 9, 8, .any⟩, ⟨.sh, 7, 6, .any⟩, ⟨.sh, 5, 4, .any⟩, ⟨.sh, 3, 2, .any⟩, ⟨.sh, 1, 0, .any⟩]⟩ -- QUE_ROUTE (R173)
  , ⟨0x60004, [], 0x20, 0x0, [⟨.sh, 10, 0, .range 4 1024⟩]⟩ -- QUE_CT_THRESH (R165)
  , ⟨0x60008, [], 0x32, 0x0, [⟨.sh, 9, 0, .range 1 1000⟩]⟩ -- QUE_FLUSH (R166)
  , ⟨0x6000C, [], 0x1, 0x0, [⟨.ro, 29, 16, .any⟩, ⟨.ro, 11, 4, .any⟩, ⟨.wc, 3, 3, .any⟩, ⟨.ro, 2, 0, .any⟩]⟩ -- QUE_STAT (R167)
  , ⟨0x60010, [], 0x0, 0x0, [⟨.lk, 31, 0, .any⟩]⟩ -- QUE_SEQ_NEXT_LO (R157)
  , ⟨0x60014, [], 0x0, 0x0, [⟨.lk, 31, 0, .any⟩]⟩ -- QUE_SEQ_NEXT_HI (R157)
  , ⟨0x60018, [], 0x0, 0x0, [⟨.ro, 31, 0, .any⟩]⟩ -- QUE_RECORDS_LO (R173)
  , ⟨0x6001C, [], 0x0, 0x0, [⟨.ro, 31, 0, .any⟩]⟩ -- QUE_RECORDS_HI (R173)
  , ⟨0x60020, [], 0x0, 0x0, [⟨.ro, 31, 0, .any⟩]⟩ -- QUE_LAST_SKIP_LO (R173)
  , ⟨0x60024, [], 0x0, 0x0, [⟨.ro, 31, 0, .any⟩]⟩ -- QUE_LAST_SKIP_HI (R173)
  , ⟨0x60028, [], 0x0, 0x0, [⟨.ro, 31, 0, .any⟩]⟩ -- QUE_LIVE_SKIP (R173)
  , ⟨0x6002C, [], 0x0, 0x0, [⟨.ro, 31, 0, .any⟩]⟩ -- QUE_HR_SKIP (R173)
  , ⟨0x60030, [], 0x0, 0x0, [⟨.ro, 31, 0, .any⟩]⟩ -- QUE_LONG (R173)
  , ⟨0x60034, [], 0x0, 0x0, [⟨.ro, 31, 0, .any⟩]⟩ -- QUE_LOST_PERIODS (R173)
  , ⟨0x60038, [], 0x0, 0x0, [⟨.ro, 31, 0, .any⟩]⟩ -- QUE_FRAMING (R173)
  , ⟨0x6003C, [], 0x0, 0x0, [⟨.ro, 11, 0, .any⟩]⟩ -- QUE_READ_FILL (R163)
  ]

def rowsDpt0 : List RegRow :=
  [ ⟨0x70000, [], 0x1, 0x0, [⟨.sh, 0, 0, .any⟩]⟩ -- DPT_CTRL (R212)
  , ⟨0x70004, [], 0x8001860, 0x0, [⟨.ro, 31, 24, .any⟩, ⟨.lk, 23, 16, .any⟩, ⟨.lk, 15, 8, .any⟩, ⟨.lk, 7, 0, .any⟩]⟩ -- DPT_REGION (R178)
  , ⟨0x70008, [], 0x0, 0x0, [⟨.ro, 19, 0, .any⟩]⟩ -- DPT_RING_BLOCKS (R180)
  , ⟨0x7000C, [], 0x0, 0x0, [⟨.ro, 19, 0, .any⟩]⟩ -- DPT_STORE_BLOCKS (R180)
  , ⟨0x70010, [], 0x0, 0x0, [⟨.ro, 19, 0, .any⟩]⟩ -- DPT_RESERVE_FREE (R180)
  , ⟨0x70014, [], 0x0, 0x0, [⟨.ro, 31, 0, .any⟩]⟩ -- DPT_RING_SPAN (R187)
  , ⟨0x70018, [], 0x0, 0x0, [⟨.ro, 31, 0, .any⟩]⟩ -- DPT_RING_OLDEST_S (R187)
  , ⟨0x7001C, [], 0x0, 0x0, [⟨.ro, 29, 0, .any⟩]⟩ -- DPT_RING_OLDEST_NS (R187)
  , ⟨0x70020, [], 0x0, 0x0, [⟨.ro, 31, 0, .any⟩]⟩ -- DPT_UNIT_SEQ_LO (R185)
  , ⟨0x70024, [], 0x0, 0x0, [⟨.ro, 31, 0, .any⟩]⟩ -- DPT_UNIT_SEQ_HI (R185)
  , ⟨0x70028, [], 0x0, 0x0, [⟨.ro, 31, 0, .any⟩]⟩ -- DPT_STORE_OLDEST_LO (R191)
  , ⟨0x7002C, [], 0x0, 0x0, [⟨.ro, 31, 0, .any⟩]⟩ -- DPT_STORE_OLDEST_HI (R191)
  , ⟨0x70030, [], 0xFA, 0x0, [⟨.sh, 7, 0, .range 1 250⟩]⟩ -- DPT_DRAIN_RATE (R198)
  , ⟨0x70034, [], 0x0, 0x0, [⟨.ro, 31, 0, .any⟩]⟩ -- DPT_OVERWRITTEN (R189)
  , ⟨0x70038, [], 0x0, 0x0, [⟨.ro, 31, 0, .any⟩]⟩ -- DPT_POISON_READS (R203)
  , ⟨0x70100, [(4, 0x40)], 0x0, 0x0, [⟨.ro, 7, 4, .any⟩, ⟨.ro, 2, 0, .any⟩]⟩ -- DPT_HOLDn_STAT (R192)
  , ⟨0x70104, [(4, 0x40)], 0x0, 0x0, [⟨.ro, 19, 0, .any⟩]⟩ -- DPT_HOLDn_RING_BLOCKS (R194)
  , ⟨0x70108, [(4, 0x40)], 0x0, 0x0, [⟨.ro, 19, 0, .any⟩]⟩ -- DPT_HOLDn_STORE_BLOCKS (R194)
  , ⟨0x7010C, [(4, 0x40)], 0x0, 0x0, [⟨.ro, 31, 0, .any⟩]⟩ -- DPT_HOLDn_T0_S (R194)
  , ⟨0x70110, [(4, 0x40)], 0x0, 0x0, [⟨.ro, 29, 0, .any⟩]⟩ -- DPT_HOLDn_T0_NS (R194)
  , ⟨0x70114, [(4, 0x40)], 0x0, 0x0, [⟨.ro, 31, 0, .any⟩]⟩ -- DPT_HOLDn_T1_S (R194)
  , ⟨0x70118, [(4, 0x40)], 0x0, 0x0, [⟨.ro, 29, 0, .any⟩]⟩ -- DPT_HOLDn_T1_NS (R194)
  , ⟨0x7011C, [(4, 0x40)], 0x0, 0x0, [⟨.ro, 31, 0, .any⟩]⟩ -- DPT_HOLDn_DRAINED_MIB (R194)
  , ⟨0x70120, [(4, 0x40)], 0x0, 0x0, [⟨.ro, 31, 0, .any⟩]⟩ -- DPT_HOLDn_FIRST_SEQ_LO (R194)
  , ⟨0x70124, [(4, 0x40)], 0x0, 0x0, [⟨.ro, 31, 0, .any⟩]⟩ -- DPT_HOLDn_FIRST_SEQ_HI (R194)
  , ⟨0x70128, [(4, 0x40)], 0x0, 0x0, [⟨.ro, 31, 0, .any⟩]⟩ -- DPT_HOLDn_LAST_SEQ_LO (R194)
  , ⟨0x7012C, [(4, 0x40)], 0x0, 0x0, [⟨.ro, 31, 0, .any⟩]⟩ -- DPT_HOLDn_LAST_SEQ_HI (R194)
  , ⟨0x70200, [(4, 0x4)], 0x0, 0x0, [⟨.ro, 17, 8, .any⟩, ⟨.ro, 3, 0, .any⟩]⟩ -- DPT_STACKs_STAT (R211)
  , ⟨0x70210, [(5, 0x4)], 0x0, 0x0, [⟨.ro, 31, 0, .any⟩]⟩ -- DPT_CE_CNTs (R206)
  , ⟨0x70230, [(5, 0x4)], 0x0, 0x0, [⟨.ro, 15, 0, .any⟩]⟩ -- DPT_BUCKETs (R206)
  , ⟨0x70250, [], 0x3E8, 0x0, [⟨.sh, 15, 0, .range 1 60000⟩]⟩ -- DPT_LEAK (R206)
  , ⟨0x70254, [], 0x40, 0x0, [⟨.sh, 15, 0, .range 1 65535⟩]⟩ -- DPT_BUCKET_THRESH (R206)
  , ⟨0x70258, [], 0x0, 0x0, [⟨.wc, 8, 8, .any⟩, ⟨.wc, 4, 0, .any⟩]⟩ -- DPT_ECC_STAT (R206)
  , ⟨0x7025C, [], 0x0, 0x0, [⟨.ro, 31, 0, .any⟩]⟩ -- DPT_UE_CNT (R203)
  , ⟨0x70260, [], 0x0, 0x0, [⟨.ro, 19, 0, .any⟩]⟩ -- DPT_POISONED (R203)
  , ⟨0x70300, [], 0x800005A0, 0x0, [⟨.sh, 31, 31, .any⟩, ⟨.sh, 13, 0, .range 10 10080⟩]⟩ -- DPT_SCRUB_CFG (R204)
  , ⟨0x70304, [], 0xA, 0x0, [⟨.sh, 11, 0, .range 1 3600⟩]⟩ -- DPT_SCRUB_MAP (R205)
  , ⟨0x70308, [], 0x0, 0x0, [⟨.ro, 31, 31, .any⟩, ⟨.ro, 9, 0, .any⟩]⟩ -- DPT_SCRUB_STAT (R204)
  , ⟨0x7030C, [], 0x0, 0x0, [⟨.ro, 31, 0, .any⟩]⟩ -- DPT_SCRUB_PASSES (R204)
  , ⟨0x70400, [], 0x0, 0x0, [⟨.ro, 31, 16, .any⟩, ⟨.ro, 5, 0, .any⟩]⟩ -- DPT_LOG_HEAD (R209)
  ]

def rowsDpt1 : List RegRow :=
  [ ⟨0x70404, [], 0x0, 0x0, [⟨.rw, 5, 0, .any⟩]⟩ -- DPT_LOG_SEL (R209)
  , ⟨0x70408, [(4, 0x4)], 0x0, 0x0, [⟨.ro, 31, 0, .any⟩]⟩ -- DPT_LOG_DATAn (R209)
  , ⟨0x70500, [], 0x0, 0x0, [⟨.rw, 31, 0, .any⟩]⟩ -- DPT_FLIP_MASK0 (R210)
  , ⟨0x70504, [], 0x0, 0x0, [⟨.rw, 31, 0, .any⟩]⟩ -- DPT_FLIP_MASK1 (R210)
  , ⟨0x70508, [], 0x0, 0x0, [⟨.rw, 7, 0, .any⟩]⟩ -- DPT_FLIP_MASK2 (R210)
  , ⟨0x7050C, [], 0x100, 0x0, [⟨.wc, 16, 16, .any⟩, ⟨.rw, 15, 8, .any⟩, ⟨.rw, 1, 1, .any⟩, ⟨.rw, 0, 0, .any⟩]⟩ -- DPT_FLIP_CTRL (R210)
  , ⟨0x70510, [], 0x0, 0x0, [⟨.rw, 30, 0, .any⟩]⟩ -- DPT_FLIP_ADDR (R210)
  , ⟨0x70514, [], 0x0, 0x0, [⟨.ro, 30, 0, .any⟩]⟩ -- DPT_FLIP_LAST (R210)
  , ⟨0x70520, [], 0x0, 0x0, [⟨.rw, 31, 0, .any⟩]⟩ -- DPT_MAPFLIP_MASK0 (R210)
  , ⟨0x70524, [], 0x0, 0x0, [⟨.rw, 31, 0, .any⟩]⟩ -- DPT_MAPFLIP_MASK1 (R210)
  , ⟨0x70528, [], 0x0, 0x0, [⟨.rw, 7, 0, .any⟩]⟩ -- DPT_MAPFLIP_MASK2 (R210)
  , ⟨0x7052C, [], 0x0, 0x0, [⟨.wc, 16, 16, .any⟩, ⟨.rw, 0, 0, .any⟩]⟩ -- DPT_MAPFLIP_CTRL (R210)
  , ⟨0x70530, [], 0x0, 0x0, [⟨.ro, 18, 0, .any⟩]⟩ -- DPT_MAPFLIP_LAST (R210)
  , ⟨0x70600, [], 0x0, 0x0, [⟨.rw, 18, 0, .any⟩]⟩ -- DPT_MAP_SEL (R181)
  , ⟨0x70604, [], 0x0, 0x0, [⟨.ro, 31, 0, .any⟩]⟩ -- DPT_MAP_DATA_LO (R181)
  , ⟨0x70608, [], 0x0, 0x0, [⟨.ro, 31, 0, .any⟩]⟩ -- DPT_MAP_DATA_HI (R181)
  ]

def rowsDpt : List RegRow := rowsDpt0 ++ rowsDpt1

def rowsCmp : List RegRow :=
  [ ⟨0x80000, [], 0x1, 0x0, [⟨.sh, 0, 0, .any⟩]⟩ -- CMP_CTRL (R218)
  , ⟨0x80004, [], 0xFFFFFFFF, 0x0, [⟨.sh, 31, 0, .any⟩]⟩ -- CMP_ENG_EN (R218)
  , ⟨0x80008, [], 0xFFFFFFFF, 0x0, [⟨.sh, 31, 0, .any⟩]⟩ -- CMP_CH_EN_LO (R218)
  , ⟨0x8000C, [], 0xFFFFFFFF, 0x0, [⟨.sh, 31, 0, .any⟩]⟩ -- CMP_CH_EN_HI (R218)
  , ⟨0x80010, [], 0x32, 0x0, [⟨.sh, 6, 0, .range 20 70⟩]⟩ -- CMP_DEADLINE (R221)
  , ⟨0x80014, [], 0x0, 0x0, [⟨.ro, 5, 0, .any⟩]⟩ -- CMP_GRANT (R229)
  , ⟨0x80018, [], 0x0, 0x0, [⟨.ro, 15, 0, .any⟩]⟩ -- CMP_RATIO (R227)
  , ⟨0x8001C, [], 0x0, 0x0, [⟨.wc, 31, 0, .any⟩]⟩ -- CMP_QUAR (R222)
  , ⟨0x80020, [], 0x0, 0x0, [⟨.ro, 31, 0, .any⟩]⟩ -- CMP_BUSY (R227)
  , ⟨0x80024, [], 0x0, 0x0, [⟨.ro, 31, 0, .any⟩]⟩ -- CMP_COMP_BLOCKS (R219)
  , ⟨0x80028, [], 0x0, 0x0, [⟨.ro, 31, 0, .any⟩]⟩ -- CMP_RAW_BUSY (R219)
  , ⟨0x8002C, [], 0x0, 0x0, [⟨.ro, 31, 0, .any⟩]⟩ -- CMP_NO_GAIN (R219)
  , ⟨0x80030, [], 0x0, 0x0, [⟨.ro, 31, 0, .any⟩]⟩ -- CMP_UNRESOLVED (R219)
  , ⟨0x80034, [], 0x0, 0x0, [⟨.ro, 31, 0, .any⟩]⟩ -- CMP_LATE (R219)
  , ⟨0x80038, [], 0x0, 0x0, [⟨.ro, 31, 0, .any⟩]⟩ -- CMP_BYTES_IN_LO (R219)
  , ⟨0x8003C, [], 0x0, 0x0, [⟨.ro, 31, 0, .any⟩]⟩ -- CMP_BYTES_IN_HI (R219)
  , ⟨0x80040, [], 0x0, 0x0, [⟨.ro, 31, 0, .any⟩]⟩ -- CMP_BYTES_OUT_LO (R219)
  , ⟨0x80044, [], 0x0, 0x0, [⟨.ro, 31, 0, .any⟩]⟩ -- CMP_BYTES_OUT_HI (R219)
  , ⟨0x80050, [], 0x0, 0x0, [⟨.rw, 20, 16, .any⟩, ⟨.wc, 8, 8, .any⟩, ⟨.rw, 1, 1, .any⟩, ⟨.rw, 0, 0, .any⟩]⟩ -- CMP_INJECT (R226)
  , ⟨0x80100, [(32, 0x4)], 0x0, 0x0, [⟨.ro, 31, 0, .any⟩]⟩ -- CMP_ENGe_FAULT (R219)
  , ⟨0x80180, [(32, 0x4)], 0x0, 0x0, [⟨.ro, 31, 0, .any⟩]⟩ -- CMP_ENGe_BLOCKS (R219)
  ]

def rowsPers : List RegRow :=
  [ ⟨0x90000, [], 0x0, 0x0, [⟨.ro, 16, 16, .any⟩, ⟨.ro, 13, 0, .any⟩]⟩ -- OTP_STAT (R403)
  , ⟨0x90004, [], 0x0, 0x0, [⟨.rw, 4, 0, .any⟩]⟩ -- OTP_WIN_SEL (R403)
  , ⟨0x90100, [(64, 0x4)], 0x0, 0x0, [⟨.ro, 31, 0, .any⟩]⟩ -- OTP_WINDOWn (R403)
  , ⟨0x91000, [], 0x3, 0x0, [⟨.wc, 10, 10, .any⟩, ⟨.wc, 9, 9, .any⟩, ⟨.ro, 8, 8, .any⟩, ⟨.ro, 5, 4, .any⟩, ⟨.ro, 1, 0, .any⟩]⟩ -- CST_STAT (R403)
  , ⟨0x91004, [], 0x0, 0x0, [⟨.ro, 31, 0, .any⟩]⟩ -- CST_GEN0 (R403)
  , ⟨0x91008, [], 0x0, 0x0, [⟨.ro, 31, 0, .any⟩]⟩ -- CST_GEN1 (R403)
  , ⟨0x9100C, [], 0x0, 0x0, [⟨.ro, 31, 0, .any⟩]⟩ -- CST_STORES (R386)
  , ⟨0x91010, [], 0x18, 0x0, [⟨.sh, 9, 0, .range 1 720⟩]⟩ -- CST_RECHECK (R389)
  , ⟨0x91014, [], 0x0, 0x0, [⟨.rw, 17, 16, .any⟩, ⟨.rw, 12, 0, .any⟩]⟩ -- CST_WIN_SEL (R403)
  , ⟨0x91100, [(64, 0x4)], 0x0, 0x0, [⟨.ro, 31, 0, .any⟩]⟩ -- CST_WINDOWn (R403)
  , ⟨0x92000, [], 0x0, 0x0, [⟨.ro, 2, 0, .any⟩]⟩ -- ATT_STAT (R399)
  , ⟨0x92004, [], 0x0, 0x0, [⟨.ro, 31, 0, .any⟩]⟩ -- ATT_REPORTS (R403)
  , ⟨0x92008, [], 0x0, 0x0, [⟨.ro, 31, 0, .any⟩]⟩ -- ATT_AUTH_OK (R403)
  , ⟨0x9200C, [], 0x0, 0x0, [⟨.ro, 31, 0, .any⟩]⟩ -- ATT_AUTH_FAIL (R403)
  , ⟨0x92100, [(16, 0x4)], 0x0, 0x0, [⟨.ro, 31, 0, .any⟩]⟩ -- ATT_KEY_DIGESTn (R398)
  ]

def rowsTile0 : List RegRow :=
  [ ⟨0x100000, [(4, 0x10000), (16, 0x4)], 0x1, 0x10, [⟨.lk, 7, 4, .any⟩, ⟨.lk, 2, 0, .range 0 4⟩]⟩ -- JCT_PINp(0-15) (R49)
  , ⟨0x100040, [(4, 0x10000), (4, 0x4)], 0x0, 0x0, [⟨.lk, 7, 4, .any⟩, ⟨.lk, 2, 0, .range 0 4⟩]⟩ -- JCT_PINp(16-19) (R49)
  , ⟨0x100050, [(4, 0x10000), (2, 0x4)], 0x0, 0x0, [⟨.lk, 3, 0, .range 0 4⟩, ⟨.lk, 7, 4, .range 0 4⟩, ⟨.lk, 11, 8, .range 0 4⟩, ⟨.lk, 15, 12, .range 0 4⟩, ⟨.lk, 19, 16, .range 0 4⟩, ⟨.lk, 23, 20, .range 0 4⟩, ⟨.lk, 27, 24, .range 0 4⟩, ⟨.lk, 31, 28, .range 0 4⟩]⟩ -- JCT_NREFn (R51)
  , ⟨0x100100, [(4, 0x10000), (4, 0x20)], 0x0, 0x0, [⟨.wo, 9, 9, .any⟩, ⟨.wo, 8, 8, .any⟩, ⟨.sh, 2, 2, .any⟩, ⟨.sh, 1, 0, .any⟩]⟩ -- JCT_EXe_CTRL (R54)
  , ⟨0x100104, [(4, 0x10000), (4, 0x20)], 0x0, 0x0, [⟨.sh, 27, 16, .any⟩, ⟨.sh, 15, 0, .any⟩]⟩ -- JCT_EXe_LEVEL (R54)
  , ⟨0x100108, [(4, 0x10000), (4, 0x20)], 0x10010, 0x0, [⟨.sh, 31, 16, .range 1 65535⟩, ⟨.sh, 11, 0, .range 4 4095⟩]⟩ -- JCT_EXe_PULSE (R57)
  , ⟨0x10010C, [(4, 0x10000), (4, 0x20)], 0x800, 0x0, [⟨.sh, 31, 0, .any⟩]⟩ -- JCT_EXe_PERIOD (R57)
  , ⟨0x100110, [(4, 0x10000), (4, 0x20)], 0x0, 0x0, [⟨.lk, 31, 0, .any⟩]⟩ -- JCT_EXe_LAUNCH_S (R56)
  , ⟨0x100114, [(4, 0x10000), (4, 0x20)], 0x0, 0x0, [⟨.lk, 29, 0, .range 0 999999999⟩]⟩ -- JCT_EXe_LAUNCH_NS (R56)
  , ⟨0x100118, [(4, 0x10000), (4, 0x20)], 0x0, 0x0, [⟨.lk, 15, 0, .any⟩]⟩ -- JCT_EXe_LAUNCH_FR (R56)
  , ⟨0x10011C, [(4, 0x10000), (4, 0x20)], 0x0, 0x0, [⟨.ro, 31, 16, .any⟩, ⟨.wc, 3, 3, .any⟩, ⟨.wc, 2, 2, .any⟩, ⟨.wc, 1, 1, .any⟩, ⟨.ro, 0, 0, .any⟩]⟩ -- JCT_EXe_STAT (R56)
  , ⟨0x100180, [(4, 0x10000), (4, 0x4)], 0x0, 0x0, [⟨.wc, 17, 17, .any⟩, ⟨.sh, 16, 16, .any⟩, ⟨.sh, 15, 0, .any⟩]⟩ -- JCT_BIASb (R59)
  , ⟨0x101000, [(4, 0x10000), (16, 0x10)], 0x18, 0x0, [⟨.lk, 4, 4, .any⟩, ⟨.sh, 3, 2, .range 0 2⟩, ⟨.sh, 1, 0, .any⟩]⟩ -- FEA_CHk_CTRL (R67)
  , ⟨0x101004, [(4, 0x10000), (16, 0x10)], 0x1001200, 0x0, [⟨.sh, 28, 16, .range 16 4096⟩, ⟨.sh, 13, 8, .range 2 40⟩]⟩ -- FEA_CHk_RANGE (R65)
  , ⟨0x101008, [(4, 0x10000), (16, 0x10)], 0x0, 0x0, [⟨.ro, 1, 0, .any⟩]⟩ -- FEA_CHk_STAT (R61)
  , ⟨0x10100C, [(4, 0x10000), (16, 0x10)], 0x0, 0x0, [⟨.ro, 31, 0, .any⟩]⟩ -- FEA_CHk_CNT (R64)
  , ⟨0x102000, [(4, 0x10000), (17, 0x100)], 0x0, 0x0, [⟨.ro, 27, 16, .any⟩, ⟨.ro, 11, 0, .any⟩]⟩ -- SLC_SLs_TRIM0 (R91)
  , ⟨0x102004, [(4, 0x10000), (17, 0x100)], 0x200000, 0x0, [⟨.ro, 21, 16, .any⟩, ⟨.ro, 9, 0, .any⟩]⟩ -- SLC_SLs_TRIM1 (R91)
  , ⟨0x102008, [(4, 0x10000), (17, 0x100)], 0x0, 0x0, [⟨.ro, 27, 16, .any⟩, ⟨.ro, 11, 0, .any⟩]⟩ -- SLC_SLs_TRIM2 (R91)
  , ⟨0x10200C, [(4, 0x10000), (17, 0x100)], 0x0, 0x0, [⟨.ro, 11, 0, .any⟩]⟩ -- SLC_SLs_TRIM3 (R91)
  , ⟨0x102010, [(4, 0x10000), (16, 0x100)], 0x0, 0x10000, [⟨.ro, 20, 16, .any⟩, ⟨.ro, 2, 0, .any⟩]⟩ -- SLC_SLs_STAT(0-15) (R114)
  , ⟨0x103010, [(4, 0x10000)], 0x1F0000, 0x0, [⟨.ro, 20, 16, .any⟩, ⟨.ro, 2, 0, .any⟩]⟩ -- SLC_SL16_STAT (R114)
  , ⟨0x103800, [(4, 0x10000)], 0x0, 0x0, [⟨.lk, 7, 0, .any⟩]⟩ -- SLC_ILV (R87)
  , ⟨0x103804, [(4, 0x10000)], 0xFFFF, 0x0, [⟨.lk, 15, 0, .any⟩]⟩ -- SLC_CHEN (R89)
  , ⟨0x103808, [(4, 0x10000)], 0x0, 0x0, [⟨.ro, 15, 0, .any⟩]⟩ -- SLC_SAMPLING (R89)
  , ⟨0x104000, [(4, 0x10000)], 0x1, 0x0, [⟨.wo, 9, 9, .any⟩, ⟨.wo, 8, 8, .any⟩, ⟨.sh, 0, 0, .any⟩]⟩ -- CAL_CTRL (R110)
  , ⟨0x104004, [(4, 0x10000)], 0x1FFFF, 0x0, [⟨.sh, 16, 0, .any⟩]⟩ -- CAL_SLICE_EN (R95)
  , ⟨0x104008, [(4, 0x10000)], 0xC8, 0x0, [⟨.sh, 21, 0, .range 200 3600000⟩]⟩ -- CAL_DWELL (R95)
  , ⟨0x10400C, [(4, 0x10000)], 0xA, 0x0, [⟨.sh, 9, 0, .range 1 1000⟩]⟩ -- CAL_MAX_DEFER (R102)
  , ⟨0x104010, [(4, 0x10000)], 0x10000, 0x0, [⟨.ro, 28, 24, .any⟩, ⟨.ro, 20, 20, .any⟩, ⟨.ro, 17, 17, .any⟩, ⟨.ro, 16, 16, .any⟩, ⟨.ro, 10, 8, .any⟩, ⟨.ro, 4, 0, .any⟩]⟩ -- CAL_STAT (R114)
  , ⟨0x104014, [(4, 0x10000)], 0x0, 0x0, [⟨.ro, 31, 0, .any⟩]⟩ -- CAL_CYCLES (R114)
  , ⟨0x104018, [(4, 0x10000)], 0x0, 0x0, [⟨.ro, 31, 0, .any⟩]⟩ -- CAL_CNT0 (R101)
  , ⟨0x10401C, [(4, 0x10000)], 0x0, 0x0, [⟨.ro, 31, 0, .any⟩]⟩ -- CAL_CNT1 (R97)
  , ⟨0x104020, [(4, 0x10000)], 0x0, 0x0, [⟨.wc, 16, 0, .any⟩]⟩ -- CAL_FAULT (R97)
  , ⟨0x104030, [(4, 0x10000)], 0x0, 0x0, [⟨.ro, 31, 0, .any⟩]⟩ -- CAL_LAST0 (R99)
  , ⟨0x104034, [(4, 0x10000)], 0x0, 0x0, [⟨.ro, 24, 24, .any⟩, ⟨.ro, 20, 16, .any⟩, ⟨.ro, 15, 0, .any⟩]⟩ -- CAL_LAST1 (R99)
  , ⟨0x104040, [(4, 0x10000)], 0x0, 0x0, [⟨.ro, 9, 9, .any⟩, ⟨.wo, 8, 8, .any⟩, ⟨.lk, 4, 0, .range 0 16⟩]⟩ -- CAL_MAN_CTRL (R113)
  , ⟨0x104044, [(4, 0x10000)], 0x0, 0x0, [⟨.lk, 27, 16, .any⟩, ⟨.lk, 11, 0, .any⟩]⟩ -- CAL_MAN_TRIM0 (R113)
  , ⟨0x104048, [(4, 0x10000)], 0x200000, 0x0, [⟨.lk, 21, 16, .any⟩, ⟨.lk, 9, 0, .s500⟩]⟩ -- CAL_MAN_TRIM1 (R113)
  , ⟨0x10404C, [(4, 0x10000)], 0x0, 0x0, [⟨.lk, 27, 16, .any⟩, ⟨.lk, 11, 0, .any⟩]⟩ -- CAL_MAN_TRIM2 (R113)
  ]

def rowsTile1 : List RegRow :=
  [ ⟨0x104050, [(4, 0x10000)], 0x0, 0x0, [⟨.lk, 11, 0, .any⟩]⟩ -- CAL_MAN_TRIM3 (R113)
  , ⟨0x104060, [(4, 0x10000)], 0x0, 0x0, [⟨.ro, 31, 16, .any⟩, ⟨.ro, 4, 0, .any⟩]⟩ -- CAL_HIST_HEAD (R104)
  , ⟨0x104064, [(4, 0x10000)], 0x0, 0x0, [⟨.rw, 4, 0, .any⟩]⟩ -- CAL_HIST_SEL (R104)
  , ⟨0x104068, [(4, 0x10000), (4, 0x4)], 0x0, 0x0, [⟨.ro, 31, 0, .any⟩]⟩ -- CAL_HISTn (R104)
  , ⟨0x104100, [(4, 0x10000), (16, 0x8)], 0x0, 0x0, [⟨.ro, 27, 16, .any⟩, ⟨.ro, 11, 0, .any⟩]⟩ -- CAL_CHk_AMP0 (R92)
  , ⟨0x104104, [(4, 0x10000), (16, 0x8)], 0x0, 0x0, [⟨.ro, 11, 0, .any⟩]⟩ -- CAL_CHk_AMP1 (R92)
  , ⟨0x105000, [(4, 0x10000), (20, 0x4)], 0x1804, 0x0, [⟨.sh, 15, 8, .range 2 200⟩, ⟨.sh, 4, 4, .any⟩, ⟨.sh, 3, 2, .any⟩, ⟨.sh, 1, 0, .range 0 2⟩]⟩ -- WIR_PINp (R74)
  , ⟨0x105080, [(4, 0x10000)], 0x64, 0x0, [⟨.sh, 13, 0, .range 1 10000⟩]⟩ -- WIR_PERIOD (R77)
  , ⟨0x105084, [(4, 0x10000)], 0x40, 0x0, [⟨.sh, 9, 0, .range 1 1000⟩]⟩ -- WIR_LOOKBACK (R81)
  , ⟨0x105088, [(4, 0x10000)], 0x1, 0x0, [⟨.sh, 0, 0, .any⟩]⟩ -- WIR_CTRL (R80)
  , ⟨0x105090, [(4, 0x10000)], 0x0, 0x0, [⟨.wc, 19, 0, .any⟩]⟩ -- WIR_FAULT (R80)
  , ⟨0x105094, [(4, 0x10000)], 0x0, 0x0, [⟨.wc, 19, 0, .any⟩]⟩ -- WIR_STARVED (R79)
  , ⟨0x105098, [(4, 0x10000)], 0x0, 0x0, [⟨.ro, 19, 0, .any⟩]⟩ -- WIR_LIVE (R82)
  , ⟨0x106000, [(4, 0x10000), (16, 0x20)], 0x0, 0x0, [⟨.sh, 5, 5, .any⟩, ⟨.sh, 4, 4, .any⟩, ⟨.sh, 1, 1, .any⟩, ⟨.sh, 0, 0, .any⟩]⟩ -- THR_CHk_CFG (R71)
  , ⟨0x106004, [(4, 0x10000), (16, 0x20)], 0x0, 0x0, [⟨.sh, 31, 0, .s20⟩]⟩ -- THR_CHk_SET0 (R69)
  , ⟨0x106008, [(4, 0x10000), (16, 0x20)], 0x0, 0x0, [⟨.sh, 31, 0, .s20⟩]⟩ -- THR_CHk_CLR0 (R69)
  , ⟨0x10600C, [(4, 0x10000), (16, 0x20)], 0x0, 0x0, [⟨.sh, 31, 0, .s20⟩]⟩ -- THR_CHk_SET1 (R69)
  , ⟨0x106010, [(4, 0x10000), (16, 0x20)], 0x0, 0x0, [⟨.sh, 31, 0, .s20⟩]⟩ -- THR_CHk_CLR1 (R69)
  , ⟨0x106200, [(4, 0x10000)], 0x0, 0x0, [⟨.ro, 31, 0, .any⟩]⟩ -- THR_STATE (R72)
  , ⟨0x106204, [(4, 0x10000)], 0x0, 0x0, [⟨.ro, 31, 0, .any⟩]⟩ -- THR_BADHYST (R70)
  , ⟨0x106210, [(4, 0x10000), (2, 0x4)], 0x0, 0x0, [⟨.sh, 31, 0, .any⟩]⟩ -- THR_TSWn_MASK (R73)
  , ⟨0x106218, [(4, 0x10000)], 0x0, 0x0, [⟨.sh, 17, 17, .any⟩, ⟨.sh, 16, 16, .any⟩, ⟨.sh, 15, 8, .any⟩, ⟨.sh, 7, 0, .any⟩]⟩ -- THR_TSW_CTRL (R73)
  ]

def rowsTile : List RegRow := rowsTile0 ++ rowsTile1

/-- The rows of the window an address lies in (R44, R45); none where the range is Reserved (R46). -/
def windowRows (a : Nat) : List RegRow :=
  match a / 0x10000 with
  | 0 => rowsIlk | 1 => rowsPwr | 2 => rowsClk | 3 => rowsTim | 4 => rowsLnk
  | 5 => rowsSbx | 6 => rowsQue | 7 => rowsDpt | 8 => rowsCmp | 9 => rowsPers
  | 0x10 | 0x11 | 0x12 | 0x13 => rowsTile
  | _ => []

/-- Index tuple of an offset among nested instances, outermost first. -/
def dimIndex : List (Nat × Nat) → Nat → Option (List Nat)
  | [], off => if off = 0 then some [] else none
  | (n, st) :: ds, off =>
    if off / st < n then (dimIndex ds (off % st)).map (off / st :: ·) else none

def RegRow.index (r : RegRow) (a : Nat) : Option (List Nat) :=
  if r.base ≤ a then dimIndex r.dims (a - r.base) else none

/-- The row that lists an address, with the address's indexes. -/
def findRow (a : Nat) : Option (RegRow × List Nat) :=
  (windowRows a).findSome? fun r => (r.index a).map fun ix => (r, ix)

def RegRow.resetAt (r : RegRow) (ix : List Nat) : Nat := r.reset + r.stride * ix.getLastD 0

/-- Addresses that R44 and R45 mark Reserved, or that are not aligned (R46). -/
def badAddress (a : Nat) : Bool :=
  a % 4 != 0 || (0x93000 ≤ a && a < 0x100000) || 0x140000 ≤ a || (0x100000 ≤ a && 0x7000 ≤ a % 0x10000)

/-- Block bits of COMMIT (R339). -/
def blockOf (a : Nat) : Nat :=
  if a < 0x100000 then a / 0x10000
  else
    let t := a / 0x10000 - 0x10
    let o := a % 0x10000
    16 + 4 * t + (if 0x4000 ≤ o && o < 0x5000 then 2 else if 0x2000 ≤ o && o < 0x4000 then 1 else 0)

end Sys2Proof.Machine

namespace Sys2Proof.Reg

/-! Register addresses by name. -/

def ilkRomver : Nat := 0x0
def ilkIdent : Nat := 0x4
def ilkEui64Lo : Nat := 0x8
def ilkEui64Hi : Nat := 0xC
def ilkLaneStat : Nat := 0x10
def ilkLaneCtrl : Nat := 0x14
def ilkLaneCnt (l : Nat) : Nat := 0x20 + 0x4 * l
def ilkLast : Nat := 0x30
def ilkLastS : Nat := 0x34
def ilkLastNs : Nat := 0x38
def ilkResetCause : Nat := 0x40
def ilkBoot : Nat := 0x44
def ilkPatchGen : Nat := 0x48
def pwrMode : Nat := 0x10000
def pwrDegraded : Nat := 0x10004
def pwrBudget : Nat := 0x10008
def pwrCfg : Nat := 0x1000C
def pwrRestore : Nat := 0x10010
def pwrStat : Nat := 0x10018
def pwrPIn : Nat := 0x1001C
def pwrPMand : Nat := 0x10020
def pwrPEl : Nat := 0x10024
def pwrBEff : Nat := 0x10028
def pwrConc : Nat := 0x1002C
def pwrGrant : Nat := 0x10030
def pwrTempMax : Nat := 0x10034
def pwrTemp (n : Nat) : Nat := 0x10040 + 0x4 * n
def pwrRailMain : Nat := 0x10100
def pwrRailAux : Nat := 0x10104
def pwrShedLo (g : Nat) : Nat := 0x10200 + 0x8 * g
def pwrShedHi (g : Nat) : Nat := 0x10204 + 0x8 * g
def pwrShedCount : Nat := 0x10240
def pwrShedChLo : Nat := 0x10244
def pwrShedChHi : Nat := 0x10248
def pwrCostEng : Nat := 0x10300
def pwrCostLane : Nat := 0x10304
def pwrCostCh : Nat := 0x10308
def pwrCostDrain : Nat := 0x1030C
def pwrCostCal : Nat := 0x10310
def pwrCostScrub : Nat := 0x10314
def pwrCostAtt : Nat := 0x10318
def pwrStart : Nat := 0x10400
def pwrTrip : Nat := 0x10404
def clkCtrl : Nat := 0x20000
def clkStat : Nat := 0x20004
def clkTiming : Nat := 0x20008
def clkSrcStat (x : Nat) : Nat := 0x20010 + 0x10 * x
def clkSrcOfs (x : Nat) : Nat := 0x20014 + 0x10 * x
def clkRcStat (n : Nat) : Nat := 0x20040 + 0x4 * n
def clkPllStat : Nat := 0x20050
def clkPllWord : Nat := 0x20054
def clkStops : Nat := 0x20060
def clkSwitches : Nat := 0x20064
def clkGateBusy : Nat := 0x20068
def clkGateLast : Nat := 0x2006C
def clkGateHostEng : Nat := 0x20070
def clkGateHostMisc : Nat := 0x20074
def clkGateStatEng : Nat := 0x20078
def clkGateStatMisc : Nat := 0x2007C
def clkStopLastS : Nat := 0x20080
def clkStopLastNs : Nat := 0x20084
def clkStopLen : Nat := 0x20088
def timCtrl : Nat := 0x30000
def timStat : Nat := 0x30004
def timSnap : Nat := 0x30008
def timSnSLo (x : Nat) : Nat := 0x30010 + 0x10 * x
def timSnSHi (x : Nat) : Nat := 0x30014 + 0x10 * x
def timSnNs (x : Nat) : Nat := 0x30018 + 0x10 * x
def timSnFr (x : Nat) : Nat := 0x3001C + 0x10 * x
def timAbOfsLo : Nat := 0x30050
def timAbOfsHi : Nat := 0x30054
def timMtErrLo : Nat := 0x30058
def timMtErrHi : Nat := 0x3005C
def timMtRate : Nat := 0x30060
def timMtTau : Nat := 0x30064
def timSlew : Nat := 0x30068
def timTimeout : Nat := 0x3006C
def timErrBound : Nat := 0x30070
def timStepInfo : Nat := 0x30080
def timStepSizeLo : Nat := 0x30084
def timStepSizeHi : Nat := 0x30088
def timStepAtS : Nat := 0x3008C
def timStepAtNs : Nat := 0x30090
def timStepQseqLo : Nat := 0x30094
def timStepQseqHi : Nat := 0x30098
def timStepUseqLo : Nat := 0x3009C
def timStepUseqHi : Nat := 0x300A0
def timDomCfg (x : Nat) : Nat := 0x30100 + 0x80 * x
def timDomAsymLo (x : Nat) : Nat := 0x30104 + 0x80 * x
def timDomAsymHi (x : Nat) : Nat := 0x30108 + 0x80 * x
def timDomServo (x : Nat) : Nat := 0x3010C + 0x80 * x
def timDomStat (x : Nat) : Nat := 0x30110 + 0x80 * x
def timDomOfsLo (x : Nat) : Nat := 0x30114 + 0x80 * x
def timDomOfsHi (x : Nat) : Nat := 0x30118 + 0x80 * x
def timDomMpdLo (x : Nat) : Nat := 0x3011C + 0x80 * x
def timDomMpdHi (x : Nat) : Nat := 0x30120 + 0x80 * x
def timDomGmLo (x : Nat) : Nat := 0x30124 + 0x80 * x
def timDomGmHi (x : Nat) : Nat := 0x30128 + 0x80 * x
def timDomUtc (x : Nat) : Nat := 0x3012C + 0x80 * x
def timDomSyncCnt (x : Nat) : Nat := 0x30130 + 0x80 * x
def timDomTcCnt (x : Nat) : Nat := 0x30134 + 0x80 * x
def timDomTcDrop (x : Nat) : Nat := 0x30138 + 0x80 * x
def timDomSteps (x : Nat) : Nat := 0x3013C + 0x80 * x
def timLStat : Nat := 0x30200
def timLRate : Nat := 0x30204
def timDly (c : Nat) : Nat := 0x30300 + 0x4 * c
def lnkMlCtrl : Nat := 0x40000
def lnkMlStat : Nat := 0x40004
def lnkAddr : Nat := 0x40008
def lnkIp : Nat := 0x4000C
def lnkMacLo : Nat := 0x40010
def lnkMacHi : Nat := 0x40014
def lnkBdtCfg : Nat := 0x40018
def lnkSegsLo : Nat := 0x40020
def lnkSegsHi : Nat := 0x40024
def lnkRetx : Nat := 0x40028
def lnkAbandon : Nat := 0x4002C
def lnkSwitchovers : Nat := 0x40030
def lnkTmDrop : Nat := 0x40034
def lnkTpCtrl : Nat := 0x40040
def lnkVer : Nat := 0x40044
def lnkPortStat (x : Nat) : Nat := 0x40100 + 0x20 * x
def lnkPortRx (x : Nat) : Nat := 0x40104 + 0x20 * x
def lnkPortFcs (x : Nat) : Nat := 0x40108 + 0x20 * x
def lnkPortDrop (x : Nat) : Nat := 0x4010C + 0x20 * x
def lnkPortFecCorr (x : Nat) : Nat := 0x40110 + 0x20 * x
def lnkPortFecUncorr (x : Nat) : Nat := 0x40114 + 0x20 * x
def lnkTlStat (t : Nat) : Nat := 0x40200 + 0x80 * t
def lnkTlReplays (t : Nat) : Nat := 0x40204 + 0x80 * t
def lnkTlLost (t : Nat) : Nat := 0x40208 + 0x80 * t
def lnkTlSwLost (t : Nat) : Nat := 0x4020C + 0x80 * t
def lnkTlLane (t : Nat) (l : Nat) : Nat := 0x40240 + 0x80 * t + 0x4 * l
def lnkProvCtrl (i : Nat) : Nat := 0x40400 + 0x10 * i
def lnkProvN (i : Nat) : Nat := 0x40404 + 0x10 * i
def lnkProvK (i : Nat) : Nat := 0x40408 + 0x10 * i
def lnkProvPat (i : Nat) : Nat := 0x4040C + 0x10 * i
def sbxArm : Nat := 0x50000
def sbxStat : Nat := 0x50004
def sbxLag : Nat := 0x50008
def sbxXtrg : Nat := 0x5000C
def sbxPrim : Nat := 0x50010
def sbxPrimDrop : Nat := 0x50014
def sbxSwLoss : Nat := 0x50018
def sbxStrEnLo : Nat := 0x50100
def sbxStrEnHi : Nat := 0x50104
def sbxStrCfg : Nat := 0x50108
def sbxStrPost : Nat := 0x5010C
def sbxStrMaxlen : Nat := 0x50110
def sbxStrRearm : Nat := 0x50114
def sbxStrIgnPrefill : Nat := 0x50118
def sbxStrIgnRearm : Nat := 0x5011C
def sbxStrHitsLo : Nat := 0x50120
def sbxStrHitsHi : Nat := 0x50124
def sbxMeasCfg (c : Nat) : Nat := 0x50400 + 0x8 * c
def sbxMeasLe (c : Nat) : Nat := 0x50404 + 0x8 * c
def sbxProgCfg (p : Nat) : Nat := 0x51000 + 0x1000 * p
def sbxProgPre (p : Nat) : Nat := 0x51004 + 0x1000 * p
def sbxProgPost (p : Nat) : Nat := 0x51008 + 0x1000 * p
def sbxProgMaxlen (p : Nat) : Nat := 0x5100C + 0x1000 * p
def sbxProgRearm (p : Nat) : Nat := 0x51010 + 0x1000 * p
def sbxProgCapmaskLo (p : Nat) : Nat := 0x51014 + 0x1000 * p
def sbxProgCapmaskHi (p : Nat) : Nat := 0x51018 + 0x1000 * p
def sbxProgState (p : Nat) : Nat := 0x51020 + 0x1000 * p
def sbxProgIgnPrefill (p : Nat) : Nat := 0x51024 + 0x1000 * p
def sbxProgIgnRearm (p : Nat) : Nat := 0x51028 + 0x1000 * p
def sbxProgIgnBusy (p : Nat) : Nat := 0x5102C + 0x1000 * p
def sbxProgCaptures (p : Nat) : Nat := 0x51030 + 0x1000 * p
def sbxProgMaskLo (p : Nat) (m : Nat) : Nat := 0x51040 + 0x1000 * p + 0x8 * m
def sbxProgMaskHi (p : Nat) (m : Nat) : Nat := 0x51044 + 0x1000 * p + 0x8 * m
def sbxProgCntSrc (p : Nat) (k : Nat) : Nat := 0x51080 + 0x1000 * p + 0x10 * k
def sbxProgCntLoad (p : Nat) (k : Nat) : Nat := 0x51084 + 0x1000 * p + 0x10 * k
def sbxProgCntCmp (p : Nat) (k : Nat) : Nat := 0x51088 + 0x1000 * p + 0x10 * k
def sbxProgCntVal (p : Nat) (k : Nat) : Nat := 0x5108C + 0x1000 * p + 0x10 * k
def sbxProgTmrLoadLo (p : Nat) (k : Nat) : Nat := 0x510C0 + 0x1000 * p + 0x10 * k
def sbxProgTmrLoadHi (p : Nat) (k : Nat) : Nat := 0x510C4 + 0x1000 * p + 0x10 * k
def sbxProgTmrValLo (p : Nat) (k : Nat) : Nat := 0x510C8 + 0x1000 * p + 0x10 * k
def sbxProgTmrValHi (p : Nat) (k : Nat) : Nat := 0x510CC + 0x1000 * p + 0x10 * k
def sbxProgSTCtrl (p : Nat) (j : Nat) (i : Nat) : Nat := 0x51800 + 0x1000 * p + 0x80 * j + 0x20 * i
def sbxProgSTTerm (p : Nat) (j : Nat) (i : Nat) (n : Nat) : Nat := 0x51804 + 0x1000 * p + 0x80 * j + 0x20 * i + 0x4 * n
def sbxProgSTAct (p : Nat) (j : Nat) (i : Nat) : Nat := 0x51814 + 0x1000 * p + 0x80 * j + 0x20 * i
def queRoute : Nat := 0x60000
def queCtThresh : Nat := 0x60004
def queFlush : Nat := 0x60008
def queStat : Nat := 0x6000C
def queSeqNextLo : Nat := 0x60010
def queSeqNextHi : Nat := 0x60014
def queRecordsLo : Nat := 0x60018
def queRecordsHi : Nat := 0x6001C
def queLastSkipLo : Nat := 0x60020
def queLastSkipHi : Nat := 0x60024
def queLiveSkip : Nat := 0x60028
def queHrSkip : Nat := 0x6002C
def queLong : Nat := 0x60030
def queLostPeriods : Nat := 0x60034
def queFraming : Nat := 0x60038
def queReadFill : Nat := 0x6003C
def dptCtrl : Nat := 0x70000
def dptRegion : Nat := 0x70004
def dptRingBlocks : Nat := 0x70008
def dptStoreBlocks : Nat := 0x7000C
def dptReserveFree : Nat := 0x70010
def dptRingSpan : Nat := 0x70014
def dptRingOldestS : Nat := 0x70018
def dptRingOldestNs : Nat := 0x7001C
def dptUnitSeqLo : Nat := 0x70020
def dptUnitSeqHi : Nat := 0x70024
def dptStoreOldestLo : Nat := 0x70028
def dptStoreOldestHi : Nat := 0x7002C
def dptDrainRate : Nat := 0x70030
def dptOverwritten : Nat := 0x70034
def dptPoisonReads : Nat := 0x70038
def dptHoldStat (n : Nat) : Nat := 0x70100 + 0x40 * n
def dptHoldRingBlocks (n : Nat) : Nat := 0x70104 + 0x40 * n
def dptHoldStoreBlocks (n : Nat) : Nat := 0x70108 + 0x40 * n
def dptHoldT0S (n : Nat) : Nat := 0x7010C + 0x40 * n
def dptHoldT0Ns (n : Nat) : Nat := 0x70110 + 0x40 * n
def dptHoldT1S (n : Nat) : Nat := 0x70114 + 0x40 * n
def dptHoldT1Ns (n : Nat) : Nat := 0x70118 + 0x40 * n
def dptHoldDrainedMib (n : Nat) : Nat := 0x7011C + 0x40 * n
def dptHoldFirstSeqLo (n : Nat) : Nat := 0x70120 + 0x40 * n
def dptHoldFirstSeqHi (n : Nat) : Nat := 0x70124 + 0x40 * n
def dptHoldLastSeqLo (n : Nat) : Nat := 0x70128 + 0x40 * n
def dptHoldLastSeqHi (n : Nat) : Nat := 0x7012C + 0x40 * n
def dptStackStat (s : Nat) : Nat := 0x70200 + 0x4 * s
def dptCeCnt (s : Nat) : Nat := 0x70210 + 0x4 * s
def dptBucket (s : Nat) : Nat := 0x70230 + 0x4 * s
def dptLeak : Nat := 0x70250
def dptBucketThresh : Nat := 0x70254
def dptEccStat : Nat := 0x70258
def dptUeCnt : Nat := 0x7025C
def dptPoisoned : Nat := 0x70260
def dptScrubCfg : Nat := 0x70300
def dptScrubMap : Nat := 0x70304
def dptScrubStat : Nat := 0x70308
def dptScrubPasses : Nat := 0x7030C
def dptLogHead : Nat := 0x70400
def dptLogSel : Nat := 0x70404
def dptLogData (n : Nat) : Nat := 0x70408 + 0x4 * n
def dptFlipMask0 : Nat := 0x70500
def dptFlipMask1 : Nat := 0x70504
def dptFlipMask2 : Nat := 0x70508
def dptFlipCtrl : Nat := 0x7050C
def dptFlipAddr : Nat := 0x70510
def dptFlipLast : Nat := 0x70514
def dptMapflipMask0 : Nat := 0x70520
def dptMapflipMask1 : Nat := 0x70524
def dptMapflipMask2 : Nat := 0x70528
def dptMapflipCtrl : Nat := 0x7052C
def dptMapflipLast : Nat := 0x70530
def dptMapSel : Nat := 0x70600
def dptMapDataLo : Nat := 0x70604
def dptMapDataHi : Nat := 0x70608
def cmpCtrl : Nat := 0x80000
def cmpEngEn : Nat := 0x80004
def cmpChEnLo : Nat := 0x80008
def cmpChEnHi : Nat := 0x8000C
def cmpDeadline : Nat := 0x80010
def cmpGrant : Nat := 0x80014
def cmpRatio : Nat := 0x80018
def cmpQuar : Nat := 0x8001C
def cmpBusy : Nat := 0x80020
def cmpCompBlocks : Nat := 0x80024
def cmpRawBusy : Nat := 0x80028
def cmpNoGain : Nat := 0x8002C
def cmpUnresolved : Nat := 0x80030
def cmpLate : Nat := 0x80034
def cmpBytesInLo : Nat := 0x80038
def cmpBytesInHi : Nat := 0x8003C
def cmpBytesOutLo : Nat := 0x80040
def cmpBytesOutHi : Nat := 0x80044
def cmpInject : Nat := 0x80050
def cmpEngFault (e : Nat) : Nat := 0x80100 + 0x4 * e
def cmpEngBlocks (e : Nat) : Nat := 0x80180 + 0x4 * e
def otpStat : Nat := 0x90000
def otpWinSel : Nat := 0x90004
def otpWindow (n : Nat) : Nat := 0x90100 + 0x4 * n
def cstStat : Nat := 0x91000
def cstGen0 : Nat := 0x91004
def cstGen1 : Nat := 0x91008
def cstStores : Nat := 0x9100C
def cstRecheck : Nat := 0x91010
def cstWinSel : Nat := 0x91014
def cstWindow (n : Nat) : Nat := 0x91100 + 0x4 * n
def attStat : Nat := 0x92000
def attReports : Nat := 0x92004
def attAuthOk : Nat := 0x92008
def attAuthFail : Nat := 0x9200C
def attKeyDigest (n : Nat) : Nat := 0x92100 + 0x4 * n
def jctPin (t : Nat) (p : Nat) : Nat := 0x100000 + 0x10000 * t + 0x4 * p
def jctNref (t : Nat) (n : Nat) : Nat := 0x100050 + 0x10000 * t + 0x4 * n
def jctExCtrl (t : Nat) (e : Nat) : Nat := 0x100100 + 0x10000 * t + 0x20 * e
def jctExLevel (t : Nat) (e : Nat) : Nat := 0x100104 + 0x10000 * t + 0x20 * e
def jctExPulse (t : Nat) (e : Nat) : Nat := 0x100108 + 0x10000 * t + 0x20 * e
def jctExPeriod (t : Nat) (e : Nat) : Nat := 0x10010C + 0x10000 * t + 0x20 * e
def jctExLaunchS (t : Nat) (e : Nat) : Nat := 0x100110 + 0x10000 * t + 0x20 * e
def jctExLaunchNs (t : Nat) (e : Nat) : Nat := 0x100114 + 0x10000 * t + 0x20 * e
def jctExLaunchFr (t : Nat) (e : Nat) : Nat := 0x100118 + 0x10000 * t + 0x20 * e
def jctExStat (t : Nat) (e : Nat) : Nat := 0x10011C + 0x10000 * t + 0x20 * e
def jctBias (t : Nat) (b : Nat) : Nat := 0x100180 + 0x10000 * t + 0x4 * b
def feaChCtrl (t : Nat) (k : Nat) : Nat := 0x101000 + 0x10000 * t + 0x10 * k
def feaChRange (t : Nat) (k : Nat) : Nat := 0x101004 + 0x10000 * t + 0x10 * k
def feaChStat (t : Nat) (k : Nat) : Nat := 0x101008 + 0x10000 * t + 0x10 * k
def feaChCnt (t : Nat) (k : Nat) : Nat := 0x10100C + 0x10000 * t + 0x10 * k
def slcSlTrim0 (t : Nat) (s : Nat) : Nat := 0x102000 + 0x10000 * t + 0x100 * s
def slcSlTrim1 (t : Nat) (s : Nat) : Nat := 0x102004 + 0x10000 * t + 0x100 * s
def slcSlTrim2 (t : Nat) (s : Nat) : Nat := 0x102008 + 0x10000 * t + 0x100 * s
def slcSlTrim3 (t : Nat) (s : Nat) : Nat := 0x10200C + 0x10000 * t + 0x100 * s
def slcSlStat (t : Nat) (s : Nat) : Nat := 0x102010 + 0x10000 * t + 0x100 * s
def slcIlv (t : Nat) : Nat := 0x103800 + 0x10000 * t
def slcChen (t : Nat) : Nat := 0x103804 + 0x10000 * t
def slcSampling (t : Nat) : Nat := 0x103808 + 0x10000 * t
def calCtrl (t : Nat) : Nat := 0x104000 + 0x10000 * t
def calSliceEn (t : Nat) : Nat := 0x104004 + 0x10000 * t
def calDwell (t : Nat) : Nat := 0x104008 + 0x10000 * t
def calMaxDefer (t : Nat) : Nat := 0x10400C + 0x10000 * t
def calStat (t : Nat) : Nat := 0x104010 + 0x10000 * t
def calCycles (t : Nat) : Nat := 0x104014 + 0x10000 * t
def calCnt0 (t : Nat) : Nat := 0x104018 + 0x10000 * t
def calCnt1 (t : Nat) : Nat := 0x10401C + 0x10000 * t
def calFault (t : Nat) : Nat := 0x104020 + 0x10000 * t
def calLast0 (t : Nat) : Nat := 0x104030 + 0x10000 * t
def calLast1 (t : Nat) : Nat := 0x104034 + 0x10000 * t
def calManCtrl (t : Nat) : Nat := 0x104040 + 0x10000 * t
def calManTrim0 (t : Nat) : Nat := 0x104044 + 0x10000 * t
def calManTrim1 (t : Nat) : Nat := 0x104048 + 0x10000 * t
def calManTrim2 (t : Nat) : Nat := 0x10404C + 0x10000 * t
def calManTrim3 (t : Nat) : Nat := 0x104050 + 0x10000 * t
def calHistHead (t : Nat) : Nat := 0x104060 + 0x10000 * t
def calHistSel (t : Nat) : Nat := 0x104064 + 0x10000 * t
def calHist (t : Nat) (n : Nat) : Nat := 0x104068 + 0x10000 * t + 0x4 * n
def calChAmp0 (t : Nat) (k : Nat) : Nat := 0x104100 + 0x10000 * t + 0x8 * k
def calChAmp1 (t : Nat) (k : Nat) : Nat := 0x104104 + 0x10000 * t + 0x8 * k
def wirPin (t : Nat) (p : Nat) : Nat := 0x105000 + 0x10000 * t + 0x4 * p
def wirPeriod (t : Nat) : Nat := 0x105080 + 0x10000 * t
def wirLookback (t : Nat) : Nat := 0x105084 + 0x10000 * t
def wirCtrl (t : Nat) : Nat := 0x105088 + 0x10000 * t
def wirFault (t : Nat) : Nat := 0x105090 + 0x10000 * t
def wirStarved (t : Nat) : Nat := 0x105094 + 0x10000 * t
def wirLive (t : Nat) : Nat := 0x105098 + 0x10000 * t
def thrChCfg (t : Nat) (k : Nat) : Nat := 0x106000 + 0x10000 * t + 0x20 * k
def thrChSet0 (t : Nat) (k : Nat) : Nat := 0x106004 + 0x10000 * t + 0x20 * k
def thrChClr0 (t : Nat) (k : Nat) : Nat := 0x106008 + 0x10000 * t + 0x20 * k
def thrChSet1 (t : Nat) (k : Nat) : Nat := 0x10600C + 0x10000 * t + 0x20 * k
def thrChClr1 (t : Nat) (k : Nat) : Nat := 0x106010 + 0x10000 * t + 0x20 * k
def thrState (t : Nat) : Nat := 0x106200 + 0x10000 * t
def thrBadhyst (t : Nat) : Nat := 0x106204 + 0x10000 * t
def thrTswMask (t : Nat) (n : Nat) : Nat := 0x106210 + 0x10000 * t + 0x4 * n
def thrTswCtrl (t : Nat) : Nat := 0x106218 + 0x10000 * t

end Sys2Proof.Reg
end

