-- ==== Sys2Proof/Machine/Flags.lean ====
section
/-! DEFINITION. Status codes (R342), attention bits (R331), status bits of a sample and of a record, and the
computations over bytes that several units share: fields of words, byte order (R11), CRC-32C (R156), wide times (R233)
and two's-complement fields. -/

namespace Sys2Proof.St

/-! Status codes (R342). -/
def ok : BitVec 16 := 0x0000
def accepted : BitVec 16 := 0x0001
def malformed : BitVec 16 := 0x0100
def badOpcode : BitVec 16 := 0x0101
def badVersion : BitVec 16 := 0x0102
def noSession : BitVec 16 := 0x0103
def seqStale : BitVec 16 := 0x0104
def noCommonVersion : BitVec 16 := 0x0105
def wrongPort : BitVec 16 := 0x0106
def noDataSession : BitVec 16 := 0x0107
def badAddress : BitVec 16 := 0x0200
def badValue : BitVec 16 := 0x0201
def busyRunning : BitVec 16 := 0x0202
def wrongMode : BitVec 16 := 0x0203
def notPowered : BitVec 16 := 0x0204
def notFitted : BitVec 16 := 0x0205
def routeConflict : BitVec 16 := 0x0206
def gateBusy : BitVec 16 := 0x0207
def noSlot : BitVec 16 := 0x0208
def notLocked : BitVec 16 := 0x0209
def linkFault : BitVec 16 := 0x020A
def aborted : BitVec 16 := 0x020B
def dataLost : BitVec 16 := 0x0300
def overwritten : BitVec 16 := 0x0301
def authRequired : BitVec 16 := 0x0400
def authFailed : BitVec 16 := 0x0401
def nonceStale : BitVec 16 := 0x0402

end Sys2Proof.St

namespace Sys2Proof.Atn

/-! Bits of the attention word (R331). -/
def eccCe : Nat := 0
def eccUe : Nat := 1
def wire : Nat := 2
def time : Nat := 3
def clock : Nat := 4
def link : Nat := 5
def power : Nat := 6
def ilk : Nat := 7
def cal : Nat := 8
def cmp : Nat := 9
def mode : Nat := 10
def op : Nat := 11

end Sys2Proof.Atn

namespace Sys2Proof.Machine

/-- Bits [hi:lo] of a word. -/
def bits {w : Nat} (v : BitVec w) (hi lo : Nat) : Nat := v.toNat / 2 ^ lo % 2 ^ (hi + 1 - lo)

/-- Bits [hi:lo] of a word replaced. -/
def putBits (v : Word) (hi lo x : Nat) : Word :=
  let m : Word := BitVec.ofNat 32 ((2 ^ (hi + 1 - lo) - 1) * 2 ^ lo)
  (v &&& ~~~m) ||| (BitVec.ofNat 32 (x % 2 ^ (hi + 1 - lo) * 2 ^ lo))

/-- Bits [hi:lo] as ones. -/
def maskOf (hi lo : Nat) : Word := BitVec.ofNat 32 ((2 ^ (hi + 1 - lo) - 1) * 2 ^ lo)

/-- A two's-complement number of `w` bits. -/
def signed (w n : Nat) : Int := if n % 2 ^ w < 2 ^ (w - 1) then (n % 2 ^ w : Nat) else (n % 2 ^ w : Nat) - (2 ^ w : Nat)

/-- An integer as a two's-complement field of `w` bits. -/
def unsigned (w : Nat) (i : Int) : Nat := (i % (2 ^ w : Nat)).toNat

/-- An integer limited to a range. -/
def clampI (lo hi i : Int) : Int := max lo (min hi i)

/-- `n` bytes of a number, most significant first (R11). -/
def beBytes : Nat → Nat → List Byte
  | 0, _ => []
  | n + 1, v => BitVec.ofNat 8 (v / 256 ^ n) :: beBytes n v

/-- The number that bytes spell, most significant first. -/
def ofBytes (l : List Byte) : Nat := l.foldl (fun a b => a * 256 + b.toNat) 0

/-- One byte into the CRC-32C register, least significant bit first. -/
def crcByte (c : Word) (b : Byte) : Word :=
  let step (x : Word) : Word := if x.getLsbD 0 then (x >>> 1) ^^^ 0x82F63B78 else x >>> 1
  step (step (step (step (step (step (step (step (c ^^^ b.setWidth 32))))))))

/-- CRC-32C: polynomial 0x1EDC6F41, reflected, initial value and final complement of all ones (R156). -/
def crc32c (l : List Byte) : Word := ~~~(l.foldl crcByte 0xFFFFFFFF)

/-- Seconds, nanoseconds and fraction of a time in 2^-16 ns (R233). -/
def secOf (t : Nat) : Nat := t / (1000000000 * nsU)
def nsOf (t : Nat) : Nat := t / nsU % 1000000000
def frOf (t : Nat) : Nat := t % nsU

/-- A wide time's 16 bytes: seconds 8, nanoseconds 4, fraction 2, reserved 2 (R233). -/
def wideBytes (t : Nat) : List Byte := beBytes 8 (secOf t) ++ beBytes 4 (nsOf t) ++ beBytes 2 (frOf t) ++ beBytes 2 0

def Wide.toU (w : Wide) : Nat := w.s.toNat * (1000000000 * nsU) + w.ns.toNat * nsU + w.fr.toNat

/-- Indexes below `n` of the set bits. -/
def bitList {w : Nat} (v : BitVec w) : List Nat := (List.range w).filter fun i => v.getLsbD i

def bitOf (w i : Nat) : BitVec w := BitVec.ofNat w (2 ^ i)

/-- Number of set bits. -/
def popCount {w : Nat} (v : BitVec w) : Nat := (bitList v).length

/-- Rounding up to a multiple. -/
def roundUp (n m : Nat) : Nat := (n + m - 1) / m * m

/-- The first element of an association list under a key. -/
def lookupK {α β : Type} [BEq α] (k : α) : List (α × β) → Option β
  | [] => none
  | (x, v) :: l => if x == k then some v else lookupK k l

/-- A key's value replaced, or the pair added at the end. -/
def putK {α β : Type} [BEq α] (k : α) (v : β) : List (α × β) → List (α × β)
  | [] => [(k, v)]
  | (x, u) :: l => if x == k then (k, v) :: l else (x, u) :: putK k v l

def dropK {α β : Type} [BEq α] (k : α) (l : List (α × β)) : List (α × β) := l.filter fun x => !(x.1 == k)

/-- The elements of a list with their places. -/
def withIdx {α : Type} (l : List α) : List (Nat × α) := (List.range l.length).zip l

/-- A vector with one element changed. -/
def upd {α : Type} {n : Nat} (v : Vector α n) (i : Fin n) (f : α → α) : Vector α n := v.set i (f (v.get i))

end Sys2Proof.Machine
end

