-- ==== Sys2Proof/Machine/Ops.lean ====
section
/-! DEFINITION. The named operations over the state: sparse registers and their shadows, byte memories in canonical
form, free values, attention (R331, R332), long operations (R329), counters, clocks and power. -/

namespace Sys2Proof.Machine

/-! ### Sparse words -/

def RegMap.find (m : RegMap) (a : Nat) : Option Word := lookupK a m

/-- A word stored under its address, addresses kept rising. -/
def RegMap.put (a : Nat) (w : Word) : RegMap → RegMap
  | [] => [(a, w)]
  | (b, v) :: m => if a < b then (a, w) :: (b, v) :: m else if a = b then (a, w) :: m else (b, v) :: RegMap.put a w m

def RegMap.drop (p : Nat → Bool) (m : RegMap) : RegMap := m.filter fun x => !p x.1

/-! ### Byte memories: an unlisted address reads as 0 (R182; log entry 3) -/

/-- Canonical form: addresses strictly rising, no entry equal to what an unlisted address reads as. -/
abbrev Mem.wf (m : Mem) : Prop := m.Pairwise (fun x y => x.1 < y.1) ∧ ∀ x ∈ m, x.2 ≠ 0

def Mem.read (m : Mem) (a : Nat) : Byte := (lookupK a m).getD 0

def Mem.readBytes (m : Mem) (a : Nat) : Nat → List Byte
  | 0 => []
  | n + 1 => Mem.read m a :: Mem.readBytes m (a + 1) n

/-- The entries that bytes from an address on make. -/
def Mem.cells (a : Nat) : List Byte → Mem
  | [] => []
  | b :: bs => if b = 0 then Mem.cells (a + 1) bs else (a, b) :: Mem.cells (a + 1) bs

/-- Bytes stored from an address on; storing 0 lists nothing. -/
def Mem.writeBytes (a : Nat) (bs : List Byte) (m : Mem) : Mem :=
  (m.filter fun c => decide (c.1 < a)) ++ Mem.cells a bs ++ m.filter fun c => decide (a + bs.length ≤ c.1)

/-! ### Free values -/

/-- The next free value's index, and the state with it taken (log entry 4). -/
def State.takeFree (s : State) : Nat × State := (s.free, { s with free := s.free + 1 })

/-! ### Registers in force -/

/-- The reset value of a register: its map's, but where the variant fixes another (R3, R5, R299, R361) or the straps do
(R284). -/
def resetValue (v : Variant) (straps : BitVec 12) (a : Nat) : Word :=
  if a = Reg.lnkAddr then straps.setWidth 32
  else if a = Reg.lnkIp then 0x0A400000 + straps.setWidth 32
  else match v with
    | .l =>
      if a = Reg.ilkIdent then 0x06400102
      else if a = Reg.pwrBudget then 0x009600E2
      else if a = Reg.lnkMlCtrl then 0x000A0001
      else if a = Reg.dptRegion then 0x08000830
      else match findRow a with
        | some (r, ix) => BitVec.ofNat 32 (r.resetAt ix)
        | none => 0
    | .f => match findRow a with
        | some (r, ix) => BitVec.ofNat 32 (r.resetAt ix)
        | none => 0

/-- The value in force of a register. -/
def State.get (s : State) (a : Nat) : Word := ((s.regs).find a).getD (resetValue s.variant s.straps a)

def State.fld (s : State) (a hi lo : Nat) : Nat := bits (s.get a) hi lo

def State.bit (s : State) (a i : Nat) : Bool := (s.get a).getLsbD i

def State.set (a : Nat) (w : Word) (s : State) : State := { s with regs := s.regs.put a w }

def State.setFld (a hi lo x : Nat) (s : State) : State := s.set a (putBits (s.get a) hi lo x)

def State.setBit (a i : Nat) (b : Bool) (s : State) : State := s.setFld a i i b.toNat

/-- A pair of registers as one 64-bit value, and its setting (R17). -/
def State.get64 (s : State) (lo hi : Nat) : BitVec 64 := s.get hi ++ s.get lo

def State.set64 (lo hi : Nat) (v : Nat) (s : State) : State :=
  (s.set lo (BitVec.ofNat 32 v)).set hi (BitVec.ofNat 32 (v / 2 ^ 32))

/-- The shadow of a register: what SH fields read back as (R15). -/
def State.getShadow (s : State) (a : Nat) : Word := (s.shadow.find a).getD (s.get a)

/-- A field set by the part itself in force and in the shadow alike. -/
def State.setBoth (a hi lo x : Nat) (s : State) : State :=
  let s' := s.setFld a hi lo x
  match s.shadow.find a with
  | some w => { s' with shadow := s'.shadow.put a (putBits w hi lo x) }
  | none => s'

/-- A counter field counted up; counters stop at their maximum value (R147, R173, R212, R227, R255, R281, R317, R372,
R403). -/
def State.bumpFld (a hi lo n : Nat) (s : State) : State :=
  s.setFld a hi lo (min (2 ^ (hi + 1 - lo) - 1) (s.fld a hi lo + n))

def State.bump (a : Nat) (s : State) : State := s.bumpFld a 31 0 1

def State.bumpBy (a n : Nat) (s : State) : State := s.bumpFld a 31 0 n

def State.bump64 (lo hi n : Nat) (s : State) : State := s.set64 lo hi (min (2 ^ 64 - 1) ((s.get64 lo hi).toNat + n))

/-- Every register of an address range back at its reset value, shadows too. -/
def State.resetRegs (p : Nat → Bool) (s : State) : State :=
  { s with regs := s.regs.drop p, shadow := s.shadow.drop p }

/-! ### Attention (R331, R332) -/

def setAtn (b e : Nat) (x : Session) : Session :=
  { x with atn := x.atn ||| bitOf 12 b, atnAt := putK b e x.atnAt }

/-- An event: its bit is set in every session that `p` picks, at a moment of its own. -/
def State.attendIf (p : Session → Bool) (b : Nat) (s : State) : State :=
  { s with
    evt := s.evt + 1
    bcp := { s.bcp with sessions := s.bcp.sessions.map fun x => if p x then setAtn b (s.evt + 1) x else x } }

def State.attend (b : Nat) (s : State) : State := s.attendIf (fun _ => true) b

/-! ### Sessions and long operations -/

def State.updSession (id : Word) (f : Session → Session) (s : State) : State :=
  { s with bcp := { s.bcp with sessions := s.bcp.sessions.map fun x => if x.id = id then f x else x } }

def State.findSession (s : State) (id : Word) : Option Session := s.bcp.sessions.find? fun x => x.id = id

def updOp (h : Nat) (f : Op → Op) (x : Session) : Session :=
  { x with ops := x.ops.map fun o => if o.handle = h then f o else o }

def State.updOpRef (o : OpRef) (f : Op → Op) (s : State) : State := s.updSession o.session (updOp o.handle f)

def State.findOp (s : State) (o : OpRef) : Option Op :=
  (s.findSession o.session).bind fun x => x.ops.find? fun p => p.handle = o.handle

/-- An operation reaches DONE: its final status and result are kept and ATN_OP is set in its session (R329). Of a
session that has closed nothing is kept (R323). -/
def State.opDone (o : OpRef) (final : BitVec 16) (result : List Byte) (s : State) : State :=
  match s.findOp o with
  | none => { s with bcp := { s.bcp with orphans := s.bcp.orphans.filter fun x => x.1 != o } }
  | some _ =>
    (s.updOpRef o fun p => { p with done := true, final := final, result := result }).attendIf
      (fun x => x.id = o.session) Atn.op

def State.opsDone (os : List OpRef) (final : BitVec 16) (result : List Byte) (s : State) : State :=
  os.foldl (fun s o => s.opDone o final result) s

def State.optDone (o : Option OpRef) (final : BitVec 16) (result : List Byte) (s : State) : State :=
  match o with
  | some o => s.opDone o final result
  | none => s

/-- One of an operation's running counters moved on, and its PROGRESS with it. -/
def State.opCount (o : Option OpRef) (i n : Nat) (s : State) : State :=
  match o with
  | some o => s.updOpRef o fun p => { p with counts := p.counts.set i (p.counts.getD i 0 + n) }
  | none => s

/-- An operation's counters as the 32-bit words of its result. -/
def State.opCounts (s : State) (o : Option OpRef) : List Byte :=
  match o with
  | some o => ((s.findOp o).map fun p => p.counts.flatMap (beBytes 4)).getD []
  | none => []

/-! ### Output -/

def State.emit (x : Tx) (s : State) : State := { s with tx := s.tx ++ [x] }

/-! ### Units -/

def State.updTile (t : Fin 4) (f : TileState → TileState) (s : State) : State := { s with tiles := upd s.tiles t f }

def State.updRelief (t : Fin 4) (f : Relief → Relief) (s : State) : State :=
  s.updTile t fun x => { x with relief := f x.relief }

def State.updProg (p : Fin 8) (f : Prog → Prog) (s : State) : State :=
  { s with sbx := { s.sbx with progs := upd s.sbx.progs p f } }

def State.tile (s : State) (t : Fin 4) : TileState := s.tiles.get t

def allTiles : List (Fin 4) := [0, 1, 2, 3]

def allProgs : List (Fin 8) := [0, 1, 2, 3, 4, 5, 6, 7]

/-- Tile and local index of a module channel (R6). -/
def chanTile (c : Nat) : Fin 4 := Fin.ofNat 4 (c / 16)
def chanLocal (c : Nat) : Nat := c % 16

def State.tilePowered (s : State) (t : Fin 4) : Bool := s.modes.tiles.getLsbD t.val

/-- A tile whose link is down because it trains again (R48, R313). -/
def State.tileTraining (s : State) (t : Fin 4) : Bool := s.bit (Reg.lnkTlStat t) 1

/-- Local channels of a tile that sample (SLC_SAMPLING). -/
def State.samplingMask (s : State) (t : Fin 4) : BitVec 16 := (s.get (Reg.slcSampling t)).setWidth 16

/-- Interleaved pairs of a tile (SLC_ILV). -/
def State.ilvMask (s : State) (t : Fin 4) : BitVec 8 := (s.get (Reg.slcIlv t)).setWidth 8

def State.ilv (s : State) (t : Fin 4) (k : Nat) : Bool := (s.ilvMask t).getLsbD (k / 2)

/-- The sample period being taken: period n is taken 3.0 ns after its time-stamp (R235). -/
def State.samplePos (s : State) : Nat := (((s.tim.mt : Int) - s.sbx.t0 - 3 * nsU) / periodU).toNat

/-- Channels of a tile that sample in the frame from a period on. -/
def State.maskAt (s : State) (t : Fin 4) (first : Nat) : BitVec 16 :=
  match (s.tile t).masks.find? fun (m : Nat × BitVec 16) => decide (m.1 ≤ first) with
  | some m => m.2
  | none => 0

/-- First period of the next frame (R10). -/
def State.nextFrame (s : State) : Nat := (s.samplePos / framePeriods + 1) * framePeriods

/-- The first period that a frame boundary from now on may begin: while a clock-loss stop lasts, that of its resumption
(R274). -/
def State.nextPeriod (s : State) : Nat := if s.clk.stopSampling && !s.modes.sampling then s.sbx.period else s.samplePos

/-- Time-stamp of a sample period. -/
def State.stampOf (s : State) (n : Nat) : Nat := (s.sbx.t0 + n * periodU).toNat

/-- A capture or hit window that is open on a module channel (R101). -/
def State.windowOpen (s : State) (c : Nat) : Bool :=
  (s.sbx.progs.toList.any fun p => match p.win with
    | some w => w.chans.getLsbD c
    | none => false) || (s.sbx.hits.any fun w => w.chans.getLsbD c)

/-- A capture or hit window that was open on a module channel when a period was the one being taken: opened by the
evaluation of its trigger period, and not yet closed (R101, R135). -/
def State.windowOpenAt (s : State) (c pos : Nat) : Bool :=
  let lag := s.fld Reg.sbxLag 8 0
  let opened (w : Win) : Bool := w.chans.getLsbD c && decide (w.trigger + lag ≤ pos)
  (s.sbx.progs.toList.any fun p => match p.win with
    | some w => opened w
    | none => false) || s.sbx.hits.any opened
  || s.sbx.recent.any fun x => x.1.getLsbD c && decide (x.2.1 + lag ≤ pos) && decide (pos < x.2.2 + lag)

/-- Present module time as seconds and nanoseconds into a register pair. -/
def State.stamp (sAddr nsAddr : Nat) (t : Nat) (s : State) : State :=
  (s.set sAddr (BitVec.ofNat 32 (secOf t))).set nsAddr (BitVec.ofNat 32 (nsOf t))

/-- Modes in code order (R331). -/
def Mode.code : Mode → Nat
  | .dormant => 0 | .boot => 1 | .safe => 2 | .standby => 3 | .calibrate => 4 | .triggered => 5
  | .streaming => 6 | .hold => 7 | .drain => 8 | .test => 9 | .degraded => 10 | .update => 11

def modeOf : Nat → Option Mode
  | 0 => some .dormant | 1 => some .boot | 2 => some .safe | 3 => some .standby | 4 => some .calibrate
  | 5 => some .triggered | 6 => some .streaming | 7 => some .hold | 8 => some .drain | 9 => some .test
  | 10 => some .degraded | 11 => some .update
  | _ => none

/-- The mode that software sees: Degraded whenever a cause of it stands in a mode from Standby to Test, or in Update when
that is the base of Degraded (R346, R351, R352). -/
def State.mode (s : State) : Mode :=
  let m := s.modes.inner
  let may := (decide (3 ≤ m.code) && decide (m.code ≤ 9)) || (m == .update && s.modes.keepDegraded)
  if s.fld Reg.pwrDegraded 2 0 != 0 && may then .degraded else m

/-- A rule that names a mode holds in it, and in Hold, Test and Degraded through both levels of base (R347). -/
def State.inMode (s : State) (m : Mode) : Bool := s.mode == m || s.modes.inner == m || s.modes.base == m

/-! ### How a meaning answers -/

/-- A state with the queue and the nonvolatile memories of another. -/
def State.keeping (old s : State) : State := { s with pending := old.pending, nv := old.nv }

/-- A state with the queue of another. -/
def State.queueOf (old s : State) : State := { s with pending := old.pending }

/-- A command's effect that reaches neither the queue nor the nonvolatile memories. -/
def run (f : State → State) (s : State) : Host.Outcome State Fault Refusal := .next (State.keeping s (f s))

/-- The effect of a command that may program the nonvolatile memories; the queue stays. -/
def runNv (f : State → State) (s : State) : Host.Outcome State Fault Refusal := .next (State.queueOf s (f s))

end Sys2Proof.Machine
end

