-- ==== Sys2Proof/Machine/Junction.lean ====
section
/-! DEFINITION. Junction, excitation and bias sources, look-ahead ranging, switch evaluation and TSW outputs
(R49–R73). Wire watch stands in Machine/Wire.lean, since a fault closes records. -/

namespace Sys2Proof.Machine

/-! ### Junction (R49–R53) -/

def State.pinRole (s : State) (t : Fin 4) (p : Nat) : Nat := s.fld (Reg.jctPin t p) 2 0
def State.pinIndex (s : State) (t : Fin 4) (p : Nat) : Nat := s.fld (Reg.jctPin t p) 7 4

/-- The odd channel of an interleaved pair, whose input stage is off (R8, R53). -/
def State.silent (s : State) (t : Fin 4) (k : Nat) : Bool := s.ilv t k && k % 2 == 1

/-- Local channel that uses a pin, if one does (R53, R80). -/
def State.pinChan (s : State) (t : Fin 4) (p : Nat) : Option Nat :=
  if s.pinRole t p = 1 || s.pinRole t p = 2 then
    (if s.silent t (s.pinIndex t p) then none else some (s.pinIndex t p))
  else none

/-- What a write of ROLE and INDEX to a pin is refused with (R50): BAD_VALUE before ROUTE_CONFLICT. -/
def State.pinCheck (s : State) (t : Fin 4) (p role index : Nat) : Option (BitVec 16) :=
  let others := (List.range 20).filter fun q => q != p && s.pinRole t q == role && s.pinIndex t q == index
  if 5 ≤ role || ((role = 3 || role = 4) && 3 < index) then some St.badValue
  else if (role = 1 || role = 2) && !others.isEmpty then some St.routeConflict
  else if (role = 3 || role = 4) && 2 ≤ others.length then some St.routeConflict
  else none

/-! ### Excitation and bias sources (R54–R60) -/

/-- What a source does at its output: nothing, a voltage in nV, a current in pA (R54, R59). -/
inductive Drive where
  | highZ
  | voltage (nv : Nat)
  | current (pa : Nat)
  deriving DecidableEq, Repr

/-- Output of an excitation source: LEVEL counts 5 V / 2^16 or 20 mA / 2^16; in pulse mode this is its baseline (R54,
R55). With its tile unpowered it is high-impedance (R418). -/
def State.exDrive (s : State) (t : Fin 4) (e : Nat) : Drive :=
  let level := s.fld (Reg.jctExLevel t e) 15 0
  if !s.tilePowered t then .highZ
  else match s.fld (Reg.jctExCtrl t e) 1 0 with
    | 0 => .highZ
    | 2 => .current (level * 20000000000 / 65536)
    | _ => .voltage (level * 5000000000 / 65536)

/-- The level that a bias source is set to, in nV: LEVEL counts 2.5 V / 2^16; none where it is disabled (R59). -/
def State.biasLevel (s : State) (t : Fin 4) (b : Nat) : Option Nat :=
  if s.bit (Reg.jctBias t b) 16 then some (s.fld (Reg.jctBias t b) 15 0 * 2500000000 / 65536) else none

/-- Output of a bias source (R59); with its tile unpowered it is high-impedance (R418). -/
def State.biasDrive (s : State) (t : Fin 4) (b : Nat) : Drive :=
  match s.biasLevel t b with
  | some v => if s.tilePowered t then .voltage v else .highZ
  | none => .highZ

/-- What the Junction drives a pin with (R49, R54, R59). -/
def State.pinDrive (s : State) (t : Fin 4) (p : Nat) : Drive :=
  if s.pinRole t p = 3 then s.exDrive t (s.pinIndex t p)
  else if s.pinRole t p = 4 then s.biasDrive t (s.pinIndex t p) else .highZ

/-! ### Channel inputs (R51) -/

/-- The pin that holds an input of a channel: role 1 the positive, role 2 the negative one. -/
def State.inputPin (s : State) (t : Fin 4) (role k : Nat) : Option Nat :=
  (List.range 20).find? fun p => s.pinRole t p == role && s.pinIndex t p == k

/-- A channel's reference in nV: 1.2 V, or the bias source that NREF names; none where that source is disabled and the
reference floats. A source loaded beyond 10 mA sags toward its load by an amount that nothing states: a free value, by
its index (R51, R59; log entry 156). -/
def State.refLevel (s : State) (t : Fin 4) (k i : Nat) : Option Int :=
  match s.fld (Reg.jctNref t (k / 8)) (4 * (k % 8) + 3) (4 * (k % 8)) with
  | 0 => some 1200000000
  | n + 1 => (s.biasLevel t n).map fun (v : Nat) =>
      (v : Int) + (if (s.tile t).sagging.getLsbD n then (Config.openWord (i + n)).toInt else 0)

/-- Differential input of a channel in nV from the levels of the 20 pins; none where it is unspecified (R51, R59). -/
def State.chanInput (s : State) (t : Fin 4) (k i : Nat) (pins : List Int) : Option Int :=
  let ref := s.refLevel t k i
  let at_ (role : Nat) : Option Int := match s.inputPin t role k with
    | some p => some (pins.getD p 0)
    | none => ref
  match at_ 1, at_ 2 with
  | some a, some b => some (a - b)
  | _, _ => none

def State.findArm (s : State) (t : Fin 4) (e : Nat) : Option Arm := (s.tile t).arms.find? fun a => a.source.val == e

/-- Whether the pulse in force leaves 0 V to 5.0 V: LEVEL counts 5 V / 2^16, AMP 2 V / 2^12 (R54, R55). -/
def State.pulseLeaves (s : State) (t : Fin 4) (e : Nat) : Bool :=
  let level := s.fld (Reg.jctExLevel t e) 15 0 * 10
  let amp := s.fld (Reg.jctExLevel t e) 27 16 * 64
  if s.bit (Reg.jctExCtrl t e) 2 then level < amp else 655360 < level + amp

/-- An ARM is refused where the pulse would leave its range or PERIOD is below WIDTH + 64 (R55, R57), whatever MODE is in
force (log entry 125). -/
def State.armRefused (s : State) (t : Fin 4) (e : Nat) : Bool :=
  s.pulseLeaves t e || s.get (Reg.jctExPeriod t e) < BitVec.ofNat 32 (s.fld (Reg.jctExPulse t e) 11 0 + 64)

/-- Module time whose low 32 bits of seconds are given: the time with those bits that lies within 2^31 s of the present
one (R56, R234; log entry 48). -/
def State.launchTime (s : State) (sec ns fr : Nat) : Nat :=
  let now := secOf s.tim.mt
  let ahead := (sec + 2 ^ 32 - now % 2 ^ 32) % 2 ^ 32
  let full := if ahead < 2 ^ 31 then now + ahead else now + ahead - 2 ^ 32
  full * (1000000000 * nsU) + ns * nsU + fr

/-- DISARM (R56). -/
def State.disarm (t : Fin 4) (e : Fin 4) (s : State) : State :=
  (s.updTile t fun x => { x with arms := x.arms.filter fun a => a.source != e }).setBit (Reg.jctExStat t e) 0 false

/-- ARM with a latched launch time: armed, or LATE when the time is less than 20 µs ahead (R56); SENT then stays (log
entry 126). -/
def State.arm (t : Fin 4) (e : Fin 4) (launch : Nat) (s : State) : State :=
  let s := s.disarm t e
  if launch < s.tim.mt + usU 20 then s.setBit (Reg.jctExStat t e) 1 true
  else
    let s := (s.setFld (Reg.jctExStat t e) 31 16 0).setBit (Reg.jctExStat t e) 0 true
    s.updTile t fun x => { x with arms := x.arms ++ [⟨e, launch, 0⟩] }

/-- The due time of the next pulse of an armed source, by the PERIOD now in force (R57; log entry 126). -/
def State.pulseDue (s : State) (t : Fin 4) (a : Arm) : Nat :=
  a.launch + a.sent * (s.get (Reg.jctExPeriod t a.source)).toNat * periodU

/-- A time of 2^-16 ns to the nearest ps (R56). -/
def toPs (u : Nat) : Nat := (u * 1000 + nsU / 2) / nsU

/-- The next pulse leaves at its time; after the last trailing edge DONE is set and ARMED clears (R56, R57). -/
def pulseLaunch (t : Fin 4) (e : Fin 4) (s : State) : State :=
  match s.findArm t e with
  | none => s
  | some a =>
    let width := s.fld (Reg.jctExPulse t e) 11 0
    if !s.tilePowered t then s
    else if s.fld (Reg.jctExPulse t e) 31 16 ≤ a.sent then
      if s.tim.mt < s.pulseDue t { a with sent := a.sent - 1 } + width * periodU then s
      else (s.disarm t e).setBit (Reg.jctExStat t e) 3 true
    else if s.tim.mt < s.pulseDue t a then s
    else
      let s1 := (s.setFld (Reg.jctExStat t e) 31 16 (a.sent + 1)).updTile t fun x =>
        { x with arms := x.arms.map fun b => if b.source = e then { b with sent := a.sent + 1 } else b }
      if s.fld (Reg.jctExCtrl t e) 1 0 = 3 then
        s1.emit (.pulse t e a.sent (toPs (s.pulseDue t a)) (s.fld (Reg.jctExLevel t e) 15 0)
          (s.fld (Reg.jctExLevel t e) 27 16) (s.bit (Reg.jctExCtrl t e) 2) width)
      else s1

/-- A DC source at its limit latches COMPLIANCE (R58). -/
def sourceCompliance (t : Fin 4) (e : Fin 4) (s : State) : State :=
  let m := s.fld (Reg.jctExCtrl t e) 1 0
  if s.tilePowered t && (m = 1 || m = 2) then s.setBit (Reg.jctExStat t e) 2 true else s

/-- The load of a bias source: beyond ±10 mA it sags until its load is less again (R59). -/
def biasCompliance (t : Fin 4) (b : Fin 4) (loadUa : Nat) (s : State) : State :=
  if !s.tilePowered t then s
  else if s.bit (Reg.jctBias t b) 16 && 10000 < loadUa then
    ((s.updTile t fun x => { x with sagging := x.sagging ||| bitOf 4 b }).setBit (Reg.jctBias t b) 17 true).attend Atn.wire
  else s.updTile t fun x => { x with sagging := x.sagging &&& ~~~bitOf 4 b }

/-! ### Look-ahead ranging (R61–R68) -/

/-- Full scale of a range in nanovolts: G1, G8, G64 (R61). -/
def fullScale : Nat → Nat
  | 0 => 500000000
  | 1 => 62500000
  | _ => 7812500

/-- The narrowest range whose 85% level is above a magnitude, or G1 (R63). -/
def chooseRange (mag : Nat) : Nat :=
  if mag * 100 < fullScale 2 * 85 then 2 else if mag * 100 < fullScale 1 * 85 then 1 else 0

def State.range (s : State) (t : Fin 4) (k : Nat) : Nat := s.fld (Reg.feaChStat t k) 1 0

def State.autoRange (s : State) (t : Fin 4) (k : Nat) : Bool := s.fld (Reg.feaChCtrl t k) 1 0 == 0

/-- A field that wraps (FEA_CHk_CNT). -/
def State.wrapFld (a hi lo n : Nat) (s : State) : State := s.setFld a hi lo (s.fld a hi lo + n)

/-- A channel whose samples exist: it samples and is no silent half of a pair. -/
def State.live (s : State) (t : Fin 4) (k : Nat) : Bool := (s.samplingMask t).getLsbD k && !s.silent t k

def State.front (s : State) (t : Fin 4) (k : Nat) : Front := (s.tile t).fronts.get (Fin.ofNat 16 k)

def State.updFront (t : Fin 4) (k : Nat) (f : Front → Front) (s : State) : State :=
  s.updTile t fun x => { x with fronts := upd x.fronts (Fin.ofNat 16 k) f }

/-- The sample period whose signal is at the pin now (R235). -/
def State.pinPos (s : State) : Nat := (((s.tim.mt : Int) - s.sbx.t0) / periodU).toNat

/-- The sample taken at the first sample boundary at or after a moment, in slice time: pin time + 3.0 ns (R63). -/
def State.sampleFrom (s : State) (u : Nat) : Nat :=
  (((u : Int) - 3 * nsU - s.sbx.t0 + periodU - 1) / periodU).toNat

/-- A switch to another range, counted in CHANGES; nothing when the range stays. `n` is the settling sample, the new
range holds from the next one on, and the hold count starts anew (R63, R66, R67). -/
def State.switchRange (t : Fin 4) (k r n : Nat) (s : State) : State :=
  if s.range t k = r then s
  else
    ((s.setFld (Reg.feaChStat t k) 1 0 r).wrapFld (Reg.feaChCnt t k) 15 0 1).updFront t k fun x =>
      { x with tags := (n + 1, r) :: (n, 3) :: (x.tags.filter fun (y : Nat × Nat) => decide (y.1 < n)), holdFrom := s.pinPos }

/-- The undelayed signal passes 85% of full scale: the scout, once re-armed, waits 2.0 ns for its decision (R63). In a
fixed mode it takes no action (R67). -/
def scoutCrossing (t : Fin 4) (k mag : Nat) (s : State) : State :=
  if s.live t k && s.autoRange t k && fullScale (s.range t k) * 85 ≤ mag * 100
      && decide ((s.front t k).rearmAt ≤ s.tim.mt) && (s.front t k).crossed.isNone then
    s.updFront t k fun x => { x with crossed := some s.tim.mt, holdFrom := s.pinPos }
  else s

/-- The largest magnitude between the highest and the lowest value of a signal. -/
def peakMag (high low : Int) : Nat := max high.natAbs low.natAbs

/-- The scout's decision 2.0 ns after the crossing, by the largest magnitude that it has seen since, and the switch at the first sample boundary S after it; the scout is
re-armed at S + 0.5 ns (R63). -/
def upRange (t : Fin 4) (k mag : Nat) (s : State) : State :=
  match (s.front t k).crossed with
  | none => s
  | some t0 =>
    if !s.live t k || s.tim.mt < t0 + 2 * nsU then s
    else
      let n := s.sampleFrom (t0 + 2 * nsU)
      let goes := decide (chooseRange mag < s.range t k)
      let s1 := if goes then s.switchRange t k (chooseRange mag) (n + 1) else s
      s1.updFront t k fun x =>
        { x with crossed := none, rearmAt := if goes then s.stampOf (n + 1) + 3 * nsU else s.tim.mt }

/-- Sample periods for which the signal has stayed below the down level: those that the surroundings report, but none from
before the latest range change or crossing (R66). -/
def State.holdCount (s : State) (t : Fin 4) (k quiet : Nat) : Nat := min quiet (s.pinPos - (s.front t k).holdFrom)

/-- `quiet` periods below the down level: one range narrower at the next sample boundary (R65, R66). -/
def downRange (t : Fin 4) (k quiet mag : Nat) (s : State) : State :=
  let r := s.range t k + 1
  if s.live t k && s.autoRange t k && r ≤ s.fld (Reg.feaChCtrl t k) 3 2 && r ≤ 2
      && s.fld (Reg.feaChRange t k) 28 16 ≤ s.holdCount t k quiet
      && mag * 200 < s.fld (Reg.feaChRange t k) 13 8 * fullScale r then
    s.switchRange t k r (s.sampleFrom s.tim.mt + 1)
  else s

/-! ### Samples (R61–R64, R83) -/

def tagOf (w : Sample) : Nat := bits w 15 14
def codeOf (w : Sample) : Int := signed 14 (bits w 13 0)

/-- Normalization factor of a range (R61). -/
def normFactor : Nat → Int
  | 0 => 64
  | 1 => 8
  | _ => 1

/-- The tag of a channel's sample, from the tags in force by period. -/
def tagAt (tags : List (Nat × Nat)) (n : Nat) : Nat :=
  match tags.find? fun (y : Nat × Nat) => decide (y.1 ≤ n) with
  | some y => y.2
  | none => 0

/-- The range at which a sample is converted: its tag's, or for a settling sample that of the next one (R62). -/
def gainAt (tags : List (Nat × Nat)) (n : Nat) : Nat :=
  if tagAt tags n != 3 then tagAt tags n else if tagAt tags (n + 1) != 3 then tagAt tags (n + 1) else tagAt tags (n + 2)

/-- GAIN of a slice in parts of 20,000 and its range trim in parts of 50,000 (R91). -/
def Trims.gain (x : Trims) : Int := signed 12 (bits x.t0 27 16)
def Trims.offset (x : Trims) : Int := signed 12 (bits x.t0 11 0)
def Trims.rangeGain (x : Trims) : Nat → Int
  | 0 => signed 12 (bits x.t2 11 0)
  | 1 => signed 12 (bits x.t2 27 16)
  | _ => signed 12 (bits x.t3 11 0)

/-- What a slice converts in 2^-10 LSB of its range, full scale being 8192 LSB: the input scaled by GAIN and by the range
trim, OFFSET in steps of 0.25 LSB, and the slice's own error `e` (R61, R91; log entry 157). -/
def conversion (r : Nat) (nv : Int) (x : Trims) (e : Int) : Int :=
  nv * 8388608 * ((20000 + x.gain) * (50000 + x.rangeGain r)) / (fullScale r * 1000000000) + 256 * x.offset + e

/-- The code to the nearest integer, before it is pinned (R61; log entry 127). -/
def rawCode (r : Nat) (nv : Int) (x : Trims) (e : Int) : Int := (conversion r nv x e + 512) / 1024

/-- An input that is pinned at full scale: beyond it, or at or above 85% of it in a range that automatic mode would have
left (R64). -/
def overInput (auto_ : Bool) (r : Nat) (nv : Int) : Bool :=
  decide (fullScale r < nv.natAbs) || (auto_ && r != 0 && decide (fullScale r * 85 ≤ nv.natAbs * 100))

/-- A sample that is pinned at full scale: its input is, or no code holds what the slice converts (R64). -/
def pinned (auto_ : Bool) (r : Nat) (nv : Int) (x : Trims) (e : Int) : Bool :=
  overInput auto_ r nv || decide (rawCode r nv x e < -8192) || decide (8191 < rawCode r nv x e)

def sampleCode (auto_ : Bool) (r : Nat) (nv : Int) (x : Trims) (e : Int) : Int :=
  if overInput auto_ r nv then (if nv < 0 then -8192 else 8191) else clampI (-8192) 8191 (rawCode r nv x e)

/-- The 16-bit sample word (R83). -/
def sampleWord (tag : Nat) (code : Int) : Sample := BitVec.ofNat 16 (tag * 16384 + unsigned 14 code)

/-- One sample of a slot: its word, its gain-normalized value, whether it was pinned, and whether its input reached the
down level (R66). -/
structure Taken where
  word : Sample
  value : Int
  clip : Bool
  loud : Bool
  deriving DecidableEq, Repr

/-- A span from a period on, up to an end where it has one. -/
def spanHolds (n : Nat) (first : Nat) : Option Nat → Bool
  | some e => decide (first ≤ n) && decide (n < e)
  | none => decide (first ≤ n)

/-- The slice that converts a slot in a period: its own, or the relief slice where that stands in for it (R87, R96). -/
def TileState.sourceAt (x : TileState) (k n : Nat) : Nat :=
  if x.spans.any fun (p : Nat × Nat × Option Nat) => p.1 == k && spanHolds n p.2.1 p.2.2 then 16 else k

/-- The trims of a slice in a period (R91). -/
def TileState.trimsAt (x : TileState) (sl n : Nat) : Trims :=
  match x.trimLog.find? fun (y : Nat × Nat × Trims) => y.1 == sl && decide (y.2.1 ≤ n) with
  | some y => y.2.2
  | none => Trims.reset

/-- The amplifiers have the reference injection at their inputs in a period (R112). -/
def TileState.injected (x : TileState) (n : Nat) : Bool := x.inject.any fun (p : Nat × Option Nat) => spanHolds n p.1 p.2

/-- A magnitude reaches the down level of the range in force: DN_FRAC of the full scale of the next narrower one (R65,
R66). -/
def State.reachesDown (s : State) (t : Fin 4) (k r mag : Nat) : Bool :=
  r != 2 && decide (s.fld (Reg.feaChRange t k) 13 8 * fullScale (r + 1) ≤ mag * 200)

/-- The sample of a slot in a period from the levels of the pins on the grid and 0.25 ns after it; both slots of a pair
sample its even channel (R68, R87). A slot that does not sample holds 0 (R310). An unspecified input is free, and so is
the reference injection of range calibration (R59, R112). -/
def State.takeSample (s : State) (t : Fin 4) (mask : BitVec 16) (n k i : Nat) (pins : List Int) : Taken :=
  let wide := s.ilv t k
  let c := if wide then k / 2 * 2 else k
  if !mask.getLsbD c then ⟨0, 0, false, false⟩
  else
    let x := s.tile t
    let f := s.front t c
    let r := gainAt f.tags n
    let pin := if x.injected n then none
      else s.chanInput t c (s.free + 4096 + i / 16 * 4) (if wide && k % 2 == 1 then pins.drop 20 else pins.take 20)
    let nv := pin.getD (Config.openWord (s.free + i)).toInt
    let sl := x.sourceAt k n
    let trims := x.trimsAt sl n
    let e := Config.sliceError t sl trims.t1 (s.free + i)
    let code := sampleCode (s.autoRange t c) r nv trims e
    ⟨sampleWord (tagAt f.tags n) code, code * normFactor r, pinned (s.autoRange t c) r nv trims e,
      s.reachesDown t c r nv.natAbs⟩

/-- The range that a mode puts in force at a frame boundary: G1 for automatic (R67). -/
def modeRange (m : Nat) : Nat := m - 1

/-- The channels of a mask begin to sample at a period: in G1 or in their fixed range, with no settling sample and no
change counted (R67). -/
def State.rangesStart (t : Fin 4) (mask : BitVec 16) (first : Nat) (s : State) : State :=
  (List.range 16).foldl (fun (s : State) (k : Nat) =>
    if !mask.getLsbD k then s
    else
      let r := modeRange (s.fld (Reg.feaChCtrl t k) 1 0)
      (s.setFld (Reg.feaChStat t k) 1 0 r).updFront t k fun x =>
        { crossed := none, rearmAt := 0, holdFrom := first
          tags := (first, r) :: x.tags.filter fun (y : Nat × Nat) => decide (y.1 < first) }) s

/-! ### Threshold switches (R69–R73) -/

def State.thr (s : State) (t : Fin 4) (k sw : Nat) : Int × Int :=
  if sw = 0 then (signed 32 (s.get (Reg.thrChSet0 t k)).toNat, signed 32 (s.get (Reg.thrChClr0 t k)).toNat)
  else (signed 32 (s.get (Reg.thrChSet1 t k)).toNat, signed 32 (s.get (Reg.thrChClr1 t k)).toNat)

def State.thrEn (s : State) (t : Fin 4) (k sw : Nat) : Bool := s.bit (Reg.thrChCfg t k) (4 * sw)
def State.thrPol (s : State) (t : Fin 4) (k sw : Nat) : Bool := s.bit (Reg.thrChCfg t k) (4 * sw + 1)

/-- CLR lies beyond SET in the set direction (R70). -/
def badHyst (pol : Bool) (set clr : Int) : Bool := if pol then clr < set else set < clr

/-- One evaluation of a switch (R69, R70). -/
def switchNext (pol : Bool) (set clr v : Int) (on : Bool) : Bool :=
  let meets := if pol then decide (v ≤ set) else decide (set ≤ v)
  let clears := if pol then decide (clr ≤ v) else decide (v ≤ clr)
  if badHyst pol set clr then meets else if on then !clears else meets

/-- THR_BADHYST (R70). -/
def State.badHystWord (s : State) (t : Fin 4) : Word :=
  (List.range 32).foldl (fun w i =>
    let (a, b) := s.thr t (i / 2) (i % 2)
    if badHyst (s.thrPol t (i / 2) (i % 2)) a b then w ||| bitOf 32 i else w) 0

/-- Both switches of one channel after one value. -/
def State.evalChan (s : State) (t : Fin 4) (k : Nat) (v : Int) (sw : BitVec 32) : BitVec 32 :=
  [0, 1].foldl (fun w i =>
    let n := 2 * k + i
    let (a, b) := s.thr t k i
    let on := s.thrEn t k i && switchNext (s.thrPol t k i) a b v (sw.getLsbD n)
    if on then w ||| bitOf 32 n else w &&& ~~~(bitOf 32 n)) sw

/-- Switch states and reported bits after the 16 values of one period; an interleaved pair gives its two output samples
in the slots of both channels, and its period's bit is their OR (R72). A channel of which no sample is taken is not
evaluated (R69; log entry 158). -/
def State.evalPeriod (s : State) (t : Fin 4) (mask : BitVec 16) (vs : List Int) (sw : BitVec 32) : BitVec 32 × BitVec 32 :=
  (List.range 16).foldl (fun (acc : BitVec 32 × BitVec 32) k =>
    if !mask.getLsbD (if s.ilv t k then k / 2 * 2 else k) then acc
    else if s.ilv t k then
      if k % 2 = 0 then
        let w1 := s.evalChan t k (vs.getD k 0) acc.1
        let w2 := s.evalChan t k (vs.getD (k + 1) 0) w1
        let m := bitOf 32 (2 * k) ||| bitOf 32 (2 * k + 1)
        (w2, acc.2 ||| ((w1 ||| w2) &&& m))
      else acc
    else
      let w := s.evalChan t k (vs.getD k 0) acc.1
      (w, acc.2 ||| (w &&& (bitOf 32 (2 * k) ||| bitOf 32 (2 * k + 1))))) (sw, 0)

/-- One 2 ns step of a TSW output from the OR of its switches (R73). -/
def tswStep (stretch : Nat) (on : Bool) (x : Tsw) : Tsw :=
  if on then (if x.high then { x with left := x.left - 1 } else { x with high := true, left := stretch - 1 })
  else if x.high && 0 < x.left then { x with left := x.left - 1 } else { x with high := false, left := 0 }

/-- A tile that has power, or that is to sample some more periods before it loses it. -/
def State.tileRuns (s : State) (t : Fin 4) : Bool := s.tilePowered t || s.maskAt t (s.tile t).swPeriod != 0

/-- The level at the connector: an empty mask stays low, else INV applies (R73); high impedance while the tile is
unpowered (R416, R418). -/
def State.tswOut (s : State) (t : Fin 4) (n : Nat) (x : Tsw) : Option Bool :=
  if !s.tileRuns t then none
  else if s.get (Reg.thrTswMask t n) = 0 then some false else some (x.high != s.bit (Reg.thrTswCtrl t) (16 + n))

/-- The levels at the connector follow; a change appears there (R73). -/
def State.tswShow (t : Fin 4) (s : State) : State :=
  let x := s.tile t
  let new := (s.tswOut t 0 x.tsw0, s.tswOut t 1 x.tsw1)
  if new = (x.tsw0.out, x.tsw1.out) then s
  else
    (s.updTile t fun y => { y with tsw0 := { y.tsw0 with out := new.1 }, tsw1 := { y.tsw1 with out := new.2 } }).emit
      (.tsw t new.1 new.2)

/-- Both TSW outputs over one 2 ns step in which the switches `w` were set. -/
def State.tswTick (t : Fin 4) (w : BitVec 32) (s : State) : State :=
  (s.updTile t fun x =>
    { x with tsw0 := tswStep (s.fld (Reg.thrTswCtrl t) 7 0) ((w &&& s.get (Reg.thrTswMask t 0)) != 0) x.tsw0
             tsw1 := tswStep (s.fld (Reg.thrTswCtrl t) 15 8) ((w &&& s.get (Reg.thrTswMask t 1)) != 0) x.tsw1 }).tswShow t

/-- What applying new JCT_, FEA_ and THR_ values does beyond the values (R60, R67, R71); `old` is the state before. -/
def State.frontEndApplied (t : Fin 4) (s old : State) : State :=
  let s := allTiles.foldl (fun (s : State) (e : Fin 4) =>
    if old.fld (Reg.jctExCtrl t e) 1 0 = s.fld (Reg.jctExCtrl t e) 1 0 then s else s.disarm t e) s
  let s := (List.range 16).foldl (fun s k =>
    let m := s.fld (Reg.feaChCtrl t k) 1 0
    if old.fld (Reg.feaChCtrl t k) 1 0 = m || !s.live t k then s
    else (s.switchRange t k (modeRange m) (s.tile t).swPeriod).updFront t k fun x => { x with crossed := none, rearmAt := 0 }) s
  let en := (List.range 32).foldl (fun (w : BitVec 32) i => if s.thrEn t (i / 2) (i % 2) then w ||| bitOf 32 i else w) 0
  let was := (List.range 32).foldl (fun (w : BitVec 32) i => if old.thrEn t (i / 2) (i % 2) then w ||| bitOf 32 i else w) 0
  (s.updTile t fun x => { x with sw := x.sw &&& en &&& was }).tswShow t

/-! ### Meanings -/

def execPulseLaunch (t : Tile) (e : Fin 4) (s : State) : Host.Outcome State Fault Refusal := run (pulseLaunch t e) s

def execSourceCompliance (t : Tile) (e : Fin 4) (s : State) : Host.Outcome State Fault Refusal :=
  run (sourceCompliance t e) s

def execBiasCompliance (t : Tile) (b : Fin 4) (loadUa : Nat) (s : State) : Host.Outcome State Fault Refusal :=
  run (biasCompliance t b loadUa) s

def execScoutCrossing (t : Tile) (k : Chan) (magNv : Nat) (s : State) : Host.Outcome State Fault Refusal :=
  run (scoutCrossing t k magNv) s

def execUpRange (t : Tile) (k : Chan) (highNv lowNv : Int) (s : State) : Host.Outcome State Fault Refusal :=
  run (upRange t k (peakMag highNv lowNv)) s

def execDownRange (t : Tile) (k : Chan) (quiet magNv : Nat) (s : State) : Host.Outcome State Fault Refusal :=
  run (downRange t k quiet magNv) s

end Sys2Proof.Machine
end

