-- ==== Sys2Proof/Machine/Relief.lean ====
section
/-! DEFINITION. Trims and the relief rotation: dwells, handover, calibration, handback, parking, manual trims and range
calibration (R91–R114). Differences come in the units of CAL_LAST0 and CAL_LAST1: 1/16 LSB, ppm and 0.01 ps. -/

namespace Sys2Proof.Machine

def State.trims (s : State) (t : Fin 4) (sl : Nat) : Trims :=
  ⟨s.get (Reg.slcSlTrim0 t sl), s.get (Reg.slcSlTrim1 t sl), s.get (Reg.slcSlTrim2 t sl), s.get (Reg.slcSlTrim3 t sl)⟩

/-- The trims that a slice now has convert from the next frame on (R91). -/
def State.logTrims (t : Fin 4) (sl : Nat) (s : State) : State :=
  s.updTile t fun x => { x with trimLog := (sl, s.nextFrame, s.trims t sl) :: x.trimLog }

def State.setTrims (t : Fin 4) (sl : Nat) (x : Trims) (s : State) : State :=
  ((((s.set (Reg.slcSlTrim0 t sl) (x.t0 &&& 0x0FFF0FFF)).set (Reg.slcSlTrim1 t sl) (x.t1 &&& 0x003F03FF)).set
    (Reg.slcSlTrim2 t sl) (x.t2 &&& 0x0FFF0FFF)).set (Reg.slcSlTrim3 t sl) (x.t3 &&& 0xFFF)).logTrims t sl

/-- Trims that still convert periods from one on: of each slice those of later periods, and the newest of the others;
`seen` are the slices whose newest has been met. -/
def trimsFrom (n : Nat) : List (Nat × Nat × Trims) → List Nat → List (Nat × Nat × Trims)
  | [], _ => []
  | x :: l, seen =>
    if seen.contains x.1 then trimsFrom n l seen
    else x :: trimsFrom n l (if x.2.1 ≤ n then x.1 :: seen else seen)

/-- Local channel that a working slice serves; both slices of a pair serve its even channel (R87). -/
def State.servesOf (s : State) (t : Fin 4) (sl : Nat) : Nat := if s.ilv t sl then sl / 2 * 2 else sl

/-- SLC_SLs_STAT. -/
def State.setSlice (t : Fin 4) (sl st serves : Nat) (s : State) : State :=
  (s.setFld (Reg.slcSlStat t sl) 2 0 st).setFld (Reg.slcSlStat t sl) 20 16 serves

/-- A slice starts to serve a channel: its range trims are the channel's amplifier terms, as the start of sampling found
them (R92, R112; log entry 128). -/
def State.loadRangeTerms (t : Fin 4) (sl k : Nat) (s : State) : State :=
  let a := (s.tile t).amps.getD k (0, 0)
  ((s.set (Reg.slcSlTrim2 t sl) (a.1 &&& 0x0FFF0FFF)).set (Reg.slcSlTrim3 t sl) (a.2 &&& 0xFFF)).logTrims t sl

def State.setPhase (t : Fin 4) (p : Nat) (s : State) : State := s.setFld (Reg.calStat t) 10 8 p

def State.relief (s : State) (t : Fin 4) : Relief := (s.tile t).relief

def State.calRun (s : State) (t : Fin 4) : Bool := s.bit (Reg.calCtrl t) 0

/-- A tile that samples now. -/
def State.tileSampling (s : State) (t : Fin 4) : Bool := s.modes.sampling && s.tilePowered t

/-- Frame flags for the next frame of a channel (R94). -/
def State.flagNext (t : Fin 4) (k : Nat) (f : Byte) (s : State) : State :=
  s.updTile t fun x => { x with nextFlags := x.nextFlags ++ [(s.nextFrame, k, f)] }

/-- The relief slice becomes the source in the place of a slice from the next frame on. -/
def State.openSpan (t : Fin 4) (sl : Nat) (s : State) : State :=
  s.updTile t fun x => { x with spans := x.spans ++ [(sl, s.nextFrame, none)] }

def State.closeSpan (t : Fin 4) (sl : Nat) (s : State) : State :=
  s.updTile t fun x =>
    { x with spans := x.spans.map fun p => if p.1 = sl && p.2.2 = none then (sl, p.2.1, some s.nextFrame) else p }

/-- An entry of the handback history at a frame's first sample (R104). -/
def State.addHist (t : Fin 4) (stamp : Nat) (st : Int × Int × Int) (sl k : Nat) (manual abandoned forced : Bool)
    (s : State) : State :=
  let e : HistEntry := ⟨BitVec.ofNat 32 (secOf stamp), BitVec.ofNat 32 (nsOf stamp), st, sl, k, manual, abandoned, forced⟩
  let s := s.updRelief t fun r => { r with hist := (e :: r.hist).take 32 }
  let n := s.fld (Reg.calHistHead t) 4 0
  let total := s.fld (Reg.calHistHead t) 31 16
  (s.setFld (Reg.calHistHead t) 4 0 (n + 1)).setFld (Reg.calHistHead t) 31 16 (min 65535 (total + 1))

/-- CAL_HIST0–3 for the selected entry (R104). -/
def State.histWord (s : State) (t : Fin 4) (n : Nat) : Word :=
  let next := s.fld (Reg.calHistHead t) 4 0
  let sel := s.fld (Reg.calHistSel t) 4 0
  match (s.relief t).hist[(next + 31 - sel) % 32]? with
  | none => 0
  | some e =>
    match n with
    | 0 => e.seconds
    | 1 => e.nanos
    | 2 => BitVec.ofNat 32 (unsigned 16 e.step.2.1 * 65536 + unsigned 16 e.step.1)
    | _ => BitVec.ofNat 32 (unsigned 16 e.step.2.2 * 65536 + e.slice * 2048 + e.channel * 128 + e.manual.toNat * 8
        + e.abandoned.toNat * 4 + e.forced.toNat * 2 + 1)

/-- Slices enabled in the rotation, ascending (R95). -/
def State.rotation (s : State) (t : Fin 4) : List Nat :=
  (List.range 17).filter fun i => s.bit (Reg.calSliceEn t) i

/-- The first enabled slice at or after one, wrapping to the first of all. -/
def State.nextSlice (s : State) (t : Fin 4) (n : Nat) : Option Nat :=
  match (s.rotation t).find? fun i => decide (n ≤ i) with
  | some i => some i
  | none => (s.rotation t).head?

/-- The rotation asks the Timetable for a dwell. A tile that holds a dwell-start grant for the present Timetable period
begins it at the present boundary; the grant is used up (R95, R109). -/
def State.requestDwell (t : Fin 4) (s : State) : State :=
  if (s.rotation t).isEmpty && !(s.relief t).retry then s.setPhase t 0
  else (s.updRelief t fun r =>
    { r with waiting := true, granted := r.ahead, ahead := false, startAt := s.nextFrame }).setPhase t 6

/-- A dwell ends: the rotation goes on to the next slice; past the last enabled one a cycle is complete (R93, R95). -/
def State.endDwell (t : Fin 4) (sl : Nat) (s : State) : State :=
  let last := (s.rotation t).all fun i => decide (i ≤ sl)
  let s := s.updRelief t fun r => { r with dwell := none, next := if last then 0 else sl + 1, retry := false }
  let s := if last then (s.wrapFld (Reg.calCycles t) 31 0 1).setBit (Reg.calStat t) 16 false else s
  if s.calRun t then s.requestDwell t else s.setPhase t 0

/-- Parking after a failed calibration, of whatever slice (R105). -/
def State.parkSlice (t : Fin 4) (sl : Nat) (s : State) : State :=
  let s := s.updRelief t fun r =>
    let old := match r.dwell with
      | some d => if d.retry then r.parkedOld else d.old
      | none => r.parkedOld
    { r with dwell := none, parked := some sl, parkedOld := old, retry := false, waiting := false, granted := false }
  let s := (s.setBit (Reg.calStat t) 17 true).setFld (Reg.calStat t) 28 24 sl
  (s.setSlice t sl 5 31).setPhase t 0

/-- A failed calibration is latched, counted and reported (R99, R105). -/
def State.calFailed (t : Fin 4) (sl : Nat) (s : State) : State :=
  ((s.setBit (Reg.calFault t) sl true).wrapFld (Reg.calCnt1 t) 31 16 1).attend Atn.cal

/-- The Timetable's grant has come: a dwell begins on the next enabled slice, or again on a parked one (R95, R96, R105,
R107, R108). -/
def dwellStart (t : Fin 4) (s : State) : State :=
  let r := s.relief t
  if !s.tileSampling t || !r.waiting || !r.granted || r.dwell.isSome || r.manual.isSome || s.samplePos < r.startAt then s
  else
    match if r.retry then r.parked else (if r.parked.isSome then none else s.nextSlice t r.next) with
    | none => s
    | some sl =>
      let k := s.servesOf t sl
      let old := s.trims t sl
      let stands := r.retry && sl != 16 && s.live t k
      let d : Dwell := { slice := sl, start := r.startAt, calAt := 0, trial := s.free, retry := r.retry,
                         standing := stands, calibrated := false, returned := false, deferred := false, old := old,
                         new_ := old, step := (0, 0, 0) }
      let s := { s with free := s.free + 1 }
      let s := s.updRelief t fun r => { r with dwell := some d, waiting := false, granted := false }
      let s := s.setFld (Reg.calStat t) 4 0 sl
      if stands then (s.setSlice t sl 3 31).setPhase t 2
      else if sl = 16 then (s.setSlice t 16 6 31).setPhase t 5
      else if !s.live t k then (s.setSlice t sl 3 31).setPhase t 2
      else
        let (i, s) := s.takeFree
        let (a, b, _, _) := Config.matchedTrims i
        let s := s.setTrims t 16 ⟨a, b, 0, 0⟩
        ((s.loadRangeTerms t 16 k).setSlice t 16 2 k).setPhase t 1

/-- The match of the shadow ends in a handover or in a counted failure (R96, R97). -/
def handover (t : Fin 4) (mean gain skew : Nat) (slope : Bool) (s : State) : State :=
  match (s.relief t).dwell with
  | none => s
  | some d =>
    if s.fld (Reg.calStat t) 10 8 != 1 || s.nextFrame < d.start + 34 * framePeriods then s
    else
      let k := s.servesOf t d.slice
      if mean ≤ 16 && gain ≤ 200 && (!slope || skew ≤ 30) then
        let (i, s) := s.takeFree
        let (_, _, a, b) := Config.matchedTrims i
        let s := s.setTrims t 16 ⟨a, b, 0, 0⟩
        let s := (s.loadRangeTerms t 16 k).setSlice t 16 1 k
        let s := (s.setSlice t d.slice 3 31).setPhase t 2
        let s := (s.flagNext t k 1).openSpan t d.slice
        s.updRelief t fun r =>
          { r with dwell := some { d with standing := true }, matchFails := dropK d.slice r.matchFails }
      else
        let s := s.wrapFld (Reg.calCnt1 t) 15 0 1
        let n := (lookupK d.slice (s.relief t).matchFails).getD 0 + 1
        let s := s.updRelief t fun r => { r with matchFails := putK d.slice (if 3 ≤ n then 0 else n) r.matchFails }
        let s := if 3 ≤ n then (s.setBit (Reg.calFault t) d.slice true).attend Atn.cal else s
        ((s.setSlice t 16 0 31).updRelief t fun r => { r with ahead := true }).endDwell t d.slice

/-- The trims that a slice shows during Calibrate: trial values, written at frame boundaries (R98). -/
def State.trialOf (s : State) (d : Dwell) : Trims :=
  let x := Config.trialTrims d.trial s.nextFrame
  ⟨x.1, x.2, d.old.t2, d.old.t3⟩

/-- Calibrate ends with new trims for the slice, or cannot complete (R98, R105, R107, R108). -/
def calibrateDone (t : Fin 4) (trims : Word × Word) (completed : Bool) (s : State) : State :=
  match (s.relief t).dwell with
  | none => s
  | some d =>
    let p := s.fld (Reg.calStat t) 10 8
    if d.calibrated || !(p = 2 || p = 5) then s
    else if !completed then
      ((s.setTrims t d.slice (s.trialOf d)).calFailed t d.slice).parkSlice t d.slice
    else
      let x : Trims := ⟨trims.1, trims.2, d.old.t2, d.old.t3⟩
      let s := s.setTrims t d.slice x
      let s := s.updRelief t fun r => { r with dwell := some { d with calibrated := true, calAt := s.nextFrame, new_ := x } }
      if d.standing then
        let k := s.servesOf t d.slice
        ((s.setSlice t d.slice 4 k).setPhase t 3).setBit (Reg.calLast1 t) 24 false
      else s

/-- The return shadow measures the step, or the calibration has failed (R99, R105). -/
def returnShadowDone (t : Fin 4) (ofs gain skew : Int) (outside : Bool) (s : State) : State :=
  match (s.relief t).dwell with
  | none => s
  | some d =>
    if !d.standing || !d.calibrated || d.returned || s.samplePos < d.calAt + 34 * framePeriods then s
    else
      let s := s.set (Reg.calLast0 t) (BitVec.ofNat 32 (unsigned 16 gain * 65536 + unsigned 16 ofs))
      let s := (s.setFld (Reg.calLast1 t) 20 16 d.slice).setFld (Reg.calLast1 t) 15 0 (unsigned 16 skew)
      if 128 < ofs.natAbs || 2500 < gain.natAbs || 200 < skew.natAbs || outside then
        (s.calFailed t d.slice).parkSlice t d.slice
      else
        (s.setSlice t d.slice 2 (s.servesOf t d.slice)).updRelief t fun r =>
          { r with dwell := some { d with returned := true, step := (ofs, gain, skew) } }

/-- When the dwell's handback falls due, in sample periods (R95). -/
def State.dwellDue (s : State) (t : Fin 4) (d : Dwell) : Nat := d.start + 2000000 * s.fld (Reg.calDwell t) 21 0

/-- The decision on the next frame boundary B is taken at B − 1.0 µs (R101). -/
def State.decides (s : State) : Bool := decide (s.nextFrame ≤ s.samplePos + 2000)

/-- A window that counts for the decision on the next frame boundary (R101, R103). -/
def State.heldOpen (s : State) (c : Nat) : Bool := s.windowOpenAt c (s.nextFrame - 2000)

/-- A retried slice has calibrated: it is parked no longer, and the relief slice stands in for nothing (R105). -/
def State.unpark (t : Fin 4) (d : Dwell) (s : State) : State :=
  if d.retry then
    (((s.setBit (Reg.calStat t) 17 false).setSlice t 16 0 31).closeSpan t d.slice).updRelief t fun r =>
      { r with parked := none }
  else s

/-- The handback itself, at the next frame boundary (R96, R102, R104, R105). -/
def State.doHandback (t : Fin 4) (d : Dwell) (forced : Bool) (s : State) : State :=
  let k := s.servesOf t d.slice
  let s := (s.loadRangeTerms t d.slice k).setSlice t d.slice 1 k
  let s := s.setSlice t 16 0 31
  let s := (s.flagNext t k (if forced then 3 else 1)).closeSpan t d.slice
  let s := s.addHist t (s.stampOf s.nextFrame) d.step d.slice k false false forced
  let s := if forced then (s.wrapFld (Reg.calCnt0 t) 31 16 1).setBit (Reg.calLast1 t) 24 true else s
  (s.unpark t d).endDwell t d.slice

/-- The decision on a due boundary: the handback there, or its deferral where a window was open on the channel 1.0 µs
before it (R95, R96, R101, R103). A dwell with no channel to hand back ends (R107, R108). -/
def handback (t : Fin 4) (s : State) : State :=
  match (s.relief t).dwell with
  | none => s
  | some d =>
    if s.nextFrame < s.dwellDue t d then s
    else if !d.standing then
      (if !d.calibrated then s
       else ((s.setSlice t d.slice 0 (if d.slice = 16 then 31 else d.slice)).unpark t d).endDwell t d.slice)
    else if !d.returned || !s.decides then s
    else if s.heldOpen (16 * t.val + s.servesOf t d.slice) then
      (if d.deferred then s
       else ((s.wrapFld (Reg.calCnt0 t) 15 0 1).setPhase t 4).updRelief t fun r =>
         { r with dwell := some { d with deferred := true } })
    else s.doHandback t d false

/-- A handback deferred for CAL_MAX_DEFER is forced (R102). -/
def forcedHandback (t : Fin 4) (s : State) : State :=
  match (s.relief t).dwell with
  | none => s
  | some d =>
    if d.deferred && s.dwellDue t d + 200000 * s.fld (Reg.calMaxDefer t) 9 0 ≤ s.nextFrame then s.doHandback t d true
    else s

/-- CLEAR_PARK: a new dwell on the parked slice is requested (R105). -/
def State.clearPark (t : Fin 4) (s : State) : State :=
  if (s.relief t).parked.isSome && (s.relief t).dwell.isNone then
    (s.updRelief t fun r => { r with retry := true, warmUntil := none }).requestDwell t
  else s

/-- The 10 ms wait begins (R110). -/
def State.warmUp (t : Fin 4) (s : State) : State :=
  (s.updRelief t fun r => { r with warmUntil := some (s.tim.now + msU 10) }).setPhase t 7

/-- The 10 ms wait begins for a rotation that RUN has started: it goes on with the first enabled slice (R110). -/
def State.warmUpAnew (t : Fin 4) (s : State) : State := (s.warmUp t).updRelief t fun r => { r with next := 0 }

/-- The rotation may go on: RUN is set and no slice is parked, or a parked one is to be retried (R105, R110). -/
def State.rotates (s : State) (t : Fin 4) : Bool :=
  let r := s.relief t
  r.manual.isNone && (if r.parked.isSome then r.retry else s.calRun t)

/-- The 10 ms wait ends with the request of a dwell (R110). -/
def reliefWarmupEnd (t : Fin 4) (s : State) : State :=
  match (s.relief t).warmUntil with
  | none => s
  | some w =>
    if s.tim.now < w then s
    else
      let s := s.updRelief t fun r => { r with warmUntil := none }
      if (s.relief t).dwell.isSome || (s.relief t).waiting then s
      else if s.rotates t && s.tileSampling t then s.requestDwell t else s.setPhase t 0

/-- Range calibration starts on a tile, whose amplifiers take the reference injection; one that runs already goes on as it
does (R112; log entry 159). -/
def State.startRangeCal (t : Fin 4) (op : Option OpRef) (s : State) : State :=
  if s.bit (Reg.calStat t) 20 then s
  else ((s.setBit (Reg.calStat t) 20 true).updTile t fun x => { x with inject := x.inject ++ [(s.samplePos, none)] }).updRelief t
    fun r => { r with rangeOp := op }

/-- Range calibration of a tile is over: its amplifiers are at the Junction again (R112). -/
def State.rangeCalOver (t : Fin 4) (s : State) : State :=
  (s.setBit (Reg.calStat t) 20 false).updTile t fun x =>
    { x with inject := x.inject.map fun (p : Nat × Option Nat) => if p.2.isNone then (p.1, some s.samplePos) else p }

/-- A tile has finished its part of a RANGE_CAL operation (`how` 0) or lost its power before (1). The operation is done
with the last of its tiles (R341), NOT_POWERED where one of them lost its power (log entry 159). -/
def State.rangeCalPart (t : Fin 4) (how : Nat) (s : State) : State :=
  match (s.relief t).rangeOp with
  | none => s
  | some o =>
    let s := (s.updRelief t fun r => { r with rangeOp := none }).opCount (some o) how (2 ^ t.val)
    if allTiles.any fun u => (s.relief u).rangeOp = some o then s
    else
      let c : List Nat := ((s.findOp o).map fun p => p.counts).getD []
      s.opDone o (if c.getD 1 0 = 0 then St.ok else St.notPowered) (beBytes 1 (c.getD 0 0))

/-- Range calibration finishes: the amplifier terms of the 16 channels are written (R112), and a RANGE_CAL operation is
done when its last tile has finished (R341). -/
def rangeCalDone (t : Fin 4) (terms : List (Word × Word)) (s : State) : State :=
  if !s.bit (Reg.calStat t) 20 then s
  else
    let s := (withIdx (terms.take 16)).foldl (fun (s : State) x =>
      (s.set (Reg.calChAmp0 t x.1) (x.2.1 &&& 0x0FFF0FFF)).set (Reg.calChAmp1 t x.1) (x.2.2 &&& 0xFFF)) s
    (s.rangeCalOver t).rangeCalPart t 0

/-- APPLY of the manual trims: slice and values are latched and wait for their boundary; the time to a forced effect
counts from here (R113; log entry 129). -/
def State.manualApply (t : Fin 4) (s : State) : State :=
  let x : Trims := ⟨s.get (Reg.calManTrim0 t), s.get (Reg.calManTrim1 t), s.get (Reg.calManTrim2 t), s.get (Reg.calManTrim3 t)⟩
  (s.setBit (Reg.calManCtrl t) 9 true).updRelief t fun r =>
    { r with manual := some (s.fld (Reg.calManCtrl t) 4 0, x, s.tim.now) }

/-- Manual trims take effect at the first boundary with no window open on the slice's channel, decided as a handback is,
or are forced (R113). They wait for the tile to sample, and the counters of R101 and R102 stay (log entry 129). For slice
16 the history's channel is open (log entry 9). -/
def manualTrimEffect (t : Fin 4) (s : State) : State :=
  match (s.relief t).manual with
  | none => s
  | some (sl, x, at_) =>
    if !s.tileSampling t then s
    else
      let k := s.servesOf t sl
      let onChan := sl != 16 && s.live t k
      let busy := onChan && s.heldOpen (16 * t.val + k)
      let due := at_ + usU (100 * s.fld (Reg.calMaxDefer t) 9 0)
      if !s.decides || (busy && s.tim.now < due) then s
      else
        let s := s.setTrims t sl x
        let s := if onChan then s.flagNext t k (if busy then 3 else 1) else s
        let (i, s) := if sl = 16 then s.takeFree else (0, s)
        let k := if sl = 16 then (Config.openWord i).toNat % 16 else k
        let s := s.addHist t (s.stampOf s.nextFrame) (0, 0, 0) sl k true false busy
        let s := (s.setBit (Reg.calManCtrl t) 9 false).updRelief t fun r => { r with manual := none }
        if s.calRun t then s.warmUpAnew t else s

/-- The dwell in progress is abandoned (R110, R111). With `loss` the next frame after the resumption is to carry what
R111 says. A parked slice stays parked. -/
def State.abandonDwell (t : Fin 4) (loss : Bool) (s : State) : State :=
  let s := s.updRelief t fun r => { r with waiting := false, granted := false, ahead := false, warmUntil := none }
  match (s.relief t).dwell with
  | none => s.setPhase t 0
  | some d =>
    let k := s.servesOf t d.slice
    let keeps := d.returned || (d.calibrated && !d.standing)
    let s := if keeps then s else s.setTrims t d.slice d.old
    let s := if d.retry then s.setSlice t d.slice 5 31
      else (if d.slice = 16 then s
        else s.setSlice t d.slice (if s.live t k then 1 else 0) (if s.live t k then k else d.slice)).setSlice t 16 0 31
    let s := if d.retry then s else s.closeSpan t d.slice
    let res := if loss && d.standing && !d.retry then some (d.slice, k, d.returned, d.step) else none
    let nxt := match (s.rotation t).find? fun i => decide (d.slice < i) with
      | some i => i
      | none => 0
    (s.updRelief t fun r =>
      { r with dwell := none, retry := false, resume := res, next := if d.retry then r.next else nxt }).setPhase t 0

/-! ### Meanings -/

def execDwellStart (t : Tile) (s : State) : Host.Outcome State Fault Refusal := run (dwellStart t) s

def execReliefWarmupEnd (t : Tile) (s : State) : Host.Outcome State Fault Refusal := run (reliefWarmupEnd t) s

def execRangeCalDone (t : Tile) (terms : List (Word × Word)) (s : State) : Host.Outcome State Fault Refusal :=
  run (rangeCalDone t terms) s

def execManualTrimEffect (t : Tile) (s : State) : Host.Outcome State Fault Refusal := run (manualTrimEffect t) s

end Sys2Proof.Machine
end

