-- ==== Sys2Proof/Machine/Records.lean ====
section
/-! DEFINITION. Records: measurements (R141–R144), record layout (R148–R158), numbering, and the building of a closed
window's record (R159, R160). Values y are counted in 2^-8 normalized LSB. -/

namespace Sys2Proof.Machine

/-! ### Samples -/

/-- Gain-normalized values (R62): a settling sample takes the range of the next sample; `after` is the range of the
first sample past the list. -/
def normValues (after : Nat) : List Sample → List Int
  | [] => []
  | w :: ws =>
    let r := if tagOf w = 3 then (match ws.find? fun x => tagOf x != 3 with
      | some x => tagOf x
      | none => after) else tagOf w
    codeOf w * normFactor r :: normValues after ws

/-- Words of a local channel in a tile-link payload: word 16 × j + k, both slots of an interleaved pair in time order
(R310). -/
def chanWords (k width : Nat) : Nat → List Sample → List Sample
  | 0, _ => []
  | n + 1, ws =>
    match ws with
    | [] => []
    | _ => (ws.drop k).take width ++ chanWords k width n (ws.drop 16)

/-! ### Measurements (R141–R144) -/

/-- A quotient rounded to the nearest, ties up (R142). -/
def roundUpTies (n d : Int) : Int := (2 * n + d) / (2 * d)

/-- A quotient rounded to the nearest, ties away from zero (R142). -/
def roundAway (n d : Int) : Int := if 0 ≤ n then (2 * n + d) / (2 * d) else -((2 * (-n) + d) / (2 * d))

/-- A crossing of level `l` between samples i and i + 1, both present, all values scaled alike: its index i and its time
in sample steps as a quotient (R141, R144). -/
def crossings (l : Int) : List (Nat × Int) → List (Nat × Int × Int)
  | (i, a) :: (j, b) :: rest =>
    if j = i + 1 && decide (a < l) && decide (l ≤ b) then
      (i, (i : Int) * (b - a) + (l - a), b - a) :: crossings l ((j, b) :: rest)
    else crossings l ((j, b) :: rest)
  | _ => []

/-- What one measurement block holds besides the channel's frame flags (R152). -/
structure Meas where
  baseline : Int
  peak : Int
  peakIndex : Nat
  rise : Nat
  charge : Int
  cfd : Nat
  le : Nat
  period : Nat
  ot : Nat
  edges : Nat
  ranges : Nat
  sat : Nat
  flags : Nat
  deriving DecidableEq, Repr

/-- Largest value and the place of its first occurrence. -/
def peakOf : List (Nat × Int) → Option (Nat × Int)
  | [] => none
  | x :: xs =>
    match peakOf xs with
    | none => some x
    | some y => if x.2 < y.2 then some y else some x

/-- Runs of settling samples. -/
def settleRuns : Bool → List Sample → Nat
  | _, [] => 0
  | prev, w :: ws => (if tagOf w = 3 && !prev then 1 else 0) + settleRuns (tagOf w == 3) ws

/-- Set edges of a switch over window periods, oldest first, given the bit before the window. -/
def setEdges : Bool → List (Nat × Bool) → List Nat
  | _, [] => []
  | prev, (i, b) :: l => (if b && !prev then [i] else []) ++ setEdges b l

/-- Time of a crossing in 2^-16 ns, rounded. -/
def crossTime (dt : Int) (c : Nat × Int × Int) : Int := roundUpTies (dt * c.2.1) c.2.2

/-- The measurements of one channel. `present` are its samples that are present, with their indexes; `pre` the number of
pre-trigger samples; `free` indexes the free values of a peak over no sample (log entry 10). -/
def measure (ws : List (Nat × Sample)) (vs : List (Nat × Int)) (pre : Nat) (ilv : Bool) (nbase frac : Nat) (pol : Bool)
    (le : Nat) (perBits otBits : List (Nat × Bool)) (perBefore : Bool) (lost suspect swLost : Bool) (free : Nat) : Meas :=
  let nb := min nbase pre
  let dt : Int := if ilv then 16384 else 32768
  let base := vs.filter fun x => decide (x.1 < nb)
  let bq : Int := if base.isEmpty then 0 else roundAway ((base.map fun x => x.2).sum * 256) base.length
  let ys := (vs.filter fun x => decide (nb ≤ x.1)).map fun x => (x.1, if pol then bq - 256 * x.2 else 256 * x.2 - bq)
  let pk : Nat × Int := match peakOf ys with
    | some p => p
    | none => ((Config.openWord free).toNat, (Config.openWord (free + 1)).toInt)
  let noPeak := decide (pk.2 ≤ 0)
  let scaled := ys.map fun x => (x.1, 640 * x.2)
  let before := scaled.filter fun x => decide (x.1 ≤ pk.1)
  let cfd := if noPeak then none else (crossings (10 * frac * pk.2) before).getLast?
  let leC := (crossings (256 * le) ys).head?
  let c90 := if noPeak then none else (crossings (576 * pk.2) before).getLast?
  let c10 := match c90 with
    | none => none
    | some c => ((crossings (64 * pk.2) before).filter fun (x : Nat × Int × Int) => decide (x.1 ≤ c.1)).getLast?
  let rise := match c90, c10 with
    | some a, some b => some (roundUpTies (dt * (a.2.1 * b.2.2 - b.2.1 * a.2.2)) (a.2.2 * b.2.2))
    | _, _ => none
  let es := setEdges perBefore perBits
  let n := es.length
  let per : Int := if n < 2 then 0 else roundUpTies (32768 * ((es.getLastD 0 : Int) - es.headD 0)) (n - 1)
  let sat := (ws.filter fun x => tagOf x.2 != 3 && (codeOf x.2 == 8191 || codeOf x.2 == -8192)).length
  let flag (i : Nat) (b : Bool) : Nat := if b then 2 ^ i else 0
  { baseline := bq, peak := pk.2, peakIndex := pk.1,
    rise := match rise with
      | some r => min 0xFFFFFFFF r.toNat
      | none => 0
    charge := (ys.map fun x => x.2).sum * (if ilv then 1 else 2),
    cfd := match cfd with
      | some c => (roundUpTies (dt * c.2.1) c.2.2).toNat
      | none => 0
    le := match leC with
      | some c => (crossTime dt c).toNat
      | none => 0
    period := per.toNat, ot := (otBits.filter fun x => x.2).length, edges := min 65535 n,
    ranges := min 65535 (settleRuns false (ws.map fun x => x.2)), sat := min 65535 sat,
    flags := flag 0 base.isEmpty + flag 1 (!base.isEmpty && decide (base.length < nbase)) + flag 2 noPeak
      + flag 3 cfd.isNone + flag 4 leC.isNone + flag 5 rise.isNone + flag 6 (decide (n < 2)) + flag 7 lost
      + flag 8 suspect + flag 9 (decide (0 < sat)) + flag 10 swLost }

/-- The 64 bytes of a measurement block (R152). -/
def measBytes (m : Meas) (chan : Nat) (frameFlags : Byte) (flagFrame : Nat) : List Byte :=
  beBytes 4 (unsigned 32 m.baseline) ++ beBytes 4 (unsigned 32 m.peak) ++ beBytes 4 m.peakIndex ++ beBytes 4 m.rise
  ++ beBytes 8 (unsigned 64 m.charge) ++ beBytes 8 m.cfd ++ beBytes 8 m.le ++ beBytes 8 m.period ++ beBytes 4 m.ot
  ++ beBytes 2 m.edges ++ beBytes 2 m.ranges ++ beBytes 2 m.sat ++ beBytes 2 m.flags ++ beBytes 1 chan ++ [frameFlags]
  ++ beBytes 2 flagFrame

/-! ### Layout (R148–R156) -/

/-- Record types (R150), the order of which is also the order of the QUE_ROUTE fields. -/
def recCapture : Nat := 1
def recHit : Nat := 2
def recProgMark : Nat := 3
def recWireMark : Nat := 4
def recGapMark : Nat := 5

/-- Header fields of a record (R149). -/
structure Header where
  type : Nat
  source : Nat
  code : Nat
  flags : Nat
  phase : Nat
  seq : Nat
  time : Nat
  mask : BitVec 64
  ilv : BitVec 32
  periods : Nat
  trigger : Nat
  lossFirst : Nat
  lossLast : Nat
  deriving DecidableEq, Repr

/-- Record length L (R148). -/
def recordLength (nchan payload : Nat) : Nat := 80 + 64 * nchan + payload

def headerBytes (h : Header) (length : Nat) : List Byte :=
  beBytes 1 1 ++ beBytes 1 h.type ++ beBytes 1 h.source ++ beBytes 1 h.code ++ beBytes 2 h.flags ++ beBytes 2 h.phase
  ++ beBytes 8 h.seq ++ wideBytes h.time ++ beBytes 8 h.mask.toNat ++ beBytes 4 h.ilv.toNat ++ beBytes 4 length
  ++ beBytes 4 h.periods ++ beBytes 4 h.trigger ++ beBytes 4 h.lossFirst ++ beBytes 4 h.lossLast

/-- A whole record: header, blocks, payload, trailer with its CRC (R148, R155, R156). -/
def recordBytes (h : Header) (blocks payload : List Byte) (coincidence : Word) (lsFlags suspFirst suspLast : Nat) :
    List Byte :=
  let body := headerBytes h (80 + blocks.length + payload.length) ++ blocks ++ payload ++ beBytes 4 coincidence.toNat
    ++ beBytes 4 (lsFlags * 2 ^ 24 + suspFirst) ++ beBytes 4 suspLast
  body ++ beBytes 4 (crc32c body).toNat

/-! ### From a window to its record -/

/-- Words of a channel over periods `a` to `b`, with their sample indexes from `a`; `w` words a period. -/
def pieceWords (ps : List Piece) (c a b w : Nat) : List (Nat × Sample) :=
  (ps.filter fun p => p.chan == c).flatMap fun p =>
    ((withIdx p.words).filter fun x =>
      decide (a ≤ p.first + x.1 / w) && decide (p.first + x.1 / w ≤ b)).map fun x => (p.first * w + x.1 - a * w, x.2)

/-- Tag of the first sample past period `b` that is known and not settling. -/
def tagAfter (ps : List Piece) (c b w : Nat) : Option Nat :=
  ((pieceWords ps c (b + 1) (b + framePeriods) w).find? fun x => tagOf x.2 != 3).map fun x => tagOf x.2

/-- Last period of a window once its close is decided. -/
def Win.endOf (w : Win) : Nat :=
  match w.endAt with
  | some e => e
  | none => w.first + w.maxLen - 1

/-- Channels of a window, ascending. -/
def Win.chanList (w : Win) : List Nat := bitList w.chans

/-- Whether an interleaved pair's even channel stands in a window. -/
def Win.width (w : Win) (c : Nat) : Nat := if w.ilv.getLsbD (c / 2) && c % 2 == 0 then 2 else 1

/-- Spans of a list cut to periods a … b; none where they miss it. -/
def cutSpans (l : List (Nat × Nat × Nat × Nat)) (a b : Nat) : List (Nat × Nat × Nat × Nat) :=
  l.filterMap fun x =>
    if x.2.2.1 < a || b < x.2.1 then none else some (x.1, max a x.2.1, min b x.2.2.1, x.2.2.2)

/-- The single span that covers all (R154, R155). -/
def coverSpan (l : List (Nat × Nat × Nat × Nat)) : Option (Nat × Nat) :=
  match l with
  | [] => none
  | x :: xs => some (xs.foldl (fun m y => min m y.2.1) x.2.1, xs.foldl (fun m y => max m y.2.2.1) x.2.2.1)

/-- UNCAL of the tiles of the channels present (R151). -/
def State.uncalOf (s : State) (chans : List Nat) : Bool := chans.any fun c => s.bit (Reg.calStat (chanTile c)) 16

/-- Largest record that a window can become (R159). -/
def windowSize (w : Win) (periods : Nat) : Nat :=
  recordLength w.chanList.length (2 * (w.chanList.map fun c => w.width c * periods).sum)

/-- The record of a closed window: measurement blocks, payload, header and trailer (R142, R148–R156). SW_LOST marks the
blocks of the losing tile's channels (R145; log entry 166). -/
def State.windowRecord (s : State) (w : Win) (seq : Nat) : List Byte :=
  let a := w.first
  let b := w.endOf
  let chans := w.chanList
  let lost := cutSpans w.lost a b
  let susp := cutSpans w.suspect a b
  let span := coverSpan lost
  let sspan := coverSpan susp
  let lostIn (c i : Nat) : Bool := match span with
    | some (x, y) => (lost.any fun l => l.1 == c) && decide (x ≤ a + i) && decide (a + i ≤ y)
    | none => false
  let sws := w.sws.reverse
  let swOf (sw c i : Nat) : Bool := match sws[i]? with
    | some x => if sw = 0 then x.1.getLsbD c else x.2.getLsbD c
    | none => false
  let per : List Nat := List.range (b + 1 - a)
  let pre := w.pre
  let one (nc : Nat × Nat) : List Byte × List Byte × Byte × Bool :=
    let c := nc.2
    let wd := w.width c
    let ws := pieceWords w.pieces c a b wd
    let kept := ws.filter fun x => !lostIn c (x.1 / wd)
    let after := (tagAfter w.pieces c b wd).getD ((Config.openWord (s.free + 2 * nc.1)).toNat % 3)
    let vs := ((ws.map fun x => x.1).zip (normValues after (ws.map fun x => x.2))).filter fun x => !lostIn c (x.1 / wd)
    let cfg := s.get (Reg.sbxMeasCfg c)
    let isLost := lost.any fun l => l.1 == c
    let isSusp := susp.any fun l => l.1 == c
    let swL := w.swLost.any fun l => l.1 == c / 16 && decide (a ≤ l.2) && decide (l.2 ≤ b)
    let m := measure kept vs (pre * wd) (wd == 2) (bits cfg 28 16) (bits cfg 13 8) (cfg.getLsbD 0)
      (s.get (Reg.sbxMeasLe c)).toNat (per.map fun i => (i, swOf (bits cfg 1 1) c (i + 1)))
      (per.map fun i => (i, swOf (bits cfg 2 2) c (i + 1))) (swOf (bits cfg 1 1) c 0) isLost isSusp swL
      (s.free + 2 * nc.1)
    let fm := w.marks.filter fun f => f.chan == c && decide (a < f.first + framePeriods) && decide (f.first ≤ b)
    let ff := fm.foldl (fun x f => x ||| f.flags) 0
    let flagged := match fm.find? fun f => (f.flags &&& 3) != 0 with
      | some f => f.first / framePeriods - a / framePeriods
      | none => 0xFFFF
    let words := (List.range ((b + 1 - a) * wd)).map fun i =>
      if lostIn c (i / wd) then (0 : Sample) else (lookupK i ws).getD 0
    (measBytes m c ff flagged, words.flatMap (fun x => beBytes 2 x.toNat), ff, swL)
  let parts := (withIdx chans).map one
  let ff := parts.foldl (fun x p => x ||| p.2.2.1) 0
  let flags := w.flags.toNat + bits ff 3 0 * 8 + (if w.long then 2048 else 0)
    + (if parts.any (fun p => p.2.2.2) then 4096 else 0)
  let ls := (if span.isSome then 128 else 0) + (if sspan.isSome then 64 else 0)
    + (if lost.any (fun l => l.2.2.2 == 0) then 32 else 0) + (if lost.any (fun l => l.2.2.2 == 1) then 16 else 0)
    + (if susp.any (fun l => l.2.2.2 == 0) then 8 else 0) + (if susp.any (fun l => l.2.2.2 == 1) then 4 else 0)
  let h : Header :=
    { type := match w.id with
        | .prog _ => recCapture
        | .hit _ => recHit
      source := match w.id with
        | .prog p => p.val
        | .hit c => c.val
      code := 0, flags := flags, phase := a % framePeriods, seq := seq, time := s.stampOf a, mask := w.chans,
      ilv := w.ilv, periods := b + 1 - a, trigger := w.trigger - a,
      lossFirst := match span with
        | some (x, _) => x - a
        | none => 0
      lossLast := match span with
        | some (_, y) => y - a
        | none => 0 }
  recordBytes h (parts.flatMap fun p => p.1) (parts.flatMap fun p => p.2.1) w.coincidence ls
    (match sspan with
      | some (x, _) => x - a
      | none => 0)
    (match sspan with
      | some (_, y) => y - a
      | none => 0)

/-- A marker record (R158). -/
def markerBytes (type source code flags phase seq time periods : Nat) (coincidence : Word) : List Byte :=
  recordBytes { type := type, source := source, code := code, flags := flags, phase := phase, seq := seq, time := time,
                mask := 0, ilv := 0, periods := periods, trigger := 0, lossFirst := 0, lossLast := 0 }
    [] [] coincidence 0 0 0

/-! ### Numbering and building -/

def State.seqNext (s : State) : Nat := (s.get64 Reg.queSeqNextLo Reg.queSeqNextHi).toNat

/-- The next SEQUENCE is given out (R157). -/
def State.takeSeq (s : State) : Nat × State := (s.seqNext, s.set64 Reg.queSeqNextLo Reg.queSeqNextHi (s.seqNext + 1))

/-- A record is built and waits for its turn; it counts in QUE_RECORDS (R159). -/
def State.addBuilt (seq kind : Nat) (bytes : List Byte) (long : Bool) (place staged : Nat) (s : State) : State :=
  let b : Built := ⟨seq, kind, bytes, long, place, staged⟩
  { s.bump64 Reg.queRecordsLo Reg.queRecordsHi 1 with que := { s.que with built := s.que.built ++ [b] } }

/-- Bits 8–10 of a record's FLAGS as the clock stands now (R151): slewing, RC-based counting, holdover. -/
def State.timeBits (s : State) : BitVec 16 :=
  (if s.bit Reg.timStat 5 then 256 else 0) ||| (if s.bit Reg.timStat 7 then 512 else 0)
  ||| (if s.bit Reg.timStat 6 then 1024 else 0)

/-- A change of the time bits is noted by the period at the pins, so that a record finds those of its window period 0
(R151). -/
def State.noteTime (s old : State) : State :=
  if s.timeBits = old.timeBits then s
  else { s with sbx := { s.sbx with timeLog := ((old.pinPos, old.timeBits) :: s.sbx.timeLog).take 64 } }

/-- The time bits that held in a period. -/
def State.timeBitsAt (s : State) (n : Nat) : BitVec 16 :=
  match (s.sbx.timeLog.filter fun (e : Nat × BitVec 16) => decide (n < e.1)).getLast? with
  | some e => e.2
  | none => s.timeBits

/-- A marker is numbered and built at once; its FRAME_PHASE is that of the period its TIME falls in. -/
def State.addMarker (type source code flags time periods : Nat) (coincidence : Word) (s : State) : State :=
  let (n, s) := s.takeSeq
  s.addBuilt n (type - 1) (markerBytes type source code flags (((time : Int) - s.sbx.t0) / periodU % framePeriods).toNat n time periods
    coincidence) false 0 0

/-- All samples of a closed window have come or are known to be lost. -/
def State.samplesIn (s : State) (w : Win) : Bool :=
  w.chanList.all fun c =>
    let t := chanTile c
    let x := s.tile t
    (!s.tilePowered t && s.maskAt t x.framePeriod == 0) || decide (w.endOf < x.framePeriod)

/-- The record of the oldest closed window of a source is built once its samples are in (R129, R159). The unused part of
its reservation is returned. -/
def State.buildWindow (id : WinId) (s : State) : State :=
  match s.sbx.closing.find? fun w => w.id = id with
  | none => s
  | some w =>
    match w.seq with
    | none => s
    | some n =>
      if !s.samplesIn w then s
      else
        let bytes := s.windowRecord w n
        let s := { s with free := s.free + 2 * w.chanList.length }
        let s := { s with sbx := { s.sbx with closing := s.sbx.closing.filter fun x => x.seq != some n } }
        let used := if w.long then 0 else min w.reserved bytes.length
        let s := { s with que := { s.que with staging := s.que.staging - (w.reserved - used) } }
        let s := if w.long then s.bump Reg.queLong else s
        s.addBuilt n (match w.id with
          | .prog _ => 0
          | .hit _ => 1) bytes w.long w.place used

end Sys2Proof.Machine
end

