-- ==== Sys2Proof/Machine/Signal.lean ====
section
/-! DEFINITION. The Signal Box: conditions, actions, counters and timers, captures and hit windows, trigger lines and
primitives, and the numbering of the records that close in a period (R115–R147, R157, R159). -/

namespace Sys2Proof.Machine

/-! ### Modes as the Signal Box sees them -/

/-- The acquisition mode: Hold, Test and Degraded go on in their base (R346, R348). -/
def Modes.acq (m : Modes) : Mode := m.base

def State.streamingOn (s : State) : Bool := s.modes.sampling && s.modes.acq == .streaming

/-! ### Conditions (R121–R124) -/

def State.progMask (s : State) (p : Fin 8) (m : Nat) : BitVec 64 :=
  s.get (Reg.sbxProgMaskHi p m) ++ s.get (Reg.sbxProgMaskLo p m)

/-- The level of a term from the inputs of a period; `p` is the program that holds the term (R123). -/
def State.termLevel (s : State) (p : Fin 8) (w : Word) (inp : Inputs) : Bool :=
  let arg := bits w 6 0
  match bits w 30 28 with
  | 1 =>
    let mask := s.progMask p (bits w 26 24)
    let hit := mask &&& (if w.getLsbD 20 then inp.sw1 else inp.sw0)
    match bits w 19 18 with
    | 0 => hit != 0
    | 1 => mask != 0 && hit == mask
    | _ => mask != 0 && decide (arg ≤ popCount hit)
  | 2 => inp.lines.getLsbD (arg % 8)
  | 3 => match inp.progs[p.val]? with
    | some x => x.expired.getD (arg % 4) false
    | none => false
  | 4 => match inp.progs[p.val]? with
    | some x =>
      let v := x.cnt.getD (arg % 4) 0
      let c := s.get (Reg.sbxProgCntCmp p (arg % 4))
      match arg / 16 % 4 with
      | 0 => v == c
      | 1 => decide (c ≤ v)
      | _ => decide (v < c)
    | none => false
  | 5 => match inp.progs[bits w 10 8]? with
    | some x => x.armed && x.state.toNat == arg % 16
    | none => false
  | 6 => match inp.progs[bits w 10 8]? with
    | some x => x.armed && x.ready
    | none => false
  | _ => false

/-- A term's value: its level or its edge, then NEG (R122, R124). -/
def State.termTrue (s : State) (p : Fin 8) (w : Word) (prev now : Inputs) : Bool :=
  let l := s.termLevel p w now
  (if w.getLsbD 27 then l && !s.termLevel p w prev else l) != w.getLsbD 31

/-- Transition i of state j is enabled and its condition true (R118, R121). -/
def State.transTrue (s : State) (p : Fin 8) (j i : Nat) (prev now : Inputs) : Bool :=
  let c := s.get (Reg.sbxProgSTCtrl p j i)
  let ts := ((List.range 4).map fun n => s.get (Reg.sbxProgSTTerm p j i n)).filter fun w => bits w 30 28 != 0
  c.getLsbD 0 && (if c.getLsbD 1 then ts.any fun w => s.termTrue p w prev now else ts.all fun w => s.termTrue p w prev now)

/-- True transitions of an armed program's state, as 4 bits (R119). -/
def State.transBits (s : State) (p : Fin 8) (prev now : Inputs) : Nat :=
  let x := s.sbx.progs.get p
  if !x.armed then 0
  else
    let pv := if x.armPeriod = s.sbx.period then now else prev
    (List.range 4).foldl (fun a i => if s.transTrue p x.state.toNat i pv now then a + 2 ^ i else a) 0

/-! ### Windows -/

/-- Why an OPEN at period n would be ignored: pre-fill, re-arm, busy (R132). -/
def State.openCause (s : State) (p : Fin 8) (n : Nat) : Option Nat :=
  let x := s.sbx.progs.get p
  if n < x.armPeriod + (s.get (Reg.sbxProgPre p)).toNat then some 0
  else if (match x.lastEnd with
      | some e => decide (e < n) && decide (n ≤ e + (s.get (Reg.sbxProgRearm p)).toNat)
      | none => false) then some 1
  else if x.win.isSome then some 2
  else none

/-- What the conditions of a period see of a program (R117). -/
def State.progIn (s : State) (p : Fin 8) : ProgIn :=
  let x := s.sbx.progs.get p
  { armed := x.armed, state := x.state, ready := (s.openCause p s.sbx.period).isNone,
    cnt := x.cnt.toList.map fun c => c.val, expired := x.tmr.toList.map fun c => c.expired }

/-- A closed program window's last period; none while its close period is open and MAXLEN is not reached. -/
def progEnd (w : Win) : Nat :=
  match w.close with
  | some c => min (c + w.post) (w.first + w.maxLen - 1)
  | none => w.first + w.maxLen - 1

/-- A hit window's last period as its switch stands: POST_S after the last set period, within MAXLEN_S (R139). -/
def hitEnd (w : Win) : Nat := progEnd w

/-- Whether a window's end is the one that its maximum length gives (R130). -/
def reachesMax (w : Win) : Bool :=
  match w.close with
  | some c => decide (w.first + w.maxLen - 1 ≤ c + w.post)
  | none => true

/-- Channels of a mask that produce samples in a period (R131). -/
def State.presentChans (s : State) (n : Nat) (mask : BitVec 64) : BitVec 64 :=
  (bitList mask).foldl (fun (m : BitVec 64) c =>
    if (s.maskAt (chanTile c) n).getLsbD (chanLocal c) && !s.silent (chanTile c) (chanLocal c) then m ||| bitOf 64 c
    else m) 0

/-- Pairs that are present and interleaved (R149). -/
def State.presentIlv (s : State) (chans : BitVec 64) : BitVec 32 :=
  (List.range 32).foldl (fun (m : BitVec 32) j =>
    if chans.getLsbD (2 * j) && s.ilv (chanTile (2 * j)) (chanLocal (2 * j)) then m ||| bitOf 32 j else m) 0

/-- Words of a look-back frame for the channels of a window (R28, R29). -/
def framePieces (t : Fin 4) (f : Frame) (chans : BitVec 64) (ilv : BitVec 32) : List Piece :=
  (List.range 16).filterMap fun k =>
    let c := 16 * t.val + k
    if chans.getLsbD c && !f.lost then
      some ⟨c, f.first, chanWords k (if ilv.getLsbD (c / 2) && c % 2 == 0 then 2 else 1) framePeriods f.words⟩
    else none

def frameMarks (t : Fin 4) (f : Frame) (chans : BitVec 64) : List FlagMark :=
  (List.range 16).filterMap fun k =>
    if chans.getLsbD (16 * t.val + k) && !f.lost && (f.flags.getD k 0) != 0 then
      some ⟨16 * t.val + k, f.first, f.flags.getD k 0⟩
    else none

/-- Lost spans that a lost frame brings to a window's channels (R154, R311). -/
def frameLost (t : Fin 4) (f : Frame) (chans : BitVec 64) : List (Nat × Nat × Nat × Nat) :=
  if f.lost then
    ((List.range 16).filter fun k => chans.getLsbD (16 * t.val + k)).map fun k =>
      (16 * t.val + k, f.first, f.first + framePeriods - 1, 0)
  else []

/-- A frame's part in a window that reaches into it. -/
def addFrame (t : Fin 4) (f : Frame) (w : Win) : Win :=
  if f.first + framePeriods ≤ w.first || (w.endAt.isSome && w.endOf + framePeriods < f.first) then w
  else
    { w with pieces := w.pieces ++ framePieces t f w.chans w.ilv, marks := w.marks ++ frameMarks t f w.chans,
             lost := w.lost ++ frameLost t f w.chans }

/-- The frame boundary from which on a channel, sampled before, is shed (R370). -/
def State.shedFrom (s : State) (c : Nat) : Option Nat :=
  if (s.get64 Reg.pwrShedChLo Reg.pwrShedChHi).getLsbD c then
    (((s.tile (chanTile c)).masks.takeWhile fun (m : Nat × BitVec 16) => !m.2.getLsbD (chanLocal c)).getLast?).map
      fun (m : Nat × BitVec 16) => m.1
  else none

/-- A window opened at period n with the frames that have come already (R29, R129, R159). Where its reservation does not
fit in the 4 MiB staging memory it goes the long path (R160). -/
def State.newWin (s : State) (id : WinId) (n pre post maxLen : Nat) (program : Bool) (close : Option Nat)
    (mask : BitVec 64) (coincidence : Word) (largest : Nat) : Win :=
  let chans := s.presentChans n mask
  let ilv := s.presentIlv chans
  let shed := (bitList chans).filterMap fun c => (s.shedFrom c).map fun f => (c, f, f + 2 ^ 40, 2)
  let w0 : Win :=
    { id := id, trigger := n, first := n - pre, pre := pre, post := post, maxLen := maxLen, program := program,
      close := close, chans := chans, ilv := ilv, coincidence := coincidence,
      flags := s.timeBitsAt (n - pre)
      pieces := [], marks := [], lost := shed, suspect := [],
      swLost := s.sbx.swLost.filter fun l => chans.toNat / 2 ^ (16 * l.1) % 65536 != 0,
      sws := (s.sbx.hist ++ List.replicate (pre + 2 - s.sbx.hist.length) (0, 0)).take (pre + 2),
      seq := none, endAt := none, long := false,
      reserved := 0, place := 0 }
  let w := allTiles.foldl (fun w t => (s.sbx.look.get t).foldl (fun w f => addFrame t f w) w) w0
  let size := windowSize w largest
  if s.que.staging + size ≤ 4 * 2 ^ 20 then { w with reserved := size } else { w with long := true, reserved := 0 }

/-- A wire check that a window opening on its channel meets (R77, R78). Not begun yet, the tile chooses anew. Running, it
is void: its currents go off, it re-runs, and its frames are kept as suspect up to the end of the one in progress. In both
cases the frames not begun lose their flag. -/
def State.voidCheck (t : Fin 4) (w : Wire) (f k : Nat) (s : State) : State :=
  let pos := s.samplePos
  if f + 2 * framePeriods ≤ pos then s
  else
    s.updTile t fun x =>
      { x with wires := x.wires.map fun y => if y.pin = w.pin then { y with check := none, wanted := true } else y
               nextFlags := x.nextFlags.filter fun (p : Nat × Nat × Byte) => !(p.2.1 == k && p.2.2 == 8 && decide (pos < p.1))
               voids := if pos < f then x.voids else ((k, f, s.nextFrame - 1) :: x.voids).take 64 }

/-- Spans of void checks on the channels of a window: suspect, with cause wire check (R78; log entry 130). -/
def State.voidSpans (s : State) (chans : BitVec 64) : List (Nat × Nat × Nat × Nat) :=
  allTiles.flatMap fun (t : Fin 4) =>
    ((s.tile t).voids.filter fun (v : Nat × Nat × Nat) => chans.getLsbD (16 * t.val + v.1)).map
      fun (v : Nat × Nat × Nat) => (16 * t.val + v.1, v.2.1, v.2.2, 0)

/-- The wire checks on the channels of a window that opens, and the window's suspect spans (R78). -/
def State.voidChecks (chans : BitVec 64) (s : State) : State × List (Nat × Nat × Nat × Nat) :=
  let s := allTiles.foldl (fun (s : State) (t : Fin 4) =>
    (s.tile t).wires.foldl (fun (s : State) (w : Wire) =>
      match w.check, s.pinChan t w.pin with
      | some f, some k => if chans.getLsbD (16 * t.val + k) then s.voidCheck t w f k else s
      | _, _ => s) s) s
  (s, s.voidSpans chans)

/-- The staging reservation of a new window is taken; a long-path window gets its place in the Store when it opens
(R159, R160, R190: Machine/Depot.lean hands the place out). -/
def State.reserve (place : Nat) (w : Win) (s : State) : Win × State :=
  if w.long then ({ w with place := place }, s)
  else (w, { s with que := { s.que with staging := s.que.staging + w.reserved } })

/-! ### Counters and timers (R126, R127) -/

/-- CNT_OP on a counter after the period's count. -/
def cntOp (op : Nat) (load : Word) (c : Cnt) : Cnt :=
  match op with
  | 1 => { c with run := true }
  | 2 => { c with run := false }
  | 3 => { c with val := load }
  | 4 => ⟨load, true⟩
  | _ => c

def countUp (c : Cnt) (src : Bool) : Cnt :=
  if c.run && src && c.val != 0xFFFFFFFF then { c with val := c.val + 1 } else c

/-- TMR_OP on a timer before the period's decrement. -/
def tmrOp (op : Nat) (load : BitVec 40) (x : Tmr) : Tmr :=
  match op with
  | 1 => if x.expired then x else { x with run := true }
  | 2 => { x with run := false }
  | 3 => ⟨load, x.run, false⟩
  | 4 => ⟨load, true, false⟩
  | _ => x

/-- The decrement at a period's end. -/
def tmrTick (x : Tmr) : Tmr := if x.run && x.val != 0 then { x with val := x.val - 1 } else x

/-- A timer that has reached 0 stops and is expired (R127). -/
def tmrSettle (x : Tmr) : Tmr := if x.run && x.val == 0 then ⟨0, false, true⟩ else x

def State.tmrLoad (s : State) (p : Fin 8) (k : Nat) : BitVec 40 :=
  (s.get (Reg.sbxProgTmrLoadHi p k)).setWidth 8 ++ s.get (Reg.sbxProgTmrLoadLo p k)

/-! ### Arming (R116) -/

def State.armProg (p : Fin 8) (s : State) : State :=
  let s := [Reg.sbxProgIgnPrefill p, Reg.sbxProgIgnRearm p, Reg.sbxProgIgnBusy p, Reg.sbxProgCaptures p].foldl
    (fun s a => s.set a 0) s
  s.updProg p fun x =>
    { x with armed := true, armPeriod := s.sbx.period, state := BitVec.ofNat 4 (s.fld (Reg.sbxProgCfg p) 3 0),
             cnt := Vector.replicate 4 ⟨0, false⟩,
             tmr := Vector.ofFn fun k => ⟨s.tmrLoad p k.val, false, false⟩,
             prefill := (s.get (Reg.sbxProgPre p)) != 0 }

/-- Disarming at a boundary before period n: a PROGRAM capture that waits for its CLOSE takes the last period before it
(R116). -/
def State.disarmProg (p : Fin 8) (s : State) : State :=
  s.updProg p fun x =>
    { x with armed := false, prefill := false,
             win := x.win.map fun (w : Win) => if w.close.isNone then { w with close := some (s.sbx.period - 1) } else w }

/-- A transition that ends sampling has disarmed the programs and stopped hit windows (R350). -/
def State.stopping (s : State) : Bool := s.modes.trans.any fun t => t.stopping

/-- SBX_ARM in force is followed: programs arm only in Triggered acquisition, and no more once a transition is ending it
(R116, R350). -/
def State.followArm (s : State) : State :=
  allProgs.foldl (fun (s : State) (p : Fin 8) =>
    let want := s.bit Reg.sbxArm p && s.modes.acq == .triggered && s.modes.sampling && !s.stopping
    let is := (s.sbx.progs.get p).armed
    if want && !is then s.armProg p else if !s.bit Reg.sbxArm p && is then s.disarmProg p else s) s

/-! ### Numbering what closes (R157) -/

/-- The window leaves the open ones with its SEQUENCE and its last period; its source's re-arm begins. -/
def State.closeWin (w : Win) (last : Nat) (s : State) : State :=
  let (n, s) := s.takeSeq
  let w := { w with seq := some n, endAt := some last, flags := w.flags ||| (if s.uncalOf w.chanList then 128 else 0) }
  let s := { s with sbx := { s.sbx with
      closing := s.sbx.closing ++ [w]
      recent := (s.sbx.recent.filter fun (x : BitVec 64 × Nat × Nat) => decide (last < x.2.2 + 2200000))
        ++ [(w.chans, w.trigger, last)] } }
  match w.id with
  | .prog p => s.updProg p fun x => { x with win := none, lastEnd := some last,
                                             rearm := (s.get (Reg.sbxProgRearm p)) != 0 }
  | .hit c => { s with sbx := { s.sbx with hits := s.sbx.hits.filter fun x => x.id != w.id,
                                           hitEnds := putK c.val last s.sbx.hitEnds } }

def truncFlag (w : Win) : Win := if reachesMax w then { w with flags := w.flags ||| 1 } else w

/-- The wire-fault marker of a fault: the time bits are those of its TIME (R151, R158). -/
def State.addWireMark (x : WireMark) (s : State) : State :=
  let n := (((x.start : Int) - s.sbx.t0) / periodU).toNat
  s.addMarker recWireMark x.chan 0 (2 + (s.timeBitsAt n).toNat) x.start (x.lookback * 2000) 0

/-- Everything that closes up to period m, in the order of R157: captures, hits, program markers, wire-fault markers, the
clock-gap marker. `marks` are the program markers of the period: program, code, bitmap. -/
def State.numberUpTo (m : Nat) (marks : List (Nat × Nat × Word)) (s : State) : State :=
  let s := allProgs.foldl (fun (s : State) (p : Fin 8) =>
    match (s.sbx.progs.get p).win with
    | some w =>
      let e := match w.endAt with
        | some e => min e (progEnd w)
        | none => progEnd w
      if e ≤ m then s.closeWin (if e = progEnd w then truncFlag w else w) e else s
    | none => s) s
  let s := (List.range 64).foldl (fun (s : State) c =>
    match s.sbx.hits.find? fun w => w.id = .hit (Fin.ofNat 64 c) with
    | some w =>
      let e := match w.endAt with
        | some e => min e (hitEnd w)
        | none => hitEnd w
      if e ≤ m then s.closeWin (if e = hitEnd w then truncFlag w else w) e else s
    | none => s) s
  let s := marks.foldl (fun (s : State) x =>
    s.addMarker recProgMark x.1 x.2.1 (s.timeBitsAt s.sbx.period).toNat (s.stampOf s.sbx.period) 0 x.2.2) s
  let due := (List.range 64).flatMap fun c => s.sbx.wireMarks.filter fun x => x.chan == c && decide (x.boundary ≤ m)
  let s := due.foldl (fun (s : State) (x : WireMark) => s.addWireMark x) s
  let s := { s with sbx := { s.sbx with wireMarks := s.sbx.wireMarks.filter fun x => !decide (x.boundary ≤ m) } }
  match s.sbx.gapMark with
  | some g =>
    if g.1 ≤ m then
      { s with sbx := { s.sbx with gapMark := none } }.addMarker recGapMark 0xFF 0 (s.timeBitsAt g.1).toNat g.2 0 0
    else s
  | none => s

/-! ### Wire faults reach the records (R81) -/

/-- The evaluation has come to the period in which a fault was detected: the records of the channel that are open there
end at the close boundary with their samples suspect, and where one closed in the span a marker is due at the boundary. -/
def State.applyCut (x : WireMark) (s : State) : State :=
  let fix (w : Win) : Win :=
    if w.chans.getLsbD x.chan then
      { w with flags := w.flags ||| 2
               endAt := some (match w.endAt with
                 | some e => min e x.boundary
                 | none => x.boundary)
               suspect := w.suspect ++ [(x.chan, ((((x.start : Int) - s.sbx.t0 + periodU - 1) / periodU).toNat), x.boundary, 1)] }
    else w
  let again := s.sbx.recent.any fun (r : BitVec 64 × Nat × Nat) =>
    r.1.getLsbD x.chan && decide (x.start ≤ s.stampOf r.2.2) && decide (r.2.2 < x.found)
  { s with sbx := { s.sbx with
      hits := s.sbx.hits.map fix
      progs := s.sbx.progs.map fun x => { x with win := x.win.map fix }
      wireMarks := if again then s.sbx.wireMarks ++ [x] else s.sbx.wireMarks } }

/-- The faults detected up to a period. -/
def State.applyCuts (n : Nat) (s : State) : State :=
  let due := s.sbx.wireCuts.filter fun (x : WireMark) => decide (x.found ≤ n)
  due.foldl (fun (s : State) (x : WireMark) => s.applyCut x)
    { s with sbx := { s.sbx with wireCuts := s.sbx.wireCuts.filter fun (x : WireMark) => !decide (x.found ≤ n) } }

/-- Sampling has ended: no close boundary is evaluated any more, so what waits for one is numbered now. -/
def State.flushWire (s : State) : State :=
  let s := s.sbx.wireCuts.foldl (fun (s : State) (x : WireMark) => s.applyCut x) s
  let due := (List.range 64).flatMap fun c => s.sbx.wireMarks.filter fun (x : WireMark) => x.chan == c
  due.foldl (fun (s : State) (x : WireMark) => s.addWireMark x)
    { s with sbx := { s.sbx with wireCuts := [], wireMarks := [] } }

/-! ### Trigger lines (R136, R137) and primitives (R138) -/

/-- Lines as SBX_XTRG.SRC selects them. -/
def State.lines (s : State) : Byte :=
  match s.fld Reg.sbxXtrg 1 0 with
  | 1 => s.sbx.linesA
  | 2 => s.sbx.linesB
  | 3 => s.sbx.linesA ||| s.sbx.linesB
  | _ => 0

/-- Line changes due by a period, in arrival order. A line changes once in a period, so that a level lasts one. -/
def applyLines (n : Nat) : List (Nat × Bool × Byte × Byte) → Byte × Byte → Byte × Byte →
    (Byte × Byte) × List (Nat × Bool × Byte × Byte)
  | [], lv, _ => (lv, [])
  | (p, b, val, set) :: q, lv, done =>
    if n < p then
      let r := applyLines n q lv done
      (r.1, (p, b, val, set) :: r.2)
    else
      let now := if b then lv.2 else lv.1
      let used := if b then done.2 else done.1
      let diff := set &&& (now ^^^ val)
      let go := set &&& ~~~(diff &&& used)
      let rest := set &&& (diff &&& used)
      let new := (now &&& ~~~go) ||| (val &&& go)
      let mark := used ||| (diff &&& go)
      let r := applyLines n q (if b then (lv.1, new) else (new, lv.2)) (if b then (done.1, mark) else (mark, done.2))
      (r.1, if rest = 0 then r.2 else (n + 1, b, val, rest) :: r.2)

def State.applyLineQ (s : State) : State :=
  let r := applyLines s.sbx.period s.sbx.lineQ (s.sbx.linesA, s.sbx.linesB) (0, 0)
  let s := { s with sbx := { s.sbx with linesA := r.1.1, linesB := r.1.2, lineQ := r.2 } }
  s.setFld Reg.sbxXtrg 23 16 s.lines.toNat

/-- Without sampling no period is evaluated: the changes that wait take effect in their order (R137). -/
def State.flushLineQ (s : State) : State :=
  let r := s.sbx.lineQ.foldl (fun (lv : Byte × Byte) (q : Nat × Bool × Byte × Byte) =>
    let new (now : Byte) : Byte := (now &&& ~~~q.2.2.2) ||| (q.2.2.1 &&& q.2.2.2)
    if q.2.1 then (lv.1, new lv.2) else (new lv.1, lv.2)) (s.sbx.linesA, s.sbx.linesB)
  let s := { s with sbx := { s.sbx with linesA := r.1, linesB := r.2, lineQ := [] } }
  s.setFld Reg.sbxXtrg 23 16 s.lines.toNat

/-- First period whose evaluation begins at or after a moment + 40 ns (R135, R137). -/
def State.linePeriod (s : State) (t : Nat) : Nat :=
  (((t : Int) + 37 * nsU - s.sbx.t0 + periodU - 1) / periodU).toNat - s.fld Reg.sbxLag 8 0

/-- A timing port's version, by port number 2 A-in, 3 A-out, 4 B-in, 5 B-out (R314). -/
def State.tport (s : State) (p : Nat) : TPort := s.lnk.tports.get (Fin.ofNat 4 (p - 2))

def State.updTport (p : Nat) (f : TPort → TPort) (s : State) : State :=
  { s with lnk := { s.lnk with tports := upd s.lnk.tports (Fin.ofNat 4 (p - 2)) f } }

/-- A message enters the queue of a timing-out port, or finds its 16 places taken (R138, R306). -/
def State.enqueueTm (portB : Bool) (bytes : List Byte) (s : State) : Option State :=
  let q := if portB then s.lnk.qB else s.lnk.qA
  if 16 ≤ q.length then none
  else some { s with lnk := if portB then { s.lnk with qB := q ++ [⟨bytes⟩] } else { s.lnk with qA := q ++ [⟨bytes⟩] } }

/-- The 46-byte payload of a trigger-primitive message (R307). -/
def primBytes (version : Nat) (seq : BitVec 16) (module : Nat) (time : Nat) (codes : List (Nat × Nat)) : List Byte :=
  beBytes 1 version ++ beBytes 1 2 ++ beBytes 2 seq.toNat ++ beBytes 1 (codes.foldl (fun a c => a + 2 ^ c.1) 0)
  ++ beBytes 1 0 ++ beBytes 2 module ++ wideBytes time
  ++ (List.range 8).flatMap (fun p => beBytes 1 ((lookupK p codes).getD 0)) ++ beBytes 14 0

/-- The primitives of a period in one message for each enabled port, or dropped and counted (R138). A port that has no
version yet sends nothing (R314). -/
def State.sendPrims (codes : List (Nat × Nat)) (s : State) : State :=
  if codes.isEmpty then s
  else
    ([false, true] : List Bool).foldl (fun (s : State) b =>
      if !s.bit Reg.sbxPrim b.toNat then s
      else
        let port := if b then 5 else 3
        let tp := s.tport port
        match tp.version with
        | none => s
        | some v =>
          match s.enqueueTm b (primBytes v tp.seq (s.fld Reg.lnkAddr 11 0) (s.stampOf s.sbx.period) codes) with
          | some s' => s'.updTport port fun x => { x with seq := x.seq + 1 }
          | none => s.bumpBy Reg.sbxPrimDrop codes.length) s

/-! ### One period (R117) -/

/-- Switch bits of all tiles for a period, as delivered. -/
def State.switchBits (s : State) (n : Nat) : BitVec 64 × BitVec 64 :=
  (s.sbx.swBuf.filter fun x => x.2.1 == n).foldl (fun (acc : BitVec 64 × BitVec 64) x =>
    (List.range 16).foldl (fun (acc : BitVec 64 × BitVec 64) k =>
      (if x.2.2.getLsbD (2 * k) then acc.1 ||| bitOf 64 (16 * x.1 + k) else acc.1,
       if x.2.2.getLsbD (2 * k + 1) then acc.2 ||| bitOf 64 (16 * x.1 + k) else acc.2)) acc) (0, 0)

/-- Program windows at OPEN: the long path takes its Store place from `place`. -/
def State.openCapture (place : Win → State → Nat × State) (p : Fin 8) (bitmap : Word) (s : State) : State :=
  let n := s.sbx.period
  let pre := (s.get (Reg.sbxProgPre p)).toNat
  let post := s.fld (Reg.sbxProgPost p) 23 0
  let mx := (s.get (Reg.sbxProgMaxlen p)).toNat
  let prog := s.bit (Reg.sbxProgCfg p) 4
  let w := s.newWin (.prog p) n pre post mx prog (if prog then none else some n)
    (s.get (Reg.sbxProgCapmaskHi p) ++ s.get (Reg.sbxProgCapmaskLo p)) bitmap
    (if prog then mx else min mx (pre + 1 + post))
  let (pl, s) := if w.long then place w s else (0, s)
  let (w, s) := s.reserve pl w
  let (s, susp) := s.voidChecks w.chans
  (s.updProg p fun x => { x with win := some { w with suspect := susp } }).bump (Reg.sbxProgCaptures p)

/-- The action word of the transition taken (R125–R128, R132). -/
def State.doAction (place : Win → State → Nat × State) (p : Fin 8) (a : Word) (bitmap : Word) (s : State) : State :=
  let s := match bits a 1 0 with
    | 1 => match s.openCause p s.sbx.period with
      | none => s.openCapture place p bitmap
      | some 0 => s.bump (Reg.sbxProgIgnPrefill p)
      | some 1 => s.bump (Reg.sbxProgIgnRearm p)
      | some _ => s.bump (Reg.sbxProgIgnBusy p)
    | 2 => s.updProg p fun x =>
        { x with win := x.win.map fun (w : Win) => if w.close.isNone then { w with close := some s.sbx.period } else w }
    | _ => s
  let c : Fin 4 := Fin.ofNat 4 (bits a 5 4)
  let k : Fin 4 := Fin.ofNat 4 (bits a 11 10)
  s.updProg p fun x =>
    { x with cnt := upd x.cnt c (cntOp (bits a 8 6) (s.get (Reg.sbxProgCntLoad p c)))
             tmr := upd x.tmr k (tmrOp (bits a 14 12) (s.tmrLoad p k)) }

/-- One armed program over a period. -/
def State.runProg (place : Win → State → Nat × State) (p : Fin 8) (prev now : Inputs) (bitmap : Word) (taken : Nat)
    (s : State) : State :=
  let x := s.sbx.progs.get p
  if !x.armed then s
  else
    let pv := if x.armPeriod = s.sbx.period then now else prev
    let s := s.updProg p fun x =>
      { x with cnt := Vector.ofFn fun k =>
          countUp (x.cnt.get k) (bits (s.get (Reg.sbxProgCntSrc p k)) 30 28 != 0
            && s.termTrue p (s.get (Reg.sbxProgCntSrc p k)) pv now) }
    let s := match (List.range 4).find? fun i => taken / 2 ^ i % 2 == 1 with
      | none => s
      | some i =>
        let j := x.state.toNat
        let s := s.doAction place p (s.get (Reg.sbxProgSTAct p j i)) bitmap
        s.updProg p fun x => { x with state := BitVec.ofNat 4 (s.fld (Reg.sbxProgSTCtrl p j i) 7 4) }
    s.updProg p fun x => { x with tmr := x.tmr.map tmrTick }

/-- Hit windows that stay open or are extended because their switch is set in period n (R139). -/
def State.extendHits (now : BitVec 64) (s : State) : State :=
  let n := s.sbx.period
  let go (w : Win) : Win :=
    match w.id with
    | .hit c =>
      if now.getLsbD c.val && decide (n ≤ w.first + w.maxLen - 1)
          && (decide (n ≤ hitEnd w) || (w.post == 0 && w.close == some (n - 1))) then { w with close := some n } else w
    | .prog _ => w
  { s with sbx := { s.sbx with hits := s.sbx.hits.map go } }

/-- A set edge on a channel with no open window: ignored in pre-fill or re-arm, else a hit window opens (R139, R140). -/
def State.hitEdge (place : Win → State → Nat × State) (c : Nat) (s : State) : State :=
  let n := s.sbx.period
  let id : WinId := .hit (Fin.ofNat 64 c)
  let pre := s.fld Reg.sbxStrCfg 12 0
  if s.sbx.hits.any fun w => w.id = id then s
  else if n < s.sbx.strStart + pre then s.bump Reg.sbxStrIgnPrefill
  else if (match lookupK c s.sbx.hitEnds with
      | some e => decide (n ≤ e + s.fld Reg.sbxStrRearm 15 0)
      | none => false) then s.bump Reg.sbxStrIgnRearm
  else
    let mx := (s.get Reg.sbxStrMaxlen).toNat
    let w := s.newWin id n pre (s.fld Reg.sbxStrPost 15 0) mx false (some n) (bitOf 64 c) 0 mx
    let (pl, s) := if w.long then place w s else (0, s)
    let (w, s) := s.reserve pl w
    let (s, susp) := s.voidChecks w.chans
    let s := { s with sbx := { s.sbx with hits := s.sbx.hits ++ [{ w with suspect := susp }] } }
    s.bump64 Reg.sbxStrHitsLo Reg.sbxStrHitsHi 1

/-- Streaming over a period on every enabled channel; what stands for the period before in the first period of a sampling
and after a stop is log entry 165's (R139). With POST_S = 0 a window's end is known one period later, and the
numbering of a period waits for it (R157). -/
def State.streamPeriod (place : Win → State → Nat × State) (now : Inputs) (s : State) : State :=
  let en := s.get Reg.sbxStrEnHi ++ s.get Reg.sbxStrEnLo
  let w := if s.bit Reg.sbxStrCfg 16 then now.sw1 else now.sw0
  let was := match s.sbx.hist with
    | _ :: h :: _ => if s.bit Reg.sbxStrCfg 16 then h.2 else h.1
    | _ => 0
  let stop := s.stopping
  let s := if stop then s else s.extendHits w
  let s := if s.sbx.period = 0 then s else s.numberUpTo (s.sbx.period - 1) []
  if stop then s
  else (bitList (s.presentChans s.sbx.period en &&& w &&& ~~~was)).foldl (fun (s : State) c => s.hitEdge place c) s

/-- Flags that the period's start settles (R127, R132). -/
def State.settleProgs (s : State) : State :=
  allProgs.foldl (fun (s : State) (p : Fin 8) => s.updProg p fun x =>
    { x with tmr := x.tmr.map tmrSettle
             prefill := x.prefill && decide (s.sbx.period < x.armPeriod + (s.get (Reg.sbxProgPre p)).toNat)
             rearm := x.rearm && (match x.lastEnd with
               | some e => decide (s.sbx.period ≤ e + (s.get (Reg.sbxProgRearm p)).toNat)
               | none => false) }) s

/-- Switch bits of the period join the windows that are open or still closing past it. -/
def State.pushSwitches (sw : BitVec 64 × BitVec 64) (s : State) : State :=
  let add (w : Win) : Win := { w with sws := sw :: w.sws }
  { s with sbx := { s.sbx with
      hist := sw :: s.sbx.hist.take 65540
      hits := s.sbx.hits.map add
      progs := s.sbx.progs.map fun x => { x with win := x.win.map add } } }

/-- A clock-loss stop takes its last sample in this period: what would still be open closes there with CLOCK_LOSS (R146,
R273). -/
def State.lossCloses (s : State) : State :=
  let n := s.sbx.period
  if s.bit Reg.clkStat 8 && s.modes.last == some (n + 1) then
    let late (w : Win) : Bool := match w.id with
      | .hit _ => w.post == 0
      | .prog _ => false
    let cut (w : Win) : Win :=
      let e := match w.endAt with
        | some e => min e (progEnd w)
        | none => progEnd w
      if n < e || (late w && e == n) then { w with flags := w.flags ||| 4, endAt := some n } else w
    { s with sbx := { s.sbx with hits := s.sbx.hits.map cut
                                 progs := s.sbx.progs.map fun (x : Prog) => { x with win := x.win.map cut } } }
  else s

/-- The last period before a clock-loss stop has been evaluated: the Signal Box waits for the resumption, and
no channel samples. -/
def State.lossEnds (s : State) : State :=
  if s.bit Reg.clkStat 8 && s.modes.last == some s.sbx.period then
    let s := allTiles.foldl (fun (s : State) (t : Fin 4) => s.setFld (Reg.slcSampling t) 15 0 0) s
    { s with modes := { s.modes with sampling := false } }.flushWire.flushLineQ
  else s

/-- Programs that are disarmed at the frame boundary after the present period: by a transition that ends sampling, or by a
committed copy of SBX_ARM (R116, R339, R350). -/
def State.disarmsNext (s : State) : BitVec 8 :=
  let b := s.sbx.period + 1
  if b % framePeriods ≠ 0 then 0
  else if s.modes.trans.any fun x => x.ends && !x.stopping && decide (x.first ≤ b) then 0xFF
  else match s.bcp.latches.find? fun (l : Latch) => l.block == 5 && decide (l.first ≤ b) with
    | some l => match l.values.find Reg.sbxArm with
      | some w => ~~~(w.setWidth 8)
      | none => 0
    | none => 0

/-- Their captures that wait for a CLOSE take the present period, so that one without POST periods closes in it (R116,
R157). -/
def State.closeDisarmed (s : State) : State :=
  let m := s.disarmsNext
  allProgs.foldl (fun (s : State) (p : Fin 8) =>
    if m.getLsbD p.val && (s.sbx.progs.get p).armed then
      s.updProg p fun x =>
        { x with win := x.win.map fun (w : Win) => if w.close.isNone then { w with close := some s.sbx.period } else w }
    else s) s

/-- One sample period of the Signal Box (R117, R118). -/
def State.sbxPeriod (place : Win → State → Nat × State) (s : State) : State :=
  let s := s.settleProgs.applyLineQ
  let sw := s.switchBits s.sbx.period
  let now : Inputs := { sw0 := sw.1, sw1 := sw.2, lines := s.lines, progs := allProgs.map s.progIn }
  let prev := s.sbx.prev
  let trans := allProgs.map fun p => (p, s.transBits p prev now)
  let bitmap := BitVec.ofNat 32 (trans.foldl (fun a x => a + x.2 * 16 ^ x.1.val) 0)
  let acts := trans.filterMap fun x =>
    ((List.range 4).find? fun i => x.2 / 2 ^ i % 2 == 1).map fun i =>
      (x.1, s.get (Reg.sbxProgSTAct x.1 (s.sbx.progs.get x.1).state.toNat i))
  let prims := (acts.filter fun x => x.2.getLsbD 2).map fun x => (x.1.val, bits x.2 23 16)
  let marks := (acts.filter fun x => x.2.getLsbD 3).map fun x => (x.1.val, bits x.2 31 24, bitmap)
  let s := s.pushSwitches sw
  let s := trans.foldl (fun (s : State) x => s.runProg place x.1 prev now bitmap x.2) s
  let s := s.sendPrims prims
  let s := if s.streamingOn then s.streamPeriod place now else s
  let n := s.sbx.period
  let s := (s.applyCuts n).lossCloses.closeDisarmed
  let late := s.streamingOn && s.fld Reg.sbxStrPost 15 0 == 0 && s.modes.last != some (n + 1)
  let s := if late then s else s.numberUpTo n marks
  { s with sbx := { s.sbx with period := n + 1, prev := now,
                               swBuf := s.sbx.swBuf.filter fun x => decide (n < x.2.1) } }

/-- SIGNAL_BOX_PERIOD: the next period, once its lag has passed (R135). -/
def signalBoxPeriod (place : Win → State → Nat × State) (s : State) : State :=
  let goes := match s.modes.last with
    | some l => decide (s.sbx.period < l)
    | none => true
  if s.modes.sampling && goes && decide (s.sbx.period + s.fld Reg.sbxLag 8 0 ≤ s.samplePos) then (s.sbxPeriod place).lossEnds
  else s

/-! ### Events at the windows' ends -/

/-- A timer that has counted down is expired (R127). -/
def timerExpire (p : Fin 8) (k : Fin 4) (s : State) : State :=
  s.updProg p fun x => { x with tmr := upd x.tmr k tmrSettle }

def prefillEnd (p : Fin 8) (s : State) : State :=
  s.updProg p fun x =>
    { x with prefill := x.prefill && decide (s.sbx.period < x.armPeriod + (s.get (Reg.sbxProgPre p)).toNat) }

def rearmEnd (p : Fin 8) (s : State) : State :=
  s.updProg p fun x =>
    { x with rearm := x.rearm && (match x.lastEnd with
        | some e => decide (s.sbx.period ≤ e + (s.get (Reg.sbxProgRearm p)).toNat)
        | none => false) }

/-- The frame that holds a period has left the look-back buffer of a channel's tile: 16 later ones have come, however
long they took (R28, R30; log entry 164). -/
def State.agedOut (s : State) (c n : Nat) : Bool :=
  decide (n / framePeriods * framePeriods + 17 * framePeriods ≤ (s.tile (chanTile c)).framePeriod)

/-- Periods of a span of a channel that a window holds, that have left the buffer and that no earlier loss covers. -/
def State.newlyAged (s : State) (w : Win) (first last c : Nat) : List Nat :=
  let a := max first w.first
  ((List.range (min last w.endOf + 1 - a)).map fun i => a + i).filter fun (n : Nat) =>
    s.agedOut c n && !w.lost.any fun (l : Nat × Nat × Nat × Nat) => l.1 == c && decide (l.2.1 ≤ n) && decide (n ≤ l.2.2.1)

/-- Window samples that left the look-back buffer before they were copied (R30): lost to the record and counted. -/
def lookbackAgeOut (id : WinId) (first last : Nat) (s : State) : State :=
  let mark (w : Win) : Win :=
    if w.id = id then
      { w with lost := w.lost ++ w.chanList.filterMap fun (c : Nat) =>
          match (s.newlyAged w first last c).head?, (s.newlyAged w first last c).getLast? with
          | some a, some b => some (c, a, b, 1)
          | _, _ => none }
    else w
  let hit (l : List Win) : Nat := ((l.filter fun w => w.id = id).map fun w =>
    (w.chanList.map fun (c : Nat) => (s.newlyAged w first last c).length).sum).sum
  let open_ := s.sbx.hits ++ (s.sbx.progs.toList.filterMap fun x => x.win) ++ s.sbx.closing
  let s := s.bumpBy Reg.queLostPeriods (hit open_)
  { s with sbx := { s.sbx with
      hits := s.sbx.hits.map mark
      closing := s.sbx.closing.map mark
      progs := s.sbx.progs.map fun x => { x with win := x.win.map mark } } }

/-! ### Meanings -/

def execTimerExpire (p : Fin 8) (k : Fin 4) (s : State) : Host.Outcome State Fault Refusal := run (timerExpire p k) s

def execPrefillEnd (p : Fin 8) (s : State) : Host.Outcome State Fault Refusal := run (prefillEnd p) s

def execRearmEnd (p : Fin 8) (s : State) : Host.Outcome State Fault Refusal := run (rearmEnd p) s

def execLookbackAgeOut (w : WinId) (first last : Nat) (s : State) : Host.Outcome State Fault Refusal :=
  run (lookbackAgeOut w first last) s

end Sys2Proof.Machine
end

