-- ==== Sys2Proof/Machine/Wire.lean ====
section
/-! DEFINITION. Wire watch (R74–R81). -/

namespace Sys2Proof.Machine

/-- A watch that begins at a moment; a pulsed pin's first check period begins with it (R76, R77). -/
def Wire.fresh (p now : Nat) (pulsed : Bool) : Wire := ⟨p, now, none, false, now, pulsed, none⟩

def State.wireMode (s : State) (t : Fin 4) (p : Nat) : Nat := s.fld (Reg.wirPin t p) 1 0

def State.freshWire (s : State) (t : Fin 4) (p : Nat) : Wire := Wire.fresh p s.tim.now (s.wireMode t p == 2)

def State.wire (s : State) (t : Fin 4) (p : Nat) : Wire :=
  ((s.tile t).wires.find? fun w => w.pin = p).getD (s.freshWire t p)

def State.setWire (t : Fin 4) (w : Wire) (s : State) : State :=
  s.updTile t fun x => { x with wires := w :: x.wires.filter fun y => y.pin != w.pin }

/-- LIMIT in microvolts (WIR_PINp). -/
def State.wireLimit (s : State) (t : Fin 4) (p : Nat) : Nat := s.fld (Reg.wirPin t p) 15 8 * 10000

/-- The watch current of a pin in nA, positive for a pull-up: LEVEL selects 10 nA to 10 µA; DIR turns the continuous
current; a pulsed check pulls up in its first frame and down in its second (R74, R77). -/
def State.watchCurrent (s : State) (t : Fin 4) (p : Nat) : Int :=
  let i : Int := 10 ^ (s.fld (Reg.wirPin t p) 3 2 + 1)
  match s.wireMode t p with
  | 1 => if s.bit (Reg.wirPin t p) 4 then -i else i
  | 2 => match (s.wire t p).check with
    | some f =>
      if s.samplePos < f ∨ f + 2 * framePeriods ≤ s.samplePos then 0
      else if s.samplePos < f + framePeriods then i else -i
    | none => 0
  | _ => 0

/-- A pin that a source drives does not drift, and reports no fault (R74). -/
def State.drifts (s : State) (t : Fin 4) (p : Nat) : Bool := s.pinDrive t p == .highZ

/-- The window centre is the level averaged over the first 100 µs of continuous mode, or after a cleared fault
(R76, R80). -/
def wireCentreCapture (t : Fin 4) (p : Nat) (level : Int) (s : State) : State :=
  let w := s.wire t p
  if s.tilePowered t && s.watchCurrent t p != 0 && s.wireMode t p = 1 && w.centre.isNone
      && decide (w.since + usU 100 ≤ s.tim.now) then
    (s.setWire t { w with centre := some (level, s.tim.now) }).setBit (Reg.wirLive t) p false
  else s

/-- A fault detected on a pin at the present module time (R80, R81): latched and reported. The records of its channel learn
of it when the evaluation has come to this period; while nothing samples, none is open, and a marker record follows at
once where one of the channel closed in the span. -/
def State.wireFault (t : Fin 4) (p : Nat) (s : State) : State :=
  let s := (s.setBit (Reg.wirFault t) p true).attend Atn.wire
  match s.pinChan t p with
  | none => s
  | some k =>
    let td := s.tim.mt
    let lb := s.fld (Reg.wirLookback t) 9 0
    let x : WireMark :=
      { chan := 16 * t.val + k, found := s.pinPos,
        boundary := (((td : Int) + usU 1 - s.sbx.t0 + periodU - 1) / periodU).toNat, start := td - usU lb, lookback := lb }
    let s := { s with sbx := { s.sbx with wireCuts := s.sbx.wireCuts ++ [x] } }
    if s.modes.sampling then s else s.flushWire

/-- The window's centre as it has followed the level over the whole microseconds since it was last known: toward it, by an
amount that nothing states, within 1 mV/ms (R76; log entry 131). -/
def State.centreNow (s : State) (level : Int) (c : Int × Nat) : Int × Nat :=
  let d := (s.tim.now - c.2) / usU 1
  let move : Int := min (min d (Config.openWord s.free).toNat) (level - c.1).natAbs
  (if c.1 ≤ level then c.1 + move else c.1 - move, c.2 + usU d)

/-- The level of a continuously watched pin against its window, and how long it has been outside: LIVE shows the
comparator, and 2 µs outside are a fault, once for an excursion (R76, R82). -/
def wireFaultDetect (t : Fin 4) (p : Nat) (level : Int) (heldNs : Nat) (s : State) : State :=
  let w := s.wire t p
  match w.centre with
  | none => s
  | some c =>
    if !s.tilePowered t || s.wireMode t p != 1 then s
    else
      let now := s.centreNow level c
      let out := s.drifts t p && decide (s.wireLimit t p < (level - now.1).natAbs)
      let found := out && decide (2000 ≤ heldNs)
      let s1 := ({ s with free := s.free + 1 }.setWire t
        { w with centre := some now, detected := out && (w.detected || found) }).setBit (Reg.wirLive t) p out
      if found && !w.detected then s1.wireFault t p else s1

/-- A pulsed pin's check period begins when WIR_PERIOD has passed; a check still wanted from the one before is starved. The
tile then chooses the next free pair of frames, by the first period of the pair, and sets their flags (R77, R79): a pair
that is not the next is not chosen (log entry 8). It checks only while it samples (log entry 132). -/
def wireCheckPeriod (t : Fin 4) (p first : Nat) (s : State) : State :=
  if !s.tileSampling t || s.wireMode t p != 2 then s
  else
    let w := s.wire t p
    let new_ := decide (w.periodAt + msU (s.fld (Reg.wirPeriod t) 13 0) ≤ s.tim.now)
    let s := if new_ && w.wanted then (s.setBit (Reg.wirStarved t) p true).attend Atn.wire else s
    let w := if new_ then { w with wanted := true, periodAt := w.periodAt + msU (s.fld (Reg.wirPeriod t) 13 0) } else w
    let free := match s.pinChan t p with
      | some k => !s.windowOpen (16 * t.val + k)
      | none => true
    if w.wanted && w.check.isNone && free && first == s.nextFrame then
      let f := s.nextFrame
      let s := s.setWire t { w with wanted := false, check := some f }
      match s.pinChan t p with
      | some k => s.updTile t fun x => { x with nextFlags := x.nextFlags ++ [(f, k, 8), (f + framePeriods, k, 8)] }
      | none => s
    else s.setWire t w

/-- At the end of both check frames the levels are compared (R74, R77). -/
def wireCheckResult (t : Fin 4) (p : Nat) (up down : Int) (s : State) : State :=
  let w := s.wire t p
  match w.check with
  | none => s
  | some f =>
    if s.samplePos < f + 2 * framePeriods then s
    else
      let out := s.drifts t p && decide (s.wireLimit t p < (up - down).natAbs)
      let s := (s.setWire t { w with check := none }).setBit (Reg.wirLive t) p out
      if out then s.wireFault t p else s

/-- The host has cleared latched faults: the window centres are captured anew (R80). -/
def State.wiresCleared (t : Fin 4) (pins : Word) (s : State) : State :=
  (List.range 20).foldl (fun (s : State) (p : Nat) =>
    if pins.getLsbD p && s.wireMode t p = 1 then
      s.setWire t { s.wire t p with since := s.tim.now, centre := none, detected := false }
    else s) s

/-- A check of a pin that begins no more: its frames from a period on carry no WIRE_CHECK for it (R77). -/
def State.dropCheck (t : Fin 4) (w : Wire) (k : Option Nat) (from_ : Nat) (s : State) : State :=
  match w.check, k with
  | some f, some k =>
    [f, f + framePeriods].foldl (fun (s : State) (g : Nat) =>
      if from_ ≤ g then s.updTile t fun x => { x with nextFlags := x.nextFlags.erase (g, k, 8) } else s) s
  | _, _ => s

/-- Sampling of a tile begins or ends with a period: a check that was chosen is no more, and the check periods start anew
(R77; log entry 132). -/
def State.wiresRestart (t : Fin 4) (from_ : Nat) (s : State) : State :=
  let s := (s.tile t).wires.foldl (fun (s : State) (w : Wire) => s.dropCheck t w (s.pinChan t w.pin) from_) s
  s.updTile t fun x =>
    { x with voids := [], wires := x.wires.map fun (w : Wire) =>
        { w with check := none, wanted := s.wireMode t w.pin == 2, periodAt := s.tim.now } }

/-- A tile that is powered up starts the watch of every pin that is to be watched (R76, R77). -/
def State.wiresUp (t : Fin 4) (s : State) : State :=
  s.updTile t fun x =>
    { x with wires := ((List.range 20).filter fun p => s.wireMode t p == 1 || s.wireMode t p == 2).map (s.freshWire t) }

/-- Local channels whose switch bits a wire fault masks (R80). -/
def State.maskedChans (s : State) (t : Fin 4) : List Nat :=
  if s.bit (Reg.wirCtrl t) 0 then
    ((List.range 20).filter fun p => s.bit (Reg.wirFault t) p).filterMap fun p => s.pinChan t p
  else []

/-- What new WIR_ values do beyond the values: a pin whose mode changes starts its watch afresh, and a check that it had
chosen ends with the frame before (R76, R77). -/
def State.wiresApplied (t : Fin 4) (s old : State) : State :=
  (List.range 20).foldl (fun (s : State) (p : Nat) =>
    if old.wireMode t p = s.wireMode t p then s
    else ((s.dropCheck t (s.wire t p) (s.pinChan t p) (s.tile t).swPeriod).setWire t (s.freshWire t p)).setBit
      (Reg.wirLive t) p false) s

/-! ### Meanings -/

def execWireCentreCapture (t : Tile) (p : Pin) (levelUv : Int) (s : State) : Host.Outcome State Fault Refusal :=
  run (wireCentreCapture t p levelUv) s

def execWireFaultDetect (t : Tile) (p : Pin) (x : PinLevel) (s : State) : Host.Outcome State Fault Refusal :=
  run (wireFaultDetect t p x.levelUv x.heldNs) s

def execWireCheckPeriod (t : Tile) (p : Pin) (first : Nat) (s : State) : Host.Outcome State Fault Refusal :=
  run (wireCheckPeriod t p first) s

def execWireCheckResult (t : Tile) (p : Pin) (upUv downUv : Int) (s : State) : Host.Outcome State Fault Refusal :=
  run (wireCheckResult t p upUv downUv) s

end Sys2Proof.Machine
end

