-- ==== Sys2Proof/Machine/Depot.lean ====
section
/-! DEFINITION. The Depot: lines and their protection, the block map, the Ring and Store writers, holds, drains and
releases, scrubbing, the error log and flip masks (R174–R212), and the way of a built record into the Store and the
queues (R159–R164, R190). -/

namespace Sys2Proof.Machine

/-! ### Blocks and regions (R174–R181) -/

def blockBytes : Nat := 262144

/-- Fitted physical blocks (R1). -/
def State.fitted (s : State) : Nat := match s.variant with
  | .f => 524288
  | .l => 262144

def State.ringGib (s : State) : Nat := s.fld Reg.dptRegion 7 0
def State.storeGib (s : State) : Nat := s.fld Reg.dptRegion 15 8
def State.holdGib (s : State) : Nat := s.fld Reg.dptRegion 23 16

/-- First block of the System region (R178). -/
def State.systemBase (s : State) : Nat := (s.ringGib + s.storeGib + s.holdGib) * 4096

/-- OWNER of the region a block lies in (R178, R181). -/
def State.regionOwner (s : State) (b : Nat) : BitVec 3 :=
  if s.fitted ≤ b then 0
  else if b < s.ringGib * 4096 then 1
  else if b < (s.ringGib + s.storeGib) * 4096 then 2
  else if b < s.systemBase then 3
  else 5

def State.mapEnt (s : State) (b : Nat) : MapEnt :=
  (lookupK b s.dpt.map).getD ⟨s.regionOwner b, 0, false, false, 0, 0, 0⟩

/-- The 64 bits of a map entry (R181). -/
def entWord (e : MapEnt) : BitVec 64 :=
  BitVec.ofNat 64 (e.owner.toNat * 2 ^ 61 + e.slot.toNat * 2 ^ 59 + e.poison.toNat * 2 ^ 58 + e.dirLost.toNat * 2 ^ 57
    + e.poisonLines % 512 * 2 ^ 48 + e.starts % 65536 * 2 ^ 32 + e.generation.toNat)

def State.withDpt (f : Depot → Depot) (s : State) : State := { s with dpt := f s.dpt }

/-- A map write takes the armed map flip mask (R210). -/
def State.mapFlip (b : Nat) (s : State) : State :=
  if s.bit Reg.dptMapflipCtrl 0 then
    let m : BitVec 72 := (s.get Reg.dptMapflipMask2).setWidth 8 ++ (s.get Reg.dptMapflipMask1 ++ s.get Reg.dptMapflipMask0)
    let s := if m = 0 then s else s.withDpt fun d => { d with mapErrs := putK b m d.mapErrs }
    let s := ((s.set Reg.dptMapflipMask0 0).set Reg.dptMapflipMask1 0).set Reg.dptMapflipMask2 0
    ((s.setBit Reg.dptMapflipCtrl 0 false).setBit Reg.dptMapflipCtrl 16 true).set Reg.dptMapflipLast (BitVec.ofNat 32 b)
  else s

/-- A map write: a fresh codeword, with the armed map flip mask applied (R210). -/
def State.setEnt (b : Nat) (e : MapEnt) (s : State) : State :=
  (s.withDpt fun d => { d with map := putK b e d.map, mapErrs := dropK b d.mapErrs }).mapFlip b

/-- Blocks of an owner now: the region's own, changed by what the map lists. -/
def State.ownedCount (s : State) (o : BitVec 3) : Nat :=
  let base := if o = 1 then s.ringGib * 4096 else if o = 2 then s.storeGib * 4096 else if o = 3 then s.holdGib * 4096
    else 0
  base + (s.dpt.map.filter fun x => x.2.owner == o && s.regionOwner x.1 != o).length
    - (s.dpt.map.filter fun x => x.2.owner != o && s.regionOwner x.1 == o).length

/-- Blocks with POISON set (DPT_POISONED). -/
def State.poisonedCount (s : State) : Nat := (s.dpt.map.filter fun x => x.2.poison).length

/-- Ring order (R176). -/
def ringKey (b : Nat) : Nat := b % 131072 * 4 + b / 131072
def keyBlock (k : Nat) : Nat := k % 4 * 131072 + k / 4 % 131072

/-- The first block from a key on, in ring order, that satisfies `p`; `fuel` blocks are looked at. -/
def findBlock (p : Nat → Bool) : Nat → Nat → Option Nat
  | 0, _ => none
  | n + 1, k => if p (keyBlock (k % 524288)) then some (keyBlock (k % 524288)) else findBlock p n (k + 1)

/-! ### The error log (R209) and buckets (R206) -/

def LogSource.code : LogSource → Nat
  | .scrubber => 0 | .uplink => 1 | .hostRead => 2 | .ringDrain => 3 | .retransmission => 4 | .directory => 5
  | .mapLookup => 6

def State.addLog (kind : Nat) (src : LogSource) (owner bucket : Nat) (addr : Nat) (s : State) : State :=
  let e : LogEnt :=
    ⟨BitVec.ofNat 32 (kind * 2 ^ 28 + src.code * 2 ^ 24 + owner * 2 ^ 13 + bucket), BitVec.ofNat 32 addr,
     BitVec.ofNat 32 (secOf s.tim.mt), BitVec.ofNat 32 (nsOf s.tim.mt)⟩
  let s := s.withDpt fun d => { d with log := (e :: d.log).take 64 }
  (s.bumpFld Reg.dptLogHead 31 16 1).setFld Reg.dptLogHead 5 0 (s.fld Reg.dptLogHead 5 0 + 1)

/-- DPT_LOG_DATA0–3 for the selected entry. -/
def State.logWord (s : State) (n : Nat) : Word :=
  match s.dpt.log[(s.fld Reg.dptLogHead 5 0 + 63 - s.fld Reg.dptLogSel 5 0) % 64]? with
  | none => 0
  | some e => match n with
    | 0 => e.d0
    | 1 => e.d1
    | 2 => e.d2
    | _ => e.d3

/-- A correctable event in a bucket, and its overflow (R206). -/
def State.bucketAdd (i : Nat) (src : LogSource) (owner : Nat) (s : State) : State :=
  let s := s.bump (Reg.dptCeCnt i)
  let n := s.fld (Reg.dptBucket i) 15 0 + 1
  if s.fld Reg.dptBucketThresh 15 0 < n then
    (((s.setFld (Reg.dptBucket i) 15 0 0).setBit Reg.dptEccStat i true).addLog 4 src owner i 0).attend Atn.eccCe
  else s.setFld (Reg.dptBucket i) 15 0 n

/-! ### The block map's protection (R181, R205, R208) -/

/-- The recorded owner and slot of a block (R208): its hold slot's span, the lend table, DPT_REGION. -/
def State.rebuiltOwner (s : State) (b : Nat) : BitVec 3 × BitVec 2 :=
  let e := s.mapEnt b
  if e.owner = 4 || e.owner = 6 then (e.owner, e.slot)
  else match lookupK b s.dpt.lend with
    | some l => (if l = 1 then 1 else 2, 0)
    | none => (s.regionOwner b, 0)

/-- A double-bit error in a map entry (R208). What starts in the block stays known, and is lost to its readers; what only
continues into it stays as it is. -/
def State.mapLost (b : Nat) (src : LogSource) (s : State) : State :=
  let o := s.rebuiltOwner b
  let g := (s.mapEnt b).generation + 1
  let re (gens : List (Nat × BitVec 32)) : List (Nat × BitVec 32) :=
    gens.map fun (x : Nat × BitVec 32) => if x.1 = b && x.2 == (s.mapEnt b).generation then (b, g) else x
  let s := s.withDpt fun d =>
    { d with units := d.units.map fun u => { u with gens := re u.gens }
             recs := d.recs.map fun r => { r with gens := re r.gens } }
  let s := s.setEnt b ⟨o.1, o.2, true, true, 511, 0, g⟩
  let s := ((s.addLog 5 src o.1.toNat 0 b).bump Reg.dptUeCnt).setBit Reg.dptEccStat 8 true
  s.attend Atn.eccUe

/-- A map entry is decoded: a single-bit error is corrected and counted, a double one rebuilds the entry (R205, R206,
R208). More than two erroneous bits are outside the code. -/
def State.checkMap (b : Nat) (src : LogSource) (s : State) : State :=
  match lookupK b s.dpt.mapErrs with
  | none => s
  | some m =>
    let fix (s : State) : State :=
      (s.setEnt b (s.mapEnt b)).bucketAdd 4 src (s.mapEnt b).owner.toNat
    match popCount m with
    | 0 => s
    | 1 => fix s
    | 2 => s.mapLost b src
    | _ =>
      let (i, s) := s.takeFree
      match Config.wideMapError i % 3 with
      | 0 => s
      | 1 => fix s
      | _ => s.mapLost b src

/-- An entry is looked up and written back changed. -/
def State.changeEnt (b : Nat) (f : MapEnt → MapEnt) (s : State) : State :=
  let s := s.checkMap b .mapLookup
  s.setEnt b (f (s.mapEnt b))

/-! ### Lines (R201–R203) -/

/-- Multiplication by x in GF(2^8) of x^8 + x^4 + x^3 + x^2 + 1 (R201). -/
def gfTimesX (a : Byte) : Byte := if a.getLsbD 7 then (a <<< 1) ^^^ 0x1D else a <<< 1

/-- Multiplication in the field: the bits of `a` from the highest down. -/
def gfMul (a b : Byte) : Byte :=
  ([7, 6, 5, 4, 3, 2, 1, 0] : List Nat).foldl (fun (acc : Byte) (i : Nat) =>
    if a.getLsbD i then gfTimesX acc ^^^ b else gfTimesX acc) 0

/-- α^i with α = 0x02. -/
def gfAlpha : Nat → Byte
  | 0 => 1
  | n + 1 => gfTimesX (gfAlpha n)

/-- Sum of two coefficient lists, highest first, of one length. -/
def gfAdd (a b : List Byte) : List Byte := (a.zip b).map fun (x : Byte × Byte) => x.1 ^^^ x.2

/-- g(x) = (x − α^0) … (x − α^7), coefficients highest first (R201). -/
def rsGen : List Byte :=
  ([0, 1, 2, 3, 4, 5, 6, 7] : List Nat).foldl (fun (g : List Byte) (i : Nat) =>
    gfAdd (g ++ [0]) (0 :: g.map fun (c : Byte) => gfMul (gfAlpha i) c)) [1]

/-- One data byte into the remainder of the division by g(x). -/
def rsStep (r : List Byte) (b : Byte) : List Byte :=
  let q := r.headD 0 ^^^ b
  gfAdd (r.drop 1 ++ [0]) ((rsGen.drop 1).map fun (c : Byte) => gfMul q c)

/-- The check bytes of a line (R201). -/
def rsCheck (data : List Byte) : List Byte := data.foldl rsStep (List.replicate 8 0)

/-- The error masks of a line's codeword. -/
def State.lineErrs (s : State) (l : Nat) : List (Nat × Nat × Byte) := s.dpt.errs.filter fun x => x.1 == l && x.2.2 != 0

/-- The 72 stored bytes of a line: the data with their check bytes, and the masks of what is wrong with them (R201). -/
def State.codeword (s : State) (l : Nat) : List Byte :=
  let data := s.dpt.mem.readBytes (64 * l) 64
  (withIdx (data ++ rsCheck data)).map fun (x : Nat × Byte) =>
    x.2 ^^^ ((((s.lineErrs l).find? fun e => e.2.1 = x.1).map fun e => e.2.2).getD 0)

/-- Data 0x00 and check bytes 0xFF (R202). -/
def poisonWord : List Byte := List.replicate 64 0 ++ List.replicate 8 0xFF

/-- The line holds the poison codeword; a line without a mask holds a codeword of the code, which that is not. -/
def State.isPoison (s : State) (l : Nat) : Bool := !(s.lineErrs l).isEmpty && s.codeword l == poisonWord

/-- A line written whole: its codeword is fresh, and the armed flip mask is applied (R175, R210). -/
def State.writeLine (l : Nat) (data : List Byte) (s : State) : State :=
  let s := s.withDpt fun d => { d with mem := d.mem.writeBytes (64 * l) data, errs := d.errs.filter fun x => x.1 != l }
  let c := s.get Reg.dptFlipCtrl
  if c.getLsbD 0 && (!c.getLsbD 1 || s.fld Reg.dptFlipAddr 30 0 == l) then
    let m : BitVec 72 := (s.get Reg.dptFlipMask2).setWidth 8 ++ (s.get Reg.dptFlipMask1 ++ s.get Reg.dptFlipMask0)
    let pat := BitVec.ofNat 8 (bits c 15 8)
    let new := if pat = 0 then [] else (bitList m).map fun j => (l, j, pat)
    let s := s.withDpt fun d => { d with errs := d.errs ++ new }
    let s := ((s.set Reg.dptFlipMask0 0).set Reg.dptFlipMask1 0).set Reg.dptFlipMask2 0
    ((s.setBit Reg.dptFlipCtrl 0 false).setBit Reg.dptFlipCtrl 16 true).set Reg.dptFlipLast (BitVec.ofNat 32 l)
  else s

/-- Lines from a line address on. -/
def State.writeLines (l : Nat) : List (List Byte) → State → State
  | [], s => s
  | d :: ds, s => State.writeLines (l + 1) ds (s.writeLine l d)

/-- Bytes cut into 64-byte lines, the last one padded with zeros (R161). -/
def toLines : Nat → List Byte → List (List Byte)
  | 0, _ => []
  | n + 1, bs =>
    match bs with
    | [] => []
    | _ => (bs.take 64 ++ List.replicate (64 - bs.length) 0) :: toLines n (bs.drop 64)

def linesOf (bs : List Byte) : List (List Byte) := toLines (bs.length / 64 + 1) bs

/-- The poison codeword is written to a line, and its block's entry says so (R203, R207); it takes no armed flip mask (log
entry 169). -/
def State.poisonLine (l : Nat) (s : State) : State :=
  let b := l / 4096
  let s := s.withDpt fun d =>
    { d with mem := d.mem.writeBytes (64 * l) (List.replicate 64 0)
             errs := (d.errs.filter fun x => x.1 != l) ++ (List.range 8).map fun j => (l, 64 + j, 0xFF) }
  s.changeEnt b fun e => { e with poison := true, poisonLines := min 511 (e.poisonLines + 1) }

/-- What a reader of a line gets (R202). -/
inductive LineRead where
  | good
  | lost
  deriving DecidableEq, Repr

/-- A line read by a requester or the scrubber, with its effects (R202, R203, R206, R207). What the decoder writes back
takes no armed flip mask (log entry 169). -/
def State.readLine (l : Nat) (src : LogSource) (s : State) : LineRead × State :=
  let n := (s.lineErrs l).length
  let owner := (s.mapEnt (l / 4096)).owner.toNat
  let kind := if src = .scrubber then 2 else 1
  let lose (s : State) : LineRead × State :=
    (.lost, (((s.poisonLine l).addLog kind src owner 0 l).bump Reg.dptUeCnt |>.setBit Reg.dptEccStat 8 true).attend
      Atn.eccUe)
  if n = 0 then (.good, s)
  else if s.isPoison l then (.lost, s.bump Reg.dptPoisonReads)
  else if n ≤ 2 then
    (.good, (s.withDpt fun d => { d with errs := d.errs.filter fun x => x.1 != l }).bucketAdd (l / 536870912) src owner)
  else if n ≤ 6 then lose s
  else
    let (i, s) := s.takeFree
    if Config.wideLineError i then lose s else (.good, s)

/-- Lines read in turn; whether one was lost. -/
def State.readLines (src : LogSource) : List Nat → State → Bool × State
  | [], s => (false, s)
  | l :: ls, s =>
    let r := s.readLine l src
    let q := State.readLines src ls r.2
    (decide (r.1 = .lost) || q.1, q.2)

/-! ### Items: units and records by their blocks -/

/-- Byte address of byte i of an item that begins at an offset of its first block (R185, R190). -/
def itemAddr (gens : List (Nat × BitVec 32)) (offset i : Nat) : Nat :=
  match gens[(offset + i) / blockBytes]? with
  | some g => g.1 * blockBytes + (offset + i) % blockBytes
  | none => 0

/-- Lines that hold bytes a … a + n − 1 of an item. -/
def itemLines (gens : List (Nat × BitVec 32)) (offset a n : Nat) : List Nat :=
  if n = 0 then []
  else (List.range ((offset + a + n - 1) / 64 - (offset + a) / 64 + 1)).map fun j =>
    itemAddr gens 0 (((offset + a) / 64 + j) * 64) / 64

/-- Every block of an item still holds it (R189, R191). -/
def State.gensHold (s : State) (gens : List (Nat × BitVec 32)) : Bool :=
  gens.all fun g => (s.mapEnt g.1).generation == g.2

/-- A lookup decodes the map entries of some blocks (R208). -/
def State.decodeBlocks (bs : List Nat) (src : LogSource) (s : State) : State :=
  ((s.dpt.mapErrs.map fun x => x.1).filter fun b => bs.contains b).foldl (fun (s : State) (b : Nat) => s.checkMap b src) s

/-- The map entries of the blocks on the way from a key to a block, in ring order, are decoded (R176, R208). -/
def State.decodeWay (k last : Nat) (s : State) : State :=
  let far (b : Nat) : Nat := (ringKey b + 524288 - k % 524288) % 524288
  s.decodeBlocks ((s.dpt.mapErrs.map fun x => x.1).filter fun b => decide (far b ≤ far last)) .mapLookup

def State.findUnit (s : State) (useq : Nat) : Option RUnit :=
  s.dpt.units.find? fun u => u.useq = useq && s.gensHold u.gens
    && u.gens.all fun g => (s.mapEnt g.1).owner == 1 || (s.mapEnt g.1).owner == 4

def State.findRec (s : State) (seq : Nat) : Option SRec :=
  s.dpt.recs.find? fun r => r.seq = some seq && r.stored && s.gensHold r.gens

/-- The map entry and the directory of the block in which an item starts are read; DIR_LOST loses the item to its
reader (R203, R208). -/
def State.readDirectory (b : Nat) (s : State) : Bool × State :=
  let s := s.checkMap b .mapLookup
  let base := (s.systemBase * blockBytes + 4096 * b) / 64
  let s :=
    if s.dpt.dirs.contains b then
      let r := s.readLines .directory (((List.range 64).map fun i => base + i).filter fun l => !(s.lineErrs l).isEmpty)
      if r.1 then r.2.changeEnt b fun e => { e with dirLost := true } else r.2
    else s
  ((s.mapEnt b).dirLost, s)

/-- A lookup of a record by its SEQUENCE (R190): the directories of the blocks whose range contains it are read, and in
each the header lines of the records that start there, in allocation order, up to the one sought. -/
def State.probeRec (seq : Nat) (src : LogSource) (s : State) : State :=
  let blocks := (s.dpt.recs.map fun r => r.block).eraseDups.filter fun b =>
    let qs := (s.dpt.recs.filter fun r => r.block == b && s.gensHold r.gens).filterMap fun r => r.seq
    qs.any (fun q => decide (q ≤ seq)) && qs.any fun q => decide (seq ≤ q)
  blocks.foldl (fun (s : State) (b : Nat) =>
    let s := (s.readDirectory b).2
    let rs := s.dpt.recs.filter fun r => r.block == b && s.gensHold r.gens
    let looked := (rs.takeWhile fun r => r.seq != some seq) ++ rs.filter fun r => r.seq == some seq
    let lines := looked.flatMap fun r => itemLines r.gens r.offset 0 64
    (s.readLines src (lines.filter fun l => !(s.lineErrs l).isEmpty)).2) s

/-- Bytes of an item's stored part: `none` where its directory is lost; else the bytes and whether a line of theirs was
lost, the lost lines' bytes being free. -/
def State.readItem (src : LogSource) (gens : List (Nat × BitVec 32)) (offset a n : Nat) (s : State) :
    (Bool × List Byte) × State :=
  let (dl, s) := s.readDirectory ((gens.head?.map fun g => g.1).getD 0)
  let bad := fun (s : State) (l : Nat) => let e := s.lineErrs l; decide (2 < e.length)
  let lines := itemLines gens offset a n
  let lostLines := lines.filter fun l => bad s l
  let (lost, s) := s.readLines src (lines.filter fun l => !(s.lineErrs l).isEmpty)
  let (i, s) := if lost then s.takeFree else (0, s)
  let bytes := (List.range n).map fun j =>
    let ad := itemAddr gens offset (a + j)
    if lost && lostLines.contains (ad / 64) then Config.damagedByte i ad else s.dpt.mem.read ad
  ((lost || dl, bytes), s)

/-! ### Writers (R176, R185, R186, R190, R199) -/

/-- The directory of a Ring block: its units' descriptors; of a Store block: MIN_SEQ, MAX_SEQ and the cell offset of
each start (R190; the arrangement is the model's, log entry 14). -/
def State.directoryBytes (s : State) (b : Nat) (ring : Bool) : List Byte :=
  if ring then (s.dpt.units.filter fun u => u.block == b && s.gensHold u.gens).flatMap fun u => u.descriptor
  else
    let rs := s.dpt.recs.filter fun r => r.block == b
    let qs := rs.filterMap fun r => r.seq
    beBytes 8 (qs.foldl min (qs.headD 0)) ++ beBytes 8 (qs.foldl max 0) ++ rs.flatMap fun r => beBytes 2 (r.offset / 64)

def State.writeDirectory (b : Nat) (ring : Bool) (s : State) : State :=
  let d := s.directoryBytes b ring
  let s := s.writeLines ((s.systemBase * blockBytes + 4096 * b) / 64)
    (linesOf (d ++ List.replicate (4096 - d.length) 0))
  s.withDpt fun x => { x with dirs := x.dirs ++ [b] }

/-- The block that a writer still fills. -/
def openBlock (pos : Option (Nat × Nat)) : Option Nat :=
  match pos with
  | some p => if p.2 < blockBytes then some p.1 else none
  | none => none

/-- Blocks that items occupy. -/
def itemBlocks (gens : List (List (Nat × BitVec 32))) : List Nat := (gens.flatMap fun l => l.map fun g => g.1).eraseDups

/-- Directories of full Store blocks whose records have all closed; one that holds no start, but the rest of a record alone,
has a directory as well (R190). -/
def State.storeDirectories (s : State) : State :=
  let blocks := (itemBlocks (s.dpt.recs.map fun r => r.gens)).filter fun b =>
    !s.dpt.dirs.contains b && openBlock s.dpt.storePos != some b
      && (s.dpt.recs.filter fun r => r.block == b).all fun r => r.seq.isSome
  blocks.foldl (fun (s : State) (b : Nat) => s.writeDirectory b false) s

/-- Directories of Ring blocks that have closed; a unit that runs out of a block starts in it, and is listed there; the
block in which it ends has a directory as well (R186). -/
def State.ringDirectories (s : State) : State :=
  let blocks := (itemBlocks ((s.dpt.units.filter fun u => s.gensHold u.gens).map fun u => u.gens)).filter fun b =>
    !s.dpt.dirs.contains b && openBlock s.dpt.ringPos != some b
  blocks.foldl (fun (s : State) (b : Nat) => s.writeDirectory b true) s

/-- DPT_RING_OLDEST and DPT_RING_SPAN, renewed at a block start: from the oldest present sample readable in the Ring to
the newest one written, which may lie in a held block (R187); 0 where there is none (log entry 168). -/
def State.ringSpan (s : State) : State :=
  let all := s.dpt.units.filter fun u => u.present && s.gensHold u.gens
  let us := all.filter fun u => (s.mapEnt u.block).owner == 1
  match us with
  | [] => ((s.set Reg.dptRingSpan 0).set Reg.dptRingOldestS 0).set Reg.dptRingOldestNs 0
  | u :: rest =>
    let lo := rest.foldl (fun (m : Nat) (v : RUnit) => min m v.tFirst) u.tFirst
    let hi := all.foldl (fun m v => max m v.tEnd) u.tEnd
    (s.stamp Reg.dptRingOldestS Reg.dptRingOldestNs lo).set Reg.dptRingSpan (BitVec.ofNat 32 ((hi - lo) / usU 1))

/-- A block is started by a writer: its contents are gone and its entry is fresh (R186, R190). -/
def State.startBlock (b : Nat) (ring : Bool) (s : State) : State :=
  let s := s.checkMap b .mapLookup
  let e := s.mapEnt b
  let s := s.withDpt fun d =>
    { d with recs := d.recs.filter fun r => !(r.gens.any fun g => g.1 == b)
             dirs := d.dirs.filter fun x => x != b }
  let s := s.setEnt b { e with poison := false, dirLost := false, poisonLines := 0, starts := 0, generation := e.generation + 1 }
  if ring then s.ringSpan else s

/-- Blocks that a writer over its region's size hands back to the reserve on its way (R199): lent ones, from a key on,
up to the first that it takes. -/
def State.handBack (o : BitVec 3) : Nat → Nat → State → Option Nat × State
  | 0, _, s => (none, s)
  | n + 1, k, s =>
    match findBlock (fun b => (s.mapEnt b).owner == o) 524288 k with
    | none => (none, s)
    | some b =>
      let s := s.decodeWay k b
      let size := (if o = 1 then s.ringGib else s.storeGib) * 4096
      if (lookupK b s.dpt.lend).isSome && size < s.ownedCount o then
        let s := s.changeEnt b fun e => { e with owner := 3, slot := 0, starts := 0 }
        let s := s.withDpt fun d =>
          { d with lend := dropK b d.lend
                   units := d.units.filter fun u => !(u.gens.any fun g => g.1 == b)
                   recs := d.recs.filter fun r => !(r.gens.any fun g => g.1 == b)
                   dirs := d.dirs.filter fun x => x != b }
        State.handBack o n (ringKey b + 1) s
      else (some b, s)

/-- The writer goes on to its next block; its first one is the owned block with the lowest key (R176; log entry 133). -/
def State.nextBlock (ring : Bool) (s : State) : Option Nat × State :=
  let o : BitVec 3 := if ring then 1 else 2
  let pos := if ring then s.dpt.ringPos else s.dpt.storePos
  let k := match pos with
    | some p => ringKey p.1 + 1
    | none => 0
  match s.handBack o (s.dpt.lend.length + 1) k with
  | (some b, s) =>
    let s := s.startBlock b ring
    (some b, s.withDpt fun d => if ring then { d with ringPos := some (b, 0) } else { d with storePos := some (b, 0) })
  | (none, s) => (none, s)

def State.writerPos (s : State) (ring : Bool) : Option (Nat × Nat) := if ring then s.dpt.ringPos else s.dpt.storePos

def State.setWriterPos (ring : Bool) (p : Nat × Nat) (s : State) : State :=
  s.withDpt fun d => if ring then { d with ringPos := some p } else { d with storePos := some p }

/-- The rest of the writer's block is zero-filled and left (R185, R194); so is that of a Store block (log entry 134). -/
def State.fillBlock (ring : Bool) (s : State) : State :=
  match s.writerPos ring with
  | none => s
  | some (b, off) =>
    (s.writeLines ((b * blockBytes + off) / 64) (List.replicate ((blockBytes - off) / 64) (List.replicate 64 0))).setWriterPos
      ring (b, blockBytes)

/-- The writer stands where a new item may start: in a block with room and fewer than `maxStarts` starts. -/
def State.seekStart (ring : Bool) (maxStarts : Nat) (s : State) : State :=
  match s.writerPos ring with
  | none => (s.nextBlock ring).2
  | some (b, off) =>
    if blockBytes ≤ off then (s.nextBlock ring).2
    else if maxStarts ≤ (s.mapEnt b).starts then ((s.fillBlock ring).nextBlock ring).2
    else s

/-- Space for `n` lines from the writer's place on: the blocks with their generations (R185, R190). -/
def State.takeSpace (ring : Bool) : Nat → Nat → State → List (Nat × BitVec 32) × State
  | 0, _, s => ([], s)
  | fuel + 1, n, s =>
    match s.writerPos ring with
    | none => ([], s)
    | some (b, off) =>
      let room := (blockBytes - off) / 64
      let g := (b, (s.mapEnt b).generation)
      if n ≤ room then ([g], s.setWriterPos ring (b, off + 64 * n))
      else
        let s := (s.setWriterPos ring (b, blockBytes))
        let s := (s.nextBlock ring).2
        let r := State.takeSpace ring fuel (n - room) s
        (g :: r.1, r.2)

/-- An item's place: first block, offset, blocks; its start is counted in STARTS. -/
def State.allocate (ring : Bool) (maxStarts nlines : Nat) (s : State) : Nat × Nat × List (Nat × BitVec 32) × State :=
  let s := s.seekStart ring maxStarts
  match s.writerPos ring with
  | none => (0, 0, [], s)
  | some (b, off) =>
    let s := s.changeEnt b fun e => { e with starts := e.starts + 1 }
    let r := s.takeSpace ring (nlines / 4096 + 2) nlines
    (b, off, r.1, r.2)

/-- Lines written to an item's place from a byte offset on, but for those that `skip` picks by address and data; a block
that has been started again meanwhile is left alone. -/
def State.writePart (skip : State → Nat → List Byte → Bool) (gens : List (Nat × BitVec 32)) (offset : Nat)
    (lines : List (List Byte)) (s : State) : State :=
  (withIdx lines).foldl (fun (s : State) (x : Nat × List Byte) =>
    match (gens)[(offset + 64 * x.1) / blockBytes]? with
    | some g =>
      let l := itemAddr gens offset (64 * x.1) / 64
      if (s.mapEnt g.1).generation = g.2 && !skip s l x.2 then s.writeLine l x.2 else s
    | none => s) s

/-- An item's cells written to its place as they stand (R161). -/
def State.writeItem (gens : List (Nat × BitVec 32)) (offset : Nat) (cells : List Cell) (s : State) : State :=
  s.writePart (fun _ _ _ => false) gens offset (cells.map fun (c : Cell) => c.data)

/-- An item's lines, but for those that stand in their place already. -/
def State.writeRest (gens : List (Nat × BitVec 32)) (offset : Nat) (bytes : List Byte) (s : State) : State :=
  s.writePart (fun (s : State) l d => s.dpt.mem.readBytes (64 * l) 64 == d) gens offset (linesOf bytes)

/-! ### Records into the Store and the queues (R159–R164, R190) -/

/-- Largest period count of a window for its reservation (R159). -/
def Win.largest (w : Win) : Nat :=
  match w.id with
  | .prog _ => if w.program then w.maxLen else min w.maxLen (w.pre + 1 + w.post)
  | .hit _ => w.maxLen

/-- Where a channel's payload begins in a record of the window's largest size (R148), which is where it stands while the
window is open (log entry 167). -/
def Win.payloadAt (w : Win) (c : Nat) : Nat :=
  64 + 64 * w.chanList.length + ((w.chanList.filter fun d => decide (d < c)).map fun d => 2 * w.width d * w.largest).sum

/-- Samples of a long-path record go to its place in the Store as they come, in whole lines; what shares a line with other
data is written with the rest, at the close (R160, R175). -/
def State.storePiece (w : Win) (p : Piece) (s : State) : State :=
  match s.dpt.recs.find? fun r => r.order = w.place && !r.stored with
  | none => s
  | some r =>
    let wd := w.width p.chan
    let a := max p.first w.first
    let words := (p.words.drop ((a - p.first) * wd)).take ((w.first + w.largest - a) * wd)
    let from_ := w.payloadAt p.chan + 2 * wd * (a - w.first)
    let bytes := (words.flatMap fun (x : Sample) => beBytes 2 x.toNat).drop (roundUp from_ 64 - from_)
    s.writePart (fun _ _ _ => false) r.gens (r.offset + roundUp from_ 64) (linesOf (bytes.take (bytes.length / 64 * 64)))

/-- The Store place of a long-path record, taken when its window opens, and the samples that have come already (R160,
R190). Its name is the allocation order. -/
def longPlace (w : Win) (s : State) : Nat × State :=
  let n := (windowSize w w.largest + 63) / 64
  let (b, off, gens, s) := s.allocate false 2016 n
  let ord := s.dpt.order
  let s := (s.withDpt fun d =>
    { d with order := ord + 1, recs := d.recs ++ [⟨none, false, b, off, 64 * n, gens, ord⟩] }).storeDirectories
  (ord, w.pieces.foldl (fun (s : State) (p : Piece) => s.storePiece { w with place := ord } p) s)

/-- Long-path records that have been built stand complete in the Store from now on; the blocks of their reservation with no
byte of them hold nothing of theirs (R160, R190, R197). -/
def State.storeLongs (s : State) : State :=
  (s.que.built.filter fun b => b.long).foldl (fun (s : State) (b : Built) =>
    match s.dpt.recs.find? fun r => r.order = b.place && !r.stored with
    | none => s
    | some r =>
      let s := s.writeRest r.gens r.offset b.bytes
      let used := (r.offset + b.bytes.length + blockBytes - 1) / blockBytes
      let s := s.withDpt fun d =>
        { d with recs := d.recs.map fun x =>
            if x.order = b.place then
              { x with seq := some b.seq, stored := true, length := b.bytes.length, gens := x.gens.take used } else x }
      s.storeDirectories) s

/-- Consecutive cells of one flow that carry the given bytes; the end mark stands on the last only (R161). -/
def cellsOf (dest : Island) (flow type : Nat) (bytes : List Byte) : List Cell :=
  let ls := linesOf bytes
  (withIdx ls).map fun (x : Nat × List Byte) => ⟨dest, flow, type, x.1 + 1 == ls.length, x.2⟩

/-- The Depot controller's port for a block's stack (R33). -/
def stackIsland (b : Nat) : Island := .stackPort (Fin.ofNat 4 (b / 131072))

/-- A record built in staging goes to the Store (R190): its record cells, of class 3 (R32, R35, R162). -/
def State.storeRecord (seq : Nat) (bytes : List Byte) (s : State) : State :=
  let (b, off, gens, s) := s.allocate false 2016 ((bytes.length + 63) / 64)
  let s := s.writeItem gens off (cellsOf (stackIsland b) 3 1 bytes)
  (s.withDpt fun d =>
    { d with order := d.order + 1
             recs := d.recs ++ [⟨some seq, true, b, off, bytes.length, gens, d.order⟩] }).storeDirectories

/-- Data of cells in turn, pad included. -/
def cellBytes (cs : List Cell) : List Byte := cs.flatMap fun (c : Cell) => c.data

/-- As many cells as RECORD_LENGTH, read from the record's header, calls for (R149, R167). -/
def framed (cs : List Cell) : Bool :=
  cs.length == (ofBytes (((cellBytes (cs.take 1)).drop 44).take 4) + 63) / 64

/-- Bytes that an entry still occupies in the live queue. -/
def LiveEnt.fill (e : LiveEnt) : Nat := if e.isRef then 64 else 64 * e.cells.length - e.taken / 64 * 64

def State.liveFill (s : State) : Nat := (s.que.live.map LiveEnt.fill).sum
def HrEnt.fill (e : HrEnt) : Nat := 64 * (e.cells.length - e.taken)
def State.hrFill (s : State) : Nat := (s.que.hostRead.map HrEnt.fill).sum

/-- A record skipped from the live queue (R164, R167). -/
def State.liveSkip (seq : Nat) (s : State) : State :=
  ((s.set64 Reg.queLastSkipLo Reg.queLastSkipHi seq).setBit Reg.queStat 3 true).attend Atn.link

/-- Admission to the live queue, whole or not at all (R163, R164). The cells' destination is the packetizer of the active
Mainline (log entry 139); a reference entry holds the SEQUENCE (R160; log entry 167). -/
def State.toLive (b : Built) (s : State) : State :=
  let to_ : Island := .packetizer (if s.fld Reg.lnkMlStat 1 0 = 1 then 1 else 0)
  let cells := if b.long then cellsOf to_ 3 2 (beBytes 8 b.seq ++ beBytes 56 0) else cellsOf to_ 3 1 b.bytes
  if s.liveFill + 64 * cells.length ≤ 8 * 2 ^ 20 then
    { s with que := { s.que with live := s.que.live ++ [⟨b.seq, b.bytes.length, cells, b.long, 0, none, s.tim.now⟩] } }
  else (s.bump Reg.queLiveSkip).liveSkip b.seq

/-- Admission to the host-read queue; a long-path record is not placed there (R160, R164). -/
def State.toHostRead (b : Built) (s : State) : State :=
  if !b.long && decide (s.hrFill + (b.bytes.length + 63) / 64 * 64 ≤ 256 * 1024) then
    { s with que := { s.que with hostRead := s.que.hostRead ++ [⟨b.seq, cellsOf .registerPort 3 1 b.bytes, 0⟩] } }
  else (s.bump Reg.queHrSkip).attend Atn.link

/-- The built record whose turn it is: no lower number is still closing or built (R159). -/
def State.nextBuilt (s : State) : Option Built :=
  s.que.built.find? fun b =>
    (s.que.built.all fun x => decide (b.seq ≤ x.seq)) && s.sbx.closing.all fun w => match w.seq with
      | some n => decide (b.seq ≤ n)
      | none => true

/-- The record's cells go to the Store and to the queues that QUE_ROUTE selects (R159, R173). -/
def recordSend (s : State) : State :=
  match s.nextBuilt with
  | none => s
  | some b =>
    let s := if b.long then s else s.storeRecord b.seq b.bytes
    let route := s.fld Reg.queRoute (2 * b.kind + 1) (2 * b.kind)
    let s := if route % 2 = 1 then s.toLive b else s
    let s := if 2 ≤ route then s.toHostRead b else s
    { s with que := { s.que with built := s.que.built.filter fun x => x.seq != b.seq
                                 staging := s.que.staging - b.staged } }

/-- DPT_STORE_OLDEST (R191): the lowest SEQUENCE readable in the Store outside holds, or not yet stored. -/
def State.storeOldest (s : State) : Nat :=
  let readable := s.dpt.recs.filterMap fun r =>
    if r.stored && s.gensHold r.gens && r.gens.all (fun g => (s.mapEnt g.1).owner == 2) then r.seq else none
  let waiting := (s.que.built.map fun b => b.seq) ++ s.sbx.closing.filterMap fun w => w.seq
  (readable ++ waiting).foldl min s.seqNext

/-- A record with a SEQUENCE that is not yet stored (R191). -/
def State.notYetStored (s : State) (seq : Nat) : Bool :=
  (s.que.built.any fun b => b.seq == seq) || s.sbx.closing.any fun w => w.seq == some seq

/-! ### Holds, drains, releases (R192–R200) -/

def State.holdState (s : State) (n : Fin 4) : Nat := s.fld (Reg.dptHoldStat n) 2 0

def State.setHoldState (n : Fin 4) (st : Nat) (s : State) : State := s.setFld (Reg.dptHoldStat n) 2 0 st

def State.updHold (n : Fin 4) (f : Hold → Hold) (s : State) : State := s.withDpt fun d => { d with holds := upd d.holds n f }

/-- Free reserve blocks lent to a region, up to a number (R180); taken in ascending block number (log entry 15). -/
def State.lendBlocks (o : BitVec 3) (k : Nat) (s : State) : State :=
  let lo := (s.ringGib + s.storeGib) * 4096
  let free := ((List.range (s.holdGib * 4096)).map fun i => lo + i).filter fun b => (s.mapEnt b).owner == 3
  (free.take k).foldl (fun (s : State) (b : Nat) =>
    (s.changeEnt b fun e => { e with owner := o }).withDpt fun d => { d with lend := putK b (if o = 1 then 1 else 2) d.lend }) s

/-- Blocks frozen into a slot (R194, R197). -/
def State.freezeBlocks (n : Fin 4) (o : BitVec 3) (bs : List Nat) (s : State) : State :=
  bs.foldl (fun (s : State) (b : Nat) =>
    s.changeEnt b fun e => { e with owner := o, slot := BitVec.ofNat 2 n.val }) s

/-- Keys from one block to another in ring order. -/
def keysBetween (a b : Nat) : List Nat :=
  let n := (ringKey b + 524288 - ringKey a) % 524288 + 1
  (List.range n).map fun i => keyBlock ((ringKey a + i) % 524288)

/-- The slot reaches HELD when both its parts are frozen (R197); HOLD is then done (R341). -/
def State.holdDone (n : Fin 4) (s : State) : State :=
  let h := s.dpt.holds.get n
  if h.ringDone && (h.storeDone || !s.bit (Reg.dptHoldStat n) 4) then
    let s := s.setHoldState n 2
    (s.optDone h.op St.ok (beBytes 1 (s.fld (Reg.dptHoldStat n) 7 0))).updHold n fun h => { h with op := none }
  else s

/-- Units that still have to reach the Ring. -/
def State.pendingUnits (s : State) : List UnitB :=
  s.cmp.building ++ s.cmp.jobs.toList.flatMap (fun js => js.map fun j => j.unit) ++ s.cmp.ready.map fun r => r.unit

/-- Samples taken before a moment are still on their way over a tile link; those of before a stop go on over it (R273). -/
def State.framesBefore (s : State) (u : Nat) : Bool :=
  allTiles.any fun (t : Fin 4) =>
    let p := (s.tile t).framePeriod
    s.maskAt t p != 0 && decide (s.stampOf p < u) && (match s.modes.last with
      | some l => decide (p < l)
      | none => s.modes.sampling)

/-- The Ring part of a hold is frozen now (R194–R196). A span without a present sample leaves T0 as it is, and SHORT is then
judged against the present time (R195; log entry 168). -/
def State.freezeRing (n : Fin 4) (s : State) : State :=
  let h := s.dpt.holds.get n
  let s := (s.fillBlock true).ringDirectories
  let t0 := h.ta - usU h.pre
  let us := s.dpt.units.filter fun u => s.gensHold u.gens && ((s.mapEnt u.block).owner == 1 || (s.mapEnt u.block).owner == 4)
  let inSpan := us.filter fun (u : RUnit) => u.present && decide (t0 ≤ u.tEnd)
  let inRing := us.filter fun (u : RUnit) => u.present && (s.mapEnt u.block).owner == 1
  let oldest := inRing.foldl (fun (m : Nat) (u : RUnit) => min m u.tFirst)
    (inRing.head?.map (fun (u : RUnit) => u.tFirst) |>.getD s.tim.mt)
  let (blocks, overlap) := match inSpan, s.dpt.ringPos with
  | u :: rest, some (last, _) =>
    let first := rest.foldl (fun (m v : RUnit) => if v.useq < m.useq then v else m) u
    let ks := keysBetween first.block last
    (ks.filter fun b => (s.mapEnt b).owner == 1, ks.any fun b => (s.mapEnt b).owner == 4)
  | _, _ => ([], false)
  let free := s.ownedCount 3
  let keep (k : Nat) : Bool := decide (4096 ≤ s.ownedCount 1 + min free k - k)
  let trim := ((List.range (blocks.length + 1)).find? fun i => keep (blocks.length - i)).getD blocks.length
  let held := blocks.drop trim
  let short := decide (t0 < oldest) || decide (0 < trim)
  let s := (s.freezeBlocks n 4 held).lendBlocks 1 held.length
  let kept := us.filter fun (u : RUnit) => held.contains u.block && u.present
  let s := match kept with
    | [] => s
    | u :: rest => s.stamp (Reg.dptHoldT0S n) (Reg.dptHoldT0Ns n) (rest.foldl (fun (m : Nat) (v : RUnit) => min m v.tFirst) u.tFirst)
  let s := s.set (Reg.dptHoldRingBlocks n) (BitVec.ofNat 32 held.length)
  let s := if overlap then s.setBit (Reg.dptHoldStat n) 6 true else s
  let s := if short then s.setBit (Reg.dptHoldStat n) 5 true else s
  (s.updHold n fun h => { h with ringDone := true }).holdDone n

/-- The Ring part of a hold is frozen once its span is over and written, at the latest 100 µs after its end (R194). -/
def holdFreeze (n : Fin 4) (s : State) : State :=
  let h := s.dpt.holds.get n
  let tEnd := h.ta + usU h.post
  if s.holdState n != 1 || h.ringDone || s.tim.mt < tEnd
      || (s.tim.mt < tEnd + usU 100 && (s.framesBefore tEnd || s.pendingUnits.any fun u => decide (u.time < tEnd))) then s
  else s.freezeRing n

/-- The Store part of a hold is frozen once every record allocated before acceptance is written (R197). -/
def storeHoldFreeze (n : Fin 4) (s : State) : State :=
  let h := s.dpt.holds.get n
  let before := s.dpt.recs.filter fun r => decide (r.order < h.order)
  if s.holdState n != 1 || h.storeDone || !s.bit (Reg.dptHoldStat n) 4 || before.any (fun r => !r.stored) then s
  else
    let mine := before.filter fun r => s.gensHold r.gens && match r.seq with
      | some q => decide (h.firstSeq ≤ q)
      | none => false
    let seqs := mine.filterMap fun r => r.seq
    let blocks := (mine.flatMap fun r => r.gens.map fun g => g.1).eraseDups
    let free := blocks.filter fun b => (s.mapEnt b).owner == 2
    let overlap := blocks.any fun b => (s.mapEnt b).owner == 6
    let res := s.ownedCount 3
    let keep (k : Nat) : Bool := decide (64 ≤ s.ownedCount 2 + min res k - k)
    let trim := ((List.range (free.length + 1)).find? fun i => keep (free.length - i)).getD free.length
    let held := free.drop trim
    let gone := decide (h.firstSeq < s.seqNext) && (s.findRec h.firstSeq).isNone && !s.notYetStored h.firstSeq
    let s := (s.freezeBlocks n 6 held).lendBlocks 2 held.length
    let s := s.set (Reg.dptHoldStoreBlocks n) (BitVec.ofNat 32 held.length)
    let s := if seqs.isEmpty then s else s.set64 (Reg.dptHoldLastSeqLo n) (Reg.dptHoldLastSeqHi n) (seqs.foldl max 0)
    let s := if overlap then s.setBit (Reg.dptHoldStat n) 6 true else s
    let s := if gone || decide (0 < trim) then s.setBit (Reg.dptHoldStat n) 5 true else s
    (s.updHold n fun h => { h with storeDone := true }).holdDone n

/-- What a drain sends: held units of the masked channels, then held records (R198). A record belongs to the slot that holds
its first block, though another slot may hold the rest (R196). -/
def State.drainItems (s : State) (n : Fin 4) : List Item :=
  let h := s.dpt.holds.get n
  let mineIn (o : BitVec 3) (b : Nat) : Bool := (s.mapEnt b).owner == o && (s.mapEnt b).slot.toNat == n.val
  let us := (s.dpt.units.filter fun u => s.gensHold u.gens && mineIn 4 u.block && h.mask.getLsbD u.chan).map fun u => u.useq
  let rs := (s.dpt.recs.filter fun r => r.stored && s.gensHold r.gens && mineIn 6 r.block).filterMap fun r => r.seq
  (us.mergeSort fun a b => decide (a ≤ b)).map Item.unit
    ++ (if h.drainStore then (rs.mergeSort fun a b => decide (a ≤ b)).map Item.record else [])

/-- Blocks of a slot. -/
def State.slotBlocks (s : State) (n : Fin 4) : List Nat :=
  (s.dpt.map.filter fun x => (x.2.owner == 4 || x.2.owner == 6) && x.2.slot.toNat == n.val).map fun x => x.1

/-- The stream of a slot's drain (R289). -/
def drainStream (n : Fin 4) : BitVec 16 := BitVec.ofNat 16 (0x100 + n.val)

/-- A drain starts: its stream sends the slot's items from the first on; DAMAGED tells of this drain (log entry 135). -/
def State.startDrain (n : Fin 4) (s : State) : State :=
  let s := s.decodeBlocks (s.slotBlocks n) .mapLookup
  let items := s.drainItems n
  let h := s.dpt.holds.get n
  let st : Stream :=
    { id := drainStream n, next := 0, segs := [], past := [], items := items, loaded := [], ring := none, ended := false,
          stopped := false, retx := 0, sentBytes := 0, prbs := 0, op := h.drainOp, slot := some n,
      final := St.ok }
  let s := { s with lnk := { s.lnk with streams := (s.lnk.streams.filter fun (x : Stream) => x.id != drainStream n) ++ [st] } }
  ((s.setHoldState n 4).setBit (Reg.dptHoldStat n) 7 false).set (Reg.dptHoldDrainedMib n) 0

/-- The first slot of the drain order starts when none is draining (R198). -/
def State.nextDrain (s : State) : State :=
  if [0, 1, 2, 3].any fun (m : Fin 4) => s.holdState m == 4 then s
  else match s.dpt.drainQ with
    | [] => s
    | m :: q => (s.withDpt fun d => { d with drainQ := q }).startDrain (Fin.ofNat 4 m)

/-- A HELD or DRAINED slot begins its release (R199). -/
def State.beginRelease (n : Fin 4) (ops : List OpRef) (s : State) : State :=
  (s.setHoldState n 6).updHold n fun h => { h with releaseOps := ops }

/-- A drain has sent everything: DRAINED, and the next queued slot starts (R198, R199). -/
def drainComplete (n : Fin 4) (s : State) : State :=
  match s.lnk.streams.find? fun (x : Stream) => x.id = drainStream n with
  | none => s
  | some x =>
    if s.holdState n != 4 || !x.ended then s
    else
      let h := s.dpt.holds.get n
      let s := s.setHoldState n 5
      let s := s.optDone h.drainOp St.ok (s.opCounts h.drainOp)
      let s := s.updHold n fun h => { h with drainOp := none }
      let s := if h.autoRelease then s.beginRelease n h.releaseOps else s
      s.nextDrain

/-- Whether an item lies in one of the blocks. -/
def State.itemIn (s : State) (bs : List Nat) : Item → Bool
  | .record q => s.dpt.recs.any fun r => r.seq == some q && r.gens.any fun g => bs.contains g.1
  | .unit q => s.dpt.units.any fun u => u.useq == q && u.gens.any fun g => bs.contains g.1
  | .prbs => false

/-- A slot's blocks go back to their origin and it is FREE: its registers show no span (R192, R199, R212). -/
def State.freeHold (n : Fin 4) (s : State) : State :=
  let s := (s.slotBlocks n).foldl (fun (s : State) (b : Nat) =>
    s.changeEnt b fun e => { e with owner := if e.owner = 4 then 1 else 2, slot := 0 }) s
  let s := ([Reg.dptHoldStat n, Reg.dptHoldRingBlocks n, Reg.dptHoldStoreBlocks n, Reg.dptHoldT0S n, Reg.dptHoldT0Ns n,
    Reg.dptHoldT1S n, Reg.dptHoldT1Ns n, Reg.dptHoldDrainedMib n, Reg.dptHoldFirstSeqLo n, Reg.dptHoldFirstSeqHi n,
    Reg.dptHoldLastSeqLo n, Reg.dptHoldLastSeqHi n] : List Nat).foldl (fun (s : State) (a : Nat) => s.set a 0) s
  s.updHold n fun _ => Hold.reset

/-- A releasing slot frees its blocks once no segment from them is unsettled (R199). -/
def releaseComplete (n : Fin 4) (s : State) : State :=
  let bs := s.slotBlocks n
  if s.holdState n != 6
      || s.lnk.streams.any (fun (x : Stream) => x.segs.any fun g => g.parts.any fun p => s.itemIn bs p.1) then s
  else
    let ops := (s.dpt.holds.get n).releaseOps
    (s.freeHold n).opsDone ops St.ok []

/-! ### Scrubbing (R204–R207) -/

/-- Ring writes are enabled: by the host (RING_EN) and by the mode (R346). -/
def State.ringOn (s : State) : Bool := s.bit Reg.dptCtrl 0 && s.modes.ringMode && s.modes.depot

/-- The line to scrub: Ring blocks are passed over while Ring writes are enabled. -/
def State.scrubTarget (s : State) : Nat :=
  let skip (b : Nat) : Bool := s.ringOn && (s.mapEnt b).owner == 1
  let b := s.dpt.scrubLine / 4096
  if !skip b then s.dpt.scrubLine
  else match (List.range (s.fitted - b)).find? fun i => !skip (b + i) with
    | some i => (b + i) * 4096
    | none => 0

/-- The pass in progress has run more than 10% over its period (R204). -/
def State.scrubLate (s : State) : Bool :=
  let period := secU (60 * s.fld Reg.dptScrubCfg 13 0)
  decide (period + period / 10 < s.tim.now - s.dpt.passStart)

/-- LAGGING is set as soon as a pass is late, steps or no steps (R204). -/
def State.scrubLag (s : State) : State :=
  if s.modes.depot && s.bit Reg.dptScrubCfg 31 && s.scrubLate then s.setBit Reg.dptScrubStat 31 true else s

/-- One line scrubbed; `upset` are errors that have come into it: codeword byte and mask (R202, R204, R206, R207). -/
def scrubStep (upset : List (Nat × Byte)) (s : State) : State :=
  if !s.modes.depot || !s.bit Reg.dptScrubCfg 31 || !s.bit Reg.pwrGrant 1 then s
  else
    let l := s.scrubTarget
    let s := if s.ringOn then
        s.decodeBlocks ((List.range (l / 4096 + 1 - s.dpt.scrubLine / 4096)).map fun i => s.dpt.scrubLine / 4096 + i) .mapLookup
      else s
    let add (errs : List (Nat × Nat × Byte)) (x : Nat × Byte) : List (Nat × Nat × Byte) :=
      let old := ((errs.find? fun e => e.1 = l && e.2.1 = x.1 % 72).map fun e => e.2.2).getD 0
      (errs.filter fun e => !(e.1 == l && e.2.1 == x.1 % 72)) ++ [(l, x.1 % 72, old ^^^ x.2)]
    let s := s.withDpt fun d => { d with errs := upset.foldl add d.errs }
    let s := (s.readLine l .scrubber).2
    let total := s.fitted * 4096
    let late := s.scrubLate
    if total ≤ l + 1 then
      let s := ((s.bump Reg.dptScrubPasses).setFld Reg.dptScrubStat 9 0 0).setBit Reg.dptScrubStat 31 late
      s.withDpt fun d => { d with scrubLine := 0, passStart := s.tim.now }
    else
      let s := (s.setFld Reg.dptScrubStat 9 0 ((l + 1) * 1000 / total))
      let s := if late then s.setBit Reg.dptScrubStat 31 true else s
      s.withDpt fun d => { d with scrubLine := l + 1 }

/-- The walk over all map entries, once every DPT_SCRUB_MAP seconds; `upset` are errors that have come into codewords
(R205). -/
def scrubMapPass (upset : List (Nat × BitVec 72)) (s : State) : State :=
  if !s.modes.depot || !s.bit Reg.dptScrubCfg 31 || s.tim.now < s.dpt.mapAt + secU (s.fld Reg.dptScrubMap 11 0) then s
  else
    let s := s.withDpt fun d =>
      { d with mapAt := s.tim.now, mapErrs := upset.foldl (fun l x => putK x.1 (((lookupK x.1 l).getD 0) ^^^ x.2) l) d.mapErrs }
    (s.dpt.mapErrs.map fun x => x.1).foldl (fun (s : State) (b : Nat) => s.checkMap b .scrubber) s

/-- Every DPT_LEAK milliseconds every bucket above 0 loses 1 (R206). -/
def bucketLeak (s : State) : State :=
  let due := s.dpt.leakAt + msU (s.fld Reg.dptLeak 15 0)
  if !s.modes.depot || s.tim.now < due then s
  else (List.range 5).foldl (fun (s : State) (i : Nat) =>
    s.setFld (Reg.dptBucket i) 15 0 (s.fld (Reg.dptBucket i) 15 0 - 1)) (s.withDpt fun d => { d with leakAt := due })

/-- A stack's temperature, and its doubled or normal refresh (R211). -/
def stackTemperature (k : Fin 4) (c : Int) (s : State) : State :=
  if !s.modes.depot || !s.bit (Reg.dptStackStat k) 0 then s
  else
    let s := s.setFld (Reg.dptStackStat k) 17 8 (unsigned 10 c)
    if 95 < c then s.setBit (Reg.dptStackStat k) 2 true
    else if c < 90 then s.setBit (Reg.dptStackStat k) 2 false else s

/-- DPT_STACKs_STAT after training: fitted stacks are trained or show FAULT (R182, R212). -/
def State.showStacks (trained : BitVec 4) (s : State) : State :=
  (List.range 4).foldl (fun (s : State) (k : Nat) =>
    let v := if s.fitted / 131072 ≤ k then 0 else if trained.getLsbD k then 3 else 9
    s.set (Reg.dptStackStat k) (BitVec.ofNat 32 v)) s

/-- Start-up step 7: the fitted stacks are trained and filled with the all-zero codeword, and the map is built (R182).
Whether every fitted stack trained. -/
def State.depotInit (trained : BitVec 4) (s : State) : Bool × State :=
  let fit := s.fitted / 131072
  let s := s.showStacks trained
  let ok := (List.range fit).all fun k => trained.getLsbD k
  (ok, { s with dpt := { Depot.reset with passStart := s.tim.now, mapAt := s.tim.now, leakAt := s.tim.now } })

/-- A write to DPT_REGION that is accepted (R178): Ring and Store are emptied, every block takes its region's owner. Every
map entry is written; an armed map flip mask meets block 0, the first of them (R210; log entry 136). -/
def State.resizeRegions (ring store hold : Nat) (s : State) : State :=
  let sys := s.fitted / 4096 - ring - store - hold
  let s := s.set Reg.dptRegion (BitVec.ofNat 32 (sys * 2 ^ 24 + hold * 2 ^ 16 + store * 2 ^ 8 + ring))
  (s.withDpt fun d =>
    { d with units := [], recs := [], dirs := [], lend := [], ringPos := none, storePos := none, mapErrs := []
             map := d.map.map fun x => (x.1, { x.2 with owner := s.regionOwner x.1, slot := 0, starts := 0 }) }).mapFlip 0

/-- DPT_MAP_SEL latches the selected entry (R181); the lookup decodes it. -/
def State.latchMap (b : Nat) (s : State) : State :=
  let s := s.checkMap b .mapLookup
  s.withDpt fun d => { d with mapSel := entWord (s.mapEnt b) }

/-! ### Meanings -/

def execCaptureClose (p : Fin 8) (s : State) : Host.Outcome State Fault Refusal :=
  run (fun s => (s.buildWindow (.prog p)).storeLongs) s

def execHitWindowClose (c : Fin 64) (s : State) : Host.Outcome State Fault Refusal :=
  run (fun s => (s.buildWindow (.hit c)).storeLongs) s

def execRecordSend (s : State) : Host.Outcome State Fault Refusal := run recordSend s

def execHoldFreeze (n : Fin 4) (s : State) : Host.Outcome State Fault Refusal := run (holdFreeze n) s

def execStoreHoldFreeze (n : Fin 4) (s : State) : Host.Outcome State Fault Refusal := run (storeHoldFreeze n) s

def execDrainComplete (n : Fin 4) (s : State) : Host.Outcome State Fault Refusal := run (drainComplete n) s

def execReleaseComplete (n : Fin 4) (s : State) : Host.Outcome State Fault Refusal := run (releaseComplete n) s

def execScrubMapPass (upset : List (Nat × BitVec 72)) (s : State) : Host.Outcome State Fault Refusal :=
  run (scrubMapPass upset) s

def execBucketLeak (s : State) : Host.Outcome State Fault Refusal := run bucketLeak s

def execStackTemperature (k : Fin 4) (celsius : Int) (s : State) : Host.Outcome State Fault Refusal :=
  run (stackTemperature k celsius) s

end Sys2Proof.Machine
end

