-- ==== Sys2Proof/Machine/Gate.lean ====
section
/-! DEFINITION. Clock gates of islands: who requests them, how they close, fail and open (R40, R222, R223, R228,
R276–R280). -/

namespace Sys2Proof.Machine

/-! ### Engines: quarantine and grant (R222, R228) -/

def State.engQuarantined (s : State) (e : Nat) : Bool := s.bit Reg.cmpQuar e

/-- The lowest-numbered GRANT engines that are enabled and not quarantined (R228). -/
def State.grantedEngines (s : State) : List Nat :=
  ((List.range 32).filter fun e => s.bit Reg.cmpEngEn e && !s.engQuarantined e).take (s.fld Reg.cmpGrant 5 0)

def State.engHolds (s : State) (e : Nat) : Bool := !(s.cmp.jobs.get (Fin.ofNat 32 e)).isEmpty

/-! ### Requests -/

/-- Requests for a gate: by Timetable, fault, host. -/
def State.gateReqs (s : State) (i : Nat) : Bool × Bool × Bool := (lookupK i s.clk.gates).getD (false, false, false)

def State.setGateReqs (i : Nat) (r : Bool × Bool × Bool) (s : State) : State :=
  { s with clk := { s.clk with gates := if r = (false, false, false) then dropK i s.clk.gates else putK i r s.clk.gates } }

/-- CLK_GATE_STAT bit of an island: engines in one register, islands 32–35 in the other. -/
def State.gated (s : State) (i : Nat) : Bool :=
  if i < 32 then s.bit Reg.clkGateStatEng i else s.bit Reg.clkGateStatMisc (i - 32)

def State.setGated (i : Nat) (b : Bool) (s : State) : State :=
  if i < 32 then s.setBit Reg.clkGateStatEng i b else s.setBit Reg.clkGateStatMisc (i - 32) b

/-- The island takes new work: not gated, not fenced, its boundary issuing. -/
def State.islandOpen (s : State) (i : Nat) : Bool :=
  !s.gated i && !s.clk.closing.contains i && !s.clk.fenced.contains i

/-- Whether a requester has cause to keep an island's gate closed (R222, R223, R276, R280). -/
def State.gateWanted (s : State) (i : Nat) : Requester → Bool
  | .timetable =>
    if i < 32 then !s.grantedEngines.contains i && !s.engHolds i
    else i == 32 && !s.bit Reg.pwrGrant 0 && s.pers.jobs.isEmpty
  | .fault => decide (i < 32) && s.engQuarantined i
  | .host =>
    if i < 32 then s.bit Reg.clkGateHostEng i
    else decide (33 ≤ i) && s.bit Reg.clkGateHostMisc (i - 33)

def withReq (r : Bool × Bool × Bool) (b : Requester) (v : Bool) : Bool × Bool × Bool :=
  match b with
  | .timetable => (v, r.2.1, r.2.2)
  | .fault => (r.1, v, r.2.2)
  | .host => (r.1, r.2.1, v)

/-- A request stops the island's boundary from issuing; requests from several sources merge (R40, R278). -/
def gateRequest (i : Nat) (b : Requester) (s : State) : State :=
  if !s.modes.control || !s.gateWanted i b then s
  else
    let s := s.setGateReqs i (withReq (s.gateReqs i) b true)
    if s.gated i || s.clk.closing.contains i then s
    else { s with clk := { s.clk with closing := s.clk.closing ++ [i] } }

/-- The handshake is idle: the gate closes (R40). -/
def gateClosed (i : Nat) (s : State) : State :=
  if s.clk.closing.contains i then
    { s.setGated i true with clk := { s.clk with closing := s.clk.closing.filter fun x => x != i } }
  else s

/-- The handshake has not become idle within 2 µs: the request fails and is counted. The Timetable asks again at its
next tick; a faulted island is fenced and asked again; a host's request is withdrawn (R277). -/
def gateBusy (i : Nat) (s : State) : State :=
  if s.clk.closing.contains i then
    let r := s.gateReqs i
    let s := { s with clk := { s.clk with
      closing := s.clk.closing.filter fun x => x != i
      fenced := if r.2.1 && !s.clk.fenced.contains i then s.clk.fenced ++ [i] else s.clk.fenced } }
    let s := s.setGateReqs i (r.1, r.2.1, false)
    (s.bump Reg.clkGateBusy).set Reg.clkGateLast (BitVec.ofNat 32 i)
  else s

/-- A request is withdrawn; with none left the clock runs (R276, R278). -/
def State.gateRelease (i : Nat) (b : Requester) (s : State) : State :=
  let r := withReq (s.gateReqs i) b false
  let s := s.setGateReqs i r
  if r = (false, false, false) then
    { s.setGated i false with clk := { s.clk with
      closing := s.clk.closing.filter fun x => x != i
      fenced := s.clk.fenced.filter fun x => x != i } }
  else s

def gateOpen (i : Nat) (b : Requester) (s : State) : State := if s.gateWanted i b then s else s.gateRelease i b

/-- A host write's gates close at once where the island is idle (R280). -/
def State.hostGate (i : Nat) (on : Bool) (s : State) : State :=
  if on then
    (s.setGateReqs i (withReq (s.gateReqs i) .host true)).setGated i true
  else s.gateRelease i .host

/-! ### Meanings -/

def execGateRequest (island : Fin 36) (b : Requester) (s : State) : Host.Outcome State Fault Refusal :=
  run (gateRequest island b) s

def execGateClosed (island : Fin 36) (s : State) : Host.Outcome State Fault Refusal := run (gateClosed island) s

def execGateBusy (island : Fin 36) (s : State) : Host.Outcome State Fault Refusal := run (gateBusy island) s

end Sys2Proof.Machine
end

