-- ==== Sys2Proof/Machine/Compress.lean ====
section
/-! DEFINITION. Ring units and verified block compression: building and closing of units (R183), the compressed block
(R213–R216), dispatch, outcomes, retries, deadlines and quarantine of the engines (R217–R227), and the Ring writer's
descriptor (R184, R185). -/

namespace Sys2Proof.Machine

/-! ### The compressed block (R213–R216) -/

/-- Bits of a field, most significant first. -/
def msbBits : Nat → Nat → List Bool
  | 0, _ => []
  | n + 1, v => (v / 2 ^ n % 2 == 1) :: msbBits n v

/-- Bits packed into bytes, most significant first, padded with zeros. -/
def packBits : Nat → List Bool → List Byte
  | 0, _ => []
  | n + 1, bs =>
    match bs with
    | [] => []
    | _ => BitVec.ofNat 8 ((bs.take 8 ++ List.replicate (8 - bs.length) false).foldl (fun a b => 2 * a + b.toNat) 0)
        :: packBits n (bs.drop 8)

def wrap14 (x : Int) : Int := (x + 8192) % 16384 - 8192

/-- A residual as an unsigned value (R215). -/
def mapResidual (d : Int) : Nat := if 0 ≤ d then (2 * d).toNat else (-2 * d - 1).toNat

/-- Bits that a value takes under K; 30 for an escape. -/
def valueCost (k u : Nat) : Nat := if k = 15 then 14 else if u / 2 ^ k < 16 then u / 2 ^ k + 1 + k else 30

def groupCost (us : List Nat) (k : Nat) : Nat := (us.map fun u => valueCost k u).sum

/-- K of a group (R216): 14 where all is 0, else the cheapest of 0–13 and 15, the lowest on a tie. -/
def chooseK (us : List Nat) : Nat :=
  if us.all fun u => u == 0 then 14
  else (([1, 2, 3, 4, 5, 6, 7, 8, 9, 10, 11, 12, 13, 15] : List Nat).foldl (fun (b : Nat) (k : Nat) =>
    if groupCost us k < groupCost us b then k else b) 0)

/-- A value as K codes it (R215). -/
def codeValue (k u : Nat) : List Bool :=
  if k = 14 then []
  else if k = 15 then msbBits 14 u
  else if u / 2 ^ k < 16 then List.replicate (u / 2 ^ k) true ++ [false] ++ msbBits k (u % 2 ^ k)
  else List.replicate 16 true ++ msbBits 14 u

/-- Values of a group's words, given the code before it. -/
def groupValues : Int → List Sample → List Nat
  | _, [] => []
  | prev, w :: ws => mapResidual (wrap14 (codeOf w - prev)) :: groupValues (codeOf w) ws

/-- One group: header, tags where they change, values. -/
def codeGroup (tag : Nat) (prev : Int) (ws : List Sample) : List Bool :=
  let us := groupValues prev ws
  let k := chooseK us
  let same := ws.all fun w => tagOf w == tag
  [!same] ++ msbBits 4 k ++ (if same then [] else ws.flatMap fun w => msbBits 2 (tagOf w)) ++ us.flatMap (codeValue k)

/-- The coded stream of a word sequence, group by group. -/
def codeStream : Nat → Nat → Int → List Sample → List Bool
  | 0, _, _, _ => []
  | n + 1, tag, prev, ws =>
    let g := ws.take 64
    match g.getLast? with
    | none => []
    | some l => codeGroup tag prev g ++ codeStream n (tagOf l) (codeOf l) (ws.drop 64)

/-- The unit's words as bytes (R184). -/
def wordBytes (ws : List Sample) : List Byte := ws.flatMap fun w => beBytes 2 w.toNat

/-- The whole compressed block of a unit (R213). -/
def compressed (ws : List Sample) : List Byte :=
  let stream := codeStream 512 0 0 ws
  let body := packBits ((stream.length + 7) / 8) stream
  beBytes 2 0x5343 ++ beBytes 1 1 ++ beBytes 1 1 ++ beBytes 4 65536 ++ beBytes 4 (16 + body.length)
    ++ beBytes 4 (crc32c (wordBytes ws)).toNat ++ body

/-! ### Units (R183–R185) -/

def State.withCmp (f : Cmp → Cmp) (s : State) : State := { s with cmp := f s.cmp }

/-- Frame slots of a unit. -/
def UnitB.frames (u : UnitB) : Nat := if u.ilv then 4 else 8
def UnitB.full (u : UnitB) : Bool := decide (u.frames ≤ u.status.length)
def UnitB.slotWords (u : UnitB) : Nat := if u.ilv then 2 * framePeriods else framePeriods

/-- A frame slot of a channel: into the unit that is open, or into a new one (R183). -/
def State.addSlot (c : Nat) (wide : Bool) (first : Nat) (st : BitVec 2) (fl : Byte) (ws : List Sample) (s : State) : State :=
  match s.cmp.building.find? fun (u : UnitB) => u.chan = c && !u.closed && !u.full with
  | some u =>
    s.withCmp fun x => { x with building := x.building.map fun (v : UnitB) =>
      if v.chan = c && v.first = u.first then
        { v with status := v.status ++ [st], flags := v.flags ++ [fl], words := v.words ++ ws } else v }
  | none =>
    s.withCmp fun x => { x with building := x.building ++
      [⟨c, wide, first, s.stampOf first, [st], [fl], ws, false⟩] }

/-- A channel's open unit closes early; the slots left carry the status (R183, R224). -/
def State.closeUnit (c : Nat) (st : BitVec 2) (s : State) : State :=
  s.withCmp fun x => { x with building := x.building.map fun (u : UnitB) =>
    if u.chan = c && !u.closed && !u.full then
      let n := u.frames - u.status.length
      { u with status := u.status ++ List.replicate n st, flags := u.flags ++ List.replicate n 0,
               words := u.words ++ List.replicate (n * u.slotWords) 0, closed := true }
    else u }

def State.closeUnits (cs : List Nat) (st : BitVec 2) (s : State) : State :=
  cs.foldl (fun (s : State) (c : Nat) => s.closeUnit c st) s

/-- A unit is ready for the Ring writer, compressed or raw. -/
def State.addReady (u : UnitB) (comp eng : Bool) (body : List Byte) (s : State) : State :=
  s.withCmp fun x => { x with ready := x.ready ++ [⟨u, comp, eng, body⟩] }

def State.readyRaw (eng : Bool) (u : UnitB) (s : State) : State := s.addReady u false eng (wordBytes u.words)

/-- The 64-byte descriptor of a unit (R184). -/
def descriptorBytes (r : Ready) (seq block offset : Nat) : List Byte :=
  let u := r.unit
  let st := (withIdx u.status).foldl (fun a (x : Nat × BitVec 2) => a + x.2.toNat * 4 ^ x.1) 0
  let body := beBytes 1 (if r.compressed then 2 else 1) ++ beBytes 1 ((if u.ilv then 128 else 0) + u.chan)
    ++ beBytes 1 u.frames ++ beBytes 1 0 ++ beBytes 2 st ++ beBytes 2 0
    ++ (u.flags ++ List.replicate (8 - u.flags.length) 0) ++ wideBytes u.time ++ beBytes 8 seq ++ beBytes 4 block
    ++ beBytes 4 offset ++ beBytes 4 r.body.length ++ beBytes 4 (crc32c (wordBytes u.words)).toNat ++ beBytes 4 0
  body ++ beBytes 4 (crc32c body).toNat

def State.unitSeq (s : State) : Nat := (s.get64 Reg.dptUnitSeqLo Reg.dptUnitSeqHi).toNat

/-- Times of the first and last present sample of a unit (R187). -/
def UnitB.span (u : UnitB) : Option (Nat × Nat) :=
  let present := (withIdx u.status).filter fun (x : Nat × BitVec 2) => x.2 == 0
  match present.head?, present.getLast? with
  | some a, some b =>
    some (u.time + a.1 * framePeriods * periodU,
      u.time + (b.1 + 1) * framePeriods * periodU - (if u.ilv then periodU / 2 else periodU))
  | _, _ => none

/-- The Ring writer places the first ready unit (R184, R185). -/
def ringUnitWrite (s : State) : State :=
  match s.cmp.ready with
  | [] => s
  | r :: rest =>
    if !s.modes.depot then s
    else
      let s := s.withCmp fun x => { x with ready := rest }
      let q := s.unitSeq
      let (b, off, gens, s) := s.allocate true 63 ((r.body.length + 63) / 64)
      let d := descriptorBytes r q b off
      let s := s.writeItem gens off (cellsOf (stackIsland b) (if r.fromEngine then 4 else 1) 4 r.body)
      let sp := r.unit.span
      let s := s.withDpt fun x => { x with units := x.units ++
        [⟨q, r.unit.chan, b, off, r.body.length, d, gens, (sp.map fun y => y.1).getD r.unit.time,
          (sp.map fun y => y.2).getD r.unit.time, sp.isSome⟩] }
      let s := s.withCmp fun x =>
        { x with unitBytes := x.unitBytes + 65536, storedBytes := x.storedBytes + r.body.length
                 inBytes := if r.compressed then x.inBytes + 65536 else x.inBytes
                 outBytes := if r.compressed then x.outBytes + r.body.length else x.outBytes }
      (s.set64 Reg.dptUnitSeqLo Reg.dptUnitSeqHi (q + 1)).ringDirectories

/-! ### Dispatch (R218, R223) -/

def State.jobs (s : State) (e : Fin 32) : List Job := s.cmp.jobs.get e

def State.updJobs (e : Fin 32) (f : List Job → List Job) (s : State) : State :=
  s.withCmp fun x => { x with jobs := upd x.jobs e f }

def allEngines : List (Fin 32) := (List.range 32).map fun i => Fin.ofNat 32 i

/-- CMP_CH_EN of a channel. -/
def State.cmpChan (s : State) (c : Nat) : Bool := (s.get64 Reg.cmpChEnLo Reg.cmpChEnHi).getLsbD c

def State.eligible (s : State) (c : Nat) (e : Fin 32) : Bool :=
  s.bit Reg.cmpEngEn e && !s.engQuarantined e && s.grantedEngines.contains e.val && s.cmpChan c

/-- One of the two input slots is free and the engine's island takes work. -/
def State.freeSlot (s : State) (e : Fin 32) : Bool := decide ((s.jobs e).length < 2) && s.islandOpen e

/-- Engines in round-robin order after the last one given a unit. -/
def State.roundRobin (s : State) : List (Fin 32) :=
  (List.range 32).map fun i => Fin.ofNat 32 (s.cmp.lastEng + 1 + i)

/-- The job that an engine works on: the first that neither waits for a retry engine nor is lent to one. -/
def activeJob (js : List Job) : Option Job := js.find? fun j => !j.waiting && !j.lent

/-- Blocks are told apart by channel and first sample time. -/
def sameBlock (a b : UnitB) : Bool := a.chan == b.chan && a.time == b.time && a.first == b.first

/-- An engine begins its next block; an armed injection corrupts the next first attempt (R226). -/
def State.startEngine (e : Fin 32) (s : State) : State :=
  match activeJob (s.jobs e) with
  | none => s
  | some j =>
    if j.started then s
    else
      let c := s.get Reg.cmpInject
      let hit := j.first.isNone && c.getLsbD 0 && bits c 20 16 == e.val
      let s := s.updJobs e fun js => js.map fun (x : Job) =>
        if sameBlock x.unit j.unit then
          { x with started := true, inject := if hit then true else x.inject,
                   injectRetry := if hit then c.getLsbD 1 else x.injectRetry } else x
      if hit then (s.setBit Reg.cmpInject 0 false).setBit Reg.cmpInject 8 true else s

def State.startEngines (s : State) : State := allEngines.foldl (fun (s : State) (e : Fin 32) => s.startEngine e) s

/-- A block leaves every slot that it occupies. -/
def State.dropBlock (u : UnitB) (s : State) : State :=
  s.withCmp fun x => { x with jobs := x.jobs.map fun js => js.filter fun (j : Job) => !sameBlock j.unit u }

/-- A waiting retry goes to another eligible engine with a free slot, ahead of what has not begun there, or is Unresolved
when none is left (R219, R220, R223). -/
def State.offerRetry (e : Fin 32) (j : Job) (s : State) : State :=
  let others := s.roundRobin.filter fun x => x != e && s.eligible j.unit.chan x
  if others.isEmpty then ((s.dropBlock j.unit).readyRaw false j.unit).bump Reg.cmpUnresolved
  else match others.find? fun x => s.freeSlot x with
    | none => s
    | some r =>
      let s := s.updJobs e fun js => js.map fun (x : Job) =>
        if sameBlock x.unit j.unit then { x with waiting := false, lent := true } else x
      s.updJobs r fun js => (js.filter fun (x : Job) => x.started)
        ++ { j with first := some e.val, waiting := false, lent := false, started := false, inject := j.injectRetry }
        :: js.filter fun (x : Job) => !x.started

/-- Waiting retries, engine by engine. -/
def State.waitingJobs (s : State) : List (Fin 32 × Job) :=
  allEngines.flatMap fun e => ((s.jobs e).filter fun j => j.waiting).map fun j => (e, j)

/-- Every waiting retry is offered, and offered again where another one that went raw has freed a slot: each round settles
one or leaves all as they are. -/
def State.offerRetries (s : State) : State :=
  (s.waitingJobs.foldl (fun (s : State) (_ : Fin 32 × Job) =>
    s.waitingJobs.foldl (fun (s : State) (x : Fin 32 × Job) => s.offerRetry x.1 x.2) s) s).startEngines

/-- An island's clock runs again; a retry that waited for an engine is offered to it at once (R220). -/
def gateOpens (i : Nat) (b : Requester) (s : State) : State := (gateOpen i b s).offerRetries

/-- The oldest complete unit of a channel is offered to an engine or goes raw (R218). -/
def unitComplete (c : Nat) (s : State) : State :=
  match s.cmp.building.find? fun (u : UnitB) => u.chan = c && u.full with
  | none => s
  | some u =>
    let s := s.withCmp fun x => { x with building := x.building.filter fun (v : UnitB) => !(sameBlock v u) }
    let ready := s.roundRobin.filter fun e => s.eligible c e
    if !s.bit Reg.cmpCtrl 0 || ready.isEmpty then s.readyRaw false u
    else match ready.find? fun e => s.freeSlot e with
      | none => (s.readyRaw false u).bump Reg.cmpRawBusy
      | some e =>
        let s := s.updJobs e fun js => js ++ [⟨u, s.tim.now, s.tim.now + usU (s.fld Reg.cmpDeadline 6 0), none,
              false, false, false, false, false⟩]
        (s.withCmp fun x => { x with lastEng := e.val }).startEngines

/-! ### Outcomes (R219–R222) -/

/-- A verified block is stored compressed. -/
def State.settleVerified (u : UnitB) (body : List Byte) (s : State) : State :=
  let s := (s.dropBlock u).addReady u true true body
  (s.bump64 Reg.cmpBytesInLo Reg.cmpBytesInHi 65536).bump64 Reg.cmpBytesOutLo Reg.cmpBytesOutHi body.length

/-- The third lasting fault of an engine within 1 s quarantines it; what its other slot holds goes raw (R222). -/
def State.lastingFault (f : Fin 32) (s : State) : State :=
  let s := s.bumpFld (Reg.cmpEngFault f) 15 0 1
  let ts := (((lookupK f.val s.cmp.faults).getD []).filter fun t => decide (s.tim.now ≤ t + secU 1)) ++ [s.tim.now]
  let s := s.withCmp fun x => { x with faults := putK f.val ts x.faults }
  if ts.length < 3 then s
  else
    let s := (s.setBit Reg.cmpQuar f true).attend Atn.cmp
    (s.jobs f).foldl (fun (s : State) (j : Job) => ((s.dropBlock j.unit).readyRaw true j.unit).bump Reg.cmpRawBusy) s

/-- An engine's attempt has ended; the encoder's own output is compared as the verifier saw it (R219, R220). -/
def engineResult (e : Fin 32) (mismatch : Bool) (s : State) : State :=
  match activeJob (s.jobs e) with
  | none => s
  | some j =>
    let body := compressed j.unit.words
    let noGain := decide (65536 ≤ body.length)
    let bad := mismatch || j.inject
    let s := match j.first with
      | none =>
        if noGain then (((s.dropBlock j.unit).readyRaw true j.unit).bump Reg.cmpNoGain).bump (Reg.cmpEngBlocks e)
        else if bad then s.updJobs e fun js => js.map fun (x : Job) =>
          if sameBlock x.unit j.unit then { x with waiting := true } else x
        else ((s.settleVerified j.unit body).bump Reg.cmpCompBlocks).bump (Reg.cmpEngBlocks e)
      | some f =>
        let f : Fin 32 := Fin.ofNat 32 f
        if noGain || bad then
          (((s.dropBlock j.unit).readyRaw true j.unit).bump (Reg.cmpEngBlocks e)).lastingFault f
        else ((s.settleVerified j.unit body).bumpFld (Reg.cmpEngFault f) 31 16 1).bump (Reg.cmpEngBlocks e)
    s.offerRetries

/-- Blocks of an engine that are unsettled at the deadline go raw (R221). -/
def cmpDeadlineExpire (e : Fin 32) (s : State) : State :=
  let late := (s.jobs e).filter fun j => decide (j.due ≤ s.tim.now)
  (late.foldl (fun (s : State) (j : Job) =>
    let s := (s.dropBlock j.unit).readyRaw false j.unit
    if j.waiting then s.bump Reg.cmpUnresolved else s.bump Reg.cmpLate) s).offerRetries

/-- Writing 1 to the CMP_QUAR bit of a quarantined engine releases it and restarts its fault window (R222). -/
def State.releaseEngines (on : Word) (s : State) : State :=
  let mask := on &&& s.get Reg.cmpQuar
  let s := s.set Reg.cmpQuar (s.get Reg.cmpQuar &&& ~~~mask)
  s.withCmp fun x => { x with faults := x.faults.filter fun (f : Nat × List Nat) => !mask.getLsbD f.1 }

/-- CMP_RATIO at the end of a Timetable period, and the sums begun afresh (R227). -/
def State.cmpTick (s : State) : State :=
  let s := if s.cmp.storedBytes = 0 then s.setFld Reg.cmpRatio 15 0 0
    else s.setFld Reg.cmpRatio 15 0 (min 65535 (s.cmp.unitBytes * 256 / s.cmp.storedBytes))
  s.withCmp fun x => { x with inBytes := 0, outBytes := 0, unitBytes := 0, storedBytes := 0 }

/-- The data domain is off: units and blocks in engines are gone (R21); quarantines last until a reset (R359). -/
def State.cmpOff (s : State) : State := { s with cmp := Cmp.reset }

/-! ### Meanings -/

def execUnitComplete (c : Fin 64) (s : State) : Host.Outcome State Fault Refusal := run (unitComplete c) s

def execEngineResult (e : Fin 32) (mismatch : Bool) (s : State) : Host.Outcome State Fault Refusal :=
  run (engineResult e mismatch) s

def execCmpDeadlineExpire (e : Fin 32) (s : State) : Host.Outcome State Fault Refusal := run (cmpDeadlineExpire e) s

def execGateOpen (island : Fin 36) (b : Requester) (s : State) : Host.Outcome State Fault Refusal :=
  run (gateOpens island b) s

def execRingUnitWrite (s : State) : Host.Outcome State Fault Refusal := run ringUnitWrite s

end Sys2Proof.Machine
end

