-- ==== Sys2Proof/Machine/Fork.lean ====
section
/-! DEFINITION. The tile links: fault provocation (R316), sample frames with replay, loss and the fork to the look-back
buffer, the open windows and the Ring (R27–R29, R183, R310, R311), and the switch stream (R69–R73, R145, R312). -/

namespace Sys2Proof.Machine

/-! ### Fault provocation (R316) -/

/-- The provocation has acted: ARM clears and DONE is set. -/
def State.provDone (i : Nat) (s : State) : State :=
  (s.setBit (Reg.lnkProvCtrl i) 31 false).setBit (Reg.lnkProvCtrl i) 16 true

/-- A frame passes target i in direction `dir` (0 sent, 1 received): frames are counted from 1 at the first after ARM. -/
def State.provoke (i dir : Nat) (s : State) : Provoked × State :=
  let c := s.get (Reg.lnkProvCtrl i)
  if !c.getLsbD 31 || bits c 8 8 != dir then (.pass, s)
  else
    let n := ((lookupK i s.lnk.prov).getD 0) + 1
    let s := { s with lnk := { s.lnk with prov := putK i n s.lnk.prov } }
    let m := (s.get (Reg.lnkProvN i)).toNat
    let k := s.fld (Reg.lnkProvK i) 31 16
    match bits c 2 0 with
    | 1 => (if m ≠ 0 ∧ n % m = 0 then .drop else .pass, s)
    | 2 => if n = m then (.xor (s.fld (Reg.lnkProvK i) 15 0) (s.get (Reg.lnkProvPat i)), s.provDone i) else (.pass, s)
    | 3 => if n = m then (.swapFirst, s) else if n = m + 1 then (.swapSecond, s.provDone i) else (.pass, s)
    | 4 =>
      if m ≤ n ∧ n < m + k then (.drop, if n + 1 = m + k then s.provDone i else s) else (.pass, s)
    | _ => (.pass, s)

/-! ### What samples, and what is kept in the Ring -/

/-- SLC_SAMPLING set, in force for frames from a period on (R68, R89, R368). A channel that begins to sample does so in
the range with which it starts (R67). -/
def State.setSampling (t : Fin 4) (mask : BitVec 16) (from_ : Nat) (s : State) : State :=
  ((s.rangesStart t (mask &&& ~~~s.samplingMask t) from_).setFld (Reg.slcSampling t) 15 0 mask.toNat).updTile t fun x =>
    { x with masks := ((from_, mask) :: x.masks).take 16 }

/-- Channels now shed, lost tiles included. -/
def State.shedChans (s : State) : BitVec 64 := s.get64 Reg.pwrShedChLo Reg.pwrShedChHi

/-- Enabled channels of a tile but for the odd ones of pairs. -/
def State.enabledMask (s : State) (t : Fin 4) : BitVec 16 :=
  (List.range 16).foldl (fun (m : BitVec 16) (k : Nat) =>
    if s.bit (Reg.slcChen t) k && !s.silent t k then m ||| bitOf 16 k else m) 0

/-- What a powered tile samples while sampling is on: enabled and not shed. -/
def State.wantedMask (s : State) (t : Fin 4) : BitVec 16 :=
  if s.tilePowered t then s.enabledMask t &&& ~~~((s.shedChans >>> (16 * t.val)).setWidth 16) else 0

def State.ringAt (s : State) (first : Nat) : Bool :=
  match s.modes.ringEdges.find? fun (e : Nat × Bool) => decide (e.1 ≤ first) with
  | some e => e.2
  | none => false

/-- Ring writes follow RING_EN and the mode from a frame boundary on (R183, R212, R346). -/
def State.followRing (from_ : Nat) (s : State) : State :=
  if (s.modes.ringEdges.head?.map fun e => e.2) = some s.ringOn then s
  else { s with modes := { s.modes with ringEdges := ((from_, s.ringOn) :: s.modes.ringEdges).take 16 } }

/-! ### The sample frame (R310) -/

/-- One byte into the lane CRC: polynomial 0x1021, most significant bit first. -/
def crc16Byte (c : BitVec 16) (b : Byte) : BitVec 16 :=
  let step (x : BitVec 16) : BitVec 16 := if x.getLsbD 15 then (x <<< 1) ^^^ 0x1021 else x <<< 1
  step (step (step (step (step (step (step (step (c ^^^ (b.setWidth 16 <<< 8)))))))))

/-- CRC-16 of a lane's bytes: initial value 0xFFFF, no final XOR. -/
def crc16 (l : List Byte) : BitVec 16 := l.foldl crc16Byte 0xFFFF

/-- The bytes of a lane: 8-byte units, unit u on lane u mod 16. -/
def laneBytes (l : Nat) (body : List Byte) : List Byte :=
  ((withIdx body).filter fun (x : Nat × Byte) => x.1 / 8 % 16 == l).map fun (x : Nat × Byte) => x.2

/-- Header and payload of a frame: VERSION, TILE, KIND, GAP, FRAME_NO, CH_FLAGS, SAMPLING, ILV, the words. -/
def frameBody (t no : Nat) (gap : Bool) (flags : List Byte) (mask : BitVec 16) (ilv : BitVec 8) (words : List Sample) :
    List Byte :=
  beBytes 1 1 ++ beBytes 1 t ++ beBytes 1 1 ++ beBytes 1 gap.toNat ++ beBytes 4 no ++ flags ++ beBytes 2 mask.toNat
  ++ beBytes 1 ilv.toNat ++ beBytes 5 0 ++ words.flatMap fun (x : Sample) => beBytes 2 x.toNat

/-- Bytes 0–131,103 of a frame, which its CRCs cover. -/
def bodyBytes : Nat := 131104

/-- The whole frame: the sixteen lane CRCs and the CRC follow its body. -/
def frameOctets (body : List Byte) : List Byte :=
  body ++ (List.range 16).flatMap (fun (l : Nat) => beBytes 2 (crc16 (laneBytes l body)).toNat)
  ++ beBytes 4 (crc32c body).toNat

/-- Octets with some of them changed on the way. -/
def damage (errs : List (Nat × Byte)) (octets : List Byte) : List Byte :=
  errs.foldl (fun (o : List Byte) (e : Nat × Byte) => o.set e.1 (o.getD e.1 0 ^^^ e.2)) octets

/-- Lanes whose CRC fails in a received frame. -/
def failingLanes (octets : List Byte) : BitVec 16 :=
  let body := octets.take bodyBytes
  (List.range 16).foldl (fun (m : BitVec 16) (l : Nat) =>
    if ofBytes ((octets.drop (bodyBytes + 2 * l)).take 2) = (crc16 (laneBytes l body)).toNat then m else m ||| bitOf 16 l) 0

/-- The CRC over a received frame's body holds. -/
def frameCrcOk (octets : List Byte) : Bool :=
  ofBytes ((octets.drop (bodyBytes + 32)).take 4) == (crc32c (octets.take bodyBytes)).toNat

/-- Two-byte words from a list of bytes. -/
def wordsOf : Nat → List Byte → List Sample
  | 0, _ => []
  | n + 1, bs => BitVec.ofNat 16 (ofBytes (bs.take 2)) :: wordsOf n (bs.drop 2)

/-! ### Frames received (R310, R311) -/

/-- Flags of a channel in the frame that begins at a period (R94). -/
def State.frameFlags (s : State) (t : Fin 4) (k first : Nat) : Byte :=
  let x := s.tile t
  let own := (x.nextFlags.filter fun (f : Nat × Nat × Byte) => f.1 == first && f.2.1 == k).foldl
    (fun (a : Byte) (f : Nat × Nat × Byte) => a ||| f.2.2) 0
  let relief := x.spans.any fun (p : Nat × Nat × Option Nat) => s.servesOf t p.1 == k && spanHolds first p.2.1 p.2.2
  own ||| (if relief then 4 else 0)

/-- CH_FLAGS of a frame: those of the channels that sample, a pair's in its even channel (R94, R310). -/
def State.chFlags (s : State) (t : Fin 4) (first : Nat) : List Byte :=
  (List.range 16).map fun k =>
    if (s.maskAt t first).getLsbD k && !s.silent t k then s.frameFlags t k first else 0

/-- A frame's samples join every window that reaches into it; those of a long-path record go to the Store (R29, R160). -/
def State.feedWindows (t : Fin 4) (f : Frame) (s : State) : State :=
  let s := { s with sbx := { s.sbx with
        hits := s.sbx.hits.map fun (w : Win) => addFrame t f w
        closing := s.sbx.closing.map fun (w : Win) => addFrame t f w
        progs := s.sbx.progs.map fun (x : Prog) => { x with win := x.win.map fun (w : Win) => addFrame t f w } } }
  let longs := (s.sbx.hits ++ s.sbx.closing ++ s.sbx.progs.toList.filterMap fun (x : Prog) => x.win).filter fun (w : Win) => w.long
  longs.foldl (fun (s : State) (w : Win) =>
    (framePieces t f w.chans w.ilv).foldl (fun (s : State) (p : Piece) => s.storePiece w p) s) s

/-- A frame's part for the Ring: a slot for every channel that samples and is kept; units of the others close early,
0b11 where the Ring is off or the channel shed, else 0b10 (R27, R183). -/
def State.feedRing (t : Fin 4) (f : Frame) (s : State) : State :=
  (List.range 16).foldl (fun (s : State) (k : Nat) =>
    let c := 16 * t.val + k
    let wide := f.ilv.getLsbD (k / 2)
    if wide && k % 2 == 1 then s
    else if f.sampling.getLsbD k && s.ringAt f.first then
      let n := if wide then 2 else 1
      let ws := if f.lost then List.replicate (n * framePeriods) 0 else chanWords k n framePeriods f.words
      s.addSlot c wide f.first (if f.lost then 1 else 0) (f.flags.getD k 0) ws
    else
      let shed := (s.get64 Reg.pwrShedChLo Reg.pwrShedChHi).getLsbD c
      s.closeUnit c (if !s.ringAt f.first || shed then 3 else 2)) s

/-- Sampling has stopped and the tile's last frame is in: its units close early with 0b10 (R183, R273, R350). -/
def State.closeAtStop (t : Fin 4) (s : State) : State :=
  match s.modes.last with
  | some l =>
    if l ≤ (s.tile t).framePeriod then
      s.closeUnits ((List.range 16).map fun k => 16 * t.val + k) 2
    else s
  | none => s

/-- The next frame of a tile is in, or lost: look-back buffer, windows, Ring (R27–R29, R311). -/
def State.takeFrame (t : Fin 4) (words : List Sample) (flags : List Byte) (lost : Bool) (s : State) : State :=
  let x := s.tile t
  let first := x.framePeriod
  let f : Frame :=
    ⟨x.frameNo, first, if lost then [] else words, if lost then List.replicate 16 0 else flags, s.maskAt t first,
      s.ilvMask t, lost, x.gapNext⟩
  let s := { s with sbx := { s.sbx with look := upd s.sbx.look t fun l => (l ++ [f]).drop (l.length + 1 - 16) } }
  let s := (s.feedWindows t f).feedRing t f
  let s := s.updTile t fun x =>
    { x with frameNo := x.frameNo + 1, framePeriod := first + framePeriods, gapNext := false
             nextFlags := x.nextFlags.filter fun (p : Nat × Nat × Byte) => decide (first < p.1)
             spans := x.spans.filter fun (p : Nat × Nat × Option Nat) => (match p.2.2 with
               | some e => decide (first < e)
               | none => true) }
  let s := if s.tilePowered t || s.maskAt t (first + framePeriods) != 0 then s
    else s.closeUnits ((List.range 16).map fun k => 16 * t.val + k) 3
  s.closeAtStop t

/-- A frame whose replay failed, or that has left the replay buffer: counted, reported, and a gap marker in its place
(R311). -/
def State.loseFrame (t : Fin 4) (s : State) : State :=
  (s.takeFrame t [] [] true).bump (Reg.lnkTlLost t) |>.attend Atn.link

/-- The words of a frame in the tile's 8-frame buffer. -/
def State.sentWords (s : State) (t : Fin 4) (first : Nat) : Option (List Sample) := lookupK first (s.tile t).sent

/-- A frame that the tile has sampled and sent, and whose every period the Signal Box has evaluated (R26). -/
def State.frameSent (s : State) (t : Fin 4) (first : Nat) : Bool :=
  decide (first + framePeriods ≤ (s.tile t).swPeriod) && decide (first + framePeriods ≤ s.sbx.period)
  && (match s.modes.last with
    | some l => decide (first < l)
    | none => s.modes.sampling)

/-- Failing lanes are counted and a replay is requested; a correct one from the tile's buffer is counted and used, else
the frame is lost (R311, R313). -/
def State.replayFrame (t : Fin 4) (lanes : BitVec 16) (ok : Bool) (s : State) : State :=
  let s := (bitList lanes).foldl (fun (s : State) (l : Nat) => s.bump (Reg.lnkTlLane t l)) s
  let first := (s.tile t).framePeriod
  match s.sentWords t first with
  | some ws => if ok && !s.tileTraining t then (s.takeFrame t ws (s.chFlags t first) false).bump (Reg.lnkTlReplays t)
    else s.loseFrame t
  | none => s.loseFrame t

/-- Frames that FRAME_NO shows to have been skipped are in error: each passed its provocation and is replayed, with the
outcomes given in turn (R311, R316). -/
def State.replaySkipped (t : Fin 4) : Nat → List Bool → State → State
  | 0, _, s => s
  | n + 1, oks, s =>
    State.replaySkipped t n oks.tail ((s.provoke (7 + t.val) 0).2.replayFrame t 0 (oks.headD false))

/-- The checks of a frame that has come with some octets changed and with lanes that brought nothing, whose CRC fails.
Without either every CRC holds; a change that no CRC shows is used as it came. -/
def State.checkFrame (t : Fin 4) (words : List Sample) (errs : List (Nat × Byte)) (dead : BitVec 16)
    (ok : Bool) (s : State) : State :=
  let x := s.tile t
  let flags := s.chFlags t x.framePeriod
  let errs := errs.filter fun (e : Nat × Byte) => e.2 != 0
  if errs.isEmpty && dead == 0 then s.takeFrame t words flags false
  else if errs.isEmpty then s.replayFrame t dead ok
  else
    let o := damage errs (frameOctets (frameBody t.val x.frameNo x.gapNext flags (s.maskAt t x.framePeriod) (s.ilvMask t) words))
    let lanes := failingLanes o ||| dead
    if frameCrcOk o && lanes == 0 then
      s.takeFrame t (wordsOf 65536 (o.drop 32)) ((o.drop 8).take 16) false
    else s.replayFrame t lanes ok

/-- A sample frame arrives with its FRAME_NO, the octets that the link has changed and the lanes that brought nothing. The
replays that it leads to, of the frames it shows to be skipped and its own, have the outcomes `skipped` and `ok`. A frame
that has come already is dropped. -/
def sampleFrameReceived (t : Fin 4) (frameNo : Word) (errs : List (Nat × Byte)) (dead : BitVec 16) (skipped : List Bool)
    (ok : Bool) (s : State) : State :=
  let skip := (frameNo - BitVec.ofNat 32 (s.tile t).frameNo).toNat
  let first := (s.tile t).framePeriod + skip * framePeriods
  if s.tileTraining t || decide (2 ^ 31 ≤ skip) || !s.frameSent t first then s
  else match s.sentWords t first with
    | none => s
    | some words =>
      let s := s.replaySkipped t skip skipped
      let r := s.provoke (7 + t.val) 0
      match r.1 with
      | .pass | .swapSecond => r.2.checkFrame t words errs dead ok
      | .drop | .swapFirst => r.2.replayFrame t 0 ok
      | .xor o p =>
        r.2.checkFrame t words (errs ++ (withIdx (beBytes 4 p.toNat)).map fun (x : Nat × Byte) => (o + x.1, x.2)) dead ok

/-- An expected frame has not arrived 4.0 µs after it was due, and so not 4.0 µs after its last sample: it is replayed or
lost (R311). -/
def frameOverdue (t : Fin 4) (lateNs : Nat) (replayOk : Bool) (s : State) : State :=
  let first := (s.tile t).framePeriod
  if decide (4000 ≤ lateNs) && s.frameSent t first && decide (first + framePeriods + 8000 ≤ s.samplePos) then
    (s.provoke (7 + t.val) 0).2.replayFrame t 0 replayOk
  else s

/-! ### The switch stream (R69–R73, R145, R312) -/

/-- Switch bits of one period as the tile reports them: channels that do not sample and, where wire watch masks them,
channels with a fault read clear (R80, R123). -/
def State.reportMask (s : State) (t : Fin 4) (first : Nat) : BitVec 32 :=
  let m := s.maskAt t first
  let off := s.maskedChans t
  (List.range 16).foldl (fun (w : BitVec 32) (k : Nat) =>
    if m.getLsbD k && !off.contains k then w ||| bitOf 32 (2 * k) ||| bitOf 32 (2 * k + 1) else w) 0

/-- Periods evaluated in turn from the values of their samples: reported bits oldest first, and the switch states after
them. -/
def State.evalPeriods (s : State) (t : Fin 4) : Nat → List (List Int) → BitVec 32 → List (Nat × BitVec 32) × BitVec 32
  | _, [], sw => ([], sw)
  | n, vs :: rest, sw =>
    let r := s.evalPeriod t (s.maskAt t n) vs sw
    let q := State.evalPeriods s t (n + 1) rest r.1
    ((n, r.2 &&& s.reportMask t n) :: q.1, q.2)

/-- TSW outputs over the 2 ns steps of a segment: four periods a step (R73). -/
def State.tswTicks (t : Fin 4) : Nat → List (Nat × BitVec 32) → State → State
  | 0, _, s => s
  | n + 1, bs, s =>
    match bs with
    | [] => s
    | _ => State.tswTicks t n (bs.drop 4)
        (s.tswTick t ((bs.take 4).foldl (fun (w : BitVec 32) (x : Nat × BitVec 32) => w ||| x.2) 0))

/-- Periods of a tile's switch stream are lost: clear switches, SBX_SW_LOSS, SW_LOST in the windows (R145). -/
def State.loseSwitches (t : Fin 4) (first n : Nat) (s : State) : State :=
  if n = 0 then s
  else
    let ps := (List.range n).map fun i => (t.val, first + i)
    let mark (w : Win) : Win := { w with swLost := w.swLost ++ ps }
    let s := { s with sbx := { s.sbx with
        swLost := (s.sbx.swLost ++ ps).filter fun (l : Nat × Nat) => decide (s.sbx.period < l.2 + 65540)
        hits := s.sbx.hits.map mark
        closing := s.sbx.closing.map mark
        progs := s.sbx.progs.map fun (x : Prog) => { x with win := x.win.map mark } } }
    (s.bumpBy Reg.sbxSwLoss n).attend Atn.link

/-- The samples of 256 periods from the levels at the pins: 16 slots a period. -/
def State.takeSegment (s : State) (t : Fin 4) (period : Nat) (levels : List (List Int)) : List (List Taken) :=
  (withIdx levels).map fun (x : Nat × List Int) =>
    (List.range 16).map fun k => s.takeSample t (s.maskAt t (period + x.1)) (period + x.1) k (16 * x.1 + k) x.2

/-- Pinned samples are counted in CLIPS, a pair's with its even channel (R64). -/
def State.countClips (t : Fin 4) (taken : List (List Taken)) (s : State) : State :=
  (List.range 16).foldl (fun (s : State) (k : Nat) =>
    let n := (taken.map fun (p : List Taken) => ((withIdx p).filter fun (x : Nat × Taken) =>
      x.2.clip && (if s.ilv t x.1 then x.1 / 2 * 2 else x.1) == k).length).sum
    if n = 0 then s else s.wrapFld (Reg.feaChCnt t k) 31 16 n) s

/-- The hold count of a channel in automatic mode restarts after the last period of a segment in which the magnitude
reached the down level (R66). -/
def State.restartHolds (t : Fin 4) (period : Nat) (taken : List (List Taken)) (s : State) : State :=
  (List.range 16).foldl (fun (s : State) (k : Nat) =>
    let loud := (withIdx taken).filter fun (x : Nat × List Taken) => (withIdx x.2).any fun (y : Nat × Taken) =>
      y.2.loud && (if s.ilv t y.1 then y.1 / 2 * 2 else y.1) == k
    match loud.getLast? with
    | some x => s.updFront t k fun f => { f with holdFrom := max f.holdFrom (period + x.1 + 1) }
    | none => s) s

/-- A tile without power has sampled its last period: its switches, its outputs and its frames are gone (R353, R416). -/
def State.tileGone (t : Fin 4) (s : State) : State :=
  if s.tileRuns t then s
  else (s.updTile t fun x =>
    { x with sw := 0, tsw0 := { x.tsw0 with high := false, left := 0 }, tsw1 := { x.tsw1 with high := false, left := 0 }
             wires := [], voids := [], building := [] }).tswShow t

/-- Words join the frame being filled; at its last period it is sent, and kept with the seven before it (R310, R311). Range
tags from before it are forgotten but for the one still in force. -/
def State.fillFrame (t : Fin 4) (period : Nat) (words : List Sample) (s : State) : State :=
  s.updTile t fun x =>
    let all := x.building ++ words
    if (period + 256) % framePeriods != 0 then { x with building := all, swPeriod := period + 256 }
    else
      { x with building := [], swPeriod := period + 256
               sent := ((period + 256 - framePeriods, all) :: x.sent).take 8
               trimLog := trimsFrom (period + 256) x.trimLog []
               inject := x.inject.filter fun (p : Nat × Option Nat) => (match p.2 with
                 | some e => decide (period + 256 < e)
                 | none => true)
               fronts := x.fronts.map fun (f : Front) =>
                 let late := f.tags.filter fun (y : Nat × Nat) => decide (period + 256 < y.1)
                 { f with tags := late ++ (f.tags.drop late.length).take 3 } }

/-- Octets of a segment: its period number, 32 bits a period, its CRC-32C (R312). -/
def segmentOctets (period : Nat) (bits_ : List (Nat × BitVec 32)) : List Byte :=
  let body := beBytes 8 period ++ bits_.flatMap fun (x : Nat × BitVec 32) => beBytes 4 x.2.toNat
  body ++ beBytes 4 (crc32c body).toNat

/-- The bits that a segment brings; none where its CRC fails. -/
def segmentRead (period : Nat) (bits_ : List (Nat × BitVec 32)) (errs : List (Nat × Byte)) : Option (List (Nat × BitVec 32)) :=
  let errs := errs.filter fun (e : Nat × Byte) => e.2 != 0
  if errs.isEmpty then some bits_
  else
    let o := damage errs (segmentOctets period bits_)
    if ofBytes (o.drop 1032) = (crc32c (o.take 1032)).toNat then
      some ((List.range 256).map fun i =>
        (ofBytes (o.take 8) + i, BitVec.ofNat 32 (ofBytes ((o.drop (8 + 4 * i)).take 4))))
    else none

/-- A tile takes 256 sample periods: `levels` are those of its pins. Samples, clips, switches and TSW outputs follow, and
the words join the frame, whatever becomes of the segment: `link` are the octets changed on the way, none where it does
not come at all. A segment that fails its CRC, that is missing, or that falls into a retraining of the link is lost (R61,
R69, R73, R145, R312, R313). -/
def switchSegmentReceived (t : Fin 4) (period : Nat) (levels : List (List Int)) (link : Option (List (Nat × Byte))) (s : State) :
    State :=
  if period != (s.tile t).swPeriod || !(s.tilePowered t || s.maskAt t period != 0) || decide (s.samplePos < period + 256)
      || (match s.modes.last with
        | some l => decide (l ≤ period)
        | none => !s.modes.sampling) then s
  else
    let taken := s.takeSegment t period levels
    let s := ({ s with free := s.free + 5120 }.countClips t taken).restartHolds t period taken
    let r := s.evalPeriods t period (taken.map fun (p : List Taken) => p.map fun (y : Taken) => y.value) (s.tile t).sw
    let s := s.updTile t fun x => { x with sw := r.2 }
    let s := (s.tswTicks t 64 r.1).fillFrame t period (taken.flatMap fun (p : List Taken) => p.map fun (y : Taken) => y.word)
    let s := s.tileGone t
    match (if s.tileTraining t then none else link).bind (segmentRead period r.1) with
    | some bits_ =>
      let new_ := bits_.filter fun (x : Nat × BitVec 32) => decide (s.sbx.period ≤ x.1)
      { s with sbx := { s.sbx with swBuf := s.sbx.swBuf ++ new_.map fun (x : Nat × BitVec 32) => (t.val, x.1, x.2) } }
    | none => (s.loseSwitches t period 256).bump (Reg.lnkTlSwLost t)

/-! ### Lane alignment (R313) -/

def laneAlignmentLoss (t : Fin 4) (s : State) : State :=
  if s.tilePowered t && s.bit (Reg.lnkTlStat t) 0 && !s.tileTraining t then
    ((s.setBit (Reg.lnkTlStat t) 1 true).setBit (Reg.lnkTlStat t) 0 false).updTile t fun x =>
      { x with trainSince := s.tim.now }
  else s

def tileLinkRetrained (t : Fin 4) (s : State) : State :=
  if s.tileTraining t && !s.bit Reg.pwrDegraded (4 + t.val) then
    (s.setBit (Reg.lnkTlStat t) 1 false).setBit (Reg.lnkTlStat t) 0 true
  else s

/-! ### Meanings -/

def execSampleFrameReceived (t : Tile) (frameNo : Word) (errs : List (Nat × Byte)) (dead : BitVec 16)
    (skipped : List Bool) (replayOk : Bool) (s : State) : Host.Outcome State Fault Refusal :=
  run (sampleFrameReceived t frameNo errs dead skipped replayOk) s

def execFrameOverdue (t : Tile) (lateNs : Nat) (replayOk : Bool) (s : State) : Host.Outcome State Fault Refusal :=
  run (frameOverdue t lateNs replayOk) s

def execSwitchSegmentReceived (t : Tile) (period : Nat) (levels : List (List Int)) (link : Option (List (Nat × Byte)))
    (s : State) : Host.Outcome State Fault Refusal := run (switchSegmentReceived t period levels link) s

def execLaneAlignmentLoss (t : Tile) (s : State) : Host.Outcome State Fault Refusal := run (laneAlignmentLoss t) s

def execTileLinkRetrained (t : Tile) (s : State) : Host.Outcome State Fault Refusal := run (tileLinkRetrained t) s

end Sys2Proof.Machine
end

