-- ==== Sys2Proof/Machine/Links.lean ====
section
/-! DEFINITION. The Ethernet ports, BDT and the timing messages: sending and provocation of frames (R282–R287, R316),
streams, segments, acknowledgement and retransmission (R289–R298), Mainline use, switchover and exercise (R299–R304),
and the timing message set (R305–R308, R314, R315). What a received frame does stands here; Machine/Receive.lean lets it
in. -/

namespace Sys2Proof.Machine

def State.withLnk (f : Lnk → Lnk) (s : State) : State := { s with lnk := f s.lnk }

/-! ### Ports -/

def State.portUp (s : State) (p : Nat) : Bool := s.bit (Reg.lnkPortStat p) 0

/-- Before the PLL first locks, the line-path outputs run only while the XO runs (R267). -/
def State.lineOn (s : State) : Bool := s.fld Reg.clkPllStat 31 16 != 0 || s.bit (Reg.clkSrcStat 2) 4

/-- The port's controller has its clock (R267, R276). -/
def State.portClocked (s : State) (p : Nat) : Bool :=
  s.modes.control && s.lineOn && (if p = 1 then !s.gated 33 else if p = 4 || p = 5 then !s.gated 34
    else if p = 6 then !s.gated 35 else true)

def State.portLive (s : State) (p : Nat) : Bool := s.portUp p && s.portClocked p

def isMainline (p : Nat) : Bool := decide (p < 2)
def isTiming (p : Nat) : Bool := decide (2 ≤ p) && decide (p < 6)

/-- The other port of a timing pair. -/
def otherPort (p : Nat) : Nat := if p = 2 then 3 else if p = 3 then 2 else if p = 4 then 5 else 4

/-- MAC of a port: the base address and the port's offset (R284). -/
def State.portMac (s : State) (p : Nat) : BitVec 48 :=
  let base : BitVec 48 := (s.get Reg.lnkMacHi).setWidth 16 ++ s.get Reg.lnkMacLo
  base + BitVec.ofNat 48 (if p = 0 then 0 else if p = 1 then 1 else if p = 6 then 2 else if p < 4 then 3 else 4)

def State.moduleAddr (s : State) : Nat := s.fld Reg.lnkAddr 11 0

/-- A frame leaves through a port, past its provocation (R316). A frame held back for a swap leaves after this one. -/
def State.send (p : Nat) (x : Tx) (s : State) : State :=
  if !s.portLive p then s
  else
    let r := s.provoke p 0
    let held (s : State) : State :=
      match lookupK p s.lnk.heldTx with
      | some y => { s with tx := s.tx ++ [y], lnk := { s.lnk with heldTx := dropK p s.lnk.heldTx } }
      | none => s
    match r.1 with
    | .pass | .swapSecond => held (r.2.emit x)
    | .drop => r.2
    | .xor o pat => held (r.2.emit (.corrupt o pat x))
    | .swapFirst => r.2.withLnk fun l => { l with heldTx := putK p x l.heldTx }

/-! ### The order in which a timing-out port sends (R138, R251, R306) -/

/-- Time that a frame of a length takes at 10 Gb/s, preamble and gap included: 67.2 ns for the shortest (R138). -/
def lineU (len : Nat) : Nat := (max 64 len + 20) * 8 * nsU / 10

/-- The port is taken up by a frame that began at the earliest moment. -/
def State.occupy (b : Bool) (len : Nat) (s : State) : State :=
  s.withLnk fun l =>
    if b then { l with busyB := max s.tim.now l.busyB + lineU len } else { l with busyA := max s.tim.now l.busyA + lineU len }

/-- A free timing-out port sends its next frame: timing messages first, then others in arrival order. -/
def State.pumpPort (b : Bool) (s : State) : State :=
  let port : Port := if b then 5 else 3
  if s.tim.now < (if b then s.lnk.busyB else s.lnk.busyA) then s
  else match (if b then s.lnk.qB else s.lnk.qA), (if b then s.lnk.oB else s.lnk.oA) with
    | m :: rest, _ =>
      ((s.withLnk fun l => if b then { l with qB := rest } else { l with qA := rest }).occupy b 64).send port
        (.timing port m.bytes)
    | [], (x, len) :: rest =>
      ((s.withLnk fun l => if b then { l with oB := rest } else { l with oA := rest }).occupy b len).send port x
    | [], [] => s

def State.pump (s : State) : State := (s.pumpPort false).pumpPort true

/-- A frame that is no PTP event and no timing message: at a timing-out port it waits its turn (R306). -/
def State.sendOther (p : Nat) (len : Nat) (x : Tx) (s : State) : State :=
  if p = 3 then (s.withLnk fun l => { l with oA := l.oA ++ [(x, len)] }).pumpPort false
  else if p = 5 then (s.withLnk fun l => { l with oB := l.oB ++ [(x, len)] }).pumpPort true
  else s.send p x

/-- A PTP event message goes ahead of all that waits at a timing-out port, and takes it up (R251, R306). -/
def State.sendEvent (p : Nat) (x : Tx) (s : State) : State :=
  let s := s.send p x
  if p = 3 then s.occupy false 64 else if p = 5 then s.occupy true 64 else s

/-- Largest frame of a port (R282). -/
def maxFrame (p : Nat) : Nat := if isMainline p then 9018 else 1522

/-- The checks of R283, R285 and R288 past the FCS. -/
def State.frameOk (s : State) (p : Nat) (f : FrameFacts) : Bool :=
  decide (64 ≤ f.length) && decide (f.length ≤ maxFrame p) && !f.vlan && !f.pause
  && (f.etherType == 0x0800 || f.etherType == 0x0806 || f.etherType == 0x88F7 || (isTiming p && f.etherType == 0x88B5))
  && (match f.ip with
    | some i => f.etherType == 0x0800 && i.version == 4 && i.ihl == 5 && i.headerOk && !i.fragment
        && i.dst == s.get Reg.lnkIp && i.proto == 17 && (i.dport == 21332 || i.dport == 21333) && i.udpOk
        && !(p == 6 && i.dport == 21333)
    | none => f.etherType != 0x0800)

def State.countRx (p : Nat) (s : State) : State := s.bump (Reg.lnkPortRx p)

def State.countDrop (p : Nat) (s : State) : State := s.bump (Reg.lnkPortDrop p)

/-- RS-FEC codewords of a Mainline (R282, R317). -/
def State.countFec (p : Nat) (f : FrameFacts) (s : State) : State :=
  if isMainline p then (s.bumpBy (Reg.lnkPortFecCorr p) f.fecCorr).bumpBy (Reg.lnkPortFecUncorr p) f.fecUncorr else s

/-- A frame that fails a port check: FCS or DROP counts it (R283). -/
def frameDropped (p : Nat) (f : FrameFacts) (s : State) : State :=
  let s := s.countFec p f
  if !f.fcsOk then s.bump (Reg.lnkPortFcs p)
  else if s.frameOk p f then s.countRx p else (s.countRx p).countDrop p

/-- IPv4 to LNK_IP and ARP for it end at the module (R305); every accepted IPv4 frame is one to LNK_IP (R285). -/
def State.consumes (s : State) (f : FrameFacts) : Bool :=
  f.etherType == 0x0800 || (f.etherType == 0x0806 && f.arpTarget == some (s.get Reg.lnkIp))

/-- Any other accepted frame goes on to the other port of its pair (R305). The timing messages that R307 lets in come as
commands of their own: what else bears their EtherType is dropped and counted. -/
def frameForward (p : Nat) (f : FrameFacts) (bytes : List Byte) (s : State) : State :=
  if !f.fcsOk || !s.frameOk p f then frameDropped p f s
  else
    let t := (s.countFec p f).countRx p
    if f.etherType = 0x88B5 then t.countDrop p
    else if isTiming p && !s.consumes f then
      t.sendOther (otherPort p) f.length (.forward (Fin.ofNat 7 (otherPort p)) bytes)
    else t

/-- An ARP request for LNK_IP is answered with the receiving port's MAC (R286); another one that comes in on a timing port
goes on like any other frame (R305). -/
def arpRequest (p : Port) (targetIp : Word) (from_ : ArpSender) (bytes : List Byte) (s : State) : State :=
  let s := s.countRx p
  if targetIp = s.get Reg.lnkIp then s.sendOther p 64 (.arp p (s.portMac p) targetIp from_.mac from_.ip)
  else if isTiming p then s.sendOther (otherPort p) bytes.length (.forward (Fin.ofNat 7 (otherPort p)) bytes)
  else s

/-! ### Mainlines (R299–R301) -/

def State.mlMode (s : State) : Nat := s.fld Reg.lnkMlCtrl 5 4
def State.mlActive (s : State) : Nat := s.fld Reg.lnkMlStat 1 0
def State.mlUp (s : State) (p : Fin 2) : Bool := s.bit Reg.lnkMlStat (4 + p.val)
/-- A Mainline that its enable bit and MODE let work: in Single mode B is disabled (R299). -/
def State.mlEnabled (s : State) (p : Fin 2) : Bool := s.bit Reg.lnkMlCtrl p.val && !(p == 1 && s.mlMode == 0)
def State.anyUp (s : State) : Bool := s.mlUp 0 || s.mlUp 1
def State.bindOf (s : State) (p : Fin 2) : Option Bind := if p = 0 then s.lnk.bindA else s.lnk.bindB
def otherMl (p : Fin 2) : Fin 2 := if p = 0 then 1 else 0

def State.isActive (s : State) (p : Fin 2) : Bool := s.mlActive == 2 || s.mlActive == p.val

/-- An active Mainline has a BDT destination (R341). -/
def State.hasBinding (s : State) : Bool := [0, 1].any fun (p : Fin 2) => s.isActive p && (s.bindOf p).isSome

/-- End of a port's store-and-forward span (R167). -/
def State.safEnd (s : State) (p : Fin 2) : Option Nat := if p = 0 then s.que.safA else s.que.safB

def State.startSaf (p : Fin 2) (s : State) : State :=
  let e := some (s.tim.now + msU 10)
  { s with que := if p = 0 then { s.que with safA := e } else { s.que with safB := e } }

/-- A port takes segments: active, up, clocked, bound, and in Bonded mode not yet to rejoin (R304). -/
def State.mlServes (s : State) (p : Fin 2) : Bool :=
  s.portLive p && s.mlUp p && s.isActive p && (s.bindOf p).isSome && !(s.mlActive == 2 && s.lnk.rejoin.contains p)

/-- A record that starts now is served store-and-forward: in Boot, Test and Degraded, and in the span of a port that takes
from the live queue (R167). -/
def State.safNow (s : State) : Bool :=
  s.modes.inner == .boot || s.modes.inner == .test || s.mode == .degraded
  || [0, 1].any fun (p : Fin 2) => s.mlServes p && (s.safEnd p).isSome

/-- QUE_STAT.SAF: a record that has been started keeps the service it began under (R168). -/
def State.safService (s : State) : Bool :=
  match s.que.live with
  | e :: _ => if 0 < e.taken then s.que.saf else s.safNow
  | [] => s.safNow

/-! ### Streams (R289–R292) -/

def State.stream (s : State) (id : BitVec 16) : Option Stream := s.lnk.streams.find? fun (x : Stream) => x.id = id

def Stream.fresh (id : BitVec 16) : Stream :=
  { id := id, next := 0, segs := [], past := [], items := [], loaded := [], ring := none, ended := false, stopped := false, retx := 0,
    sentBytes := 0, prbs := 0x7FFFFFFF, op := none, slot := none, final := St.ok }

def State.putStream (x : Stream) (s : State) : State :=
  s.withLnk fun l =>
    { l with streams := if l.streams.any fun (y : Stream) => y.id = x.id then
        l.streams.map fun (y : Stream) => if y.id = x.id then x else y else l.streams ++ [x] }

/-- Nothing of the stream is unsettled and nothing more follows. -/
def Stream.settled (x : Stream) : Bool := x.ended && x.segs.isEmpty

def isRequest (id : BitVec 16) : Bool := decide (1 ≤ id.toNat) && decide (id.toNat ≤ 0xFF)
def isDrain (id : BitVec 16) : Bool := decide (0x100 ≤ id.toNat) && decide (id.toNat ≤ 0x103)
def exerciseStream : BitVec 16 := 0xFFFF

/-- Unsettled segments of a port (R296). -/
def State.unsettledOn (s : State) (p : Fin 2) : Nat :=
  (s.lnk.streams.map fun (x : Stream) => (x.segs.filter fun (g : Seg) => g.port = p).length).sum

/-- Data bytes of a full segment (R292). -/
def State.segBytes (s : State) : Nat := s.fld Reg.lnkBdtCfg 13 0 - 64

/-- Bytes of the PRBS31 sequence from a register on: each bit is x^31 + x^28, shifted in (R303). -/
def prbsBits : Nat → Nat → List Bool × Nat
  | 0, r => ([], r)
  | n + 1, r =>
    let b := (r / 2 ^ 30 + r / 2 ^ 27) % 2
    let q := prbsBits n ((2 * r + b) % 2 ^ 31)
    ((b == 1) :: q.1, q.2)

def prbsBytes (n r : Nat) : List Byte × Nat := (packBits n (prbsBits (8 * n) r).1, (prbsBits (8 * n) r).2)

/-! ### Items read from the Depot (R189, R203, R297) -/

/-- Whether the Depot still holds an item is read from the map: the entries of its blocks are decoded (R208). -/
def State.itemMap (i : Item) (s : State) : State :=
  s.decodeBlocks (itemBlocks (match i with
    | .record q => (s.dpt.recs.filter fun r => r.seq == some q).map fun r => r.gens
    | .unit q => (s.dpt.units.filter fun u => u.useq == q).map fun u => u.gens
    | .prbs => [])) .mapLookup

/-- Bytes `a … a + n − 1` of an item, and whether a line of them was lost; none where the Depot no longer holds it. -/
def State.readPart (src : LogSource) (i : Item) (a n : Nat) (s : State) : Option (Bool × List Byte) × State :=
  let s := s.itemMap i
  match i with
  | .record q =>
    match s.findRec q with
    | none => (none, s)
    | some r => let x := s.readItem src r.gens r.offset a n; (some x.1, x.2)
  | .unit q =>
    match s.findUnit q with
    | none => (none, s)
    | some u =>
      let d := (u.descriptor.drop a).take n
      let x := s.readItem src u.gens u.offset (a - 64) (n - d.length)
      (some (x.1.1, d ++ x.1.2), x.2)
  | .prbs => (some (false, (prbsBytes n a).1), s)

/-- Length of an item that the Depot holds. -/
def State.itemLength (s : State) : Item → Option Nat
  | .record q => (s.findRec q).map fun r => r.length
  | .unit q => (s.findUnit q).map fun u => 64 + u.length
  | .prbs => none

/-- Lines of an item that are lost to its reader, as line numbers of the item (R203). -/
def State.badLines (s : State) : Item → List Nat
  | .record q => match s.findRec q with
    | none => []
    | some r =>
      if (s.mapEnt r.block).dirLost then List.range ((r.length + 63) / 64)
      else (List.range ((r.length + 63) / 64)).filter fun j => s.isPoison (itemAddr r.gens r.offset (64 * j) / 64)
  | .unit q => match s.findUnit q with
    | none => []
    | some u =>
      if (s.mapEnt u.block).dirLost then List.range (1 + (u.length + 63) / 64)
      else (List.range (1 + (u.length + 63) / 64)).filter fun j =>
        decide (1 ≤ j) && s.isPoison (itemAddr u.gens u.offset (64 * (j - 1)) / 64)
  | .prbs => []

/-- Whether bytes a … a + n − 1 of an item touch one of its lost lines. -/
def touches (bad : List Nat) (a n : Nat) : Bool := bad.any fun l => decide (64 * l < a + n) && decide (a < 64 * l + 64)

/-! ### Filling a segment -/

/-- A segment being filled. -/
structure Fill where
  parts : List (Item × Nat × Nat)
  bytes : List Byte
  first : Option Nat
  damaged : Bool
  deriving DecidableEq, Repr

def Fill.empty : Fill := ⟨[], [], none, false⟩

/-- Bytes of an item join the segment. -/
def Fill.add (f : Fill) (i : Item) (a : Nat) (bs : List Byte) (bad : List Nat) : Fill :=
  { parts := f.parts ++ [(i, a, bs.length)], bytes := f.bytes ++ bs,
    first := if f.first.isNone && a = 0 then some f.bytes.length else f.first,
    damaged := f.damaged || touches bad a bs.length }

/-- Bytes of an entry's record: its cells without the pad, or what the Store gave for a reference. -/
def LiveEnt.bytes (e : LiveEnt) : List Byte :=
  match e.read with
  | some r => r.1
  | none => (cellBytes e.cells).take e.length

/-- A reference whose record is no longer in the Store (R160, R191). -/
def State.entGone (s : State) (e : LiveEnt) : Bool := e.isRef && e.read.isNone && (s.findRec e.seq).isNone

/-- A record that the store-and-forward check finds short of cells, or with too many (R167). -/
def State.misframed (s : State) (e : LiveEnt) : Bool := s.safNow && !e.isRef && e.taken == 0 && !framed e.cells

/-- Bytes that the live queue offers. -/
def State.liveOffers (s : State) : Nat :=
  (s.que.live.map fun (e : LiveEnt) => if s.entGone e || s.misframed e then 0 else e.length - e.taken).sum

/-- An entry that cannot be served leaves the queue as a skip; a framing error is counted too (R164, R167). -/
def State.skipEnt (e : LiveEnt) (rest : List LiveEnt) (s : State) : State :=
  let s := if s.misframed e then s.bump Reg.queFraming else s
  { (s.bump Reg.queLiveSkip).liveSkip e.seq with que := { s.que with live := rest } }

/-- Entries that cannot be served leave the head of the live queue. -/
def State.dropHeads : Nat → State → State
  | 0, s => s
  | n + 1, s =>
    match s.que.live with
    | e :: rest => if s.entGone e || s.misframed e then (s.skipEnt e rest).dropHeads n else s
    | [] => s

/-- The records that reference entries name are looked up (R160, R191), and what cannot be served leaves the head. -/
def State.dropDead (s : State) : State :=
  let refs := s.que.live.filter fun (e : LiveEnt) => e.isRef && e.read.isNone
  (refs.foldl (fun (s : State) (e : LiveEnt) => s.itemMap (.record e.seq)) s).dropHeads s.que.live.length

/-- From the live queue (R163–R168): entries in order; a reference entry's record is read from the Store. -/
def State.fillLive : Nat → Nat → Fill → State → Fill × State
  | 0, _, f, s => (f, s)
  | fuel + 1, n, f, s =>
    if n = 0 then (f, s)
    else match s.que.live with
      | [] => (f, s)
      | e :: rest =>
        if s.entGone e || s.misframed e then State.fillLive fuel n f (s.skipEnt e rest)
        else
          let saf := if e.taken = 0 then s.safNow else s.que.saf
          let (e, s) :=
            if e.isRef && e.read.isNone then
              let q := s.probeRec e.seq .uplink
              let r := q.readPart .uplink (.record e.seq) 0 e.length
              ({ e with read := some ((r.1.map fun x => x.2).getD [], r.2.badLines (.record e.seq)) }, r.2)
            else (e, s)
          let part := (e.bytes.drop e.taken).take n
          let bad := (e.read.map fun x => x.2).getD []
          let e' := { e with taken := e.taken + part.length, at_ := s.tim.now }
          let live := if e.bytes.length ≤ e'.taken then rest else e' :: rest
          State.fillLive fuel (n - part.length) (f.add (.record e.seq) e.taken part bad)
            { s with que := { s.que with live := live, saf := saf } }

/-- Counter of an operation's result that an item belongs to, sent or not sent, and that of damaged items (R341). -/
def countAt (x : Stream) (i : Item) (sent : Bool) : Nat :=
  match x.slot, i with
  | some _, .record _ => if sent then 1 else 3
  | some _, _ => if sent then 0 else 3
  | none, .unit _ => if sent then 0 else 1
  | none, _ => if sent then 0 else 1

def damagedAt (x : Stream) (i : Item) : Nat :=
  match x.slot, i with
  | some _, _ => 2
  | none, .unit _ => 3
  | none, _ => 2

/-- Counter of units that were overwritten while they were read: a Ring request has one (R189, R341). -/
def overwrittenAt (x : Stream) : Nat := if x.slot.isNone then 2 else 3

def isUnit : Item → Bool
  | .unit _ => true
  | _ => false

/-! ### The read queue (R163, R188, R189) -/

/-- A unit has a present sample at a time t with a ≤ t < b (R183, R184, R188). -/
def hasSample (u : RUnit) (a b : Nat) : Bool :=
  let d := u.descriptor
  let part (o n : Nat) : Nat := ofBytes ((d.drop o).take n)
  let ilv := decide (128 ≤ part 1 1)
  let step := if ilv then periodU / 2 else periodU
  let time := part 16 8 * (1000000000 * nsU) + part 24 4 * nsU + part 28 2
  (List.range (part 2 1)).any fun j =>
    let start := time + j * framePeriods * periodU
    let k := (a - start + step - 1) / step
    part 4 2 / 4 ^ j % 4 == 0 && decide (k * step < framePeriods * periodU) && decide (start + k * step < b)

/-- Units from a UNIT_SEQ on that a Ring request selects, ascending; times from before the last step of module time do not
compare with the span (R244). -/
def State.ringItems (q : RingReq) (s : State) : List Item :=
  let low := max q.next (s.get64 Reg.timStepUseqLo Reg.timStepUseqHi).toNat
  let us := (s.dpt.units.filter fun (u : RUnit) => q.mask.getLsbD u.chan && decide (low ≤ u.useq)
        && hasSample u q.tStart q.tEnd).map
    fun (u : RUnit) => u.useq
  (us.mergeSort fun a b => decide (a ≤ b)).map Item.unit

/-- A Ring request that has run out of items looks for units written since (R188). -/
def State.refill (s : State) (x : Stream) : Stream :=
  match x.items, x.ring with
  | [], some q => { x with items := s.ringItems q, ring := some { q with next := s.unitSeq } }
  | _, _ => x

/-- Depot read cells of a flow to the packetizer that takes the stream: type 3, class 5; the item's last cell carries the
end mark (R32, R35, R161, R162). -/
def State.depotCells (s : State) (ends : Bool) (bs : List Byte) : List Cell :=
  (cellsOf (.packetizer (if s.mlActive = 1 then 1 else 0)) 5 3 bs).map fun (c : Cell) => { c with endMark := c.endMark && ends }

/-- Bytes read and not yet sent. -/
def Loaded.bytes (l : Loaded) : List Byte := ((cellBytes l.cells).drop (l.start % 64)).take (l.length - l.start)

/-- The next `n` bytes have been sent. -/
def Loaded.advance (l : Loaded) (n : Nat) : Loaded :=
  { l with start := l.start + n, cells := l.cells.drop ((l.start + n) / 64 - l.start / 64) }

/-- What an item takes up in the read queue. -/
def Loaded.fill (l : Loaded) : Nat := 64 * l.cells.length

def State.readFill (s : State) : Nat :=
  (s.lnk.streams.map fun (x : Stream) => (x.loaded.map Loaded.fill).sum).sum

/-- What is free of the read queue's 2 MiB (R163). -/
def State.readRoom (s : State) : Nat := 2 * 2 ^ 20 - s.readFill

/-- The next bytes of a record whose beginning is in the read queue. A record overwritten meanwhile leaves damaged bytes
(log entry 137). -/
def State.loadRest (x : Stream) (l : Loaded) (src : LogSource) (n : Nat) (s : State) : State :=
  let a := l.start + l.bytes.length
  let r := s.readPart src l.item a n
  let put (bs : List Byte) (bad : List Nat) (s : State) : State :=
    s.putStream { x with loaded := x.loaded.dropLast ++
      [{ l with cells := l.cells ++ s.depotCells (l.length == a + n) bs, bad := bad }] }
  match r.1 with
  | some y => put y.2 (r.2.badLines l.item) r.2
  | none =>
    let (i, s) := r.2.takeFree
    put ((List.range n).map fun j => Config.damagedByte i (a + j))
      (l.bad ++ (List.range ((n + 63) / 64)).map fun j => a / 64 + j) s

/-- An item no longer held is counted and passed over (R189, R191, R341). -/
def State.itemGone (x : Stream) (i : Item) (s : State) : State :=
  (if isUnit i then s else s.bump Reg.dptOverwritten).opCount x.op (countAt x i false) 1

/-- One read for a stream, if the read queue has room and the stream something to read: a unit whole, a record as far as it
fits. A record that is not yet stored is waited for (R191, R341). -/
def State.loadMore (id : BitVec 16) (s : State) : Option State :=
  match s.stream id with
  | none => none
  | some x0 =>
    let x := s.refill x0
    let room := s.readRoom
    let src (i : Item) : LogSource := if x.slot.isSome || isUnit i then .ringDrain else .uplink
    let fresh : Option State :=
      match x.items with
      | [] => none
      | i :: rest =>
        let s := s.itemMap i
        let y := { x with items := rest }
        match i, s.itemLength i with
        | .record q, none => if s.notYetStored q then none else some (((s.probeRec q (src i)).putStream y).itemGone y i)
        | _, none => some ((s.putStream y).itemGone y i)
        | _, some n =>
          let m := if isUnit i && decide (room < n) then 0 else min n room
          if m = 0 then none
          else
            let gens := match i with
              | .unit q => ((s.findUnit q).map fun u => u.gens).getD []
              | _ => []
            let s := match i with
              | .record q => s.probeRec q (src i)
              | _ => s
            let r := s.readPart (src i) i 0 m
            some (r.2.putStream { y with
              loaded := y.loaded ++ [⟨i, n, 0, r.2.depotCells (n == m) ((r.1.map fun z => z.2).getD []), r.2.badLines i, gens⟩] })
    if x.ended then none
    else match x.loaded.getLast? with
      | some l =>
        let left := l.length - (l.start + l.bytes.length)
        if left = 0 then fresh
        else if room = 0 then none
        else some (s.loadRest x l (src l.item) (min left room))
      | none => fresh

/-- The Depot read flow fills the read queue for a stream as far as it goes (R31, R163). -/
def State.loadAll (id : BitVec 16) : Nat → State → State
  | 0, s => s
  | n + 1, s =>
    match s.loadMore id with
    | some t => t.loadAll id n
    | none => s

def State.loadStream (id : BitVec 16) (s : State) : State :=
  s.loadAll id (((s.stream id).map fun x => x.items.length).getD 0 + s.dpt.units.length + 2)

/-- Bytes of a segment from what a stream has in the read queue. The generations of a unit's blocks are compared when its
first byte goes: until then its read is not over (R189; log entry 138). A change from units to records ends the segment
(R292, R341). -/
def State.fillItems : Nat → Nat → Fill → Stream → State → Fill × Stream × State
  | 0, _, f, x, s => (f, x, s)
  | fuel + 1, n, f, x, s =>
    if n = 0 then (f, x, s)
    else match x.loaded with
      | [] => (f, x, s)
      | l :: rest =>
        let s := if l.start = 0 then s.decodeBlocks (l.gens.map fun g => g.1) .mapLookup else s
        if f.parts.any fun p => isUnit p.1 != isUnit l.item then (f, x, s)
        else if l.start = 0 && !s.gensHold l.gens then
          State.fillItems fuel n f { x with loaded := rest } ((s.bump Reg.dptOverwritten).opCount x.op (overwrittenAt x) 1)
        else
          let part := l.bytes.take n
          let f := f.add l.item l.start part l.bad
          let x := { x with sentBytes := x.sentBytes + part.length }
          let l' := l.advance part.length
          if l.length ≤ l'.start then
            let s := s.opCount x.op (countAt x l.item true) 1
            let s := if l.bad.isEmpty then s else
              let s := s.opCount x.op (damagedAt x l.item) 1
              match x.slot with
              | some h => s.setBit (Reg.dptHoldStat h) 7 true
              | none => s
            State.fillItems fuel (n - part.length) f { x with loaded := rest } s
          else (f, { x with loaded := l' :: rest }, s)

/-! ### Sending segments (R289–R297) -/

def flagRetx : BitVec 16 := 1
def flagDamaged : BitVec 16 := 2
def flagGone : BitVec 16 := 4
def flagEnd : BitVec 16 := 8
def flagUnits : BitVec 16 := 16
def flagActive : BitVec 16 := 32

def itemNumber : Item → Nat
  | .record q => q
  | .unit q => q
  | .prbs => 0

/-- A new segment of a stream goes out on a port. -/
def State.newSegment (p : Fin 2) (x : Stream) (f : Fill) (last : Bool) (s : State) : State :=
  match s.bindOf p with
  | none => s
  | some b =>
    let flags := (if f.damaged then flagDamaged else 0) ||| (if last then flagEnd else 0)
      ||| (if f.parts.any fun q => isUnit q.1 then flagUnits else 0)
    let first := f.first.getD 0xFFFF
    let g : Seg := ⟨x.next, p, f.parts, first, flags, s.tim.now, s.lnk.order, 0, s.tim.now + usU 800⟩
    let item := match f.parts with
      | q :: _ => itemNumber q.1
      | [] => 0
    let s := (s.putStream { x with next := x.next + 1, segs := x.segs ++ [g], ended := x.ended || last }).withLnk fun l =>
      { l with order := l.order + 1 }
    let s := match x.op with
      | some o => s.updOpRef o fun y => { y with bytes := x.sentBytes }
      | none => s
    let s := match x.slot with
      | some h => s.set (Reg.dptHoldDrainedMib h) (BitVec.ofNat 32 (x.sentBytes / 2 ^ 20))
      | none => s
    (s.send p (.data p b x.id x.next flags first item f.bytes)).bump64 Reg.lnkSegsLo Reg.lnkSegsHi 1

/-- The operation of a request stream is done once everything, END included, is settled (log entry 21). -/
def State.requestDone (id : BitVec 16) (s : State) : State :=
  match s.stream id with
  | none => s
  | some x =>
    if isRequest id && x.settled then
      (s.optDone x.op x.final (s.opCounts x.op)).putStream { x with op := none }
    else s

/-- Parts of a segment read again in turn; none where an item is gone (R297). -/
def State.readParts : List (Item × Nat × Nat) → State → Option (Bool × List Byte) × State
  | [], s => (some (false, []), s)
  | (i, a, n) :: rest, s =>
    let s := match i with
      | .record q => s.probeRec q .retransmission
      | _ => s
    let r := s.readPart .retransmission i a n
    match r.1 with
    | none => (none, r.2)
    | some x =>
      let q := State.readParts rest r.2
      (q.1.map fun y => (x.1 || y.1, x.2 ++ y.2), q.2)

/-- A stream's segments rewritten. -/
def State.updSegs (id : BitVec 16) (f : List Seg → List Seg) (s : State) : State :=
  s.withLnk fun l => { l with streams := l.streams.map fun (x : Stream) => if x.id = id then { x with segs := f x.segs } else x }

/-- Segments leave their stream settled; the order of their latest sending is kept while one below them is not (R296). -/
def Stream.settle (x : Stream) (p : Seg → Bool) : Stream :=
  let left := x.segs.filter fun (g : Seg) => !p g
  let gone := (x.segs.filter p).map fun (g : Seg) => (g.seq, g.order)
  { x with segs := left
           past := (x.past ++ gone).filter fun (d : Nat × Nat) => left.any fun (g : Seg) => decide (g.seq < d.1) }

def State.settleSegs (id : BitVec 16) (p : Seg → Bool) (s : State) : State :=
  (s.withLnk fun l => { l with streams := l.streams.map fun (x : Stream) => if x.id = id then x.settle p else x }).requestDone id

/-- A segment is settled: by an ACK, by abandonment, or by GONE (R296, R297). -/
def State.settleSeg (id : BitVec 16) (q : Nat) (s : State) : State := s.settleSegs id fun (g : Seg) => g.seq == q

/-- A segment goes out again under its SEG_SEQ on a port (R296, R297, R301, R302). -/
def State.resend (id : BitVec 16) (g : Seg) (p : Fin 2) (s : State) : State :=
  match s.bindOf p with
  | none => s.updSegs id fun gs => gs.map fun (x : Seg) => if x.seq = g.seq then { x with port := p, sentAt := s.tim.now } else x
  | some b =>
    let r := s.readParts g.parts
    let item := match g.parts with
      | q :: _ => itemNumber q.1
      | [] => 0
    let order := s.lnk.order
    let s := (r.2.bump Reg.lnkRetx).withLnk fun l =>
      { l with order := order + 1, resends := l.resends.filter fun (x : BitVec 16 × Nat) => x != (id, g.seq)
               streams := l.streams.map fun (x : Stream) => if x.id = id then { x with retx := x.retx + 1 } else x }
    match r.1 with
    | none =>
      let s := s.send p (.data p b id g.seq (g.flags ||| flagRetx ||| flagGone) 0xFFFF item [])
      let s := s.updSegs id fun gs => gs.map fun (x : Seg) => if x.seq = g.seq then { x with order := order } else x
      (s.bump Reg.dptOverwritten).settleSeg id g.seq
    | some (lost, bytes) =>
      let flags := g.flags ||| (if lost then flagDamaged else 0)
      let s := s.updSegs id fun gs => gs.map fun (x : Seg) =>
        if x.seq = g.seq then { x with port := p, sentAt := s.tim.now, order := order, flags := flags } else x
      s.send p (.data p b id g.seq (flags ||| flagRetx) g.firstOffset item bytes)

def State.seg (s : State) (id : BitVec 16) (q : Nat) : Option Seg :=
  (s.stream id).bind fun x => x.segs.find? fun (g : Seg) => g.seq = q

/-- The port that carries a retransmission: the one that sent the segment last, if it still serves, else the other one
that does (R299, R301, R304); the exercise stream is Mainline B's own (R303). -/
def State.resendPort (s : State) (id : BitVec 16) (g : Seg) : Option (Fin 2) :=
  if id = exerciseStream then (if s.portLive 1 && s.mlUp 1 && s.lnk.bindB.isSome then some 1 else none)
  else [g.port, otherMl g.port].find? fun (p : Fin 2) => s.mlServes p

/-- Waiting retransmissions go out, oldest first, while the live queue offers nothing (R31, R163); each counts towards the
limit of 3 (R296). While no port takes it, one waits on. -/
def State.flushResends (s : State) : State :=
  if 0 < s.liveOffers then s
  else s.lnk.resends.foldl (fun (s : State) (x : BitVec 16 × Nat) =>
    match s.seg x.1 x.2 with
    | none => s.withLnk fun l => { l with resends := l.resends.filter fun (y : BitVec 16 × Nat) => y != x }
    | some g =>
      match s.resendPort x.1 g with
      | none => s
      | some p =>
        let s := s.updSegs x.1 fun gs => gs.map fun (y : Seg) => if y.seq = g.seq then { y with retx := y.retx + 1 } else y
        s.resend x.1 g p) s

/-- A segment of the exercise stream (R303). After END, EXERCISE_B written to 1 again begins a fresh exercise. -/
def State.sendExercise (p : Fin 2) (s : State) : State :=
  let n := s.segBytes
  match s.stream exerciseStream with
  | none => s
  | some x =>
    if p != 1 || x.ended || !(s.portLive 1 && s.mlUp 1) || s.lnk.bindB.isNone || (s.mlServes 1 && 0 < s.liveOffers) then s
    else
      let r := prbsBytes n x.prbs
      let s := s.newSegment 1 { x with prbs := r.2 } ⟨[(.prbs, x.prbs, n)], r.1, none, false⟩ x.stopped
      if !x.stopped then s
      else if s.bit Reg.lnkMlCtrl 9 then s.putStream (Stream.fresh exerciseStream)
      else s.setBit Reg.lnkMlStat 10 false

/-- A segment of `n` bytes from the live queue. -/
def State.sendLive (p : Fin 2) (n : Nat) (s : State) : State :=
  let r := s.fillLive (n + s.que.live.length + 1) n Fill.empty
  if r.1.parts.isEmpty then r.2 else r.2.newSegment p ((r.2.stream 0).getD (Stream.fresh 0)) r.1 false

/-- A drain moves only under a grant, while its slot is DRAINING (R198). -/
def State.drainWaits (s : State) (x : Stream) : Bool :=
  isDrain x.id && (s.fld Reg.pwrGrant 23 16 == 0 || (match x.slot with
    | some h => s.holdState h != 4
    | none => true))

/-- A segment of a request or drain stream: full, or the last one, or the last of a drain's units (R292). -/
def State.sendStream (p : Fin 2) (id : BitVec 16) (s : State) : State :=
  let n := s.segBytes
  match s.stream id with
  | none => s
  | some x0 =>
    if x0.ended || s.drainWaits x0 then s
    else
      let s := s.loadStream id
      let x := (s.stream id).getD x0
      let r := s.fillItems (n + x.loaded.length + 2) n Fill.empty x
      let y := r.2.2.refill r.2.1
      let last := y.loaded.isEmpty && y.items.isEmpty
      let change := !r.1.parts.isEmpty && match y.loaded with
        | l :: _ => r.1.parts.any fun q => isUnit q.1 != isUnit l.item
        | [] => false
      if last || change || decide (n ≤ r.1.bytes.length) then
        ((r.2.2.newSegment p y r.1 last).requestDone id).loadStream id
      else s

/-- A full segment, or the last one of a request, a drain's unit part or a stream (R292). Live segments go ahead of all
others (R163, R289). -/
def bdtDataSend (p : Fin 2) (id : BitVec 16) (s : State) : State :=
  let s := if s.mlServes p then s.dropDead else s
  if s.fld Reg.lnkBdtCfg 31 16 ≤ s.unsettledOn p then s.flushResends
  else if id = exerciseStream then s.flushResends.sendExercise p
  else if !s.mlServes p then s
  else if id = 0 then
    if s.liveOffers < s.segBytes then s.flushResends else (s.sendLive p s.segBytes).flushResends
  else if 0 < s.liveOffers then s
  else s.flushResends.sendStream p id

/-- A live segment that is not full goes out after QUE_FLUSH (R166). -/
def shortPacket (p : Fin 2) (id : BitVec 16) (s : State) : State :=
  let s := if s.mlServes p then s.dropDead else s
  let n := s.segBytes
  let flush := usU (s.fld Reg.queFlush 9 0)
  let waited := s.que.live.all fun (e : LiveEnt) => decide (e.at_ + flush ≤ s.tim.now)
  if id != 0 || !s.mlServes p || s.liveOffers = 0 || n ≤ s.liveOffers || !waited
      || s.fld Reg.lnkBdtCfg 31 16 ≤ s.unsettledOn p then s
  else (s.sendLive p n).flushResends

/-- A HEARTBEAT on a Mainline that is up and has a destination (R293). -/
def heartbeat (p : Fin 2) (s : State) : State :=
  match s.bindOf p with
  | none => s
  | some b =>
    if s.mlUp p then
      s.send p (.heartbeat p b (((s.stream 0).map fun x => x.next).getD 0) (if s.isActive p then flagActive else 0) s.tim.mt)
    else s

/-- A retransmission for a timeout or a hole joins the Depot read flow, below live traffic (R31, R296). -/
def State.retransmit (id : BitVec 16) (q : Nat) (s : State) : State :=
  (s.withLnk fun l => if l.resends.contains (id, q) then l else { l with resends := l.resends ++ [(id, q)] }).flushResends

/-- An abandoned segment is counted and settles (R296). -/
def State.abandonSeg (id : BitVec 16) (q : Nat) (s : State) : State :=
  ((s.bump Reg.lnkAbandon).attend Atn.link).settleSeg id q

/-- 200 µs after a segment's latest sending: it is sent again, or abandoned after its third retransmission (R296). -/
def retransmitTimeout (id : BitVec 16) (q : Nat) (s : State) : State :=
  match s.seg id q with
  | none => s
  | some g =>
    if !s.anyUp || s.tim.now < g.sentAt + usU 200 then s
    else if 3 ≤ g.retx then s.abandonSeg id q
    else s.retransmit id q

/-- A segment's abandonment deadline (R296). -/
def abandon (id : BitVec 16) (q : Nat) (s : State) : State :=
  match s.seg id q with
  | none => s
  | some g => if !s.anyUp || s.tim.now < g.deadline then s else s.abandonSeg id q

/-! ### Acknowledgement (R294, R296) -/

/-- The ranges of an ACK ascend, do not overlap and lie beyond SEG_SEQ. -/
def rangesOk : Nat → List (BitVec 64 × BitVec 64) → Bool
  | _, [] => true
  | lo, (a, b) :: l => decide (lo < a.toNat) && decide (a ≤ b) && rangesOk b.toNat l

def State.ackOk (s : State) (a : AckPkt) : Bool :=
  a.magic == 0x4244 && a.version == 1 && a.type == 2 && bits a.flags 15 6 == 0 && a.module.toNat == s.moduleAddr
  && decide (a.portByte.toNat ≤ 1) && a.resv == 0 && a.firstOffset == 0 && a.itemSeq == 0
  && a.dataLength.toNat == 16 * a.ranges.length && decide (a.ranges.length ≤ 8) && a.crcOk
  && rangesOk a.segSeq.toNat a.ranges

/-- An ACK settles what it covers; a segment that it shows missing is sent again at once. -/
def ack (a : AckPkt) (s : State) : State :=
  let s := s.countRx a.port
  if !isMainline a.port || !s.ackOk a then s.countDrop a.port
  else match s.stream a.stream with
    | none => s
    | some x =>
      let covered (g : Seg) : Bool := decide (g.seq < a.segSeq.toNat)
        || a.ranges.any fun r => decide (r.1.toNat ≤ g.seq) && decide (g.seq ≤ r.2.toNat)
      let holes := match a.ranges.getLast? with
        | none => []
        | some r =>
          let newest := (((x.past ++ x.segs.map fun (g : Seg) => (g.seq, g.order)).filter fun (d : Nat × Nat) =>
            decide (r.1.toNat ≤ d.1) && decide (d.1 ≤ r.2.toNat)).map fun (d : Nat × Nat) => d.2).foldl max 0
          x.segs.filter fun (g : Seg) => !covered g && decide (g.seq < r.2.toNat) && decide (g.order < newest)
                && decide (g.retx < 3)
      let s := s.settleSegs a.stream covered
      if s.anyUp then holes.foldl (fun (s : State) (g : Seg) => s.retransmit a.stream g.seq) s else s

/-! ### Mainline state (R300, R301, R304) -/

/-- Every unsettled segment of a port, or of both, is sent again on another port ahead of new ones (R301, R304). -/
def State.resendAll (only : Option (Fin 2)) (p : Fin 2) (s : State) : State :=
  s.lnk.streams.foldl (fun (s : State) (x : Stream) =>
    (x.segs.filter fun (g : Seg) => match only with
      | some o => g.port = o
      | none => true).foldl (fun (s : State) (g : Seg) => s.resend x.id g p) s) s

/-- A switchover to a port (R301). -/
def State.switchTo (p : Fin 2) (commanded : Bool) (s : State) : State :=
  let s := ((s.bump Reg.lnkSwitchovers).attend Atn.link).setFld Reg.lnkMlStat 1 0 p.val
  let s := if commanded then
      (s.setBit Reg.lnkMlStat 8 true).withLnk fun l => { l with overlap := some (s.tim.now + usU 100) }
    else s
  (s.startSaf p).resendAll none p

/-- A Mainline that has been without lock, or faulted, for SWO_HOLD is down (R300). -/
def portDown (p : Fin 2) (heldUs : Nat) (s : State) : State :=
  if !s.mlUp p || heldUs < s.fld Reg.lnkMlCtrl 23 16 then s
  else
    let s := ((s.setBit Reg.lnkMlStat (4 + p.val) false).setBit (Reg.lnkPortStat p) 0 false).setBit (Reg.lnkPortStat p) 3 true
    let s := if s.anyUp then s else s.withLnk fun l => { l with noneUp := some s.tim.now }
    let o := otherMl p
    if s.mlMode = 1 && s.mlActive = p.val && s.mlUp o then s.switchTo o false
    else if s.mlMode = 2 then
      let s := s.withLnk fun l => { l with rejoin := [] }
      if s.mlUp o then ((s.setBit Reg.lnkMlStat 9 true).attend Atn.link).resendAll (some p) o else s
    else s

/-- Timers and deadlines move on by the time without any Mainline (R296, R300). -/
def State.resumeTimers (s : State) : State :=
  match s.lnk.noneUp with
  | none => s
  | some t =>
    let d := s.tim.now - t
    s.withLnk fun l =>
      { l with noneUp := none, streams := l.streams.map fun (x : Stream) => { x with segs := x.segs.map fun (g : Seg) =>
          { g with sentAt := g.sentAt + d, deadline := g.deadline + d } } }

/-- A Mainline comes up: store-and-forward for 10 ms, and a switchover to it if the active port is down (R167, R301).
A bonded port that returns takes nothing before its span ends while the other one serves; with the other down it carries the
other's segments (R304). -/
def portUp (p : Fin 2) (s : State) : State :=
  if s.mlUp p || !s.mlEnabled p || !s.portClocked p.val then s
  else
    let s := (s.setBit Reg.lnkMlStat (4 + p.val) true).setBit (Reg.lnkPortStat p) 0 true
    let s := (s.resumeTimers).startSaf p
    let o := otherMl p
    if s.mlMode = 1 && s.mlActive = o.val && !s.mlUp o then s.switchTo p false
    else if s.mlMode = 2 then
      if !s.mlUp o then (s.setBit Reg.lnkMlStat 9 true).resendAll (some o) p
      else if s.lnk.rejoin.contains o then s
      else s.withLnk fun l => { l with rejoin := l.rejoin ++ [p] }
    else s

/-- Why a commanded switchover is rejected (R301). -/
def State.switchRefused (s : State) : Option (BitVec 16) :=
  if s.variant = .l then some St.notFitted
  else if s.mlMode != 1 then some St.badValue
  else if s.mlUp (if s.mlActive = 0 then 1 else 0) then none
  else some St.linkFault

def State.commandSwitch (s : State) : State := s.switchTo (if s.mlActive = 0 then 1 else 0) true

/-- The 100 µs overlap of a commanded switchover ends. -/
def switchoverOverlapEnd (s : State) : State :=
  match s.lnk.overlap with
  | some t => if t ≤ s.tim.now then (s.setBit Reg.lnkMlStat 8 false).withLnk fun l => { l with overlap := none } else s
  | none => s

/-- A port's store-and-forward span ends; a returning bonded port rejoins (R167, R304). -/
def storeAndForwardEnd (p : Fin 2) (s : State) : State :=
  match s.safEnd p with
  | none => s
  | some t =>
    if s.tim.now < t then s
    else
      let s := { s with que := if p = 0 then { s.que with safA := none } else { s.que with safB := none } }
      let s := s.withLnk fun l => { l with rejoin := l.rejoin.filter fun (q : Fin 2) => q != p }
      if s.mlMode = 2 && s.mlUp 0 && s.mlUp 1 && s.lnk.rejoin.isEmpty then s.setBit Reg.lnkMlStat 9 false else s

/-- The exercise stream starts, or is to end with its next segment (R303). -/
def State.exercise (on : Bool) (s : State) : State :=
  if on then
    if s.bit Reg.lnkMlStat 10 then s
    else (s.putStream (Stream.fresh exerciseStream)).setBit Reg.lnkMlStat 10 true
  else match s.stream exerciseStream with
    | none => s
    | some x => s.putStream { x with stopped := true }

/-! ### Timing messages (R305–R308, R314, R315) -/

def State.incompat (s : State) (p : Nat) : Bool := s.bit (Reg.lnkPortStat p) 4

/-- A timing port's version is chosen or gone; LNK_VER shows what either port of its pair uses (R314, R317). -/
def State.setTmVer (p : Nat) (v : Option Nat) (s : State) : State :=
  let s := s.updTport p fun x => { x with version := v }
  let shown := max (v.getD 0) ((s.tport (otherPort p)).version.getD 0)
  if p < 4 then s.setFld Reg.lnkVer 23 20 shown else s.setFld Reg.lnkVer 27 24 shown

/-- A message that R307 lets in: nothing reserved set, its type and the port's version right. -/
def State.tmOk (s : State) (m : TmHead) (type : Nat) : Bool :=
  isTiming m.port && !m.resv && m.tmType.toNat == type
  && (s.tport m.port).version == some m.version.toNat

/-- A timing message goes on to the out-port of its pair, unchanged, or finds the queue full (R305, R306). -/
def State.forwardTm (p : Nat) (bytes : List Byte) (version : Nat) (s : State) : State :=
  let out := otherPort p
  if (s.tport out).version != some version || !s.portLive out then s
  else match s.enqueueTm (out == 5) bytes with
    | some s' => s'.pump
    | none => s.bump Reg.lnkTmDrop

/-- A trigger-line message on an in-port (R136, R137, R305, R307). -/
def triggerLineMessage (m : TmHead) (lines set_ : Byte) (bytes : List Byte) (s : State) : State :=
  let s := s.countRx m.port
  if !s.tmOk m 1 then s.countDrop m.port
  else if m.port.val != 2 && m.port.val != 4 then s
  else
    let b := m.port.val == 4
    let src := s.fld Reg.sbxXtrg 1 0
    let s := if src / (if b then 2 else 1) % 2 == 0 then s
      else
        let n := if s.modes.sampling then s.linePeriod s.tim.mt else 0
        let s := { s with sbx := { s.sbx with lineQ := s.sbx.lineQ ++ [(n, b, lines, set_)] } }
        if s.modes.sampling then s else s.flushLineQ
    if s.bit Reg.lnkTpCtrl (if b then 2 else 0) then s.forwardTm m.port bytes m.version.toNat else s

/-- A trigger-primitive message on an in-port (R305). -/
def triggerPrimitiveForward (m : TmHead) (bytes : List Byte) (s : State) : State :=
  let s := s.countRx m.port
  if !s.tmOk m 2 then s.countDrop m.port
  else if m.port.val != 2 && m.port.val != 4 then s
  else if s.bit Reg.lnkTpCtrl (if m.port.val == 4 then 3 else 1) then s.forwardTm m.port bytes m.version.toNat
  else s

/-- The first HELLO chooses the port's version (R314, R315). -/
def hello (m : TmHead) (verMin verMax : Byte) (_module : BitVec 16) (s : State) : State :=
  let s := s.countRx m.port
  if !isTiming m.port || m.resv || m.tmType != 3 || m.version != 1 then s.countDrop m.port
  else if (s.tport m.port).heard then s
  else
    let s := s.updTport m.port fun x => { x with heard := true }
    if verMin ≤ 1 && 1 ≤ verMax then
      (s.setBit (Reg.lnkPortStat m.port) 4 false).setTmVer m.port (some 1)
    else (s.setBit (Reg.lnkPortStat m.port) 4 true).setTmVer m.port none

/-- The 46-byte payload of a HELLO (R307). -/
def helloBytes (seq : BitVec 16) (module : Nat) : List Byte :=
  beBytes 1 1 ++ beBytes 1 3 ++ beBytes 2 seq.toNat ++ beBytes 1 1 ++ beBytes 1 1 ++ beBytes 2 module
  ++ List.replicate 38 0

/-- A HELLO at link-up and every 1 s (R314); at a timing-out port it joins the queue of timing messages, and waits for a place
there (R306; log entry 140). -/
def helloSend (p : Port) (s : State) : State :=
  let x := s.tport p
  if !isTiming p || !s.portLive p || s.incompat p || (match x.helloAt with
      | some t => decide (s.tim.now < t + secU 1)
      | none => false) then s
  else
    let bytes := helloBytes x.seq s.moduleAddr
    let said (s : State) : State := s.updTport p fun y => { y with seq := y.seq + 1, helloAt := some s.tim.now }
    if p = 3 || p = 5 then
      match s.enqueueTm (p == 5) bytes with
      | some t => (said t).pump
      | none => s
    else (said s).send p (.timing p bytes)

/-- No HELLO heard 3 s after link-up: version 1 (R314). -/
def helloTimeout (p : Port) (s : State) : State :=
  let x := s.tport p
  match x.upAt with
  | none => s
  | some t =>
    if !isTiming p || x.heard || x.version.isSome || s.tim.now < t + secU 3 then s
    else s.setTmVer p (some 1)

/-- A port's link comes up at start-up, given its clock (R267, R355): a timing port begins without a version. -/
def State.linkUp (p : Nat) (s : State) : State :=
  if !s.lineOn then s
  else
  let s := s.setBit (Reg.lnkPortStat p) 0 true
  if isTiming p then
    ((s.updTport p fun _ => { TPort.reset with upAt := some s.tim.now }).setBit (Reg.lnkPortStat p) 4 false).setTmVer p none
  else if isMainline p then (s.setBit Reg.lnkMlStat (4 + p) true).resumeTimers
  else s

/-- A timing or management port's link has been lost for SWO_HOLD: it is down, and its timing version is gone (R300, R314). -/
def edgeDown (p : Nat) (heldUs : Nat) (s : State) : State :=
  if !s.portUp p || heldUs < s.fld Reg.lnkMlCtrl 23 16 then s
  else
    let s := (s.setBit (Reg.lnkPortStat p) 0 false).setBit (Reg.lnkPortStat p) 3 true
    if isTiming p then ((s.updTport p fun _ => TPort.reset).setBit (Reg.lnkPortStat p) 4 false).setTmVer p none else s

/-- LOCAL_FAULT and REMOTE_FAULT of a port (R300, R317). -/
def State.showFaults (p : Nat) (l r : Bool) (s : State) : State :=
  (s.setBit (Reg.lnkPortStat p) 1 l).setBit (Reg.lnkPortStat p) 2 r

/-- A port's link is lost. -/
def linkLoss (p : Port) (l : LinkLoss) (s : State) : State :=
  if !s.modes.control then s
  else
    let s := s.showFaults p l.localFault l.remoteFault
    if p.val < 2 then portDown (Fin.ofNat 2 p) l.heldUs s else edgeDown p l.heldUs s

/-- A port's link comes up, its faults over. -/
def linkReturn (p : Port) (s : State) : State :=
  if !s.portClocked p then s
  else
    let s := s.showFaults p false false
    if p.val < 2 then portUp (Fin.ofNat 2 p) s else if s.portUp p then s else s.linkUp p

/-- Streams that send from the Depot are gone with it; the live stream keeps its numbering (R289, R346). -/
def State.streamsOff (s : State) : State :=
  s.withLnk fun l =>
    { l with streams := l.streams.filterMap fun (x : Stream) =>
        if x.id = (0 : BitVec 16) then some { Stream.fresh (0 : BitVec 16) with next := x.next } else none }

/-- The control domain is off: the links are down and what was on them is gone; bindings last until a reset (R21, R341). -/
def State.linksOff (s : State) : State :=
  let s := (List.range 7).foldl (fun (s : State) (p : Nat) =>
    let s := if s.portUp p then (s.setBit (Reg.lnkPortStat p) 0 false).setBit (Reg.lnkPortStat p) 3 true else s
    (s.showFaults p false false).setBit (Reg.lnkPortStat p) 4 false) s
  let s := ((s.setFld Reg.lnkVer 27 20 0).set Reg.lnkMlStat 3).streamsOff
  { s with lnk := { Lnk.reset with bindA := s.lnk.bindA, bindB := s.lnk.bindB, streams := s.lnk.streams,
                                   order := s.lnk.order, prov := s.lnk.prov, noneUp := some s.tim.now } }

/-! ### Meanings of what happens without a received frame -/

/-- Primitives that the period has queued leave at once where their port is free (R138). -/
def execSignalBoxPeriod (s : State) : Host.Outcome State Fault Refusal :=
  run (fun s => (signalBoxPeriod longPlace s).pump) s

def execHelloSend (p : Port) (s : State) : Host.Outcome State Fault Refusal := run (helloSend p) s

def execHelloTimeout (p : Port) (s : State) : Host.Outcome State Fault Refusal := run (helloTimeout p) s

def execBdtDataSend (p : Fin 2) (stream : BitVec 16) (s : State) : Host.Outcome State Fault Refusal :=
  run (bdtDataSend p stream) s

def execShortPacket (p : Fin 2) (stream : BitVec 16) (s : State) : Host.Outcome State Fault Refusal :=
  run (shortPacket p stream) s

def execHeartbeat (p : Fin 2) (s : State) : Host.Outcome State Fault Refusal := run (heartbeat p) s

def execRetransmitTimeout (stream : BitVec 16) (seg : BitVec 64) (s : State) : Host.Outcome State Fault Refusal :=
  run (retransmitTimeout stream seg.toNat) s

def execAbandon (stream : BitVec 16) (seg : BitVec 64) (s : State) : Host.Outcome State Fault Refusal :=
  run (abandon stream seg.toNat) s

def execPortDown (p : Port) (loss : LinkLoss) (s : State) : Host.Outcome State Fault Refusal := run (linkLoss p loss) s

def execPortUp (p : Port) (s : State) : Host.Outcome State Fault Refusal := run (linkReturn p) s

def execSwitchoverOverlapEnd (s : State) : Host.Outcome State Fault Refusal := run switchoverOverlapEnd s

def execStoreAndForwardEnd (p : Fin 2) (s : State) : Host.Outcome State Fault Refusal := run (storeAndForwardEnd p) s

end Sys2Proof.Machine
end

