-- ==== Sys2Proof/Machine/Packets.lean ====
section
/-! DEFINITION. The bytes of what leaves the module: IPv4 and UDP headers (R287), BCP replies (R319), BDT segments and
heartbeats (R290), timing messages (R307), and the addresses a frame carries (R284, R286, R320). The sending operations
queue a `Tx` by its meaning; these functions give its octets on the wire. -/

namespace Sys2Proof.Machine

/-- A header or payload followed by its CRC-32C, most significant byte first (R156, R290, R319). -/
def withCrc (l : List Byte) : List Byte := l ++ beBytes 4 (crc32c l).toNat

/-- A BCP reply datagram: 32 header bytes, its data and the CRC (R319). -/
def State.replyBytes (s : State) (version : Byte) (replayed : Bool) (opcode status : BitVec 16) (seq session attention : Word)
    (data : List Byte) : List Byte :=
  withCrc <|
    beBytes 2 0x4256 ++ [version, if replayed then 3 else 1] ++ beBytes 2 opcode.toNat ++ beBytes 2 status.toNat
    ++ beBytes 4 seq.toNat ++ beBytes 4 session.toNat ++ beBytes 2 data.length ++ beBytes 2 s.moduleAddr
    ++ beBytes 4 attention.toNat ++ beBytes 8 0 ++ data

/-- A BDT packet of the module: DATA (1) or HEARTBEAT (3), with the CRC (R290). -/
def State.bdtBytes (s : State) (type : Nat) (port : Fin 2) (flags stream : BitVec 16) (seg firstOffset itemSeq : Nat)
    (data : List Byte) : List Byte :=
  withCrc <|
    beBytes 2 0x4244 ++ beBytes 1 1 ++ beBytes 1 type ++ beBytes 2 flags.toNat ++ beBytes 2 stream.toNat ++ beBytes 8 seg
    ++ beBytes 2 s.moduleAddr ++ beBytes 1 port.val ++ beBytes 1 0 ++ beBytes 2 firstOffset ++ beBytes 2 data.length
    ++ beBytes 8 itemSeq ++ data

/-- The ones' complement sum of a header's 16-bit words, complemented (R287's header checksum). -/
def ipChecksum (l : List Byte) : Nat :=
  let rec sum : List Byte → Nat
    | a :: b :: t => a.toNat * 256 + b.toNat + sum t
    | [a] => a.toNat * 256
    | [] => 0
  let t := sum l
  let t := t % 65536 + t / 65536
  65535 - (t % 65536 + t / 65536)

/-- The IPv4 header of a sent packet: no option, TOS 0, identification 0, DF, TTL 64, UDP, the checksum (R287). -/
def State.ipHeader (s : State) (dst : Word) (payload : Nat) : List Byte :=
  let first := beBytes 1 0x45 ++ beBytes 1 0 ++ beBytes 2 (28 + payload) ++ beBytes 2 0 ++ beBytes 2 0x4000 ++ beBytes 1 64
    ++ beBytes 1 17
  let addresses := beBytes 4 (s.get Reg.lnkIp).toNat ++ beBytes 4 dst.toNat
  first ++ beBytes 2 (ipChecksum (first ++ beBytes 2 0 ++ addresses)) ++ addresses

/-- A UDP datagram in its IPv4 packet: the service port as source, checksum 0 (R287). -/
def State.ipPacket (s : State) (service : Nat) (dst : Word) (udp : BitVec 16) (payload : List Byte) : List Byte :=
  s.ipHeader dst payload.length ++ beBytes 2 service ++ beBytes 2 udp.toNat ++ beBytes 2 (8 + payload.length) ++ beBytes 2 0
    ++ payload

/-- A Delay_Req of the module (R236), laid out as IEEE 1588 has it (log entry 141): version 2.1, the domain's number, the
module's port identity. -/
def State.delayReqBytes (s : State) (port : Nat) (domainNumber : Byte) (seqId : BitVec 16) : List Byte :=
  [0x01, 0x12] ++ beBytes 2 44 ++ [domainNumber] ++ beBytes 15 0
  ++ beBytes 8 (s.get64 Reg.ilkEui64Lo Reg.ilkEui64Hi).toNat ++ beBytes 2 (if port = 2 then 1 else 2) ++ beBytes 2 seqId.toNat
  ++ [0x01, 0x7F] ++ beBytes 10 0

/-- The IPv4 packet of a reply, a segment or a heartbeat, whose data is its time (R287, R290, R293, R319, R320). -/
def State.packetOf (s : State) : Tx → Option (List Byte)
  | .reply _ _ ip udp opcode status replayed seq session attention version data =>
    some (s.ipPacket 21332 ip udp (s.replyBytes version replayed opcode status seq session attention data))
  | .data port dest stream seg flags firstOffset itemSeq bytes =>
    some (s.ipPacket 21333 dest.ip dest.udp (s.bdtBytes 1 port flags stream seg firstOffset itemSeq bytes))
  | .heartbeat port dest next flags time =>
    some (s.ipPacket 21333 dest.ip dest.udp (s.bdtBytes 3 port flags 0 next 0 0 (wideBytes time)))
  | .timing _ _ | .ptp _ _ _ | .forward _ _ | .arp _ _ _ _ _ | .delayReq _ _ _ | .pulse _ _ _ _ _ _ _ _ | .tsw _ _ _
  | .corrupt _ _ _ => none

/-- EtherType, destination and source address of a frame that the module itself makes (R236, R284, R286, R307, R320). -/
def State.frameAddress (s : State) : Tx → Option (Nat × BitVec 48 × BitVec 48)
  | .reply port mac _ _ _ _ _ _ _ _ _ _ => some (0x0800, mac, s.portMac port.val)
  | .data port dest _ _ _ _ _ _ => some (0x0800, dest.mac, s.portMac port.val)
  | .heartbeat port dest _ _ _ => some (0x0800, dest.mac, s.portMac port.val)
  | .timing port _ => some (0x88B5, 0x034357000001, s.portMac port.val)
  | .arp port _ _ mac _ => some (0x0806, mac, s.portMac port.val)
  | .delayReq port _ _ => some (0x88F7, 0x011B19000000, s.portMac port.val)
  | .ptp _ _ _ | .forward _ _ | .pulse _ _ _ _ _ _ _ _ | .tsw _ _ _ | .corrupt _ _ _ => none

/-- The payload of a frame that the module itself makes and that is no IPv4 packet. -/
def State.payloadOf (s : State) : Tx → Option (List Byte)
  | .timing _ bytes => some bytes
  | .delayReq port domainNumber seqId => some (s.delayReqBytes port.val domainNumber seqId)
  | _ => none

/-- Four bytes of a frame from an offset on are XORed with a pattern, the most significant byte first (R316). -/
def corruptBytes (offset : Nat) (pattern : Word) (frame : List Byte) : List Byte :=
  let p := beBytes 4 pattern.toNat
  frame.mapIdx fun i b => if offset ≤ i ∧ i < offset + 4 then b ^^^ p.getD (i - offset) 0 else b

end Sys2Proof.Machine
end

