-- ==== Sys2Proof/Machine/Time.lean ====
section
/-! DEFINITION. The Station Clock: the bases and module time as they count, the domains, the steering tick, steps, L,
the transparent clocks and the error bound (R230–R255). Bases are counted in 2^-60 ns; a base's rate is relative to
module time, in 2^-44. -/

namespace Sys2Proof.Machine

def State.withTim (f : Tim → Tim) (s : State) : State := { s with tim := f s.tim }

def State.dom (s : State) (d : Fin 2) : Dom := if d = 0 then s.tim.domA else s.tim.domB

def State.updDom (d : Fin 2) (f : Dom → Dom) (s : State) : State :=
  s.withTim fun t => if d = 0 then { t with domA := f t.domA } else { t with domB := f t.domB }

/-! ### Counting (R230, R231, R248) -/

/-- Module time and the bases count on the RC (R231, R242, R248). -/
def State.onRc (s : State) : Bool := s.bit Reg.timStat 7

/-- The RC's count of a nominal sample period, within ±0.5% (R253, R258). -/
def rcStep (i : Nat) : Nat := min (periodU + 163) (max (periodU - 163) (Config.rcAdvance i))

/-- At the stop the scales move to the RC (R248 step 1). -/
def State.timeStops (s : State) : State :=
  let t := s.withTim fun t =>
    { t with stopAt := t.mt, stopBound := s.get Reg.timErrBound, stopDue := none
             domA := { t.domA with measured := false }, domB := { t.domB with measured := false } }
  ((t.setBit Reg.timStat 7 true).attend Atn.time).noteTime s

/-- The frame boundary of a stop has come: the last sample has been taken (R248, R273). -/
def State.stopAtFrame (s : State) : State :=
  match s.tim.stopDue with
  | some u => if u ≤ s.tim.mt then s.timeStops else s
  | none => s

/-- One sample period passes with no command waiting (log entry 2): the scales count, and queued frames leave. -/
def State.tick (s : State) : State :=
  let s := s.withTim fun t => { t with now := t.now + periodU }
  if s.modes.inner = .dormant || s.modes.inner = .boot then s
  else
    let s :=
      if s.onRc then
        let (i, s) := s.takeFree
        let d := rcStep i
        s.withTim fun t =>
          { t with mt := t.mt + d, baseL := t.baseL + d * 2 ^ 44
                   domA := { t.domA with base := t.domA.base + d * 2 ^ 44 }
                   domB := { t.domB with base := t.domB.base + d * 2 ^ 44 } }
      else
        s.withTim fun t =>
          { t with mt := t.mt + periodU, baseL := t.baseL + (2 ^ 59 + t.rateL * 2 ^ 15)
                   domA := { t.domA with base := t.domA.base + (2 ^ 59 + t.domA.rate * 2 ^ 15) }
                   domB := { t.domB with base := t.domB.base + (2 ^ 59 + t.domB.rate * 2 ^ 15) } }
    s.stopAtFrame.pump

/-! ### Domains (R236–R239) -/

def State.domState (s : State) (d : Fin 2) : Nat := s.fld (Reg.timDomStat d) 2 0

/-- A domain's state in both registers; leaving LOCKED sets ATN_TIME (R247). -/
def State.setDomState (d : Fin 2) (st : Nat) (s : State) : State :=
  let was := s.domState d
  let s := s.setFld (Reg.timDomStat d) 2 0 st
  let s := if d = 0 then s.setFld Reg.timStat 22 20 st else s.setFld Reg.timStat 26 24 st
  let s := s.updDom d fun x =>
    { x with lockedAt := if st = 3 then (if was = 3 then x.lockedAt else some s.tim.now) else none
             held := x.held && st == 3 }
  if was = 3 && st != 3 then s.attend Atn.time else s

def State.domValid (s : State) (d : Fin 2) : Bool := decide (2 ≤ s.domState d)
def State.domEnabled (s : State) (d : Fin 2) : Bool := s.bit Reg.timCtrl (8 + d.val)
def State.domNumber (s : State) (d : Fin 2) : Nat := s.fld (Reg.timDomCfg d) 22 16

/-- In-port of a domain. -/
def domPort (d : Fin 2) : Nat := if d = 0 then 2 else 4

/-- A base in 2^-16 ns. -/
def baseU (b : Int) : Int := b / 2 ^ 44

/-- The clock is stopped (CLK_STAT.STOPPED, R273). -/
def State.stopped (s : State) : Bool := s.bit Reg.clkStat 8

/-- A message that the domain's ordinary clock may use (R236, R237). -/
def State.domHears (s : State) (d : Fin 2) (port : Port) (number : Byte) (version minor : Nat) : Bool :=
  s.modes.control && s.domEnabled d && s.bit (Reg.timDomCfg d) 1 && port.val == domPort d
  && number.toNat == s.domNumber d && version == 2 && decide (minor ≤ 1)

/-- What a domain has heard is forgotten; no master is selected (R255). -/
def State.forget (d : Fin 2) (s : State) : State :=
  (s.setBit (Reg.timDomStat d) 9 false).updDom d fun x => { Dom.reset with base := x.base, rate := x.rate, pend := x.pend }

/-- TIM_CTRL in force is followed: a domain goes OFF or begins to listen (R239). -/
def State.followEnables (s : State) : State :=
  [0, 1].foldl (fun (s : State) (d : Fin 2) =>
    if s.domEnabled d then (if s.domState d = 0 then s.setDomState d 1 else s)
    else if s.domState d = 0 then s
    else (s.setDomState d 0).forget d) s

/-- STEP_THRESH of a domain in 2^-16 ns. -/
def State.stepThresh (s : State) (d : Fin 2) : Nat := s.fld (Reg.timDomServo d) 31 16 * 10 * nsU

def State.asym (s : State) (d : Fin 2) : Int := signed 64 (s.get64 (Reg.timDomAsymLo d) (Reg.timDomAsymHi d)).toNat
def State.mpd (s : State) (d : Fin 2) : Int := signed 64 (s.get64 (Reg.timDomMpdLo d) (Reg.timDomMpdHi d)).toNat

/-- The base steps to its master's time (R238). -/
def State.stepBase (d : Fin 2) (off : Int) (s : State) : State :=
  (s.updDom d fun x => { x with base := x.base - off * 2 ^ 44, good := 0, fresh := false }).bump (Reg.timDomSteps d)

/-- An offset of the base from its master is measured (R237–R239). -/
def State.measured (d : Fin 2) (m : SyncMsg) (s : State) : State :=
  let off := m.ingress - m.origin - m.correction - (s.mpd d + s.asym d)
  let s := s.set64 (Reg.timDomOfsLo d) (Reg.timDomOfsHi d) (unsigned 64 off)
  let s := s.updDom d fun x => { x with measured := true }
  let (i, s) := s.takeFree
  let s := s.updDom d fun x => { x with rate := Config.servoRate i }
  match s.domState d with
  | 1 | 4 => (s.setDomState d 2).stepBase d off
  | 2 =>
    if (s.dom d).fresh || decide (s.stepThresh d < off.natAbs) then s.stepBase d off
    else if off.natAbs ≤ 100 * nsU then
      let n := (s.dom d).good + 1
      let s := s.updDom d fun x => { x with good := n }
      if 16 ≤ n then s.setDomState d 3 else s
    else s.updDom d fun x => { x with good := 0 }
  | 3 => if s.stepThresh d < off.natAbs then (s.setDomState d 2).stepBase d off else s
  | _ => s

/-- What the ordinary clock uses of a Sync: its own time, or that of the Follow_Up with its sequenceId, source and domain,
whose correction adds up with the Sync's (R236). -/
def pairedSync (m : SyncMsg) : Option SyncMsg :=
  if !m.twoStep then some m
  else match m.followUp with
    | none => none
    | some f =>
      if f.seqId = m.seqId && f.source = m.source && f.domainNumber = m.domainNumber then
        some { m with origin := f.origin, correction := m.correction + f.correction }
      else none

/-- A Sync of the selected master, with its Follow_Up if two-step (R236, R237, R239). -/
def sync (d : Fin 2) (m : SyncMsg) (s : State) : State :=
  let x := s.dom d
  let own := match x.master with
    | some a => a.source == m.source
    | none => false
  let l := signed 8 m.logInterval.toNat
  if !s.domHears d m.port m.domainNumber m.versionPtp m.minorVersionPtp || !own || s.stopped || l < -7 || 0 < l then s
  else match pairedSync m with
    | none => s
    | some m =>
      let s := s.updDom d fun x => { x with sync := some m, lastSync := s.tim.now }
      let s := (s.setFld (Reg.timDomStat d) 23 16 m.logInterval.toNat).bump (Reg.timDomSyncCnt d)
      if x.gotResp then s.measured d m else s

/-- The module's port identity: EUI-64 and port number (R236). -/
def State.portIdentity (s : State) (d : Fin 2) : BitVec 80 :=
  (s.get64 Reg.ilkEui64Lo Reg.ilkEui64Hi) ++ BitVec.ofNat 16 (d.val + 1)

/-- The answer to the domain's own Delay_Req: mean path delay (R237; IEEE 1588's formula, log entry 18). -/
def delayResp (d : Fin 2) (m : DelayRespMsg) (s : State) : State :=
  let x := s.dom d
  let own := match x.master with
    | some a => a.source == m.source
    | none => false
  match x.req, x.sync with
  | some (q, t3), some y =>
    if !s.domHears d m.port m.domainNumber m.versionPtp m.minorVersionPtp || !own || s.stopped || q != m.seqId
        || m.requesting != s.portIdentity d then s
    else
      let mpd := roundAway ((y.ingress - t3) + (m.receive - y.origin) - y.correction - m.correction) 2
      let s := s.set64 (Reg.timDomMpdLo d) (Reg.timDomMpdHi d) (unsigned 64 mpd)
      let first := !x.gotResp
      let s := s.updDom d fun x => { x with gotResp := true, req := none, reqLog := m.logInterval }
      if first then s.measured d y else s
  | _, _ => s

/-- Dataset comparison (R237; IEEE 1588): whether `a` is better than `b`. -/
def betterMaster (a b : AnnounceMsg) : Bool :=
  if a.gmIdentity = b.gmIdentity then
    if a.stepsRemoved = b.stepsRemoved then decide (a.source.toNat < b.source.toNat)
    else decide (a.stepsRemoved.toNat < b.stepsRemoved.toNat)
  else
    let key (m : AnnounceMsg) : List Nat :=
      [m.priority1.toNat, m.gmClass.toNat, m.accuracy.toNat, m.variance.toNat, m.priority2.toNat, m.gmIdentity.toNat]
    let rec less : List Nat → List Nat → Bool
      | x :: xs, y :: ys => if x = y then less xs ys else decide (x < y)
      | _, _ => false
    less (key a) (key b)

/-- The best of the masters still heard: one is silent after three of its announce intervals (R237; log entry 142). -/
def State.bestMaster (s : State) (d : Fin 2) : Option AnnounceMsg :=
  let wait (m : AnnounceMsg) : Nat :=
    let l := signed 8 m.logInterval.toNat
    if 0 ≤ l then secU (3 * 2 ^ l.toNat) else secU 3 / 2 ^ (-l).toNat
  let live := (s.dom d).heard.filter fun (a : AnnounceMsg × Nat) => decide (s.tim.now ≤ a.2 + wait a.1)
  live.foldl (fun (b : Option AnnounceMsg) (a : AnnounceMsg × Nat) => match b with
    | none => some a.1
    | some m => if betterMaster a.1 m then some a.1 else b) none

/-- The domain's master is chosen anew among those heard; it may tell of another grandmaster (R237, R239). -/
def State.selectMaster (d : Fin 2) (s : State) : State :=
  let x := s.dom d
  match s.bestMaster d with
  | none =>
    (s.setBit (Reg.timDomStat d) 9 false).updDom d fun x => { x with master := none, gotResp := false, sync := none, req := none }
  | some m =>
    let newSource := match x.master with
      | none => true
      | some a => a.source != m.source
    let gm := match x.lastGm with
      | none => false
      | some g => g != m.gmIdentity
    let s := s.updDom d fun x =>
      { x with master := some m, lastGm := some m.gmIdentity, gotResp := x.gotResp && !newSource
               sync := if newSource then none else x.sync, req := if newSource then none else x.req }
    let s := (s.setBit (Reg.timDomStat d) 9 true).setBit (Reg.timDomStat d) 8 (!m.ptpTimescale)
    let s := s.set64 (Reg.timDomGmLo d) (Reg.timDomGmHi d) m.gmIdentity.toNat
    let s := (s.setFld (Reg.timDomUtc d) 15 0 m.utcOffset.toNat).setBit (Reg.timDomUtc d) 16 m.utcValid
    if !gm then s
    else
      let s := (s.setBit Reg.timStat 9 true).attend Atn.time
      if s.domValid d then (s.setDomState d 2).updDom d fun x => { x with fresh := true, good := 0 } else s

/-- An Announce is heard, and the master selected among those heard; during a clock stop the domain stays as it is (R237,
R239, R248). -/
def announce (d : Fin 2) (m : AnnounceMsg) (s : State) : State :=
  if !s.domHears d m.port m.domainNumber m.versionPtp m.minorVersionPtp then s
  else
    let s := s.updDom d fun x =>
      { x with heard := (x.heard.filter fun (a : AnnounceMsg × Nat) => a.1.source != m.source) ++ [(m, s.tim.now)] }
    if s.stopped then s else s.selectMaster d

/-- At a tick a master that has fallen silent gives way to the best of those still heard (R237). -/
def State.followMasters (s : State) : State :=
  [0, 1].foldl (fun (s : State) (d : Fin 2) => if s.bestMaster d = (s.dom d).master then s else s.selectMaster d) s

/-- The domain's own Delay_Req, at the master's rate and at most 16 a second (R236). -/
def delayReqSend (d : Fin 2) (egress : Int) (s : State) : State :=
  let x := s.dom d
  let l := signed 8 x.reqLog.toNat
  let gap : Nat := if 0 ≤ l then secU (2 ^ l.toNat) else max (secU 1 / 16) (secU 1 / 2 ^ (-l).toNat)
  if !s.modes.control || !s.domEnabled d || !s.bit (Reg.timDomCfg d) 1 || x.master.isNone || x.sync.isNone || s.stopped
      || !s.portLive (domPort d) || (x.reqAt != 0 && decide (s.tim.now < x.reqAt + gap)) then s
  else
    let s := s.updDom d fun x =>
      { x with req := some (x.reqSeq, egress), reqSeq := x.reqSeq + 1, reqAt := s.tim.now }
    s.send (domPort d) (.delayReq (Fin.ofNat 7 (domPort d)) (BitVec.ofNat 8 (s.domNumber d)) x.reqSeq)

/-- No valid Sync for SYNC_TIMEOUT (R239). States are kept during a clock stop (R248). -/
def syncTimeout (d : Fin 2) (s : State) : State :=
  if s.stopped || decide (s.tim.now < (s.dom d).lastSync + msU (s.fld Reg.timTimeout 15 0)) then s
  else
    let lose (st : Nat) : State := (s.setDomState d st).updDom d fun x => { x with gotResp := false, sync := none, good := 0 }
    match s.domState d with
    | 3 => lose 4
    | 2 => lose 1
    | _ => s

/-- A domain has been LOCKED for RETURN_HOLD: from the next tick on it may be the reference again (R245). -/
def returnHoldExpire (d : Fin 2) (s : State) : State :=
  match (s.dom d).lockedAt with
  | none => s
  | some t =>
    if t + secU (s.fld Reg.timTimeout 31 16) ≤ s.tim.now then s.updDom d fun x => { x with held := true } else s

/-! ### The reference (R245, R246) -/

/-- Present reference: 0 A, 1 B, 2 L. -/
def State.timRef (s : State) : Nat := s.fld Reg.timStat 17 16

def dOf (r : Nat) : Fin 2 := if r = 0 then 0 else 1

def State.locked (s : State) (r : Nat) : Bool := decide (r < 2) && s.domState (dOf r) == 3
def State.heldLong (s : State) (r : Nat) : Bool := s.locked r && (s.dom (dOf r)).held

/-- The base that R245's rules 2–6 choose, given the present one. -/
def State.chooseRef (s : State) (cur : Nat) : Nat :=
  let sel := s.fld Reg.timCtrl 1 0
  let other := 1 - sel
  if !s.bit Reg.timCtrl 4 then
    if sel < 2 && s.domValid (dOf sel) then sel else 2
  else if 2 ≤ sel then 2
  else
    let prefer := if s.locked sel then sel else if s.domEnabled (dOf other) && s.locked other then other else 2
    if cur = 2 then (if s.heldLong prefer then prefer else 2)
    else if s.tim.reselect then prefer
    else if cur = sel then prefer
    else if s.locked cur then
      (if s.bit Reg.timCtrl 5 && s.heldLong sel then sel else cur)
    else prefer

/-- A base by its number, in 2^-60 ns, and its rate. -/
def State.baseOf (s : State) (r : Nat) : Int :=
  if r = 0 then s.tim.domA.base else if r = 1 then s.tim.domB.base else s.tim.baseL

def State.rateOf (s : State) (r : Nat) : Int :=
  if r = 0 then s.tim.domA.rate else if r = 1 then s.tim.domB.rate else s.tim.rateL

def State.setLState (st : Nat) (s : State) : State := s.setFld Reg.timLStat 1 0 st

/-- L runs free from here on, at the rate it has learned for the XO (R246). -/
def State.freeL (s : State) : State :=
  let (i, s) := s.takeFree
  s.withTim fun t => { t with rateL := Config.xoOffset i - signed 32 (s.get Reg.timLRate).toNat }

/-- Tracking pauses; what has been tracked counts on since the last reference use (R246, R255). -/
def State.stopTracking (s : State) : State :=
  match s.tim.trackAt with
  | some a => s.withTim fun t => { t with trackAt := none, tracked := t.tracked + (t.now - a) }
  | none => s

/-- The reference in use changes: the flags, and L's part (R245, R246). -/
def State.setRef (r : Nat) (s : State) : State :=
  let first := s.timRef = 0 && s.fld Reg.timLStat 1 0 == 0 && !s.bit Reg.timStat 1
  let s := if s.timRef = r || first then s.setFld Reg.timStat 17 16 r
    else ((s.setFld Reg.timStat 17 16 r).setBit Reg.timStat 8 true).attend Atn.time
  let tracking := s.fld Reg.timLStat 1 0 == 1
  let free (s : State) : State := if tracking then s.freeL else s
  if r = 2 then
    if s.fld Reg.timLStat 1 0 = 2 then s
    else
      free ((s.setLState 2).withTim fun t =>
        { t with trackAt := none, tracked := 0, refAt := t.now, refBound := s.get Reg.timErrBound })
  else if s.locked r then
    if tracking then s
    else ((s.setLState 1).setFld Reg.timLStat 31 16 (s.tim.tracked / secU 60)).withTim fun t => { t with trackAt := some t.now }
  else free (s.stopTracking.setLState 0)

/-! ### Steps (R242–R244) -/

/-- A wide time stays within 64 bits of seconds. -/
def wrapTime (t : Int) : Nat := (t % ((2 ^ 64 * 1000000000 * 65536 : Nat) : Int)).toNat

/-- A step of module time: L steps with it, and the log records it; the moments from which a stop
is measured move along. `cause`: 0 first lock, 1 TO_REF, 2 BY, 3 TO. -/
def State.stepTime (cause : Nat) (new_ : Nat) (s : State) : State :=
  let size : Int := (new_ : Int) - s.tim.mt
  let s := s.withTim fun t =>
    { t with mt := new_, baseL := t.baseL + size * 2 ^ 44, stopAt := ((t.stopAt : Int) + size).toNat }
  let s := { s with clk := { s.clk with lossAt := ((s.clk.lossAt : Int) + size).toNat
                                        lastSample := ((s.clk.lastSample : Int) + size).toNat } }
  let s := s.set Reg.timStepInfo (BitVec.ofNat 32 (cause * 65536 + min 65535 (s.fld Reg.timStepInfo 15 0 + 1)))
  let s := s.set64 Reg.timStepSizeLo Reg.timStepSizeHi (unsigned 64 size)
  let s := s.stamp Reg.timStepAtS Reg.timStepAtNs new_
  let s := s.set64 Reg.timStepQseqLo Reg.timStepQseqHi s.seqNext
  let s := s.set64 Reg.timStepUseqLo Reg.timStepUseqHi s.unitSeq
  (s.setBit Reg.timStat 0 true).attend Atn.time

/-- The STEP_TIMEs that are due, in order: their operations are done (R243, R341). -/
def State.takeStep (s : State) : State :=
  if s.modes.sampling then s
  else
    s.tim.steps.foldl (fun (s : State) (q : StepReq) =>
      let old := s.tim.mt
      let new_ := match q.form with
        | 0 => wrapTime (baseU (s.baseOf s.timRef))
        | 1 => wrapTime (old + q.value)
        | _ => wrapTime q.value
      (s.stepTime (q.form + 1) new_).optDone q.op St.ok (beBytes 8 (unsigned 64 ((new_ : Int) - old))))
      (s.withTim fun t => { t with steps := [] })

/-- First lock (R242): the step is due at the tick after the selection, and waits while a tile samples. -/
def State.firstLock (s : State) : State :=
  let r := s.chooseRef 2
  if s.bit Reg.timStat 1 || !s.locked r then s
  else if s.modes.sampling then
    if s.bit Reg.timStat 4 then s else (s.setBit Reg.timStat 4 true).attend Atn.time
  else if s.tim.firstDue || s.bit Reg.timStat 4 then
    let s := s.stepTime 0 (wrapTime (baseU (s.baseOf r)))
    let s := (s.setBit Reg.timStat 1 true).setBit Reg.timStat 4 false
    (s.withTim fun t => { t with firstDue := false }).setRef r
  else s.withTim fun t => { t with firstDue := true }

/-! ### The steering tick (R240, R241, R246, R248, R253) -/

/-- Maximum holdover error in ns after a time on L, taken linearly between the stated points (R253). -/
def holdoverNs (u : Nat) : Option Nat :=
  let up (a b : Nat) : Nat := (a + b - 1) / b
  if u ≤ secU 1 then some (up (u * 2) (secU 1))
  else if u ≤ secU 100 then some (2 + up ((u - secU 1) * 498) (secU 99))
  else if u ≤ secU 1000 then some (500 + up ((u - secU 100) * 19500) (secU 900))
  else none

/-- TIM_ERR_BOUND (R253). -/
def State.errBound (e : Int) (s : State) : State :=
  let r := s.timRef
  let bound : Word :=
    if s.stopped && !s.onRc then s.get Reg.timErrBound
    else if s.stopped then
      if s.tim.stopBound = 0xFFFFFFFF then 0xFFFFFFFF
      else BitVec.ofNat 32 (min 0xFFFFFFFE (s.tim.stopBound.toNat + ((s.tim.mt - s.tim.stopAt) / 200 + nsU - 1) / nsU))
    else if s.locked r then
      if !(s.dom (dOf r)).measured then s.get Reg.timErrBound
      else if s.bit Reg.timStat 5 then BitVec.ofNat 32 (min 0xFFFFFFFE ((e.natAbs + nsU - 1) / nsU)) else 0
    else if r = 2 then
      if !s.bit Reg.timLStat 8 then 0xFFFFFFFF
      else match holdoverNs (s.tim.now - s.tim.refAt) with
        | none => 0xFFFFFFFF
        | some h => if s.tim.refBound = 0xFFFFFFFF then 0xFFFFFFFF
          else BitVec.ofNat 32 (min 0xFFFFFFFE (s.tim.refBound.toNat + h))
    else s.get Reg.timErrBound
  s.set Reg.timErrBound bound

/-- SLEW_LIMIT as a rate in 2^-44: 0.01 ppm a step. -/
def State.slewLimit (s : State) : Int := (s.fld Reg.timSlew 9 0 * 2 ^ 44 / 100000000 : Nat)

/-- r of R240, in 2^-44: e in 2^-16 ns over TAU in ms. -/
def State.slewRate (s : State) (e : Int) : Int :=
  clampI (-s.slewLimit) s.slewLimit (roundAway (-e * 2 ^ 28) (s.fld Reg.timMtTau 16 0 * 1000000 : Nat))

/-- The rate of module time is set against the reference; every base keeps its own frequency, so all rates relative to
module time shift alike, and the sample path's word with them (R231, R240, R265). -/
def State.steer (r : Int) (s : State) : State :=
  let d := -r - s.rateOf s.timRef
  let w := clampI (-1759218604) 1759218604 (signed 32 (s.get Reg.clkPllWord).toNat - d)
  let s := s.withTim fun t =>
    { t with rateL := t.rateL + d, domA := { t.domA with rate := t.domA.rate + d }
             domB := { t.domB with rate := t.domB.rate + d } }
  (s.set Reg.timMtRate (BitVec.ofInt 32 r)).set Reg.clkPllWord (BitVec.ofInt 32 w)

/-- SLEWING with its hysteresis (R241). -/
def State.slewing (e : Int) (s : State) : State :=
  let th := s.fld Reg.timSlew 31 16 * 10 * nsU
  if s.bit Reg.timStat 5 then (if 2 * e.natAbs ≤ th then s.setBit Reg.timStat 5 false else s)
  else if th < e.natAbs then (s.setBit Reg.timStat 5 true).attend Atn.time else s

/-- Time that L has tracked since the last reference use (R246, R255). -/
def State.trackedU (s : State) : Nat := s.tim.tracked + ((s.tim.trackAt.map fun a => s.tim.now - a).getD 0)

/-- L tracks while the reference is a LOCKED domain: by rate onto module time, and the XO rate it has learned follows the
XO's offset, both with a time constant of 100 s, 100,000 ticks (R246). The PLL applies the learned rate while it runs from
the XO (R270). -/
def State.trackL (s : State) : State :=
  if s.tim.trackAt.isNone then s
  else
    let (i, s) := s.takeFree
    let s := s.setFld Reg.timLStat 31 16 (min 65535 (s.trackedU / secU 60))
    let el : Int := baseU s.tim.baseL - s.tim.mt
    let learned := signed 32 (s.get Reg.timLRate).toNat
    let next := clampI (-(2 ^ 31)) (2 ^ 31 - 1) (learned + roundAway (Config.xoOffset i - learned) 100000)
    let s := s.set Reg.timLRate (BitVec.ofInt 32 next)
    let s := s.withTim fun x => { x with rateL := roundAway (-el * 2 ^ 44) (secU 100) }
    if s.fld Reg.clkStat 1 0 = 2 then { s with clk := { s.clk with lineRate := -next } } else s

/-- Every 1 ms (R240–R248). During a clock stop steps are taken and the reference is chosen as ever, but the domains keep
their masters and nothing is steered (log entry 163). -/
def steeringTick (s : State) : State :=
  if !s.modes.control then s
  else
    let old := s
    let run := !s.stopped
    let s := (if run then s.followMasters else s).takeStep.firstLock
    let s := if s.bit Reg.timStat 1 then (s.setRef (s.chooseRef s.timRef)) else s.setRef 2
    let s := s.withTim fun t => { t with reselect := false }
    let e := (s.tim.mt : Int) - baseU (s.baseOf s.timRef)
    let s := s.set64 Reg.timMtErrLo Reg.timMtErrHi (unsigned 64 e)
    let ab := s.domValid 0 && s.domValid 1
    let s := s.setBit Reg.timStat 10 ab
    let s := if ab then s.set64 Reg.timAbOfsLo Reg.timAbOfsHi
        (unsigned 64 (baseU s.tim.domA.base - baseU s.tim.domB.base)) else s
    let s := (if run then s.steer (s.slewRate e) else s).slewing e
    let s := if run then s.trackL else s
    let s := if s.bit Reg.timStat 6 && s.locked s.timRef && !s.bit Reg.timStat 5 then
        (s.setBit Reg.timStat 6 false).attend Atn.time else s
    (s.errBound e).noteTime old

/-- After 10 minutes of tracking, L is TRAINED (R246). -/
def lTrained (s : State) : State :=
  if s.tim.trackAt.isSome && decide (secU 600 ≤ s.trackedU) then s.setBit Reg.timLStat 8 true else s

/-! ### Snapshots (R230, R255) -/

/-- Module time, A, B and L in 2^-16 ns with their validity. -/
def State.scales (s : State) : List (Nat × Bool) :=
  [(s.tim.mt, true), (wrapTime (baseU s.tim.domA.base), s.domValid 0),
   (wrapTime (baseU s.tim.domB.base), s.domValid 1), (wrapTime (baseU s.tim.baseL), s.bit Reg.clkStat 6)]

/-- Writing SNAP latches the four scales in one period. -/
def State.snapTime (s : State) : State :=
  (withIdx s.scales).foldl (fun (s : State) (x : Nat × Nat × Bool) =>
    let t := x.2.1
    let s := s.set64 (Reg.timSnSLo x.1) (Reg.timSnSHi x.1) (secOf t)
    (s.set (Reg.timSnNs x.1) (BitVec.ofNat 32 (nsOf t))).set (Reg.timSnFr x.1)
      (BitVec.ofNat 32 (frOf t + if x.2.2 then 2 ^ 31 else 0))) s

/-! ### A clock stop and its end (R248) -/

/-- The sample clock runs again (R248 step 3); HOLDOVER after a stop that found tiles sampling. -/
def State.timeResumes (holdover : Bool) (s : State) : State :=
  let t := s.withTim fun t => { t with stopDue := none }
  let t := if t.bit Reg.timStat 7 then (t.setBit Reg.timStat 7 false).attend Atn.time else t
  (if holdover && !t.bit Reg.timStat 6 then (t.setBit Reg.timStat 6 true).attend Atn.time else t).noteTime s

/-! ### Transparent clocks (R249–R252) -/

/-- Pair of a timing port. -/
def pairOf (p : Nat) : Fin 2 := if p < 4 then 0 else 1

/-- A residence time in the time of the message's domain, if a domain follows that number; else of the reference (R250). -/
def State.inDomain (s : State) (pair : Fin 2) (number : Byte) (res : Int) : Int :=
  let follows (d : Fin 2) : Bool := s.domNumber d == number.toNat && s.domValid d
  let rate := if follows pair then (s.dom pair).rate
    else if follows (1 - pair) then (s.dom (1 - pair)).rate
    else s.rateOf s.timRef
  res + roundAway (res * rate) (2 ^ 44)

def addCorrection (c r : Int) : Int := min (2 ^ 63 - 1) (c + r)

/-- Messages with a time-stamp at their passing, which leave first (R251, R306). -/
def ptpEvent : PtpType → Bool
  | .sync | .delayReq | .pdelay => true
  | .followUp | .delayResp | .announce | .signaling | .management => false

/-- Whether a message passes from a port (R249): Sync, Follow_Up, Delay_Resp and Announce from the in-port, Delay_Req from
the out-port, others both ways. -/
def ptpPasses (t : PtpType) (p : Nat) : Bool :=
  match t with
  | .sync | .followUp | .delayResp | .announce => p == 2 || p == 4
  | .delayReq => p == 3 || p == 5
  | .signaling | .management | .pdelay => true

/-- A PTP frame that passes through a timing pair (R249–R252, R306). -/
def transparentClock (p : Nat) (f : PtpFrame) (bytes : List Byte) (s : State) : State :=
  if !isTiming p then s
  else if !f.fcsOk then s.bump (Reg.lnkPortFcs p)
  else
    let s := s.countRx p
    let d := pairOf p
    let out := otherPort p
    let go (x : Tx) (s : State) : State :=
      if ptpEvent f.type then s.sendEvent out x else s.sendOther out bytes.length x
    let unchanged := go (.forward (Fin.ofNat 7 out) bytes) s
    let res := s.inDomain d f.domainNumber ((f.egress : Int) - f.ingress)
    let corrected (c : Int) (s : State) : State :=
      (go (.ptp (Fin.ofNat 7 out) (addCorrection f.correction c) bytes) s).bump (Reg.timDomTcCnt d)
    let timed := f.type == .sync || f.type == .followUp || f.type == .delayReq
    if !s.bit (Reg.timDomCfg d) 2 || f.versionPtp != 2 then unchanged
    else if !ptpPasses f.type p then s
    else if !timed then unchanged
    else if s.stopped then s.bump (Reg.timDomTcDrop d)
    else if f.type == .followUp then
      match (s.dom d).pend.find? fun (x : Resid) => x.seqId == f.seqId && x.source == f.source
          && x.domainNumber == f.domainNumber && decide (s.tim.now ≤ x.at_ + secU 1) with
      | none => s.bump (Reg.timDomTcDrop d)
      | some x => corrected x.residence (s.updDom d fun y => { y with pend := y.pend.filter fun (z : Resid) => z != x })
    else if f.type == .sync && f.twoStep then
      unchanged.updDom d fun y =>
        { y with pend := ((⟨f.seqId, f.source, f.domainNumber, res, s.tim.now⟩ : Resid) :: y.pend).take 8 }
    else corrected res s

/-! ### Meanings -/

def execDelayReqSend (d : Fin 2) (egress : Int) (s : State) : Host.Outcome State Fault Refusal :=
  run (delayReqSend d egress) s

def execSyncTimeout (d : Fin 2) (s : State) : Host.Outcome State Fault Refusal := run (syncTimeout d) s

def execSteeringTick (s : State) : Host.Outcome State Fault Refusal := run steeringTick s

def execReturnHoldExpire (d : Fin 2) (s : State) : Host.Outcome State Fault Refusal := run (returnHoldExpire d) s

def execLTrained (s : State) : Host.Outcome State Fault Refusal := run lTrained s

end Sys2Proof.Machine
end

