-- ==== Sys2Proof/Machine/Clock.lean ====
section
/-! DEFINITION. Clock sources, the PLL's reference, the stop for clock loss and its end, RC trimming (R256–R275, R281). -/

namespace Sys2Proof.Machine

/-! ### Sources (R260–R264): 0 A-in, 1 B-in, 2 XO -/

def allSrcs : List Nat := [0, 1, 2]

def State.srcRunning (s : State) (x : Nat) : Bool := s.bit (Reg.clkSrcStat x) 4

/-- Valid, or the qualified XO (R262, R263). -/
def State.srcValid (s : State) (x : Nat) : Bool := s.bit Reg.clkStat (4 + x)

def State.srcEnabled (s : State) (x : Nat) : Bool := x == 2 || s.bit Reg.clkCtrl (8 + x)

/-- Present reference; 3 none. -/
def State.pllRef (s : State) : Nat := s.fld Reg.clkStat 1 0

def State.pllLocked (s : State) : Bool := s.bit Reg.clkStat 3

/-- Comparison clock of a source: a source, 3 the RC, 4 none (R261). -/
def State.cmpClock (s : State) (x : Nat) : Nat :=
  if !s.srcRunning x then 4
  else if x < 2 then
    if s.srcValid 2 then 2 else if s.pllRef == 1 - x && s.srcValid (1 - x) then 1 - x else 3
  else if s.pllRef < 2 && s.srcValid s.pllRef then s.pllRef
  else if s.srcValid 0 then 0 else if s.srcValid 1 then 1 else 3

/-- CMP of CLK_SRCx_STAT. -/
def cmpCode : Nat → Nat
  | 0 | 1 => 1
  | 2 => 0
  | 3 => 2
  | _ => 3

def State.setCount (x n : Nat) (s : State) : State := s.setFld (Reg.clkSrcStat x) 20 16 n

/-- What changes a comparison clock restarts the source's count (R262, R263), but for the clocks in `keep`. -/
def State.recompareBut (keep : List Nat) (s old : State) : State :=
  allSrcs.foldl (fun (s : State) (x : Nat) =>
    let c := s.cmpClock x
    let s := s.setFld (Reg.clkSrcStat x) 9 8 (cmpCode c)
    if c != old.cmpClock x && !keep.contains x then s.setCount x 0 else s) s

def State.recompare (s old : State) : State := s.recompareBut [] old

/-- A source loses its validity and its count; the XO's disqualification sets ATN_CLOCK (R262, R263, R281). -/
def State.srcLost (x : Nat) (s : State) : State :=
  let was := s.srcValid x
  let s := (s.setCount x 0).setBit Reg.clkStat (4 + x) false
  let s := { s with clk := { s.clk with validAt := dropK x s.clk.validAt } }
  if was && x == 2 then s.attend Atn.clock else s

/-- Valid sources in the order A-in, B-in, XO. -/
def State.validSrcs (s : State) : List Nat := allSrcs.filter fun x => s.srcValid x

/-- The PLL's reference; from the XO both paths run with the learned rate, TIM_L_RATE, taken off (R270). -/
def State.setPllRef (x : Nat) (s : State) : State :=
  let rate : Int := if x = 2 then -signed 32 (s.get Reg.timLRate).toNat else 0
  { s.setFld Reg.clkStat 1 0 x with clk := { s.clk with lineRate := rate } }

/-- A hitless switch of reference (R269). -/
def State.switchRef (x : Nat) (s : State) : State := ((s.setPllRef x).bump Reg.clkSwitches).attend Atn.clock

/-- The reference has lost its validity: the first valid source in the order takes over, with LOCKED hitlessly (R268,
R271). Where none is left the loss is CLOCK_LOSS_STOP's. -/
def State.refLost (s : State) : State :=
  if s.pllRef == 3 || s.srcValid s.pllRef || !(s.pllLocked || s.clk.acquiring) then s
  else match s.validSrcs with
    | x :: _ => if s.pllLocked then s.switchRef x else s.setPllRef x
    | [] =>
      if s.pllLocked then s
      else { s.setFld Reg.clkStat 1 0 3 with clk := { s.clk with acquiring := false } }

def State.clkUp (s : State) : Bool := s.modes.control && !s.bit Reg.clkStat 10

/-- A missing edge disqualifies at once; the XO restarts (R257, R260, R262, R263, R268). Sources 3 to 5 are the RCs, of
whose monitors nothing shows (log entry 143). -/
def missingEdgeTrip (x : Nat) (s : State) : State :=
  if !s.clkUp || 2 < x || (x == 2 && !s.srcRunning 2) then s
  else
    let t := (s.setBit (Reg.clkSrcStat x) 0 true).srcLost x
    let t := if x == 2 then { t.setBit (Reg.clkSrcStat 2) 4 false with clk := { t.clk with xoRunAt := none } } else t
    (t.refLost).recompare s

/-- Block-lock loss of a recovered source (R260, R263). -/
def blockLockLoss (x : Nat) (s : State) : State :=
  if !s.clkUp || !s.srcRunning x then s
  else
    let t := ((s.setBit (Reg.clkSrcStat x) 2 true).setBit (Reg.clkSrcStat x) 4 false).srcLost x
    (t.refLost).recompare s

/-- The median of the three RC errors as last measured, in ppb (R259, R261). -/
def State.rcMedian (s : State) : Int :=
  let e (n : Nat) : Int := signed 16 (s.fld (Reg.clkRcStat n) 31 16) * 10000
  max (min (e 0) (e 1)) (min (max (e 0) (e 1)) (e 2))

/-- Whether a measured offset lies inside the window against a comparison clock (R261). -/
def State.inWindow (s : State) (c : Nat) (ppb : Int) : Bool :=
  if c < 3 then decide (ppb.natAbs ≤ 20000)
  else decide ((ppb + (if s.clk.rcSeen = 7 then s.rcMedian else 0)).natAbs ≤ 10000000)

/-- The clock to which a failed measurement of a source against a clock is assigned, if the rule names one (R264).
`other` is the source's offset against the third clock. -/
def State.blame (s : State) (x c : Nat) (ppb other : Int) : Option Nat :=
  if !s.srcValid x || c == 3 then some x
  else if s.validSrcs.length == 3 then
    if 20000 < other.natAbs then some x
    else if 20000 < (other - ppb).natAbs then some c
    else none
  else if x == s.pllRef then some c else some x

/-- The fault of a failed measurement falls on a clock (R262–R264). -/
def State.blamed (x : Nat) (s : State) : State :=
  (if s.srcValid x then s.setBit (Reg.clkSrcStat x) 3 true else s).srcLost x

/-- A source has 16 measurements in its window (R262, R263); the first one ends start-up step 4 (R355). -/
def State.srcPassed (x : Nat) (s : State) : State :=
  if s.srcValid x || s.fld (Reg.clkSrcStat x) 20 16 < 16 || !s.srcEnabled x then s
  else
    let s := s.setBit Reg.clkStat (4 + x) true
    let s := if x == 2 then { s.setBit Reg.clkStat 7 false with clk := { s.clk with xoRunAt := none } } else s
    let s := if s.fld Reg.pwrStart 31 28 = 3 then s.setFld Reg.pwrStart 31 28 4 else s
    { s with clk := { s.clk with validAt := putK x s.tim.now s.clk.validAt } }

/-- A 1 ms frequency measurement completes (R261–R264). Block lock of a recovered source is what the measurement shows;
a loss found here switches at the tick (R268). -/
def frequencyMeasurement (x : Nat) (ppb other : Int) (running : Bool) (s : State) : State :=
  if !s.clkUp then s
  else
    let s := if x < 2 && running then (s.setBit (Reg.clkSrcStat x) 4 true).recompare s else s
    let c := s.cmpClock x
    if c == 4 then s
    else
      let t := (s.set (Reg.clkSrcOfs x) (BitVec.ofInt 32 ppb)).setFld (Reg.clkSrcStat x) 9 8 (cmpCode c)
      if s.inWindow c ppb then
        ((t.setCount x (min 16 (s.fld (Reg.clkSrcStat x) 20 16 + 1))).srcPassed x).recompare s
      else
        let t := t.setBit (Reg.clkSrcStat x) 1 true
        match s.blame x c ppb other with
        | some y => (t.blamed y).recompareBut ([x, c].filter fun z => z != y) s
        | none => t

/-- The amplitude detector reports the XO running: qualification begins (R257, R262). -/
def xoRunning (s : State) : State :=
  if !s.clkUp || s.modes.mainMv < 10800 || s.srcRunning 2 then s
  else
    let t := (s.setBit (Reg.clkSrcStat 2) 4 true).setCount 2 0
    { t with clk := { t.clk with xoRunAt := some s.tim.now } }.recompare s

/-- XO_TIMEOUT has passed without qualification (R262). -/
def xoTimeout (s : State) : State :=
  match s.clk.xoRunAt with
  | none => s
  | some a =>
    if s.srcRunning 2 && !s.srcValid 2 && !s.bit Reg.clkStat 7
        && decide (a + msU (s.fld Reg.clkTiming 15 0) ≤ s.tim.now) then
      (s.setBit Reg.clkStat 7 true).attend Atn.clock
    else s

/-- CLK_CTRL in force is followed: a disabled recovered source is not valid, and goes on being measured (R263). -/
def State.clkApplied (s old : State) : State :=
  ([0, 1].foldl (fun (s : State) (x : Nat) =>
    if s.srcEnabled x then s.srcPassed x
    else { s.setBit Reg.clkStat (4 + x) false with clk := { s.clk with validAt := dropK x s.clk.validAt } }) s).recompare old

/-! ### The reference (R267–R271) -/

/-- A source higher in the order than the present one has been valid for WTR (R268). -/
def State.wtrServed (s : State) (x : Nat) : Bool :=
  match lookupK x s.clk.validAt with
  | some a => decide (a + secU (s.fld Reg.clkTiming 31 16) ≤ s.tim.now)
  | none => false

/-- The reference that the rules name, if a source is valid (R268). -/
def State.refWanted (s : State) : Option Nat :=
  let f := s.fld Reg.clkCtrl 1 0
  let cur := s.pllRef
  if f ≠ 0 ∧ s.srcValid (f - 1) then some (f - 1)
  else if cur == 3 || !s.srcValid cur then s.validSrcs.head?
  else if s.bit Reg.clkCtrl 4 then
    some ((s.validSrcs.find? fun x => decide (x < cur) && s.wtrServed x).getD cur)
  else some cur

/-- The reference goes to a source: a hitless switch while LOCKED, else an acquisition (R268, R269, R274). -/
def State.takeRef (x : Nat) (s : State) : State :=
  if s.pllLocked then (if s.pllRef == x then s else s.switchRef x)
  else { s.setPllRef x with clk := { (s.setPllRef x).clk with acquiring := true } }

/-- The choice at a 1 ms tick (R268, R274). -/
def referenceSelect (s : State) : State :=
  if !s.clkUp then s
  else
    let f := s.fld Reg.clkCtrl 1 0
    let t := s.setBit Reg.clkStat 9 (f != 0 && !s.srcValid (f - 1))
    (match t.refWanted with
      | some x => t.takeRef x
      | none => t.refLost).recompare s

/-- A higher source has been valid for WTR: it is the reference again (R268). -/
def wtrExpire (x : Nat) (s : State) : State :=
  if s.clkUp && s.pllLocked && s.srcValid x && s.wtrServed x && s.refWanted == some x then (s.takeRef x).recompare s
  else s

/-- CLK_STOP_LEN in µs (R274). -/
def State.stopLen (u : Nat) (s : State) : State := s.set Reg.clkStopLen (BitVec.ofNat 32 (min (2 ^ 32 - 1) (u / usU 1)))

def State.setPhaseErr (ps : Int) (s : State) : State := s.setFld Reg.clkPllStat 15 0 (unsigned 16 (clampI (-32768) 32767 ps))

/-- A stop that no resumption of sampling is to end ends once the PLL is locked (R274). -/
def State.stopEnds (s : State) : State :=
  if s.stopped && s.pllLocked && !s.clk.stopSampling then
    (((s.setBit Reg.clkStat 8 false).attend Atn.clock).stopLen (s.tim.mt - s.clk.lossAt)).timeResumes false
  else s

/-- Lock (R267). The first lock ends RC-based counting; a stop that found no tile sampling ends here (R248, R274). -/
def pllLock (ps : Int) (s : State) : State :=
  if !s.clkUp || !s.clk.acquiring || s.pllLocked || !s.srcValid s.pllRef || 10 < ps.natAbs then s
  else
    let s := (s.setPhaseErr ps).bumpFld Reg.clkPllStat 31 16 1
    let s := (s.setBit Reg.clkStat 3 true).setBit Reg.clkStat 2 false
    let s := { s with clk := { s.clk with acquiring := false } }
    if s.stopped then s.stopEnds else s.timeResumes false

/-! ### Clock loss (R272–R274) -/

/-- The PLL runs free and sampling stops at the next frame boundary, from which on time counts on the RC; where no tile
samples it does so at once (R248, R272, R273). -/
def clockLossStop (ps : Int) (s : State) : State :=
  let valid := s.pllRef != 3 && s.srcValid s.pllRef
  if !s.clkUp || !s.pllLocked || s.stopped || !(s.validSrcs.isEmpty || (valid && decide (1000 < ps.natAbs))) then s
  else
    let sampling := s.modes.sampling
    let f := match s.modes.last with
      | some l => min l s.nextFrame
      | none => s.nextFrame
    let lossAt := if sampling then s.stampOf (f - 1) else s.tim.mt
    let t := ((s.setPhaseErr ps).setBit Reg.clkStat 8 true).setBit Reg.clkStat 2 true
    let t := ((t.setBit Reg.clkStat 3 false).setFld Reg.clkStat 1 0 3).bump Reg.clkStops
    let t := (t.attend Atn.clock).stamp Reg.clkStopLastS Reg.clkStopLastNs lossAt
    let t := { t with clk := { t.clk with acquiring := false, stopSampling := sampling, lossAt := s.tim.mt,
                                          lastSample := lossAt } }
    let t := if sampling then
        allTiles.foldl (fun (t : State) (k : Fin 4) => if t.tilePowered k then t.abandonDwell k true else t)
          { t with modes := { t.modes with last := some f }, tim := { t.tim with stopDue := some (s.stampOf f) } }
      else t.timeStops
    t.recompare s

/-- Every frame of before the stop is in, and every record of before it built. -/
def State.stopDrained (s : State) : Bool :=
  s.sbx.closing.isEmpty && (match s.modes.last with
    | some l => allTiles.all fun t => (!s.tilePowered t && s.maskAt t (s.tile t).framePeriod == 0)
          || decide (l ≤ (s.tile t).framePeriod)
    | none => true)

/-- A tile's part of the resumption: what samples, the first frame's marks, the history entry of an abandoned dwell, and
the rotation's wait (R110, R111, R274). -/
def State.resumeTile (t : Fin 4) (first stamp : Nat) (s : State) : State :=
  let s := s.setSampling t (s.wantedMask t) first
  let s := (s.updTile t fun x =>
    { x with gapNext := true, framePeriod := first, swPeriod := first, building := []
             trimLog := x.trimLog.map fun (y : Nat × Nat × Trims) => (y.1, min y.2.1 first, y.2.2) }).wiresRestart t first
  let s := match (s.relief t).resume with
    | none => s
    | some (sl, k, trimmed, st) =>
      let s := s.updTile t fun x => { x with nextFlags := x.nextFlags ++ [(first, k, if trimmed then 3 else 1)] }
      let s := if trimmed then s.addHist t stamp st sl k false true false else s
      s.updRelief t fun r => { r with resume := none }
  if s.rotates t then s.warmUp t else s

/-- All tiles restart together on a multiple of 0.5 ns of module time; the clock-gap marker is numbered last in the first
period (R146, R157, R158, R232, R274). -/
def samplingResume (s : State) : State :=
  if !s.clkUp || !s.stopped || !s.clk.stopSampling || !s.pllLocked || s.modes.sampling || s.tim.stopDue.isSome
        || !s.stopDrained then s
  else
    let stamp := roundUp s.tim.mt periodU
    let first := s.sbx.period
    let s := { s with
      modes := { s.modes with sampling := true, last := none }
      sbx := { s.sbx with t0 := (stamp : Int) - first * periodU, strStart := first, gapMark := some (first, stamp) }
      clk := { s.clk with stopSampling := false } }
    let s := s.timeResumes true
    let s := allTiles.foldl (fun (s : State) (t : Fin 4) => if s.tilePowered t then s.resumeTile t first stamp else s) s
    let s := allProgs.foldl (fun (s : State) (p : Fin 8) =>
      if (s.sbx.progs.get p).armed || (s.bit Reg.sbxArm p && s.modes.acq == .triggered && !s.stopping) then s.armProg p
      else s) s
    ((s.setBit Reg.clkStat 8 false).attend Atn.clock).stopLen (stamp - s.clk.lastSample)

/-! ### RC trimming (R258) -/

/-- A lane is out of the vote, its core and RC powered down (R376, R378). -/
def State.laneRetired (s : State) (l : Nat) : Bool := s.bit Reg.ilkLaneStat (4 * l + 2)

/-- One RC is measured, the lanes in turn, and its code moved one step toward nominal; a retired lane's does not run, and
its turn passes (log entry 81). -/
def rcTrim (lane : Nat) (err : Int) (s : State) : State :=
  if lane ≠ s.clk.rcLane then s
  else if s.laneRetired lane then { s with clk := { s.clk with rcLane := (lane + 1) % 3 } }
  else
    let src := if s.srcValid 2 then 1 else if s.srcRunning 0 then 2 else if s.srcRunning 1 then 3 else 0
    let s := { s with clk := { s.clk with rcLane := (lane + 1) % 3
                                          rcSeen := if src != 0 then s.clk.rcSeen ||| bitOf 3 lane else s.clk.rcSeen } }
    if src = 0 then s
    else
      let a := Reg.clkRcStat lane
      let trim := s.fld a 9 0
      let new := if 150 < err then trim - 1 else if err < -150 then min 1023 (trim + 1) else trim
      ((s.setFld a 31 16 (unsigned 16 (clampI (-32768) 32767 err))).setFld a 15 14 src).setFld a 9 0 new

/-! ### Meanings -/

def execMissingEdgeTrip (src : Fin 6) (s : State) : Host.Outcome State Fault Refusal := run (missingEdgeTrip src) s

def execBlockLockLoss (src : Fin 2) (s : State) : Host.Outcome State Fault Refusal := run (blockLockLoss src) s

def execFrequencyMeasurement (src : Fin 3) (ppb vsOther : Int) (running : Bool) (s : State) :
    Host.Outcome State Fault Refusal := run (frequencyMeasurement src ppb vsOther running) s

def execXoRunning (s : State) : Host.Outcome State Fault Refusal := run xoRunning s

def execXoTimeout (s : State) : Host.Outcome State Fault Refusal := run xoTimeout s

def execReferenceSelect (s : State) : Host.Outcome State Fault Refusal := run referenceSelect s

def execWtrExpire (src : Fin 3) (s : State) : Host.Outcome State Fault Refusal := run (wtrExpire src) s

def execPllLock (phasePs : Int) (s : State) : Host.Outcome State Fault Refusal := run (pllLock phasePs) s

def execClockLossStop (phasePs : Int) (s : State) : Host.Outcome State Fault Refusal := run (clockLossStop phasePs) s

def execSamplingResume (s : State) : Host.Outcome State Fault Refusal := run samplingResume s

def execRcTrim (lane : Fin 3) (err : Int) (s : State) : Host.Outcome State Fault Refusal := run (rcTrim lane err) s

end Sys2Proof.Machine
end

