-- ==== Sys2Proof/Machine/Persist.lean ====
section
/-! DEFINITION. What the OTP and the MRAM hold and when it is valid: identity, configuration generations, root keys
(R390, R391), calibration banks and their records (R382–R385), firmware patches (R393, R394), and the loading of
registers from them (R93, R235, R246, R284). -/

namespace Sys2Proof.Machine

/-- The number that bytes of a memory spell. -/
def Mem.num (m : Mem) (a n : Nat) : Nat := ofBytes (Mem.readBytes m a n)

def Mem.anySet (m : Mem) (a n : Nat) : Bool := (Mem.readBytes m a n).any fun b => b != 0

/-- A SHA3-512 digest as its 64 bytes (FIPS 202). -/
def sha3Bytes (l : List Byte) : List Byte := beBytes 64 (Config.sha3 l).toNat

/-- ASCII bytes of a context string. -/
def asciiBytes (x : String) : List Byte := x.toList.map fun c => BitVec.ofNat 8 c.toNat

/-! ### OTP (R390, R391) -/

def State.otpBytes (s : State) (a n : Nat) : List Byte := Mem.readBytes s.nv.otp a n

def State.euiBytes (s : State) : List Byte := s.otpBytes 0 8

/-- A root-key hash slot is programmed when it is not all zero. -/
def State.rootProgrammed (s : State) (k : Nat) : Bool := Mem.anySet s.nv.otp (0x80 + 64 * k) 64

/-- Address of a configuration generation. -/
def genAddr (n : Nat) : Nat := 0x200 + 128 * n

def State.genProgrammed (s : State) (n : Nat) : Bool := Mem.anySet s.nv.otp (genAddr n) 128

/-- The bytes of a configuration generation are valid at position n; a reserved byte or flag that is set spoils it (R13,
R391; log entry 148). -/
def State.genOk (s : State) (n : Nat) (b : List Byte) : Bool :=
  let num (a k : Nat) : Nat := ofBytes ((b.drop a).take k)
  num 0 2 == 0x4347 && num 2 1 == 1 && num 3 1 == n && num 124 4 == (crc32c (b.take 124)).toNat
    && decide (num 8 1 ≤ 1) && s.rootProgrammed (num 8 1) && decide (num 9 1 ≤ 1) && num 10 114 == 0

def State.genValid (s : State) (n : Nat) : Bool := s.genOk n (s.otpBytes (genAddr n) 128)

/-- The valid generation with the highest index; 0xF none (R391). -/
def State.bestGen (s : State) : Nat := ([3, 2, 1, 0].find? fun n => s.genValid n).getD 0xF

/-- OTP_GEN, ROOT_SLOT and PATCH_EN of ILK_BOOT: the generation in force since Boot. -/
def State.otpGen (s : State) : Nat := s.fld Reg.ilkBoot 3 0
def State.rootSlot (s : State) : Nat := s.fld Reg.ilkBoot 4 4
def State.patchEn (s : State) : Bool := s.bit Reg.ilkBoot 5

/-- MIN_PATCH_GEN of a generation; 0 where none is in force (R391). -/
def State.minPatchOf (s : State) (n : Nat) : Nat := if n < 4 then Mem.num s.nv.otp (genAddr n + 4) 4 else 0

/-- The root-key hash in force (R391). -/
def State.rootHash (s : State) : List Byte := s.otpBytes (0x80 + 64 * s.rootSlot) 64

/-- OTP_STAT but for BUSY and INFORCE: what the array shows now. -/
def State.otpStatWord (s : State) : Word :=
  let set (p : Nat → Bool) (at_ : Nat) : Nat := ((List.range 4).map fun n => if p n then 2 ^ (at_ + n) else 0).sum
  let inForce := s.fld Reg.otpStat 11 8
  BitVec.ofNat 32 (set s.genProgrammed 0 + set s.genValid 4 + inForce * 2 ^ 8 + (if s.rootProgrammed 1 then 2 ^ 12 else 0)
    + (if inForce = 0xF then 2 ^ 13 else 0) + s.fld Reg.otpStat 16 16 * 2 ^ 16)

/-- A byte of the OTP window; the secret seed reads 0 (R390, R403). -/
def State.otpShown (s : State) (a : Nat) : Byte := if 0x100 ≤ a ∧ a < 0x120 then 0 else Mem.read s.nv.otp a

/-- OTP_WINDOWn. -/
def State.otpWindowWord (s : State) (n : Nat) : Word :=
  BitVec.ofNat 32 (ofBytes ((List.range 4).map fun i => s.otpShown (256 * s.fld Reg.otpWinSel 4 0 + 4 * n + i)))

/-- CST_WINDOWn. -/
def State.cstWindowWord (s : State) (n : Nat) : Word :=
  BitVec.ofNat 32 (Mem.num s.nv.mram (s.fld Reg.cstWinSel 17 16 * 0x200000 + s.fld Reg.cstWinSel 12 0 * 256 + 4 * n) 4)

/-! ### Calibration banks (R383–R385) -/

/-- A calibration record (R384). -/
structure CalRec where
  kind : Nat
  index : Nat
  payload : List Byte
  deriving DecidableEq, Repr

def bankAddr (b : Nat) : Nat := 0x200000 * b

/-- Offset of a bank's seal (R383). -/
def sealOffset : Nat := 0x1FFFC0

/-- Records laid end to end from an address to `stop`, at most as many as the fuel; none where a check word or a
GENERATION is wrong, or a reserved byte is set (R13). -/
def parseRecs (m : Mem) (gen stop : Nat) : Nat → Nat → Option (List CalRec)
  | 0, a => if a = stop then some [] else none
  | n + 1, a =>
    if a = stop then some []
    else
      let len := Mem.num m (a + 4) 2
      if stop < a + 16 + len || Mem.num m (a + 8) 4 != gen || Mem.num m (a + 3) 1 != 0 || Mem.num m (a + 6) 2 != 0
          || (crc32c (Mem.readBytes m a (12 + len))).toNat != Mem.num m (a + 12 + len) 4 then none
      else (parseRecs m gen stop n (a + 16 + len)).map fun l =>
        ⟨Mem.num m a 2, Mem.num m (a + 2) 1, Mem.readBytes m (a + 12) len⟩ :: l

/-- The records of a bank that is valid but for its seal (R13, R385). -/
def State.bankRecs (s : State) (b : Nat) : Option (List CalRec) :=
  let m := s.nv.mram
  let o := bankAddr b
  let len := Mem.num m (o + 8) 4
  if Mem.num m o 2 == 0x4342 && Mem.num m (o + 2) 1 == 1 && Mem.num m (o + 3) 1 == b
      && Mem.readBytes m (o + 32) 8 == s.euiBytes && Mem.num m (o + 60) 4 == (crc32c (Mem.readBytes m o 60)).toNat
      && Mem.num m (o + 14) 2 == 0 && Mem.num m (o + 44) 16 == 0 && decide (64 ≤ len) && decide (len ≤ sealOffset) then
    let count := Mem.num m (o + 12) 2
    match parseRecs m (Mem.num m (o + 4) 4) (o + len) count (o + 64) with
    | some l => if l.length = count then some l else none
    | none => none
  else none

/-- The digest recomputed over a bank. -/
def State.bankDigest (s : State) (b : Nat) : List Byte :=
  sha3Bytes (Mem.readBytes s.nv.mram (bankAddr b) (Mem.num s.nv.mram (bankAddr b + 8) 4))

def State.sealHolds (s : State) (b : Nat) : Bool :=
  Mem.readBytes s.nv.mram (bankAddr b + sealOffset) 64 == s.bankDigest b

def State.bankValid (s : State) (b : Nat) : Bool := (s.bankRecs b).isSome && s.sealHolds b

def State.bankGen (s : State) (b : Nat) : Nat := Mem.num s.nv.mram (bankAddr b + 4) 4

/-- The bank in force; 3 none. -/
def State.inForce (s : State) : Nat := s.fld Reg.cstStat 1 0

/-- A bank's validity and generation in CST_STAT and CST_GEN. -/
def State.showBank (b : Nat) (valid : Bool) (s : State) : State :=
  (s.setBit Reg.cstStat (4 + b) valid).set (if b = 0 then Reg.cstGen0 else Reg.cstGen1)
    (BitVec.ofNat 32 (if valid then s.bankGen b else 0))

/-- At Boot the valid bank with the higher generation is in force, bank 0 if both are equal (R385). -/
def State.chooseBank (s : State) : State :=
  let v0 := s.bankValid 0
  let v1 := s.bankValid 1
  let f := if v0 && v1 then (if s.bankGen 0 < s.bankGen 1 then 1 else 0) else if v0 then 0 else if v1 then 1 else 3
  ((s.showBank 0 v0).showBank 1 v1).setFld Reg.cstStat 1 0 f

/-- Records of the bank in force. -/
def State.calRecs (s : State) : List CalRec := if s.inForce < 2 then (s.bankRecs s.inForce).getD [] else []

def findRecord (l : List CalRec) (kind index : Nat) : Option (List Byte) :=
  (l.find? fun (r : CalRec) => r.kind == kind && r.index == index).map fun r => r.payload

def wordAt (l : List Byte) (i : Nat) : Word := BitVec.ofNat 32 (ofBytes ((l.drop (4 * i)).take 4))

/-- OFFSET, GAIN, SKEW and BW of every slice of a tile, or their reset values; the range trims are the terms of the
channel that the slice serves, the relief slice standing in for a parked one (R92, R93, R105). They convert from then on. -/
def State.loadTrims (t : Fin 4) (s : State) : State :=
  let r := findRecord s.calRecs 1 t.val
  let s := s.updTile t fun x =>
    { x with amps := (List.range 16).map fun k => (s.get (Reg.calChAmp0 t k), s.get (Reg.calChAmp1 t k)) }
  let s := (List.range 17).foldl (fun (s : State) (sl : Nat) =>
    let w (i : Nat) (d : Word) : Word := match r with
      | some l => wordAt l (4 * sl + i)
      | none => d
    (s.set (Reg.slcSlTrim0 t sl) (w 0 Trims.reset.t0)).set (Reg.slcSlTrim1 t sl) (w 1 Trims.reset.t1)) s
  let s := (List.range 16).foldl (fun (s : State) (sl : Nat) => s.loadRangeTerms t sl (s.servesOf t sl)) s
  let s := match (s.relief t).parked with
    | some sl => if sl = 16 then s else s.loadRangeTerms t 16 (s.servesOf t sl)
    | none => s
  s.updTile t fun x => { x with trimLog := (List.range 17).map fun sl => (sl, 0, s.trims t sl) }

/-- The amplifier terms of a tile (R92, R93). -/
def State.loadAmps (t : Fin 4) (s : State) : State :=
  match findRecord s.calRecs 2 t.val with
  | some l => (List.range 16).foldl (fun (s : State) (k : Nat) =>
      (s.set (Reg.calChAmp0 t k) (wordAt l (2 * k))).set (Reg.calChAmp1 t k) (wordAt l (2 * k + 1))) s
  | none => (List.range 16).foldl (fun (s : State) (k : Nat) =>
      (s.set (Reg.calChAmp0 t k) (resetValue s.variant s.straps (Reg.calChAmp0 t k))).set (Reg.calChAmp1 t k)
        (resetValue s.variant s.straps (Reg.calChAmp1 t k))) s

/-- The channel delays (R235). -/
def State.loadDelays (s : State) : State :=
  let r := (findRecord s.calRecs 3 0).getD []
  (List.range 64).foldl (fun (s : State) (c : Nat) =>
    s.setFld (Reg.timDly c) 15 0 (ofBytes ((r.drop (2 * c)).take 2))) s

/-- The XO rate that L has learned (R246); L counts at it. -/
def State.loadRate (s : State) : State :=
  let w := match findRecord s.calRecs 4 0 with
    | some l => wordAt l 0
    | none => 0
  (s.set Reg.timLRate w).freeL

/-! ### A new bank (R386) -/

/-- A slice's trims in force: those from before its dwell while new ones have not taken effect (R96, R105, R111). -/
def State.trimsInForce (s : State) (t : Fin 4) (sl : Nat) : Trims :=
  let r := s.relief t
  match r.dwell with
  | some d =>
    if d.slice = sl then (if d.retry then r.parkedOld else if d.standing then d.old else s.trims t sl)
    else s.trims t sl
  | none => if r.parked = some sl then r.parkedOld else s.trims t sl

/-- The payload of a tile's trim record and of its amplifier record. -/
def State.trimPayload (s : State) (t : Fin 4) : List Byte :=
  (List.range 17).flatMap fun sl =>
    let x := s.trimsInForce t sl
    beBytes 4 x.t0.toNat ++ beBytes 4 x.t1.toNat ++ beBytes 4 x.t2.toNat ++ beBytes 4 x.t3.toNat

def State.ampPayload (s : State) (t : Fin 4) : List Byte :=
  (List.range 16).flatMap fun k => beBytes 4 (s.get (Reg.calChAmp0 t k)).toNat ++ beBytes 4 (s.get (Reg.calChAmp1 t k)).toNat

/-- The records of the present calibration; an unpowered tile gives those of the bank in force (R386 step 1). -/
def State.gatherRecs (s : State) : List CalRec :=
  let old := s.calRecs
  let tile (t : Fin 4) (kind : Nat) (new_ : List Byte) : List CalRec :=
    if s.tilePowered t then [⟨kind, t.val, new_⟩]
    else match findRecord old kind t.val with
      | some l => [⟨kind, t.val, l⟩]
      | none => []
  allTiles.flatMap (fun t => tile t 1 (s.trimPayload t)) ++ allTiles.flatMap (fun t => tile t 2 (s.ampPayload t))
    ++ [⟨3, 0, (List.range 64).flatMap fun c => beBytes 2 (s.fld (Reg.timDly c) 15 0)⟩,
        ⟨4, 0, beBytes 4 (s.get Reg.timLRate).toNat⟩]

/-- A record with its head and check word (R384). -/
def recBytes (gen : Nat) (r : CalRec) : List Byte :=
  let b := beBytes 2 r.kind ++ beBytes 1 r.index ++ beBytes 1 0 ++ beBytes 2 r.payload.length ++ beBytes 2 0 ++ beBytes 4 gen
    ++ r.payload
  b ++ beBytes 4 (crc32c b).toNat

/-- Generation of the next store (R386). -/
def State.nextGen (s : State) : Nat :=
  max (if s.bit Reg.cstStat 4 then (s.get Reg.cstGen0).toNat else 0)
    (if s.bit Reg.cstStat 5 then (s.get Reg.cstGen1).toNat else 0) + 1

/-- The bank that the next store writes. -/
def State.storeTarget (s : State) : Nat := if s.inForce = 0 then 1 else 0

/-- Header and records of a bank, without its seal (R383). -/
def State.bankImage (s : State) : List Byte :=
  let recs := s.gatherRecs
  let body := recs.flatMap (recBytes s.nextGen)
  let h := beBytes 2 0x4342 ++ beBytes 1 1 ++ beBytes 1 s.storeTarget ++ beBytes 4 s.nextGen ++ beBytes 4 (64 + body.length)
    ++ beBytes 2 recs.length ++ beBytes 2 0 ++ wideBytes s.tim.mt ++ s.euiBytes ++ beBytes 4 (s.get Reg.ilkIdent).toNat
    ++ beBytes 16 0
  h ++ beBytes 4 (crc32c h).toNat ++ body

/-! ### Firmware patches (R393, R394) -/

def patchAddr (k : Nat) : Nat := 0x400000 + 0x200000 * k

/-- Address of a slot's seal. -/
def slotSeal (k : Nat) : Nat := patchAddr k + 0x1FFF80

def maxImage : Nat := 531571

/-- The header of an image is valid; PATCH_GEN counts from 1, and reserved bytes are 0 (R13, R393). -/
def State.imageHeaderOk (s : State) (img : List Byte) : Bool :=
  let num (a k : Nat) : Nat := ofBytes ((img.drop a).take k)
  let body := num 8 4
  decide (7283 ≤ img.length) && num 0 2 == 0x4650 && num 2 1 == 1 && num 3 1 == 0 && num 4 4 != 0
    && num 20 40 == 0 && body % 4 == 0 && decide (body ≤ 524288)
    && img.length == 64 + body + 7219 && num 12 4 == (s.get Reg.ilkRomver).toNat
    && num 60 4 == (crc32c (img.take 60)).toNat

def imageGen (img : List Byte) : Nat := ofBytes ((img.drop 4).take 4)

/-- The embedded key is the root key in force and its signature over header and body verifies (FIPS 204). -/
def State.imageSigned (s : State) (img : List Byte) : Bool :=
  let n := 64 + ofBytes ((img.drop 8).take 4)
  let key := (img.drop n).take 2592
  sha3Bytes key == s.rootHash
    && Config.mldsaVerify key (sha3Bytes (img.take n)) (asciiBytes "CW-FW-PATCH") ((img.drop (n + 2592)).take 4627)

def State.slotLength (s : State) (k : Nat) : Nat := Mem.num s.nv.mram (slotSeal k + 64) 4

def State.slotImage (s : State) (k : Nat) : List Byte := Mem.readBytes s.nv.mram (patchAddr k) (s.slotLength k)

/-- A slot holds an image when its seal is not all zero. -/
def State.slotHolds (s : State) (k : Nat) : Bool := Mem.anySet s.nv.mram (slotSeal k) 76

/-- PATCH_GEN of a slot that qualifies (R394). -/
def State.slotQualifies (s : State) (k : Nat) : Option Nat :=
  let img := s.slotImage k
  if s.slotHolds k && decide (s.slotLength k ≤ maxImage) && Mem.readBytes s.nv.mram (slotSeal k) 64 == sha3Bytes img
      && Mem.num s.nv.mram (slotSeal k + 68) 4 == imageGen img && Mem.num s.nv.mram (slotSeal k + 72) 4 == 0
      && s.imageHeaderOk img && decide (s.minPatchOf s.otpGen ≤ imageGen img) && s.imageSigned img then
    some (imageGen img)
  else none

/-- The qualifying patch with the highest PATCH_GEN, slot 0 on a tie, with its generation. -/
def State.bestPatch (s : State) : Option (Nat × Nat) :=
  match s.slotQualifies 0, s.slotQualifies 1 with
  | some a, some b => if a < b then some (1, b) else some (0, a)
  | some a, none => some (0, a)
  | none, some b => some (1, b)
  | none, none => none

/-! ### Boot: identity, configuration, bank (R258, R284, R385, R391) -/

/-- At Boot after a power-on each lane takes its RC's factory trim code (R258). -/
def State.loadRcTrims (s : State) : State :=
  (List.range 3).foldl (fun (s : State) (n : Nat) =>
    s.set (Reg.clkRcStat n) (BitVec.ofNat 32 (Mem.num s.nv.otp (36 + 2 * n) 2 % 1024))) s

/-- Identity registers and the configuration generation in force. -/
def State.loadIdentity (s : State) : State :=
  let e := Mem.num s.nv.otp 0 8
  let m := Mem.num s.nv.otp 8 6
  let s := (s.set64 Reg.ilkEui64Lo Reg.ilkEui64Hi e).set64 Reg.lnkMacLo Reg.lnkMacHi m
  let g := s.bestGen
  let s := (s.setFld Reg.otpStat 11 8 g).setFld Reg.ilkBoot 3 0 g
  let s := s.setFld Reg.ilkBoot 4 4 (if g < 4 then Mem.num s.nv.otp (genAddr g + 8) 1 else 0)
  s.setFld Reg.ilkBoot 5 5 (if g < 4 then Mem.num s.nv.otp (genAddr g + 9) 1 % 2 else 1)

end Sys2Proof.Machine
end

