-- ==== Sys2Proof/Machine/Power.lean ====
section
/-! DEFINITION. Power domains and what goes with them: which blocks are powered (R21, R47, R346), a committed copy that is
applied or discarded (R339), tiles, data domain and control domain switched on and off, shed channels (R368, R370). -/

namespace Sys2Proof.Machine

def State.withModes (f : Modes → Modes) (s : State) : State := { s with modes := f s.modes }

/-- Whether the block of an address is powered (R21, R47, R346). -/
def State.powered (s : State) (a : Nat) : Bool :=
  let m := s.modes.inner
  if m = .dormant then false
  else if m = .boot then a / 0x10000 == 0 || a / 0x1000 == 0x90
  else if 0x100000 ≤ a then s.modes.tiles.getLsbD (a / 0x10000 - 0x10)
  else match a / 0x10000 with
    | 0 => true
    | 1 | 2 | 3 | 4 => s.modes.control
    | 5 | 6 | 8 => s.modes.data
    | 7 => s.modes.depot
    | _ => if a / 0x1000 = 0x92 then s.modes.control && s.modes.att else true

/-! ### Committed copies (R339) -/

/-- A COMMIT is done once no block still holds a latched copy for it: APPLIED and DISCARDED. -/
def State.commitDone (o : OpRef) (s : State) : State :=
  if s.bcp.latches.any fun (l : Latch) => l.ops.contains o then s
  else
    let lost := ((s.findOp o).map fun p => p.counts.getD 1 0).getD 0
    s.opDone o (if lost = 0 then St.ok else St.notPowered) (s.opCounts (some o))

/-- A block's latched copy is gone, applied or discarded, and the COMMITs that waited for it go on. -/
def State.settleLatch (b : Nat) (applied : Bool) (s : State) : State :=
  match s.bcp.latches.find? fun (l : Latch) => l.block == b with
  | none => s
  | some l =>
    let s := { s with bcp := { s.bcp with latches := s.bcp.latches.filter fun (x : Latch) => x.block != b } }
    l.ops.foldl (fun (s : State) (o : OpRef) => (s.opCount (some o) (if applied then 0 else 1) (2 ^ b)).commitDone o) s

/-- Blocks that have lost their power discard their copies. -/
def State.discardLatches (bs : List Nat) (s : State) : State :=
  bs.foldl (fun (s : State) (b : Nat) => s.settleLatch b false) s

def tileBlocks (t : Fin 4) : List Nat := [16 + 4 * t.val, 17 + 4 * t.val, 18 + 4 * t.val]

/-! ### Operations that lose their unit -/

/-- Running operations of some opcodes end with a status; their result holds the counts so far. -/
def State.endOps (codes : List Nat) (final : BitVec 16) (s : State) : State :=
  let s := { s with bcp := { s.bcp with orphans := s.bcp.orphans.filter fun x => !codes.contains x.2.toNat } }
  s.bcp.sessions.foldl (fun (s : State) (x : Session) =>
    x.ops.foldl (fun (s : State) (o : Op) =>
      if !o.done && codes.contains o.opcode.toNat then
        s.opDone ⟨x.id, o.handle⟩ final
          (if o.opcode = 0x0400 then [0] else if o.opcode = 0x0402 then [] else o.counts.flatMap (beBytes 4))
      else s) s) s

/-- A range calibration is abandoned: the terms stay, and RANGE_CAL ends with WRONG_MODE (R350). -/
def State.abandonRangeCal (s : State) : State :=
  let ops := (allTiles.filterMap fun (t : Fin 4) => (s.relief t).rangeOp).eraseDups
  let s := allTiles.foldl (fun (s : State) (t : Fin 4) =>
    (s.rangeCalOver t).updRelief t fun r => { r with rangeOp := none }) s
  ops.foldl (fun (s : State) (o : OpRef) =>
    s.opDone o St.wrongMode (beBytes 1 (((s.findOp o).map fun p => p.counts.getD 0 0).getD 0))) s

/-! ### What samples (R68, R87, R89, R368) -/

/-- The relief slice outside a dwell: the source in the place of a parked slice whose channel samples, else off (R105,
R114). -/
def State.showRelief (t : Fin 4) (s : State) : State :=
  let r := s.relief t
  if r.dwell.isSome || r.parked == some 16 then s
  else match r.parked with
    | some sl =>
      let k := s.servesOf t sl
      if (s.samplingMask t).getLsbD k then s.setSlice t 16 1 k else s.setSlice t 16 0 31
    | none => s.setSlice t 16 0 31

/-- Slices of a tile by what it samples: each working slice that serves is the source of its channel, but for the one in a
dwell and a parked one (R87, R114). -/
def State.showSlices (t : Fin 4) (s : State) : State :=
  ((List.range 16).foldl (fun (s : State) (sl : Nat) =>
    let k := s.servesOf t sl
    if (s.relief t).parked == some sl then s
    else if ((s.relief t).dwell.map fun d => d.slice) == some sl then s
    else s.setSlice t sl (if (s.samplingMask t).getLsbD k then 1 else 0) (if (s.samplingMask t).getLsbD k then k else sl))
    s).showRelief t

/-- The periods from one on are lost for shedding in every window of some channels (R370). -/
def State.markShed (chans : BitVec 64) (from_ : Nat) (s : State) : State :=
  let mark (w : Win) : Win :=
    { w with lost := w.lost ++ (bitList (w.chans &&& chans)).map fun c => (c, from_, from_ + 2 ^ 40, 2) }
  { s with sbx := { s.sbx with
      hits := s.sbx.hits.map mark
      closing := s.sbx.closing.map mark
      progs := s.sbx.progs.map fun (x : Prog) => { x with win := x.win.map mark } } }

/-! ### Tiles -/

/-- A tile loses its power: its link is down, its arms, switches and dwell are gone, and a range calibration that it runs
is abandoned; a parked slice stays parked (R110), and registers keep their values (log entry 30). `from_` is the first
period that is no longer sampled; what has still to be sampled before it goes on. -/
def State.tileDown (t : Fin 4) (from_ : Nat) (s : State) : State :=
  let s := (s.abandonDwell t false).setSampling t 0 from_
  let s := [0, 1, 2, 3].foldl (fun (s : State) (e : Fin 4) => s.disarm t e) s
  let s := ((s.setBit (Reg.lnkTlStat t) 0 false).setBit (Reg.lnkTlStat t) 1 false).setBit (Reg.calManCtrl t) 9 false
  let s := if s.bit (Reg.calStat t) 20 then (s.rangeCalOver t).rangeCalPart t 1 else s
  let s := s.updTile t fun x =>
    { x with arms := [], sagging := 0
             relief := { Relief.reset with hist := x.relief.hist, parked := x.relief.parked, parkedOld := x.relief.parkedOld } }
  let s := s.withModes fun m => { m with tiles := m.tiles &&& ~~~bitOf 4 t.val }
  (s.tileGone t).discardLatches (tileBlocks t)

/-- A tile is powered and its link is up (R313, R355 step 6); its pins are watched and its TSW outputs drive (R76, R418). -/
def State.tileUp (t : Fin 4) (s : State) : State :=
  let s := s.withModes fun m => { m with tiles := m.tiles ||| bitOf 4 t.val }
  let s := (s.wiresUp t).tswShow t
  ((s.setBit (Reg.lnkTlStat t) 0 true).setBit (Reg.lnkTlStat t) 1 false).setFld Reg.lnkVer 3 0 1

/-- A tile starts to sample at a frame boundary: trims, ranges, switches and rotation afresh (R67, R92, R93, R110, R350). -/
def State.tileStarts (t : Fin 4) (first : Nat) (s : State) : State :=
  let s := (s.loadTrims t).setBit (Reg.calStat t) 16 true
  let s := (s.setSampling t (s.wantedMask t) first).rangesStart t 0xFFFF first
  let s := s.updTile t fun x =>
    { x with sw := 0, tsw0 := { x.tsw0 with high := false, left := 0 }, tsw1 := { x.tsw1 with high := false, left := 0 }
             nextFlags := [], frameNo := 0, framePeriod := first
             swPeriod := first, building := [], sent := [], gapNext := true
             spans := match x.relief.parked with
               | some sl => [(sl, first, none)]
               | none => []
             inject := if s.bit (Reg.calStat t) 20 then [(first, none)] else [] }
  let s := (s.updRelief t fun r =>
    { r with dwell := none, next := 0, waiting := false, granted := false, retry := false, ahead := false,
             warmUntil := none, resume := none }).setPhase t 0
  let s := ((s.showSlices t).wiresRestart t first).tswShow t
  if s.calRun t && (s.relief t).parked.isNone && (s.relief t).manual.isNone then s.warmUp t else s

/-- A tile whose sampling has ended (R110, R350): the dwell is abandoned at the last frame. -/
def State.tileStops (t : Fin 4) (last : Nat) (s : State) : State :=
  let s := (s.abandonDwell t false).setSampling t 0 last
  ((s.showSlices t).wiresRestart t last).closeAtStop t

/-- Every tile that is up loses its power. -/
def State.tilesOff (s : State) : State :=
  let s := s.abandonRangeCal
  allTiles.foldl (fun (s : State) (t : Fin 4) => if s.tilePowered t then s.tileDown t 0 else s) s

/-- A mode from Standby to Test, which powers the tiles (R346). -/
def State.tilesMode (s : State) : Bool := decide (3 ≤ s.modes.inner.code) && decide (s.modes.inner.code ≤ 9)

/-- A tile that is lost, or all of whose sampling channels are shed, has no power in any mode (R353, R368). -/
def State.tileShed (s : State) (t : Fin 4) : Bool :=
  let mine : BitVec 16 := (s.shedChans >>> (16 * t.val)).setWidth 16
  s.bit Reg.pwrDegraded (4 + t.val) || (s.enabledMask t != 0 && (s.enabledMask t &&& ~~~mine) == 0)

/-- Every tile is powered that no shed step and no loss keeps off. -/
def State.tilesOn (s : State) : State :=
  allTiles.foldl (fun (s : State) (t : Fin 4) => if s.tileShed t then s else s.tileUp t) s

/-! ### Data domain and Depot -/

/-- What ends sampling clears SBX_ARM, with the bits that wait in shadow or for a COMMIT (R116, R350). -/
def State.clearArm (s : State) : State :=
  let s := s.setBoth Reg.sbxArm 7 0 0
  { s with bcp := { s.bcp with latches := s.bcp.latches.map fun (l : Latch) =>
    { l with values := l.values.map fun (v : Nat × Word) => if v.1 = Reg.sbxArm then (v.1, 0) else v } } }

/-- The queues, the Signal Box and the engines lose their power, and what they hold is gone (R346, Update). Sampling that
this ends disarms every program (R116). -/
def State.enginesOff (s : State) : State :=
  let s := (if s.modes.sampling || s.clk.stopSampling then s.clearArm else s).flushLineQ
  let s := { s.cmpOff with que := Que.reset, sbx := { Sbx.reset with linesA := s.sbx.linesA, linesB := s.sbx.linesB } }
  let s := (s.withModes fun m => { m with data := false, sampling := false, last := none,
                                          startPending := false }).set Reg.cmpGrant 0
  s.discardLatches [5, 6, 8]

/-- The Depot's contents are lost (R346, R357); its registers that tell of them show their reset values. -/
def State.depotOff (s : State) : State :=
  let s := (s.endOps [0x0302, 0x0400, 0x0401, 0x0402, 0x0403] St.notPowered).streamsOff
  let s := s.resetRegs fun a => (0x70100 ≤ a && a < 0x70210) || (0x70014 ≤ a && a < 0x70020)
  let s := { s with dpt := Depot.reset, pers := { s.pers with fwBuf := [], fwHeld := 0 } }
  (s.withModes fun m => { m with depot := false, ringEdges := [] }).discardLatches [7]

/-- Tile rails, Depot rails and data domain off (R346, R356, R357). -/
def State.railsOff (s : State) : State := (s.tilesOff.enginesOff).depotOff

/-! ### Control domain -/

/-- The clock block as it is before its domain has power: nothing runs, nothing is valid. CORE_FAULT stays (R275), and so do
the gates that CLK_GATE_STAT shows (R276). -/
def State.clocksOff (s : State) : State :=
  let s := s.set Reg.clkStat (s.get Reg.clkStat &&& 0x400)
  let s := allSrcs.foldl (fun (s : State) (x : Nat) => s.set (Reg.clkSrcStat x) (s.get (Reg.clkSrcStat x) &&& 0xF)) s
  let c : Clk := { Clk.reset with rcLane := s.clk.rcLane, rcSeen := s.clk.rcSeen }
  { s with clk := { c with gates := s.clk.gates, closing := s.clk.closing, fenced := s.clk.fenced } }

/-- The Station Clock counts on the RC with no domain heard; DEGRADED being set attends ATN_TIME (R231, R247, R248). -/
def State.timeOff (s : State) : State :=
  let t := if s.onRc then s else (s.setBit Reg.timStat 7 true).attend Atn.time
  let t := [0, 1].foldl (fun (s : State) (d : Fin 2) =>
    ((s.setDomState d (if s.domEnabled d then 1 else 0)).forget d).updDom d fun x => { x with pend := [] }) t
  (t.stopTracking.withTim fun t => { t with steps := [], firstDue := false, stopDue := none }).noteTime s

/-- The attestation engine is off: the key is gone and its jobs end (R21, R402). -/
def State.attOff (s : State) : State :=
  let ops := s.pers.jobs.map fun (j : AttJob) => match j with
    | .report o _ => o
    | .check o _ _ _ _ _ => o
  let s := (s.withModes fun m => { m with att := false }).set Reg.attStat 0
  let s := (List.range 16).foldl (fun (s : State) (n : Nat) => s.set (Reg.attKeyDigest n) 0) s
  { s with pers := { s.pers with jobs := [] } }.opsDone ops St.notPowered []

/-- The control domain is off (R21, R275, R357). -/
def State.controlOff (s : State) : State :=
  let s := (s.attOff.endOps [0x0500] St.notPowered).clocksOff.timeOff.linksOff
  (s.withModes fun m => { m with control := false }).discardLatches [1, 2, 3, 4]

/-- Start-up step 3 has switched the control domain on: Station Clock and Mainlines take their settings (R239, R299). -/
def State.controlOn (s : State) : State :=
  let s := (s.withModes fun m => { m with control := true, att := true }).loadRate.followEnables
  s.setFld Reg.lnkMlStat 1 0 (if s.fld Reg.lnkMlCtrl 5 4 = 2 then 2 else 0)

/-! ### The mode that software sees -/

/-- What sets or clears a cause of Degraded may change the mode: LAST_FROM and ATN_MODE (R351). -/
def State.remode (s old : State) : State :=
  if s.mode = old.mode then s else (s.withModes fun m => { m with lastFrom := old.mode }).attend Atn.mode

/-- PWR_MODE (R372). -/
def State.modeWord (s : State) : Word :=
  let m := s.modes
  let deg := s.mode == .degraded
  BitVec.ofNat 32 (m.lastFrom.code * 2 ^ 24 + m.base.code * 2 ^ 20 + (if deg then m.inner.code else m.base.code) * 2 ^ 16
    + m.trans.isSome.toNat * 2 ^ 9 + m.staySafe.toNat * 2 ^ 8 + s.mode.code)

end Sys2Proof.Machine
end

