-- ==== Sys2Proof/Machine/Timetable.lean ====
section
/-! DEFINITION. The power Timetable: the 1 ms loop with its measurements, effective budget, lane and grants (R360–R366),
shedding and its restoring (R367–R371). Costs and headroom stand in 0.01 W, throughputs in 0.1 GB/s. -/

namespace Sys2Proof.Machine

def State.withTt (f : Timetable → Timetable) (s : State) : State := { s with tt := f s.tt }

/-! ### Measurements (R362, R372) -/

/-- Whether a sensor's part is powered: three on each tile, eight on the ST64C, one on each stack. -/
def State.sensorOn (s : State) (n : Nat) : Bool :=
  if n < 12 then s.tilePowered (Fin.ofNat 4 (n / 3)) else if n < 20 then s.modes.control else s.modes.depot

/-- PWR_TEMPn; the stack sensors read as DPT_STACKs_STAT.TEMP, and an unpowered sensor as 0. -/
def State.setTemps (temps : List Int) (s : State) : State :=
  (List.range 24).foldl (fun (s : State) (n : Nat) =>
    let v := if !s.sensorOn n then 0
      else if n < 20 then unsigned 10 (clampI (-512) 511 (temps.getD n 0))
      else s.fld (Reg.dptStackStat (n - 20)) 17 8
    s.set (Reg.pwrTemp n) (BitVec.ofNat 32 v)) s

def State.temp (s : State) (n : Nat) : Int := signed 10 (s.fld (Reg.pwrTemp n) 9 0)

/-- The first sensor that reads highest. -/
def State.hottest (s : State) : Nat :=
  (List.range 24).foldl (fun (b : Nat) (n : Nat) => if s.temp b < s.temp n then n else b) 0

/-- The hottest of the ST64C's sensors, 12–19 (R36, R217). -/
def State.junction (s : State) : Int :=
  (List.range 8).foldl (fun (m : Int) (n : Nat) => max m (s.temp (12 + n))) (s.temp 12)

/-- A quantity that falls linearly from 95 °C to 150 °C, times 55 (R36, R217). -/
def falling (top drop : Nat) (t : Int) : Nat := top * 55 - drop * (clampI 0 55 (t - 95)).toNat

/-- Minimum throughput of a lane, times 55 (R36). -/
def laneMin (lane : Nat) (t : Int) : Nat :=
  match lane with
  | 0 => falling 2150 250 t
  | 1 => falling 3100 300 t
  | _ => falling 3800 250 t

/-- Throughput of one engine, times 55 (R217). -/
def engineRate (t : Int) : Nat := falling 80 25 t

def State.lane (s : State) : Nat := s.fld Reg.pwrStat 17 16

/-- The lowest lane that R39 permits. -/
def State.lowLane (s : State) : Nat := if s.ringOn then 1 else 0

/-- The lowest lane from one on that carries a demand (times 55) with the margin of 1.05; 0.85 V where none does (R362). -/
def State.laneFor (s : State) (from_ demand : Nat) : Nat :=
  if from_ = 0 ∧ 105 * demand ≤ 100 * laneMin 0 s.junction then 0
  else if from_ ≤ 1 ∧ 105 * demand ≤ 100 * laneMin 1 s.junction then 1
  else 2

/-- Compressed output of n engines, times 55, at the last period's ratio, 1.0 without one (R363). -/
def State.compOutput (s : State) (n : Nat) : Nat :=
  if s.cmp.inBytes = 0 then n * engineRate s.junction
  else n * engineRate s.junction * s.cmp.outBytes / s.cmp.inBytes

def State.costOf (s : State) (a : Nat) : Nat := s.fld a 15 0

/-! ### Grants (R360, R363, R365) -/

/-- What a tick hands out: headroom left, lane, demand carried so far (times 55), the grants and their cost. -/
structure Hand where
  left : Int
  lane : Nat
  demand : Nat
  engines : Nat
  drain : Nat
  cal : BitVec 4
  /-- Tiles whose next dwell start is granted while a dwell still runs (R95). -/
  ahead : BitVec 4
  scrub : Bool
  attest : Bool
  cost : Nat
  /-- Some elective work is granted that was not already running (R367). -/
  fresh : Bool
  deriving DecidableEq, Repr

/-- Cost of n engines on a lane above the base. -/
def State.engineCost (s : State) (base lane n : Nat) : Nat :=
  n * s.costOf Reg.pwrCostEng + (lane - base) * s.costOf Reg.pwrCostLane

/-- Whether n engines fit: their output on a lane, with the margin, and their cost in the headroom. -/
def State.enginesFit (s : State) (base n : Nat) (h : Hand) : Bool :=
  let d := h.demand + s.compOutput n
  let l := s.laneFor base d
  decide (105 * d ≤ 100 * laneMin l s.junction) && decide ((s.engineCost base l n : Int) ≤ h.left)

/-- Engines that compression could use: enabled, not quarantined, with units to compress (R183, R218). -/
def State.enginesUsable (s : State) : Nat :=
  if s.bit Reg.cmpCtrl 0 && s.modes.sampling && s.ringOn && s.get64 Reg.cmpChEnLo Reg.cmpChEnHi != 0 then
    ((List.range 32).filter fun e => s.bit Reg.cmpEngEn e && !s.engQuarantined e).length
  else 0

/-- Compression: the most engines that fit, at least MIN_ENG, or none (R363). -/
def State.grantEngines (s : State) (base : Nat) (h : Hand) : Hand :=
  let lo := s.fld Reg.pwrCfg 31 24
  let counts := ((List.range (s.enginesUsable + 1)).reverse).filter fun n => decide (0 < n) && decide (lo ≤ n)
  match counts.find? fun n => s.enginesFit base n h with
  | none => h
  | some n =>
    let d := h.demand + s.compOutput n
    let l := s.laneFor base d
    let c := s.engineCost base l n
    { h with left := h.left - c, lane := max h.lane l, demand := d, engines := n, cost := h.cost + c, fresh := true }

/-- Drain transfers: a rate up to DPT_DRAIN_RATE while a slot drains. -/
def State.grantDrain (s : State) (h : Hand) : Hand :=
  if [0, 1, 2, 3].any fun (n : Fin 4) => s.holdState n == 4 then
    let per := s.costOf Reg.pwrCostDrain
    let want := s.fld Reg.dptDrainRate 7 0
    let r := if h.left < 0 then 0 else if per = 0 then want else min want (h.left * 10 / per).toNat
    let c := (r * per + 9) / 10
    { h with left := h.left - c, drain := r, demand := h.demand + 55 * r, cost := h.cost + c, fresh := h.fresh || decide (0 < r) }
  else h

/-- A tile whose running dwell ends in the coming period, with another one to follow (R95). -/
def State.dueSoon (s : State) (t : Fin 4) : Bool :=
  match (s.relief t).dwell with
  | some d => s.calRun t && (s.relief t).manual.isNone && decide (s.dwellDue t d ≤ s.samplePos + 2000000)
  | none => false

/-- Calibration: the dwell start of each waiting tile, in turn. A dwell that ends within the period can be followed by the
next one at the cost already charged for it (log entry 145). -/
def State.grantCal (s : State) (h : Hand) : Hand :=
  let h := allTiles.foldl (fun (h : Hand) (t : Fin 4) =>
    if s.dueSoon t && decide (0 ≤ h.left) then { h with ahead := h.ahead ||| bitOf 4 t.val } else h) h
  allTiles.foldl (fun (h : Hand) (t : Fin 4) =>
    let c := s.costOf Reg.pwrCostCal
    if (s.relief t).waiting && !(s.relief t).granted && decide ((c : Int) ≤ h.left) then
      { h with left := h.left - c, cal := h.cal ||| bitOf 4 t.val, cost := h.cost + c, fresh := true }
    else h) h

def State.grantScrub (s : State) (h : Hand) : Hand :=
  let c := s.costOf Reg.pwrCostScrub
  if s.bit Reg.dptScrubCfg 31 && s.modes.depot && decide ((c : Int) ≤ h.left) then
    { h with left := h.left - c, scrub := true, cost := h.cost + c, fresh := true }
  else h

/-- A report stands in the attestation engine's queue; a signature check needs no grant (R399). -/
def State.reportWaits (s : State) : Bool :=
  s.pers.jobs.any fun (j : AttJob) => match j with
    | .report _ _ => true
    | .check _ _ _ _ _ _ => false

def State.grantAttest (s : State) (h : Hand) : Hand :=
  let c := s.costOf Reg.pwrCostAtt
  if s.reportWaits && !h.attest && decide ((c : Int) ≤ h.left) then
    { h with left := h.left - c, attest := true, cost := h.cost + c, fresh := true }
  else h

/-- A tile whose dwell runs, or whose granted dwell is about to start. -/
def State.dwelling (s : State) (t : Fin 4) : Bool := (s.relief t).dwell.isSome || (s.relief t).granted

/-- What runs on is served first: dwells and an attestation in progress are never interrupted (R363). -/
def State.runningWork (s : State) (h : Int) (lane demand : Nat) : Hand :=
  let tiles := allTiles.filter fun t => s.dwelling t
  let att := s.bit Reg.pwrGrant 0 && s.reportWaits
  let c := tiles.length * s.costOf Reg.pwrCostCal + (if att then s.costOf Reg.pwrCostAtt else 0)
  { left := h - c, lane := lane, demand := demand, engines := 0, drain := 0
    cal := tiles.foldl (fun (m : BitVec 4) (t : Fin 4) => m ||| bitOf 4 t.val) 0
    ahead := 0, scrub := false, attest := att, cost := c, fresh := false }

/-- All grants in the order of R360; in Drain mode Drain transfers come first. -/
def State.handOut (s : State) (h : Int) (base demand : Nat) (comp : Bool) : Hand :=
  let engines (x : Hand) : Hand := if comp then s.grantEngines base x else x
  let x := s.runningWork h base demand
  let x := if s.inMode .drain then engines (s.grantDrain x) else s.grantDrain (engines x)
  s.grantAttest (s.grantScrub (s.grantCal x))

/-! ### The tick (R362) -/

/-- B_eff: the budget, lowered by GAIN for each degree above THERMAL_LIMIT − BAND. -/
def State.effectiveBudget (s : State) : Int :=
  let t := s.temp s.hottest
  let t0 : Int := s.fld Reg.pwrBudget 23 16 - s.fld Reg.pwrCfg 15 8
  let b : Int := 100 * s.fld Reg.pwrBudget 8 0
  if t ≤ t0 then b else b - 50 * s.fld Reg.pwrCfg 23 16 * (t - t0)

/-- A register in 0.1 W from a power in 0.01 W. -/
def deciwatts (x : Int) : Word := BitVec.ofNat 32 (min 65535 (max 0 (x / 10)).toNat)

/-- Concourse demand: the mandatory load and the compressed output of the period (R363, R366). -/
def State.concourse (s : State) (m : Measure) : Nat := m.demand.toNat * 55 + s.cmp.outBytes * 55 / 100000

/-- The monitors, which run while the control domain is powered (R358). -/
def State.monitor (m : Measure) (s : State) : State :=
  let s := s.setTemps m.temps
  let hot := s.hottest
  let s := s.set Reg.pwrTempMax (BitVec.ofNat 32 (hot * 65536 + s.fld (Reg.pwrTemp hot) 9 0))
  let s := s.set Reg.pwrPIn (m.pIn.setWidth 32)
  let s := s.set Reg.pwrConc (BitVec.ofNat 32 (min 65535 (s.concourse m / 55) * 65536 + m.throughput.toNat))
  (s.set Reg.pwrRailMain (m.mainVolts ++ m.mainAmps)).set Reg.pwrRailAux (m.auxVolts ++ m.auxAmps)

/-- Headroom for restoring the last step (R369). -/
def State.restoreCost (s : State) : Nat :=
  match s.tt.steps.getLast? with
  | none => 0
  | some (_, chans, lowered) =>
    let on := allTiles.foldl (fun (n : Nat) (t : Fin 4) =>
      n + popCount (s.enabledMask t &&& ((chans >>> (16 * t.val)).setWidth 16 : BitVec 16))) 0
    on * s.costOf Reg.pwrCostCh + (if lowered then s.costOf Reg.pwrCostLane else 0)

/-- The traffic of withdrawn engines has settled (R364): none of them holds a block, and with no engine granted none of
their output waits for the Ring writer either. -/
def State.withdrawnIdle (s : State) : Bool :=
  ((List.range 32).all fun e => s.grantedEngines.contains e || !s.engHolds e)
  && (!s.grantedEngines.isEmpty || !s.cmp.ready.any fun r => r.fromEngine)

/-- The grants are written, and the lane; it falls only once the compressed traffic has settled, in the fabric as measured
and in the engines (R362, R364). -/
def State.applyHand (h : Hand) (settled : Bool) (s : State) : State :=
  let s := s.set Reg.cmpGrant (BitVec.ofNat 32 h.engines)
  let s := s.set Reg.pwrGrant (BitVec.ofNat 32
    (h.engines * 2 ^ 24 + h.drain * 2 ^ 16 + h.cal.toNat * 256 + h.scrub.toNat * 2 + h.attest.toNat))
  let s := allTiles.foldl (fun (s : State) (t : Fin 4) =>
    s.updRelief t fun r =>
      if h.cal.getLsbD t.val && r.waiting && !r.granted then { r with granted := true, startAt := s.nextFrame, ahead := false }
      else { r with ahead := h.ahead.getLsbD t.val }) s
  let s := if s.lane < h.lane || (settled && s.withdrawnIdle) then s.setFld Reg.pwrStat 17 16 h.lane else s
  s.withTt fun x => { x with granted := h.cost }

/-- The loop of R362 over the period just ended. A Concourse shortfall sets ATN_POWER when it is seen, whatever cures it
(R41): a higher lane, where the headroom covers it, though step 2 be in force; else compression is withdrawn, and the lane
does not fall (R366). -/
def State.tickLoop (m : Measure) (s : State) : State :=
  let s := match s.tt.budget with
    | some w => (s.set Reg.pwrBudget w).withTt fun x => { x with budget := none }
    | none => s
  let pEl := s.tt.granted
  let pMand : Int := 10 * m.pIn.toNat - pEl
  let bEff := s.effectiveBudget
  let head := bEff - 100 * s.fld Reg.pwrCfg 7 0 - pMand
  let demand := m.demand.toNat * 55
  let conc := s.concourse m
  let lane := s.lane
  let need := s.laneFor s.lowLane demand
  let base := max s.lowLane (need - s.tt.laneDown)
  let short := decide (laneMin lane s.junction < conc)
  let up := max base (if lane < 1 && decide (conc ≤ laneMin 1 s.junction) then 1 else 2)
  let rise := (up - lane) * s.costOf Reg.pwrCostLane
  let raised := short && decide (lane < 2) && decide (rise ≤ head)
  let stuck := short && !raised
  let base' := if raised then up else if short then max s.lowLane lane else base
  let h := s.handOut (if raised then head - rise else head) base' demand (!s.tt.compOff && !stuck)
  let down := if raised then 0 else s.tt.laneDown
  let h := if down = 0 && !stuck then { h with lane := max h.lane (s.laneFor base' h.demand) } else h
  let t0 : Int := s.fld Reg.pwrBudget 23 16 - s.fld Reg.pwrCfg 15 8
  let t := ((s.set Reg.pwrPMand (deciwatts pMand)).set Reg.pwrPEl (deciwatts pEl)).set Reg.pwrBEff (deciwatts bEff)
  let t := t.setBit Reg.pwrStat 10 (decide (t0 < t.temp t.hottest))
  let t := t.applyHand h m.settled
  let nowShort := decide (laneMin t.lane t.junction < conc)
  let t := if (short || nowShort) && !s.bit Reg.pwrStat 8 then t.attend Atn.power else t
  let t := t.setBit Reg.pwrStat 8 nowShort
  let uncured := decide (laneMin t.lane t.junction < demand)
  let tight := decide (head < 0) || uncured
  let t := t.setBit Reg.pwrStat 9 (tight && decide (t.tt.steps.length = 10))
  let room := decide ((100 * t.fld Reg.pwrRestore 23 16 + t.restoreCost : Nat) ≤ head) && !t.tt.steps.isEmpty
  let t := t.withTt fun x =>
    { x with overTicks := if tight && !h.fresh then x.overTicks + 1 else 0
             short := uncured, laneDown := down
             restore := if room then x.restore + 1 else 0 }
  t.cmpTick.offerRetries.scrubLag

/-- A 1 ms tick. -/
def timetableTick (m : Measure) (s : State) : State :=
  if !s.modes.control then s
  else
    let s := s.monitor m
    if s.tt.running then s.tickLoop m else s

/-! ### Shedding (R367, R368, R370) -/

/-- The channels that a shed group takes: a pair with its even channel, and never the odd one alone. -/
def State.shedGroup (s : State) (g : Nat) : BitVec 64 :=
  let m := s.get64 (Reg.pwrShedLo g) (Reg.pwrShedHi g)
  (List.range 64).foldl (fun (x : BitVec 64) (c : Nat) =>
    let t := chanTile c
    let own := if s.ilv t (chanLocal c) then m.getLsbD (c / 2 * 2) else m.getLsbD c
    if own then x ||| bitOf 64 c else x) 0

/-- Channels that the steps in force shed. -/
def State.stepsShed (s : State) : BitVec 64 :=
  s.tt.steps.foldl (fun (x : BitVec 64) (p : Nat × BitVec 64 × Bool) => x ||| p.2.1) 0

/-- PWR_SHED_CH: what the steps in force shed, and the channels of lost tiles (R353, R368). -/
def State.shedNow (s : State) : BitVec 64 :=
  let steps := s.stepsShed
  allTiles.foldl (fun (x : BitVec 64) (t : Fin 4) =>
    if s.bit Reg.pwrDegraded (4 + t.val) then x ||| (0xFFFF <<< (16 * t.val)) else x) steps

/-- The shed channels are what PWR_SHED_CH says from the next frame boundary on: masks, slices, open records, and tiles
that no longer have a channel to sample or have one again, in a mode that powers tiles (R346, R368–R370). -/
def State.followShed (s : State) : State :=
  let old := s.shedChans
  let new_ := s.shedNow
  let s := s.set64 Reg.pwrShedChLo Reg.pwrShedChHi new_.toNat
  let n := s.nextFrame
  let s := if s.modes.sampling then s.markShed (new_ &&& ~~~old) n else s
  allTiles.foldl (fun (s : State) (t : Fin 4) =>
    let lost := s.bit Reg.pwrDegraded (4 + t.val)
    let mine : BitVec 16 := (new_ >>> (16 * t.val)).setWidth 16
    let idle := s.enabledMask t != 0 && (s.enabledMask t &&& ~~~mine) == 0
    if lost || !s.tilesMode then s
    else if idle then (if s.tilePowered t then s.tileDown t n else s)
    else if !s.tilePowered t then
      (if ((old >>> (16 * t.val)).setWidth 16 : BitVec 16) == mine then s
       else
        let s := s.tileUp t
        if s.modes.sampling then s.tileStarts t n else s)
    else if s.modes.sampling && s.wantedMask t != s.samplingMask t then (s.setSampling t (s.wantedMask t) n).showSlices t
    else s) s

/-- SHED_STEP and PWR_DEGRADED.SHED follow the steps in force. -/
def State.showSteps (s : State) : State :=
  (s.setFld Reg.pwrStat 27 24 (s.tt.steps.length)).setBit Reg.pwrDegraded 0 (!s.tt.steps.isEmpty)

/-- The next step of the fixed order (R367). -/
def shedStep (s : State) : State :=
  let n := s.tt.steps.length + 1
  if !s.tt.running || s.tt.overTicks < 10 || 10 < n then s
  else
    let low := decide (n = 2) && !s.tt.short && decide (s.lowLane < s.lane)
    let chans := if n < 3 then 0 else s.shedGroup (n - 3) &&& ~~~s.stepsShed
    let t := s.withTt fun x =>
      { x with steps := x.steps ++ [(n, chans, low)], overTicks := 0, restore := 0
               compOff := x.compOff || decide (n = 1), laneDown := if low then 1 else x.laneDown }
    let t := if low then t.setFld Reg.pwrStat 17 16 (s.lane - 1) else t
    let t := if n = 1 then ((t.set Reg.cmpGrant 0).setFld Reg.pwrGrant 29 24 0).offerRetries else t
    let t := ((t.showSteps).bump Reg.pwrShedCount).attend Atn.power
    (t.followShed).remode s

/-- The last step taken is restored (R369). -/
def State.restoreStep (s : State) : State :=
  match s.tt.steps.getLast? with
  | none => s
  | some (n, _, low) =>
    let t := s.withTt fun x =>
      { x with steps := x.steps.dropLast, overTicks := 0, restore := 0
               compOff := x.compOff && decide (n ≠ 1), laneDown := if low then 0 else x.laneDown }
    let t := t.showSteps.setBit Reg.pwrStat 9 false
    (t.followShed).remode s

/-- The headroom has held for HOLD ticks (R369). -/
def shedRestore (s : State) : State :=
  if s.tt.running && s.bit Reg.pwrRestore 31 && decide (s.fld Reg.pwrRestore 15 0 ≤ s.tt.restore) then s.restoreStep else s

/-- BUDGET_SET: in force from the next tick, the shadow at once (R361). -/
def State.setBudget (power thermal : Nat) (s : State) : State :=
  let w : Word := BitVec.ofNat 32 (thermal * 65536 + power)
  let s := { s with shadow := s.shadow.put Reg.pwrBudget w }
  if s.tt.running then s.withTt fun x => { x with budget := some w } else s.set Reg.pwrBudget w

/-- The loop starts (R355 step 8), or stops with its grants and steps gone (R352, R358). -/
def State.timetableStarts (s : State) : State := s.withTt fun x => { x with running := true }

def State.timetableStops (s : State) : State :=
  let s := match s.tt.budget with
    | some w => s.set Reg.pwrBudget w
    | none => s
  let s := ((s.set Reg.cmpGrant 0).set Reg.pwrGrant 0).setFld Reg.pwrStat 27 24 0
  let s := ((s.setFld Reg.pwrStat 9 8 0).setFld Reg.pwrStat 17 16 2).setBit Reg.pwrDegraded 0 false
  let s := { s with tt := Timetable.reset }
  s.set64 Reg.pwrShedChLo Reg.pwrShedChHi s.shedNow.toNat

/-! ### Meanings -/

def execTimetableTick (m : Measure) (s : State) : Host.Outcome State Fault Refusal := run (timetableTick m) s

def execShedStep (s : State) : Host.Outcome State Fault Refusal := run shedStep s

def execShedRestore (s : State) : Host.Outcome State Fault Refusal := run shedRestore s

end Sys2Proof.Machine
end

