-- ==== Sys2Proof/Machine/Modes.lean ====
section
/-! DEFINITION. Changes of mode: requests, entering and leaving (R346–R354), sampling started and stopped (R350), start-up
(R355, R356), trips (R357, R275), resets and Boot (R359, R378, R394), and tiles lost and retried (R353). -/

namespace Sys2Proof.Machine

/-! ### Requests (R349, R352, R354) -/

/-- Modes whose tiles sample; Hold always does, Test as its base. -/
def samples (m base : Mode) : Bool :=
  match m with
  | .calibrate | .triggered | .streaming | .hold => true
  | .test => base == .triggered || base == .streaming
  | _ => false

/-- The transitions that MODE_SET may request, by the mode and its base (R349). -/
def permitted (m base target : Mode) : Bool :=
  match m, target with
  | .dormant, _ | .boot, _ | .degraded, _ => false
  | _, .safe => true
  | .safe, t => t == .standby || t == .update
  | .standby, t => [.calibrate, .triggered, .streaming, .drain, .test, .update].contains t
  | .calibrate, t => t == .standby
  | .triggered, t | .streaming, t => [.standby, .drain, .hold, .test].contains t
  | .hold, t => t == base || t == .standby || t == .drain
  | .drain, t => [.standby, .triggered, .streaming].contains t
  | .test, t => t == base || t == .standby
  | .update, t => t == .standby

/-- Base of a mode that is entered from another (R346, R347). -/
def baseFor (from_ target : Mode) : Mode :=
  match target with
  | .hold | .test => from_
  | t => t

def State.rangeBusy (s : State) : Bool := allTiles.any fun t => s.bit (Reg.calStat t) 20

/-- A sensor still reads 140 °C or more (R357). -/
def State.stillHot (s : State) : Bool := (List.range 24).any fun n => decide (140 ≤ s.temp n)

/-- Why a MODE_SET is rejected, if it is. -/
def State.modeRefused (s : State) (target : Option Mode) : Option (BitVec 16) :=
  match target with
  | none => some St.wrongMode
  | some t =>
    let m := s.modes
    if t ≠ .safe && m.trans.isSome then some St.busyRunning
    else if !permitted m.inner m.base t then some St.wrongMode
    else if t ≠ .safe && m.inner = .safe && s.bit Reg.clkStat 10 then some St.wrongMode
    else if t ≠ .safe && m.inner = .safe && m.thermal && s.stillHot then some St.busyRunning
    else if t ≠ .safe && m.inner = .calibrate && s.rangeBusy then some St.busyRunning
    else none

/-- A transition in progress ends without its target: its MODE_SET names the mode that stands (R341, R354). -/
def State.endTrans (s : State) : State :=
  match s.modes.trans with
  | none => s
  | some x => (s.withModes fun m => { m with trans := none, startPending := false }).optDone x.op St.wrongMode
      (beBytes 1 s.mode.code)

/-- A MODE_SET is accepted. One to Standby clears STAY_SAFE (R372); a start of sampling that is still to come is not for a
mode without it. -/
def State.modeAccept (t : Mode) (op : Option OpRef) (s : State) : State :=
  let sampling := s.modes.sampling || s.clk.stopSampling
  let tr : Trans :=
    { target := t, base := baseFor s.modes.inner t, op := op
      ends := sampling && !samples t (baseFor s.modes.inner t), stopping := false, first := s.nextPeriod }
  let s := if t = .safe then
      s.endTrans.abandonRangeCal
    else s
  let s := if t = .standby then s.withModes fun m => { m with staySafe := false, thermal := false } else s
  let s := if s.modes.inner = .safe && t ≠ .safe then s.set Reg.pwrStart (s.get Reg.pwrStart &&& 0xF000FFFF) else s
  s.withModes fun m => { m with trans := some tr, startPending := m.startPending && samples t tr.base }

/-! ### Leaving and entering -/

/-- Leaving Test disarms provocations and flip masks, ends the exercise stream and releases the host's engine gates
(R348). Held frames go out; a held received frame is gone. -/
def State.leaveTest (s : State) : State :=
  let s := (List.range 11).foldl (fun (s : State) (i : Nat) => s.setBit (Reg.lnkProvCtrl i) 31 false) s
  let held := s.lnk.heldTx
  let s := s.withLnk fun l => { l with heldTx := [], heldRx := [] }
  let s := held.foldl (fun (s : State) (x : Nat × Tx) => s.emit x.2) s
  let s := ((s.setBit Reg.dptFlipCtrl 0 false).setBit Reg.dptMapflipCtrl 0 false).setBit Reg.cmpInject 0 false
  let s := (s.setBit Reg.lnkMlCtrl 9 false).exercise false
  let on := bitList (s.get Reg.clkGateHostEng)
  let s := s.set Reg.clkGateHostEng 0
  (on.foldl (fun (s : State) (e : Nat) => s.hostGate e false) s).offerRetries

/-- The firmware buffer is discarded when the module leaves Update (R395). -/
def State.leaveUpdate (s : State) : State := { s with pers := { s.pers with fwBuf := [], fwHeld := 0 } }

def State.leaveMode (s : State) : State :=
  if s.modes.inner = .test then s.leaveTest else if s.modes.inner = .update then s.leaveUpdate else s

/-- Tiles, Depot and data domain are off; the Timetable's steps and lost tiles are forgotten (R346, R352, R358). -/
def State.safeOff (s : State) : State :=
  let s := s.set Reg.pwrDegraded (s.get Reg.pwrDegraded &&& 2)
  (s.railsOff).timetableStops

/-- The 0.65 V lane is left as soon as Ring writes are enabled (R39). -/
def State.liftLane (s : State) : State := if s.lane < s.lowLane then s.setFld Reg.pwrStat 17 16 s.lowLane else s

/-- What a mode powers is switched (R346). -/
def State.powerFor (from_ t : Mode) (s : State) : State :=
  match t with
  | .safe => s.safeOff
  | .update => (s.tilesOff).enginesOff
  | .standby => if from_ = .update then (s.tilesOn).withModes fun m => { m with data := true } else s
  | _ => s

/-- The mode is entered: power, sampling, Ring writes, the Timetable; the MODE_SET is done and other sessions learn of it;
one to Safe sets STAY_SAFE (R331, R341, R346, R349, R352, R358). -/
def State.enterMode (x : Trans) (s : State) : State :=
  let old := s
  let from_ := s.modes.inner
  let s := (s.leaveMode).powerFor from_ x.target
  let on := s.modes.sampling || s.clk.stopSampling
  let s := s.withModes fun m =>
    { m with inner := x.target, base := x.base, trans := none, lastFrom := old.mode
             staySafe := m.staySafe || x.target == .safe
             keepDegraded := x.target == .update && old.mode == .degraded
             startPending := samples x.target x.base && !on
             ringMode := samples x.target x.base && x.target != .hold && !(x.target == .test && x.base == .hold) }
  let s := (s.followRing s.nextFrame).liftLane
  let s := if 3 ≤ x.target.code && x.target != .update then s.timetableStarts else s
  let s := s.attendIf (fun y => match x.op with
    | some o => y.id != o.session
    | none => true) Atn.mode
  s.optDone x.op St.ok (beBytes 1 s.mode.code)

/-- A transition that does not wait for sampling to stop, or a move to Safe during a clock stop (R349). -/
def modeEntered (s : State) : State :=
  match s.modes.trans with
  | none => s
  | some x =>
    if s.modes.inner = .safe && x.target ≠ .safe then s
    else if x.ends && !(x.target = .safe && !s.modes.sampling) then s
    else
      let t := s.enterMode x
      { t with clk := { t.clk with stopSampling := s.clk.stopSampling && !x.ends } }.stopEnds

/-! ### Sampling (R350) -/

def State.anyOpen (s : State) : Bool := !s.sbx.hits.isEmpty || s.sbx.progs.toList.any fun x => x.win.isSome

/-- At the first boundary programs are disarmed, SBX_ARM is cleared, and hit windows open and extend no longer. -/
def State.beginStop (s : State) : State :=
  let s := allProgs.foldl (fun (s : State) (p : Fin 8) =>
    if (s.sbx.progs.get p).armed then s.disarmProg p else s) s
  s.clearArm.withModes fun m => { m with trans := m.trans.map fun x => { x with stopping := true } }

/-- At a frame boundary of the Signal Box: programs are disarmed, and once no window is open sampling stops and the new
mode is entered (R350). -/
def samplingStop (s : State) : State :=
  match s.modes.trans with
  | none => s
  | some x =>
    if !x.ends || !s.modes.sampling || s.sbx.period % framePeriods != 0 || decide (s.sbx.period < x.first) then s
    else
      let s := if x.stopping then s else s.beginStop
      if s.anyOpen then s
      else
        let n := s.sbx.period
        let s := s.numberUpTo (n + framePeriods) []
        let s := (s.withModes fun m => { m with sampling := false, last := some n }).flushWire.flushLineQ
        let s := allTiles.foldl (fun (s : State) (t : Fin 4) => if s.tilePowered t then s.tileStops t n else s) s
        s.enterMode x

/-- The Signal Box as a start of sampling finds it: disarmed programs keep their counters and timers (R116), lines their
levels (R137). Re-arm spans of before are forgotten (log entry 144). -/
def sbxStart (x : Sbx) (t0 : Int) : Sbx :=
  { Sbx.reset with
    t0 := t0, linesA := x.linesA, linesB := x.linesB
    progs := x.progs.map fun (p : Prog) => { Prog.reset with state := p.state, cnt := p.cnt, tmr := p.tmr } }

/-- Sampling starts at a frame boundary: the grid is aligned, ranging, rotation, pre-fill and units begin (R232, R350);
hits count from the beginning of Streaming on (R147). -/
def samplingStart (s : State) : State :=
  if !s.modes.startPending || s.modes.sampling || !s.pllLocked || s.stopped || !s.sbx.closing.isEmpty then s
  else
    let (i, s) := s.takeFree
    let s := s.setFld Reg.sbxLag 8 0 (200 + Config.lag i % 101)
    let s := { s with sbx := sbxStart s.sbx (roundUp s.tim.mt periodU) }
    let s := if s.modes.acq == .streaming then s.set64 Reg.sbxStrHitsLo Reg.sbxStrHitsHi 0 else s
    let s := s.withModes fun m =>
      { m with sampling := true, startPending := false, last := none, ringEdges := [(0, s.ringOn)] }
    let s := allTiles.foldl (fun (s : State) (t : Fin 4) => if s.tilePowered t then s.tileStarts t 0 else s) s
    s.followArm

/-! ### Start-up (R355, R356) -/

def State.setStep (n : Nat) (s : State) : State := s.setFld Reg.pwrStart 31 28 n

/-- A step has failed: its rails go off again, the module stays in Safe, and PWR_MODE tells of a transition from Safe (R351,
R356). -/
def State.stepFails (step cause : Nat) (s : State) : State :=
  let s := if step = 3 then s else s.safeOff
  let s := (s.setFld Reg.pwrStart 27 24 step).setBit Reg.pwrStart cause true
  ((s.withModes fun m => { m with lastFrom := m.inner }).attend Atn.mode).endTrans

/-- Step 3: the regulators come up in turn and the control domain is switched on. -/
def State.stepThree (f : StartFacts) (s : State) : Bool × State :=
  if s.modes.control then (true, s)
  else if f.railFail then (false, s.stepFails 3 17)
  else (true, (s.controlOn).setStep 3)

/-- Steps 4 and 5: a source is valid, or the XO qualifies; the PLL locks and the ports come up. Where the PLL has not
locked, start-up waits. -/
def State.stepFive (f : StartFacts) (s : State) : Bool × State :=
  let ports (s : State) (l : List (Fin 7)) : State := l.foldl (fun (s : State) (p : Fin 7) =>
    if !f.portsUp.getLsbD p.val || s.portUp p then s
    else if p.val = 0 then Sys2Proof.Machine.portUp 0 s else if p.val = 1 then Sys2Proof.Machine.portUp 1 s else s.linkUp p.val) s
  if s.pllLocked then
    (true, if s.fld Reg.pwrStart 31 28 = 3 ∨ s.fld Reg.pwrStart 31 28 = 4 then
      (ports (s.setBit Reg.pwrStart 16 false) [0, 1, 2, 3, 4, 5, 6]).setStep 5 else s)
  else if !f.locked then
    (false, ports ((s.setBit Reg.pwrStart 16 s.validSrcs.isEmpty).setStep (if s.validSrcs.isEmpty then 3 else 4)) [6])
  else
    let s := if s.validSrcs.isEmpty then xoRunning s else s
    let t := if s.validSrcs.isEmpty then (s.setCount 2 16).srcPassed 2 else s
    let t := (match t.refWanted with
      | some x => t.takeRef x
      | none => t).recompare s
    let t := pllLock 0 t
    (true, (ports (t.setBit Reg.pwrStart 16 false) [0, 1, 2, 3, 4, 5, 6]).setStep 5)

/-- Step 6: every tile link trains and trims and delays are loaded. -/
def State.stepSix (f : StartFacts) (s : State) : Bool × State :=
  if f.tilesTrained ≠ 0xF then (false, s.stepFails 6 18)
  else
    let s := allTiles.foldl (fun (s : State) (t : Fin 4) => ((s.tileUp t).loadAmps t).loadTrims t) s
    (true, (s.loadDelays).setStep 6)

/-- Step 7: the Depot is trained, zero-filled and mapped, and the data domain is up. -/
def State.stepSeven (f : StartFacts) (data : Bool) (s : State) : Bool × State :=
  let (ok, s) := s.depotInit f.stacksTrained
  if ok then (true, (s.withModes fun m => { m with depot := true, data := data }).setStep 7)
  else (false, (s.stepFails 7 19).showStacks f.stacksTrained)

/-- What start-up is to reach: the MODE_SET's target, or Standby on its own (R351). -/
def State.startTarget (s : State) (mv : Nat) : Option Trans :=
  if s.modes.inner ≠ .safe || mv < 10800 || s.bit Reg.clkStat 10 then none
  else match s.modes.trans with
    | some x => if x.target = .standby || x.target = .update then some x else none
    | none =>
      if s.modes.staySafe || s.fld Reg.pwrStart 27 24 ≠ 0 then none
      else some { target := .standby, base := .standby, op := none, ends := false, stopping := false, first := 0 }

/-- Start-up from Safe, or the rest of it (R355, R356). -/
def startUp (f : StartFacts) (s : State) : State :=
  match s.startTarget f.mainMv with
  | none => s
  | some x =>
    let s := s.withModes fun m => { m with mainMv := f.mainMv, trans := some x }
    match s.stepThree f with
    | (false, s) => s
    | (true, s) =>
      match s.stepFive f with
      | (false, s) => s
      | (true, s) =>
        let s := s.withModes fun m => { m with att := true }
        match (if x.target = .update then (true, s) else s.stepSix f) with
        | (false, s) => s
        | (true, s) =>
          match s.stepSeven f (x.target != .update) with
          | (false, s) => s
          | (true, s) =>
            let s := if x.target = .update then s
              else (s.setStep 8).setFld Reg.pwrStart 15 0 f.elapsedMs.toNat
            s.enterMode x

/-- After a rail trip the control domain alone comes up again (R357). -/
def controlDomainRestart (mv : Nat) (f : StartFacts) (s : State) : State :=
  if s.modes.inner ≠ .safe || !s.modes.staySafe || s.modes.trans.isSome || s.bit Reg.clkStat 10 || mv < 10800 || 13200 < mv
      || (s.modes.control && s.fld Reg.pwrStart 31 28 != 3 && s.fld Reg.pwrStart 31 28 != 4) then s
  else
    let s := s.withModes fun m => { m with mainMv := mv }
    match s.stepThree f with
    | (false, s) => s
    | (true, s) => (s.stepFive f).2

/-! ### Trips (R275, R357) -/

/-- What every trip does. -/
def State.trip (bit_ : Nat) (s : State) : State :=
  let old := s
  let s := (s.abandonRangeCal).leaveMode.safeOff
  let s := s.setBit Reg.pwrTrip bit_ true
  let s := { s with clk := { s.clk with stopSampling := false } }
  let s := s.withModes fun m =>
    { m with inner := .safe, base := .safe, staySafe := true, lastFrom := old.mode, ringMode := false, startPending := false }
  (s.attend Atn.mode).endTrans.stopEnds

def State.fromSafeOn (s : State) : Bool := decide (2 ≤ s.modes.inner.code)

/-- A sensor reads 155 °C or more: the attestation engine goes off as well. -/
def thermalTrip (n : Nat) (celsius : Int) (s : State) : State :=
  if !s.fromSafeOn || !s.modes.control || !s.sensorOn n || celsius < 155 then s
  else
    let s := (s.trip 0).attOff
    let s := s.set (Reg.pwrTemp n) (BitVec.ofNat 32 (unsigned 10 (clampI (-512) 511 celsius)))
    s.withModes fun m => { m with thermal := true }

/-- A main-rail trip during step 1 of a calibration store ends it; later it changes nothing (R386). -/
def State.tripStore (s : State) : State :=
  match s.pers.cst with
  | none => s
  | some j =>
    if j.zeroed then s
    else
      let s := { s with pers := { s.pers with cst := none } }
      (s.setBit Reg.cstStat 8 false).opDone j.op St.notPowered (beBytes 1 j.target ++ List.replicate 7 0)

/-- Every main-rail load goes off. -/
def State.railTrip (bit_ : Nat) (s : State) : State := ((s.trip bit_).controlOff).setStep 2

/-- The main rail below 10.5 V for 20 µs while it is in use. -/
def mainUv (mv heldUs : Nat) (s : State) : State :=
  if 10500 ≤ mv || heldUs < 20 then s
  else
    let s := s.withModes fun m => { m with mainMv := mv }
    if s.fromSafeOn && s.modes.control then (s.railTrip 1).tripStore else s

/-- The main rail above 13.6 V for 20 µs while it is in use. -/
def mainOv (mv heldUs : Nat) (s : State) : State :=
  if mv ≤ 13600 || heldUs < 20 then s
  else
    let s := s.withModes fun m => { m with mainMv := mv }
    if s.fromSafeOn && s.modes.control then (s.railTrip 2).tripStore else s

/-- The PLL's own core has tripped: the control domain is off until a reset (R275); CORE_FAULT attends ATN_CLOCK (R281). -/
def coreFault (s : State) : State :=
  if !s.fromSafeOn || !s.modes.control then s else ((s.setBit Reg.clkStat 10 true).attend Atn.clock).railTrip 3

/-! ### Resets (R359) and Boot -/

/-- Writing that a reset or the loss of the auxiliary rail cuts short leaves a part of its bytes in the MRAM. -/
def State.writeCut (a : Nat) (bs : List Byte) (s : State) : State :=
  let (i, s) := s.takeFree
  { s with nv := { s.nv with mram := Mem.writeBytes a (bs.take (Config.writtenBytes i)) s.nv.mram } }

/-- A calibration store past its step 1, and an installation, are cut short: their bank and slot have no seal (R386, R388,
R396). -/
def State.cutStore (s : State) : State :=
  let s := match s.pers.cst with
    | some j => if j.zeroed then s.writeCut (bankAddr j.target) j.image else s
    | none => s
  match s.pers.install with
  | some x => s.writeCut (patchAddr x.slot) x.image
  | none => s

/-- Everything at its reset value but what outlasts a reset: the rails, the straps, the nonvolatile memories, the RC trim
codes, and what has been sent. -/
def State.resetAll (into : Mode) (s : State) : State :=
  let s := s.cutStore
  let t := { State.reset with
    pending := s.pending, variant := s.variant, straps := s.straps, nv := s.nv, tx := s.tx, evt := s.evt, free := s.free
    modes := { Modes.reset with inner := into, base := into, lastFrom := s.mode, auxMv := s.modes.auxMv
                                mainMv := s.modes.mainMv, nrstLow := s.modes.nrstLow }
    tim := { Tim.reset with now := s.tim.now }
    lnk := { Lnk.reset with noneUp := some s.tim.now } }
  [0, 1, 2].foldl (fun (t : State) (n : Nat) =>
    t.set (Reg.clkRcStat n) (BitVec.ofNat 32 (s.fld (Reg.clkRcStat n) 9 0))) t

/-- A reset into Boot with its cause. -/
def State.resetTo (cause : Nat) (s : State) : State :=
  let s := (s.resetAll .boot).set Reg.ilkResetCause (BitVec.ofNat 32 cause)
  { s with ilk := { s.ilk with bootAt := s.tim.now } }

/-- A reset of which no command tells what the straps read: they are sampled as they stand (R417). -/
def State.resetHere (cause : Nat) (s : State) : State :=
  let (i, s) := s.takeFree
  State.resetTo cause { s with straps := Config.strapPins i }

/-- The auxiliary rail rises from below 2.8 V to 3.0 V: a power-on reset, with the factory trims (R258, R351). -/
def auxRailUp (mv : Nat) (straps : BitVec 12) (s : State) : State :=
  if s.modes.inner ≠ .dormant || 2800 ≤ s.modes.auxMv || mv < 3000 then s
  else
    let s := { s with straps := straps, modes := { s.modes with auxMv := mv } }
    if s.modes.nrstLow then (s.resetAll .dormant).loadRcTrims else (s.resetTo 0).loadRcTrims

/-- The auxiliary rail is lost (R351): nothing but the nonvolatile memories remains. -/
def auxRailLoss (mv : Nat) (s : State) : State :=
  if 2800 ≤ mv then s
  else
    let s := { s with modes := { s.modes with auxMv := mv } }
    if s.modes.inner = .dormant then s
    else (s.resetAll .dormant).resetRegs fun a => a / 0x10000 == 2

/-- nRST is held low (R359, R417): a pulse of 0.5 µs to 1 µs resets or does nothing. Without the auxiliary rail there is
nothing to reset, and the pin keeps the module Dormant when the rail comes (R351). -/
def nrstLow (ns : Nat) (s : State) : State :=
  if ns < 500 || s.modes.nrstLow then s
  else if s.modes.auxMv < 2800 then s.withModes fun m => { m with nrstLow := true }
  else
    let (i, s) := s.takeFree
    if ns < 1000 && !Config.shortPulseResets i then s
    else { (s.resetAll .dormant) with modes := { (s.resetAll .dormant).modes with nrstLow := true } }

/-- nRST returns high: Boot (R351, R359). -/
def nrstRelease (straps : BitVec 12) (s : State) : State :=
  if !s.modes.nrstLow then s
  else
    let s := s.withModes fun m => { m with nrstLow := false }
    if s.modes.auxMv < 2800 then s else State.resetTo 1 { s with straps := straps }

/-- A soft reset begins 1 ms after RESET_SOFT (R341). -/
def softReset (s : State) : State :=
  match s.bcp.resetAt with
  | some t => if t ≤ s.tim.now then s.resetHere 2 else s
  | none => s

def allLanes : List (Fin 3) := [0, 1, 2]

def State.voting (s : State) (l : Nat) : Bool := s.bit Reg.ilkLaneStat (4 * l)
def State.votingLanes (s : State) : List (Fin 3) := allLanes.filter fun (l : Fin 3) => s.voting l

/-- Lanes that the voter has retired in this Boot (R376), beside those whose self-test failed. -/
def State.votedOut (s : State) (l : Nat) : Bool := s.laneRetired l && !s.ilk.selfOut.getLsbD l

/-- Lanes after the self-test of Boot: those that fail stay out (R378), and so do those that the voter has retired. -/
def State.bootLanes (ok : BitVec 3) (s : State) : State :=
  let out : BitVec 3 := [0, 1, 2].foldl (fun (m : BitVec 3) (l : Nat) => if s.votedOut l then m ||| bitOf 3 l else m) 0
  let good := ok &&& ~~~out
  let s := [0, 1, 2].foldl (fun (s : State) (l : Nat) =>
    s.setFld Reg.ilkLaneStat (4 * l + 2) (4 * l) (if good.getLsbD l then 1 else 4)) s
  { s.setBit Reg.pwrDegraded 1 (good != 7) with ilk := { s.ilk with selfOut := ~~~ok &&& ~~~out } }

/-- Safe is entered from Boot: the bank in force is chosen and module time starts at 0 (R232, R351, R385). -/
def State.bootDone (patchState slot gen : Nat) (s : State) : State :=
  let s := (s.setFld Reg.ilkBoot 14 12 patchState).setFld Reg.ilkBoot 9 8 slot
  let s := (s.set Reg.ilkPatchGen (BitVec.ofNat 32 gen)).chooseBank
  let s := s.withTim fun t => { t with mt := 0 }
  let s := { s with pers := { s.pers with recheckAt := s.tim.now } }
  (s.withModes fun m => { m with inner := .safe, base := .safe, lastFrom := .boot }).attend Atn.mode

/-- The lanes have self-tested and chosen firmware and configuration (R355 step 2, R378, R391, R394). Every lane that
passes reads the same slots and makes the same checks, so that the vote on the outcome yields it. Where the patched firmware
has not come up, Boot goes on with the lanes that passed. -/
def bootComplete (selfTest : BitVec 3) (patchOk : Bool) (s : State) : State :=
  let t := s.loadIdentity.bootLanes selfTest
  if s.modes.inner ≠ .boot || t.votingLanes.length < 2 then s
  else
    if !t.patchEn then t.bootDone 4 0 0
    else match t.bestPatch with
      | some (k, g) => if patchOk then t.bootDone 1 k g else t
      | none => if t.slotHolds 0 || t.slotHolds 1 then t.bootDone 2 0 0 else t.bootDone 0 0 0

/-- Patched firmware has not come to Safe in time: its slot is marked and ROM firmware runs, on the lanes that passed their
self-test (R394; log entry 91). -/
def patchFallback (s : State) : State :=
  if s.modes.inner ≠ .boot || s.tim.now < s.ilk.bootAt + msU 45 || s.votingLanes.length < 2 then s
  else
    let t := s.loadIdentity
    if !t.patchEn then s
    else match t.bestPatch with
      | none => s
      | some (k, _) =>
        let t := { t with nv := { t.nv with mram := Mem.writeBytes (slotSeal k + 72) (beBytes 4 0x4641494C) t.nv.mram } }
        t.bootDone 3 0 0

/-- Fewer than two lanes pass: Boot is repeated every 1 s (R378). -/
def bootRepeat (selfTest : BitVec 3) (s : State) : State :=
  let t := s.bootLanes selfTest
  if s.modes.inner ≠ .boot || 2 ≤ t.votingLanes.length || s.tim.now < s.ilk.bootAt + secU 1 then s
  else { t with ilk := { t.ilk with bootAt := t.tim.now } }

/-! ### Tiles lost and retried (R353) -/

/-- A tile link that has not retrained within 1 s loses its tile. -/
def tileLost (t : Fin 4) (s : State) : State :=
  if !s.tilePowered t || !s.tileTraining t || s.tim.now < (s.tile t).trainSince + secU 1 || !s.tilesMode then s
  else
    let u := s.tileDown t s.nextFrame
    let u := (u.setBit Reg.pwrDegraded (4 + t.val) true).setBit Reg.pwrDegraded 2 true
    let u := u.updTile t fun x => { x with retryAt := u.tim.now + secU 10 }
    (u.followShed).remode s

/-- A lost tile is tried again every 10 s; once it trains it is powered and the cause clears. -/
def tileRetry (t : Fin 4) (trained : Bool) (s : State) : State :=
  if !s.tilesMode || !s.bit Reg.pwrDegraded (4 + t.val) || s.tim.now < (s.tile t).retryAt then s
  else if !trained then s.updTile t fun x => { x with retryAt := s.tim.now + secU 10 }
  else
    let u := s.setBit Reg.pwrDegraded (4 + t.val) false
    let u := u.setBit Reg.pwrDegraded 2 (u.fld Reg.pwrDegraded 7 4 != 0)
    (u.followShed).remode s

/-! ### Meanings -/

def execModeEntered (s : State) : Host.Outcome State Fault Refusal := run modeEntered s

def execSamplingStop (s : State) : Host.Outcome State Fault Refusal := run samplingStop s

def execSamplingStart (s : State) : Host.Outcome State Fault Refusal := run samplingStart s

def execStartUp (f : StartFacts) (s : State) : Host.Outcome State Fault Refusal := run (startUp f) s

def execControlDomainRestart (mv : Nat) (f : StartFacts) (s : State) : Host.Outcome State Fault Refusal :=
  run (controlDomainRestart mv f) s

def execThermalTrip (sensor : Fin 24) (celsius : Int) (s : State) : Host.Outcome State Fault Refusal :=
  run (thermalTrip sensor celsius) s

def execMainUv (mv heldUs : Nat) (s : State) : Host.Outcome State Fault Refusal := run (mainUv mv heldUs) s

def execMainOv (mv heldUs : Nat) (s : State) : Host.Outcome State Fault Refusal := run (mainOv mv heldUs) s

def execCoreFault (s : State) : Host.Outcome State Fault Refusal := run coreFault s

def execAuxRailUp (mv : Nat) (straps : BitVec 12) (s : State) : Host.Outcome State Fault Refusal :=
  run (auxRailUp mv straps) s

def execAuxRailLoss (mv : Nat) (s : State) : Host.Outcome State Fault Refusal := runNv (auxRailLoss mv) s

def execNrstLow (ns : Nat) (s : State) : Host.Outcome State Fault Refusal := runNv (nrstLow ns) s

def execNrstRelease (straps : BitVec 12) (s : State) : Host.Outcome State Fault Refusal := run (nrstRelease straps) s

def execSoftReset (s : State) : Host.Outcome State Fault Refusal := runNv softReset s

def execBootComplete (selfTest : BitVec 3) (patchOk : Bool) (s : State) : Host.Outcome State Fault Refusal :=
  run (bootComplete selfTest patchOk) s

def execPatchFallback (s : State) : Host.Outcome State Fault Refusal := runNv patchFallback s

def execBootRepeat (selfTest : BitVec 3) (s : State) : Host.Outcome State Fault Refusal := run (bootRepeat selfTest) s

def execTileLost (t : Tile) (s : State) : Host.Outcome State Fault Refusal := run (tileLost t) s

def execTileRetry (t : Tile) (trained : Bool) (s : State) : Host.Outcome State Fault Refusal := run (tileRetry t trained) s

end Sys2Proof.Machine
end

