-- ==== Sys2Proof/Machine/Operands.lean ====
section
/-! DEFINITION. The operand forms of a register access: the fields of an address by their access codes (R13–R16), values
that two registers hold together (R17, R338, R433), and the ranges and codes that a written field may take (R122, R125,
R336). -/

namespace Sys2Proof.Machine

/-! ### The map's view of an address -/

/-- The bits of the fields that some access codes pick. -/
def fieldMask (p : Access → Bool) (fs : List Field) : Word :=
  fs.foldl (fun (w : Word) (f : Field) => if p f.acc then w ||| maskOf f.hi f.lo else w) 0

def isSh (a : Access) : Bool := a == .sh
def isKept (a : Access) : Bool := a == .sh || a == .rw || a == .lk
def isDirect (a : Access) : Bool := a == .rw || a == .lk
def isWo (a : Access) : Bool := a == .wo
def isWc (a : Access) : Bool := a == .wc

/-- The fields of an address; none at a reserved register (R46). -/
def fieldsAt (a : Nat) : List Field := ((findRow a).map fun x => x.1.fields).getD []

/-- LO registers whose value is written as a whole with its HI register (R433). -/
def wholeLo (a : Nat) : Bool :=
  a == Reg.queSeqNextLo || a == Reg.timDomAsymLo 0 || a == Reg.timDomAsymLo 1
  || (decide (0x51000 ≤ a) && decide (a < 0x59000) && decide (0xC0 ≤ a % 0x1000) && decide (a % 0x1000 < 0x100) && a % 0x10 == 0)

/-- LO registers of values listed as 64-bit or as a 40-bit pair (R338). Channel masks are not among them (R433). -/
def pairLo (a : Nat) : Bool :=
  wholeLo a
  || (decide (0x51000 ≤ a) && decide (a < 0x59000) && decide (0xC0 ≤ a % 0x1000) && decide (a % 0x1000 < 0x100) && a % 0x10 == 8)
  || [Reg.ilkEui64Lo, Reg.timSnSLo 0, Reg.timSnSLo 1, Reg.timSnSLo 2, Reg.timSnSLo 3, Reg.timAbOfsLo, Reg.timMtErrLo,
      Reg.timStepSizeLo, Reg.timStepQseqLo, Reg.timStepUseqLo, Reg.timDomOfsLo 0, Reg.timDomOfsLo 1, Reg.timDomMpdLo 0,
      Reg.timDomMpdLo 1, Reg.timDomGmLo 0, Reg.timDomGmLo 1, Reg.lnkSegsLo, Reg.sbxStrHitsLo, Reg.queRecordsLo,
      Reg.queLastSkipLo, Reg.dptUnitSeqLo, Reg.dptStoreOldestLo, Reg.dptMapDataLo, Reg.cmpBytesInLo, Reg.cmpBytesOutLo].contains a
  || [0, 1, 2, 3].any fun (n : Nat) => a == Reg.dptHoldFirstSeqLo n || a == Reg.dptHoldLastSeqLo n

/-! ### The ranges of a write (R336) -/

/-- A nonzero Reserved bit, an unused field, a reserved TYPE or a reserved code makes a term word wrong (R122). -/
def termOk (w : Word) : Bool :=
  let f (hi lo : Nat) : Nat := bits w hi lo
  let clear (m : Word) : Bool := (w &&& m) == 0
  let sw := f 26 24 == 0 && f 20 20 == 0 && f 19 18 == 0
  let prog := f 10 8 == 0
  clear 0x00E3F880 && match f 30 28 with
    | 0 => w == 0
    | 1 => prog && f 19 18 != 3 && (if f 19 18 = 2 then decide (1 ≤ f 6 0) && decide (f 6 0 ≤ 64) else f 6 0 == 0)
    | 2 => sw && prog && f 6 3 == 0
    | 3 => sw && prog && f 6 2 == 0
    | 4 => sw && prog && f 6 6 == 0 && f 3 2 == 0 && f 5 4 != 3
    | 5 => sw && f 6 4 == 0
    | 6 => sw && f 6 0 == 0
    | _ => false

/-- A nonzero Reserved bit or a reserved code makes an action word wrong (R125). -/
def actOk (w : Word) : Bool :=
  (w &&& 0x00008200) == 0 && decide (bits w 14 12 ≤ 4) && decide (bits w 8 6 ≤ 4) && bits w 1 0 != 3

def limitOk (l : Limit) (w : Word) (hi lo : Nat) : Bool :=
  let v := bits w hi lo
  match l with
  | .any => true
  | .range a b => decide (a ≤ v) && decide (v ≤ b)
  | .term => termOk w
  | .act => actOk w
  | .s20 => decide (-524288 ≤ signed 32 v) && decide (signed 32 v ≤ 524287)
  | .s500 => decide (-500 ≤ signed 10 v) && decide (signed 10 v ≤ 500)

/-- Every field that is written lies in its stated range (R336, R337). -/
def rangesOk32 (fs : List Field) (new mask : Word) : Bool :=
  fs.all fun (f : Field) => !isKept f.acc || (mask &&& maskOf f.hi f.lo) == 0 || limitOk f.lim new f.hi f.lo

/-- A value written as a whole lies in its range: a timer load (R147), a delay asymmetry of ±10,000 ns (R255). -/
def wholeOk (a v : Nat) : Bool :=
  if a = Reg.queSeqNextLo then true
  else if a < 0x50000 then decide ((signed 64 v).natAbs ≤ 10000 * nsU)
  else decide (1 ≤ v) && decide (v < 2 ^ 40)

def isProv (a : Nat) : Bool := decide (Reg.lnkProvCtrl 0 ≤ a) && decide (a < Reg.lnkProvCtrl 11)
def isFlip (a : Nat) : Bool :=
  (decide (Reg.dptFlipMask0 ≤ a) && decide (a ≤ Reg.dptFlipAddr)) || (decide (Reg.dptMapflipMask0 ≤ a)
        && decide (a ≤ Reg.dptMapflipCtrl))

/-- DIR of a provocation suits its target (R316). -/
def dirOk (i : Nat) (received : Bool) : Bool :=
  if i = 2 ∨ i = 4 then received else if i = 3 ∨ i = 5 ∨ 7 ≤ i then !received else true

end Sys2Proof.Machine
end

