-- ==== Sys2Proof/Machine/Trust.lean ====
section
/-! DEFINITION. The Interlocking lanes and their voting (R373–R381), calibration stores and rechecks (R386–R389), the
attestation engine with its reports and privileged requests (R343–R345, R392, R395–R402), and a scrub step whose line is
the Interlocking's (R397). -/

namespace Sys2Proof.Machine

/-! ### Lanes (R374–R379) -/

/-- Bit l: lane l votes. -/
def State.laneBits (s : State) : Nat := (s.votingLanes.map fun (l : Fin 3) => 2 ^ l.val).sum

/-- No majority: the internal reset, with the effects of a pulse on nRST (R377). -/
def State.noMajority (s : State) : State := s.resetHere 3

/-- A lane is retired until the next reset (R376). -/
def State.retireLane (l : Nat) (s : State) : State :=
  let t := (s.setFld Reg.ilkLaneStat (4 * l + 2) (4 * l) 4).setBit Reg.pwrDegraded 1 true
  let t := { t with ilk := { t.ilk with forced := t.ilk.forced.filter fun x => x != l
                                        resync := if t.ilk.resync = some l then none else t.ilk.resync
                                        due := if t.ilk.due = some l then none else t.ilk.due } }
  (t.attend Atn.ilk).remode s

/-- The resynchronization of a lane begins: the other two pause (R375). -/
def State.startResync (l : Nat) (s : State) : State :=
  let s := s.setFld Reg.ilkLaneStat (4 * l + 1) (4 * l) 2
  { s with ilk := { s.ilk with resync := some l, due := none, forced := s.ilk.forced.filter fun x => x != l } }

/-- ILK_LAST with its moment. -/
def State.logLane (l kind : Nat) (lasting : Bool) (s : State) : State :=
  (s.set Reg.ilkLast (BitVec.ofNat 32 (l * 65536 + kind * 256 + lasting.toNat))).stamp Reg.ilkLastS Reg.ilkLastNs s.tim.mt

/-- A disagreement of one lane: counted and logged. The lane is resynchronized at the next sync point (R375), or retired
within 10 s of its previous disagreement (R376). -/
def State.disagree (l kind : Nat) (s : State) : State :=
  let lasting := match lookupK l s.ilk.lastDis with
    | some t => decide (s.tim.now ≤ t + secU 10)
    | none => false
  let s := (s.bumpFld (Reg.ilkLaneCnt l) 31 16 1).logLane l kind lasting
  let s := { s with ilk := { s.ilk with lastDis := putK l s.tim.now s.ilk.lastDis } }
  if lasting then s.retireLane l else { s with ilk := { s.ilk with due := some l } }.attend Atn.ilk

/-- The kind in which a lane of three disagrees with the other two (R374). -/
def laneKind (x y z : LaneStep) : Option Nat :=
  let second := max (min x.lateNs y.lateNs) (min (max x.lateNs y.lateNs) z.lateNs)
  if y.digest = z.digest ∧ x.digest ≠ y.digest then some 1
  else if second + 10000 < x.lateNs then some 2
  else if x.selfFault then some 3
  else none

/-- What a sync point shows of three voting lanes. -/
def State.voteThree (a b c : LaneStep) (s : State) : State :=
  let d : List (Nat × Nat) := (withIdx [laneKind a b c, laneKind b a c,
        laneKind c a b]).filterMap fun x => x.2.map fun k => (x.1, k)
  if a.digest ≠ b.digest ∧ b.digest ≠ c.digest ∧ a.digest ≠ c.digest then s.noMajority
  else match d with
    | [] => match s.ilk.forced with
      | l :: _ => (s.startResync l).attend Atn.ilk
      | [] => s
    | [(l, k)] => s.disagree l k
    | _ => s.noMajority

/-- What it shows of two: they agree, or re-execute the step (R377). A replay is logged under the lane that came late or
reported an error of its own; which lane it is charged to where neither or both did is open. -/
def State.voteTwo (l0 l1 : Fin 3) (a b : LaneStep) (s : State) : State :=
  let odd (x y : LaneStep) : Bool := decide (y.lateNs + 10000 < x.lateNs) || x.selfFault
  if a.digest = b.digest ∧ !odd a b ∧ !odd b a then s
  else if a.replay = b.replay then
    if odd a b = odd b a then
      let (i, s) := s.takeFree
      s.logLane (if Config.wideLineError i then l0 else l1) 4 false
    else s.logLane (if odd a b then l0 else l1) 4 false
  else s.noMajority

/-- A sync point (R374–R377): lanes run and vote from Boot on; none is reached while the agreeing lanes pause. Where a lane
of three disagreed at the previous one, its resync begins at this one, and nothing is compared (log entry 106). -/
def syncPoint (a b c : LaneStep) (s : State) : State :=
  if s.modes.inner = .dormant || s.ilk.resync.isSome then s
  else
    let of (l : Fin 3) : LaneStep := if l = 0 then a else if l = 1 then b else c
    let v := s.votingLanes
    let s := v.foldl (fun (s : State) (l : Fin 3) => s.bumpFld (Reg.ilkLaneCnt l) 15 0 (of l).sramCe) s
    match v with
    | [_, _, _] => match s.ilk.due with
      | some l => s.startResync l
      | none => s.voteThree a b c
    | [x, y] => State.voteTwo x y (of x) (of y) { s with ilk := { s.ilk with due := none } }
    | _ => s

/-- A resync ends: the lane votes again, or there is no majority (R375). -/
def resyncComplete (equal : Bool) (s : State) : State :=
  match s.ilk.resync with
  | none => s
  | some l =>
    if !equal then s.noMajority
    else { s.setFld Reg.ilkLaneStat (4 * l + 1) (4 * l) 1 with ilk := { s.ilk with resync := none } }

/-- A retirement that would leave fewer than two voting lanes (R379). -/
def State.retireRefused (s : State) (mask : Nat) : Bool :=
  let names := allLanes.any fun (l : Fin 3) => mask / 2 ^ l.val % 2 == 1 && !s.laneRetired l
  names && decide ((s.votingLanes.filter fun (l : Fin 3) => mask / 2 ^ l.val % 2 == 0).length < 2)

/-- ILK_LANE_CTRL: RETIRE acts at once, RESYNC at the next sync point (R379). -/
def State.laneCtrl (resync retire : Nat) (s : State) : State :=
  let s := allLanes.foldl (fun (s : State) (l : Fin 3) =>
    if retire / 2 ^ l.val % 2 == 1 && !s.laneRetired l then s.retireLane l else s) s
  allLanes.foldl (fun (s : State) (l : Fin 3) =>
    if resync / 2 ^ l.val % 2 == 1 && s.voting l && !s.ilk.forced.contains l.val then
      { s with ilk := { s.ilk with forced := s.ilk.forced ++ [l.val] } }
    else s) s

/-- Patched firmware runs on the lanes (R394). -/
def State.patchRunning (s : State) : Bool := s.fld Reg.ilkBoot 14 12 == 1

/-- A lane's result of an audit: the first 16 bytes of a digest over SEED and what the lane holds (R380). -/
def State.auditResult (s : State) (seed : Word) (l : Nat) (x : LaneAudit) : List Byte :=
  if s.laneRetired l then List.replicate 16 0
  else (sha3Bytes (beBytes 4 seed.toNat ++ x.rom ++ (if s.patchRunning then x.patch else []) ++ x.voted ++ x.kernel)).take 16

/-- The oldest audit's results are in (R380). -/
def auditComplete (a b c : LaneAudit) (s : State) : State :=
  match s.ilk.audits with
  | [] => s
  | (o, seed) :: rest =>
    { s with ilk := { s.ilk with audits := rest } }.opDone o St.ok
      (s.auditResult seed 0 a ++ s.auditResult seed 1 b ++ s.auditResult seed 2 c)

/-! ### Calibration stores (R386–R389) -/

def State.cstBusy (s : State) : Bool := s.pers.cst.isSome

/-- Bytes written into the MRAM. -/
def State.writeMram (a : Nat) (bs : List Byte) (s : State) : State :=
  { s with nv := { s.nv with mram := Mem.writeBytes a bs s.nv.mram } }

/-- CST_STORE is accepted. When its step 1 ends is open within the 50 ms of the whole store (R386; log entry 161). -/
def State.startStore (op : OpRef) (s : State) : State :=
  let (i, s) := s.takeFree
  let j : CstJob := { target := s.storeTarget, op := op, image := s.bankImage
                      zeroAt := s.tim.now + min (Config.gatherTime i) (msU 50), zeroed := false }
  { s.setBit Reg.cstStat 8 true with pers := { s.pers with cst := some j } }

/-- Step 2: the target's seal is zeroed, and the target is invalid from this moment. -/
def State.zeroTarget (j : CstJob) (s : State) : State :=
  let s := (s.writeMram (bankAddr j.target + sealOffset) (List.replicate 64 0)).showBank j.target false
  let s := if s.inForce = j.target then s.setFld Reg.cstStat 1 0 3 else s
  { s with pers := { s.pers with cst := some { j with zeroed := true } } }

/-- A store whose step 1 is over goes on to step 2. -/
def State.storeStep (s : State) : State :=
  match s.pers.cst with
  | some j => if j.zeroed || s.tim.now < j.zeroAt then s else s.zeroTarget j
  | none => s

/-- The block with no command waiting: a sample period passes, and a store that runs goes on. -/
def State.idle (s : State) : State := s.tick.storeStep

/-- Steps 2 to 5, with what the read-backs show. A target whose second writing fails too holds open bytes and no seal. -/
def cstStoreComplete (firstOk secondOk : Bool) (s : State) : State :=
  match s.pers.cst with
  | none => s
  | some j =>
    let o := bankAddr j.target
    let s := if j.zeroed then s else s.zeroTarget j
    let s := { s.setBit Reg.cstStat 8 false with pers := { s.pers with cst := none } }
    let res := beBytes 1 j.target ++ List.replicate 3 0 ++ (j.image.drop 4).take 4
    if firstOk || secondOk then
      let s := (s.writeMram o j.image).writeMram (o + sealOffset) (sha3Bytes j.image)
      let s := ((s.showBank j.target true).setFld Reg.cstStat 1 0 j.target).bump Reg.cstStores
      s.opDone j.op St.ok res
    else
      let (i, s) := s.takeFree
      let junk := (List.range j.image.length).map (Config.damagedByte i)
      let s := (s.writeMram o junk).writeMram (o + sealOffset) (List.replicate 64 0)
      let s := ((s.showBank j.target false).setBit Reg.cstStat 9 true).attend Atn.cal
      s.opDone j.op St.dataLost res

/-- The seal of the bank in force does not match (R389). -/
def State.sealFails (s : State) : State :=
  let b := s.inForce
  if 2 ≤ b then s
  else
    let s := (s.setBit Reg.cstStat 10 true).attend Atn.cal
    let s := s.showBank b false
    s.setFld Reg.cstStat 1 0 (if s.bit Reg.cstStat (4 + (1 - b)) then 1 - b else 3)

/-- Errors that have come into a bank: offset and mask. -/
def State.upsetBank (b : Nat) (upset : List (Nat × Byte)) (s : State) : State :=
  upset.foldl (fun (s : State) (x : Nat × Byte) =>
    s.writeMram (bankAddr b + x.1) [Mem.read s.nv.mram (bankAddr b + x.1) ^^^ x.2]) s

/-- The periodic recheck, due every CST_RECHECK hours: the seal of the bank in force is recomputed over what the MRAM now
holds, the errors that have come into it among it. -/
def cstRecheck (upset : List (Nat × Byte)) (s : State) : State :=
  if s.modes.inner.code < 2 || s.tim.now < s.pers.recheckAt + secU (3600 * s.fld Reg.cstRecheck 9 0) then s
  else
    let s := { s with pers := { s.pers with recheckAt := s.tim.now } }
    if 2 ≤ s.inForce then s
    else
      let s := s.upsetBank s.inForce upset
      if s.sealHolds s.inForce then s else s.sealFails

/-! ### The attestation engine (R398–R402) -/

def State.seedBytes (s : State) : List Byte := s.otpBytes 0x100 32

def State.pubKey (s : State) : List Byte := (List.range 2592).map fun i => Config.mldsaPublic s.seedBytes i

def State.keyReady (s : State) : Bool := s.bit Reg.attStat 0

/-- The identity key pair is derived (R398). -/
def keyDerive (s : State) : State :=
  if !s.modes.control || !s.modes.att || s.gated 32 || s.keyReady then s
  else
    let d := sha3Bytes s.pubKey
    (List.range 16).foldl (fun (s : State) (n : Nat) => s.set (Reg.attKeyDigest n) (wordAt d n)) (s.setBit Reg.attStat 0 true)

/-- The first job is a report that waits for its grant (R399). -/
def State.attWaiting (s : State) : Bool :=
  match s.pers.jobs with
  | .report _ _ :: _ => s.tt.running && !s.bit Reg.pwrGrant 0
  | _ => false

/-- ATT_STAT. -/
def State.attStatWord (s : State) : Word :=
  BitVec.ofNat 32 (s.attWaiting.toNat * 4 + (!s.pers.jobs.isEmpty && !s.attWaiting).toNat * 2 + s.keyReady.toNat)

/-- Bytes 0–343 of a report (R400). -/
def State.reportBody (s : State) (challenge : BitVec 256) : List Byte :=
  let g := s.otpGen
  let b := s.inForce
  let zero : List Byte := List.replicate 64 0
  beBytes 2 0x4152 ++ beBytes 1 1 ++ beBytes 1 0 ++ beBytes 4 4971
    ++ beBytes 8 (s.get64 Reg.ilkEui64Lo Reg.ilkEui64Hi).toNat ++ beBytes 4 (s.get Reg.ilkIdent).toNat
    ++ beBytes 2 (s.fld Reg.lnkAddr 11 0) ++ beBytes 1 s.mode.code ++ beBytes 1 s.laneBits
    ++ beBytes 32 challenge.toNat ++ wideBytes s.tim.mt ++ beBytes 4 (s.get Reg.ilkPatchGen).toNat
    ++ beBytes 4 (if b < 2 then s.bankGen b else 0) ++ beBytes 1 (if g < 4 then g else 0xFF)
    ++ beBytes 1 (if b < 2 then b else 0xFF) ++ beBytes 1 s.rootSlot
    ++ beBytes 1 ((s.bit Reg.timStat 0).toNat + (s.bit Reg.pwrDegraded 1).toNat * 2
        + (decide (b < 2) && !s.sealHolds b).toNat * 4)
    ++ beBytes 4 0 ++ beBytes 64 Config.romDigest.toNat
    ++ (if s.patchRunning then sha3Bytes (s.slotImage (s.fld Reg.ilkBoot 9 8)) else zero)
    ++ (if g < 4 then sha3Bytes (s.otpBytes (genAddr g) 128) else zero)
    ++ (if b < 2 then s.bankDigest b else zero)

def State.report (s : State) (challenge : BitVec 256) : List Byte :=
  let body := s.reportBody challenge
  body ++ (List.range 4627).map fun i => Config.mldsaSign s.seedBytes body (asciiBytes "CW-ATTEST") i

/-- The next job is a report and has its grant: it is computed, signed and held by its session (R399). -/
def attestJob (s : State) : State :=
  match s.pers.jobs with
  | .report o c :: rest =>
    if !s.modes.att || s.gated 32 || !s.keyReady || s.attWaiting then s
    else
      let bad := decide (s.inForce < 2) && !s.sealHolds s.inForce
      let r := s.report c
      let s := { s with pers := { s.pers with jobs := rest } }.bump Reg.attReports
      let s := s.updSession o.session fun x => { x with report := r }
      let s := if bad then s.sealFails else s
      s.opDone o St.ok (beBytes 4 4971)
  | _ => s

/-! ### Privileged requests (R343–R345, R392, R396) -/

/-- An authorization that R345 rejects at once: its length, AUTH_MAGIC or a reserved byte. -/
def authBroken (held : Option Nat) (a : List Byte) : Bool :=
  held != some 7315 || ofBytes (a.take 2) != 0x4155 || ofBytes ((a.drop 6).take 2) != 0

/-- Checks 1 to 3 of R345; `nonce` is the session's while current. -/
def State.authVerdict (s : State) (opcode target : BitVec 16) (params : List Byte) (nonce : Option (BitVec 128 × Nat))
    (a : List Byte) : BitVec 16 :=
  let part (o n : Nat) : List Byte := (a.drop o).take n
  if (match nonce with
      | some x => ofBytes (part 16 16) != x.1.toNat
      | none => true) then St.nonceStale
  else if ofBytes (part 2 2) != opcode.toNat || ofBytes (part 4 2) != target.toNat || part 8 8 != s.euiBytes
      || part 32 64 != sha3Bytes params || sha3Bytes (part 96 2592) != s.rootHash then St.authFailed
  else if Config.mldsaVerify (part 96 2592) (a.take 2688) (asciiBytes "CW-BCP-AUTH") (part 2688 4627) then St.ok
  else St.authFailed

/-- OTP bits are programmed from 0 to 1 only (R390). -/
def State.programOtp (a : Nat) (v : List Byte) (s : State) : State :=
  let old := s.otpBytes a v.length
  { s with nv := { s.nv with otp := Mem.writeBytes a ((old.zip v).map fun x => x.1 ||| x.2) s.nv.otp } }

/-- A field and its value that OTP_PROGRAM accepts, by its address (R392). -/
def State.otpField (s : State) (field : Nat) (v : List Byte) : Option Nat :=
  let n := field - 0x100
  if 0x101 ≤ field ∧ field ≤ 0x103 then
    if v.length = 128 ∧ ([0, 1, 2, 3].find? fun i => !s.genProgrammed i) = some n ∧ s.genOk n v
        ∧ s.minPatchOf s.otpGen ≤ ofBytes ((v.drop 4).take 4) then some (genAddr n) else none
  else if field = 0x201 then
    if v.length = 64 ∧ !s.rootProgrammed 1 ∧ v.any (fun b => b != 0) then some 0xC0 else none
  else none

/-- OTP_PROGRAM after its checks. A read-back that fails leaves the field consumed by bits that are open. -/
def State.otpProgram (params : List Byte) (readBackOk : Bool) (s : State) : BitVec 16 × List Byte × State :=
  let field := ofBytes (params.take 2)
  let v := (params.drop 4).take (ofBytes ((params.drop 2).take 2))
  match s.otpField field v with
  | none => (St.badValue, beBytes 2 field, s)
  | some a =>
    if readBackOk then (St.ok, beBytes 2 field, s.programOtp a v)
    else
      let (i, s) := s.takeFree
      let part := (withIdx v).map fun x => x.2 &&& Config.damagedByte i x.1
      (St.dataLost, beBytes 2 field, s.programOtp a (if part.any fun b => b != 0 then part else v))

/-- The bytes held in the image buffer (R395). -/
def State.fwImage (s : State) : List Byte := Mem.readBytes s.pers.fwBuf 0 s.pers.fwHeld

/-- FW_INSTALL's own checks in order (R396). -/
def State.fwRefused (s : State) (length : Nat) (digest : List Byte) : Option (BitVec 16) :=
  let img := s.fwImage
  if s.pers.fwHeld ≠ length then some St.badValue
  else if sha3Bytes img ≠ digest then some St.badValue
  else if !s.imageHeaderOk img || decide (imageGen img < s.minPatchOf s.otpGen) then some St.badValue
  else if !s.imageSigned img then some St.authFailed
  else if [0, 1].any fun k => match s.slotQualifies k with
      | some g => decide (imageGen img ≤ g)
      | none => false then some St.badValue
  else none

/-- The slot that an image goes into (R396). -/
def State.fwSlot (s : State) : Nat :=
  match s.bestPatch with
  | some (k, _) => 1 - k
  | none => 0

/-- FW_INSTALL after R345: its own checks, of which a wrong key or signature counts in ATT_AUTH_FAIL (R403), and step 1,
the slot's seal zeroed. The image is then being written. -/
def State.fwInstall (o : OpRef) (params : List Byte) (s : State) : State :=
  match s.fwRefused (ofBytes (params.take 4)) ((params.drop 4).take 64) with
  | some e => (if e = St.authFailed then s.bump Reg.attAuthFail else s).opDone o e (beBytes 4 0)
  | none =>
    let x : Install := { op := o, slot := s.fwSlot, image := s.fwImage }
    { s.writeMram (slotSeal x.slot) (List.replicate 128 0) with pers := { s.pers with install := some x } }

/-- Steps 2 and 3 of an installation end: the image and its seal are read back (R396). -/
def State.installEnds (x : Install) (readBackOk : Bool) (s : State) : State :=
  let s := { s with pers := { s.pers with install := none } }
  if readBackOk then
    let sealing := sha3Bytes x.image ++ beBytes 4 x.image.length ++ beBytes 4 (imageGen x.image) ++ List.replicate 56 0
    ((s.writeMram (patchAddr x.slot) x.image).writeMram (slotSeal x.slot) sealing).opDone x.op St.ok
      (beBytes 4 (imageGen x.image))
  else
    let (i, s) := s.takeFree
    let junk := (List.range x.image.length).map (Config.damagedByte i)
    (s.writeMram (patchAddr x.slot) junk).opDone x.op St.dataLost (beBytes 4 0)

/-- The next job is a privileged request's check; only if it passes does the command act (R345). An installation that is
being written ends first. -/
def privilegedCheck (readBackOk : Bool) (s : State) : State :=
  match s.pers.install with
  | some x => s.installEnds x readBackOk
  | none => match s.pers.jobs with
    | .check o opcode target params nonce auth :: rest =>
      if !s.modes.att || s.gated 32 then s
      else
        let s := { s with pers := { s.pers with jobs := rest } }
        let v := s.authVerdict opcode target params nonce auth
        if v ≠ St.ok then (s.bump Reg.attAuthFail).opDone o v (List.replicate (if opcode = 0x0805 then 2 else 4) 0)
        else
          let s := s.bump Reg.attAuthOk
          if opcode = 0x0805 then
            let (final, res, s) := s.otpProgram params readBackOk
            s.opDone o final res
          else s.fwInstall o params
    | _ => s

/-! ### A scrub step in the Interlocking's working space (R397) -/

/-- First line of the System region past the block directories (R179). -/
def State.workingBase (s : State) : Nat := s.systemBase * 4096 + s.fitted * 64

/-- SCRUB_STEP. Where the image buffer lies in the working space is open, so that an uncorrectable line there empties the
buffer or does not. A report is computed in one step here and is never found half done. -/
def scrubWith (upset : List (Nat × Byte)) (s : State) : State :=
  let l := s.scrubTarget
  let t := scrubStep upset s
  if s.get Reg.dptUeCnt ≠ t.get Reg.dptUeCnt ∧ s.workingBase ≤ l then
    let (i, t) := t.takeFree
    if Config.wideLineError i then { t with pers := { t.pers with fwBuf := [], fwHeld := 0 } } else t
  else t

/-! ### Meanings -/

def execSyncPoint (l0 l1 l2 : LaneStep) (s : State) : Host.Outcome State Fault Refusal := runNv (syncPoint l0 l1 l2) s

def execResyncComplete (digestEqual : Bool) (s : State) : Host.Outcome State Fault Refusal :=
  runNv (resyncComplete digestEqual) s

def execAuditComplete (l0 l1 l2 : LaneAudit) (s : State) : Host.Outcome State Fault Refusal :=
  run (auditComplete l0 l1 l2) s

def execCstStoreComplete (firstOk secondOk : Bool) (s : State) : Host.Outcome State Fault Refusal :=
  runNv (cstStoreComplete firstOk secondOk) s

def execCstRecheck (upset : List (Nat × Byte)) (s : State) : Host.Outcome State Fault Refusal :=
  runNv (cstRecheck upset) s

def execKeyDerive (s : State) : Host.Outcome State Fault Refusal := run keyDerive s

def execAttestJob (s : State) : Host.Outcome State Fault Refusal := run attestJob s

def execPrivilegedCheck (readBackOk : Bool) (s : State) : Host.Outcome State Fault Refusal :=
  runNv (privilegedCheck readBackOk) s

def execScrubStep (upset : List (Nat × Byte)) (s : State) : Host.Outcome State Fault Refusal := run (scrubWith upset) s

end Sys2Proof.Machine
end

