-- ==== Sys2Proof/Machine/Access.lean ====
section
/-! DEFINITION. Register access (R13–R17, R46–R48, R335–R339, R433): what a read shows, the checks of a write and its
effects, COMMIT and the application of a committed copy. -/

namespace Sys2Proof.Machine

/-! ### What a read shows -/

/-- A program's SBX_PROGp_STATE (R147). -/
def progWord (x : Prog) : Nat :=
  x.armed.toNat * 2048 + x.rearm.toNat * 1024 + x.prefill.toNat * 512 + x.win.isSome.toNat * 256 + x.state.toNat

/-- SBX_STAT (R147). -/
def State.sbxStatWord (s : State) : Word :=
  BitVec.ofNat 32 (allProgs.foldl (fun (w : Nat) (p : Fin 8) =>
    let x := s.sbx.progs.get p
    w + 2 ^ p.val * (x.win.isSome.toNat * 2 ^ 24 + x.rearm.toNat * 2 ^ 16 + x.prefill.toNat * 2 ^ 8 + x.armed.toNat)) 0)

/-- QUE_STAT (R173). -/
def State.queStatWord (s : State) : Word :=
  BitVec.ofNat 32 (s.liveFill / 1024 * 2 ^ 16 + min 255 s.que.hostRead.length * 2 ^ 4
    + (s.bit Reg.queStat 3).toNat * 8 + s.que.safB.isSome.toNat * 4 + s.que.safA.isSome.toNat * 2 + s.safService.toNat)

/-- OTP_STAT with BUSY: an OTP_PROGRAM waits or runs (R403). -/
def State.otpBusyWord (s : State) : Word :=
  let busy := s.pers.jobs.any fun (j : AttJob) => match j with
    | .check _ op _ _ _ _ => op == 0x0805
    | .report _ _ => false
  if busy then s.otpStatWord ||| 0x10000 else s.otpStatWord

/-- A Signal Box register that shows a program, a counter or a timer (R147). -/
def State.progView (s : State) (a : Nat) : Word :=
  let x := s.sbx.progs.get (Fin.ofNat 8 ((a - 0x51000) / 0x1000))
  let o := a % 0x1000
  if o = 0x20 then BitVec.ofNat 32 (progWord x)
  else if 0x80 ≤ o ∧ o < 0xC0 ∧ o % 0x10 = 0xC then (x.cnt.get (Fin.ofNat 4 ((o - 0x80) / 0x10))).val
  else if 0xC0 ≤ o ∧ o < 0x100 ∧ o % 0x10 = 8 then ((x.tmr.get (Fin.ofNat 4 ((o - 0xC0) / 0x10))).val).setWidth 32
  else if 0xC0 ≤ o ∧ o < 0x100 ∧ o % 0x10 = 0xC then
    BitVec.ofNat 32 ((x.tmr.get (Fin.ofNat 4 ((o - 0xC0) / 0x10))).val.toNat / 2 ^ 32)
  else s.get a

/-- A Depot register that the controller computes (R180, R181, R191, R203, R209). -/
def State.depotView (s : State) (a : Nat) : Word :=
  if a = Reg.dptRingBlocks then BitVec.ofNat 32 (s.ownedCount 1)
  else if a = Reg.dptStoreBlocks then BitVec.ofNat 32 (s.ownedCount 2)
  else if a = Reg.dptReserveFree then BitVec.ofNat 32 (s.ownedCount 3)
  else if a = Reg.dptStoreOldestLo then BitVec.ofNat 32 s.storeOldest
  else if a = Reg.dptStoreOldestHi then BitVec.ofNat 32 (s.storeOldest / 2 ^ 32)
  else if a = Reg.dptPoisoned then BitVec.ofNat 32 s.poisonedCount
  else if Reg.dptLogData 0 ≤ a ∧ a < Reg.dptLogData 4 then s.logWord ((a - Reg.dptLogData 0) / 4)
  else if a = Reg.dptMapDataLo then s.dpt.mapSel.setWidth 32
  else if a = Reg.dptMapDataHi then BitVec.ofNat 32 (s.dpt.mapSel.toNat / 2 ^ 32)
  else s.get a

/-- The trial values that a slice in Calibrate shows in its OFFSET, GAIN, SKEW and BW (R98). -/
def State.trialView (s : State) (t : Fin 4) (a : Nat) : Option Word :=
  match (s.relief t).dwell with
  | none => none
  | some d =>
    let p := s.fld (Reg.calStat t) 10 8
    if d.calibrated || !(p == 2 || p == 5) then none
    else if a = Reg.slcSlTrim0 t d.slice then some ((s.trialOf d).t0 &&& 0x0FFF0FFF)
    else if a = Reg.slcSlTrim1 t d.slice then some ((s.trialOf d).t1 &&& 0x003F03FF)
    else none

/-- A tile register that the tile computes (R70, R72, R80, R98, R104). The states of a pair are those after the period's
second output sample (log entry 146). -/
def State.tileView (s : State) (t : Fin 4) (a : Nat) : Word :=
  let off := s.maskedChans t ++ (List.range 16).filter fun k => s.silent t k
  if a = Reg.thrState t then
    off.foldl (fun (w : Word) (k : Nat) => w &&& ~~~(bitOf 32 (2 * k) ||| bitOf 32 (2 * k + 1))) (s.tile t).sw
  else if a = Reg.thrBadhyst t then s.badHystWord t
  else if Reg.calHist t 0 ≤ a ∧ a < Reg.calHist t 4 then s.histWord t ((a - Reg.calHist t 0) / 4)
  else (s.trialView t a).getD (s.get a)

/-- The value in force as the register shows it: what its unit computes where it does, else what it holds. -/
def State.live32 (s : State) (a : Nat) : Word :=
  if 0x100000 ≤ a then s.tileView (Fin.ofNat 4 (a / 0x10000 - 0x10)) a
  else match a / 0x10000 with
    | 1 =>
      if a = Reg.pwrMode then s.modeWord
      else if Reg.pwrTemp 20 ≤ a ∧ a < Reg.pwrTemp 24 then
        (if s.modes.depot then BitVec.ofNat 32 (s.fld (Reg.dptStackStat ((a - Reg.pwrTemp 20) / 4)) 17 8) else 0)
      else s.get a
    | 5 =>
      if a = Reg.sbxStat then s.sbxStatWord
      else if a = Reg.sbxXtrg then putBits (s.get a) 23 16 s.lines.toNat
      else if 0x51000 ≤ a ∧ a < 0x59000 then s.progView a
      else s.get a
    | 6 =>
      if a = Reg.queStat then s.queStatWord
      else if a = Reg.queReadFill then BitVec.ofNat 32 (min 2048 (s.readFill / 1024))
      else s.get a
    | 7 => s.depotView a
    | 8 =>
      if a = Reg.cmpBusy then (List.range 32).foldl (fun (w : Word) (e : Nat) =>
        if s.engHolds e then w ||| bitOf 32 e else w) 0
      else s.get a
    | 9 =>
      if a = Reg.otpStat then s.otpBusyWord
      else if Reg.otpWindow 0 ≤ a ∧ a < Reg.otpWindow 64 then s.otpWindowWord ((a - Reg.otpWindow 0) / 4)
      else if Reg.cstWindow 0 ≤ a ∧ a < Reg.cstWindow 64 then s.cstWindowWord ((a - Reg.cstWindow 0) / 4)
      else if a = Reg.attStat then s.attStatWord
      else s.get a
    | _ => s.get a

/-- What the host reads: SH fields show their shadow, WO fields and every bit that no map lists read 0 (R13, R15). -/
def State.view (s : State) (a : Nat) : Word :=
  let fs := fieldsAt a
  let sh := fieldMask isSh fs
  let v := s.live32 a
  let v := match s.shadow.find a with
    | some w => (v &&& ~~~sh) ||| (w &&& sh)
    | none => v
  v &&& fieldMask (fun x => !isWo x) fs

/-- Why an address cannot be reached (R46, R47, R48). -/
def State.addrRefused (s : State) (a : Nat) : Option (BitVec 16) :=
  if badAddress a then some St.badAddress
  else if !s.powered a then some St.notPowered
  else if 0x100000 ≤ a ∧ s.tileTraining (Fin.ofNat 4 (a / 0x10000 - 0x10)) then some St.linkFault
  else none

/-- The register frame of an access to a tile, and its replay, are lost on the tile's link (R48). -/
def State.linkLoses (s : State) (lost : Bool) (a : Nat) : Bool :=
  lost && decide (0x100000 ≤ a) && (s.addrRefused a).isNone

/-- A 32-bit read by a session: a LO register snapshots its HI register, and the HI register returns the snapshot held
(R17, R338). -/
def State.readReg (id : Word) (a : Nat) (s : State) : Word × State :=
  if pairLo a then
    (s.view a, s.updSession id fun x => { x with snaps := x.snaps.put (a + 4) (s.view (a + 4)) })
  else
    match (s.findSession id).bind fun x => x.snaps.find a with
    | some w => (w, s)
    | none => (s.view a, s)

/-! ### The checks of a write (R336) -/

/-- Writable only in some modes: Test (R210, R226, R280, R303, R316), Calibrate (R112). `on` are the bits written 1. -/
def State.modeBlocks (s : State) (a : Nat) (on : Word) : Bool :=
  if isProv a || isFlip a || a == Reg.cmpInject then !s.inMode .test
  else if a = Reg.clkGateHostEng then on != 0 && !s.inMode .test
  else if a = Reg.lnkMlCtrl then on.getLsbD 9 && !s.inMode .test
  else if 0x100000 ≤ a ∧ a % 0x10000 = 0x4000 then on.getLsbD 9 && !s.inMode .calibrate
  else false

/-- A line of the System region, which the host cannot name (R179). -/
def State.isSystemLine (s : State) (l : Nat) : Bool := decide (s.systemBase ≤ l / 4096) && decide (l / 4096 < s.fitted)

/-- A block's own statuses for a write whose fields are in range (R4, R50, R56, R57, R89, R178, R179, R181, R299, R301,
R303, R316, R361, R379). On CW-ST64-L a host gate of Mainline B's island selects nothing (log entry 170). `new` holds the fields as they would be, `on` the bits written 1. -/
def State.blockRefuses (s : State) (a : Nat) (new on mask : Word) : Option (BitVec 16) :=
  if 0x100000 ≤ a then
    let t : Fin 4 := Fin.ofNat 4 (a / 0x10000 - 0x10)
    let o := a % 0x10000
    if o < 0x50 then s.pinCheck t (o / 4) (bits new 2 0) (bits new 7 4)
    else if 0x100 ≤ o ∧ o < 0x180 ∧ o % 0x20 = 0 then
      (if on.getLsbD 8 && s.armRefused t ((o - 0x100) / 0x20) then some St.badValue else none)
    else if o = 0x3800 then
      (if (List.range 8).any fun k => on.getLsbD k && !s.bit (Reg.slcChen t) (2 * k) then some St.badValue else none)
    else none
  else if a = Reg.lnkMlCtrl then
    if s.variant = .l ∧ (bits new 5 4 ≠ 0 ∨ on.getLsbD 9 ∨ on.getLsbD 1) then some St.notFitted
    else if on.getLsbD 8 then s.switchRefused else none
  else if isProv a ∧ s.variant = .l ∧ (a - Reg.lnkProvCtrl 0) / 0x10 = 1 then some St.notFitted
  else if a = Reg.dptFlipAddr then (if s.isSystemLine (bits new 30 0) then some St.badAddress else none)
  else if isProv a ∧ a % 0x10 = 0 then
    (if !mask.getLsbD 8 || dirOk ((a - Reg.lnkProvCtrl 0) / 0x10) (new.getLsbD 8) then none else some St.badValue)
  else if a = Reg.dptMapSel then (if s.fitted ≤ bits new 18 0 then some St.notFitted else none)
  else if a = Reg.ilkLaneCtrl then (if s.retireRefused (bits on 10 8) then some St.badValue else none)
  else if a = Reg.pwrBudget then (if s.variant = .l ∧ 226 < bits new 8 0 then some St.badValue else none)
  else none

/-- DPT_REGION (R178): the first row of its table that holds; `some none` is a write accepted without effect. -/
def State.regionRefuses (s : State) (new : Word) : Option (Option (BitVec 16)) :=
  let ring := bits new 7 0
  let store := bits new 15 8
  let hold := bits new 23 16
  let gib := s.fitted / 4096
  if gib < ring + store + hold then some (some St.notFitted)
  else if ring = 0 ∨ store = 0 ∨ gib < ring + store + hold + 4 then some (some St.badValue)
  else if ¬ s.inMode .standby ∧ ring = s.ringGib ∧ store = s.storeGib ∧ hold = s.holdGib then some none
  else if ¬ s.inMode .standby ∨ [0, 1, 2, 3].any fun (n : Fin 4) => s.holdState n != 0 then some (some St.busyRunning)
  else none

def State.acquiring (s : State) : Bool :=
  s.inMode .triggered || s.inMode .streaming || s.inMode .hold || s.inMode .drain

/-- Streaming mode runs, a clock-loss stop in it included (R146, R147). -/
def State.streamingRuns (s : State) : Bool :=
  (s.modes.sampling || s.clk.stopSampling) && s.modes.acq == .streaming

/-- Whether the block of an LK field runs; the slices of a tile run on through a clock-loss stop, which only holds their
clock (R89, R273) (R56, R82, R113, R114, R147, R173, R255, R299, R371). -/
def State.lkRuns (s : State) (a : Nat) : Bool :=
  if 0x100000 ≤ a then
    let t : Fin 4 := Fin.ofNat 4 (a / 0x10000 - 0x10)
    let o := a % 0x10000
    if 0x100 ≤ o ∧ o < 0x180 then s.bit (Reg.jctExStat t ((o - 0x100) / 0x20)) 0
    else if 0x4040 ≤ o ∧ o ≤ 0x4050 then s.calRun t || (s.relief t).parked.isSome
    else s.tileSampling t || (s.clk.stopSampling && s.tilePowered t)
  else if 0x51000 ≤ a ∧ a < 0x59000 then (s.sbx.progs.get (Fin.ofNat 8 ((a - 0x51000) / 0x1000))).armed
  else if 0x50100 ≤ a ∧ a < 0x50400 then s.streamingRuns
  else if 0x50400 ≤ a ∧ a < 0x50600 then s.streamingRuns || s.sbx.progs.toList.any fun x => x.armed
  else if a = Reg.queSeqNextLo ∨ a = Reg.lnkMlCtrl then s.acquiring
  else if a = Reg.lnkIp then !s.bcp.sessions.isEmpty
  else if a = Reg.timDomCfg 0 then s.domEnabled 0
  else if a = Reg.timDomCfg 1 then s.domEnabled 1
  else if Reg.pwrShedLo 0 ≤ a ∧ a < Reg.pwrShedLo 8 then
    s.tt.steps.any fun x => x.1 == (a - Reg.pwrShedLo 0) / 8 + 3
  else false

/-- Islands 33–35 in use (R280), as bits 0–2. -/
def State.miscUse (s : State) : Word :=
  let b33 := s.bit Reg.lnkMlCtrl 1
  let src := s.fld Reg.sbxXtrg 1 0
  let b34 := s.bit Reg.timCtrl 9 || src == 2 || src == 3 || s.bit Reg.sbxPrim 1 || s.bit Reg.clkCtrl 9
  let b35 := s.bcp.sessions.any fun x => x.port.val == 6
  BitVec.ofNat 32 (b33.toNat + 2 * b34.toNat + 4 * b35.toNat)

/-- Fields that the register map marks LK in this register, a shed group in force among them. -/
def lkMask (a : Nat) : Word :=
  if Reg.pwrShedLo 0 ≤ a ∧ a < Reg.pwrShedLo 8 then 0xFFFFFFFF else fieldMask (fun x => x == .lk) (fieldsAt a)

/-- An LK field would change while its block runs, or a host gate names an island in use (R280, R336). The manual
registers of a tile take no write at all then (R113). -/
def State.lkRefuses (s : State) (a : Nat) (old new : Word) : Bool :=
  if a = Reg.clkGateHostMisc then (new &&& ~~~old &&& s.miscUse) != 0
  else if 0x100000 ≤ a ∧ 0x4040 ≤ a % 0x10000 ∧ a % 0x10000 ≤ 0x4050 then s.lkRuns a
  else ((old ^^^ new) &&& lkMask a) != 0 && s.lkRuns a

/-! ### The effects of a write

An access to a gated island opens the gate for that access alone and counts as no gate request (R279), so no gate takes
part in the accesses below. -/

/-- A host gate register: what the write newly requests closes, or the first island that stays busy fails the write and
everything is open again (R277, R280). -/
def State.hostGates (first : Nat) (old new busy : Word) (s : State) : BitVec 16 × State :=
  let asked := bitList (new &&& ~~~old)
  match asked.find? fun i => busy.getLsbD i with
  | some i => (St.gateBusy, (s.bump Reg.clkGateBusy).set Reg.clkGateLast (BitVec.ofNat 32 (first + i)))
  | none =>
    let s := asked.foldl (fun (s : State) (i : Nat) => s.hostGate (first + i) true) s
    let s := (bitList (old &&& ~~~new)).foldl (fun (s : State) (i : Nat) => s.hostGate (first + i) false) s
    (St.ok, (s.set (if first = 0 then Reg.clkGateHostEng else Reg.clkGateHostMisc) new).offerRetries)

/-- New Mainline enables or a new MODE: Mainline A starts active, a disabled Mainline is down (R299, R300). -/
def State.mainlineSet (s old : State) : State :=
  let s := if old.mlMode = s.mlMode then s
    else ((s.setFld Reg.lnkMlStat 1 0 (if s.mlMode = 2 then 2 else 0)).setBit Reg.lnkMlStat 9
        (s.mlMode == 2 && s.anyUp && !(s.mlUp 0 && s.mlUp 1))).withLnk fun l => { l with rejoin := [] }
  [0, 1].foldl (fun (s : State) (p : Fin 2) => if s.mlEnabled p then s else portDown p 255 s) s

/-- What a write does beyond the values it stores. `on` are the bits written 1. -/
def State.writeActs (a : Nat) (on mask : Word) (s old : State) : State :=
  if 0x100000 ≤ a then
    let t : Fin 4 := Fin.ofNat 4 (a / 0x10000 - 0x10)
    let o := a % 0x10000
    if 0x100 ≤ o ∧ o < 0x180 ∧ o % 0x20 = 0 then
      let e : Fin 4 := Fin.ofNat 4 ((o - 0x100) / 0x20)
      let s := if on.getLsbD 9 then s.disarm t e else s
      if on.getLsbD 8 then
        s.arm t e (s.launchTime (s.get (Reg.jctExLaunchS t e)).toNat (s.fld (Reg.jctExLaunchNs t e) 29 0)
          (s.fld (Reg.jctExLaunchFr t e) 15 0))
      else s
    else if o = 0x4000 then
      let s := if on.getLsbD 9 then s.startRangeCal t none else s
      if on.getLsbD 8 then s.clearPark t else s
    else if o = 0x4040 then (if on.getLsbD 8 then s.manualApply t else s)
    else if o = 0x5090 then s.wiresCleared t (on &&& old.get a)
    else s
  else if a = Reg.timCtrl then (if (mask &&& 3) == 0 then s else s.withTim fun x => { x with wroteSel := true })
  else if a = Reg.timSnap then (if on.getLsbD 0 then s.snapTime else s)
  else if a = Reg.lnkMlCtrl then
    let s := s.mainlineSet old
    let s := if on.getLsbD 8 then s.commandSwitch else s
    if old.bit a 9 = s.bit a 9 then s else s.exercise (s.bit a 9)
  else if isProv a ∧ a % 0x10 = 0 ∧ on.getLsbD 31 then
    { s with lnk := { s.lnk with prov := dropK ((a - Reg.lnkProvCtrl 0) / 0x10) s.lnk.prov } }
  else if a = Reg.cmpQuar then (s.releaseEngines on).offerRetries
  else if a = Reg.dptMapSel then s.latchMap (s.fld a 18 0)
  else if a = Reg.ilkLaneCtrl then s.laneCtrl (bits on 2 0) (bits on 10 8)
  else if a = Reg.pwrStat then (if on.getLsbD 11 then s.restoreStep else s)
  else s

def addMark (b : Nat) (x : Session) : Session := if x.marks.contains b then x else { x with marks := x.marks ++ [b] }

/-- The values of a write: fields written at once, WC fields cleared, SH fields into the shadow, their block marked
(R15, R339). -/
def State.storeFields (id : Word) (a : Nat) (new mask clr : Word) (s : State) : State :=
  let fs := fieldsAt a
  let direct := fieldMask isDirect fs
  let sh := fieldMask isSh fs
  let s := s.set a (((s.get a) &&& ~~~(direct ||| clr)) ||| (new &&& direct))
  if (mask &&& sh) == 0 then s
  else { s with shadow := s.shadow.put a (new &&& sh) }.updSession id (addMark (blockOf a))

/-- A write of VALUE where MASK is set (R336, R337, R433): its status, and the state after it. Which refused writes of a
LO half leave the pending high half is log entry 29's. `busy` are the islands
that do not become idle for a host gate (R280). -/
def State.writeReg (id : Word) (a : Nat) (value mask busy : Word) (s : State) : BitVec 16 × State :=
  match s.addrRefused a with
  | some st => (st, s)
  | none =>
    let fs := fieldsAt a
    let kept := fieldMask isKept fs
    let mask := mask &&& fieldMask (fun _ => true) fs
    let on := value &&& mask
    let old := s.view a
    let new := (old &&& ~~~(mask &&& kept)) ||| (on &&& kept)
    if s.modeBlocks a on then (St.wrongMode, s)
    else if wholeLo (a - 4) && decide (4 ≤ a) then
      let held := ((s.findSession id).bind fun x => x.highs.find a).getD old
      (St.ok, s.updSession id fun x => { x with highs := x.highs.put a ((held &&& ~~~(mask &&& kept)) ||| (on &&& kept)) })
    else if wholeLo a then
      let oldHi := s.view (a + 4)
      let newHi := ((s.findSession id).bind fun x => x.highs.find (a + 4)).getD oldHi
      let s := s.updSession id fun x => { x with highs := x.highs.drop fun b => b == a + 4 }
      if !wholeOk a (newHi.toNat * 2 ^ 32 + new.toNat) then (St.badValue, s)
      else if (old ≠ new ∨ oldHi ≠ newHi) ∧ kept ≠ fieldMask isSh fs ∧ s.lkRuns a then (St.busyRunning, s)
      else (St.ok, (s.storeFields id (a + 4) newHi 0xFFFFFFFF 0).storeFields id a new 0xFFFFFFFF 0)
    else if a = Reg.dptRegion then
      match s.regionRefuses new with
      | some (some st) => (st, s)
      | some none => (St.ok, s)
      | none => (St.ok, s.resizeRegions (bits new 7 0) (bits new 15 8) (bits new 23 16))
    else if !rangesOk32 fs new mask then (St.badValue, s)
    else match s.blockRefuses a new on mask with
      | some st => (st, s)
      | none =>
        if s.lkRefuses a old new then (St.busyRunning, s)
        else if a = Reg.clkGateHostEng then s.hostGates 0 old new busy
        else if a = Reg.clkGateHostMisc then s.hostGates 33 old new busy
        else (St.ok, (s.storeFields id a new mask (on &&& fieldMask isWc fs)).writeActs a on mask s)

/-! ### COMMIT (R339) -/

/-- The blocks that a session has marked, ascending. -/
def State.marked (s : State) (id : Word) : List Nat :=
  ((s.findSession id).map fun x => (List.range 32).filter fun b => x.marks.contains b).getD []

/-- A block's whole shadow is latched for an operation; a newer copy supersedes an older one, and both complete with it. -/
def State.latchBlock (b : Nat) (o : OpRef) (s : State) : State :=
  let vals : RegMap := s.shadow.filter fun x => blockOf x.1 == b
  let older := match s.bcp.latches.find? fun (l : Latch) => l.block == b with
    | some l => l.ops
    | none => []
  { s with bcp := { s.bcp with
    latches := (s.bcp.latches.filter fun (l : Latch) => l.block != b) ++ [⟨b, vals, older ++ [o], s.nextPeriod⟩]
    sessions := s.bcp.sessions.map fun x => { x with marks := x.marks.filter fun m => m != b } } }

/-- The latched value of a register into those of its SH fields that `part` covers. -/
def State.applyValue (v : Nat × Word) (part : Word) (s : State) : State :=
  let sh := fieldMask isSh (fieldsAt v.1) &&& part
  s.set v.1 ((s.get v.1 &&& ~~~sh) ||| (v.2 &&& sh))

/-- A latched value that differs from the one in force. -/
def State.differs (s : State) (v : Nat × Word) : Bool :=
  let sh := fieldMask isSh (fieldsAt v.1)
  ((s.get v.1 ^^^ v.2) &&& sh) != 0

/-- The clearing of RUN and new values of CAL_SLICE_EN and CAL_DWELL wait for the end of a dwell in progress (R110). -/
def calDeferred (v : Nat × Word) : Bool :=
  let o := v.1 % 0x10000
  (o == 0x4000 && !v.2.getLsbD 0) || o == 0x4004 || o == 0x4008

/-- What new CAL_ values do between dwells (R110, R113). -/
def State.calApplied (t : Fin 4) (s old : State) : State :=
  let r := s.relief t
  if r.dwell.isSome then s
  else if s.calRun t && !old.calRun t then
    (if s.tileSampling t && r.manual.isNone && r.parked.isNone then s.warmUpAnew t else s)
  else if !s.calRun t && old.calRun t then
    (if r.retry then s
     else (s.updRelief t fun r => { r with waiting := false, granted := false, ahead := false, warmUntil := none }).setPhase t 0)
  else if s.get (Reg.calSliceEn t) ≠ old.get (Reg.calSliceEn t) ∧ s.calRun t ∧ s.tileSampling t ∧ r.warmUntil.isNone
      ∧ r.parked.isNone ∧ r.manual.isNone then
    (if (s.rotation t).isEmpty then
      (s.updRelief t fun r => { r with waiting := false, granted := false, ahead := false }).setPhase t 0
     else if r.waiting then s
     else s.requestDwell t)
  else s

/-- What applying a block's values does beyond the values. -/
def State.applied (b : Nat) (s old : State) : State :=
  if 16 ≤ b then
    let t : Fin 4 := Fin.ofNat 4 ((b - 16) / 4)
    if b % 4 = 0 then (s.frontEndApplied t old).wiresApplied t old
    else if b % 4 = 2 then s.calApplied t old
    else s
  else match b with
    | 2 => s.clkApplied old
    | 3 => (if s.tim.wroteSel then s.withTim fun x => { x with reselect := true, wroteSel := false } else s).followEnables
    | 5 => s.followArm
    | 7 => (s.followRing s.nextFrame).liftLane
    | 8 => s.offerRetries
    | _ => s

/-- An address inside a block's window, for its power (R339). -/
def blockBase (b : Nat) : Nat := if b < 16 then b * 0x10000 else 0x100000 + (b - 16) / 4 * 0x10000

/-- Whether a block stands at a boundary after the COMMIT: the Signal Box and a tile at a frame boundary while they sample
(R82, R114, R147), in a clock-loss stop with the first frame after it, the others at any time that their event names; of
the queues each has its own boundary (`State.commitPart`). -/
def State.atBoundary (s : State) (l : Latch) : Bool :=
  let frame (on : Bool) (p : Nat) : Bool :=
    !(on && (s.modes.sampling || s.clk.stopSampling))
      || (s.modes.sampling && p % framePeriods == 0 && decide (l.first ≤ p))
  if 16 ≤ l.block then
    let t : Fin 4 := Fin.ofNat 4 ((l.block - 16) / 4)
    frame (s.tilePowered t) (s.tile t).swPeriod
  else match l.block with
    | 5 => frame true s.sbx.period
    | _ => true

/-- The bits of a latched register that take effect now. A change of RING_EN comes at the frame boundary, before the tick
at which the rest of DPT_ does (R212); RUN, SLICE_EN and DWELL wait for the end of a dwell (R110); the live queue's fields
and the host-read queue's routes each wait for that queue's own record boundary (R168, R173). -/
def State.commitPart (s : State) (b : Nat) (l : Latch) (v : Nat × Word) : Word :=
  let all (now : Bool) : Word := if now then 0xFFFFFFFF else 0
  if 16 ≤ b then
    all !(b % 4 == 2 && (s.relief (Fin.ofNat 4 ((b - 16) / 4))).dwell.isSome && calDeferred v)
  else if b = 6 then
    let live := (s.que.live.head?.map fun (e : LiveEnt) => e.taken == 0).getD true
    let hr := (s.que.hostRead.head?.map fun (e : HrEnt) => e.taken == 0).getD true
    if v.1 = Reg.queRoute then (all live &&& 0x155) ||| (all hr &&& 0x2AA) else all live
  else if b = 7 then
    all (v.1 == Reg.dptCtrl || !l.values.any fun (w : Nat × Word) => w.1 == Reg.dptCtrl && s.differs w)
  else all true

/-- A block takes its latched copy at its own next boundary (R16, R339), and keeps it until all of it is in force. -/
def State.commitTake (b : Nat) (l : Latch) (s : State) : State :=
  let t := l.values.foldl (fun (t : State) (v : Nat × Word) => t.applyValue v (s.commitPart b l v)) s
  let t := t.applied b s
  if l.values.any fun (v : Nat × Word) => t.differs v then t else t.settleLatch b true

/-- COMMIT_APPLY: a latched copy at its boundary; of a block without power it is discarded. -/
def commitApply (b : Nat) (s : State) : State :=
  match s.bcp.latches.find? fun (l : Latch) => l.block == b with
  | none => s
  | some l =>
    if !s.powered (blockBase b) then s.settleLatch b false
    else if s.atBoundary l then s.commitTake b l
    else s

def execCommitApply (block : Fin 32) (s : State) : Host.Outcome State Fault Refusal := run (commitApply block) s

/-- When a dwell has ended, a committed change of the rotation whose frame boundary has come, and which waited for that
end, takes effect (R110). -/
def State.rotationCommit (t : Fin 4) (s before : State) : State :=
  if (before.relief t).dwell.isSome && (s.relief t).dwell.isNone then
    match s.bcp.latches.find? fun (l : Latch) => l.block == 18 + 4 * t.val with
    | some l => if l.first ≤ s.samplePos then s.commitTake l.block l else s
    | none => s
  else s

def execHandover (t : Tile) (meanDiff gainDiff skewDiff : Nat) (slope : Bool) (s : State) :
    Host.Outcome State Fault Refusal :=
  run (fun s => (handover t meanDiff gainDiff skewDiff slope s).rotationCommit t s) s

def execCalibrateDone (t : Tile) (trims : Word × Word) (completed : Bool) (s : State) :
    Host.Outcome State Fault Refusal :=
  run (fun s => (calibrateDone t trims completed s).rotationCommit t s) s

def execReturnShadowDone (t : Tile) (ofsStep gainStep skewStep : Int) (trimOutside : Bool) (s : State) :
    Host.Outcome State Fault Refusal :=
  run (fun s => (returnShadowDone t ofsStep gainStep skewStep trimOutside s).rotationCommit t s) s

def execHandback (t : Tile) (s : State) : Host.Outcome State Fault Refusal :=
  run (fun s => (handback t s).rotationCommit t s) s

def execForcedHandback (t : Tile) (s : State) : Host.Outcome State Fault Refusal :=
  run (fun s => (forcedHandback t s).rotationCommit t s) s

end Sys2Proof.Machine
end

