-- ==== Sys2Proof/Machine/Requests.lean ====
section
/-! DEFINITION. The command server (R318–R334): what a received request meets before it acts, sessions, the reply cache,
attention, and long operations. -/

namespace Sys2Proof.Machine

/-- What a command answers: its status, its reply data and the state. -/
abbrev Ans := BitVec 16 × List Byte × State

/-! ### Modes that an opcode is accepted in (R340) -/

def State.inAll (s : State) : Bool := decide (2 ≤ s.mode.code)
def State.inRun (s : State) : Bool := s.inAll && s.mode != .safe && s.mode != .update
def State.inDepot (s : State) : Bool :=
  [Mode.standby, .triggered, .streaming, .hold, .drain, .test, .degraded].contains s.mode
def State.inCalibrate (s : State) : Bool := s.inMode .calibrate
def State.inStandby (s : State) : Bool := s.inMode .standby
def State.inTest (s : State) : Bool := s.inMode .test
def State.inUpdate (s : State) : Bool := s.inMode .update

/-- A row of R340 as the server uses it: the opcode, the parameter bytes it cannot do without, whether it uses TARGET,
whether it is privileged, whether it closes its session, and its mode set. -/
structure Form where
  op : BitVec 16
  need : Nat
  target : Bool
  priv : Bool
  closes : Bool
  modes : State → Bool

def Form.make (op : BitVec 16) (need : Nat) (modes : State → Bool) : Form := ⟨op, need, false, false, false, modes⟩

/-! ### Replies (R319, R331) -/

/-- Attention word of a session. -/
def State.attention (s : State) (x : Session) : Word := BitVec.ofNat 32 (s.mode.code * 2 ^ 28 + x.atn.toNat)

/-- The order of attention events and replies moves on (R332). -/
def State.passEvent (s : State) : State := { s with evt := s.evt + 1 }

/-- A reply goes to the request's source through its arrival port (R320); at a timing-out port it waits its turn (R306). -/
def State.reply (r : Req) (op status : BitVec 16) (replayed : Bool) (session attn : Word) (data : List Byte) (s : State) :
    State :=
  s.passEvent.sendOther r.port (82 + data.length)
    (.reply r.port r.mac r.ip r.udp op status replayed r.seq session attn r.version data)

/-- A reply outside any session: its attention word shows the mode; the bits that belong to a session are open. -/
def State.replyBare (r : Req) (op status : BitVec 16) (s : State) : State :=
  let (i, s) := s.takeFree
  s.reply r op status false r.session (BitVec.ofNat 32 (s.mode.code * 2 ^ 28 + (Config.openWord i).toNat % 4096)) []

/-- A reply to a session that is not cached (R321, R324). -/
def State.replyPlain (r : Req) (op status : BitVec 16) (x : Session) (s : State) : State :=
  s.reply r op status false r.session (s.attention x) []

/-! ### The checks of R321 -/

/-- Datagrams that are dropped. -/
def State.bcpDrops (s : State) (r : Req) : Bool :=
  r.magic != 0x4256 || decide (r.udpLen < 36) || r.udpLen != 36 + r.plen.toNat || !r.crcOk
  || r.flags.getLsbD 0 || !(r.module.toNat == s.moduleAddr || r.module == 0xFFFF)

def isSigned (r : Req) : Bool := r.flags.getLsbD 1

/-- A broken header or layout. -/
def Form.malformed (f : Form) (r : Req) : Bool :=
  r.resv || bits r.flags 7 2 != 0 || decide (1436 < r.plen.toNat) || (isSigned r && !f.priv) || r.presv
  || decide (r.plen.toNat < f.need) || (!f.target && r.target != 0)

/-! ### Sequence numbers and the reply cache (R324–R326) -/

/-- Whether a SEQUENCE is new to a session. -/
def Session.isNew (x : Session) (q : Word) : Bool :=
  match x.high with
  | none => true
  | some h => decide (1 ≤ (q - h).toNat) && decide ((q - h).toNat ≤ 2 ^ 31 - 1)

/-- A reply joins the cache of the last 64; H follows. -/
def Session.keep (c : Cached) (x : Session) : Session :=
  { x with high := some c.seq, cache := (c :: x.cache).take 64 }

/-- The operations of a session that are running. -/
def Session.running (x : Session) : List (OpRef × BitVec 16) :=
  (x.ops.filter fun (o : Op) => !o.done).map fun (o : Op) => (⟨x.id, o.handle⟩, o.opcode)

/-- A session closes: what it holds goes with it, shadows stay, and its running operations run on (R323). -/
def State.closeSession (id : Word) (s : State) : State :=
  { s with bcp := { s.bcp with
    sessions := s.bcp.sessions.filter fun (x : Session) => x.id != id
    orphans := s.bcp.orphans ++ (s.bcp.sessions.filter fun (x : Session) => x.id == id).flatMap Session.running } }

/-- A new request is executed, its reply cached and sent. -/
def State.execute (f : Form) (r : Req) (body : Session → State → Ans) (x : Session) (s : State) : State :=
  let a : Ans := if f.modes s then body x s else (St.wrongMode, [], s)
  let s := a.2.2
  let s := s.updSession r.session (Session.keep ⟨r.seq, f.op, a.1, a.2.1, s.evt + 1⟩)
  let s := s.reply r f.op a.1 false r.session (((s.findSession r.session).map fun y => s.attention y).getD 0) a.2.1
  if f.closes then s.closeSession r.session else s

/-- A cached reply is sent again. -/
def State.replay (r : Req) (c : Cached) (s : State) : State :=
  let s := s.updSession r.session fun x =>
    { x with cache := x.cache.map fun (d : Cached) => if d.seq = r.seq then { d with sent := s.evt + 1 } else d }
  s.reply r c.opcode c.status true r.session (((s.findSession r.session).map fun y => s.attention y).getD 0) c.data

/-- A session that a valid request has reached (R323). -/
def Session.touch (now : Nat) (x : Session) : Session := { x with last := now }

/-- A session that takes a request: the request waits its turn or executes at once (R323, R327). -/
def Session.hear (now : Nat) (r : Req) (x : Session) : Session :=
  { x with last := now, taken := ((r.seq, x.isNew r.seq) :: x.taken).take 17 }

/-- Requests of a session that wait or execute as a request arrives, by SEQUENCE; none of a longer past can (R327). -/
def Session.unanswered (r : Req) (x : Session) : List (Word × Bool) := x.taken.take r.ahead

/-- The request is dropped without a reply: 16 wait behind the one that executes (R327), or it repeats one that has no
reply yet (R325). No counter shows it (log entry 11). -/
def Session.crowded (r : Req) (x : Session) : Bool :=
  let q := x.unanswered r
  decide (17 ≤ q.length) || q.contains (r.seq, true)

/-- A request other than SESSION_OPEN (R321, R323, R324, R325, R327). -/
def State.request (f : Form) (r : Req) (body : Session → State → Ans) (s : State) : State :=
  let s := s.countRx r.port
  if s.bcpDrops r then s.countDrop r.port
  else match s.findSession r.session with
    | none => s.replyBare r f.op St.noSession
    | some x =>
      if x.ip != r.ip || x.udp != r.udp then s.replyBare r f.op St.noSession
      else if x.version != r.version then s.replyPlain r f.op St.badVersion x
      else
        let t := s.updSession r.session (Session.touch s.tim.now)
        if f.malformed r then t.replyPlain r f.op St.malformed x
        else if x.crowded r then t
        else
        let s := s.updSession r.session (Session.hear s.tim.now r)
        if x.isNew r.seq then s.execute f r body (x.hear s.tim.now r)
        else match x.cache.find? fun (c : Cached) => c.seq = r.seq with
          | some c => s.replay r c
          | none => s.replyPlain r f.op St.seqStale x

/-! ### SESSION_OPEN, SESSION_TIMEOUT (R322, R323) -/

/-- A number that no element of a list is, from a start on. -/
def freshFrom {w : Nat} (used : List (BitVec w)) : Nat → BitVec w → BitVec w
  | 0, h => h
  | n + 1, h => if used.contains h then freshFrom used n (h + 1) else h

/-- Versions that this document describes: version 1 of every interface (R315). -/
def common (v : Byte × Byte) : Bool := decide (v.1 ≤ 1) && decide (1 ≤ v.2)

def sessionOpen (r : Req) (bcp bdt rec cblk : Byte × Byte) (timeout : BitVec 16) (s : State) : State :=
  let op : BitVec 16 := 0x0001
  let s := s.countRx r.port
  let f : Form := Form.make op 28 State.inAll
  if s.bcpDrops r then s.countDrop r.port
  else if r.version != 1 then s.replyBare r op St.badVersion
  else if r.session != 0 || f.malformed r then s.replyBare r op St.malformed
  else match s.bcp.opened.find? fun (o : Opened) =>
      o.ip = r.ip && o.udp = r.udp && o.seq = r.seq && decide (s.tim.now ≤ o.at_ + secU 10) with
    | some o =>
      s.reply r op St.ok true o.session (((s.findSession o.session).map fun y => s.attention y).getD o.atn) o.data
    | none =>
      if 3600 < timeout.toNat then s.replyBare r op St.badValue
      else if !([bcp, bdt, rec, cblk].all common) then s.replyBare r op St.noCommonVersion
      else match [0, 1, 2, 3].find? fun (n : Nat) => s.bcp.sessions.all fun (x : Session) => x.slot != n with
        | none => s.replyBare r op St.noSlot
        | some slot =>
          let (i, s) := s.takeFree
          let used := 0 :: (s.bcp.sessions.map fun (x : Session) => x.id) ++ s.bcp.orphans.map fun x => x.1.session
          let id := freshFrom used (used.length + 1) (Config.sessionId i)
          let x : Session :=
            { slot := slot, id := id, ip := r.ip, udp := r.udp, port := r.port, version := 1
              timeout := secU (if timeout = 0 then 10 else timeout.toNat), last := s.tim.now, high := none, cache := []
              atn := 0, atnAt := [], snaps := [], highs := [], marks := [], ops := [], nonce := none, auth := [], report := []
              taken := [] }
          let s := s.setFld Reg.lnkVer 19 4 0x1111
          let data := beBytes 4 id.toNat ++ [1, 1, 1, 1] ++ beBytes 4 (s.get Reg.ilkIdent).toNat
            ++ beBytes 8 (s.get64 Reg.ilkEui64Lo Reg.ilkEui64Hi).toNat ++ beBytes 2 s.moduleAddr ++ beBytes 2 0
          let o : Opened := ⟨r.ip, r.udp, r.seq, id, s.tim.now, data, s.attention x⟩
          let s := { s with bcp := { s.bcp with
            sessions := s.bcp.sessions ++ [x]
            opened := (s.bcp.opened.filter fun (y : Opened) =>
              decide (s.tim.now ≤ y.at_ + secU 10) && !(y.ip = r.ip && y.udp = r.udp && y.seq = r.seq)) ++ [o] } }
          s.reply r op St.ok false id (s.attention x) data

/-- TIMEOUT seconds without a valid request. -/
def sessionTimeout (slot : Fin 4) (s : State) : State :=
  match s.bcp.sessions.find? fun (x : Session) => x.slot = slot.val with
  | some x => if x.last + x.timeout ≤ s.tim.now then s.closeSession x.id else s
  | none => s

/-! ### Long operations (R329) -/

/-- A long operation of a session, unless 16 are running. -/
def State.newOp (id : Word) (opcode : BitVec 16) (counts : List Nat) (s : State) : Option (OpRef × State) :=
  let ops := ((s.findSession id).map fun x => x.ops).getD []
  if 16 ≤ (ops.filter fun (o : Op) => !o.done).length then none
  else
    let (i, s) := s.takeFree
    let h := (freshFrom (ops.map fun (o : Op) => BitVec.ofNat 16 o.handle) (ops.length + 1) (Config.handle i)).toNat
    let o : Op := { handle := h, opcode := opcode, done := false, final := 0, bytes := 0, counts := counts, result := [] }
    some (⟨id, h⟩, s.updSession id fun x => { x with ops := x.ops ++ [o] })

/-- A command that has passed its own rules starts a long operation, or finds no slot. -/
def State.long (id : Word) (opcode : BitVec 16) (counts : List Nat) (more : List Byte) (go : OpRef → State → State)
    (s : State) : Ans :=
  match s.newOp id opcode counts with
  | none => (St.noSlot, [], s)
  | some (o, s) => (St.accepted, beBytes 2 o.handle ++ beBytes 2 0 ++ more, go o s)

/-- PROGRESS of an operation: bytes, items or 0; which of them is open but for COMMIT. -/
def Op.progress (o : Op) : Nat :=
  if o.opcode = 0x0104 then 0
  else match Config.progressKind o.opcode % 3 with
    | 0 => 0
    | 1 => o.bytes
    | _ => o.counts.getD 0 0

/-- OP_STATUS: a DONE result is returned once. -/
def State.opStatus (handle : Nat) (x : Session) (s : State) : Ans :=
  match x.ops.find? fun (o : Op) => o.handle = handle with
  | none => (St.badValue, [], s)
  | some o =>
    let head (final : Nat) : List Byte := beBytes 2 o.handle ++ beBytes 1 o.done.toNat ++ beBytes 1 0
      ++ beBytes 2 o.opcode.toNat ++ beBytes 2 final ++ beBytes 4 o.progress
    if o.done then
      (St.ok, head o.final.toNat ++ o.result,
        s.updSession x.id fun y => { y with ops := y.ops.filter fun (p : Op) => p.handle != handle })
    else
      let (i, s) := s.takeFree
      (St.ok, head ((Config.openWord i).toNat % 65536), s)

/-! ### Attention (R332) -/

/-- ATN_ACK: a bit goes if its latest event came before the last sending of the named reply. -/
def State.atnAck (mask replySeq : Word) (x : Session) (s : State) : Ans :=
  match x.cache.find? fun (c : Cached) => c.seq = replySeq with
  | none => (St.ok, [], s)
  | some c =>
    let gone := (List.range 12).filter fun b => mask.getLsbD b && decide ((lookupK b x.atnAt).getD 0 < c.sent)
    (St.ok, [], s.updSession x.id fun y =>
      { y with atn := gone.foldl (fun (a : BitVec 12) (b : Nat) => a &&& ~~~(bitOf 12 b)) y.atn })

end Sys2Proof.Machine
end

