-- ==== Sys2Proof/Machine/Commands.lean ====
section
/-! DEFINITION. What the commands of R340 do, one definition each, as the server executes them once a request has passed
R321 and R324 (Machine/Requests.lean), and the fields of their replies. -/

namespace Sys2Proof.Machine

/-- A rejection: nothing changes, no data. -/
def State.refuse (st : BitVec 16) (s : State) : Ans := (st, [], s)

/-! ### Module (R334, R341, R349) -/

/-- STATUS (R334). -/
def State.statusData (x : Session) (s : State) : List Byte :=
  let slots := (s.bcp.sessions.map fun (y : Session) => 2 ^ y.slot).sum
  let live (a : Nat) : List Byte := beBytes 4 (if s.powered a then (s.live32 a).toNat else 0)
  beBytes 1 s.mode.code ++ beBytes 1 slots ++ beBytes 1 s.modes.tiles.toNat ++ beBytes 1 s.laneBits
  ++ beBytes 4 (s.attention x).toNat ++ live Reg.ilkIdent ++ beBytes 2 s.moduleAddr ++ beBytes 2 0
  ++ live Reg.clkStat ++ live Reg.timStat ++ live Reg.lnkMlStat ++ live Reg.queStat ++ live Reg.sbxStat
  ++ live Reg.dptEccStat ++ live Reg.cmpQuar ++ live Reg.pwrPIn ++ wideBytes s.tim.mt

def State.modeSet (mode : Byte) (x : Session) (s : State) : Ans :=
  match s.modeRefused (modeOf mode.toNat) with
  | some st => s.refuse st
  | none => s.long x.id 0x0007 [] [] fun o s => match modeOf mode.toNat with
    | some t => s.modeAccept t (some o)
    | none => s

/-- RESET_SOFT: the reset begins 1 ms later, and a second request does not put it off. -/
def State.resetSoon (s : State) : Ans :=
  (St.ok, [], { s with bcp := { s.bcp with resetAt := some (s.bcp.resetAt.getD (s.tim.now + msU 1)) } })

/-- DATA_SESSION binds the Mainline that the request came in on. -/
def State.dataSession (r : Req) (hostPort : BitVec 16) (force : Bool) (s : State) : Ans :=
  if !isMainline r.port then s.refuse St.wrongPort
  else
    let p : Fin 2 := Fin.ofNat 2 r.port.val
    let other := match s.bindOf p with
      | some b => b.ip != r.ip
      | none => false
    if other && !force then s.refuse St.busyRunning
    else
      let b : Bind := ⟨r.mac, r.ip, if hostPort = 0 then 21333 else hostPort⟩
      (St.ok, beBytes 1 p.val, s.withLnk fun l => if p = 0 then { l with bindA := some b } else { l with bindB := some b })

/-! ### Registers (R335–R339) -/

/-- Consecutive registers up to the first that fails. -/
def State.readRegs (id : Word) : Nat → Nat → State → BitVec 16 × List Word × State
  | 0, _, s => (St.ok, [], s)
  | n + 1, a, s =>
    match s.addrRefused a with
    | some st => (st, [], s)
    | none =>
      let r := s.readReg id a
      let q := State.readRegs id n (a + 4) r.2
      (q.1, r.1 :: q.2.1, q.2.2)

/-- An access to a tile whose register frame is lost with its replay has no effect (R48). -/
def State.overLink (r : Req) (a : Nat) (go : Ans) (s : State) : Ans :=
  if s.linkLoses r.frameLost a then s.refuse St.linkFault else go

/-- REG_READ: consecutive registers up to the first that fails; a lost frame is that of the first one (log entry 147). -/
def State.regRead (lost : Bool) (address : Word) (count : BitVec 16) (x : Session) (s : State) : Ans :=
  if count = 0 || 256 < count.toNat then s.refuse St.badValue
  else
    let q := if s.linkLoses lost address.toNat then (St.linkFault, [], s)
      else s.readRegs x.id count.toNat address.toNat
    (q.1, beBytes 2 q.2.1.length ++ beBytes 2 0 ++ q.2.1.flatMap fun (w : Word) => beBytes 4 w.toNat, q.2.2)

/-- A register write with the islands that stay busy. -/
def State.regWrite (a value busy : Word) (x : Session) (s : State) : Ans :=
  let q := s.writeReg x.id a.toNat value 0xFFFFFFFF busy
  (q.1, [], q.2)

/-- Islands that do not become idle for a host gate, where the command does not say: open (R280). -/
def State.openBusy (a : Word) (s : State) : Word × State :=
  if a.toNat = Reg.clkGateHostEng ∨ a.toNat = Reg.clkGateHostMisc then
    let (i, s) := s.takeFree
    (Config.openWord i, s)
  else (0, s)

def State.regWriteOpen (a value : Word) (x : Session) (s : State) : Ans :=
  let b := s.openBusy a
  b.2.regWrite a value b.1 x

/-- REG_WRITE_MASKED: the register's value read back. -/
def State.regWriteMasked (a value mask : Word) (x : Session) (s : State) : Ans :=
  let b := s.openBusy a
  let q := b.2.writeReg x.id a.toNat value mask b.1
  (q.1, if q.1 = St.ok then beBytes 4 (q.2.view a.toNat).toNat else [], q.2)

def State.regRead64 (a : Word) (s : State) : Ans :=
  if !pairLo a.toNat then s.refuse St.badAddress
  else match s.addrRefused a.toNat with
    | some st => s.refuse st
    | none => (St.ok, beBytes 4 (s.view (a.toNat + 4)).toNat ++ beBytes 4 (s.view a.toNat).toNat, s)

def State.commit (x : Session) (s : State) : Ans :=
  match s.marked x.id with
  | [] => (St.ok, [], s)
  | bs => s.long x.id 0x0104 [0, 0] [] fun o s => bs.foldl (fun (s : State) (b : Nat) => s.latchBlock b o) s

/-! ### Sources and ranges (R56, R57, R112) -/

def State.pulseArm (sources : BitVec 16) (launch : Wide) (s : State) : Ans :=
  let srcs : List (Fin 4 × Fin 4) := (bitList sources).map fun i => (Fin.ofNat 4 (i / 4), Fin.ofNat 4 (i % 4))
  if 1000000000 ≤ launch.ns.toNat then s.refuse St.badValue
  else if srcs.any fun (x : Fin 4 × Fin 4) => !s.tilePowered x.1 then s.refuse St.notPowered
  else if srcs.any fun (x : Fin 4 × Fin 4) => s.tileTraining x.1 then s.refuse St.linkFault
  else if srcs.any fun (x : Fin 4 × Fin 4) => s.bit (Reg.jctExStat x.1 x.2) 0 then s.refuse St.busyRunning
  else if srcs.any fun (x : Fin 4 × Fin 4) => s.armRefused x.1 x.2 then s.refuse St.badValue
  else (St.ok, [], srcs.foldl (fun (s : State) (x : Fin 4 × Fin 4) => s.arm x.1 x.2 (Wide.toU launch)) s)

def State.rangeCal (tiles : BitVec 4) (x : Session) (s : State) : Ans :=
  let ts := allTiles.filter fun (t : Fin 4) => tiles.getLsbD t.val
  if ts.any fun (t : Fin 4) => !s.tilePowered t then s.refuse St.notPowered
  else if ts.any fun (t : Fin 4) => s.bit (Reg.calStat t) 20 then s.refuse St.busyRunning
  else s.long x.id 0x0201 [0, 0] [] fun o s =>
    if ts.isEmpty then s.opDone o St.ok (beBytes 1 0)
    else ts.foldl (fun (s : State) (t : Fin 4) => s.startRangeCal t (some o)) s

/-! ### Records (R169, R170, R191) -/

/-- Records at the head of the host-read queue with a wrong number of cells are discarded, counted and skipped (R167,
R169). -/
def State.dropMisframed : List HrEnt → State → State
  | [], s => s
  | e :: rest, s =>
    if e.taken = 0 && !framed e.cells then
      State.dropMisframed rest
        { ((s.bump Reg.queFraming).bump Reg.queHrSkip).attend Atn.link with que := { s.que with hostRead := rest } }
    else s

/-- Up to `maxCells` cells of the record at the head of the queue, as R169 lays them out. -/
def State.readCells (maxCells : Nat) (s : State) : Ans :=
  match s.que.hostRead with
  | [] => (St.ok, beBytes 4 0, s)
  | e :: rest =>
    let part := (e.cells.drop e.taken).take maxCells
    let last := (part.getLast?.map fun (c : Cell) => c.endMark).getD true
    (St.ok, beBytes 4 (2 ^ 31 + last.toNat * 2 ^ 30 + part.length * 2 ^ 16) ++ cellBytes part,
      { s with que := { s.que with
          hostRead := if last then rest else { e with taken := e.taken + part.length } :: rest } })

/-- QUEUE_READ: the queue is served store-and-forward (R169). -/
def State.queueRead (maxCells : Byte) (s : State) : Ans :=
  if maxCells = 0 || 16 < maxCells.toNat then s.refuse St.badValue
  else (s.dropMisframed s.que.hostRead).readCells maxCells.toNat

/-- Bytes of an item read over BCP, at most 1428 (R341); a lost line costs the range (R203). -/
def State.itemRead (i : Item) (total offset length : Nat) (s : State) : Ans :=
  if total ≤ offset then s.refuse St.badValue
  else
    let n := min (min length 1428) (total - offset)
    let r := s.readPart .hostRead i offset n
    match r.1 with
    | none => r.2.refuse St.overwritten
    | some (true, _) => r.2.refuse St.dataLost
    | some (false, bytes) => (St.ok, beBytes 4 total ++ beBytes 4 offset ++ bytes, r.2)

def State.recordRead (seq : BitVec 64) (offset : Word) (length : BitVec 16) (s : State) : Ans :=
  if s.seqNext ≤ seq.toNat then s.refuse St.badValue
  else match s.findRec seq.toNat with
    | some r => (s.probeRec seq.toNat .hostRead).itemRead (.record seq.toNat) r.length offset.toNat length.toNat
    | none =>
      if s.notYetStored seq.toNat then s.refuse St.busyRunning
      else ((s.probeRec seq.toNat .hostRead).bump Reg.dptOverwritten).refuse St.overwritten

def State.unitRead (useq : BitVec 64) (offset : Word) (length : BitVec 16) (s : State) : Ans :=
  if s.unitSeq ≤ useq.toNat then s.refuse St.badValue
  else match s.findUnit useq.toNat with
    | some u => s.itemRead (.unit useq.toNat) (64 + u.length) offset.toNat length.toNat
    | none => (s.bump Reg.dptOverwritten).refuse St.overwritten

/-! ### Request streams (R188, R289, R341) -/

/-- Why a request stream cannot start. -/
def State.streamRefused (s : State) (id : BitVec 16) : Option (BitVec 16) :=
  let busy := s.lnk.streams.filter fun (x : Stream) => isRequest x.id && !x.settled
  if !s.hasBinding then some St.noDataSession
  else if busy.any fun (x : Stream) => x.id = id then some St.busyRunning
  else if 16 ≤ busy.length then some St.noSlot
  else none

/-- A request stream that sends the given items. -/
def State.startRequest (id : BitVec 16) (items : List Item) (ring : Option RingReq) (o : OpRef) (s : State) : State :=
  (s.putStream { Stream.fresh id with items := items, ring := ring, op := some o }).loadStream id

def State.fetchRecords (stream : BitVec 16) (first : BitVec 64) (count : Word) (x : Session) (s : State) : Ans :=
  if !isRequest stream || count = 0 || s.seqNext ≤ first.toNat + count.toNat - 1 then s.refuse St.badValue
  else match s.streamRefused stream with
    | some st => s.refuse st
    | none => s.long x.id 0x0302 [0, 0, 0] [] fun o s =>
      s.startRequest stream ((List.range count.toNat).map fun i => Item.record (first.toNat + i)) none o

def State.fetchRing (stream : BitVec 16) (mask : BitVec 64) (a b : Wide) (x : Session) (s : State) : Ans :=
  if !isRequest stream || 1000000000 ≤ a.ns.toNat || 1000000000 ≤ b.ns.toNat then s.refuse St.badValue
  else match s.streamRefused stream with
    | some st => s.refuse st
    | none => s.long x.id 0x0403 [0, 0, 0, 0] [] fun o s =>
      s.startRequest stream (s.ringItems ⟨mask, Wide.toU a, Wide.toU b, 0⟩)
        (some ⟨mask, Wide.toU a, Wide.toU b, s.unitSeq⟩) o

/-- STREAM_ABORT: no new segment; unsettled ones settle normally. -/
def State.streamAbort (id : BitVec 16) (s : State) : Ans :=
  if !isRequest id then s.refuse St.badValue
  else match s.stream id with
    | none => (St.ok, [], s)
    | some x =>
      if x.settled then (St.ok, [], s)
      else (St.ok, [],
        (s.putStream { x with ended := true, items := [], loaded := [], ring := none, final := St.aborted }).requestDone id)

def State.streamStatus (id : BitVec 16) (s : State) : Ans :=
  let x := (s.stream id).getD (Stream.fresh id)
  (St.ok, beBytes 8 x.next ++ beBytes 4 x.segs.length ++ beBytes 4 x.retx, s)

/-! ### Holds (R193–R199) -/

def State.holdStart (n : Fin 4) (pre post : Word) (store : Bool) (firstSeq : BitVec 64) (o : OpRef) (s : State) : State :=
  let s := if store then (s.fillBlock false).storeDirectories else s
  let s := s.updHold n fun _ =>
    { Hold.reset with ta := s.tim.mt, pre := pre.toNat, post := post.toNat, firstSeq := firstSeq.toNat
                      order := s.dpt.order, op := some o }
  let s := s.set (Reg.dptHoldStat n) (BitVec.ofNat 32 (1 + store.toNat * 16))
  let s := s.stamp (Reg.dptHoldT1S n) (Reg.dptHoldT1Ns n) (s.tim.mt + usU post.toNat)
  let s := s.set64 (Reg.dptHoldFirstSeqLo n) (Reg.dptHoldFirstSeqHi n) firstSeq.toNat
  if s.modes.inner = .hold then s.freezeRing n else s

def State.hold (pre post : Word) (store : Byte) (firstSeq : BitVec 64) (x : Session) (s : State) : Ans :=
  if 1000000 < post.toNat || 1 < store.toNat then s.refuse St.badValue
  else match [0, 1, 2, 3].find? fun (n : Fin 4) => s.holdState n == 0 with
    | none => s.refuse St.noSlot
    | some n => s.long x.id 0x0400 [] (beBytes 1 n.val) fun o s => s.holdStart n pre post (store = 1) firstSeq o

def State.drain (slot : BitVec 16) (mask : BitVec 64) (store auto : Bool) (x : Session) (s : State) : Ans :=
  let n : Fin 4 := Fin.ofNat 4 slot.toNat
  if 3 < slot.toNat then s.refuse St.badValue
  else if s.holdState n != 2 && s.holdState n != 5 then s.refuse St.busyRunning
  else if !s.hasBinding then s.refuse St.noDataSession
  else s.long x.id 0x0401 [0, 0, 0] [] fun o s =>
    let s := s.updHold n fun h => { h with drainOp := some o, mask := mask, drainStore := store, autoRelease := auto }
    let s := (s.setHoldState n 3).withDpt fun d => { d with drainQ := d.drainQ ++ [n.val] }
    s.nextDrain

def State.release (slot : BitVec 16) (x : Session) (s : State) : Ans :=
  let n : Fin 4 := Fin.ofNat 4 slot.toNat
  let h := s.dpt.holds.get n
  if 3 < slot.toNat then s.refuse St.badValue
  else match s.holdState n with
    | 0 => s.refuse St.badValue
    | 1 =>
      (St.ok, [], (s.freeHold n).optDone h.op St.ok (beBytes 1 0))
    | 6 => (St.ok, [], s)
    | st => s.long x.id 0x0402 [] [] fun o s =>
      if st = 3 then
        let s := s.withDpt fun d => { d with drainQ := d.drainQ.filter fun m => m != n.val }
        let s := (s.optDone h.drainOp St.ok (s.opCounts h.drainOp)).updHold n fun h => { h with drainOp := none }
        s.beginRelease n [o]
      else if st = 4 then
        let s := s.updHold n fun h => { h with autoRelease := true, releaseOps := h.releaseOps ++ [o] }
        match s.stream (drainStream n) with
        | some y => s.putStream { y with
            items := [], loaded := (y.loaded.take 1).filter fun (l : Loaded) => decide (0 < l.start) }
        | none => s
      else s.beginRelease n [o]

/-! ### Time (R230, R243) -/

def State.stepRequest (form : Byte) (offset : BitVec 64) (time : Wide) (x : Session) (s : State) : Ans :=
  if s.modes.sampling then s.refuse St.busyRunning
  else if 2 < form.toNat || (form = 2 && decide (1000000000 ≤ time.ns.toNat)) then s.refuse St.badValue
  else if form = 0 && !s.locked s.timRef then s.refuse St.notLocked
  else
    let v : Int := if form = 1 then signed 64 offset.toNat else if form = 2 then Wide.toU time else 0
    s.long x.id 0x0500 [] [] fun o s => s.withTim fun t => { t with steps := t.steps ++ [⟨form.toNat, v, some o⟩] }

def State.timeRead (s : State) : Ans :=
  let valid := (withIdx s.scales).foldl (fun (a : Nat) (x : Nat × Nat × Bool) => a + x.2.2.toNat * 2 ^ x.1) 0
  (St.ok, (s.scales.flatMap fun (x : Nat × Bool) => wideBytes x.1) ++ beBytes 1 valid ++ List.replicate 3 0, s)

/-! ### Mainlines, budget, provocation (R301, R316, R361) -/

def State.switchover (s : State) : Ans :=
  match s.switchRefused with
  | some st => s.refuse st
  | none => (St.ok, [], s.commandSwitch)

def State.budgetSet (power thermal : BitVec 16) (s : State) : Ans :=
  let top := match s.variant with
    | .f => 250
    | .l => 226
  if power.toNat < 60 || top < power.toNat || thermal.toNat < 60 || 150 < thermal.toNat then s.refuse St.badValue
  else (St.ok, [], s.setBudget power.toNat thermal.toNat)

def State.budgetReport (s : State) : Ans :=
  (St.ok, beBytes 1 (s.fld Reg.pwrStat 27 24) ++ beBytes 1 (s.fld Reg.pwrStat 17 16) ++ beBytes 2 0
    ++ beBytes 8 (s.get64 Reg.pwrShedChLo Reg.pwrShedChHi).toNat ++ beBytes 4 (s.fld Reg.pwrBudget 8 0)
    ++ beBytes 4 (s.get Reg.pwrPIn).toNat, s)

def State.provokeArm (target : BitVec 16) (mode dir : Byte) (n : Word) (k offset : BitVec 16) (pat : Word) (s : State) : Ans :=
  let i := target.toNat
  if 10 < i || 4 < mode.toNat || 1 < dir.toNat || n = 0 || (mode = 4 && k = 0) || !dirOk i (dir = 1) then
    s.refuse St.badValue
  else if s.variant = .l && i == 1 then s.refuse St.notFitted
  else
    let s := (s.set (Reg.lnkProvN i) n).set (Reg.lnkProvPat i) pat
    let s := s.set (Reg.lnkProvK i) (k ++ offset)
    let s := s.set (Reg.lnkProvCtrl i)
      ((s.get (Reg.lnkProvCtrl i) &&& 0x10000) ||| BitVec.ofNat 32 (2 ^ 31 + dir.toNat * 256 + mode.toNat))
    (St.ok, [], s.withLnk fun l => { l with prov := dropK i l.prov })

/-! ### Persistent settings and attestation (R343–R345, R380, R386, R392, R395–R402) -/

def State.auditLanes (seed : Word) (x : Session) (s : State) : Ans :=
  s.long x.id 0x0A01 [] [] fun o s => { s with ilk := { s.ilk with audits := s.ilk.audits ++ [(o, seed)] } }

def State.cstInfo (s : State) : Ans :=
  (St.ok, beBytes 1 (s.fld Reg.cstStat 1 0) ++ beBytes 1 (s.fld Reg.cstStat 5 4) ++ beBytes 2 0
    ++ beBytes 4 (s.get Reg.cstGen0).toNat ++ beBytes 4 (s.get Reg.cstGen1).toNat, s)

def State.cstStore (x : Session) (s : State) : Ans :=
  if s.cstBusy || s.rangeBusy then s.refuse St.busyRunning
  else s.long x.id 0x0701 [] [] fun o s => s.startStore o

/-- A fresh nonce replaces the session's (R343). -/
def State.authNonce (x : Session) (s : State) : Ans :=
  let (i, s) := s.takeFree
  let n := Config.nonce i
  (St.ok, beBytes 16 n.toNat ++ beBytes 4 60, s.updSession x.id fun y => { y with nonce := some (n, s.tim.now) })

/-- Loaded bytes by offset, rising; zeros are listed too. -/
def loadBytes (o : Nat) (bs : List Byte) (m : Mem) : Mem :=
  (m.filter fun c => decide (c.1 < o)) ++ ((withIdx bs).map fun x => (o + x.1, x.2))
    ++ m.filter fun c => decide (o + bs.length ≤ c.1)

def State.authLoad (offset : BitVec 16) (chunk : List Byte) (x : Session) (s : State) : Ans :=
  if 8192 < offset.toNat + chunk.length then s.refuse St.badValue
  else
    let m := loadBytes offset.toNat chunk x.auth
    (St.ok, beBytes 2 m.length, s.updSession x.id fun y => { y with auth := m })

/-- How many bytes the buffer holds, if they lie without a gap from offset 0. -/
def heldFrom0 (m : Mem) : Option Nat :=
  if m.map (fun c => c.1) = List.range m.length then some m.length else none

/-- ATTEST queues a report; the session no longer holds its earlier one (R399). -/
def State.attest (challenge : BitVec 256) (x : Session) (s : State) : Ans :=
  if !s.modes.control || !s.modes.att then s.refuse St.notPowered
  else s.long x.id 0x0802 [] [] fun o s =>
    { s.updSession x.id fun y => { y with report := [] } with pers := { s.pers with jobs := s.pers.jobs ++ [.report o challenge] } }

/-- Bytes of a stored blob, at most 1432 from an offset that lies in it. -/
def State.blobRead (blob : List Byte) (offset : Word) (length : BitVec 16) (s : State) : Ans :=
  if blob.length ≤ offset.toNat then s.refuse St.badValue
  else (St.ok, beBytes 4 offset.toNat ++ (blob.drop offset.toNat).take (min length.toNat 1432), s)

/-- PUBKEY_READ; what it returns while no key is derived is open. -/
def State.pubkeyRead (offset : Word) (length : BitVec 16) (s : State) : Ans :=
  if s.keyReady then s.blobRead s.pubKey offset length
  else
    let (i, s) := s.takeFree
    s.blobRead ((List.range 2592).map (Config.damagedByte i)) offset length

/-- A privileged request is judged at once, and what it brought is consumed (R343, R345, R402). -/
def State.privileged (r : Req) (op : BitVec 16) (ok : Bool) (params : List Byte) (x : Session) (s : State) : Ans :=
  if !isSigned r then s.refuse (if ok then St.authRequired else St.wrongMode)
  else
    let fresh := match x.nonce with
      | some n => if s.tim.now ≤ n.2 + secU 60 then some n else none
      | none => none
    let buf := x.auth.map fun c => c.2
    let s := s.updSession x.id fun y => { y with nonce := none, auth := [] }
    if !ok then s.refuse St.wrongMode
    else if !s.modes.control || !s.modes.att then s.refuse St.notPowered
    else if authBroken (heldFrom0 x.auth) buf then (s.bump Reg.attAuthFail).refuse St.authFailed
    else s.long x.id op [] [] fun o s =>
      { s with pers := { s.pers with jobs := s.pers.jobs ++ [.check o op r.target params fresh buf] } }

def State.fwLoad (offset : Word) (chunk : List Byte) (s : State) : Ans :=
  let o := offset.toNat
  let held := if o = 0 then 0 else s.pers.fwHeld
  if held < o || 531571 < o + chunk.length then s.refuse St.badValue
  else
    let m := Mem.writeBytes o chunk (if o = 0 then [] else s.pers.fwBuf)
    let h := max held (o + chunk.length)
    (St.ok, beBytes 4 h, { s with pers := { s.pers with fwBuf := m, fwHeld := h } })

end Sys2Proof.Machine
end

