-- ==== Sys2Proof/Machine/Receive.lean ====
section
/-! DEFINITION. Received frames. What each one does once its port lets it in stands first, one definition a command; then
the port with its provocation (R316), and the commands' meanings. The register rows are writes of one register under the
opcode REG_WRITE. -/

namespace Sys2Proof.Machine

/-! ### Commands of R340 -/

/-- SESSION_OPEN (R322). -/
def rxSessionOpen (r : Req) (bcp bdt rec cblk : Byte × Byte) (timeout : BitVec 16) (s : State) : State :=
  sessionOpen r bcp bdt rec cblk timeout s

/-- Opcodes that R340 lists. -/
def listedOpcodes : List Nat :=
  [0x0001, 0x0002, 0x0003, 0x0004, 0x0005, 0x0006, 0x0007, 0x0008, 0x0009, 0x0100, 0x0101, 0x0102, 0x0103, 0x0104,
   0x0200, 0x0201, 0x0300, 0x0301, 0x0302, 0x0303, 0x0400, 0x0401, 0x0402, 0x0403, 0x0404, 0x0500, 0x0501, 0x0600,
   0x0601, 0x0700, 0x0701, 0x0800, 0x0801, 0x0802, 0x0803, 0x0804, 0x0805, 0x0806, 0x0807, 0x0900, 0x0901, 0x0A00,
   0x0A01]

/-- NOP, and a request whose opcode R340 does not list: that one has no layout of its own (R321, R323, R340). A listed
opcode belongs to its own command. -/
def rxNop (r : Req) (opcode : BitVec 16) (s : State) : State :=
  if opcode = 0x0003 then
    s.request (Form.make opcode 0 State.inAll) r (fun _ s => (St.ok, [], s))
  else if listedOpcodes.contains opcode.toNat then s
  else
    s.request ⟨opcode, 0, true, false, false, fun _ => true⟩ { r with presv := false } (fun _ s => (St.badOpcode, [], s))

/-- SESSION_CLOSE (R323, R341). -/
def rxSessionClose (r : Req) (s : State) : State :=
  s.request ⟨0x0002, 0, false, false, true, State.inAll⟩ r (fun _ s => (St.ok, [], s))

/-- STATUS (R334). -/
def rxStatus (r : Req) (s : State) : State :=
  s.request (Form.make 0x0004 0 State.inAll) r (fun x s => (St.ok, s.statusData x, s))

/-- ATN_ACK (R332). -/
def rxAtnAck (r : Req) (mask : Word) (replySeq : Word) (s : State) : State :=
  s.request (Form.make 0x0005 8 State.inAll) r (fun x s => s.atnAck mask replySeq x)

/-- OP_STATUS (R329). -/
def rxOpStatus (r : Req) (s : State) : State :=
  s.request ⟨0x0006, 0, true, false, false, State.inAll⟩ r (fun x s => s.opStatus r.target.toNat x)

/-- MODE_SET (R341, R349). -/
def rxModeSet (r : Req) (mode : Byte) (s : State) : State :=
  s.request (Form.make 0x0007 1 State.inAll) r (fun x s => s.modeSet mode x)

/-- RESET_SOFT (R341). -/
def rxResetSoft (r : Req) (s : State) : State :=
  s.request (Form.make 0x0008 0 State.inAll) r (fun _ s => s.resetSoon)

/-- DATA_SESSION (R341). -/
def rxDataSession (r : Req) (hostPort : BitVec 16) (force : Bool) (s : State) : State :=
  s.request (Form.make 0x0009 3 State.inRun) r (fun _ s => s.dataSession r hostPort force)

/-- REG_READ (R335). -/
def rxRegRead (r : Req) (address : Word) (count : BitVec 16) (s : State) : State :=
  s.request (Form.make 0x0100 6 State.inAll) r (fun x s => s.regRead r.frameLost address count x)

/-- REG_WRITE (R336). -/
def rxRegWrite (r : Req) (address : Word) (value : Word) (s : State) : State :=
  s.request (Form.make 0x0101 8 State.inAll) r (fun x s => s.overLink r address.toNat (s.regWriteOpen address value x))

/-- REG_WRITE_MASKED (R337). -/
def rxRegWriteMasked (r : Req) (address : Word) (value : Word) (mask : Word) (s : State) : State :=
  s.request (Form.make 0x0102 12 State.inAll) r (fun x s => s.overLink r address.toNat (s.regWriteMasked address value mask x))

/-- REG_READ64 (R338). -/
def rxRegRead64 (r : Req) (address : Word) (s : State) : State :=
  s.request (Form.make 0x0103 4 State.inAll) r (fun _ s => s.overLink r address.toNat (s.regRead64 address))

/-- COMMIT (R339). -/
def rxCommit (r : Req) (s : State) : State :=
  s.request (Form.make 0x0104 0 State.inAll) r (fun x s => s.commit x)

/-- PULSE_ARM (R56, R341). -/
def rxPulseArm (r : Req) (sources : BitVec 16) (launch : Wide) (s : State) : State :=
  s.request (Form.make 0x0200 18 State.inRun) r (fun _ s => s.pulseArm sources launch)

/-- RANGE_CAL (R112, R341). -/
def rxRangeCal (r : Req) (tiles : BitVec 4) (s : State) : State :=
  s.request (Form.make 0x0201 1 State.inCalibrate) r (fun x s => s.rangeCal tiles x)

/-- QUEUE_READ (R169, R170). -/
def rxQueueRead (r : Req) (maxCells : Byte) (s : State) : State :=
  s.request (Form.make 0x0300 1 State.inRun) r (fun _ s => s.queueRead maxCells)

/-- RECORD_READ (R191, R341). -/
def rxRecordRead (r : Req) (sequence : BitVec 64) (offset : Word) (length : BitVec 16) (s : State) : State :=
  s.request (Form.make 0x0301 14 State.inRun) r (fun _ s => s.recordRead sequence offset length)

/-- FETCH_RECORDS (R341). -/
def rxFetchRecords (r : Req) (first : BitVec 64) (count : Word) (s : State) : State :=
  s.request ⟨0x0302, 12, true, false, false, State.inRun⟩ r (fun x s => s.fetchRecords r.target first count x)

/-- STREAM_ABORT (R341). -/
def rxStreamAbort (r : Req) (s : State) : State :=
  s.request ⟨0x0303, 0, true, false, false, State.inRun⟩ r (fun _ s => s.streamAbort r.target)

/-- HOLD (R193). -/
def rxHold (r : Req) (pre : Word) (post : Word) (store : Byte) (firstSeq : BitVec 64) (s : State) : State :=
  s.request (Form.make 0x0400 24 State.inDepot) r (fun x s => s.hold pre post store firstSeq x)

/-- DRAIN (R198). -/
def rxDrain (r : Req) (mask : BitVec 64) (store : Bool) (autoRelease : Bool) (s : State) : State :=
  s.request ⟨0x0401, 9, true, false, false, State.inDepot⟩ r (fun x s => s.drain r.target mask store autoRelease x)

/-- RELEASE (R199). -/
def rxRelease (r : Req) (s : State) : State :=
  s.request ⟨0x0402, 0, true, false, false, State.inDepot⟩ r (fun x s => s.release r.target x)

/-- FETCH_RING (R188, R341). -/
def rxFetchRing (r : Req) (mask : BitVec 64) (tStart : Wide) (tEnd : Wide) (s : State) : State :=
  s.request ⟨0x0403, 38, true, false, false, State.inRun⟩ r (fun x s => s.fetchRing r.target mask tStart tEnd x)

/-- UNIT_READ (R341). -/
def rxUnitRead (r : Req) (unitSeq : BitVec 64) (offset : Word) (length : BitVec 16) (s : State) : State :=
  s.request (Form.make 0x0404 14 State.inRun) r (fun _ s => s.unitRead unitSeq offset length)

/-- STEP_TIME (R243). -/
def rxStepTime (r : Req) (form : Byte) (offset : BitVec 64) (time : Wide) (s : State) : State :=
  s.request (Form.make 0x0500 30 State.inStandby) r (fun x s => s.stepRequest form offset time x)

/-- TIME_READ (R340). -/
def rxTimeRead (r : Req) (s : State) : State :=
  s.request (Form.make 0x0501 0 State.inAll) r (fun _ s => s.timeRead)

/-- SWITCHOVER (R301). -/
def rxSwitchover (r : Req) (s : State) : State :=
  s.request (Form.make 0x0600 0 State.inRun) r (fun _ s => s.switchover)

/-- STREAM_STATUS (R340). -/
def rxStreamStatus (r : Req) (s : State) : State :=
  s.request ⟨0x0601, 0, true, false, false, State.inRun⟩ r (fun _ s => s.streamStatus r.target)

/-- CST_INFO (R340). -/
def rxCstInfo (r : Req) (s : State) : State :=
  s.request (Form.make 0x0700 0 State.inAll) r (fun _ s => s.cstInfo)

/-- CST_STORE (R386). -/
def rxCstStore (r : Req) (s : State) : State :=
  s.request (Form.make 0x0701 0 State.inRun) r (fun x s => s.cstStore x)

/-- AUTH_NONCE (R343). -/
def rxAuthNonce (r : Req) (s : State) : State :=
  s.request (Form.make 0x0800 0 State.inAll) r (fun x s => s.authNonce x)

/-- AUTH_LOAD (R343). -/
def rxAuthLoad (r : Req) (offset : BitVec 16) (chunk : List Byte) (s : State) : State :=
  s.request (Form.make 0x0801 4 State.inAll) r (fun x s => s.authLoad offset chunk x)

/-- ATTEST (R399). -/
def rxAttest (r : Req) (challenge : BitVec 256) (s : State) : State :=
  s.request (Form.make 0x0802 32 State.inAll) r (fun x s => s.attest challenge x)

/-- ATTEST_READ (R340). -/
def rxAttestRead (r : Req) (offset : Word) (length : BitVec 16) (s : State) : State :=
  s.request (Form.make 0x0803 6 State.inAll) r (fun x s => s.blobRead x.report offset length)

/-- PUBKEY_READ (R398). -/
def rxPubkeyRead (r : Req) (offset : Word) (length : BitVec 16) (s : State) : State :=
  s.request (Form.make 0x0804 6 State.inAll) r (fun _ s => s.pubkeyRead offset length)

/-- FW_LOAD (R395). -/
def rxFwLoad (r : Req) (offset : Word) (chunk : List Byte) (s : State) : State :=
  s.request (Form.make 0x0806 4 State.inUpdate) r (fun _ s => s.fwLoad offset chunk)

/-- BUDGET_SET (R361). -/
def rxBudgetSet (r : Req) (power : BitVec 16) (thermal : BitVec 16) (s : State) : State :=
  s.request (Form.make 0x0900 4 State.inRun) r (fun _ s => s.budgetSet power thermal)

/-- BUDGET_REPORT (R340). -/
def rxBudgetReport (r : Req) (s : State) : State :=
  s.request (Form.make 0x0901 0 State.inRun) r (fun _ s => s.budgetReport)

/-- PROVOKE (R316). -/
def rxProvoke (r : Req) (mode : Byte) (dir : Byte) (n : Word) (k : BitVec 16) (offset : BitVec 16) (pat : Word) (s : State) : State :=
  s.request ⟨0x0A00, 16, true, false, false, State.inTest⟩ r (fun _ s => s.provokeArm r.target mode dir n k offset pat)

/-- AUDIT_LANES (R380). -/
def rxAuditLanes (r : Req) (seed : Word) (s : State) : State :=
  s.request (Form.make 0x0A01 4 State.inAll) r (fun x s => s.auditLanes seed x)

/-- OTP_PROGRAM (R392). LENGTH bytes of the value, and nothing but zeros beyond. -/
def rxOtpProgram (r : Req) (field length : BitVec 16) (value : List Byte) (s : State) : State :=
  let bad := decide (value.length < length.toNat) || (value.drop length.toNat).any (fun (b : Byte) => b != 0)
  s.request ⟨0x0805, 4, false, true, false, fun _ => true⟩ { r with presv := r.presv || bad } (fun x s =>
    s.privileged r 0x0805 (s.inMode .safe || s.inMode .update) (beBytes 2 field.toNat ++ beBytes 2 length.toNat ++ value) x)

/-- FW_INSTALL (R396). -/
def rxFwInstall (r : Req) (imageLength : Word) (digest : BitVec 512) (s : State) : State :=
  s.request ⟨0x0807, 68, false, true, false, fun _ => true⟩ r (fun x s =>
    s.privileged r 0x0807 s.inUpdate
      (beBytes 4 imageLength.toNat ++ beBytes 64 digest.toNat ++ List.replicate (r.plen.toNat - 68) 0) x)

/-! ### Register rows -/

/-- A REG_WRITE of one register (R336). -/
def State.rowWrite (s : State) (r : Req) (a : Nat) (value busy : Word) : State :=
  s.request (Form.make 0x0101 8 State.inAll) r (fun x s => s.overLink r a (s.regWrite (BitVec.ofNat 32 a) value busy x))

/-- JCT_PINp of a tile (R50). -/
def rxJctPinWrite (r : Req) (t : Tile) (p : Pin) (value : Word) (s : State) : State :=
  s.rowWrite r (Reg.jctPin t p) value 0

/-- JCT_EXe_CTRL with ARM (R56). -/
def rxExcitationArm (r : Req) (t : Tile) (e : Fin 4) (value : Word) (s : State) : State :=
  s.rowWrite r (Reg.jctExCtrl t e) value 0

/-- JCT_EXe_CTRL with DISARM (R56). -/
def rxExcitationDisarm (r : Req) (t : Tile) (e : Fin 4) (value : Word) (s : State) : State :=
  s.rowWrite r (Reg.jctExCtrl t e) value 0

/-- CAL_CTRL with CLEAR_PARK (R105). -/
def rxClearPark (r : Req) (t : Tile) (value : Word) (s : State) : State :=
  s.rowWrite r (Reg.calCtrl t) value 0

/-- CAL_CTRL with RANGE_CAL (R112). -/
def rxCalCtrlRangeCal (r : Req) (t : Tile) (value : Word) (s : State) : State :=
  s.rowWrite r (Reg.calCtrl t) value 0

/-- CAL_MAN_CTRL with APPLY (R113). -/
def rxManualTrimApply (r : Req) (t : Tile) (value : Word) (s : State) : State :=
  s.rowWrite r (Reg.calManCtrl t) value 0

/-- LNK_ML_CTRL with SWITCH (R301). -/
def rxLnkSwitch (r : Req) (value : Word) (s : State) : State :=
  s.rowWrite r Reg.lnkMlCtrl value 0

/-- LNK_ML_CTRL with EXERCISE_B (R303). -/
def rxExerciseB (r : Req) (value : Word) (s : State) : State :=
  s.rowWrite r Reg.lnkMlCtrl value 0

/-- CMP_QUAR (R222). -/
def rxQuarantineRelease (r : Req) (value : Word) (s : State) : State :=
  s.rowWrite r Reg.cmpQuar value 0

/-- CMP_INJECT (R226). -/
def rxCmpInject (r : Req) (value : Word) (s : State) : State :=
  s.rowWrite r Reg.cmpInject value 0

/-- DPT_REGION (R178). -/
def rxDptRegionWrite (r : Req) (value : Word) (s : State) : State :=
  s.rowWrite r Reg.dptRegion value 0

/-- DPT_FLIP_CTRL (R210). -/
def rxDptFlipArm (r : Req) (value : Word) (s : State) : State :=
  s.rowWrite r Reg.dptFlipCtrl value 0

/-- DPT_FLIP_ADDR (R210). -/
def rxDptFlipAddr (r : Req) (value : Word) (s : State) : State :=
  s.rowWrite r Reg.dptFlipAddr value 0

/-- DPT_MAPFLIP_CTRL (R210). -/
def rxDptMapflipArm (r : Req) (value : Word) (s : State) : State :=
  s.rowWrite r Reg.dptMapflipCtrl value 0

/-- DPT_MAP_SEL (R181). -/
def rxDptMapSel (r : Req) (value : Word) (s : State) : State :=
  s.rowWrite r Reg.dptMapSel value 0

/-- TIM_SNAP (R230). -/
def rxTimSnap (r : Req) (value : Word) (s : State) : State :=
  s.rowWrite r Reg.timSnap value 0

/-- CLK_GATE_HOST_ENG (R280). -/
def rxClkGateHostEng (r : Req) (value busy : Word) (s : State) : State :=
  s.rowWrite r Reg.clkGateHostEng value busy

/-- CLK_GATE_HOST_MISC (R280). -/
def rxClkGateHostMisc (r : Req) (value busy : Word) (s : State) : State :=
  s.rowWrite r Reg.clkGateHostMisc value busy

/-- PWR_STAT with RESTORE (R369). -/
def rxPwrStatRestore (r : Req) (value : Word) (s : State) : State :=
  s.rowWrite r Reg.pwrStat value 0

/-- ILK_LANE_CTRL with RESYNC (R379). -/
def rxIlkLaneResync (r : Req) (value : Word) (s : State) : State :=
  s.rowWrite r Reg.ilkLaneCtrl value 0

/-- ILK_LANE_CTRL with RETIRE (R379). -/
def rxIlkLaneRetire (r : Req) (value : Word) (s : State) : State :=
  s.rowWrite r Reg.ilkLaneCtrl value 0

/-- LNK_PROVi_CTRL (R316). -/
def rxLnkProvArm (r : Req) (i : Fin 11) (value : Word) (s : State) : State :=
  s.rowWrite r (Reg.lnkProvCtrl i) value 0

/-! ### The receiving port (R316) -/

/-- What a received frame does; a command that is no frame does nothing here. -/
def rxEffect : Instr → State → State
  | .sessionOpen r bcp bdt rec cblk timeout _ => rxSessionOpen r bcp bdt rec cblk timeout
  | .nop r opcode => rxNop r opcode
  | .sessionClose r => rxSessionClose r
  | .status r => rxStatus r
  | .atnAck r mask replySeq => rxAtnAck r mask replySeq
  | .opStatus r => rxOpStatus r
  | .modeSet r mode => rxModeSet r mode
  | .resetSoft r => rxResetSoft r
  | .dataSession r hostPort force => rxDataSession r hostPort force
  | .regRead r address count => rxRegRead r address count
  | .regWrite r address value => rxRegWrite r address value
  | .regWriteMasked r address value mask => rxRegWriteMasked r address value mask
  | .regRead64 r address => rxRegRead64 r address
  | .commit r => rxCommit r
  | .pulseArm r sources launch => rxPulseArm r sources launch
  | .rangeCal r tiles => rxRangeCal r tiles
  | .queueRead r maxCells => rxQueueRead r maxCells
  | .recordRead r sequence offset length => rxRecordRead r sequence offset length
  | .fetchRecords r first count => rxFetchRecords r first count
  | .streamAbort r => rxStreamAbort r
  | .hold r pre post store firstSeq => rxHold r pre post store firstSeq
  | .drain r mask store autoRelease => rxDrain r mask store autoRelease
  | .release r => rxRelease r
  | .fetchRing r mask tStart tEnd => rxFetchRing r mask tStart tEnd
  | .unitRead r unitSeq offset length => rxUnitRead r unitSeq offset length
  | .stepTime r form offset time => rxStepTime r form offset time
  | .timeRead r => rxTimeRead r
  | .switchover r => rxSwitchover r
  | .streamStatus r => rxStreamStatus r
  | .cstInfo r => rxCstInfo r
  | .cstStore r => rxCstStore r
  | .authNonce r => rxAuthNonce r
  | .authLoad r offset chunk => rxAuthLoad r offset chunk
  | .attest r challenge => rxAttest r challenge
  | .attestRead r offset length => rxAttestRead r offset length
  | .pubkeyRead r offset length => rxPubkeyRead r offset length
  | .fwLoad r offset chunk => rxFwLoad r offset chunk
  | .budgetSet r power thermal => rxBudgetSet r power thermal
  | .budgetReport r => rxBudgetReport r
  | .provoke r mode dir n k offset pat => rxProvoke r mode dir n k offset pat
  | .auditLanes r seed => rxAuditLanes r seed
  | .otpProgram r field length value => rxOtpProgram r field length value
  | .fwInstall r imageLength digest => rxFwInstall r imageLength digest
  | .jctPinWrite r t p value => rxJctPinWrite r t p value
  | .excitationArm r t e value => rxExcitationArm r t e value
  | .excitationDisarm r t e value => rxExcitationDisarm r t e value
  | .clearPark r t value => rxClearPark r t value
  | .calCtrlRangeCal r t value => rxCalCtrlRangeCal r t value
  | .manualTrimApply r t value => rxManualTrimApply r t value
  | .lnkSwitch r value => rxLnkSwitch r value
  | .exerciseB r value => rxExerciseB r value
  | .quarantineRelease r value => rxQuarantineRelease r value
  | .cmpInject r value => rxCmpInject r value
  | .dptRegionWrite r value => rxDptRegionWrite r value
  | .dptFlipArm r value => rxDptFlipArm r value
  | .dptFlipAddr r value => rxDptFlipAddr r value
  | .dptMapflipArm r value => rxDptMapflipArm r value
  | .dptMapSel r value => rxDptMapSel r value
  | .timSnap r value => rxTimSnap r value
  | .clkGateHostEng r value busy => rxClkGateHostEng r value busy
  | .clkGateHostMisc r value busy => rxClkGateHostMisc r value busy
  | .pwrStatRestore r value => rxPwrStatRestore r value
  | .ilkLaneResync r value => rxIlkLaneResync r value
  | .ilkLaneRetire r value => rxIlkLaneRetire r value
  | .lnkProvArm r i value => rxLnkProvArm r i value
  | .frameForward p f bytes => frameForward p f bytes
  | .frameDropped p f => frameDropped p f
  | .arpRequest p targetIp sender bytes => arpRequest p targetIp sender bytes
  | .ack a => ack a
  | .triggerLineMessage m lines set_ bytes => triggerLineMessage m lines set_ bytes
  | .triggerPrimitiveForward m bytes => triggerPrimitiveForward m bytes
  | .hello m verMin verMax module => hello m verMin verMax module
  | .transparentClock p f bytes => transparentClock p f bytes
  | .sync d m => sync d m
  | .delayResp d m => delayResp d m
  | .announce d m => announce d m
  | _ => id

/-- Frames that a swap held back arrive after this one. -/
def State.heldFrame (s : State) (p : Port) : State :=
  match lookupK p.val s.lnk.heldRx with
  | none => s
  | some l => l.foldl (fun (s : State) (j : Instr) => rxEffect j s)
      (s.withLnk fun l => { l with heldRx := dropK p.val l.heldRx })

/-- A pattern of four bytes from an offset on changes a frame of a length (R316). -/
def damages (len o : Nat) (pat : Word) : Bool :=
  (withIdx (beBytes 4 pat.toNat)).any fun (x : Nat × Byte) => decide (o + x.1 < len) && x.2 != 0

/-- What a provocation does to a frame of a length: XOR that changes none of its bytes leaves it as it is (R316). -/
def Provoked.onFrame (len : Nat) : Provoked → Provoked
  | .xor o pat => if damages len o pat then .xor o pat else .pass
  | x => x

/-- A frame comes in as its provocation lets it: dropped, with a bad FCS, held back, or whole (R283, R316). -/
def State.arrives (p : Port) (i : Instr) (f : State → State) (fate : Provoked) (s : State) : State :=
  match fate with
  | .pass | .swapSecond => (f s).heldFrame p
  | .drop => s
  | .xor _ _ => (s.bump (Reg.lnkPortFcs p)).heldFrame p
  | .swapFirst => s.withLnk fun l => { l with heldRx := putK p.val (((lookupK p.val l.heldRx).getD []) ++ [i]) l.heldRx }

/-- A frame arrives on a port that is up and clocked; a provocation may drop, damage or swap it (R316). -/
def receive (p : Port) (len : Nat) (i : Instr) (f : State → State) (s : State) : State :=
  if !s.portLive p then s
  else
    let r := s.provoke p 1
    r.2.arrives p i f (r.1.onFrame len)

/-- Bytes of a datagram's frame: Ethernet header and FCS, IPv4 and UDP headers, payload. -/
def wireLen (r : Req) : Nat := max 64 (46 + r.udpLen)

/-- Bytes of a PTP message's frame (IEEE 1588). -/
def ptpLen : PtpType → Nat
  | .delayResp => 72
  | .announce => 82
  | _ => 64

/-- The command of the other part for the same frame. -/
def PtpSeen.pairs (clock : Bool) (p : Port) (type : PtpType) (source : BitVec 80) (seqId : BitVec 16) (x : PtpSeen) : Bool :=
  x.clock != clock && x.port == p && x.type == type && x.source == source && x.seqId == seqId

/-- The provocation meets a PTP frame once, whichever of its commands comes first: the transparent clock (`clock`) and the
domain of its port are told of it by a command each, and share its fate (log entry 160). -/
def State.ptpFate (clock : Bool) (p : Port) (type : PtpType) (source : BitVec 80) (seqId : BitVec 16) (len : Nat) (s : State) :
    Provoked × State :=
  match s.lnk.ptpSeen.find? (PtpSeen.pairs clock p type source seqId) with
  | some x => (x.fate, s.withLnk fun l => { l with ptpSeen := l.ptpSeen.erase x })
  | none =>
    if !(s.bit (Reg.lnkProvCtrl p) 31 && s.bit (Reg.lnkProvCtrl p) 8) then (.pass, s)
    else
    let r := s.provoke p 1
    let fate := r.1.onFrame len
    let later := match fate with
      | .xor _ _ => .drop
      | x => x
    (fate, r.2.withLnk fun l => { l with ptpSeen := (⟨clock, p, type, source, seqId, later⟩ :: l.ptpSeen).take 8 })

/-- A PTP frame arrives. -/
def receivePtp (clock : Bool) (p : Port) (type : PtpType) (source : BitVec 80) (seqId : BitVec 16) (len : Nat) (i : Instr)
    (f : State → State) (s : State) : State :=
  if !s.portLive p then s
  else
    let r := s.ptpFate clock p type source seqId len
    r.2.arrives p i f r.1

/-- A Sync reaches its domain when it has come in whole, and its Follow_Up too where it has one. -/
def receiveSync (d : Fin 2) (m : SyncMsg) (s : State) : State :=
  if !s.portLive m.port then s
  else
    let r := s.ptpFate false m.port .sync m.source m.seqId (ptpLen .sync)
    match (if m.twoStep then m.followUp else none) with
    | none => r.2.arrives m.port (.sync d m) (sync d m) r.1
    | some u =>
      let q := r.2.ptpFate false m.port .followUp u.source u.seqId (ptpLen .followUp)
      let whole := match r.1 with
        | .drop | .xor _ _ => false
        | _ => true
      q.2.arrives m.port (.sync d m) (if whole then sync d m else id) q.1

/-! ### Meanings -/

def execSessionOpen (r : Req) (bcp bdt rec cblk : Byte × Byte) (timeout : BitVec 16) (client : List Byte) (s : State) :
    Host.Outcome State Fault Refusal :=
  run (receive r.port (wireLen r) (.sessionOpen r bcp bdt rec cblk timeout client) (rxSessionOpen r bcp bdt rec cblk timeout)) s

def execNop (r : Req) (opcode : BitVec 16) (s : State) : Host.Outcome State Fault Refusal :=
  run (receive r.port (wireLen r) (.nop r opcode) (rxNop r opcode)) s

def execSessionClose (r : Req) (s : State) :
    Host.Outcome State Fault Refusal :=
  run (receive r.port (wireLen r) (.sessionClose r) (rxSessionClose r)) s

def execStatus (r : Req) (s : State) :
    Host.Outcome State Fault Refusal :=
  run (receive r.port (wireLen r) (.status r) (rxStatus r)) s

def execAtnAck (r : Req) (mask : Word) (replySeq : Word) (s : State) :
    Host.Outcome State Fault Refusal :=
  run (receive r.port (wireLen r) (.atnAck r mask replySeq) (rxAtnAck r mask replySeq)) s

def execOpStatus (r : Req) (s : State) :
    Host.Outcome State Fault Refusal :=
  run (receive r.port (wireLen r) (.opStatus r) (rxOpStatus r)) s

def execModeSet (r : Req) (mode : Byte) (s : State) :
    Host.Outcome State Fault Refusal :=
  run (receive r.port (wireLen r) (.modeSet r mode) (rxModeSet r mode)) s

def execResetSoft (r : Req) (s : State) :
    Host.Outcome State Fault Refusal :=
  run (receive r.port (wireLen r) (.resetSoft r) (rxResetSoft r)) s

def execDataSession (r : Req) (hostPort : BitVec 16) (force : Bool) (s : State) :
    Host.Outcome State Fault Refusal :=
  run (receive r.port (wireLen r) (.dataSession r hostPort force) (rxDataSession r hostPort force)) s

def execRegRead (r : Req) (address : Word) (count : BitVec 16) (s : State) :
    Host.Outcome State Fault Refusal :=
  run (receive r.port (wireLen r) (.regRead r address count) (rxRegRead r address count)) s

def execRegWrite (r : Req) (address : Word) (value : Word) (s : State) :
    Host.Outcome State Fault Refusal :=
  run (receive r.port (wireLen r) (.regWrite r address value) (rxRegWrite r address value)) s

def execRegWriteMasked (r : Req) (address : Word) (value : Word) (mask : Word) (s : State) :
    Host.Outcome State Fault Refusal :=
  run (receive r.port (wireLen r) (.regWriteMasked r address value mask) (rxRegWriteMasked r address value mask)) s

def execRegRead64 (r : Req) (address : Word) (s : State) :
    Host.Outcome State Fault Refusal :=
  run (receive r.port (wireLen r) (.regRead64 r address) (rxRegRead64 r address)) s

def execCommit (r : Req) (s : State) :
    Host.Outcome State Fault Refusal :=
  run (receive r.port (wireLen r) (.commit r) (rxCommit r)) s

def execPulseArm (r : Req) (sources : BitVec 16) (launch : Wide) (s : State) :
    Host.Outcome State Fault Refusal :=
  run (receive r.port (wireLen r) (.pulseArm r sources launch) (rxPulseArm r sources launch)) s

def execRangeCal (r : Req) (tiles : BitVec 4) (s : State) :
    Host.Outcome State Fault Refusal :=
  run (receive r.port (wireLen r) (.rangeCal r tiles) (rxRangeCal r tiles)) s

def execQueueRead (r : Req) (maxCells : Byte) (s : State) :
    Host.Outcome State Fault Refusal :=
  run (receive r.port (wireLen r) (.queueRead r maxCells) (rxQueueRead r maxCells)) s

def execRecordRead (r : Req) (sequence : BitVec 64) (offset : Word) (length : BitVec 16) (s : State) :
    Host.Outcome State Fault Refusal :=
  run (receive r.port (wireLen r) (.recordRead r sequence offset length) (rxRecordRead r sequence offset length)) s

def execFetchRecords (r : Req) (first : BitVec 64) (count : Word) (s : State) :
    Host.Outcome State Fault Refusal :=
  run (receive r.port (wireLen r) (.fetchRecords r first count) (rxFetchRecords r first count)) s

def execStreamAbort (r : Req) (s : State) :
    Host.Outcome State Fault Refusal :=
  run (receive r.port (wireLen r) (.streamAbort r) (rxStreamAbort r)) s

def execHold (r : Req) (pre : Word) (post : Word) (store : Byte) (firstSeq : BitVec 64) (s : State) :
    Host.Outcome State Fault Refusal :=
  run (receive r.port (wireLen r) (.hold r pre post store firstSeq) (rxHold r pre post store firstSeq)) s

def execDrain (r : Req) (mask : BitVec 64) (store : Bool) (autoRelease : Bool) (s : State) :
    Host.Outcome State Fault Refusal :=
  run (receive r.port (wireLen r) (.drain r mask store autoRelease) (rxDrain r mask store autoRelease)) s

def execRelease (r : Req) (s : State) :
    Host.Outcome State Fault Refusal :=
  run (receive r.port (wireLen r) (.release r) (rxRelease r)) s

def execFetchRing (r : Req) (mask : BitVec 64) (tStart : Wide) (tEnd : Wide) (s : State) :
    Host.Outcome State Fault Refusal :=
  run (receive r.port (wireLen r) (.fetchRing r mask tStart tEnd) (rxFetchRing r mask tStart tEnd)) s

def execUnitRead (r : Req) (unitSeq : BitVec 64) (offset : Word) (length : BitVec 16) (s : State) :
    Host.Outcome State Fault Refusal :=
  run (receive r.port (wireLen r) (.unitRead r unitSeq offset length) (rxUnitRead r unitSeq offset length)) s

def execStepTime (r : Req) (form : Byte) (offset : BitVec 64) (time : Wide) (s : State) :
    Host.Outcome State Fault Refusal :=
  run (receive r.port (wireLen r) (.stepTime r form offset time) (rxStepTime r form offset time)) s

def execTimeRead (r : Req) (s : State) :
    Host.Outcome State Fault Refusal :=
  run (receive r.port (wireLen r) (.timeRead r) (rxTimeRead r)) s

def execSwitchover (r : Req) (s : State) :
    Host.Outcome State Fault Refusal :=
  run (receive r.port (wireLen r) (.switchover r) (rxSwitchover r)) s

def execStreamStatus (r : Req) (s : State) :
    Host.Outcome State Fault Refusal :=
  run (receive r.port (wireLen r) (.streamStatus r) (rxStreamStatus r)) s

def execCstInfo (r : Req) (s : State) :
    Host.Outcome State Fault Refusal :=
  run (receive r.port (wireLen r) (.cstInfo r) (rxCstInfo r)) s

def execCstStore (r : Req) (s : State) :
    Host.Outcome State Fault Refusal :=
  run (receive r.port (wireLen r) (.cstStore r) (rxCstStore r)) s

def execAuthNonce (r : Req) (s : State) :
    Host.Outcome State Fault Refusal :=
  run (receive r.port (wireLen r) (.authNonce r) (rxAuthNonce r)) s

def execAuthLoad (r : Req) (offset : BitVec 16) (chunk : List Byte) (s : State) :
    Host.Outcome State Fault Refusal :=
  run (receive r.port (wireLen r) (.authLoad r offset chunk) (rxAuthLoad r offset chunk)) s

def execAttest (r : Req) (challenge : BitVec 256) (s : State) :
    Host.Outcome State Fault Refusal :=
  run (receive r.port (wireLen r) (.attest r challenge) (rxAttest r challenge)) s

def execAttestRead (r : Req) (offset : Word) (length : BitVec 16) (s : State) :
    Host.Outcome State Fault Refusal :=
  run (receive r.port (wireLen r) (.attestRead r offset length) (rxAttestRead r offset length)) s

def execPubkeyRead (r : Req) (offset : Word) (length : BitVec 16) (s : State) :
    Host.Outcome State Fault Refusal :=
  run (receive r.port (wireLen r) (.pubkeyRead r offset length) (rxPubkeyRead r offset length)) s

def execFwLoad (r : Req) (offset : Word) (chunk : List Byte) (s : State) :
    Host.Outcome State Fault Refusal :=
  run (receive r.port (wireLen r) (.fwLoad r offset chunk) (rxFwLoad r offset chunk)) s

def execBudgetSet (r : Req) (power : BitVec 16) (thermal : BitVec 16) (s : State) :
    Host.Outcome State Fault Refusal :=
  run (receive r.port (wireLen r) (.budgetSet r power thermal) (rxBudgetSet r power thermal)) s

def execBudgetReport (r : Req) (s : State) :
    Host.Outcome State Fault Refusal :=
  run (receive r.port (wireLen r) (.budgetReport r) (rxBudgetReport r)) s

def execProvoke (r : Req) (mode : Byte) (dir : Byte) (n : Word) (k : BitVec 16) (offset : BitVec 16) (pat : Word) (s : State) :
    Host.Outcome State Fault Refusal :=
  run (receive r.port (wireLen r) (.provoke r mode dir n k offset pat) (rxProvoke r mode dir n k offset pat)) s

def execAuditLanes (r : Req) (seed : Word) (s : State) :
    Host.Outcome State Fault Refusal :=
  run (receive r.port (wireLen r) (.auditLanes r seed) (rxAuditLanes r seed)) s

def execOtpProgram (r : Req) (field length : BitVec 16) (value : List Byte) (s : State) : Host.Outcome State Fault Refusal :=
  run (receive r.port (wireLen r) (.otpProgram r field length value) (rxOtpProgram r field length value)) s

def execFwInstall (r : Req) (imageLength : Word) (digest : BitVec 512) (s : State) : Host.Outcome State Fault Refusal :=
  run (receive r.port (wireLen r) (.fwInstall r imageLength digest) (rxFwInstall r imageLength digest)) s

def execJctPinWrite (r : Req) (t : Tile) (p : Pin) (value : Word) (s : State) :
    Host.Outcome State Fault Refusal :=
  run (receive r.port (wireLen r) (.jctPinWrite r t p value) (rxJctPinWrite r t p value)) s

def execExcitationArm (r : Req) (t : Tile) (e : Fin 4) (value : Word) (s : State) :
    Host.Outcome State Fault Refusal :=
  run (receive r.port (wireLen r) (.excitationArm r t e value) (rxExcitationArm r t e value)) s

def execExcitationDisarm (r : Req) (t : Tile) (e : Fin 4) (value : Word) (s : State) :
    Host.Outcome State Fault Refusal :=
  run (receive r.port (wireLen r) (.excitationDisarm r t e value) (rxExcitationDisarm r t e value)) s

def execClearPark (r : Req) (t : Tile) (value : Word) (s : State) :
    Host.Outcome State Fault Refusal :=
  run (receive r.port (wireLen r) (.clearPark r t value) (rxClearPark r t value)) s

def execCalCtrlRangeCal (r : Req) (t : Tile) (value : Word) (s : State) :
    Host.Outcome State Fault Refusal :=
  run (receive r.port (wireLen r) (.calCtrlRangeCal r t value) (rxCalCtrlRangeCal r t value)) s

def execManualTrimApply (r : Req) (t : Tile) (value : Word) (s : State) :
    Host.Outcome State Fault Refusal :=
  run (receive r.port (wireLen r) (.manualTrimApply r t value) (rxManualTrimApply r t value)) s

def execLnkSwitch (r : Req) (value : Word) (s : State) :
    Host.Outcome State Fault Refusal :=
  run (receive r.port (wireLen r) (.lnkSwitch r value) (rxLnkSwitch r value)) s

def execExerciseB (r : Req) (value : Word) (s : State) :
    Host.Outcome State Fault Refusal :=
  run (receive r.port (wireLen r) (.exerciseB r value) (rxExerciseB r value)) s

def execQuarantineRelease (r : Req) (value : Word) (s : State) :
    Host.Outcome State Fault Refusal :=
  run (receive r.port (wireLen r) (.quarantineRelease r value) (rxQuarantineRelease r value)) s

def execCmpInject (r : Req) (value : Word) (s : State) :
    Host.Outcome State Fault Refusal :=
  run (receive r.port (wireLen r) (.cmpInject r value) (rxCmpInject r value)) s

def execDptRegionWrite (r : Req) (value : Word) (s : State) :
    Host.Outcome State Fault Refusal :=
  run (receive r.port (wireLen r) (.dptRegionWrite r value) (rxDptRegionWrite r value)) s

def execDptFlipArm (r : Req) (value : Word) (s : State) :
    Host.Outcome State Fault Refusal :=
  run (receive r.port (wireLen r) (.dptFlipArm r value) (rxDptFlipArm r value)) s

def execDptFlipAddr (r : Req) (value : Word) (s : State) :
    Host.Outcome State Fault Refusal :=
  run (receive r.port (wireLen r) (.dptFlipAddr r value) (rxDptFlipAddr r value)) s

def execDptMapflipArm (r : Req) (value : Word) (s : State) :
    Host.Outcome State Fault Refusal :=
  run (receive r.port (wireLen r) (.dptMapflipArm r value) (rxDptMapflipArm r value)) s

def execDptMapSel (r : Req) (value : Word) (s : State) :
    Host.Outcome State Fault Refusal :=
  run (receive r.port (wireLen r) (.dptMapSel r value) (rxDptMapSel r value)) s

def execTimSnap (r : Req) (value : Word) (s : State) :
    Host.Outcome State Fault Refusal :=
  run (receive r.port (wireLen r) (.timSnap r value) (rxTimSnap r value)) s

def execClkGateHostEng (r : Req) (value busy : Word) (s : State) :
    Host.Outcome State Fault Refusal :=
  run (receive r.port (wireLen r) (.clkGateHostEng r value busy) (rxClkGateHostEng r value busy)) s

def execClkGateHostMisc (r : Req) (value busy : Word) (s : State) :
    Host.Outcome State Fault Refusal :=
  run (receive r.port (wireLen r) (.clkGateHostMisc r value busy) (rxClkGateHostMisc r value busy)) s

def execPwrStatRestore (r : Req) (value : Word) (s : State) :
    Host.Outcome State Fault Refusal :=
  run (receive r.port (wireLen r) (.pwrStatRestore r value) (rxPwrStatRestore r value)) s

def execIlkLaneResync (r : Req) (value : Word) (s : State) :
    Host.Outcome State Fault Refusal :=
  run (receive r.port (wireLen r) (.ilkLaneResync r value) (rxIlkLaneResync r value)) s

def execIlkLaneRetire (r : Req) (value : Word) (s : State) :
    Host.Outcome State Fault Refusal :=
  run (receive r.port (wireLen r) (.ilkLaneRetire r value) (rxIlkLaneRetire r value)) s

def execLnkProvArm (r : Req) (i : Fin 11) (value : Word) (s : State) :
    Host.Outcome State Fault Refusal :=
  run (receive r.port (wireLen r) (.lnkProvArm r i value) (rxLnkProvArm r i value)) s

def execFrameForward (p : Port) (f : FrameFacts) (bytes : List Byte) (s : State) :
    Host.Outcome State Fault Refusal :=
  run (receive p f.length (.frameForward p f bytes) (frameForward p f bytes)) s

def execFrameDropped (p : Port) (f : FrameFacts) (s : State) :
    Host.Outcome State Fault Refusal :=
  run (receive p f.length (.frameDropped p f) (frameDropped p f)) s

def execArpRequest (p : Port) (targetIp : Word) (sender : ArpSender) (bytes : List Byte) (s : State) :
    Host.Outcome State Fault Refusal :=
  run (receive p (max 64 bytes.length) (.arpRequest p targetIp sender bytes) (arpRequest p targetIp sender bytes)) s

def execAck (a : AckPkt) (s : State) :
    Host.Outcome State Fault Refusal :=
  run (receive a.port (82 + 16 * a.ranges.length) (.ack a) (ack a)) s

def execTriggerLineMessage (m : TmHead) (lines : Byte) (set_ : Byte) (bytes : List Byte) (s : State) :
    Host.Outcome State Fault Refusal :=
  run (receive m.port 64 (.triggerLineMessage m lines set_ bytes) (triggerLineMessage m lines set_ bytes)) s

def execTriggerPrimitiveForward (m : TmHead) (bytes : List Byte) (s : State) :
    Host.Outcome State Fault Refusal :=
  run (receive m.port 64 (.triggerPrimitiveForward m bytes) (triggerPrimitiveForward m bytes)) s

def execHello (m : TmHead) (verMin : Byte) (verMax : Byte) (module : BitVec 16) (s : State) :
    Host.Outcome State Fault Refusal :=
  run (receive m.port 64 (.hello m verMin verMax module) (hello m verMin verMax module)) s

def execTransparentClock (p : Port) (f : PtpFrame) (bytes : List Byte) (s : State) :
    Host.Outcome State Fault Refusal :=
  run (receivePtp true p f.type f.source f.seqId bytes.length (.transparentClock p f bytes) (transparentClock p f bytes)) s

def execSync (d : Fin 2) (m : SyncMsg) (s : State) : Host.Outcome State Fault Refusal := run (receiveSync d m) s

def execDelayResp (d : Fin 2) (m : DelayRespMsg) (s : State) : Host.Outcome State Fault Refusal :=
  run (receivePtp false m.port .delayResp m.source m.seqId (ptpLen .delayResp) (.delayResp d m) (delayResp d m)) s

def execAnnounce (d : Fin 2) (m : AnnounceMsg) (s : State) : Host.Outcome State Fault Refusal :=
  run (receivePtp false m.port .announce m.source m.seqId (ptpLen .announce) (.announce d m) (announce d m)) s

def execSessionTimeout (slot : Fin 4) (s : State) : Host.Outcome State Fault Refusal := run (sessionTimeout slot) s

end Sys2Proof.Machine
end

