-- ==== Sys2Proof/Machine/Dispatch.lean ====
section
/-! DEFINITION. exec: one arm per command, each one direct call of its meaning. -/

namespace Sys2Proof.Machine

/-- A command's effect on everything but the queue. -/
def exec (i : Instr) (s : State) : Host.Outcome State Fault Refusal :=
  match i with
  | .sessionOpen r bcp bdt rec cblk timeout client => Sys2Proof.Machine.execSessionOpen r bcp bdt rec cblk timeout client s
  | .sessionClose r => Sys2Proof.Machine.execSessionClose r s
  | .sessionTimeout slot => Sys2Proof.Machine.execSessionTimeout slot s
  | .nop r opcode => Sys2Proof.Machine.execNop r opcode s
  | .status r => Sys2Proof.Machine.execStatus r s
  | .atnAck r mask replySeq => Sys2Proof.Machine.execAtnAck r mask replySeq s
  | .opStatus r => Sys2Proof.Machine.execOpStatus r s
  | .modeSet r mode => Sys2Proof.Machine.execModeSet r mode s
  | .resetSoft r => Sys2Proof.Machine.execResetSoft r s
  | .softReset => Sys2Proof.Machine.execSoftReset s
  | .dataSession r hostPort force => Sys2Proof.Machine.execDataSession r hostPort force s
  | .regRead r address count => Sys2Proof.Machine.execRegRead r address count s
  | .regWrite r address value => Sys2Proof.Machine.execRegWrite r address value s
  | .regWriteMasked r address value mask => Sys2Proof.Machine.execRegWriteMasked r address value mask s
  | .regRead64 r address => Sys2Proof.Machine.execRegRead64 r address s
  | .commit r => Sys2Proof.Machine.execCommit r s
  | .commitApply block => Sys2Proof.Machine.execCommitApply block s
  | .pulseArm r sources launch => Sys2Proof.Machine.execPulseArm r sources launch s
  | .rangeCal r tiles => Sys2Proof.Machine.execRangeCal r tiles s
  | .queueRead r maxCells => Sys2Proof.Machine.execQueueRead r maxCells s
  | .recordRead r sequence offset length => Sys2Proof.Machine.execRecordRead r sequence offset length s
  | .fetchRecords r first count => Sys2Proof.Machine.execFetchRecords r first count s
  | .streamAbort r => Sys2Proof.Machine.execStreamAbort r s
  | .hold r pre post store firstSeq => Sys2Proof.Machine.execHold r pre post store firstSeq s
  | .drain r mask store autoRelease => Sys2Proof.Machine.execDrain r mask store autoRelease s
  | .release r => Sys2Proof.Machine.execRelease r s
  | .fetchRing r mask tStart tEnd => Sys2Proof.Machine.execFetchRing r mask tStart tEnd s
  | .unitRead r unitSeq offset length => Sys2Proof.Machine.execUnitRead r unitSeq offset length s
  | .stepTime r form offset time => Sys2Proof.Machine.execStepTime r form offset time s
  | .timeRead r => Sys2Proof.Machine.execTimeRead r s
  | .switchover r => Sys2Proof.Machine.execSwitchover r s
  | .streamStatus r => Sys2Proof.Machine.execStreamStatus r s
  | .cstInfo r => Sys2Proof.Machine.execCstInfo r s
  | .cstStore r => Sys2Proof.Machine.execCstStore r s
  | .cstStoreComplete firstOk secondOk => Sys2Proof.Machine.execCstStoreComplete firstOk secondOk s
  | .authNonce r => Sys2Proof.Machine.execAuthNonce r s
  | .authLoad r offset chunk => Sys2Proof.Machine.execAuthLoad r offset chunk s
  | .attest r challenge => Sys2Proof.Machine.execAttest r challenge s
  | .attestRead r offset length => Sys2Proof.Machine.execAttestRead r offset length s
  | .pubkeyRead r offset length => Sys2Proof.Machine.execPubkeyRead r offset length s
  | .otpProgram r field length value => Sys2Proof.Machine.execOtpProgram r field length value s
  | .fwLoad r offset chunk => Sys2Proof.Machine.execFwLoad r offset chunk s
  | .fwInstall r imageLength digest => Sys2Proof.Machine.execFwInstall r imageLength digest s
  | .privilegedCheck readBackOk => Sys2Proof.Machine.execPrivilegedCheck readBackOk s
  | .budgetSet r power thermal => Sys2Proof.Machine.execBudgetSet r power thermal s
  | .budgetReport r => Sys2Proof.Machine.execBudgetReport r s
  | .provoke r mode dir n k offset pat => Sys2Proof.Machine.execProvoke r mode dir n k offset pat s
  | .auditLanes r seed => Sys2Proof.Machine.execAuditLanes r seed s
  | .auditComplete l0 l1 l2 => Sys2Proof.Machine.execAuditComplete l0 l1 l2 s
  | .jctPinWrite r t p value => Sys2Proof.Machine.execJctPinWrite r t p value s
  | .excitationArm r t e value => Sys2Proof.Machine.execExcitationArm r t e value s
  | .excitationDisarm r t e value => Sys2Proof.Machine.execExcitationDisarm r t e value s
  | .pulseLaunch t e => Sys2Proof.Machine.execPulseLaunch t e s
  | .sourceCompliance t e => Sys2Proof.Machine.execSourceCompliance t e s
  | .biasCompliance t b loadUa => Sys2Proof.Machine.execBiasCompliance t b loadUa s
  | .scoutCrossing t k magNv => Sys2Proof.Machine.execScoutCrossing t k magNv s
  | .upRange t k highNv lowNv => Sys2Proof.Machine.execUpRange t k highNv lowNv s
  | .downRange t k quiet magNv => Sys2Proof.Machine.execDownRange t k quiet magNv s
  | .wireCentreCapture t p levelUv => Sys2Proof.Machine.execWireCentreCapture t p levelUv s
  | .wireFaultDetect t p x => Sys2Proof.Machine.execWireFaultDetect t p x s
  | .wireCheckPeriod t p first => Sys2Proof.Machine.execWireCheckPeriod t p first s
  | .wireCheckResult t p upUv downUv => Sys2Proof.Machine.execWireCheckResult t p upUv downUv s
  | .dwellStart t => Sys2Proof.Machine.execDwellStart t s
  | .handover t meanDiff gainDiff skewDiff slope => Sys2Proof.Machine.execHandover t meanDiff gainDiff skewDiff slope s
  | .calibrateDone t trims completed => Sys2Proof.Machine.execCalibrateDone t trims completed s
  | .returnShadowDone t ofsStep gainStep skewStep trimOutside => Sys2Proof.Machine.execReturnShadowDone t ofsStep gainStep skewStep trimOutside s
  | .handback t => Sys2Proof.Machine.execHandback t s
  | .forcedHandback t => Sys2Proof.Machine.execForcedHandback t s
  | .clearPark r t value => Sys2Proof.Machine.execClearPark r t value s
  | .reliefWarmupEnd t => Sys2Proof.Machine.execReliefWarmupEnd t s
  | .calCtrlRangeCal r t value => Sys2Proof.Machine.execCalCtrlRangeCal r t value s
  | .rangeCalDone t terms => Sys2Proof.Machine.execRangeCalDone t terms s
  | .manualTrimApply r t value => Sys2Proof.Machine.execManualTrimApply r t value s
  | .manualTrimEffect t => Sys2Proof.Machine.execManualTrimEffect t s
  | .signalBoxPeriod => Sys2Proof.Machine.execSignalBoxPeriod s
  | .timerExpire p k => Sys2Proof.Machine.execTimerExpire p k s
  | .prefillEnd p => Sys2Proof.Machine.execPrefillEnd p s
  | .rearmEnd p => Sys2Proof.Machine.execRearmEnd p s
  | .captureClose p => Sys2Proof.Machine.execCaptureClose p s
  | .hitWindowClose c => Sys2Proof.Machine.execHitWindowClose c s
  | .triggerLineMessage m lines set bytes => Sys2Proof.Machine.execTriggerLineMessage m lines set bytes s
  | .triggerPrimitiveForward m bytes => Sys2Proof.Machine.execTriggerPrimitiveForward m bytes s
  | .hello m verMin verMax module => Sys2Proof.Machine.execHello m verMin verMax module s
  | .helloSend p => Sys2Proof.Machine.execHelloSend p s
  | .helloTimeout p => Sys2Proof.Machine.execHelloTimeout p s
  | .frameForward p f bytes => Sys2Proof.Machine.execFrameForward p f bytes s
  | .frameDropped p f => Sys2Proof.Machine.execFrameDropped p f s
  | .arpRequest p targetIp sender bytes => Sys2Proof.Machine.execArpRequest p targetIp sender bytes s
  | .sampleFrameReceived t frameNo errs dead skipped replayOk => Sys2Proof.Machine.execSampleFrameReceived t frameNo errs dead skipped replayOk s
  | .frameOverdue t lateNs replayOk => Sys2Proof.Machine.execFrameOverdue t lateNs replayOk s
  | .switchSegmentReceived t period levels link => Sys2Proof.Machine.execSwitchSegmentReceived t period levels link s
  | .laneAlignmentLoss t => Sys2Proof.Machine.execLaneAlignmentLoss t s
  | .tileLost t => Sys2Proof.Machine.execTileLost t s
  | .tileRetry t trained => Sys2Proof.Machine.execTileRetry t trained s
  | .lookbackAgeOut w first last => Sys2Proof.Machine.execLookbackAgeOut w first last s
  | .recordSend => Sys2Proof.Machine.execRecordSend s
  | .bdtDataSend p stream => Sys2Proof.Machine.execBdtDataSend p stream s
  | .shortPacket p stream => Sys2Proof.Machine.execShortPacket p stream s
  | .heartbeat p => Sys2Proof.Machine.execHeartbeat p s
  | .ack a => Sys2Proof.Machine.execAck a s
  | .retransmitTimeout stream seg => Sys2Proof.Machine.execRetransmitTimeout stream seg s
  | .abandon stream seg => Sys2Proof.Machine.execAbandon stream seg s
  | .portDown p loss => Sys2Proof.Machine.execPortDown p loss s
  | .portUp p => Sys2Proof.Machine.execPortUp p s
  | .lnkSwitch r value => Sys2Proof.Machine.execLnkSwitch r value s
  | .switchoverOverlapEnd => Sys2Proof.Machine.execSwitchoverOverlapEnd s
  | .storeAndForwardEnd p => Sys2Proof.Machine.execStoreAndForwardEnd p s
  | .exerciseB r value => Sys2Proof.Machine.execExerciseB r value s
  | .unitComplete c => Sys2Proof.Machine.execUnitComplete c s
  | .engineResult e mismatch => Sys2Proof.Machine.execEngineResult e mismatch s
  | .cmpDeadlineExpire e => Sys2Proof.Machine.execCmpDeadlineExpire e s
  | .quarantineRelease r value => Sys2Proof.Machine.execQuarantineRelease r value s
  | .cmpInject r value => Sys2Proof.Machine.execCmpInject r value s
  | .ringUnitWrite => Sys2Proof.Machine.execRingUnitWrite s
  | .dptRegionWrite r value => Sys2Proof.Machine.execDptRegionWrite r value s
  | .holdFreeze n => Sys2Proof.Machine.execHoldFreeze n s
  | .storeHoldFreeze n => Sys2Proof.Machine.execStoreHoldFreeze n s
  | .drainComplete n => Sys2Proof.Machine.execDrainComplete n s
  | .releaseComplete n => Sys2Proof.Machine.execReleaseComplete n s
  | .scrubStep upset => Sys2Proof.Machine.execScrubStep upset s
  | .scrubMapPass upset => Sys2Proof.Machine.execScrubMapPass upset s
  | .bucketLeak => Sys2Proof.Machine.execBucketLeak s
  | .stackTemperature stack celsius => Sys2Proof.Machine.execStackTemperature stack celsius s
  | .dptFlipArm r value => Sys2Proof.Machine.execDptFlipArm r value s
  | .dptFlipAddr r value => Sys2Proof.Machine.execDptFlipAddr r value s
  | .dptMapflipArm r value => Sys2Proof.Machine.execDptMapflipArm r value s
  | .dptMapSel r value => Sys2Proof.Machine.execDptMapSel r value s
  | .sync d m => Sys2Proof.Machine.execSync d m s
  | .delayResp d m => Sys2Proof.Machine.execDelayResp d m s
  | .announce d m => Sys2Proof.Machine.execAnnounce d m s
  | .delayReqSend d egress => Sys2Proof.Machine.execDelayReqSend d egress s
  | .syncTimeout d => Sys2Proof.Machine.execSyncTimeout d s
  | .transparentClock p f bytes => Sys2Proof.Machine.execTransparentClock p f bytes s
  | .steeringTick => Sys2Proof.Machine.execSteeringTick s
  | .returnHoldExpire d => Sys2Proof.Machine.execReturnHoldExpire d s
  | .lTrained => Sys2Proof.Machine.execLTrained s
  | .timSnap r value => Sys2Proof.Machine.execTimSnap r value s
  | .missingEdgeTrip src => Sys2Proof.Machine.execMissingEdgeTrip src s
  | .blockLockLoss src => Sys2Proof.Machine.execBlockLockLoss src s
  | .frequencyMeasurement src ppb vsOther running => Sys2Proof.Machine.execFrequencyMeasurement src ppb vsOther running s
  | .xoRunning => Sys2Proof.Machine.execXoRunning s
  | .xoTimeout => Sys2Proof.Machine.execXoTimeout s
  | .referenceSelect => Sys2Proof.Machine.execReferenceSelect s
  | .wtrExpire src => Sys2Proof.Machine.execWtrExpire src s
  | .pllLock phasePs => Sys2Proof.Machine.execPllLock phasePs s
  | .clockLossStop phasePs => Sys2Proof.Machine.execClockLossStop phasePs s
  | .samplingResume => Sys2Proof.Machine.execSamplingResume s
  | .coreFault => Sys2Proof.Machine.execCoreFault s
  | .rcTrim lane err => Sys2Proof.Machine.execRcTrim lane err s
  | .gateRequest island by_ => Sys2Proof.Machine.execGateRequest island by_ s
  | .gateClosed island => Sys2Proof.Machine.execGateClosed island s
  | .gateBusy island => Sys2Proof.Machine.execGateBusy island s
  | .gateOpen island by_ => Sys2Proof.Machine.execGateOpen island by_ s
  | .clkGateHostEng r value busy => Sys2Proof.Machine.execClkGateHostEng r value busy s
  | .clkGateHostMisc r value busy => Sys2Proof.Machine.execClkGateHostMisc r value busy s
  | .timetableTick m => Sys2Proof.Machine.execTimetableTick m s
  | .shedStep => Sys2Proof.Machine.execShedStep s
  | .shedRestore => Sys2Proof.Machine.execShedRestore s
  | .pwrStatRestore r value => Sys2Proof.Machine.execPwrStatRestore r value s
  | .samplingStop => Sys2Proof.Machine.execSamplingStop s
  | .auxRailUp mv straps => Sys2Proof.Machine.execAuxRailUp mv straps s
  | .bootComplete selfTest patchOk => Sys2Proof.Machine.execBootComplete selfTest patchOk s
  | .patchFallback => Sys2Proof.Machine.execPatchFallback s
  | .startUp f => Sys2Proof.Machine.execStartUp f s
  | .keyDerive => Sys2Proof.Machine.execKeyDerive s
  | .thermalTrip sensor celsius => Sys2Proof.Machine.execThermalTrip sensor celsius s
  | .mainUv mv heldUs => Sys2Proof.Machine.execMainUv mv heldUs s
  | .mainOv mv heldUs => Sys2Proof.Machine.execMainOv mv heldUs s
  | .controlDomainRestart mv f => Sys2Proof.Machine.execControlDomainRestart mv f s
  | .auxRailLoss mv => Sys2Proof.Machine.execAuxRailLoss mv s
  | .nrstLow ns => Sys2Proof.Machine.execNrstLow ns s
  | .nrstRelease straps => Sys2Proof.Machine.execNrstRelease straps s
  | .syncPoint l0 l1 l2 => Sys2Proof.Machine.execSyncPoint l0 l1 l2 s
  | .resyncComplete digestEqual => Sys2Proof.Machine.execResyncComplete digestEqual s
  | .ilkLaneResync r value => Sys2Proof.Machine.execIlkLaneResync r value s
  | .ilkLaneRetire r value => Sys2Proof.Machine.execIlkLaneRetire r value s
  | .cstRecheck upset => Sys2Proof.Machine.execCstRecheck upset s
  | .attestJob => Sys2Proof.Machine.execAttestJob s
  | .lnkProvArm r ix value => Sys2Proof.Machine.execLnkProvArm r ix value s
  | .tileLinkRetrained t => Sys2Proof.Machine.execTileLinkRetrained t s
  | .modeEntered => Sys2Proof.Machine.execModeEntered s
  | .samplingStart => Sys2Proof.Machine.execSamplingStart s
  | .bootRepeat selfTest => Sys2Proof.Machine.execBootRepeat selfTest s

end Sys2Proof.Machine
end

