-- ==== Sys2Proof/Machine/Datagram.lean ====
section
/-! DEFINITION. The bytes of a BCP request (R318, R340): how a datagram that arrives becomes the command its OPCODE names,
with the operands at their byte offsets, and the datagram that a host sends for a command. -/

namespace Sys2Proof.Machine

/-- Where a datagram comes from, and what its handling meets beside its bytes (R48, R325, R327). -/
structure Origin where
  port : Port
  mac : BitVec 48
  ip : BitVec 32
  udp : BitVec 16
  frameLost : Bool
  ahead : Nat
  deriving DecidableEq, Repr

/-- The field of w bits at a byte offset, most significant byte first (R11). -/
def fieldAt (w : Nat) (l : List Byte) (o : Nat) : BitVec w := BitVec.ofNat w (ofBytes ((l.drop o).take (w / 8)))

/-- A wide time at a byte offset (R233). -/
def wideAt (l : List Byte) (o : Nat) : Wide := ⟨fieldAt 64 l o, fieldAt 32 l (o + 8), fieldAt 16 l (o + 12)⟩

/-- PARAM_LENGTH bytes after the header. -/
def requestParams (l : List Byte) : List Byte := (l.drop 32).take (fieldAt 16 l 16).toNat

/-! ### Layouts (R318, R340) -/

/-- The bits that R340 leaves reserved in an opcode's parameters, byte by byte, and whether bytes may follow them. An
opcode that is not listed has no layout. -/
def reservedBits : Nat → List Byte × Bool
  | 0x0001 => (List.replicate 10 0 ++ [0xFF, 0xFF] ++ List.replicate 16 0, false)
  | 0x0005 => (List.replicate 8 0, false)
  | 0x0007 => ([0, 0xFF, 0xFF, 0xFF], false)
  | 0x0009 => ([0, 0, 0xFE, 0xFF], false)
  | 0x0100 => (List.replicate 6 0 ++ [0xFF, 0xFF], false)
  | 0x0101 => (List.replicate 8 0, false)
  | 0x0102 => (List.replicate 12 0, false)
  | 0x0103 => (List.replicate 4 0, false)
  | 0x0200 => ([0, 0, 0xFF, 0xFF] ++ List.replicate 14 0 ++ [0xFF, 0xFF], false)
  | 0x0201 => ([0xF0, 0xFF, 0xFF, 0xFF], false)
  | 0x0300 => ([0, 0xFF, 0xFF, 0xFF], false)
  | 0x0301 => (List.replicate 14 0 ++ [0xFF, 0xFF], false)
  | 0x0302 => (List.replicate 12 0 ++ List.replicate 4 0xFF, false)
  | 0x0400 => (List.replicate 9 0 ++ List.replicate 7 0xFF ++ List.replicate 8 0, false)
  | 0x0401 => (List.replicate 8 0 ++ [0xFC, 0xFF, 0xFF, 0xFF], false)
  | 0x0403 => (List.replicate 22 0 ++ [0xFF, 0xFF] ++ List.replicate 14 0 ++ [0xFF, 0xFF], false)
  | 0x0404 => (List.replicate 14 0 ++ [0xFF, 0xFF], false)
  | 0x0500 => ([0] ++ List.replicate 7 0xFF ++ List.replicate 22 0 ++ [0xFF, 0xFF], false)
  | 0x0801 => ([0, 0, 0xFF, 0xFF], true)
  | 0x0802 => (List.replicate 32 0, false)
  | 0x0803 | 0x0804 => (List.replicate 6 0 ++ [0xFF, 0xFF], false)
  | 0x0805 => (List.replicate 4 0, true)
  | 0x0806 => (List.replicate 4 0, true)
  | 0x0807 => (List.replicate 68 0, false)
  | 0x0900 => (List.replicate 4 0, false)
  | 0x0A00 => ([0, 0, 0xFF, 0xFF] ++ List.replicate 12 0, false)
  | 0x0A01 => (List.replicate 4 0, false)
  | 0x0002 | 0x0003 | 0x0004 | 0x0006 | 0x0008 | 0x0104 | 0x0303 | 0x0402 | 0x0501 | 0x0600 | 0x0601 | 0x0700 | 0x0701
  | 0x0800 | 0x0901 => ([], false)
  | _ => ([], true)

/-- A reserved parameter bit, or a byte beyond the layout, is set. -/
def reservedSet (op : Nat) (p : List Byte) : Bool :=
  let m := reservedBits op
  (p.mapIdx fun i b => b &&& m.1.getD i (if m.2 then 0 else 0xFF)).any fun b => b != 0

/-! ### Reading -/

/-- The header of a datagram at its offsets, with the CRC-32C recomputed over header and parameters (R318). -/
def readHeader (g : Origin) (l : List Byte) : Req :=
  { port := g.port, mac := g.mac, ip := g.ip, udp := g.udp, udpLen := l.length
    magic := fieldAt 16 l 0, version := fieldAt 8 l 2, flags := fieldAt 8 l 3, target := fieldAt 16 l 6
    seq := fieldAt 32 l 8, session := fieldAt 32 l 12, plen := fieldAt 16 l 16, module := fieldAt 16 l 18
    resv := fieldAt 96 l 20 != 0
    presv := reservedSet (fieldAt 16 l 4).toNat (requestParams l)
    crcOk := fieldAt 32 l (l.length - 4) == crc32c (l.take (l.length - 4))
    frameLost := g.frameLost, ahead := g.ahead }

/-- The command that an opcode names, with its operands at the offsets of R340. -/
def commandOf (r : Req) (p : List Byte) : Nat → Instr
  | 0x0001 =>
    let v (o : Nat) : Byte × Byte := (fieldAt 8 p o, fieldAt 8 p (o + 1))
    .sessionOpen r (v 0) (v 2) (v 4) (v 6) (fieldAt 16 p 8) ((p.drop 12).take 16)
  | 0x0002 => .sessionClose r
  | 0x0004 => .status r
  | 0x0005 => .atnAck r (fieldAt 32 p 0) (fieldAt 32 p 4)
  | 0x0006 => .opStatus r
  | 0x0007 => .modeSet r (fieldAt 8 p 0)
  | 0x0008 => .resetSoft r
  | 0x0009 => .dataSession r (fieldAt 16 p 0) ((fieldAt 8 p 2).getLsbD 0)
  | 0x0100 => .regRead r (fieldAt 32 p 0) (fieldAt 16 p 4)
  | 0x0101 => .regWrite r (fieldAt 32 p 0) (fieldAt 32 p 4)
  | 0x0102 => .regWriteMasked r (fieldAt 32 p 0) (fieldAt 32 p 4) (fieldAt 32 p 8)
  | 0x0103 => .regRead64 r (fieldAt 32 p 0)
  | 0x0104 => .commit r
  | 0x0200 => .pulseArm r (fieldAt 16 p 0) (wideAt p 4)
  | 0x0201 => .rangeCal r ((fieldAt 8 p 0).setWidth 4)
  | 0x0300 => .queueRead r (fieldAt 8 p 0)
  | 0x0301 => .recordRead r (fieldAt 64 p 0) (fieldAt 32 p 8) (fieldAt 16 p 12)
  | 0x0302 => .fetchRecords r (fieldAt 64 p 0) (fieldAt 32 p 8)
  | 0x0303 => .streamAbort r
  | 0x0400 => .hold r (fieldAt 32 p 0) (fieldAt 32 p 4) (fieldAt 8 p 8) (fieldAt 64 p 16)
  | 0x0401 => .drain r (fieldAt 64 p 0) ((fieldAt 8 p 8).getLsbD 0) ((fieldAt 8 p 8).getLsbD 1)
  | 0x0402 => .release r
  | 0x0403 => .fetchRing r (fieldAt 64 p 0) (wideAt p 8) (wideAt p 24)
  | 0x0404 => .unitRead r (fieldAt 64 p 0) (fieldAt 32 p 8) (fieldAt 16 p 12)
  | 0x0500 => .stepTime r (fieldAt 8 p 0) (fieldAt 64 p 8) (wideAt p 16)
  | 0x0501 => .timeRead r
  | 0x0600 => .switchover r
  | 0x0601 => .streamStatus r
  | 0x0700 => .cstInfo r
  | 0x0701 => .cstStore r
  | 0x0800 => .authNonce r
  | 0x0801 => .authLoad r (fieldAt 16 p 0) (p.drop 4)
  | 0x0802 => .attest r (fieldAt 256 p 0)
  | 0x0803 => .attestRead r (fieldAt 32 p 0) (fieldAt 16 p 4)
  | 0x0804 => .pubkeyRead r (fieldAt 32 p 0) (fieldAt 16 p 4)
  | 0x0805 => .otpProgram r (fieldAt 16 p 0) (fieldAt 16 p 2) (p.drop 4)
  | 0x0806 => .fwLoad r (fieldAt 32 p 0) (p.drop 4)
  | 0x0807 => .fwInstall r (fieldAt 32 p 0) (fieldAt 512 p 4)
  | 0x0900 => .budgetSet r (fieldAt 16 p 0) (fieldAt 16 p 2)
  | 0x0901 => .budgetReport r
  | 0x0A00 => .provoke r (fieldAt 8 p 0) (fieldAt 8 p 1) (fieldAt 32 p 4) (fieldAt 16 p 8) (fieldAt 16 p 10) (fieldAt 32 p 12)
  | 0x0A01 => .auditLanes r (fieldAt 32 p 0)
  | op => .nop r (BitVec.ofNat 16 op)

/-- The command that a received datagram stands for. -/
def readDatagram (g : Origin) (l : List Byte) : Instr :=
  commandOf (readHeader g l) (requestParams l) (fieldAt 16 l 4).toNat

/-! ### Writing -/

def wideField (w : Wide) : List Byte :=
  beBytes 8 w.s.toNat ++ beBytes 4 w.ns.toNat ++ beBytes 2 w.fr.toNat ++ beBytes 2 0

/-- Opcode and parameters of a command of R340; none of a command that has its own rows for single registers, or that is no
request. -/
def requestOf : Instr → Option (Req × Nat × List Byte)
  | .sessionOpen r a b c d timeout client =>
    some (r, 0x0001, [a.1, a.2, b.1, b.2, c.1, c.2, d.1, d.2] ++ beBytes 2 timeout.toNat ++ [0, 0] ++ client)
  | .sessionClose r => some (r, 0x0002, [])
  | .nop r opcode => some (r, opcode.toNat, [])
  | .status r => some (r, 0x0004, [])
  | .atnAck r mask replySeq => some (r, 0x0005, beBytes 4 mask.toNat ++ beBytes 4 replySeq.toNat)
  | .opStatus r => some (r, 0x0006, [])
  | .modeSet r mode => some (r, 0x0007, [mode, 0, 0, 0])
  | .resetSoft r => some (r, 0x0008, [])
  | .dataSession r hostPort force => some (r, 0x0009, beBytes 2 hostPort.toNat ++ [if force then 1 else 0, 0])
  | .regRead r address count => some (r, 0x0100, beBytes 4 address.toNat ++ beBytes 2 count.toNat ++ [0, 0])
  | .regWrite r address value => some (r, 0x0101, beBytes 4 address.toNat ++ beBytes 4 value.toNat)
  | .regWriteMasked r address value mask =>
    some (r, 0x0102, beBytes 4 address.toNat ++ beBytes 4 value.toNat ++ beBytes 4 mask.toNat)
  | .regRead64 r address => some (r, 0x0103, beBytes 4 address.toNat)
  | .commit r => some (r, 0x0104, [])
  | .pulseArm r sources launch => some (r, 0x0200, beBytes 2 sources.toNat ++ [0, 0] ++ wideField launch)
  | .rangeCal r tiles => some (r, 0x0201, beBytes 1 tiles.toNat ++ [0, 0, 0])
  | .queueRead r maxCells => some (r, 0x0300, [maxCells, 0, 0, 0])
  | .recordRead r sequence offset length =>
    some (r, 0x0301, beBytes 8 sequence.toNat ++ beBytes 4 offset.toNat ++ beBytes 2 length.toNat ++ [0, 0])
  | .fetchRecords r first count => some (r, 0x0302, beBytes 8 first.toNat ++ beBytes 4 count.toNat ++ [0, 0, 0, 0])
  | .streamAbort r => some (r, 0x0303, [])
  | .hold r pre post store firstSeq =>
    some (r, 0x0400, beBytes 4 pre.toNat ++ beBytes 4 post.toNat ++ [store] ++ List.replicate 7 0 ++ beBytes 8 firstSeq.toNat)
  | .drain r mask store autoRelease =>
    some (r, 0x0401, beBytes 8 mask.toNat ++ beBytes 1 (store.toNat + 2 * autoRelease.toNat) ++ [0, 0, 0])
  | .release r => some (r, 0x0402, [])
  | .fetchRing r mask tStart tEnd => some (r, 0x0403, beBytes 8 mask.toNat ++ wideField tStart ++ wideField tEnd)
  | .unitRead r unitSeq offset length =>
    some (r, 0x0404, beBytes 8 unitSeq.toNat ++ beBytes 4 offset.toNat ++ beBytes 2 length.toNat ++ [0, 0])
  | .stepTime r form offset time =>
    some (r, 0x0500, [form] ++ List.replicate 7 0 ++ beBytes 8 offset.toNat ++ wideField time)
  | .timeRead r => some (r, 0x0501, [])
  | .switchover r => some (r, 0x0600, [])
  | .streamStatus r => some (r, 0x0601, [])
  | .cstInfo r => some (r, 0x0700, [])
  | .cstStore r => some (r, 0x0701, [])
  | .authNonce r => some (r, 0x0800, [])
  | .authLoad r offset chunk => some (r, 0x0801, beBytes 2 offset.toNat ++ [0, 0] ++ chunk)
  | .attest r challenge => some (r, 0x0802, beBytes 32 challenge.toNat)
  | .attestRead r offset length => some (r, 0x0803, beBytes 4 offset.toNat ++ beBytes 2 length.toNat ++ [0, 0])
  | .pubkeyRead r offset length => some (r, 0x0804, beBytes 4 offset.toNat ++ beBytes 2 length.toNat ++ [0, 0])
  | .otpProgram r field length value => some (r, 0x0805, beBytes 2 field.toNat ++ beBytes 2 length.toNat ++ value)
  | .fwLoad r offset chunk => some (r, 0x0806, beBytes 4 offset.toNat ++ chunk)
  | .fwInstall r imageLength digest => some (r, 0x0807, beBytes 4 imageLength.toNat ++ beBytes 64 digest.toNat)
  | .budgetSet r power thermal => some (r, 0x0900, beBytes 2 power.toNat ++ beBytes 2 thermal.toNat)
  | .budgetReport r => some (r, 0x0901, [])
  | .provoke r mode dir n k offset pat =>
    some (r, 0x0A00, [mode, dir, 0, 0] ++ beBytes 4 n.toNat ++ beBytes 2 k.toNat ++ beBytes 2 offset.toNat
      ++ beBytes 4 pat.toNat)
  | .auditLanes r seed => some (r, 0x0A01, beBytes 4 seed.toNat)
  | _ => none

/-- A request's datagram: the 32-byte header, the parameters and the CRC (R318). -/
def datagramOf (r : Req) (op : Nat) (p : List Byte) : List Byte :=
  withCrc <|
    beBytes 2 r.magic.toNat ++ [r.version, r.flags] ++ beBytes 2 op ++ beBytes 2 r.target.toNat ++ beBytes 4 r.seq.toNat
    ++ beBytes 4 r.session.toNat ++ beBytes 2 r.plen.toNat ++ beBytes 2 r.module.toNat ++ beBytes 12 0 ++ p

/-- Where a request comes from. -/
def Origin.ofReq (r : Req) : Origin := ⟨r.port, r.mac, r.ip, r.udp, r.frameLost, r.ahead⟩

/-- A request as a host sends it: no reserved byte set, its length and its CRC those of its parameters. -/
def wellSent (r : Req) (op : Nat) (p : List Byte) : Prop :=
  r.udpLen = 36 + p.length ∧ r.plen.toNat = p.length ∧ r.resv = false ∧ r.crcOk = true ∧ r.presv = reservedSet op p

end Sys2Proof.Machine
end

