-- ==== Sys2Proof/Safety.lean ====
section
/-! DEFINITION. The terms in which claims about runs are stated: a port that gives and takes frames as they are, a
request that the command server executes, a reply that it has cached, what a command leaves alone, and the invariant of
the nonvolatile memories. -/

namespace Sys2Proof.Machine

/-- A port that is up and clocked, with no provocation armed on it and no frame held back (R276, R282, R316). -/
structure State.Quiet (s : State) (p : Nat) : Prop where
  live : s.portLive p = true
  plain : s.bit (Reg.lnkProvCtrl p) 31 = false
  heldTx : lookupK p s.lnk.heldTx = none
  heldRx : lookupK p s.lnk.heldRx = none

/-- What is sent through a port that is quiet leaves at once: a timing-out port with nothing waiting and no frame on the line
(R138, R306). -/
def State.SendsAtOnce (s : State) (p : Nat) : Prop :=
  (p = 3 → s.lnk.qA = [] ∧ s.lnk.oA = [] ∧ s.lnk.busyA ≤ s.tim.now)
  ∧ (p = 5 → s.lnk.qB = [] ∧ s.lnk.oB = [] ∧ s.lnk.busyB ≤ s.tim.now)

/-- The state in which a request executes: the port has counted it, and its session has been heard of (R317, R323). -/
def State.arrived (r : Req) (s : State) : State :=
  (s.countRx r.port).updSession r.session (Session.hear s.tim.now r)

/-- A request of the form `f` that nothing turns away: its port is quiet, R321 finds no fault in it, its session `x` is
open from the same address and has room for it (R325, R327), its SEQUENCE is new (R323, R324), no register frame that it
needs is lost with its replay (R48), and its opcode is accepted in the mode (R340). -/
structure Served (s : State) (f : Form) (r : Req) (x : Session) : Prop where
  quiet : s.Quiet r.port
  sound : s.bcpDrops r = false
  found : s.findSession r.session = some x
  ip : x.ip = r.ip
  udp : x.udp = r.udp
  version : x.version = r.version
  layout : f.malformed r = false
  room : x.crowded r = false
  link : r.frameLost = false
  fresh : x.isNew r.seq = true
  mode : f.modes (s.arrived r) = true

/-- The session has cached the reply to a request under its SEQUENCE, which is now its highest (R324, R326). -/
def Replied (t : State) (r : Req) (op status : BitVec 16) (data : List Byte) : Prop :=
  ∃ y k, t.findSession r.session = some y ∧ y.high = some r.seq
    ∧ y.cache.head? = some ⟨r.seq, op, status, data, k⟩

/-- The command is accepted as a long operation: the reply names its handle, and the session holds it (R329, R342). -/
def Accepted (t : State) (r : Req) (op : BitVec 16) (more : List Byte) : Prop :=
  ∃ h y o, Replied t r op St.accepted (beBytes 2 h ++ beBytes 2 0 ++ more)
    ∧ t.findSession r.session = some y ∧ o ∈ y.ops ∧ o.handle = h ∧ o.opcode = op

/-- Fewer than 16 of a session's operations run (R329). That a DONE operation which has not been read is no longer one of the
16 is the model's reading (log entry 19). -/
def Session.HasRoom (x : Session) : Prop := (x.ops.filter fun (o : Op) => !o.done).length < 16

/-- Registers outside the given addresses hold what they held. -/
def State.KeepsRegs (s t : State) (but : List Nat) : Prop := ∀ a, a ∉ but → t.get a = s.get a

/-- The links keep everything but what waits at the timing-out ports and until when those are taken up (R306). -/
def LnkKept (s t : State) : Prop :=
  t.lnk = { s.lnk with qA := t.lnk.qA, qB := t.lnk.qB, busyA := t.lnk.busyA, busyB := t.lnk.busyB,
                       oA := t.lnk.oA, oB := t.lnk.oB }

/-- A 32-bit counter has counted `n` more, up to its maximum. -/
def Counted (s t : State) (a n : Nat) : Prop := (t.get a).toNat = min (2 ^ 32 - 1) ((s.get a).toNat + n)

/-- A long operation that its session holds is DONE with a final status and a result (R329). -/
def OpEnds (s t : State) (o : OpRef) (final : BitVec 16) (result : List Byte) : Prop :=
  ∀ p, s.findOp o = some p → ∃ q, t.findOp o = some q ∧ q.done = true ∧ q.final = final ∧ q.result = result

/-- The header of a command that is a BCP request. -/
def headerOf : Instr → Option Req
  | .sessionOpen r .. | .sessionClose r | .nop r _ | .status r | .atnAck r .. | .opStatus r | .modeSet r _ | .resetSoft r
  | .dataSession r .. | .regRead r .. | .regWrite r .. | .regWriteMasked r .. | .regRead64 r _ | .commit r
  | .pulseArm r .. | .rangeCal r _ | .queueRead r _ | .recordRead r .. | .fetchRecords r .. | .streamAbort r
  | .hold r .. | .drain r .. | .release r | .fetchRing r .. | .unitRead r .. | .stepTime r .. | .timeRead r
  | .switchover r | .streamStatus r | .cstInfo r | .cstStore r | .authNonce r | .authLoad r .. | .attest r _
  | .attestRead r .. | .pubkeyRead r .. | .otpProgram r .. | .fwLoad r .. | .fwInstall r .. | .budgetSet r ..
  | .budgetReport r | .provoke r .. | .auditLanes r _ | .jctPinWrite r .. | .excitationArm r ..
  | .excitationDisarm r .. | .clearPark r .. | .calCtrlRangeCal r .. | .manualTrimApply r .. | .lnkSwitch r _
  | .exerciseB r _ | .quarantineRelease r _ | .cmpInject r _ | .dptRegionWrite r _ | .dptFlipArm r _
  | .dptFlipAddr r _ | .dptMapflipArm r _ | .dptMapSel r _ | .timSnap r _ | .clkGateHostEng r .. | .clkGateHostMisc r ..
  | .pwrStatRestore r _ | .ilkLaneResync r _ | .ilkLaneRetire r _ | .lnkProvArm r .. => some r
  | _ => none

/-- What holding nRST low leaves (R359, R417): the module is Dormant with every register at its reset value but the RC trim
codes, no session, and the nonvolatile memories, where nothing was being written into them. -/
def HeldInReset (s t : State) : Prop :=
  t.modes.inner = .dormant ∧ t.modes.nrstLow = true ∧ t.bcp = Bcp.reset
  ∧ (s.pers.cst = none → s.pers.install = none → t.nv = s.nv)
  ∧ (∀ a, (∀ n, n < 3 → a ≠ Reg.clkRcStat n) → t.get a = resetValue s.variant s.straps a)
  ∧ (∀ n, n < 3 → t.get (Reg.clkRcStat n) = BitVec.ofNat 32 (s.fld (Reg.clkRcStat n) 9 0))

/-- The nonvolatile memories in canonical form (log entry 3). -/
structure NvWf (s : State) : Prop where
  otp : Mem.wf s.nv.otp
  mram : Mem.wf s.nv.mram

/-- Every OTP bit that was programmed is programmed (R390). -/
def OtpKept (s t : State) : Prop := ∀ a i, (Mem.read s.nv.otp a).getLsbD i = true → (Mem.read t.nv.otp a).getLsbD i = true

end Sys2Proof.Machine
end

