-- ==== Sys2Proof/WellFormed.lean ====
section
/-! DEFINITION. Which commands the surroundings can send: the lengths that frames, reports and parameters have, and rows
that belong to one another. A check here says nothing of a datagram's own defects (R321): those are the server's to find. -/

namespace Sys2Proof

/-- Octets of a sample frame: header, payload and trailer (R310). -/
def frameOctetCount : Nat := 131140

/-- Octets of a switch-stream segment: period number, bits and CRC (R312). -/
def segmentOctetCount : Nat := 1036

/-- Pin levels of a segment: 20 pins on the tile grid and 0.25 ns after it, over 256 periods (R87, R312). -/
def levelsOk (levels : List (List Int)) : Bool :=
  levels.length == 256 && levels.all fun (v : List Int) => v.length == 40

/-- Octets that a link has changed lie in what it carries. -/
def errsOk (n : Nat) (errs : List (Nat × Byte)) : Bool := errs.all fun (x : Nat × Byte) => decide (x.1 < n)

/-- Well-formedness. -/
def Instr.wf : Instr → Bool
  | .sessionOpen _ _ _ _ _ _ client => decide (client.length ≤ 16)
  | .nop r opcode => opcode != 1 && decide (r.udpLen ≤ 9000)
  | .authLoad _ _ chunk => decide (chunk.length ≤ 1432)
  | .fwLoad _ _ chunk => decide (chunk.length ≤ 1432)
  | .otpProgram _ _ _ value => decide (value.length ≤ 1432)
  | .rangeCalDone _ terms => terms.length == 16
  | .sampleFrameReceived _ _ errs _ _ _ => errsOk frameOctetCount errs
  | .switchSegmentReceived _ _ levels link => levelsOk levels && errsOk segmentOctetCount (link.getD [])
  | .lookbackAgeOut _ first last => decide (first ≤ last)
  | .triggerLineMessage _ _ _ bytes => bytes.length == 46
  | .triggerPrimitiveForward _ bytes => bytes.length == 46
  | .transparentClock _ f _ => decide (f.ingress ≤ f.egress)
  | .timetableTick m => m.temps.length == 24
  | .cstRecheck upset => upset.all fun (x : Nat × Byte) => decide (x.1 < 0x200000)
  | .scrubStep upset => upset.all fun (x : Nat × Byte) => decide (x.1 < 72)
  | _ => true

end Sys2Proof
end

