-- ==== Sys2Proof/Certificates/Slice0/Obligations.lean ====
section
/-! DEFINITION. What is claimed of the block, for the provers: the queue and the step, the nonvolatile memories, and for
every command what it does where it completes. Each docstring names the rules it formalises. -/

open Sys2Proof Sys2Proof.Machine

/-! ### The queue and the step -/

/-- A step takes the command at the front of the queue: it is that command's meaning on the state with the queue's rest.
-/
def Obligations.StepRunsTheFrontCommand : Prop :=
  ∀ (c : Instr) (s : State), step { s with pending := c :: s.pending } = exec c s

/-- Model's choice (log entry 2): a step on an empty queue lets one nominal sample period of 0.5 ns pass. Elapsed time
moves on by it and no mode changes; the nonvolatile memories change only where a calibration store goes on to zero its
target's seal (R386; log entry 161). -/
def Obligations.IdleStepPassesOnePeriod : Prop :=
  ∀ s : State, s.pending = [] → ∃ t, step s = .next t ∧ t.pending = [] ∧ t.tim.now = s.tim.now + periodU
    ∧ t.modes = s.modes ∧ t.nv.otp = s.nv.otp
    ∧ (t.nv = s.nv ∨ ∃ j, s.pers.cst = some j ∧ j.zeroed = false ∧ j.zeroAt ≤ t.tim.now
        ∧ t.pers.cst = some { j with zeroed := true }
        ∧ t.nv.mram = Mem.writeBytes (bankAddr j.target + sealOffset) (List.replicate 64 0) s.nv.mram)

/-- Every command answers a next state whose queue is the one it found; only nine commands touch the nonvolatile memories
(R382, R386, R389, R390). -/
def Obligations.CommandsKeepQueueAndNonvolatileMemory : Prop :=
  ∀ (c : Instr) (s : State), ∃ t, exec c s = .next t ∧ t.pending = s.pending
    ∧ (t.nv = s.nv ∨ (∃ mv, c = .auxRailLoss mv) ∨ (∃ ns, c = .nrstLow ns) ∨ c = .softReset ∨ c = .patchFallback
        ∨ (∃ a b d, c = .syncPoint a b d) ∨ (∃ e, c = .resyncComplete e) ∨ (∃ a b, c = .cstStoreComplete a b)
        ∨ (∃ ok, c = .privilegedCheck ok) ∨ (∃ u, c = .cstRecheck u))

/-- R390: an OTP bit that is programmed stays programmed, whatever the step. -/
def Obligations.ProgrammedOtpBitsStay : Prop :=
  ∀ s t : State, step s = .next t → OtpKept s t

/-- The nonvolatile memories keep their canonical form over every step. The form is the model's own representation of them
(log entry 3); what is stored where is R382's and R390's. -/
def Obligations.NonvolatileMemoriesStayCanonical : Prop :=
  ∀ s t : State, NvWf s → step s = .next t → NvWf t

/-- R359, R372, R5, R212, R227, R255: what the registers show right after reset. That the nonvolatile memories are empty
there and in canonical form is the model's choice (log entries 1 and 3). -/
def Obligations.ResetLeavesTheStatedValues : Prop :=
  (NvWf State.reset ∧ State.reset.pending = [] ∧ (∀ a, Mem.read State.reset.nv.otp a = 0))
  ∧ (State.reset.mode = .boot ∧ State.reset.get Reg.ilkIdent = 0x06400101
    ∧ State.reset.get Reg.dptCtrl = 1 ∧ State.reset.get Reg.cmpEngEn = 0xFFFFFFFF ∧ State.reset.get Reg.timStat = 0x80
    ∧ State.reset.get Reg.pwrBudget = 0x009600FA)


/-! ### Sessions, replies, status (R318–R334) -/

/-- R322, R323, R340: SESSION_OPEN adds one session in a free slot with a fresh nonzero id, that of no closed session
whose operations still run; SESSION_CLOSE and SESSION_TIMEOUT take a session away, and its running operations run on
without it; NOP answers OK, and an opcode that R340 does not list BAD_OPCODE. -/
def Obligations.SessionCommandsComplete : Prop :=
  (∀ (s : State) (r : Req) (bcp bdt rec cblk : Byte × Byte) (timeout : BitVec 16) (client : List Byte),
    s.Quiet r.port → s.bcpDrops r = false → r.version = 1 → r.session = 0 →
    (Form.make 0x0001 28 State.inAll).malformed r = false → timeout.toNat ≤ 3600 →
    common bcp = true → common bdt = true → common rec = true → common cblk = true →
    s.bcp.orphans.length < 2 ^ 31 → (∀ o ∈ s.bcp.opened, ¬ (o.ip = r.ip ∧ o.udp = r.udp ∧ o.seq = r.seq)) → s.bcp.sessions.length ≤ 3 →
    ∃ t x, exec (.sessionOpen r bcp bdt rec cblk timeout client) s = .next t
      ∧ t.bcp.sessions = s.bcp.sessions ++ [x] ∧ x.ip = r.ip ∧ x.udp = r.udp ∧ x.slot < 4 ∧ x.cache = []
      ∧ (∀ y ∈ s.bcp.sessions, y.slot ≠ x.slot ∧ y.id ≠ x.id) ∧ x.id ≠ 0
      ∧ (∀ o ∈ s.bcp.orphans, o.1.session ≠ x.id)
      ∧ x.timeout = secU (if timeout = 0 then 10 else timeout.toNat))
  ∧ (∀ (s : State) (r : Req) (x : Session), Served s ⟨0x0002, 0, false, false, true, State.inAll⟩ r x →
      ∃ t, exec (.sessionClose r) s = .next t ∧ t.findSession r.session = none
        ∧ (∀ o ∈ x.ops, o.done = false → (⟨r.session, o.handle⟩, o.opcode) ∈ t.bcp.orphans))
  ∧ (∀ (s : State) (n : Fin 4) (x : Session), s.bcp.sessions.find? (fun (y : Session) => y.slot = n.val) = some x →
      x.last + x.timeout ≤ s.tim.now →
      ∃ t, exec (.sessionTimeout n) s = .next t
        ∧ t.bcp.sessions = s.bcp.sessions.filter (fun (y : Session) => y.id != x.id) ∧ t.regs = s.regs)
  ∧ (∀ (s : State) (r : Req) (x : Session), Served s (Form.make 0x0003 0 State.inAll) r x →
      ∃ t, exec (.nop r 0x0003) s = .next t ∧ Replied t r 0x0003 St.ok [])
  ∧ (∀ (s : State) (r : Req) (x : Session) (op : BitVec 16), op ≠ 0x0003 → listedOpcodes.contains op.toNat = false →
      Served s ⟨op, 0, true, false, false, fun _ => true⟩ { r with presv := false } x →
      ∃ t, exec (.nop r op) s = .next t ∧ Replied t r op St.badOpcode [])

/-- R334, R332, R329, R341: STATUS reports the module, ATN_ACK clears the acknowledged bits whose last event is older than
the named reply, OP_STATUS returns a done result once, RESET_SOFT sets the reset 1 ms ahead. R306, R320, R324: a
served request's reply leaves through the port it came in on, to the address it came from, with its SEQUENCE; at a
timing-out port that sends a frame it waits. Said of STATUS; the other commands answer in the same way. -/
def Obligations.StatusAndAttentionCommandsComplete : Prop :=
  (∀ (s : State) (r : Req) (x : Session), Served s (Form.make 0x0004 0 State.inAll) r x →
    ∃ t, exec (.status r) s = .next t ∧ Replied t r 0x0004 St.ok ((s.arrived r).statusData (x.hear s.tim.now r)))
  ∧ (∀ (s : State) (r : Req) (x : Session) (mask replySeq : Word) (c : Cached),
    Served s (Form.make 0x0005 8 State.inAll) r x → x.cache.find? (fun (d : Cached) => d.seq = replySeq) = some c →
    ∃ t y, exec (.atnAck r mask replySeq) s = .next t ∧ Replied t r 0x0005 St.ok []
      ∧ t.findSession r.session = some y
      ∧ ∀ b, b < 12 → y.atn.getLsbD b
          = (x.atn.getLsbD b && !(mask.getLsbD b && decide ((lookupK b x.atnAt).getD 0 < c.sent))))
  ∧ (∀ (s : State) (r : Req) (x : Session) (o : Op),
    Served s ⟨0x0006, 0, true, false, false, State.inAll⟩ r x →
    x.ops.find? (fun (p : Op) => p.handle = r.target.toNat) = some o → o.done = true →
    ∃ t y, exec (.opStatus r) s = .next t
      ∧ Replied t r 0x0006 St.ok (beBytes 2 o.handle ++ [1] ++ [0] ++ beBytes 2 o.opcode.toNat
          ++ beBytes 2 o.final.toNat ++ beBytes 4 o.progress ++ o.result)
      ∧ t.findSession r.session = some y ∧ y.ops = x.ops.filter (fun (p : Op) => p.handle != r.target.toNat))
  ∧ (∀ (s : State) (r : Req) (x : Session), Served s (Form.make 0x0008 0 State.inAll) r x →
    ∃ t, exec (.resetSoft r) s = .next t ∧ Replied t r 0x0008 St.ok [] ∧ t.bcp.resetAt = some (s.bcp.resetAt.getD (s.tim.now + msU 1)))
  ∧ (∀ (s : State) (r : Req) (x : Session) (data : List Byte), Served s (Form.make 0x0004 0 State.inAll) r x →
    data = (s.arrived r).statusData (x.hear s.tim.now r) →
    ∃ t att y, exec (.status r) s = .next t ∧ s.KeepsRegs t [Reg.lnkPortRx r.port]
      ∧ y = .reply r.port r.mac r.ip r.udp 0x0004 St.ok false r.seq r.session att r.version data
      ∧ (s.SendsAtOnce r.port → t.tx = s.tx ++ [y])
      ∧ (r.port = 3 → s.tim.now < s.lnk.busyA → t.tx = s.tx ∧ t.lnk.oA = s.lnk.oA ++ [(y, 82 + data.length)])
      ∧ (r.port = 5 → s.tim.now < s.lnk.busyB → t.tx = s.tx ∧ t.lnk.oB = s.lnk.oB ++ [(y, 82 + data.length)]))

/-- R324, R326: a request whose SEQUENCE is not new to its session executes nothing. Whatever command it carries, no
register but the port's counter of received frames changes, and no unit's state changes. R325, R327: a repeat of a
request that has no reply yet, and one that finds 16 waiting, is dropped without a reply, and the session has been
heard of; that no drop counter counts it is the model's choice (log entry 11). R48: a tile access whose register frame
is lost with its replay answers LINK_FAULT; which accesses lose it is an operand (log entry 147). R321: a datagram
with a wrong MAGIC, length, CRC or module address, or with RESPONSE set, is dropped: the port's received and dropped
counters count it and nothing answers, whatever command it carries. -/
def Obligations.UnexecutedRequestsChangeNothingElse : Prop :=
  (∀ (c : Instr) (r : Req) (s : State) (x : Session), headerOf c = some r →
    (∀ a b d e f g h, c ≠ .sessionOpen a b d e f g h) → s.Quiet r.port → s.findSession r.session = some x →
    x.ip = r.ip → x.udp = r.udp → s.bcpDrops r = false → x.isNew r.seq = false →
    ∃ t, exec c s = .next t ∧ s.KeepsRegs t [Reg.lnkPortRx r.port] ∧ t.modes = s.modes ∧ t.tiles = s.tiles
      ∧ t.sbx = s.sbx ∧ t.que = s.que ∧ t.dpt = s.dpt ∧ t.cmp = s.cmp ∧ t.tim = s.tim ∧ t.clk = s.clk ∧ t.ilk = s.ilk
      ∧ t.nv = s.nv ∧ t.pers = s.pers ∧ t.tt = s.tt ∧ t.shadow = s.shadow)
  ∧ (∀ (r : Req) (s : State) (x : Session), s.Quiet r.port → s.bcpDrops r = false → s.findSession r.session = some x →
    x.ip = r.ip → x.udp = r.udp → x.version = r.version → (Form.make 0x0004 0 State.inAll).malformed r = false →
    ((r.seq, true) ∈ x.taken.take r.ahead ∨ 17 ≤ (x.taken.take r.ahead).length) →
    ∃ t, exec (.status r) s = .next t ∧ t.tx = s.tx ∧ s.KeepsRegs t [Reg.lnkPortRx r.port] ∧ t.lnk = s.lnk
      ∧ t.findSession r.session = some { x with last := s.tim.now })
  ∧ (∀ (s : State) (r : Req) (x : Session) (f : Form) (a v : Word), f = Form.make 0x0101 8 State.inAll → s.Quiet r.port → s.bcpDrops r = false → s.findSession r.session = some x → x.ip = r.ip → x.udp = r.udp →
    x.version = r.version → f.malformed r = false → x.crowded r = false → x.isNew r.seq = true →
    f.modes (s.arrived r) = true → r.frameLost = true → 0x100000 ≤ a.toNat → (s.arrived r).addrRefused a.toNat = none →
    ∃ t, exec (.regWrite r a v) s = .next t ∧ Replied t r 0x0101 St.linkFault []
      ∧ s.KeepsRegs t [Reg.lnkPortRx r.port] ∧ t.tiles = s.tiles)
  ∧ (∀ (c : Instr) (r : Req) (s : State), headerOf c = some r → s.Quiet r.port → (∀ a o, c ≠ .nop a o) →
    s.bcpDrops r = true →
    ∃ t, exec c s = .next t ∧ t.tx = s.tx ∧ t.bcp = s.bcp ∧ s.KeepsRegs t [Reg.lnkPortRx r.port, Reg.lnkPortDrop r.port]
      ∧ (t.get (Reg.lnkPortDrop r.port)).toNat = min (2 ^ 32 - 1) ((s.get (Reg.lnkPortDrop r.port)).toNat + 1))


/-! ### Modes, start-up and trips (R346–R359, R378, R394) -/

/-- R341, R349, R354, R356: a MODE_SET whose transition R349 permits is accepted and the transition stands until the mode
is entered; one that R349 does not permit is answered WRONG_MODE, and a second one during a transition BUSY_RUNNING,
with no effect; Safe is accepted during a transition too. That a transition is checked for before R349 is the model's
reading (log entry 24). -/
def Obligations.ModeSetIsAcceptedOrRejected : Prop :=
  (∀ (s : State) (r : Req) (x : Session) (mode : Byte) (m : Mode), Served s (Form.make 0x0007 1 State.inAll) r x →
    x.HasRoom → modeOf mode.toNat = some m → m ≠ .safe → s.modes.inner ≠ .safe → s.modes.trans = none →
    permitted s.modes.inner s.modes.base m = true → (s.modes.inner = .calibrate → s.rangeBusy = false) →
    ∃ t tr, exec (.modeSet r mode) s = .next t ∧ Accepted t r 0x0007 [] ∧ t.modes.trans = some tr ∧ tr.target = m
      ∧ tr.base = baseFor s.modes.inner m ∧ t.modes.inner = s.modes.inner)
  ∧ (∀ (s : State) (r : Req) (x : Session) (mode : Byte) (m : Mode), Served s (Form.make 0x0007 1 State.inAll) r x →
    x.HasRoom → modeOf mode.toNat = some m → (m = .standby ∨ m = .update) → s.modes.inner = .safe → s.modes.trans = none →
    s.bit Reg.clkStat 10 = false → (s.modes.thermal = true → s.stillHot = false) →
    ∃ t tr, exec (.modeSet r mode) s = .next t ∧ Accepted t r 0x0007 [] ∧ t.modes.trans = some tr ∧ tr.target = m
      ∧ t.fld Reg.pwrStart 27 24 = 0 ∧ (m = .standby → t.modes.staySafe = false))
  ∧ (∀ (s : State) (r : Req) (x : Session) (mode : Byte), Served s (Form.make 0x0007 1 State.inAll) r x →
    x.HasRoom → modeOf mode.toNat = some .safe → permitted s.modes.inner s.modes.base .safe = true →
    ∃ t tr, exec (.modeSet r mode) s = .next t ∧ Accepted t r 0x0007 [] ∧ t.modes.trans = some tr ∧ tr.target = .safe)
  ∧ (∀ (s : State) (r : Req) (x : Session) (mode : Byte) (m : Mode), Served s (Form.make 0x0007 1 State.inAll) r x →
    modeOf mode.toNat = some m → permitted s.modes.inner s.modes.base m = false → (m ≠ .safe → s.modes.trans = none) →
    ∃ t, exec (.modeSet r mode) s = .next t ∧ Replied t r 0x0007 St.wrongMode [] ∧ t.modes = s.modes)
  ∧ (∀ (s : State) (r : Req) (x : Session) (mode : Byte) (m : Mode), Served s (Form.make 0x0007 1 State.inAll) r x →
    modeOf mode.toNat = some m → m ≠ .safe → s.modes.trans.isSome = true →
    ∃ t, exec (.modeSet r mode) s = .next t ∧ Replied t r 0x0007 St.busyRunning [] ∧ t.modes = s.modes)

/-- R341, R346, R347, R349, R352: a transition that does not wait for sampling to stop enters its target with its base,
and its MODE_SET ends with the mode entered; Safe leaves no tile, no Depot and no data domain powered and is stayed
in, Update no tile and no data domain. While a cause stands, Degraded is left for Safe only. -/
def Obligations.ModesAreEntered : Prop :=
  ∀ (s : State) (x : Trans), s.modes.trans = some x → (s.modes.inner = .safe → x.target = .safe) →
    (x.ends = false ∨ (x.target = .safe ∧ s.modes.sampling = false)) →
    ∃ t, exec .modeEntered s = .next t ∧ t.modes.inner = x.target ∧ t.modes.base = x.base ∧ t.modes.trans = none
      ∧ t.modes.lastFrom = s.mode ∧ (∀ o, x.op = some o → OpEnds s t o St.ok (beBytes 1 t.mode.code))
      ∧ (s.mode = .degraded → t.fld Reg.pwrDegraded 2 0 ≠ 0 →
          (x.target = .update ∨ (3 ≤ x.target.code ∧ x.target.code ≤ 9)) → t.mode = .degraded)
      ∧ (x.target = .safe → t.modes.staySafe = true ∧ t.modes.tiles = 0 ∧ t.modes.depot = false ∧ t.modes.data = false)
      ∧ (x.target = .update → t.modes.tiles = 0 ∧ t.modes.data = false)

/-- R232, R350: sampling starts with the grid on a multiple of 0.5 ns of module time, and stops at a frame boundary, no
window being open, with the new mode. -/
def Obligations.SamplingStartsAndStops : Prop :=
  (∀ s : State, s.modes.startPending = true → s.modes.sampling = false → s.pllLocked = true → s.stopped = false →
    s.sbx.closing = [] →
    ∃ t, exec .samplingStart s = .next t ∧ t.modes.sampling = true ∧ t.modes.startPending = false
      ∧ t.sbx.t0 = roundUp s.tim.mt periodU ∧ t.modes.inner = s.modes.inner ∧ t.tim = s.tim)
  ∧ (∀ (s : State) (x : Trans), s.modes.trans = some x → x.ends = true → s.modes.sampling = true →
    s.sbx.period % framePeriods = 0 → x.first ≤ s.sbx.period → s.anyOpen = false →
    ∃ t, exec .samplingStop s = .next t ∧ t.modes.sampling = false ∧ t.modes.inner = x.target ∧ t.modes.base = x.base
      ∧ t.modes.trans = none)

/-- R355, R356: start-up from Safe with its voltages, locks and links present ends in Standby with STEP 8; a power-good
missing in step 3 leaves the module in Safe with FAIL_STEP 3, a tile link that does not train with FAIL_STEP 6, a
fitted stack that does not train with FAIL_STEP 7 and FAULT in its register (R182). A failed step is a transition from
Safe to Safe (R351). A MODE_SET to Standby whose control domain runs already resumes start-up and ends in Standby too.
-/
def Obligations.StartUpReachesStandby : Prop :=
  (∀ (s : State) (f : StartFacts), s.modes.inner = .safe → s.modes.trans = none → s.modes.staySafe = false →
    s.modes.control = false → s.fld Reg.pwrStart 27 24 = 0 → s.bit Reg.clkStat 10 = false → 10800 ≤ f.mainMv →
    f.railFail = false → f.locked = true → f.tilesTrained = 0xF → f.stacksTrained = 0xF →
    ∃ t, exec (.startUp f) s = .next t ∧ t.modes.inner = .standby ∧ t.modes.base = .standby ∧ t.modes.tiles = 0xF
      ∧ t.modes.control = true ∧ t.modes.data = true ∧ t.modes.depot = true ∧ t.modes.att = true
      ∧ t.fld Reg.pwrStart 31 28 = 8 ∧ t.fld Reg.pwrStart 15 0 = f.elapsedMs.toNat ∧ t.tt.running = true)
  ∧ (∀ (s : State) (f : StartFacts), s.modes.inner = .safe → s.modes.trans = none → s.modes.staySafe = false →
    s.modes.control = false → s.fld Reg.pwrStart 27 24 = 0 → s.bit Reg.clkStat 10 = false → 10800 ≤ f.mainMv →
    f.railFail = true →
    ∃ t, exec (.startUp f) s = .next t ∧ t.modes.inner = .safe ∧ t.modes.control = false
      ∧ t.fld Reg.pwrStart 27 24 = 3 ∧ t.modes.trans = none)
  ∧ (∀ (s : State) (f : StartFacts), s.modes.inner = .safe → s.modes.trans = none → s.modes.staySafe = false →
    s.modes.control = false → s.fld Reg.pwrStart 27 24 = 0 → s.bit Reg.clkStat 10 = false → 10800 ≤ f.mainMv →
    f.railFail = false → f.locked = true → f.tilesTrained ≠ 0xF →
    ∃ t, exec (.startUp f) s = .next t ∧ t.modes.inner = .safe ∧ t.modes.tiles = 0 ∧ t.modes.depot = false
      ∧ t.fld Reg.pwrStart 27 24 = 6 ∧ t.modes.trans = none ∧ t.modes.lastFrom = .safe)
  ∧ (∀ (s : State) (f : StartFacts) (k : Nat), s.modes.inner = .safe → s.modes.trans = none → s.modes.staySafe = false →
    s.modes.control = false → s.fld Reg.pwrStart 27 24 = 0 → s.bit Reg.clkStat 10 = false → 10800 ≤ f.mainMv →
    f.railFail = false → f.locked = true → f.tilesTrained = 0xF → k < s.fitted / 131072 → f.stacksTrained.getLsbD k = false →
    ∃ t, exec (.startUp f) s = .next t ∧ t.modes.inner = .safe ∧ t.modes.tiles = 0 ∧ t.modes.depot = false
      ∧ t.modes.data = false ∧ t.fld Reg.pwrStart 27 24 = 7 ∧ t.modes.trans = none ∧ t.modes.lastFrom = .safe
      ∧ t.get (Reg.dptStackStat k) = 9)
  ∧ (∀ (s : State) (f : StartFacts) (x : Trans), s.modes.inner = .safe → s.modes.trans = some x → x.target = .standby →
    x.base = .standby → s.modes.control = true → s.pllLocked = true → s.bit Reg.clkStat 10 = false → 10800 ≤ f.mainMv →
    f.tilesTrained = 0xF → f.stacksTrained = 0xF →
    ∃ t, exec (.startUp f) s = .next t ∧ t.modes.inner = .standby ∧ t.modes.base = .standby ∧ t.modes.tiles = 0xF
      ∧ t.modes.data = true ∧ t.modes.depot = true ∧ t.modes.trans = none ∧ t.fld Reg.pwrStart 31 28 = 8
      ∧ t.tt.running = true)

/-- R357, R275: a trip enters Safe at once and stays there, latches its bit in PWR_TRIP and powers tiles, Depot and data
domain off; a rail trip and a fault of the PLL's core power the control domain off as well. After a rail trip the
control domain alone comes up again once the rail is back. -/
def Obligations.TripsEnterSafe : Prop :=
  (∀ (s : State) (n : Fin 24) (c : Int), s.fromSafeOn = true → s.modes.control = true → s.sensorOn n = true → 155 ≤ c →
    ∃ t, exec (.thermalTrip n c) s = .next t ∧ t.modes.inner = .safe ∧ t.modes.staySafe = true ∧ t.modes.thermal = true
      ∧ t.bit Reg.pwrTrip 0 = true ∧ t.modes.tiles = 0 ∧ t.modes.depot = false ∧ t.modes.data = false
      ∧ t.modes.att = false ∧ t.modes.control = true)
  ∧ (∀ (s : State) (mv held : Nat), s.fromSafeOn = true → s.modes.control = true → mv < 10500 → 20 ≤ held →
    ∃ t, exec (.mainUv mv held) s = .next t ∧ t.modes.inner = .safe ∧ t.modes.staySafe = true ∧ t.bit Reg.pwrTrip 1 = true
      ∧ t.modes.tiles = 0 ∧ t.modes.depot = false ∧ t.modes.data = false ∧ t.modes.control = false
      ∧ t.fld Reg.pwrStart 31 28 = 2)
  ∧ (∀ (s : State) (mv held : Nat), s.fromSafeOn = true → s.modes.control = true → 13600 < mv → 20 ≤ held →
    ∃ t, exec (.mainOv mv held) s = .next t ∧ t.modes.inner = .safe ∧ t.modes.staySafe = true ∧ t.bit Reg.pwrTrip 2 = true
      ∧ t.modes.tiles = 0 ∧ t.modes.depot = false ∧ t.modes.data = false ∧ t.modes.control = false
      ∧ t.fld Reg.pwrStart 31 28 = 2)
  ∧ (∀ s : State, s.fromSafeOn = true → s.modes.control = true →
    ∃ t, exec .coreFault s = .next t ∧ t.modes.inner = .safe ∧ t.modes.staySafe = true ∧ t.bit Reg.pwrTrip 3 = true
      ∧ t.modes.tiles = 0 ∧ t.modes.depot = false ∧ t.modes.data = false ∧ t.modes.control = false
      ∧ t.bit Reg.clkStat 10 = true)
  ∧ (∀ (s : State) (mv : Nat) (f : StartFacts), s.modes.inner = .safe → s.modes.staySafe = true → s.modes.trans = none →
    s.bit Reg.clkStat 10 = false → 10800 ≤ mv → mv ≤ 13200 → s.modes.control = false → f.railFail = false →
    ∃ t, exec (.controlDomainRestart mv f) s = .next t ∧ t.modes.inner = .safe ∧ t.modes.control = true
      ∧ t.modes.mainMv = mv ∧ t.modes.staySafe = true ∧ t.modes.depot = s.modes.depot ∧ t.modes.tiles = s.modes.tiles)

/-- R359, R351, R417: a soft reset, the release of nRST and the return of the auxiliary rail put the module into Boot with
their cause, nRST low or the loss of the auxiliary rail into Dormant. After each of them no session is left and every
register shows its reset value, those of the address as the straps read at that entry into Boot, but for the cause and
the RC trim codes: those stay, are loaded from OTP when the rail returns, and go with the rail. What the straps read
at a soft reset is a free value (log entry 105). A pulse of nRST under 0.5 µs does nothing; one of 0.5 µs to 1 µs
resets in full or does nothing. -/
def Obligations.ResetsRestoreResetValues : Prop :=
  (∀ (s : State) (at_ : Nat), s.bcp.resetAt = some at_ → at_ ≤ s.tim.now →
    ∃ t, exec .softReset s = .next t ∧ t.modes.inner = .boot ∧ t.get Reg.ilkResetCause = 2 ∧ t.bcp = Bcp.reset
      ∧ (s.pers.cst = none → s.pers.install = none → t.nv = s.nv) ∧ t.tim.now = s.tim.now
      ∧ (∀ a, a ≠ Reg.ilkResetCause → (∀ n, n < 3 → a ≠ Reg.clkRcStat n) → t.get a = resetValue s.variant t.straps a)
      ∧ (∀ n, n < 3 → t.get (Reg.clkRcStat n) = BitVec.ofNat 32 (s.fld (Reg.clkRcStat n) 9 0)))
  ∧ (∀ (s : State) (ns : Nat), 1000 ≤ ns → s.modes.nrstLow = false → 2800 ≤ s.modes.auxMv →
    ∃ t, exec (.nrstLow ns) s = .next t ∧ HeldInReset s t)
  ∧ (∀ (s : State) (ns : Nat), ns < 500 → exec (.nrstLow ns) s = .next s)
  ∧ (∀ (s : State) (ns : Nat), 500 ≤ ns → ns < 1000 → s.modes.nrstLow = false → 2800 ≤ s.modes.auxMv →
    ∃ t, exec (.nrstLow ns) s = .next t ∧ (t = s.takeFree.2 ∨ HeldInReset s t))
  ∧ (∀ (s : State) (ns : Nat), 500 ≤ ns → s.modes.nrstLow = false → s.modes.auxMv < 2800 →
    exec (.nrstLow ns) s = .next { s with modes := { s.modes with nrstLow := true } })
  ∧ (∀ (s : State) (straps : BitVec 12), s.modes.nrstLow = true → 2800 ≤ s.modes.auxMv →
    ∃ t, exec (.nrstRelease straps) s = .next t ∧ t.modes.inner = .boot ∧ t.modes.nrstLow = false
      ∧ t.get Reg.ilkResetCause = 1 ∧ t.straps = straps ∧ t.bcp = Bcp.reset
      ∧ (∀ a, a ≠ Reg.ilkResetCause → (∀ n, n < 3 → a ≠ Reg.clkRcStat n) → t.get a = resetValue s.variant straps a)
      ∧ (∀ n, n < 3 → t.get (Reg.clkRcStat n) = BitVec.ofNat 32 (s.fld (Reg.clkRcStat n) 9 0)))
  ∧ (∀ (s : State) (mv : Nat) (straps : BitVec 12), s.modes.inner = .dormant → s.modes.auxMv < 2800 → 3000 ≤ mv →
    ∃ t, exec (.auxRailUp mv straps) s = .next t ∧ t.straps = straps ∧ t.modes.auxMv = mv ∧ t.bcp = Bcp.reset
      ∧ t.modes.inner = (if s.modes.nrstLow then .dormant else .boot)
      ∧ t.get Reg.ilkResetCause = 0
      ∧ (∀ a, a ≠ Reg.ilkResetCause → (∀ n, n < 3 → a ≠ Reg.clkRcStat n) → t.get a = resetValue s.variant straps a)
      ∧ (∀ n, n < 3 → t.get (Reg.clkRcStat n) = BitVec.ofNat 32 (Mem.num s.nv.otp (36 + 2 * n) 2 % 1024)))
  ∧ (∀ (s : State) (mv : Nat), mv < 2800 → s.modes.inner ≠ .dormant →
    ∃ t, exec (.auxRailLoss mv) s = .next t ∧ t.modes.inner = .dormant ∧ t.modes.control = false ∧ t.modes.depot = false
      ∧ t.modes.tiles = 0 ∧ t.bcp = Bcp.reset ∧ (s.pers.cst = none → s.pers.install = none → t.nv = s.nv)
      ∧ (∀ a, t.get a = resetValue s.variant s.straps a))

/-- R351, R355, R378, R391, R394: Boot ends in Safe with module time at 0 and the firmware named in ILK_BOOT; a patch that
has not come up 45 ms into Boot is marked and ROM firmware runs; with fewer than two lanes in the voter Boot is
repeated every 1 s. A lane that fails its self-test, or that the voter has retired, does not vote. An event of Boot
that comes in another mode has no effect: model's choice (log entry 8). -/
def Obligations.BootReachesSafe : Prop :=
  (∀ (s : State) (ok : BitVec 3) (patchOk : Bool), s.modes.inner ≠ .boot →
    exec (.bootComplete ok patchOk) s = .next s ∧ exec .patchFallback s = .next s ∧ exec (.bootRepeat ok) s = .next s)
  ∧ (∀ (s : State) (ok : BitVec 3) (patchOk : Bool), s.modes.inner = .boot →
    2 ≤ (s.loadIdentity.bootLanes ok).votingLanes.length → (s.loadIdentity.bootLanes ok).patchEn = false →
    ∃ t, exec (.bootComplete ok patchOk) s = .next t ∧ t.modes.inner = .safe ∧ t.modes.base = .safe ∧ t.tim.mt = 0
      ∧ t.fld Reg.ilkBoot 14 12 = 4 ∧ t.get Reg.ilkPatchGen = 0
      ∧ (∀ l, l < 3 → t.fld Reg.ilkLaneStat (4 * l + 2) (4 * l) = if ok.getLsbD l && !s.votedOut l then 1 else 4))
  ∧ (∀ (s : State) (ok : BitVec 3) (patchOk : Bool), s.modes.inner = .boot →
    2 ≤ (s.loadIdentity.bootLanes ok).votingLanes.length → (s.loadIdentity.bootLanes ok).patchEn = true →
    (patchOk = true ∨ (s.loadIdentity.bootLanes ok).bestPatch = none) →
    ∃ t, exec (.bootComplete ok patchOk) s = .next t ∧ t.modes.inner = .safe ∧ t.tim.mt = 0
      ∧ (∀ k g, (s.loadIdentity.bootLanes ok).bestPatch = some (k, g) →
          t.fld Reg.ilkBoot 14 12 = 1 ∧ t.fld Reg.ilkBoot 9 8 = k ∧ t.get Reg.ilkPatchGen = BitVec.ofNat 32 g)
      ∧ ((s.loadIdentity.bootLanes ok).bestPatch = none → t.get Reg.ilkPatchGen = 0
          ∧ t.fld Reg.ilkBoot 14 12 = (if s.slotHolds 0 || s.slotHolds 1 then 2 else 0)))
  ∧ (∀ s : State, s.modes.inner = .boot → s.loadIdentity.patchEn = true → s.ilk.bootAt + msU 45 ≤ s.tim.now →
    2 ≤ s.votingLanes.length →
    ∃ t, exec .patchFallback s = .next t ∧ t.nv.otp = s.nv.otp
      ∧ (∀ k g, s.loadIdentity.bestPatch = some (k, g) → t.modes.inner = .safe ∧ t.fld Reg.ilkBoot 14 12 = 3
          ∧ t.get Reg.ilkPatchGen = 0 ∧ Mem.num t.nv.mram (slotSeal k + 72) 4 = 0x4641494C)
      ∧ (s.loadIdentity.bestPatch = none → t = s))
  ∧ (∀ (s : State) (ok : BitVec 3), s.modes.inner = .boot → (s.bootLanes ok).votingLanes.length < 2 →
    s.ilk.bootAt + secU 1 ≤ s.tim.now →
    ∃ t, exec (.bootRepeat ok) s = .next t ∧ t.modes = s.modes ∧ t.ilk.bootAt = s.tim.now
      ∧ (∀ l, l < 3 → t.fld Reg.ilkLaneStat (4 * l + 2) (4 * l) = if ok.getLsbD l && !s.votedOut l then 1 else 4)
      ∧ s.KeepsRegs t [Reg.ilkLaneStat, Reg.pwrDegraded])

/-- R48, R313, R353: a tile link that loses alignment trains again; one that retrains is up; one that has not for 1 s
loses its tile, which is then tried again every 10 s. Once it trains it is powered, unless the shed steps in force
leave it no channel to sample (R368), and what they shed of it stays shed. -/
def Obligations.TileLinksAreLostAndRegained : Prop :=
  (∀ (s : State) (t : Tile), s.tilePowered t = true → s.bit (Reg.lnkTlStat t) 0 = true → s.tileTraining t = false →
    ∃ u, exec (.laneAlignmentLoss t) s = .next u ∧ u.tileTraining t = true ∧ u.bit (Reg.lnkTlStat t) 0 = false
      ∧ (u.tile t).trainSince = s.tim.now ∧ s.KeepsRegs u [Reg.lnkTlStat t])
  ∧ (∀ (s : State) (t : Tile), s.tileTraining t = true → s.bit Reg.pwrDegraded (4 + t.val) = false →
    ∃ u, exec (.tileLinkRetrained t) s = .next u ∧ u.tileTraining t = false ∧ u.bit (Reg.lnkTlStat t) 0 = true
      ∧ s.KeepsRegs u [Reg.lnkTlStat t])
  ∧ (∀ (s : State) (t : Tile), s.tilePowered t = true → s.tileTraining t = true →
    (s.tile t).trainSince + secU 1 ≤ s.tim.now → s.tilesMode = true →
    ∃ u, exec (.tileLost t) s = .next u ∧ u.tilePowered t = false ∧ u.bit Reg.pwrDegraded (4 + t.val) = true
      ∧ u.bit Reg.pwrDegraded 2 = true ∧ (u.tile t).retryAt = s.tim.now + secU 10 ∧ u.modes.inner = s.modes.inner)
  ∧ (∀ (s : State) (t : Tile), s.bit Reg.pwrDegraded (4 + t.val) = true → (s.tile t).retryAt ≤ s.tim.now →
    s.tilesMode = true →
    ∃ u, exec (.tileRetry t false) s = .next u ∧ (u.tile t).retryAt = s.tim.now + secU 10 ∧ u.regs = s.regs
      ∧ u.modes = s.modes)
  ∧ (∀ (s : State) (t : Tile) (mine : BitVec 16), s.bit Reg.pwrDegraded (4 + t.val) = true →
    (s.tile t).retryAt ≤ s.tim.now → s.tilesMode = true → mine = (s.stepsShed >>> (16 * t.val)).setWidth 16 →
    ((s.shedChans >>> (16 * t.val)).setWidth 16 : BitVec 16) = 0xFFFF →
    ∃ u, exec (.tileRetry t true) s = .next u ∧ u.bit Reg.pwrDegraded (4 + t.val) = false
      ∧ ((u.shedChans >>> (16 * t.val)).setWidth 16 : BitVec 16) = mine
      ∧ (mine ≠ 0xFFFF → (s.enabledMask t = 0 ∨ s.enabledMask t &&& ~~~mine ≠ 0) → u.tilePowered t = true)
      ∧ (s.enabledMask t ≠ 0 → s.enabledMask t &&& ~~~mine = 0 → u.tilePowered t = false))

/-! ### Registers (R13–R17, R46–R50, R335–R339) -/

/-- R335, R338: REG_READ answers the values of consecutive registers; a LO register's read also takes the snapshot that
its HI register then returns; REG_READ64 answers both halves, HI first; an address that cannot be reached is answered
with its status and nothing is read. No register changes but the port's counter. -/
def Obligations.RegisterReadsReturnTheValues : Prop :=
  (∀ (s : State) (r : Req) (x : Session) (a : Word) (n : BitVec 16), Served s (Form.make 0x0100 6 State.inAll) r x →
    1 ≤ n.toNat → n.toNat ≤ 256 →
    (∀ i, i < n.toNat → s.addrRefused (a.toNat + 4 * i) = none ∧ pairLo (a.toNat + 4 * i) = false
      ∧ x.snaps.find (a.toNat + 4 * i) = none) →
    ∃ t, exec (.regRead r a n) s = .next t ∧ s.KeepsRegs t [Reg.lnkPortRx r.port]
      ∧ Replied t r 0x0100 St.ok (beBytes 2 n.toNat ++ beBytes 2 0
          ++ ((List.range n.toNat).map fun i => (s.arrived r).view (a.toNat + 4 * i)).flatMap fun (w : Word) => beBytes 4 w.toNat))
  ∧ (∀ (s : State) (r : Req) (x : Session) (a : Word), Served s (Form.make 0x0100 6 State.inAll) r x →
    s.addrRefused a.toNat = none → s.addrRefused (a.toNat + 4) = none → pairLo a.toNat = true →
    pairLo (a.toNat + 4) = false →
    ∃ t y, exec (.regRead r a 2) s = .next t ∧ s.KeepsRegs t [Reg.lnkPortRx r.port]
      ∧ t.findSession r.session = some y ∧ y.snaps.find (a.toNat + 4) = some ((s.arrived r).view (a.toNat + 4))
      ∧ Replied t r 0x0100 St.ok (beBytes 2 2 ++ beBytes 2 0 ++ beBytes 4 ((s.arrived r).view a.toNat).toNat
          ++ beBytes 4 ((s.arrived r).view (a.toNat + 4)).toNat))
  ∧ (∀ (s : State) (r : Req) (x : Session) (a : Word), Served s (Form.make 0x0103 4 State.inAll) r x →
    pairLo a.toNat = true → s.addrRefused a.toNat = none →
    ∃ t, exec (.regRead64 r a) s = .next t ∧ s.KeepsRegs t [Reg.lnkPortRx r.port]
      ∧ Replied t r 0x0103 St.ok (beBytes 4 ((s.arrived r).view (a.toNat + 4)).toNat
          ++ beBytes 4 ((s.arrived r).view a.toNat).toNat))
  ∧ (∀ (s : State) (r : Req) (x : Session) (a : Word) (st : BitVec 16), Served s (Form.make 0x0100 6 State.inAll) r x →
    s.addrRefused a.toNat = some st →
    ∃ t, exec (.regRead r a 1) s = .next t ∧ Replied t r 0x0100 st [0, 0, 0, 0])

/-- R46, R47, R336: a REG_WRITE that is answered with anything but OK or GATE_BUSY has no effect, whatever its address and
value: no register, no shadow and no unit changes. -/
def Obligations.RejectedWritesChangeNothing : Prop :=
  (∀ (s : State) (r : Req) (x : Session) (a v : Word) (st : BitVec 16), Served s (Form.make 0x0101 8 State.inAll) r x →
    ((s.arrived r).regWriteOpen a v (x.hear s.tim.now r)).1 = st → st ≠ St.ok → st ≠ St.gateBusy →
    ∃ t, exec (.regWrite r a v) s = .next t ∧ Replied t r 0x0101 st []
      ∧ s.KeepsRegs t [Reg.lnkPortRx r.port] ∧ t.shadow = s.shadow ∧ t.modes = s.modes ∧ t.tiles = s.tiles ∧ t.sbx = s.sbx
      ∧ t.que = s.que ∧ t.dpt = s.dpt ∧ t.cmp = s.cmp ∧ t.tim = s.tim ∧ t.clk = s.clk ∧ t.ilk = s.ilk ∧ t.pers = s.pers
      ∧ t.tt = s.tt ∧ t.bcp.latches = s.bcp.latches)
  ∧ (∀ (s : State) (r : Req) (x : Session) (a v : Word) (st : BitVec 16), Served s (Form.make 0x0101 8 State.inAll) r x →
    s.addrRefused a.toNat = some st → ∃ t, exec (.regWrite r a v) s = .next t ∧ Replied t r 0x0101 st [])

/-- R15, R70, R82, R336, R337, R339: a write of a threshold goes into the shadow alone and marks its block, and one
outside -524,288 to 524,287 is refused; a write of a window selection is in force at once, masked or not. A WC field
clears where 1 is written inside the mask, an RO field ignores what is written, a WO field reads 0 and does nothing
where 0 is written. R433: a write of the HI half of a 64-bit value is held for its session and changes nothing; the
write of the LO half then writes both, or refuses a joined value out of its range, and the pending half is gone. -/
def Obligations.WritesReachShadowOrRegister : Prop :=
  (∀ (s : State) (r : Req) (x : Session) (t : Tile) (k : Chan) (v : Word), Served s (Form.make 0x0101 8 State.inAll) r x →
    s.addrRefused (Reg.thrChSet0 t k) = none → -524288 ≤ signed 32 v.toNat → signed 32 v.toNat ≤ 524287 →
    ∃ u y, exec (.regWrite r (BitVec.ofNat 32 (Reg.thrChSet0 t k)) v) s = .next u ∧ Replied u r 0x0101 St.ok []
      ∧ u.getShadow (Reg.thrChSet0 t k) = v ∧ s.KeepsRegs u [Reg.lnkPortRx r.port]
      ∧ (∀ a, a ≠ Reg.thrChSet0 t k → u.shadow.find a = s.shadow.find a)
      ∧ u.findSession r.session = some y ∧ y.marks.contains (16 + 4 * t.val) = true)
  ∧ (∀ (s : State) (r : Req) (x : Session) (t : Tile) (k : Chan) (v : Word), Served s (Form.make 0x0101 8 State.inAll) r x →
    s.addrRefused (Reg.thrChSet0 t k) = none → (signed 32 v.toNat < -524288 ∨ 524287 < signed 32 v.toNat) →
    ∃ u, exec (.regWrite r (BitVec.ofNat 32 (Reg.thrChSet0 t k)) v) s = .next u ∧ Replied u r 0x0101 St.badValue []
      ∧ u.shadow = s.shadow)
  ∧ (∀ (s : State) (r : Req) (x : Session) (v : Word), Served s (Form.make 0x0101 8 State.inAll) r x →
    ∃ u, exec (.regWrite r (BitVec.ofNat 32 Reg.otpWinSel) v) s = .next u ∧ Replied u r 0x0101 St.ok []
      ∧ u.fld Reg.otpWinSel 4 0 = v.toNat % 32 ∧ s.KeepsRegs u [Reg.lnkPortRx r.port, Reg.otpWinSel] ∧ u.shadow = s.shadow)
  ∧ (∀ (s : State) (r : Req) (x : Session) (v m : Word), Served s (Form.make 0x0102 12 State.inAll) r x →
    ∃ u, exec (.regWriteMasked r (BitVec.ofNat 32 Reg.otpWinSel) v m) s = .next u
      ∧ Replied u r 0x0102 St.ok (beBytes 4 (u.view Reg.otpWinSel).toNat)
      ∧ (∀ i, i < 5 → u.bit Reg.otpWinSel i = (if m.getLsbD i then v.getLsbD i else s.bit Reg.otpWinSel i))
      ∧ s.KeepsRegs u [Reg.lnkPortRx r.port, Reg.otpWinSel] ∧ u.shadow = s.shadow)
  ∧ (∀ (s : State) (r : Req) (x : Session) (v : Word), Served s (Form.make 0x0101 8 State.inAll) r x →
    s.addrRefused Reg.cstStat = none →
    ∃ u, exec (.regWrite r (BitVec.ofNat 32 Reg.cstStat) v) s = .next u ∧ Replied u r 0x0101 St.ok []
      ∧ u.get Reg.cstStat = s.get Reg.cstStat &&& ~~~(v &&& 0x600)
      ∧ s.KeepsRegs u [Reg.lnkPortRx r.port, Reg.cstStat] ∧ u.shadow = s.shadow)
  ∧ (∀ (s : State) (r : Req) (x : Session) (v m : Word), Served s (Form.make 0x0102 12 State.inAll) r x →
    s.addrRefused Reg.cstStat = none →
    ∃ u, exec (.regWriteMasked r (BitVec.ofNat 32 Reg.cstStat) v m) s = .next u
      ∧ u.get Reg.cstStat = s.get Reg.cstStat &&& ~~~(v &&& m &&& 0x600)
      ∧ s.KeepsRegs u [Reg.lnkPortRx r.port, Reg.cstStat] ∧ u.shadow = s.shadow)
  ∧ (∀ (s : State) (r : Req) (x : Session) (v : Word), Served s (Form.make 0x0101 8 State.inAll) r x →
    s.addrRefused Reg.ilkIdent = none →
    ∃ u, exec (.regWrite r (BitVec.ofNat 32 Reg.ilkIdent) v) s = .next u ∧ Replied u r 0x0101 St.ok []
      ∧ s.KeepsRegs u [Reg.lnkPortRx r.port] ∧ u.shadow = s.shadow)
  ∧ (∀ s : State, s.view Reg.ilkLaneCtrl = 0)
  ∧ (∀ (s : State) (r : Req) (x : Session) (v : Word), Served s (Form.make 0x0101 8 State.inAll) r x →
    s.addrRefused Reg.ilkLaneCtrl = none → v &&& 0x707 = 0 →
    ∃ u, exec (.regWrite r (BitVec.ofNat 32 Reg.ilkLaneCtrl) v) s = .next u ∧ Replied u r 0x0101 St.ok []
      ∧ s.KeepsRegs u [Reg.lnkPortRx r.port] ∧ u.shadow = s.shadow ∧ u.ilk = s.ilk)
  ∧ (∀ (s : State) (r : Req) (x : Session) (v : Word), Served s (Form.make 0x0101 8 State.inAll) r x →
    s.addrRefused Reg.queSeqNextHi = none →
    ∃ u y, exec (.regWrite r (BitVec.ofNat 32 Reg.queSeqNextHi) v) s = .next u ∧ Replied u r 0x0101 St.ok []
      ∧ s.KeepsRegs u [Reg.lnkPortRx r.port] ∧ u.shadow = s.shadow
      ∧ u.findSession r.session = some y ∧ y.highs.find Reg.queSeqNextHi = some v)
  ∧ (∀ (s : State) (r : Req) (x : Session) (v : Word), Served s (Form.make 0x0101 8 State.inAll) r x →
    s.addrRefused Reg.queSeqNextLo = none → s.acquiring = false →
    ∃ u y, exec (.regWrite r (BitVec.ofNat 32 Reg.queSeqNextLo) v) s = .next u ∧ Replied u r 0x0101 St.ok []
      ∧ u.get Reg.queSeqNextLo = v
      ∧ u.get Reg.queSeqNextHi = (x.highs.find Reg.queSeqNextHi).getD (s.get Reg.queSeqNextHi)
      ∧ s.KeepsRegs u [Reg.lnkPortRx r.port, Reg.queSeqNextLo, Reg.queSeqNextHi] ∧ u.shadow = s.shadow
      ∧ u.findSession r.session = some y ∧ y.highs.find Reg.queSeqNextHi = none)
  ∧ (∀ (s : State) (r : Req) (x : Session) (d : Fin 2) (h v : Word), Served s (Form.make 0x0101 8 State.inAll) r x →
    s.addrRefused (Reg.timDomAsymLo d) = none → x.highs.find (Reg.timDomAsymLo d + 4) = some h →
    10000 * nsU < (signed 64 (h.toNat * 2 ^ 32 + v.toNat)).natAbs →
    ∃ u y, exec (.regWrite r (BitVec.ofNat 32 (Reg.timDomAsymLo d)) v) s = .next u ∧ Replied u r 0x0101 St.badValue []
      ∧ s.KeepsRegs u [Reg.lnkPortRx r.port] ∧ u.shadow = s.shadow
      ∧ u.findSession r.session = some y ∧ y.highs.find (Reg.timDomAsymLo d + 4) = none)

/-- R339, R341: COMMIT latches the whole shadow of every block that the session has marked; with none marked it is done at
once. A block's latched values of SH fields are in force once it takes its copy, and the copy is gone; a block without
power discards it. R82, R114, R147: a tile's copy and the Signal Box's wait for a frame boundary while they sample, in
a clock stop for the first one after it. R168, R173: each queue takes its own part of the queues' copy at its own
record boundary. The values are said of the blocks that take a copy in one piece and do nothing besides, of the queues
with one head half read, and of the programs that SBX_ARM arms. That a frame boundary is judged by the periods
evaluated is log entry 154; a COMMIT_APPLY that finds no boundary has no effect: model's choice (log entry 8). -/
def Obligations.CommitsLatchAndApply : Prop :=
  (∀ (s : State) (r : Req) (x : Session) (b : Nat), Served s (Form.make 0x0104 0 State.inAll) r x → x.HasRoom → b < 32 →
    x.marks.contains b = true →
    ∃ t l y, exec (.commit r) s = .next t ∧ Accepted t r 0x0104 [] ∧ l ∈ t.bcp.latches ∧ l.block = b
      ∧ l.values = s.shadow.filter (fun v => blockOf v.1 == b) ∧ t.findSession r.session = some y
      ∧ y.marks.contains b = false ∧ s.KeepsRegs t [Reg.lnkPortRx r.port] ∧ t.shadow = s.shadow)
  ∧ (∀ (s : State) (r : Req) (x : Session), Served s (Form.make 0x0104 0 State.inAll) r x → x.marks = [] →
    ∃ t, exec (.commit r) s = .next t ∧ Replied t r 0x0104 St.ok [])
  ∧ (∀ (s : State) (b : Fin 32) (l : Latch), s.bcp.latches.find? (fun (x : Latch) => x.block == b.val) = some l →
    s.powered (blockBase b) = true → (b = 1 ∨ b = 4 ∨ b = 6 ∨ b = 8 ∨ (16 ≤ b.val ∧ b.val % 2 = 1)) →
    (b = 6 → (∀ e ∈ s.que.live.head?, e.taken = 0) ∧ (∀ e ∈ s.que.hostRead.head?, e.taken = 0)) →
    (b = 8 → ∀ e, s.jobs e = []) →
    (l.values.map fun v => v.1).Nodup → s.atBoundary l = true →
    ∃ t, exec (.commitApply b) s = .next t ∧ (∀ m ∈ t.bcp.latches, m.block ≠ b.val)
      ∧ (∀ v ∈ l.values, t.get v.1 &&& fieldMask isSh (fieldsAt v.1) = v.2 &&& fieldMask isSh (fieldsAt v.1))
      ∧ s.KeepsRegs t (l.values.map fun v => v.1) ∧ t.shadow = s.shadow)
  ∧ (∀ (s : State) (b : Fin 32) (l : Latch), s.bcp.latches.find? (fun (x : Latch) => x.block == b.val) = some l →
    s.powered (blockBase b) = false →
    ∃ t, exec (.commitApply b) s = .next t ∧ (∀ m ∈ t.bcp.latches, m.block ≠ b.val) ∧ t.regs = s.regs)
  ∧ (∀ (s : State) (b : Fin 32) (l : Latch) (w : Word), b = 5 →
    s.bcp.latches.find? (fun (x : Latch) => x.block == b.val) = some l → s.powered (blockBase b) = true →
    l.values = [(Reg.sbxArm, w)] → s.modes.acq = .triggered → s.modes.sampling = true → s.stopping = false →
    s.sbx.period % framePeriods = 0 → l.first ≤ s.sbx.period →
    ∃ t, exec (.commitApply b) s = .next t ∧ (∀ p : Fin 8, (t.sbx.progs.get p).armed = w.getLsbD p.val)
      ∧ (∀ m ∈ t.bcp.latches, m.block ≠ b.val))
  ∧ (∀ (s : State) (l : Latch) (e : LiveEnt) (sh : Word), s.bcp.latches.find? (fun (x : Latch) => x.block == 6) = some l →
    s.powered (blockBase 6) = true → (l.values.map fun v => v.1).Nodup → s.que.live.head? = some e → e.taken ≠ 0 →
    (∀ h ∈ s.que.hostRead.head?, h.taken = 0) → sh = fieldMask isSh (fieldsAt Reg.queRoute) →
    ∃ t, exec (.commitApply 6) s = .next t ∧ t.shadow = s.shadow ∧ s.KeepsRegs t [Reg.queRoute]
      ∧ t.get Reg.queRoute &&& 0x155 = s.get Reg.queRoute &&& 0x155
      ∧ (∀ w, (Reg.queRoute, w) ∈ l.values → t.get Reg.queRoute &&& (sh &&& 0x2AA) = w &&& (sh &&& 0x2AA))
      ∧ ((l.values.any fun v => t.differs v) = true → l ∈ t.bcp.latches))
  ∧ (∀ (s : State) (b : Fin 32) (l : Latch), s.bcp.latches.find? (fun (x : Latch) => x.block == b.val) = some l →
    s.powered (blockBase b) = true →
    ((l.block = 5 ∧ s.modes.sampling = true ∧ s.sbx.period % framePeriods ≠ 0)
      ∨ (∃ k : Tile, (l.block = 16 + 4 * k.val ∨ l.block = 17 + 4 * k.val ∨ l.block = 18 + 4 * k.val)
          ∧ s.tilePowered k = true ∧ s.modes.sampling = true ∧ (s.tile k).swPeriod % framePeriods ≠ 0)
      ∨ (s.modes.sampling = false ∧ s.clk.stopSampling = true ∧ (l.block = 5
          ∨ ∃ k : Tile, (l.block = 16 + 4 * k.val ∨ l.block = 17 + 4 * k.val ∨ l.block = 18 + 4 * k.val)
              ∧ s.tilePowered k = true))) →
    exec (.commitApply b) s = .next s)

/-! ### Records, requests, streams (R169, R170, R188, R191, R289, R341) -/

/-- R289, R341: DATA_SESSION binds the Mainline that it came in on, again from the same address without FORCE too (log
entry 39); R301: SWITCHOVER, in Standby mode (MODE 1) with the other Mainline up, makes that one active, with the
overlap's 100 µs, and counts it; R341: STREAM_STATUS answers a stream's counts. The counts of a stream that has never
been are zeros: model's choice (log entry 37). -/
def Obligations.MainlineCommandsComplete : Prop :=
  (∀ (s : State) (r : Req) (x : Session) (hp : BitVec 16) (force : Bool) (p : Fin 2),
    Served s (Form.make 0x0009 3 State.inRun) r x → r.port.val = p.val →
    ((∀ b, s.bindOf p = some b → b.ip = r.ip) ∨ force = true) →
    ∃ t, exec (.dataSession r hp force) s = .next t ∧ Replied t r 0x0009 St.ok [BitVec.ofNat 8 p.val]
      ∧ t.bindOf p = some ⟨r.mac, r.ip, if hp = 0 then 21333 else hp⟩ ∧ t.bindOf (otherMl p) = s.bindOf (otherMl p))
  ∧ (∀ (s : State) (r : Req) (x : Session) (hp : BitVec 16) (force : Bool),
    Served s (Form.make 0x0009 3 State.inRun) r x → isMainline r.port = false →
    ∃ t, exec (.dataSession r hp force) s = .next t ∧ Replied t r 0x0009 St.wrongPort [] ∧ LnkKept s t)
  ∧ (∀ (s : State) (r : Req) (x : Session), Served s (Form.make 0x0600 0 State.inRun) r x → s.variant = .f →
    s.mlMode = 1 → s.mlUp (if s.mlActive = 0 then 1 else 0) = true →
    ∃ t, exec (.switchover r) s = .next t ∧ Replied t r 0x0600 St.ok [] ∧ t.mlActive = (if s.mlActive = 0 then 1 else 0)
      ∧ t.bit Reg.lnkMlStat 8 = true ∧ t.lnk.overlap = some (s.tim.now + usU 100)
      ∧ (t.get Reg.lnkSwitchovers).toNat = min (2 ^ 32 - 1) ((s.get Reg.lnkSwitchovers).toNat + 1))
  ∧ (∀ (s : State) (r : Req) (x : Session) (y : Stream), Served s ⟨0x0601, 0, true, false, false, State.inRun⟩ r x →
    s.stream r.target = some y →
    ∃ t, exec (.streamStatus r) s = .next t ∧ LnkKept s t
      ∧ Replied t r 0x0601 St.ok (beBytes 8 y.next ++ beBytes 4 y.segs.length ++ beBytes 4 y.retx))
  ∧ (∀ (s : State) (r : Req) (x : Session), Served s ⟨0x0601, 0, true, false, false, State.inRun⟩ r x →
    s.stream r.target = none →
    ∃ t, exec (.streamStatus r) s = .next t ∧ LnkKept s t ∧ Replied t r 0x0601 St.ok (List.replicate 16 0))

/-- R169, R170, R184, R189, R191, R341: QUEUE_READ returns the front record's next cells and says whether its last one is
among them, which takes the record off the queue; R167: a record that has not as many cells as its length calls for is
discarded and counted instead. RECORD_READ and UNIT_READ return bytes of what the Depot holds (said where no line and
no map entry is erroneous); of a record or unit that it no longer holds the answer is OVERWRITTEN, and it is counted;
of a SEQUENCE or UNIT_SEQ that has not been given BAD_VALUE, of a record that is not yet stored BUSY_RUNNING. -/
def Obligations.RecordsAndUnitsAreRead : Prop :=
  (∀ (s : State) (r : Req) (x : Session) (n : Byte), Served s (Form.make 0x0300 1 State.inRun) r x → 1 ≤ n.toNat →
    n.toNat ≤ 16 → s.que.hostRead = [] →
    ∃ t, exec (.queueRead r n) s = .next t ∧ Replied t r 0x0300 St.ok (beBytes 4 0) ∧ t.que = s.que)
  ∧ (∀ (s : State) (r : Req) (x : Session) (n : Byte) (e : HrEnt) (rest : List HrEnt) (part : List Cell),
    Served s (Form.make 0x0300 1 State.inRun) r x → 1 ≤ n.toNat → n.toNat ≤ 16 → s.que.hostRead = e :: rest →
    (framed e.cells = true ∨ e.taken ≠ 0) → part = (e.cells.drop e.taken).take n.toNat →
    (∃ c, part.getLast? = some c ∧ c.endMark = true) →
    ∃ t, exec (.queueRead r n) s = .next t ∧ t.que.hostRead = rest
      ∧ Replied t r 0x0300 St.ok (beBytes 4 (2 ^ 31 + 2 ^ 30 + part.length * 2 ^ 16) ++ part.flatMap fun c => c.data))
  ∧ (∀ (s : State) (r : Req) (x : Session) (n : Byte) (e : HrEnt) (rest : List HrEnt) (part : List Cell),
    Served s (Form.make 0x0300 1 State.inRun) r x → 1 ≤ n.toNat → n.toNat ≤ 16 → s.que.hostRead = e :: rest →
    (framed e.cells = true ∨ e.taken ≠ 0) → part = (e.cells.drop e.taken).take n.toNat →
    (∃ c, part.getLast? = some c ∧ c.endMark = false) →
    ∃ t, exec (.queueRead r n) s = .next t ∧ t.que.hostRead = { e with taken := e.taken + part.length } :: rest
      ∧ Replied t r 0x0300 St.ok (beBytes 4 (2 ^ 31 + part.length * 2 ^ 16) ++ part.flatMap fun c => c.data))
  ∧ (∀ (s : State) (r : Req) (x : Session) (n : Byte) (e : HrEnt), Served s (Form.make 0x0300 1 State.inRun) r x →
    1 ≤ n.toNat → n.toNat ≤ 16 → s.que.hostRead = [e] → e.taken = 0 → framed e.cells = false →
    ∃ t, exec (.queueRead r n) s = .next t ∧ t.que.hostRead = [] ∧ Replied t r 0x0300 St.ok (beBytes 4 0)
      ∧ Counted s t Reg.queFraming 1 ∧ Counted s t Reg.queHrSkip 1)
  ∧ (∀ (s : State) (r : Req) (x : Session) (q : BitVec 64) (o : Word) (n : BitVec 16) (c : SRec),
    Served s (Form.make 0x0301 14 State.inRun) r x → q.toNat < s.seqNext → s.findRec q.toNat = some c →
    o.toNat < c.length → s.dpt.errs = [] → s.dpt.mapErrs = [] →
    (s.mapEnt ((c.gens.head?.map fun g => g.1).getD 0)).dirLost = false →
    ∃ t, exec (.recordRead r q o n) s = .next t ∧ t.dpt = s.dpt
      ∧ Replied t r 0x0301 St.ok (beBytes 4 c.length ++ beBytes 4 o.toNat
          ++ (List.range (min (min n.toNat 1428) (c.length - o.toNat))).map fun j =>
            s.dpt.mem.read (itemAddr c.gens c.offset (o.toNat + j))))
  ∧ (∀ (s : State) (r : Req) (x : Session) (q : BitVec 64) (o : Word) (n : BitVec 16),
    Served s (Form.make 0x0301 14 State.inRun) r x → q.toNat < s.seqNext → s.findRec q.toNat = none →
    s.notYetStored q.toNat = false →
    ∃ t, exec (.recordRead r q o n) s = .next t ∧ Replied t r 0x0301 St.overwritten []
      ∧ Counted s t Reg.dptOverwritten 1)
  ∧ (∀ (s : State) (r : Req) (x : Session) (q : BitVec 64) (o : Word) (n : BitVec 16) (u : RUnit) (d : List Byte),
    Served s (Form.make 0x0404 14 State.inRun) r x → q.toNat < s.unitSeq → s.findUnit q.toNat = some u →
    o.toNat < 64 + u.length → s.dpt.errs = [] → s.dpt.mapErrs = [] →
    (s.mapEnt ((u.gens.head?.map fun g => g.1).getD 0)).dirLost = false →
    (u.descriptor.drop o.toNat).take (min (min n.toNat 1428) (64 + u.length - o.toNat)) = d →
    ∃ t, exec (.unitRead r q o n) s = .next t ∧ t.dpt = s.dpt
      ∧ Replied t r 0x0404 St.ok (beBytes 4 (64 + u.length) ++ beBytes 4 o.toNat ++ (d
          ++ (List.range (min (min n.toNat 1428) (64 + u.length - o.toNat) - d.length)).map fun j =>
            s.dpt.mem.read (itemAddr u.gens u.offset (o.toNat - 64 + j)))))
  ∧ (∀ (s : State) (r : Req) (x : Session) (q : BitVec 64) (o : Word) (n : BitVec 16),
    Served s (Form.make 0x0404 14 State.inRun) r x → q.toNat < s.unitSeq → s.findUnit q.toNat = none →
    ∃ t, exec (.unitRead r q o n) s = .next t ∧ Replied t r 0x0404 St.overwritten [] ∧ Counted s t Reg.dptOverwritten 1)
  ∧ (∀ (s : State) (r : Req) (x : Session) (q : BitVec 64) (o : Word) (n : BitVec 16),
    Served s (Form.make 0x0301 14 State.inRun) r x → s.seqNext ≤ q.toNat →
    ∃ t, exec (.recordRead r q o n) s = .next t ∧ Replied t r 0x0301 St.badValue [] ∧ t.dpt = s.dpt)
  ∧ (∀ (s : State) (r : Req) (x : Session) (q : BitVec 64) (o : Word) (n : BitVec 16),
    Served s (Form.make 0x0301 14 State.inRun) r x → q.toNat < s.seqNext → s.findRec q.toNat = none →
    s.notYetStored q.toNat = true →
    ∃ t, exec (.recordRead r q o n) s = .next t ∧ Replied t r 0x0301 St.busyRunning [] ∧ t.dpt = s.dpt)
  ∧ (∀ (s : State) (r : Req) (x : Session) (q : BitVec 64) (o : Word) (n : BitVec 16),
    Served s (Form.make 0x0404 14 State.inRun) r x → s.unitSeq ≤ q.toNat →
    ∃ t, exec (.unitRead r q o n) s = .next t ∧ Replied t r 0x0404 St.badValue [] ∧ t.dpt = s.dpt)

/-- R188, R289, R341: FETCH_RECORDS and FETCH_RING start their request stream with the records or units they name, in
order: those that the read queue holds already, then the others; FETCH_RING looks for units written later once these
have gone: model's reading (log entry 75). Said where the Depot holds all of them and no line and no map entry is
erroneous. STREAM_ABORT ends a stream before its next segment. -/
def Obligations.RequestStreamsStartAndAbort : Prop :=
  (∀ (s : State) (r : Req) (x : Session) (first : BitVec 64) (n : Word),
    Served s ⟨0x0302, 12, true, false, false, State.inRun⟩ r x → x.HasRoom → isRequest r.target = true → n ≠ 0 →
    first.toNat + n.toNat ≤ s.seqNext → s.streamRefused r.target = none → s.dpt.errs = [] → s.dpt.mapErrs = [] →
    (∀ i, i < n.toNat → (s.findRec (first.toNat + i)).isSome = true) →
    ∃ t y, exec (.fetchRecords r first n) s = .next t ∧ Accepted t r 0x0302 [] ∧ t.stream r.target = some y
      ∧ (y.loaded.map fun l => l.item) ++ y.items = (List.range n.toNat).map (fun i => Item.record (first.toNat + i))
      ∧ y.next = 0 ∧ y.ended = false ∧ y.segs = [])
  ∧ (∀ (s : State) (r : Req) (x : Session) (mask : BitVec 64) (a b : Wide) (items : List Item),
    Served s ⟨0x0403, 38, true, false, false, State.inRun⟩ r x → x.HasRoom → isRequest r.target = true →
    a.ns.toNat < 1000000000 → b.ns.toNat < 1000000000 → s.streamRefused r.target = none → s.dpt.errs = [] →
    s.dpt.mapErrs = [] → items = s.ringItems ⟨mask, Machine.Wide.toU a, Machine.Wide.toU b, 0⟩ →
    (∀ q, Item.unit q ∈ items → (s.findUnit q).isSome = true) →
    ∃ t y later, exec (.fetchRing r mask a b) s = .next t ∧ Accepted t r 0x0403 [] ∧ t.stream r.target = some y
      ∧ (y.loaded.map fun l => l.item) ++ y.items = items ++ later ∧ y.next = 0 ∧ y.ended = false ∧ y.segs = [])
  ∧ (∀ (s : State) (r : Req) (x : Session) (y : Stream),
    Served s ⟨0x0303, 0, true, false, false, State.inRun⟩ r x → isRequest r.target = true →
    s.stream r.target = some y → y.settled = false →
    ∃ t z, exec (.streamAbort r) s = .next t ∧ Replied t r 0x0303 St.ok [] ∧ t.stream r.target = some z
      ∧ z.ended = true ∧ z.items = [] ∧ z.loaded = [] ∧ z.segs = y.segs ∧ z.final = St.aborted)

/-! ### Sources and ranges under command (R50, R56, R57, R105, R112, R113) -/

/-- R56, R57, R341: PULSE_ARM arms every source it names with one launch time, or marks them LATE where it is less than 20
µs ahead; R112, R341: RANGE_CAL starts the calibration of the tiles it names. -/
def Obligations.SourcesArmAndRangesCalibrate : Prop :=
  (∀ (s : State) (r : Req) (x : Session) (m : BitVec 16) (w : Wide), Served s (Form.make 0x0200 18 State.inRun) r x →
    w.ns.toNat < 1000000000 → s.tim.mt + usU 20 ≤ (Machine.Wide.toU w) →
    (∀ (t : Tile) (e : Fin 4), m.getLsbD (4 * t.val + e.val) = true → s.tilePowered t = true ∧ s.tileTraining t = false
      ∧ s.bit (Reg.jctExStat t e) 0 = false ∧ s.armRefused t e = false) →
    ∃ u, exec (.pulseArm r m w) s = .next u ∧ Replied u r 0x0200 St.ok []
      ∧ (∀ (t : Tile) (e : Fin 4), m.getLsbD (4 * t.val + e.val) = true → u.findArm t e = some ⟨e, (Machine.Wide.toU w), 0⟩
          ∧ u.bit (Reg.jctExStat t e) 0 = true ∧ u.fld (Reg.jctExStat t e) 31 16 = 0)
      ∧ (∀ (t : Tile) (e : Fin 4), m.getLsbD (4 * t.val + e.val) = false → u.findArm t e = s.findArm t e
          ∧ u.get (Reg.jctExStat t e) = s.get (Reg.jctExStat t e)))
  ∧ (∀ (s : State) (r : Req) (x : Session) (m : BitVec 16) (w : Wide), Served s (Form.make 0x0200 18 State.inRun) r x →
    w.ns.toNat < 1000000000 → (Machine.Wide.toU w) < s.tim.mt + usU 20 →
    (∀ (t : Tile) (e : Fin 4), m.getLsbD (4 * t.val + e.val) = true → s.tilePowered t = true ∧ s.tileTraining t = false
      ∧ s.bit (Reg.jctExStat t e) 0 = false ∧ s.armRefused t e = false) →
    ∃ u, exec (.pulseArm r m w) s = .next u ∧ Replied u r 0x0200 St.ok []
      ∧ (∀ (t : Tile) (e : Fin 4), m.getLsbD (4 * t.val + e.val) = true → u.findArm t e = none
          ∧ u.bit (Reg.jctExStat t e) 0 = false ∧ u.bit (Reg.jctExStat t e) 1 = true))
  ∧ (∀ (s : State) (r : Req) (x : Session) (m : BitVec 4), Served s (Form.make 0x0201 1 State.inCalibrate) r x →
    x.HasRoom → (∀ t : Tile, m.getLsbD t.val = true → s.tilePowered t = true ∧ s.bit (Reg.calStat t) 20 = false) →
    ∃ u, exec (.rangeCal r m) s = .next u ∧ Accepted u r 0x0201 []
      ∧ (∀ t : Tile, m.getLsbD t.val = true → u.bit (Reg.calStat t) 20 = true ∧ (u.relief t).rangeOp.isSome = true)
      ∧ (∀ t : Tile, m.getLsbD t.val = false → u.get (Reg.calStat t) = s.get (Reg.calStat t)))

/-! ### Excitation and ranging (R54–R67) -/

/-- R56, R57: an armed source's pulse that is due is counted in SENT and leaves the connector in pulse mode, with its time
to the nearest ps, its baseline, amplitude, direction and width; after the trailing edge of the last one DONE is set,
ARMED clears and the source is no longer armed. No other register changes, and no other tile. R58, R59: a DC source at
its limit latches COMPLIANCE; a bias source in use beyond 10 mA latches its own and sets ATN_WIRE in every session,
and it is overloaded until a load within 10 mA is told, which changes no register (that a load comes as a command is
the model's choice, log entry 156). A launch with MODE other than pulse is counted and emits nothing, and the times of
later pulses go by the PERIOD now in force (log entries 50 and 126). R63, R66: the scout's crossing is remembered, and
the hold count starts anew; no register changes. Its decision 2.0 ns later switches to the narrowest range whose 85%
level is above the magnitude, if that is a wider one. R65, R66: a quiet time below the down level switches one range
narrower. A switch is counted in CHANGES, its first sample is the settling one and the new range holds from the next
one on; no register but the channel's STAT and CNT changes. -/
def Obligations.SourceAndRangeEventsComplete : Prop :=
  (∀ (s : State) (t : Tile) (e : Fin 4) (a : Arm), s.findArm t e = some a → s.pulseDue t a ≤ s.tim.mt →
    s.tilePowered t = true → a.sent < s.fld (Reg.jctExPulse t e) 31 16 →
    ∃ u, exec (.pulseLaunch t e) s = .next u ∧ u.fld (Reg.jctExStat t e) 31 16 = (a.sent + 1) % 65536
      ∧ s.KeepsRegs u [Reg.jctExStat t e] ∧ u.findArm t e = some { a with sent := a.sent + 1 }
      ∧ u.bit (Reg.jctExStat t e) 0 = s.bit (Reg.jctExStat t e) 0 ∧ (∀ o, o ≠ t → u.tile o = s.tile o)
      ∧ (s.fld (Reg.jctExCtrl t e) 1 0 = 3 →
          u.tx = s.tx ++ [.pulse t e a.sent ((s.pulseDue t a * 1000 + nsU / 2) / nsU) (s.fld (Reg.jctExLevel t e) 15 0)
            (s.fld (Reg.jctExLevel t e) 27 16) (s.bit (Reg.jctExCtrl t e) 2) (s.fld (Reg.jctExPulse t e) 11 0)])
      ∧ (s.fld (Reg.jctExCtrl t e) 1 0 ≠ 3 → u.tx = s.tx))
  ∧ (∀ (s : State) (t : Tile) (e : Fin 4) (a : Arm), s.findArm t e = some a → s.tilePowered t = true →
    s.fld (Reg.jctExPulse t e) 31 16 ≤ a.sent →
    s.pulseDue t { a with sent := a.sent - 1 } + s.fld (Reg.jctExPulse t e) 11 0 * periodU ≤ s.tim.mt →
    ∃ u, exec (.pulseLaunch t e) s = .next u ∧ u.bit (Reg.jctExStat t e) 3 = true
      ∧ u.bit (Reg.jctExStat t e) 0 = false ∧ u.findArm t e = none ∧ u.tx = s.tx ∧ s.KeepsRegs u [Reg.jctExStat t e]
      ∧ (∀ o, o ≠ t → u.tile o = s.tile o))
  ∧ (∀ (s : State) (t : Tile) (e : Fin 4), s.tilePowered t = true →
    (s.fld (Reg.jctExCtrl t e) 1 0 = 1 ∨ s.fld (Reg.jctExCtrl t e) 1 0 = 2) →
    ∃ u, exec (.sourceCompliance t e) s = .next u ∧ u.bit (Reg.jctExStat t e) 2 = true
      ∧ s.KeepsRegs u [Reg.jctExStat t e] ∧ u.bcp = s.bcp)
  ∧ (∀ (s : State) (t : Tile) (b : Fin 4) (load : Nat), s.tilePowered t = true → s.bit (Reg.jctBias t b) 16 = true →
    10000 < load →
    ∃ u, exec (.biasCompliance t b load) s = .next u ∧ u.bit (Reg.jctBias t b) 17 = true
      ∧ s.KeepsRegs u [Reg.jctBias t b]
      ∧ u.bcp.sessions = s.bcp.sessions.map (setAtn Atn.wire (s.evt + 1)) ∧ (u.tile t).sagging.getLsbD b = true)
  ∧ (∀ (s : State) (t : Tile) (b : Fin 4) (load : Nat), s.tilePowered t = true → load ≤ 10000 →
    ∃ u, exec (.biasCompliance t b load) s = .next u ∧ u.regs = s.regs ∧ u.bcp = s.bcp
      ∧ (u.tile t).sagging.getLsbD b = false ∧ (∀ o, o ≠ t → u.tile o = s.tile o))
  ∧ (∀ (s : State) (t : Tile) (k : Chan) (mag : Nat), s.live t k = true → s.autoRange t k = true →
    fullScale (s.range t k) * 85 ≤ mag * 100 → (s.front t k).rearmAt ≤ s.tim.mt → (s.front t k).crossed = none →
    ∃ u, exec (.scoutCrossing t k mag) s = .next u ∧ (u.front t k).crossed = some s.tim.mt
      ∧ (u.front t k).holdFrom = s.pinPos ∧ u.regs = s.regs)
  ∧ (∀ (s : State) (t : Tile) (k : Chan) (hi lo : Int) (mag t0 : Nat), s.live t k = true → mag = peakMag hi lo →
    (s.front t k).crossed = some t0 →
    t0 + 2 * nsU ≤ s.tim.mt →
    ∃ u, exec (.upRange t k hi lo) s = .next u ∧ (u.front t k).crossed = none
      ∧ s.KeepsRegs u [Reg.feaChStat t k, Reg.feaChCnt t k]
      ∧ (s.range t k ≤ chooseRange mag → u.regs = s.regs ∧ (u.front t k).tags = (s.front t k).tags)
      ∧ (chooseRange mag < s.range t k → u.range t k = chooseRange mag
          ∧ u.fld (Reg.feaChCnt t k) 15 0 = (s.fld (Reg.feaChCnt t k) 15 0 + 1) % 65536
          ∧ tagAt (u.front t k).tags (s.sampleFrom (t0 + 2 * nsU) + 1) = 3
          ∧ ∀ n, s.sampleFrom (t0 + 2 * nsU) + 2 ≤ n → tagAt (u.front t k).tags n = chooseRange mag))
  ∧ (∀ (s : State) (t : Tile) (k : Chan) (quiet mag : Nat), s.live t k = true → s.autoRange t k = true →
    s.range t k + 1 ≤ s.fld (Reg.feaChCtrl t k) 3 2 → s.range t k + 1 ≤ 2 →
    s.fld (Reg.feaChRange t k) 28 16 ≤ quiet →
    (s.front t k).holdFrom + s.fld (Reg.feaChRange t k) 28 16 ≤ s.pinPos →
    mag * 200 < s.fld (Reg.feaChRange t k) 13 8 * fullScale (s.range t k + 1) →
    ∃ u, exec (.downRange t k quiet mag) s = .next u ∧ u.range t k = s.range t k + 1
      ∧ u.fld (Reg.feaChCnt t k) 15 0 = (s.fld (Reg.feaChCnt t k) 15 0 + 1) % 65536
      ∧ (u.front t k).holdFrom = s.pinPos ∧ tagAt (u.front t k).tags (s.sampleFrom s.tim.mt + 1) = 3
      ∧ (∀ n, s.sampleFrom s.tim.mt + 2 ≤ n → tagAt (u.front t k).tags n = s.range t k + 1)
      ∧ s.KeepsRegs u [Reg.feaChStat t k, Reg.feaChCnt t k])

/-! ### The relief rotation (R91–R114) -/

/-- R95, R96: a granted dwell begins at its boundary on the next enabled slice, which CAL_STAT.SLICE names, and no other
tile is touched. R96, R97: 34 frames after it a match within the limits hands over to the relief slice. R98, R99: a
calibration that completes during Calibrate gives the slice its new trims and begins the return shadow; 34 frames
after the first boundary that follows, a return shadow within the limits records the step in CAL_LAST0 and CAL_LAST1.
R105: a calibration that cannot complete is latched and counted, and the slice is parked (said where no committed copy
of the rotation waits for the dwell's end). -/
def Obligations.DwellsBeginAndCalibrate : Prop :=
  (∀ (s : State) (t : Tile) (sl : Nat), s.tileSampling t = true → (s.relief t).waiting = true →
    (s.relief t).granted = true → (s.relief t).dwell = none → (s.relief t).manual = none → (s.relief t).retry = false →
    (s.relief t).parked = none → s.nextSlice t (s.relief t).next = some sl → (s.relief t).startAt ≤ s.samplePos →
    ∃ u d, exec (.dwellStart t) s = .next u ∧ (u.relief t).dwell = some d ∧ d.slice = sl ∧ d.start = (s.relief t).startAt
      ∧ d.standing = false ∧ d.old = s.trims t sl ∧ (u.relief t).waiting = false ∧ u.fld (Reg.calStat t) 4 0 = sl % 32
      ∧ (∀ o, o ≠ t → u.relief o = s.relief o) ∧ u.modes = s.modes ∧ u.que = s.que)
  ∧ (∀ (s : State) (t : Tile) (d : Dwell) (mean gain skew : Nat) (slope : Bool), (s.relief t).dwell = some d →
    s.fld (Reg.calStat t) 10 8 = 1 → d.slice < 16 → d.start + 34 * framePeriods ≤ s.nextFrame → mean ≤ 16 → gain ≤ 200 →
    (slope = true → skew ≤ 30) →
    ∃ u e, exec (.handover t mean gain skew slope) s = .next u ∧ (u.relief t).dwell = some e ∧ e.standing = true
      ∧ e.slice = d.slice ∧ u.fld (Reg.calStat t) 10 8 = 2
      ∧ u.fld (Reg.slcSlStat t 16) 2 0 = 1 ∧ u.fld (Reg.slcSlStat t 16) 20 16 = s.servesOf t d.slice % 32
      ∧ (∀ o, o ≠ t → u.relief o = s.relief o))
  ∧ (∀ (s : State) (t : Tile) (d : Dwell) (a b : Word), (s.relief t).dwell = some d → s.fld (Reg.calStat t) 10 8 = 2 →
    d.calibrated = false → d.standing = true → d.slice < 16 →
    ∃ u e, exec (.calibrateDone t (a, b) true) s = .next u ∧ (u.relief t).dwell = some e ∧ e.calibrated = true
      ∧ e.calAt = s.nextFrame
      ∧ u.get (Reg.slcSlTrim0 t d.slice) = a &&& 0x0FFF0FFF ∧ u.get (Reg.slcSlTrim1 t d.slice) = b &&& 0x003F03FF
      ∧ u.fld (Reg.calStat t) 10 8 = 3 ∧ u.modes = s.modes)
  ∧ (∀ (s : State) (t : Tile) (d : Dwell) (w : Word × Word), (s.relief t).dwell = some d →
    s.fld (Reg.calStat t) 10 8 = 2 → d.calibrated = false → d.slice < 16 →
    s.bcp.latches.find? (fun (l : Latch) => l.block == 18 + 4 * t.val) = none →
    ∃ u, exec (.calibrateDone t w false) s = .next u ∧ (u.relief t).dwell = none ∧ (u.relief t).parked = some d.slice
      ∧ u.bit (Reg.calFault t) d.slice = true ∧ u.bit (Reg.calStat t) 17 = true ∧ u.fld (Reg.calStat t) 28 24 = d.slice
      ∧ u.fld (Reg.calCnt1 t) 31 16 = (s.fld (Reg.calCnt1 t) 31 16 + 1) % 65536
      ∧ (∀ x ∈ u.bcp.sessions, x.atn.getLsbD Atn.cal = true))
  ∧ (∀ (s : State) (t : Tile) (d : Dwell) (ofs gain skew : Int), (s.relief t).dwell = some d → d.standing = true →
    d.calibrated = true → d.returned = false → d.slice < 16 → d.calAt + 34 * framePeriods ≤ s.samplePos →
    ofs.natAbs ≤ 128 → gain.natAbs ≤ 2500 → skew.natAbs ≤ 200 →
    ∃ u e, exec (.returnShadowDone t ofs gain skew false) s = .next u ∧ (u.relief t).dwell = some e
      ∧ e.returned = true ∧ e.step = (ofs, gain, skew)
      ∧ u.fld (Reg.calLast0 t) 15 0 = unsigned 16 ofs ∧ u.fld (Reg.calLast0 t) 31 16 = unsigned 16 gain
      ∧ u.fld (Reg.calLast1 t) 15 0 = unsigned 16 skew ∧ u.fld (Reg.calLast1 t) 20 16 = d.slice)

/-- R95, R101, R102, R104: at its due boundary, decided 1.0 µs before it with no window open on the channel then, a dwell
is handed back; with one open it is deferred and counted; a deferred one that has waited CAL_MAX_DEFER is forced and
counted. A dwell handed back is over, and the history has a new entry. Said where no committed copy of the rotation
waits for the dwell's end (R110). R110, R112, R113: the 10 ms wait ends in the request of a dwell; a range calibration
writes the amplifier terms and clears RANGE_BUSY; manual trims with no window in their way take effect and clear
PENDING. -/
def Obligations.DwellsEndAndRotationEventsComplete : Prop :=
  (∀ (s : State) (t : Tile) (d : Dwell), (s.relief t).dwell = some d → s.dwellDue t d ≤ s.nextFrame →
    s.nextFrame ≤ s.samplePos + 2000 → d.standing = true → d.returned = true →
    s.heldOpen (16 * t.val + s.servesOf t d.slice) = false →
    s.bcp.latches.find? (fun (l : Latch) => l.block == 18 + 4 * t.val) = none →
    ∃ u e, exec (.handback t) s = .next u ∧ (u.relief t).dwell = none ∧ (u.relief t).hist.head? = some e
      ∧ e.slice = d.slice ∧ e.step = d.step ∧ e.forced = false ∧ e.manual = false
      ∧ e.seconds = BitVec.ofNat 32 (secOf (s.stampOf s.nextFrame)) ∧ (∀ o, o ≠ t → u.relief o = s.relief o))
  ∧ (∀ (s : State) (t : Tile) (d : Dwell), (s.relief t).dwell = some d → s.dwellDue t d ≤ s.nextFrame →
    s.nextFrame ≤ s.samplePos + 2000 → d.standing = true → d.returned = true → d.deferred = false →
    s.heldOpen (16 * t.val + s.servesOf t d.slice) = true →
    ∃ u e, exec (.handback t) s = .next u ∧ (u.relief t).dwell = some e ∧ e.deferred = true ∧ e.slice = d.slice
      ∧ u.fld (Reg.calCnt0 t) 15 0 = (s.fld (Reg.calCnt0 t) 15 0 + 1) % 65536 ∧ u.fld (Reg.calStat t) 10 8 = 4
      ∧ s.KeepsRegs u [Reg.calCnt0 t, Reg.calStat t])
  ∧ (∀ (s : State) (t : Tile) (d : Dwell), (s.relief t).dwell = some d → d.deferred = true →
    s.dwellDue t d + 200000 * s.fld (Reg.calMaxDefer t) 9 0 ≤ s.nextFrame →
    s.bcp.latches.find? (fun (l : Latch) => l.block == 18 + 4 * t.val) = none →
    ∃ u e, exec (.forcedHandback t) s = .next u ∧ (u.relief t).dwell = none ∧ (u.relief t).hist.head? = some e
      ∧ e.slice = d.slice ∧ e.forced = true
      ∧ u.fld (Reg.calCnt0 t) 31 16 = (s.fld (Reg.calCnt0 t) 31 16 + 1) % 65536 ∧ u.bit (Reg.calLast1 t) 24 = true)
  ∧ (∀ (s : State) (t : Tile) (w : Nat), (s.relief t).warmUntil = some w → w ≤ s.tim.now → s.calRun t = true →
    (s.relief t).parked = none → (s.relief t).manual = none → (s.relief t).dwell = none → (s.relief t).waiting = false →
    s.tileSampling t = true → s.rotation t ≠ [] →
    ∃ u, exec (.reliefWarmupEnd t) s = .next u ∧ (u.relief t).warmUntil = none ∧ (u.relief t).waiting = true
      ∧ u.fld (Reg.calStat t) 10 8 = 6 ∧ s.KeepsRegs u [Reg.calStat t])
  ∧ (∀ (s : State) (t : Tile) (terms : List (Word × Word)), s.bit (Reg.calStat t) 20 = true →
    (s.relief t).rangeOp = none → terms.length = 16 →
    ∃ u, exec (.rangeCalDone t terms) s = .next u ∧ u.bit (Reg.calStat t) 20 = false
      ∧ (∀ (k : Chan) (x : Word × Word), terms[k.val]? = some x →
          u.get (Reg.calChAmp0 t k) = x.1 &&& 0x0FFF0FFF ∧ u.get (Reg.calChAmp1 t k) = x.2 &&& 0xFFF)
      ∧ u.bcp = s.bcp)
  ∧ (∀ (s : State) (t : Tile) (sl : Nat) (x : Trims) (at_ : Nat), (s.relief t).manual = some (sl, x, at_) → sl < 16 →
    s.tileSampling t = true → s.nextFrame ≤ s.samplePos + 2000 → s.heldOpen (16 * t.val + s.servesOf t sl) = false →
    ∃ u, exec (.manualTrimEffect t) s = .next u ∧ (u.relief t).manual = none
      ∧ u.get (Reg.slcSlTrim0 t sl) = x.t0 &&& 0x0FFF0FFF ∧ u.get (Reg.slcSlTrim3 t sl) = x.t3 &&& 0xFFF
      ∧ u.bit (Reg.calManCtrl t) 9 = false)


/-! ### Register rows of the command table -/

/-- R49, R50: a pin takes its role and index; one that would break a rule of R50 is refused with its status. R56, R57: ARM
latches the launch time in the LAUNCH registers and arms the source, or marks it LATE where that time is less than 20
µs ahead; DISARM ends it. That a write of both starts the source anew, and that an armed source is armed anew, is the
model's reading (log entry 49). -/
def Obligations.PinAndSourceWritesComplete : Prop :=
  (∀ (s : State) (r : Req) (x : Session) (t : Tile) (p : Pin) (v : Word), Served s (Form.make 0x0101 8 State.inAll) r x →
    s.addrRefused (Reg.jctPin t p) = none → s.pinCheck t p (bits v 2 0) (bits v 7 4) = none → s.tileSampling t = false →
    s.clk.stopSampling = false →
    ∃ u, exec (.jctPinWrite r t p v) s = .next u ∧ Replied u r 0x0101 St.ok [] ∧ u.pinRole t p = bits v 2 0
      ∧ u.pinIndex t p = bits v 7 4 ∧ s.KeepsRegs u [Reg.lnkPortRx r.port, Reg.jctPin t p])
  ∧ (∀ (s : State) (r : Req) (x : Session) (t : Tile) (p q : Pin) (v : Word),
    Served s (Form.make 0x0101 8 State.inAll) r x → s.addrRefused (Reg.jctPin t p) = none →
    (bits v 2 0 = 1 ∨ bits v 2 0 = 2) → q ≠ p → s.pinRole t q = bits v 2 0 → s.pinIndex t q = bits v 7 4 →
    ∃ u, exec (.jctPinWrite r t p v) s = .next u ∧ Replied u r 0x0101 St.routeConflict []
      ∧ s.KeepsRegs u [Reg.lnkPortRx r.port])
  ∧ (∀ (s : State) (r : Req) (x : Session) (t : Tile) (p : Pin) (v : Word) (st : BitVec 16),
    Served s (Form.make 0x0101 8 State.inAll) r x → s.addrRefused (Reg.jctPin t p) = none →
    s.pinCheck t p (bits v 2 0) (bits v 7 4) = some st →
    ∃ u, exec (.jctPinWrite r t p v) s = .next u ∧ Replied u r 0x0101 st [] ∧ s.KeepsRegs u [Reg.lnkPortRx r.port])
  ∧ (∀ (s : State) (r : Req) (x : Session) (t : Tile) (e : Fin 4) (v : Word) (l : Nat),
    Served s (Form.make 0x0101 8 State.inAll) r x → s.addrRefused (Reg.jctExCtrl t e) = none → v.getLsbD 8 = true →
    s.armRefused t e = false → s.launchTime (s.get (Reg.jctExLaunchS t e)).toNat (s.fld (Reg.jctExLaunchNs t e) 29 0)
      (s.fld (Reg.jctExLaunchFr t e) 15 0) = l → s.tim.mt + usU 20 ≤ l →
    ∃ u, exec (.excitationArm r t e v) s = .next u ∧ Replied u r 0x0101 St.ok [] ∧ u.findArm t e = some ⟨e, l, 0⟩
      ∧ u.bit (Reg.jctExStat t e) 0 = true ∧ u.fld (Reg.jctExStat t e) 31 16 = 0
      ∧ s.KeepsRegs u [Reg.lnkPortRx r.port, Reg.jctExStat t e])
  ∧ (∀ (s : State) (r : Req) (x : Session) (t : Tile) (e : Fin 4) (v : Word) (l : Nat),
    Served s (Form.make 0x0101 8 State.inAll) r x → s.addrRefused (Reg.jctExCtrl t e) = none → v.getLsbD 8 = true →
    s.armRefused t e = false → s.launchTime (s.get (Reg.jctExLaunchS t e)).toNat (s.fld (Reg.jctExLaunchNs t e) 29 0)
      (s.fld (Reg.jctExLaunchFr t e) 15 0) = l → l < s.tim.mt + usU 20 →
    ∃ u, exec (.excitationArm r t e v) s = .next u ∧ Replied u r 0x0101 St.ok [] ∧ u.findArm t e = none
      ∧ u.bit (Reg.jctExStat t e) 0 = false ∧ u.bit (Reg.jctExStat t e) 1 = true)
  ∧ (∀ (s : State) (r : Req) (x : Session) (t : Tile) (e : Fin 4) (v : Word),
    Served s (Form.make 0x0101 8 State.inAll) r x → s.addrRefused (Reg.jctExCtrl t e) = none → v.getLsbD 9 = true →
    v.getLsbD 8 = false →
    ∃ u, exec (.excitationDisarm r t e v) s = .next u ∧ Replied u r 0x0101 St.ok [] ∧ u.findArm t e = none
      ∧ u.bit (Reg.jctExStat t e) 0 = false ∧ s.KeepsRegs u [Reg.lnkPortRx r.port, Reg.jctExStat t e])

/-- R105, R112, R113: CLEAR_PARK asks for a new dwell on a parked slice; RANGE_CAL, in Calibrate alone, starts a range
calibration; APPLY of manual trims waits for its boundary, and is refused while the rotation runs. What a register of
CAL_MAN_ refuses while RUN is 1, and that APPLY latches slice, values and the moment, are the model's readings (log
entries 28 and 129). What a register of CAL_MAN_ refuses while RUN is 1 is the model's reading (log entry 28). -/
def Obligations.RotationWritesComplete : Prop :=
  (∀ (s : State) (r : Req) (x : Session) (t : Tile) (v : Word), Served s (Form.make 0x0101 8 State.inAll) r x →
    s.addrRefused (Reg.calCtrl t) = none → v.getLsbD 8 = true → v.getLsbD 9 = false → (s.relief t).parked.isSome = true →
    (s.relief t).dwell = none →
    ∃ u, exec (.clearPark r t v) s = .next u ∧ Replied u r 0x0101 St.ok [] ∧ (u.relief t).retry = true
      ∧ (u.relief t).waiting = true ∧ u.fld (Reg.calStat t) 10 8 = 6
      ∧ s.KeepsRegs u [Reg.lnkPortRx r.port, Reg.calStat t])
  ∧ (∀ (s : State) (r : Req) (x : Session) (t : Tile) (v : Word), Served s (Form.make 0x0101 8 State.inAll) r x →
    s.addrRefused (Reg.calCtrl t) = none → v.getLsbD 9 = true → v.getLsbD 8 = false → s.inMode .calibrate = true →
    ∃ u, exec (.calCtrlRangeCal r t v) s = .next u ∧ Replied u r 0x0101 St.ok [] ∧ u.bit (Reg.calStat t) 20 = true
      ∧ s.KeepsRegs u [Reg.lnkPortRx r.port, Reg.calStat t])
  ∧ (∀ (s : State) (r : Req) (x : Session) (t : Tile) (v : Word), Served s (Form.make 0x0101 8 State.inAll) r x →
    s.addrRefused (Reg.calCtrl t) = none → v.getLsbD 9 = true → s.inMode .calibrate = false →
    ∃ u, exec (.calCtrlRangeCal r t v) s = .next u ∧ Replied u r 0x0101 St.wrongMode []
      ∧ s.KeepsRegs u [Reg.lnkPortRx r.port])
  ∧ (∀ (s : State) (r : Req) (x : Session) (t : Tile) (v : Word), Served s (Form.make 0x0101 8 State.inAll) r x →
    s.addrRefused (Reg.calManCtrl t) = none → v.getLsbD 8 = true → bits v 4 0 ≤ 16 → s.calRun t = false →
    (s.relief t).parked = none →
    ∃ u, exec (.manualTrimApply r t v) s = .next u ∧ Replied u r 0x0101 St.ok []
      ∧ (u.relief t).manual = some (bits v 4 0, ⟨s.get (Reg.calManTrim0 t), s.get (Reg.calManTrim1 t),
          s.get (Reg.calManTrim2 t), s.get (Reg.calManTrim3 t)⟩, s.tim.now)
      ∧ u.bit (Reg.calManCtrl t) 9 = true ∧ s.KeepsRegs u [Reg.lnkPortRx r.port, Reg.calManCtrl t])
  ∧ (∀ (s : State) (r : Req) (x : Session) (t : Tile) (v : Word), Served s (Form.make 0x0101 8 State.inAll) r x →
    s.addrRefused (Reg.calManCtrl t) = none → bits v 4 0 ≤ 16 → s.calRun t = true →
    ∃ u, exec (.manualTrimApply r t v) s = .next u ∧ Replied u r 0x0101 St.busyRunning [] ∧ u.tiles = s.tiles)

/-- R299, R301, R303: with both Mainlines enabled and MODE as it was, SWITCH makes the other one active, and EXERCISE_B
starts the exercise stream in Test, where alone it may be written 1. R4: CW-ST64-L has no Mainline B and answers
NOT_FITTED. -/
def Obligations.MainlineWritesComplete : Prop :=
  (∀ (s : State) (r : Req) (x : Session) (v : Word), Served s (Form.make 0x0101 8 State.inAll) r x →
    s.addrRefused Reg.lnkMlCtrl = none → s.variant = .f → s.fld Reg.lnkMlCtrl 5 4 = 1 → s.fld Reg.lnkMlCtrl 1 0 = 3 →
    bits v 5 4 = 1 → bits v 1 0 = 3 → bits v 23 16 ≠ 0 → v.getLsbD 8 = true → s.bit Reg.lnkMlCtrl 9 = false →
    v.getLsbD 9 = false → s.mlUp (if s.mlActive = 0 then 1 else 0) = true →
    ∃ u, exec (.lnkSwitch r v) s = .next u ∧ Replied u r 0x0101 St.ok [] ∧ u.mlActive = (if s.mlActive = 0 then 1 else 0)
      ∧ u.bit Reg.lnkMlStat 8 = true
      ∧ (u.get Reg.lnkSwitchovers).toNat = min (2 ^ 32 - 1) ((s.get Reg.lnkSwitchovers).toNat + 1))
  ∧ (∀ (s : State) (r : Req) (x : Session) (v : Word), Served s (Form.make 0x0101 8 State.inAll) r x →
    s.addrRefused Reg.lnkMlCtrl = none → s.variant = .f → s.fld Reg.lnkMlCtrl 5 4 = 1 → s.fld Reg.lnkMlCtrl 1 0 = 3 →
    bits v 5 4 = 1 → bits v 1 0 = 3 → bits v 23 16 ≠ 0 → v.getLsbD 8 = false → s.bit Reg.lnkMlCtrl 9 = false →
    v.getLsbD 9 = true → s.inMode .test = true → s.bit Reg.lnkMlStat 10 = false →
    ∃ u, exec (.exerciseB r v) s = .next u ∧ Replied u r 0x0101 St.ok [] ∧ u.bit Reg.lnkMlStat 10 = true
      ∧ u.bit Reg.lnkMlCtrl 9 = true ∧ u.stream exerciseStream = some (Stream.fresh exerciseStream))
  ∧ (∀ (s : State) (r : Req) (x : Session) (v : Word), Served s (Form.make 0x0101 8 State.inAll) r x →
    s.addrRefused Reg.lnkMlCtrl = none → v.getLsbD 9 = true → s.inMode .test = false →
    ∃ u, exec (.exerciseB r v) s = .next u ∧ Replied u r 0x0101 St.wrongMode [] ∧ LnkKept s u
      ∧ s.KeepsRegs u [Reg.lnkPortRx r.port])
  ∧ (∀ (s : State) (r : Req) (x : Session) (v : Word), Served s (Form.make 0x0101 8 State.inAll) r x →
    s.addrRefused Reg.lnkMlCtrl = none → s.variant = .l → v.getLsbD 9 = false → bits v 5 4 ≤ 2 → bits v 23 16 ≠ 0 →
    (bits v 5 4 ≠ 0 ∨ v.getLsbD 1 = true ∨ v.getLsbD 8 = true) →
    ∃ u, exec (.lnkSwitch r v) s = .next u ∧ Replied u r 0x0101 St.notFitted [] ∧ LnkKept s u
      ∧ s.KeepsRegs u [Reg.lnkPortRx r.port])

/-- R222, R226: writing 1 to the CMP_QUAR bit of a quarantined engine ends its quarantine and restarts its fault window;
the windows of the others stay, and where no engine holds a block nothing else changes. An injection is armed in Test
alone. -/
def Obligations.EngineWritesComplete : Prop :=
  (∀ (s : State) (r : Req) (x : Session) (v : Word), Served s (Form.make 0x0101 8 State.inAll) r x →
    s.addrRefused Reg.cmpQuar = none →
    ∃ u, exec (.quarantineRelease r v) s = .next u ∧ Replied u r 0x0101 St.ok []
      ∧ u.get Reg.cmpQuar = s.get Reg.cmpQuar &&& ~~~v
      ∧ (∀ f, f ∈ u.cmp.faults ↔ f ∈ s.cmp.faults ∧ (v &&& s.get Reg.cmpQuar).getLsbD f.1 = false)
      ∧ s.KeepsRegs u [Reg.lnkPortRx r.port, Reg.cmpQuar, Reg.cmpUnresolved, Reg.cmpInject]
      ∧ ((∀ e, s.jobs e = []) → u.cmp.jobs = s.cmp.jobs ∧ s.KeepsRegs u [Reg.lnkPortRx r.port, Reg.cmpQuar]))
  ∧ (∀ (s : State) (r : Req) (x : Session) (v : Word), Served s (Form.make 0x0101 8 State.inAll) r x →
    s.addrRefused Reg.cmpInject = none → s.inMode .test = true →
    ∃ u, exec (.cmpInject r v) s = .next u ∧ Replied u r 0x0101 St.ok [] ∧ u.fld Reg.cmpInject 20 16 = bits v 20 16
      ∧ u.fld Reg.cmpInject 1 0 = bits v 1 0 ∧ (v.getLsbD 8 = true → u.bit Reg.cmpInject 8 = false)
      ∧ s.KeepsRegs u [Reg.lnkPortRx r.port, Reg.cmpInject])
  ∧ (∀ (s : State) (r : Req) (x : Session) (v : Word), Served s (Form.make 0x0101 8 State.inAll) r x →
    s.addrRefused Reg.cmpInject = none → s.inMode .test = false →
    ∃ u, exec (.cmpInject r v) s = .next u ∧ Replied u r 0x0101 St.wrongMode [] ∧ s.KeepsRegs u [Reg.lnkPortRx r.port])

/-- R178, R181, R210: a new division of the Depot in Standby with no hold empties Ring and Store; flip masks are armed and
their address set in Test; an address in the System region is refused (R179); DPT_MAP_SEL latches the map's entry. -/
def Obligations.DepotWritesComplete : Prop :=
  (∀ (s : State) (r : Req) (x : Session) (v : Word), Served s (Form.make 0x0101 8 State.inAll) r x →
    s.addrRefused Reg.dptRegion = none → s.inMode .standby = true → (∀ n : Fin 4, s.holdState n = 0) →
    bits v 7 0 ≠ 0 → bits v 15 8 ≠ 0 → bits v 7 0 + bits v 15 8 + bits v 23 16 + 4 ≤ s.fitted / 4096 →
    ∃ u, exec (.dptRegionWrite r v) s = .next u ∧ Replied u r 0x0101 St.ok [] ∧ u.ringGib = bits v 7 0
      ∧ u.storeGib = bits v 15 8 ∧ u.holdGib = bits v 23 16
      ∧ u.fld Reg.dptRegion 31 24 = s.fitted / 4096 - bits v 7 0 - bits v 15 8 - bits v 23 16
      ∧ u.dpt.units = [] ∧ u.dpt.recs = [] ∧ u.dpt.ringPos = none ∧ u.dpt.storePos = none
      ∧ s.KeepsRegs u [Reg.lnkPortRx r.port, Reg.dptRegion, Reg.dptMapflipCtrl, Reg.dptMapflipMask0, Reg.dptMapflipMask1,
          Reg.dptMapflipMask2, Reg.dptMapflipLast])
  ∧ (∀ (s : State) (r : Req) (x : Session) (v : Word), Served s (Form.make 0x0101 8 State.inAll) r x →
    s.addrRefused Reg.dptFlipCtrl = none → s.inMode .test = true →
    ∃ u, exec (.dptFlipArm r v) s = .next u ∧ Replied u r 0x0101 St.ok [] ∧ u.fld Reg.dptFlipCtrl 15 8 = bits v 15 8
      ∧ u.fld Reg.dptFlipCtrl 1 0 = bits v 1 0 ∧ s.KeepsRegs u [Reg.lnkPortRx r.port, Reg.dptFlipCtrl])
  ∧ (∀ (s : State) (r : Req) (x : Session) (v : Word), Served s (Form.make 0x0101 8 State.inAll) r x →
    s.addrRefused Reg.dptFlipAddr = none → s.inMode .test = true →
    (bits v 30 0 / 4096 < s.systemBase ∨ s.fitted ≤ bits v 30 0 / 4096) →
    ∃ u, exec (.dptFlipAddr r v) s = .next u ∧ Replied u r 0x0101 St.ok [] ∧ u.fld Reg.dptFlipAddr 30 0 = bits v 30 0
      ∧ s.KeepsRegs u [Reg.lnkPortRx r.port, Reg.dptFlipAddr])
  ∧ (∀ (s : State) (r : Req) (x : Session) (v : Word), Served s (Form.make 0x0101 8 State.inAll) r x →
    s.addrRefused Reg.dptFlipAddr = none → s.inMode .test = true → s.systemBase ≤ bits v 30 0 / 4096 →
    bits v 30 0 / 4096 < s.fitted →
    ∃ u, exec (.dptFlipAddr r v) s = .next u ∧ Replied u r 0x0101 St.badAddress [] ∧ s.KeepsRegs u [Reg.lnkPortRx r.port])
  ∧ (∀ (s : State) (r : Req) (x : Session) (v : Word), Served s (Form.make 0x0101 8 State.inAll) r x →
    s.addrRefused Reg.dptMapflipCtrl = none → s.inMode .test = true →
    ∃ u, exec (.dptMapflipArm r v) s = .next u ∧ Replied u r 0x0101 St.ok []
      ∧ u.bit Reg.dptMapflipCtrl 0 = v.getLsbD 0 ∧ s.KeepsRegs u [Reg.lnkPortRx r.port, Reg.dptMapflipCtrl])
  ∧ (∀ (s : State) (r : Req) (x : Session) (v : Word), Served s (Form.make 0x0101 8 State.inAll) r x →
    s.addrRefused Reg.dptMapSel = none → bits v 18 0 < s.fitted → lookupK (bits v 18 0) s.dpt.mapErrs = none →
    ∃ u, exec (.dptMapSel r v) s = .next u ∧ Replied u r 0x0101 St.ok []
      ∧ u.dpt.mapSel = entWord (s.mapEnt (bits v 18 0)) ∧ u.fld Reg.dptMapSel 18 0 = bits v 18 0
      ∧ s.KeepsRegs u [Reg.lnkPortRx r.port, Reg.dptMapSel])

/-- R230: SNAP latches module time and the three bases, each with its validity. R369, R379: RESTORE takes the last shed
step back; RETIRE retires the lanes it names at once, unless fewer than two would vote, and RESYNC asks for lanes to
be resynchronized. -/
def Obligations.SnapPowerAndLaneWritesComplete : Prop :=
  (∀ (s : State) (r : Req) (x : Session) (v : Word), Served s (Form.make 0x0101 8 State.inAll) r x →
    s.addrRefused Reg.timSnap = none → v.getLsbD 0 = true →
    ∃ u, exec (.timSnap r v) s = .next u ∧ Replied u r 0x0101 St.ok [] ∧ u.tim = s.tim
      ∧ ∀ (i : Fin 4) (y : Nat × Bool), s.scales[i.val]? = some y →
          (u.get64 (Reg.timSnSLo i) (Reg.timSnSHi i)).toNat = secOf y.1 % 2 ^ 64
          ∧ (u.get (Reg.timSnNs i)).toNat = nsOf y.1 ∧ u.fld (Reg.timSnFr i) 15 0 = frOf y.1
          ∧ u.bit (Reg.timSnFr i) 31 = y.2)
  ∧ (∀ (s : State) (r : Req) (x : Session) (v : Word) (l : List (Nat × BitVec 64 × Bool)) (q : Nat × BitVec 64 × Bool),
    Served s (Form.make 0x0101 8 State.inAll) r x → s.addrRefused Reg.pwrStat = none → v.getLsbD 11 = true →
    s.tt.steps = l ++ [q] → l.length < 16 →
    ∃ u, exec (.pwrStatRestore r v) s = .next u ∧ Replied u r 0x0101 St.ok [] ∧ u.tt.steps = l
      ∧ u.fld Reg.pwrStat 27 24 = l.length ∧ u.bit Reg.pwrDegraded 0 = !l.isEmpty)
  ∧ (∀ (s : State) (r : Req) (x : Session) (v : Word) (l : Fin 3), Served s (Form.make 0x0101 8 State.inAll) r x →
    s.addrRefused Reg.ilkLaneCtrl = none → bits v 10 8 = 0 → v.getLsbD l = true → s.voting l = true →
    ∃ u, exec (.ilkLaneResync r v) s = .next u ∧ Replied u r 0x0101 St.ok [] ∧ u.ilk.forced.contains l.val = true
      ∧ s.KeepsRegs u [Reg.lnkPortRx r.port])
  ∧ (∀ (s : State) (r : Req) (x : Session) (v : Word) (l : Fin 3), Served s (Form.make 0x0101 8 State.inAll) r x →
    s.addrRefused Reg.ilkLaneCtrl = none → s.retireRefused (bits v 10 8) = false → v.getLsbD (8 + l.val) = true →
    ∃ u, exec (.ilkLaneRetire r v) s = .next u ∧ Replied u r 0x0101 St.ok [] ∧ u.laneRetired l = true
      ∧ (s.laneRetired l = false → u.voting l = false ∧ u.bit Reg.pwrDegraded 1 = true))
  ∧ (∀ (s : State) (r : Req) (x : Session) (v : Word), Served s (Form.make 0x0101 8 State.inAll) r x →
    s.addrRefused Reg.ilkLaneCtrl = none → s.retireRefused (bits v 10 8) = true →
    ∃ u, exec (.ilkLaneRetire r v) s = .next u ∧ Replied u r 0x0101 St.badValue [] ∧ s.KeepsRegs u [Reg.lnkPortRx r.port])

/-- R277, R280: a host gate of idle islands closes at once and one that the host alone held opens; an island that stays
busy fails the write, which is counted, and every gate stays as it was; an island in use refuses it. R40, R276, R278:
a wanted request stops an island's boundary; when its handshake is idle the gate closes, and the clock runs again when
the last request is withdrawn. R277: a handshake that is not idle in time fails and is counted, its island named, a
fault's island fenced, a host's request withdrawn. R220: a retry that waits is offered to the engine whose gate opens;
with no block in any engine the opening changes the gates alone. -/
def Obligations.ClockGatesComplete : Prop :=
  (∀ (s : State) (r : Req) (x : Session) (v busy : Word), Served s (Form.make 0x0101 8 State.inAll) r x →
    s.addrRefused Reg.clkGateHostEng = none → (v = 0 ∨ s.inMode .test = true) →
    v &&& ~~~(s.get Reg.clkGateHostEng) &&& busy = 0 →
    ∃ u, exec (.clkGateHostEng r v busy) s = .next u ∧ Replied u r 0x0101 St.ok [] ∧ u.get Reg.clkGateHostEng = v
      ∧ (∀ i, i < 32 → v.getLsbD i = true → s.bit Reg.clkGateHostEng i = false → u.gated i = true)
      ∧ (∀ i, i < 32 → v.getLsbD i = false → s.bit Reg.clkGateHostEng i = true → s.gateReqs i = (false, false, true) →
          u.gated i = false))
  ∧ (∀ (s : State) (r : Req) (x : Session) (v busy : Word) (i : Nat), Served s (Form.make 0x0101 8 State.inAll) r x →
    s.addrRefused Reg.clkGateHostEng = none → s.inMode .test = true →
    (bitList (v &&& ~~~(s.get Reg.clkGateHostEng))).find? (fun i => busy.getLsbD i) = some i →
    ∃ u, exec (.clkGateHostEng r v busy) s = .next u ∧ Replied u r 0x0101 St.gateBusy []
      ∧ u.get Reg.clkGateLast = BitVec.ofNat 32 i ∧ u.clk = s.clk ∧ Counted s u Reg.clkGateBusy 1
      ∧ s.KeepsRegs u [Reg.lnkPortRx r.port, Reg.clkGateBusy, Reg.clkGateLast])
  ∧ (∀ (s : State) (r : Req) (x : Session) (v busy : Word), Served s (Form.make 0x0101 8 State.inAll) r x →
    s.addrRefused Reg.clkGateHostMisc = none → v &&& ~~~(s.get Reg.clkGateHostMisc) &&& s.miscUse = 0 →
    v &&& ~~~(s.get Reg.clkGateHostMisc) &&& busy = 0 →
    ∃ u, exec (.clkGateHostMisc r v busy) s = .next u ∧ Replied u r 0x0101 St.ok [] ∧ u.get Reg.clkGateHostMisc = v &&& 7
      ∧ (∀ i, i < 3 → v.getLsbD i = true → s.bit Reg.clkGateHostMisc i = false → u.gated (33 + i) = true))
  ∧ (∀ (s : State) (r : Req) (x : Session) (v busy : Word), Served s (Form.make 0x0101 8 State.inAll) r x →
    s.addrRefused Reg.clkGateHostMisc = none → v &&& ~~~(s.get Reg.clkGateHostMisc) &&& s.miscUse ≠ 0 →
    ∃ u, exec (.clkGateHostMisc r v busy) s = .next u ∧ Replied u r 0x0101 St.busyRunning [] ∧ u.clk = s.clk
      ∧ s.KeepsRegs u [Reg.lnkPortRx r.port])
  ∧ (∀ (s : State) (r : Req) (x : Session) (v busy : Word) (i : Nat), Served s (Form.make 0x0101 8 State.inAll) r x →
    s.addrRefused Reg.clkGateHostMisc = none → v &&& ~~~(s.get Reg.clkGateHostMisc) &&& s.miscUse = 0 →
    (bitList (v &&& 7 &&& ~~~(s.get Reg.clkGateHostMisc))).find? (fun i => busy.getLsbD i) = some i →
    ∃ u, exec (.clkGateHostMisc r v busy) s = .next u ∧ Replied u r 0x0101 St.gateBusy []
      ∧ u.get Reg.clkGateLast = BitVec.ofNat 32 (33 + i) ∧ u.clk = s.clk ∧ Counted s u Reg.clkGateBusy 1
      ∧ s.KeepsRegs u [Reg.lnkPortRx r.port, Reg.clkGateBusy, Reg.clkGateLast])
  ∧ (∀ (s : State) (i : Fin 36) (b : Requester), s.modes.control = true → s.gateWanted i b = true →
    ∃ u, exec (.gateRequest i b) s = .next u ∧ u.gateReqs i = withReq (s.gateReqs i) b true ∧ u.regs = s.regs
      ∧ (s.gated i = false → i.val ∈ u.clk.closing)
      ∧ (∀ j, j ≠ i.val → u.gateReqs j = s.gateReqs j ∧ (j ∈ u.clk.closing ↔ j ∈ s.clk.closing)))
  ∧ (∀ (s : State) (i : Fin 36), i.val ∈ s.clk.closing →
    ∃ u, exec (.gateClosed i) s = .next u ∧ u.gated i = true ∧ i.val ∉ u.clk.closing
      ∧ (∀ j : Fin 36, j ≠ i → u.gated j = s.gated j)
      ∧ s.KeepsRegs u [Reg.clkGateStatEng, Reg.clkGateStatMisc])
  ∧ (∀ (s : State) (i : Fin 36), i.val ∈ s.clk.closing →
    ∃ u, exec (.gateBusy i) s = .next u ∧ i.val ∉ u.clk.closing ∧ Counted s u Reg.clkGateBusy 1
      ∧ u.get Reg.clkGateLast = BitVec.ofNat 32 i.val
      ∧ u.gateReqs i = ((s.gateReqs i).1, (s.gateReqs i).2.1, false)
      ∧ ((s.gateReqs i).2.1 = true → i.val ∈ u.clk.fenced)
      ∧ s.KeepsRegs u [Reg.clkGateBusy, Reg.clkGateLast])
  ∧ (∀ (s : State) (i : Fin 36) (b : Requester), s.gateWanted i b = false →
    ∃ u, exec (.gateOpen i b) s = .next u ∧ u.gateReqs i = withReq (s.gateReqs i) b false
      ∧ (withReq (s.gateReqs i) b false = (false, false, false) →
          u.gated i = false ∧ i.val ∉ u.clk.closing ∧ i.val ∉ u.clk.fenced)
      ∧ (withReq (s.gateReqs i) b false ≠ (false, false, false) → u.gated i = s.gated i ∧ u.clk.closing = s.clk.closing
          ∧ u.clk.fenced = s.clk.fenced)
      ∧ (∀ j : Fin 36, j ≠ i → u.gated j = s.gated j)
      ∧ s.KeepsRegs u [Reg.clkGateStatEng, Reg.clkGateStatMisc, Reg.cmpUnresolved, Reg.cmpInject]
      ∧ ((∀ e, s.jobs e = []) → s.KeepsRegs u [Reg.clkGateStatEng, Reg.clkGateStatMisc] ∧ u.cmp = s.cmp))

/-- R316: in Test a provocation is armed by its register or by PROVOKE, its frame count begun afresh; outside Test both
are answered WRONG_MODE. Said of a port whose own reply does not pass the provocation at once. R4: target 1, Mainline
B, is not fitted in CW-ST64-L. -/
def Obligations.ProvocationsAreArmed : Prop :=
  (∀ (s : State) (r : Req) (x : Session) (i : Fin 11) (v : Word), Served s (Form.make 0x0101 8 State.inAll) r x →
    s.addrRefused (Reg.lnkProvCtrl i) = none → s.inMode .test = true → bits v 2 0 ≤ 4 → dirOk i (v.getLsbD 8) = true →
    v.getLsbD 31 = true → (s.variant = .f ∨ i ≠ 1) →
    ∃ u, exec (.lnkProvArm r i v) s = .next u ∧ Replied u r 0x0101 St.ok []
      ∧ s.KeepsRegs u [Reg.lnkPortRx r.port, Reg.lnkProvCtrl i] ∧ (i.val ≠ r.port.val ∨ v.getLsbD 8 = true →
        u.bit (Reg.lnkProvCtrl i) 31 = true ∧ u.bit (Reg.lnkProvCtrl i) 8 = v.getLsbD 8
        ∧ u.fld (Reg.lnkProvCtrl i) 2 0 = bits v 2 0 ∧ lookupK i.val u.lnk.prov = none))
  ∧ (∀ (s : State) (r : Req) (x : Session) (i : Fin 11) (v : Word), Served s (Form.make 0x0101 8 State.inAll) r x →
    s.addrRefused (Reg.lnkProvCtrl i) = none → s.inMode .test = false →
    ∃ u, exec (.lnkProvArm r i v) s = .next u ∧ Replied u r 0x0101 St.wrongMode [] ∧ s.KeepsRegs u [Reg.lnkPortRx r.port])
  ∧ (∀ (s : State) (r : Req) (x : Session) (v : Word), Served s (Form.make 0x0101 8 State.inAll) r x →
    s.addrRefused (Reg.lnkProvCtrl 1) = none → s.inMode .test = true → bits v 2 0 ≤ 4 → s.variant = .l →
    ∃ u, exec (.lnkProvArm r 1 v) s = .next u ∧ Replied u r 0x0101 St.notFitted [] ∧ s.KeepsRegs u [Reg.lnkPortRx r.port])
  ∧ (∀ (s : State) (r : Req) (x : Session) (m d : Byte) (n : Word) (k o : BitVec 16) (pat : Word),
    Served s ⟨0x0A00, 16, true, false, false, State.inTest⟩ r x → r.target.toNat ≤ 10 → m.toNat ≤ 4 → d.toNat ≤ 1 →
    n ≠ 0 → (m = 4 → k ≠ 0) → dirOk r.target.toNat (d = 1) = true → (s.variant = .f ∨ r.target ≠ 1) →
    ∃ u, exec (.provoke r m d n k o pat) s = .next u ∧ Replied u r 0x0A00 St.ok []
      ∧ u.get (Reg.lnkProvN r.target.toNat) = n ∧ u.get (Reg.lnkProvK r.target.toNat) = k ++ o
      ∧ u.get (Reg.lnkProvPat r.target.toNat) = pat ∧ (r.target.toNat ≠ r.port.val ∨ d = 1 →
        u.bit (Reg.lnkProvCtrl r.target.toNat) 31 = true ∧ u.fld (Reg.lnkProvCtrl r.target.toNat) 8 8 = d.toNat
        ∧ u.fld (Reg.lnkProvCtrl r.target.toNat) 2 0 = m.toNat ∧ lookupK r.target.toNat u.lnk.prov = none))
  ∧ (∀ (s : State) (r : Req) (x : Session) (m d : Byte) (n : Word) (k o : BitVec 16) (pat : Word),
    Served s ⟨0x0A00, 16, true, false, false, fun _ => true⟩ r x → (s.arrived r).inTest = false →
    ∃ u, exec (.provoke r m d n k o pat) s = .next u ∧ Replied u r 0x0A00 St.wrongMode []
      ∧ s.KeepsRegs u [Reg.lnkPortRx r.port])
  ∧ (∀ (s : State) (r : Req) (x : Session) (m d : Byte) (n : Word) (k o : BitVec 16) (pat : Word),
    Served s ⟨0x0A00, 16, true, false, false, State.inTest⟩ r x → s.variant = .l → r.target = 1 → m.toNat ≤ 4 →
    d.toNat ≤ 1 → n ≠ 0 → (m = 4 → k ≠ 0) →
    ∃ u, exec (.provoke r m d n k o pat) s = .next u ∧ Replied u r 0x0A00 St.notFitted []
      ∧ s.KeepsRegs u [Reg.lnkPortRx r.port])

/-! ### Time, settings, trust under command (R230, R243, R340, R343, R361, R380, R386, R392, R395–R402) -/

/-- R243: STEP_TIME, outside sampling, queues a step of its form for the next steering tick; to the reference it needs a
LOCKED domain. R340: TIME_READ, CST_INFO and BUDGET_REPORT answer what they name and change nothing. R361: BUDGET_SET
takes a budget within its ranges, at once where the Timetable does not run and else from its next tick on. The order
of VALID's bits is the model's reading (log entry 44). -/
def Obligations.TimeAndSettingsCommandsComplete : Prop :=
  (∀ (s : State) (r : Req) (x : Session) (f : Byte) (o : BitVec 64) (w : Wide),
    Served s (Form.make 0x0500 30 State.inStandby) r x → x.HasRoom → s.modes.sampling = false → f.toNat ≤ 2 →
    (f = 2 → w.ns.toNat < 1000000000) → (f = 0 → s.locked s.timRef = true) →
    ∃ t q, exec (.stepTime r f o w) s = .next t ∧ Accepted t r 0x0500 []
      ∧ t.tim.steps = s.tim.steps ++ [⟨f.toNat, if f = 1 then signed 64 o.toNat else if f = 2 then Machine.Wide.toU w else 0, some q⟩]
      ∧ t.tim.mt = s.tim.mt ∧ s.KeepsRegs t [Reg.lnkPortRx r.port])
  ∧ (∀ (s : State) (r : Req) (x : Session) (o : BitVec 64) (w : Wide),
    Served s (Form.make 0x0500 30 State.inStandby) r x → s.modes.sampling = false → s.locked s.timRef = false →
    ∃ t, exec (.stepTime r 0 o w) s = .next t ∧ Replied t r 0x0500 St.notLocked [] ∧ t.tim = s.tim)
  ∧ (∀ (s : State) (r : Req) (x : Session), Served s (Form.make 0x0501 0 State.inAll) r x →
    ∃ t, exec (.timeRead r) s = .next t ∧ t.tim = s.tim ∧ s.KeepsRegs t [Reg.lnkPortRx r.port]
      ∧ Replied t r 0x0501 St.ok ((s.scales.flatMap fun (y : Nat × Bool) => wideBytes y.1)
          ++ beBytes 1 (1 + 2 * (s.domValid 0).toNat + 4 * (s.domValid 1).toNat + 8 * (s.bit Reg.clkStat 6).toNat) ++ [0, 0, 0]))
  ∧ (∀ (s : State) (r : Req) (x : Session), Served s (Form.make 0x0700 0 State.inAll) r x →
    ∃ t, exec (.cstInfo r) s = .next t ∧ s.KeepsRegs t [Reg.lnkPortRx r.port] ∧ t.pers = s.pers
      ∧ Replied t r 0x0700 St.ok (beBytes 1 s.inForce ++ beBytes 1 (s.fld Reg.cstStat 5 4) ++ beBytes 2 0
          ++ beBytes 4 (s.get Reg.cstGen0).toNat ++ beBytes 4 (s.get Reg.cstGen1).toNat))
  ∧ (∀ (s : State) (r : Req) (x : Session) (p q : BitVec 16), Served s (Form.make 0x0900 4 State.inRun) r x →
    60 ≤ p.toNat → p.toNat ≤ (if s.variant = .f then 250 else 226) → 60 ≤ q.toNat → q.toNat ≤ 150 →
    ∃ t, exec (.budgetSet r p q) s = .next t ∧ Replied t r 0x0900 St.ok [] ∧ t.getShadow Reg.pwrBudget = q ++ p
      ∧ (s.tt.running = true → t.tt.budget = some (q ++ p) ∧ s.KeepsRegs t [Reg.lnkPortRx r.port])
      ∧ (s.tt.running = false → t.get Reg.pwrBudget = q ++ p ∧ s.KeepsRegs t [Reg.lnkPortRx r.port, Reg.pwrBudget]))
  ∧ (∀ (s : State) (r : Req) (x : Session) (p q : BitVec 16), Served s (Form.make 0x0900 4 State.inRun) r x →
    (p.toNat < 60 ∨ (if s.variant = .f then 250 else 226) < p.toNat ∨ q.toNat < 60 ∨ 150 < q.toNat) →
    ∃ t, exec (.budgetSet r p q) s = .next t ∧ Replied t r 0x0900 St.badValue [] ∧ t.shadow = s.shadow ∧ t.tt = s.tt
      ∧ s.KeepsRegs t [Reg.lnkPortRx r.port])
  ∧ (∀ (s : State) (r : Req) (x : Session), Served s (Form.make 0x0901 0 State.inRun) r x →
    ∃ t, exec (.budgetReport r) s = .next t ∧ s.KeepsRegs t [Reg.lnkPortRx r.port] ∧ t.tt = s.tt
      ∧ Replied t r 0x0901 St.ok (beBytes 1 (s.fld Reg.pwrStat 27 24) ++ beBytes 1 s.lane ++ beBytes 2 0
          ++ beBytes 8 s.shedChans.toNat ++ beBytes 4 (s.fld Reg.pwrBudget 8 0) ++ beBytes 4 (s.get Reg.pwrPIn).toNat))

/-- R343, R399, R398, R340, R395: AUTH_NONCE gives the session a nonce for 60 s, AUTH_LOAD fills its authorization buffer,
ATTEST queues a report, ATTEST_READ and PUBKEY_READ return its bytes and the public key's, FW_LOAD fills the image
buffer; with ATTEST the session no longer holds its earlier report. R380, R386, R387: AUDIT_LANES queues an audit with
its SEED; CST_STORE begins a store of the bank that is not in force, one at a time, whose step 2 follows within 50 ms.
R402: without the attestation engine's power ATTEST is answered NOT_POWERED. That the bytes an AUTH_LOAD leaves out
keep what they held and that audits queue are the model's readings (log entries 27 and 107). -/
def Obligations.TrustCommandsComplete : Prop :=
  (∀ (s : State) (r : Req) (x : Session), Served s (Form.make 0x0800 0 State.inAll) r x →
    ∃ t n y, exec (.authNonce r) s = .next t ∧ Replied t r 0x0800 St.ok (beBytes 16 n.toNat ++ beBytes 4 60)
      ∧ t.findSession r.session = some y ∧ y.nonce = some (n, s.tim.now) ∧ y.auth = x.auth)
  ∧ (∀ (s : State) (r : Req) (x : Session) (o : BitVec 16) (c : List Byte), Served s (Form.make 0x0801 4 State.inAll) r x →
    o.toNat + c.length ≤ 8192 →
    ∃ t y, exec (.authLoad r o c) s = .next t ∧ t.findSession r.session = some y ∧ Replied t r 0x0801 St.ok (beBytes 2 y.auth.length)
      ∧ (∀ i b, (c)[i]? = some b → lookupK (o.toNat + i) y.auth = some b)
      ∧ (∀ a, (a < o.toNat ∨ o.toNat + c.length ≤ a) → lookupK a y.auth = lookupK a x.auth))
  ∧ (∀ (s : State) (r : Req) (x : Session) (c : BitVec 256), Served s (Form.make 0x0802 32 State.inAll) r x → x.HasRoom →
    s.modes.control = true → s.modes.att = true →
    ∃ t q y, exec (.attest r c) s = .next t ∧ Accepted t r 0x0802 [] ∧ t.pers.jobs = s.pers.jobs ++ [.report q c]
      ∧ t.findSession r.session = some y ∧ y.report = [])
  ∧ (∀ (s : State) (r : Req) (x : Session) (c : BitVec 256), Served s (Form.make 0x0802 32 State.inAll) r x →
    s.modes.att = false → ∃ t, exec (.attest r c) s = .next t ∧ Replied t r 0x0802 St.notPowered [] ∧ t.pers = s.pers)
  ∧ (∀ (s : State) (r : Req) (x : Session) (o : Word) (n : BitVec 16), Served s (Form.make 0x0803 6 State.inAll) r x →
    o.toNat < x.report.length →
    ∃ t, exec (.attestRead r o n) s = .next t
      ∧ Replied t r 0x0803 St.ok (beBytes 4 o.toNat ++ (x.report.drop o.toNat).take (min n.toNat 1432)))
  ∧ (∀ (s : State) (r : Req) (x : Session) (o : Word) (n : BitVec 16), Served s (Form.make 0x0804 6 State.inAll) r x →
    s.keyReady = true → o.toNat < 2592 →
    ∃ t, exec (.pubkeyRead r o n) s = .next t
      ∧ Replied t r 0x0804 St.ok (beBytes 4 o.toNat ++ (s.pubKey.drop o.toNat).take (min n.toNat 1432)))
  ∧ (∀ (s : State) (r : Req) (x : Session) (o : Word) (c : List Byte), Served s (Form.make 0x0806 4 State.inUpdate) r x →
    o.toNat + c.length ≤ 531571 → (o = 0 ∨ o.toNat ≤ s.pers.fwHeld) →
    ∃ t, exec (.fwLoad r o c) s = .next t ∧ Replied t r 0x0806 St.ok (beBytes 4 t.pers.fwHeld)
      ∧ t.pers.fwHeld = max (if o = 0 then 0 else s.pers.fwHeld) (o.toNat + c.length)
      ∧ (∀ i b, (c)[i]? = some b → Mem.read t.pers.fwBuf (o.toNat + i) = b)
      ∧ (o ≠ 0 → ∀ a, a < o.toNat → Mem.read t.pers.fwBuf a = Mem.read s.pers.fwBuf a))
  ∧ (∀ (s : State) (r : Req) (x : Session) (d : Word), Served s (Form.make 0x0A01 4 State.inAll) r x → x.HasRoom →
    ∃ t q, exec (.auditLanes r d) s = .next t ∧ Accepted t r 0x0A01 [] ∧ t.ilk.audits = s.ilk.audits ++ [(q, d)])
  ∧ (∀ (s : State) (r : Req) (x : Session), Served s (Form.make 0x0701 0 State.inRun) r x → x.HasRoom →
    s.cstBusy = false → s.rangeBusy = false →
    ∃ t j, exec (.cstStore r) s = .next t ∧ Accepted t r 0x0701 [] ∧ t.pers.cst = some j
      ∧ j.target = (if s.inForce = 0 then 1 else 0) ∧ j.zeroed = false ∧ j.zeroAt ≤ s.tim.now + msU 50
      ∧ t.bit Reg.cstStat 8 = true ∧ t.nv = s.nv
      ∧ s.KeepsRegs t [Reg.lnkPortRx r.port, Reg.cstStat])
  ∧ (∀ (s : State) (r : Req) (x : Session), Served s (Form.make 0x0701 0 State.inRun) r x →
    (s.cstBusy = true ∨ s.rangeBusy = true) →
    ∃ t, exec (.cstStore r) s = .next t ∧ Replied t r 0x0701 St.busyRunning [] ∧ t.pers = s.pers)

/-- R343, R345, R392, R396: a privileged request that is signed takes its session's nonce and authorization with it to the
attestation engine; one whose authorization is broken is answered AUTH_FAILED at once and counted, what it brought
consumed; one that is not signed is answered AUTH_REQUIRED, and one outside its modes WRONG_MODE. The model's
readings: the nonce is judged as the request is accepted (log entry 20), and WRONG_MODE comes before AUTH_REQUIRED. -/
def Obligations.PrivilegedRequestsAreQueued : Prop :=
  (∀ (s : State) (r : Req) (x : Session) (f l : BitVec 16) (v : List Byte), v.length = l.toNat →
    Served s ⟨0x0805, 4, false, true, false, fun _ => true⟩ r x → isSigned r = true → x.HasRoom →
    (s.inMode .safe = true ∨ s.inMode .update = true) → s.modes.control = true → s.modes.att = true →
    authBroken (heldFrom0 x.auth) (x.auth.map fun c => c.2) = false →
    ∃ t y q n, exec (.otpProgram r f l v) s = .next t ∧ Accepted t r 0x0805 [] ∧ t.findSession r.session = some y
      ∧ y.nonce = none ∧ y.auth = [] ∧ t.nv = s.nv ∧ t.pers.jobs = s.pers.jobs ++
          [.check q 0x0805 r.target (beBytes 2 f.toNat ++ beBytes 2 l.toNat ++ v) n (x.auth.map fun c => c.2)]
      ∧ (∀ m, n = some m ↔ x.nonce = some m ∧ s.tim.now ≤ m.2 + secU 60))
  ∧ (∀ (s : State) (r : Req) (x : Session) (l : Word) (d : BitVec 512),
    Served s ⟨0x0807, 68, false, true, false, fun _ => true⟩ r x → isSigned r = true → x.HasRoom →
    s.inUpdate = true → s.modes.control = true → s.modes.att = true →
    authBroken (heldFrom0 x.auth) (x.auth.map fun c => c.2) = false →
    ∃ t y q n p, exec (.fwInstall r l d) s = .next t ∧ Accepted t r 0x0807 [] ∧ t.findSession r.session = some y
      ∧ y.nonce = none ∧ y.auth = [] ∧ t.nv = s.nv
      ∧ t.pers.jobs = s.pers.jobs ++ [.check q 0x0807 r.target p n (x.auth.map fun c => c.2)]
      ∧ p.take 68 = beBytes 4 l.toNat ++ beBytes 64 d.toNat
      ∧ (∀ m, n = some m ↔ x.nonce = some m ∧ s.tim.now ≤ m.2 + secU 60))
  ∧ (∀ (s : State) (r : Req) (x : Session) (f l : BitVec 16) (v : List Byte), v.length = l.toNat →
    Served s ⟨0x0805, 4, false, true, false, fun _ => true⟩ r x → isSigned r = true →
    (s.inMode .safe = true ∨ s.inMode .update = true) → s.modes.control = true → s.modes.att = true →
    authBroken (heldFrom0 x.auth) (x.auth.map fun c => c.2) = true →
    ∃ t y, exec (.otpProgram r f l v) s = .next t ∧ Replied t r 0x0805 St.authFailed [] ∧ t.findSession r.session = some y
      ∧ y.nonce = none ∧ y.auth = [] ∧ t.pers = s.pers ∧ t.nv = s.nv ∧ Counted s t Reg.attAuthFail 1
      ∧ s.KeepsRegs t [Reg.lnkPortRx r.port, Reg.attAuthFail])
  ∧ (∀ (s : State) (r : Req) (x : Session) (f l : BitVec 16) (v : List Byte), v.length = l.toNat →
    Served s ⟨0x0805, 4, false, true, false, fun _ => true⟩ r x → isSigned r = false →
    ∃ t, exec (.otpProgram r f l v) s = .next t ∧ t.pers = s.pers ∧ t.nv = s.nv
      ∧ Replied t r 0x0805 (if s.inMode .safe || s.inMode .update then St.authRequired else St.wrongMode) [])
  ∧ (∀ (s : State) (r : Req) (x : Session) (l : Word) (d : BitVec 512),
    Served s ⟨0x0807, 68, false, true, false, fun _ => true⟩ r x → s.inUpdate = false →
    ∃ t, exec (.fwInstall r l d) s = .next t ∧ t.pers = s.pers ∧ t.nv = s.nv ∧ Replied t r 0x0807 St.wrongMode [])

/-- R345, R392, R396, R403: a queued privileged request acts only if its authorization passes: the OTP field's bits are
then programmed, or the slot's seal is zeroed and the image written, sealed once it reads back; one that fails changes
nothing and is counted, and so is an image whose key or signature fails. A power loss or reset in between leaves the
slot without a seal. R276: the engine does its jobs while its clock gate is open. R398, R399: the identity key's
digest, a report in its session. R380: an audit's results, digests over SEED and what each lane holds. R386, R388,
R389: a store that is verified puts its bank in force, one that is not, or that is cut short, leaves no seal; a
recheck recomputes the seal over what the MRAM holds, and one that fails falls back to the other bank. The model's
choices: the two moments of an installation, the errors that a recheck is told of, and the parts of a lane's digest
(log entries 111 and 161). -/
def Obligations.TrustEventsComplete : Prop :=
  (∀ (s : State) (o : OpRef) (op target : BitVec 16) (p : List Byte) (n : Option (BitVec 128 × Nat)) (au : List Byte)
      (rest : List AttJob) (ok : Bool), s.pers.jobs = .check o op target p n au :: rest → s.modes.att = true →
    s.gated 32 = false → s.pers.install = none →
    s.authVerdict op target p n au ≠ St.ok →
    ∃ t, exec (.privilegedCheck ok) s = .next t ∧ t.nv = s.nv ∧ t.pers.jobs = rest ∧ Counted s t Reg.attAuthFail 1
      ∧ OpEnds s t o (s.authVerdict op target p n au) (List.replicate (if op = 0x0805 then 2 else 4) 0)
      ∧ s.KeepsRegs t [Reg.attAuthFail])
  ∧ (∀ (s : State) (o : OpRef) (target : BitVec 16) (p : List Byte) (n : Option (BitVec 128 × Nat)) (au : List Byte)
      (rest : List AttJob) (v : List Byte) (a : Nat), s.pers.jobs = .check o 0x0805 target p n au :: rest →
    s.modes.att = true → s.gated 32 = false → s.pers.install = none → (p.drop 4).take (ofBytes ((p.drop 2).take 2)) = v → s.otpField (ofBytes (p.take 2)) v = some a →
    ∃ t, exec (.privilegedCheck true) s = .next t ∧ t.pers.jobs = rest ∧ t.nv.mram = s.nv.mram
      ∧ (s.authVerdict 0x0805 target p n au = St.ok → Counted s t Reg.attAuthOk 1
          ∧ OpEnds s t o St.ok (beBytes 2 (ofBytes (p.take 2)))
          ∧ (∀ i b, v[i]? = some b → Mem.read t.nv.otp (a + i) = Mem.read s.nv.otp (a + i) ||| b)
          ∧ (∀ c, (c < a ∨ a + v.length ≤ c) → Mem.read t.nv.otp c = Mem.read s.nv.otp c)))
  ∧ (∀ (s : State) (o : OpRef) (target : BitVec 16) (p : List Byte) (n : Option (BitVec 128 × Nat)) (au : List Byte)
      (rest : List AttJob) (ok : Bool), s.pers.jobs = .check o 0x0807 target p n au :: rest → s.modes.att = true →
    s.gated 32 = false → s.pers.install = none →
    ∃ t, exec (.privilegedCheck ok) s = .next t ∧ t.pers.jobs = rest ∧ t.nv.otp = s.nv.otp
      ∧ (s.authVerdict 0x0807 target p n au = St.ok → Counted s t Reg.attAuthOk 1)
      ∧ (s.authVerdict 0x0807 target p n au = St.ok → s.fwRefused (ofBytes (p.take 4)) ((p.drop 4).take 64) = none →
          t.pers.install = some ⟨o, s.fwSlot, s.fwImage⟩ ∧ Mem.readBytes t.nv.mram (slotSeal s.fwSlot) 128 = List.replicate 128 0
          ∧ s.KeepsRegs t [Reg.attAuthOk] ∧ t.bcp = s.bcp)
      ∧ (∀ e, s.authVerdict 0x0807 target p n au = St.ok →
          s.fwRefused (ofBytes (p.take 4)) ((p.drop 4).take 64) = some e →
          OpEnds s t o e (List.replicate 4 0) ∧ t.nv = s.nv ∧ t.pers.install = none ∧ (e = St.authFailed → Counted s t Reg.attAuthFail 1)
          ∧ (e ≠ St.authFailed → t.get Reg.attAuthFail = s.get Reg.attAuthFail)))
  ∧ (∀ (s : State) (x : Install), s.pers.install = some x → x.image.length ≤ 0x1FFF80 →
    ∃ t, exec (.privilegedCheck true) s = .next t ∧ t.pers.install = none ∧ t.pers.jobs = s.pers.jobs ∧ t.nv.otp = s.nv.otp
      ∧ OpEnds s t x.op St.ok (beBytes 4 (imageGen x.image))
      ∧ Mem.readBytes t.nv.mram (slotSeal x.slot) 64 = sha3Bytes x.image
      ∧ Mem.readBytes t.nv.mram (patchAddr x.slot) x.image.length = x.image ∧ t.regs = s.regs)
  ∧ (∀ (s : State) (x : Install), s.pers.install = some x → x.image.length ≤ 0x1FFF80 →
    ∃ t, exec (.privilegedCheck false) s = .next t ∧ t.pers.install = none ∧ t.pers.jobs = s.pers.jobs
      ∧ OpEnds s t x.op St.dataLost (List.replicate 4 0) ∧ t.nv.otp = s.nv.otp
      ∧ Mem.readBytes t.nv.mram (slotSeal x.slot) 128 = Mem.readBytes s.nv.mram (slotSeal x.slot) 128)
  ∧ (∀ (s : State) (x : Install) (ns : Nat), s.pers.install = some x → x.image.length ≤ 0x1FFF80 → s.pers.cst = none →
    1000 ≤ ns → s.modes.nrstLow = false → 2800 ≤ s.modes.auxMv →
    ∃ t, exec (.nrstLow ns) s = .next t ∧ t.pers.install = none
      ∧ Mem.readBytes t.nv.mram (slotSeal x.slot) 128 = Mem.readBytes s.nv.mram (slotSeal x.slot) 128)
  ∧ (∀ s : State, s.modes.control = true → s.modes.att = true → s.gated 32 = false → s.keyReady = false →
    ∃ t, exec .keyDerive s = .next t ∧ t.keyReady = true
      ∧ (∀ k, k < 16 → t.get (Reg.attKeyDigest k) = wordAt (sha3Bytes s.pubKey) k)
      ∧ s.KeepsRegs t (Reg.attStat :: (List.range 16).map Reg.attKeyDigest))
  ∧ (∀ (s : State) (o : OpRef) (c : BitVec 256) (rest : List AttJob) (x : Session),
    s.pers.jobs = .report o c :: rest → s.modes.att = true → s.gated 32 = false → s.keyReady = true → s.attWaiting = false →
    (s.inForce < 2 → s.sealHolds s.inForce = true) → s.findSession o.session = some x →
    ∃ t y, exec .attestJob s = .next t ∧ t.pers.jobs = rest ∧ Counted s t Reg.attReports 1
      ∧ t.findSession o.session = some y ∧ y.report = s.report c ∧ OpEnds s t o St.ok (beBytes 4 4971)
      ∧ s.KeepsRegs t [Reg.attReports])
  ∧ (∀ (s : State) (o : OpRef) (seed : Word) (rest : List (OpRef × Word)) (a b c : LaneAudit),
    s.ilk.audits = (o, seed) :: rest →
    ∃ t, exec (.auditComplete a b c) s = .next t ∧ t.ilk.audits = rest ∧ t.regs = s.regs
      ∧ (∀ (l : Nat) (x : LaneAudit), s.auditResult seed l x = if s.laneRetired l then List.replicate 16 0
          else (sha3Bytes (beBytes 4 seed.toNat ++ x.rom ++ (if s.fld Reg.ilkBoot 14 12 = 1 then x.patch else [])
            ++ x.voted ++ x.kernel)).take 16)
      ∧ OpEnds s t o St.ok (s.auditResult seed 0 a ++ s.auditResult seed 1 b ++ s.auditResult seed 2 c))
  ∧ (∀ (s : State) (j : CstJob) (a b : Bool), s.pers.cst = some j → j.target < 2 → (a || b) = true →
    ∃ t, exec (.cstStoreComplete a b) s = .next t ∧ t.pers.cst = none ∧ t.bit Reg.cstStat 8 = false ∧ t.inForce = j.target
      ∧ t.bit Reg.cstStat (4 + j.target) = true ∧ Counted s t Reg.cstStores 1 ∧ t.nv.otp = s.nv.otp
      ∧ Mem.readBytes t.nv.mram (bankAddr j.target + sealOffset) 64 = sha3Bytes j.image
      ∧ (j.image.length ≤ sealOffset → Mem.readBytes t.nv.mram (bankAddr j.target) j.image.length = j.image)
      ∧ OpEnds s t j.op St.ok (beBytes 1 j.target ++ [0, 0, 0] ++ (j.image.drop 4).take 4))
  ∧ (∀ (s : State) (j : CstJob), s.pers.cst = some j → j.target < 2 → s.inForce ≠ j.target →
    ∃ t, exec (.cstStoreComplete false false) s = .next t ∧ t.pers.cst = none ∧ t.bit Reg.cstStat 8 = false
      ∧ t.bit Reg.cstStat 9 = true ∧ t.bit Reg.cstStat (4 + j.target) = false ∧ t.inForce = s.inForce
      ∧ Mem.readBytes t.nv.mram (bankAddr j.target + sealOffset) 64 = List.replicate 64 0
      ∧ OpEnds s t j.op St.dataLost (beBytes 1 j.target ++ [0, 0, 0] ++ (j.image.drop 4).take 4))
  ∧ (∀ (s : State) (j : CstJob) (ns : Nat), s.pers.cst = some j → j.zeroed = true → j.image.length ≤ sealOffset →
    s.pers.install = none → 1000 ≤ ns → s.modes.nrstLow = false → 2800 ≤ s.modes.auxMv →
    ∃ t, exec (.nrstLow ns) s = .next t ∧ t.pers.cst = none ∧ Mem.readBytes t.nv.mram (bankAddr j.target + sealOffset) 64
      = Mem.readBytes s.nv.mram (bankAddr j.target + sealOffset) 64)
  ∧ (∀ (s : State) (upset : List (Nat × Byte)), 2 ≤ s.modes.inner.code →
    s.pers.recheckAt + secU (3600 * s.fld Reg.cstRecheck 9 0) ≤ s.tim.now →
    ∃ t, exec (.cstRecheck upset) s = .next t ∧ t.pers.recheckAt = s.tim.now ∧ t.nv.otp = s.nv.otp
      ∧ ((s.inForce < 2 → (s.upsetBank s.inForce upset).sealHolds s.inForce = true) → t.regs = s.regs ∧ t.bcp = s.bcp)
      ∧ (s.inForce < 2 → (s.upsetBank s.inForce upset).sealHolds s.inForce = false →
          t.bit Reg.cstStat 10 = true ∧ t.bit Reg.cstStat (4 + s.inForce) = false
          ∧ t.inForce = (if s.bit Reg.cstStat (5 - s.inForce) then 1 - s.inForce else 3)))

/-! ### Holds (R192–R200) -/

/-- R193, R197: HOLD takes the lowest FREE slot, whose times and FIRST_SEQ it records; it is rejected without one. R198:
DRAIN of a HELD or DRAINED slot starts at once, or is QUEUED behind another; R199: RELEASE cancels a pending hold and
frees what it has frozen, begins a held slot's release, takes a queued slot out of the queue, ends a drain with the
item in progress, and leaves a releasing one. R348: in Hold mode the Ring part of a hold is frozen as it is accepted.
The model's readings: the order of DRAIN's checks, that a QUEUED slot's drain then ends OK, that a slot once free
shows zeros throughout, and that STORE above 1 is BAD_VALUE (log entries 25, 40, 155 and 41). The order of DRAIN's
checks is the model's reading (log entry 25). -/
def Obligations.HoldCommandsComplete : Prop :=
  (∀ (s : State) (r : Req) (x : Session) (pre post : Word) (store : Byte) (q : BitVec 64) (n : Fin 4),
    Served s (Form.make 0x0400 24 State.inDepot) r x → x.HasRoom → post.toNat ≤ 1000000 → store.toNat ≤ 1 →
    s.holdState n = 0 → (∀ m : Fin 4, m < n → s.holdState m ≠ 0) → s.modes.inner ≠ .hold →
    ∃ t o, exec (.hold r pre post store q) s = .next t ∧ Accepted t r 0x0400 (beBytes 1 n.val)
      ∧ t.dpt.holds.get n = 
          { Hold.reset with ta := s.tim.mt, pre := pre.toNat, post := post.toNat, firstSeq := q.toNat
                            order := s.dpt.order, op := some o }
      ∧ t.get (Reg.dptHoldStat n) = BitVec.ofNat 32 (1 + 16 * store.toNat)
      ∧ t.get (Reg.dptHoldT1S n) = BitVec.ofNat 32 (secOf (s.tim.mt + usU post.toNat))
      ∧ t.get (Reg.dptHoldT1Ns n) = BitVec.ofNat 32 (nsOf (s.tim.mt + usU post.toNat))
      ∧ t.get64 (Reg.dptHoldFirstSeqLo n) (Reg.dptHoldFirstSeqHi n) = q
      ∧ (∀ m : Fin 4, m ≠ n → t.dpt.holds.get m = s.dpt.holds.get m ∧ t.holdState m = s.holdState m)
      ∧ t.dpt.map = s.dpt.map ∧ t.dpt.units = s.dpt.units ∧ t.dpt.recs = s.dpt.recs)
  ∧ (∀ (s : State) (r : Req) (x : Session) (pre post : Word) (store : Byte) (q : BitVec 64) (n : Fin 4),
    Served s (Form.make 0x0400 24 State.inDepot) r x → x.HasRoom → post.toNat ≤ 1000000 → store.toNat ≤ 1 →
    s.holdState n = 0 → (∀ m : Fin 4, m < n → s.holdState m ≠ 0) → s.modes.inner = .hold →
    ∃ (t : State) (held : List Nat), exec (.hold r pre post store q) s = .next t ∧ Accepted t r 0x0400 (beBytes 1 n.val)
      ∧ (t.dpt.holds.get n).ringDone = true ∧ t.holdState n = (if store.toNat = 0 then 2 else 1)
      ∧ t.get (Reg.dptHoldRingBlocks n) = BitVec.ofNat 32 held.length
      ∧ (∀ b ∈ held, (s.mapEnt b).owner = 1 ∧ (t.mapEnt b).owner = 4 ∧ (t.mapEnt b).slot = BitVec.ofNat 2 n.val)
      ∧ (∀ b, (s.mapEnt b).owner ≠ 1 → (s.mapEnt b).owner ≠ 3 → t.mapEnt b = s.mapEnt b)
      ∧ (∀ m : Fin 4, m ≠ n → t.dpt.holds.get m = s.dpt.holds.get m ∧ t.holdState m = s.holdState m))
  ∧ (∀ (s : State) (r : Req) (x : Session) (pre post : Word) (store : Byte) (q : BitVec 64),
    Served s (Form.make 0x0400 24 State.inDepot) r x → (1000000 < post.toNat ∨ 1 < store.toNat) →
    ∃ t, exec (.hold r pre post store q) s = .next t ∧ Replied t r 0x0400 St.badValue [] ∧ t.dpt = s.dpt)
  ∧ (∀ (s : State) (r : Req) (x : Session) (pre post : Word) (store : Byte) (q : BitVec 64),
    Served s (Form.make 0x0400 24 State.inDepot) r x → post.toNat ≤ 1000000 → store.toNat ≤ 1 →
    (∀ m : Fin 4, s.holdState m ≠ 0) →
    ∃ t, exec (.hold r pre post store q) s = .next t ∧ Replied t r 0x0400 St.noSlot [] ∧ t.dpt = s.dpt)
  ∧ (∀ (s : State) (r : Req) (x : Session) (n : Fin 4) (mask : BitVec 64) (store auto : Bool),
    Served s ⟨0x0401, 9, true, false, false, State.inDepot⟩ r x → x.HasRoom → r.target.toNat = n.val →
    (s.holdState n = 2 ∨ s.holdState n = 5) → s.hasBinding = true →
    ∃ t o, exec (.drain r mask store auto) s = .next t ∧ Accepted t r 0x0401 []
      ∧ t.dpt.holds.get n = { s.dpt.holds.get n with drainOp := some o, mask := mask, drainStore := store, autoRelease := auto }
      ∧ (s.dpt.mapErrs = [] → t.dpt.map = s.dpt.map ∧ t.dpt.units = s.dpt.units ∧ t.dpt.recs = s.dpt.recs)
      ∧ ((∃ m, s.holdState m = 4) → t.holdState n = 3 ∧ t.dpt.drainQ = s.dpt.drainQ ++ [n.val] ∧ t.lnk.streams = s.lnk.streams)
      ∧ ((∀ m, s.holdState m ≠ 4) → s.dpt.drainQ = [] → t.holdState n = 4 ∧ t.dpt.drainQ = []
          ∧ t.get (Reg.dptHoldDrainedMib n) = 0
          ∧ ∃ y, t.stream (drainStream n) = some y ∧ y.items = t.drainItems n ∧ y.op = some o ∧ y.next = 0 ∧ y.ended = false))
  ∧ (∀ (s : State) (r : Req) (x : Session) (n : Fin 4) (mask : BitVec 64) (store auto : Bool),
    Served s ⟨0x0401, 9, true, false, false, State.inDepot⟩ r x → r.target.toNat = n.val →
    s.holdState n ≠ 2 → s.holdState n ≠ 5 →
    ∃ t, exec (.drain r mask store auto) s = .next t ∧ Replied t r 0x0401 St.busyRunning [] ∧ t.dpt = s.dpt)
  ∧ (∀ (s : State) (r : Req) (x : Session) (n : Fin 4) (mask : BitVec 64) (store auto : Bool),
    Served s ⟨0x0401, 9, true, false, false, State.inDepot⟩ r x → r.target.toNat = n.val →
    (s.holdState n = 2 ∨ s.holdState n = 5) → s.hasBinding = false →
    ∃ t, exec (.drain r mask store auto) s = .next t ∧ Replied t r 0x0401 St.noDataSession [] ∧ t.dpt = s.dpt)
  ∧ (∀ (s : State) (r : Req) (x : Session) (n : Fin 4), Served s ⟨0x0402, 0, true, false, false, State.inDepot⟩ r x →
    r.target.toNat = n.val → s.holdState n = 1 →
    ∃ t, exec (.release r) s = .next t ∧ Replied t r 0x0402 St.ok [] ∧ t.get (Reg.dptHoldStat n) = 0
      ∧ t.dpt.holds.get n = Hold.reset
      ∧ (∀ b ∈ s.slotBlocks n, ((t.mapEnt b).owner = 1 ∨ (t.mapEnt b).owner = 2) ∧ (t.mapEnt b).slot = 0)
      ∧ (∀ b, b ∉ s.slotBlocks n → t.mapEnt b = s.mapEnt b)
      ∧ (∀ q, (s.dpt.holds.get n).op = some q → OpEnds s t q St.ok [0]))
  ∧ (∀ (s : State) (r : Req) (x : Session) (n : Fin 4), Served s ⟨0x0402, 0, true, false, false, State.inDepot⟩ r x →
    x.HasRoom → r.target.toNat = n.val → (s.holdState n = 2 ∨ s.holdState n = 5) →
    ∃ t q, exec (.release r) s = .next t ∧ Accepted t r 0x0402 [] ∧ t.holdState n = 6 ∧ t.dpt.map = s.dpt.map
      ∧ t.dpt.holds.get n = { s.dpt.holds.get n with releaseOps := [q] })
  ∧ (∀ (s : State) (r : Req) (x : Session) (n : Fin 4), Served s ⟨0x0402, 0, true, false, false, State.inDepot⟩ r x →
    x.HasRoom → r.target.toNat = n.val → s.holdState n = 3 →
    ∃ t q, exec (.release r) s = .next t ∧ Accepted t r 0x0402 [] ∧ t.holdState n = 6 ∧ t.dpt.map = s.dpt.map
      ∧ t.dpt.drainQ = s.dpt.drainQ.filter (fun m => m != n.val)
      ∧ t.dpt.holds.get n = { s.dpt.holds.get n with releaseOps := [q], drainOp := none }
      ∧ (∀ d, (s.dpt.holds.get n).drainOp = some d → OpEnds s t d St.ok (s.opCounts (some d))))
  ∧ (∀ (s : State) (r : Req) (x : Session) (n : Fin 4) (y : Stream),
    Served s ⟨0x0402, 0, true, false, false, State.inDepot⟩ r x → x.HasRoom → r.target.toNat = n.val → s.holdState n = 4 →
    s.stream (drainStream n) = some y →
    ∃ t q z, exec (.release r) s = .next t ∧ Accepted t r 0x0402 [] ∧ t.holdState n = 4 ∧ t.dpt.map = s.dpt.map
      ∧ t.dpt.holds.get n = { s.dpt.holds.get n with
          autoRelease := true, releaseOps := (s.dpt.holds.get n).releaseOps ++ [q] }
      ∧ t.stream (drainStream n) = some z ∧ z.items = [] ∧ (∀ l ∈ z.loaded, y.loaded.head? = some l ∧ 0 < l.start)
      ∧ z.segs = y.segs)
  ∧ (∀ (s : State) (r : Req) (x : Session) (n : Fin 4), Served s ⟨0x0402, 0, true, false, false, State.inDepot⟩ r x →
    r.target.toNat = n.val → s.holdState n = 6 →
    ∃ t, exec (.release r) s = .next t ∧ Replied t r 0x0402 St.ok [] ∧ t.dpt = s.dpt)
  ∧ (∀ (s : State) (r : Req) (x : Session), Served s ⟨0x0402, 0, true, false, false, State.inDepot⟩ r x →
    (3 < r.target.toNat ∨ ∃ n : Fin 4, r.target.toNat = n.val ∧ s.holdState n = 0) →
    ∃ t, exec (.release r) s = .next t ∧ Replied t r 0x0402 St.badValue [] ∧ t.dpt = s.dpt)

/-- R194–R197: a pending hold whose span has ended, with nothing still to come into it, freezes Ring blocks only, and is
HELD once the Store part, where there is one, is frozen too; the Store part freezes Store blocks only. R198, R199: a
drain that has sent everything is DRAINED, or RELEASING where AUTO_RELEASE was set, and the next queued slot starts
(the slot's own state is said of a slot that does not itself wait in the queue); a releasing slot whose segments are
settled is FREE, and its blocks are the Ring's and the Store's again. That the whole of DPT_HOLDn_STAT and the slot's
own record are then zero is the model's choice (log entry 155). -/
def Obligations.HoldEventsComplete : Prop :=
  (∀ (s : State) (n : Fin 4), s.holdState n = 1 → (s.dpt.holds.get n).ringDone = false →
    (s.dpt.holds.get n).ta + usU (s.dpt.holds.get n).post ≤ s.tim.mt →
    ((s.dpt.holds.get n).ta + usU (s.dpt.holds.get n).post + usU 100 ≤ s.tim.mt
      ∨ (s.framesBefore ((s.dpt.holds.get n).ta + usU (s.dpt.holds.get n).post) = false
        ∧ ∀ u ∈ s.pendingUnits, (s.dpt.holds.get n).ta + usU (s.dpt.holds.get n).post ≤ u.time)) →
    ∃ (t : State) (held : List Nat), exec (.holdFreeze n) s = .next t ∧ (t.dpt.holds.get n).ringDone = true
      ∧ t.get (Reg.dptHoldRingBlocks n) = BitVec.ofNat 32 held.length ∧ held.Nodup
      ∧ (∀ b ∈ held, (s.mapEnt b).owner = 1 ∧ (t.mapEnt b).owner = 4 ∧ (t.mapEnt b).slot = BitVec.ofNat 2 n.val)
      ∧ (∀ b, (s.mapEnt b).owner ≠ 1 → (s.mapEnt b).owner ≠ 3 → t.mapEnt b = s.mapEnt b)
      ∧ t.holdState n = (if (s.dpt.holds.get n).storeDone ∨ s.bit (Reg.dptHoldStat n) 4 = false then 2 else 1)
      ∧ (∀ q, (s.dpt.holds.get n).op = some q → ((s.dpt.holds.get n).storeDone ∨ s.bit (Reg.dptHoldStat n) 4 = false) →
          OpEnds s t q St.ok (beBytes 1 (t.fld (Reg.dptHoldStat n) 7 0)))
      ∧ (∀ m : Fin 4, m ≠ n → t.dpt.holds.get m = s.dpt.holds.get m ∧ t.holdState m = s.holdState m))
  ∧ (∀ (s : State) (n : Fin 4), s.holdState n = 1 → (s.dpt.holds.get n).storeDone = false →
    s.bit (Reg.dptHoldStat n) 4 = true → (∀ r ∈ s.dpt.recs, r.order < (s.dpt.holds.get n).order → r.stored = true) →
    ∃ (t : State) (held : List Nat), exec (.storeHoldFreeze n) s = .next t ∧ (t.dpt.holds.get n).storeDone = true
      ∧ t.get (Reg.dptHoldStoreBlocks n) = BitVec.ofNat 32 held.length ∧ held.Nodup
      ∧ (∀ b ∈ held, (s.mapEnt b).owner = 2 ∧ (t.mapEnt b).owner = 6 ∧ (t.mapEnt b).slot = BitVec.ofNat 2 n.val)
      ∧ (∀ b, (s.mapEnt b).owner ≠ 2 → (s.mapEnt b).owner ≠ 3 → t.mapEnt b = s.mapEnt b)
      ∧ t.holdState n = (if (s.dpt.holds.get n).ringDone then 2 else 1)
      ∧ (∀ q, (s.dpt.holds.get n).op = some q → (s.dpt.holds.get n).ringDone = true →
          OpEnds s t q St.ok (beBytes 1 (t.fld (Reg.dptHoldStat n) 7 0)))
      ∧ t.dpt.mem = s.dpt.mem)
  ∧ (∀ (s : State) (n : Fin 4) (x : Stream), s.stream (drainStream n) = some x → s.holdState n = 4 → x.ended = true →
    ∃ t, exec (.drainComplete n) s = .next t ∧ (s.dpt.mapErrs = [] ∨ s.dpt.drainQ = [] → t.dpt.map = s.dpt.map)
      ∧ ((∀ m ∈ s.dpt.drainQ, Fin.ofNat 4 m ≠ n) →
          t.holdState n = (if (s.dpt.holds.get n).autoRelease then 6 else 5))
      ∧ (∀ q, (s.dpt.holds.get n).drainOp = some q → OpEnds s t q St.ok (s.opCounts (some q)))
      ∧ (s.dpt.drainQ = [] → t.dpt.drainQ = [] ∧ t.lnk = s.lnk))
  ∧ (∀ (s : State) (n : Fin 4) (x : Stream) (m : Fin 4) (q : List Nat), s.stream (drainStream n) = some x →
    s.holdState n = 4 → x.ended = true → s.dpt.drainQ = m.val :: q → m ≠ n → (∀ k : Fin 4, k ≠ n → s.holdState k ≠ 4) →
    ∃ t y, exec (.drainComplete n) s = .next t ∧ t.dpt.drainQ = q ∧ t.holdState m = 4
      ∧ t.stream (drainStream m) = some y ∧ y.items = t.drainItems m ∧ y.op = (s.dpt.holds.get m).drainOp ∧ y.ended = false)
  ∧ (∀ (s : State) (n : Fin 4), s.holdState n = 6 →
    (∀ x ∈ s.lnk.streams, ∀ g ∈ x.segs, ∀ p ∈ g.parts, s.itemIn (s.slotBlocks n) p.1 = false) →
    ∃ t, exec (.releaseComplete n) s = .next t ∧ t.get (Reg.dptHoldStat n) = 0 ∧ t.dpt.holds.get n = Hold.reset
      ∧ (∀ b ∈ s.slotBlocks n, ((t.mapEnt b).owner = 1 ∨ (t.mapEnt b).owner = 2) ∧ (t.mapEnt b).slot = 0)
      ∧ (∀ b, b ∉ s.slotBlocks n → t.mapEnt b = s.mapEnt b)
      ∧ (∀ q ∈ (s.dpt.holds.get n).releaseOps, OpEnds s t q St.ok []) ∧ t.dpt.mem = s.dpt.mem
      ∧ (s.dpt.mapErrs = [] → s.bit Reg.dptMapflipCtrl 0 = false → t.dpt.units = s.dpt.units ∧ t.dpt.recs = s.dpt.recs))

/-! ### Wire watch (R74–R81) -/

/-- R76, R80: a pin of continuous mode that carries its watch current takes its window centre once 100 µs have passed. A
level that has left the window for 2 µs, on a pin no source drives, is a fault: it shows in WIR_LIVE, latches
WIR_FAULT, sets ATN_WIRE, and the records of the pin's channel learn of it; a level inside the window clears WIR_LIVE.
R77, R79: a check of a pulsed pin is placed in the next free pair of frames, whose flags it sets, and in no other
pair; one that waited for a whole period is reported in WIR_STARVED. Its result shows in WIR_LIVE, and is a fault
where the levels differ by more than LIMIT. R81: when the evaluation comes to a fault, the open hits of the channel
carry the flag and have their end. That a pair of frames which is not the next one is not chosen, and that a tile
checks while it samples, is the model's choice (log entry 132); so is how the centre follows the level (log entry
131). -/
def Obligations.WireWatchCompletes : Prop :=
  (∀ (s : State) (t : Tile) (p : Pin) (v : Int), s.tilePowered t = true → s.wireMode t p = 1 → s.watchCurrent t p ≠ 0 →
    (s.wire t p).centre = none → (s.wire t p).since + usU 100 ≤ s.tim.now →
    ∃ u, exec (.wireCentreCapture t p v) s = .next u ∧ (u.wire t p).centre = some (v, s.tim.now)
      ∧ u.bit (Reg.wirLive t) p = false ∧ (∀ q, q ≠ p.val → u.wire t q = s.wire t q) ∧ s.KeepsRegs u [Reg.wirLive t])
  ∧ (∀ (s : State) (t : Tile) (p : Pin) (v : Int) (c : Int × Nat) (held : Nat), s.tilePowered t = true →
    s.wireMode t p = 1 → (s.wire t p).centre = some c → (s.wire t p).detected = false → s.drifts t p = true →
    s.wireLimit t p < (v - (s.centreNow v c).1).natAbs → 2000 ≤ held → s.modes.sampling = true →
    ∃ u, exec (.wireFaultDetect t p ⟨v, held⟩) s = .next u ∧ u.bit (Reg.wirLive t) p = true ∧ u.bit (Reg.wirFault t) p = true
      ∧ (u.wire t p).detected = true ∧ u.bcp.sessions = s.bcp.sessions.map (setAtn Atn.wire (s.evt + 1))
      ∧ s.KeepsRegs u [Reg.wirLive t, Reg.wirFault t]
      ∧ (∀ k, s.pinChan t p = some k → ∃ x, u.sbx.wireCuts = s.sbx.wireCuts ++ [x] ∧ x.chan = 16 * t.val + k
          ∧ x.found = s.pinPos ∧ x.lookback = s.fld (Reg.wirLookback t) 9 0
          ∧ x.start = s.tim.mt - usU (s.fld (Reg.wirLookback t) 9 0)))
  ∧ (∀ (s : State) (t : Tile) (p : Pin) (v : Int) (c : Int × Nat) (held : Nat), s.tilePowered t = true →
    s.wireMode t p = 1 → (s.wire t p).centre = some c → (v - (s.centreNow v c).1).natAbs ≤ s.wireLimit t p →
    ∃ u, exec (.wireFaultDetect t p ⟨v, held⟩) s = .next u ∧ u.bit (Reg.wirLive t) p = false
      ∧ (u.wire t p).detected = false ∧ u.bcp = s.bcp ∧ u.sbx = s.sbx ∧ s.KeepsRegs u [Reg.wirLive t])
  ∧ (∀ (s : State) (t : Tile) (p : Pin), s.tileSampling t = true → s.wireMode t p = 2 → (s.wire t p).check = none →
    ((s.wire t p).wanted = true ∨ (s.wire t p).periodAt + msU (s.fld (Reg.wirPeriod t) 13 0) ≤ s.tim.now) →
    (∀ k, s.pinChan t p = some k → s.windowOpen (16 * t.val + k) = false) →
    ∃ u, exec (.wireCheckPeriod t p s.nextFrame) s = .next u ∧ (u.wire t p).check = some s.nextFrame ∧ (u.wire t p).wanted = false
      ∧ (∀ k, s.pinChan t p = some k → (u.tile t).nextFlags
          = (s.tile t).nextFlags ++ [(s.nextFrame, k, 8), (s.nextFrame + framePeriods, k, 8)])
      ∧ ((s.wire t p).wanted = true → (s.wire t p).periodAt + msU (s.fld (Reg.wirPeriod t) 13 0) ≤ s.tim.now →
          u.bit (Reg.wirStarved t) p = true ∧ u.bcp.sessions = s.bcp.sessions.map (setAtn Atn.wire (s.evt + 1))
          ∧ s.KeepsRegs u [Reg.wirStarved t])
      ∧ (((s.wire t p).wanted = false ∨ s.tim.now < (s.wire t p).periodAt + msU (s.fld (Reg.wirPeriod t) 13 0)) →
          u.regs = s.regs ∧ u.bcp = s.bcp))
  ∧ (∀ (s : State) (t : Tile) (p : Pin) (a b : Int) (f : Nat), (s.wire t p).check = some f →
    f + 2 * framePeriods ≤ s.samplePos → s.modes.sampling = true →
    ∃ u, exec (.wireCheckResult t p a b) s = .next u ∧ (u.wire t p).check = none
      ∧ ((a - b).natAbs ≤ s.wireLimit t p → u.bit (Reg.wirLive t) p = false ∧ s.KeepsRegs u [Reg.wirLive t] ∧ u.bcp = s.bcp)
      ∧ (s.drifts t p = true → s.wireLimit t p < (a - b).natAbs →
          u.bit (Reg.wirLive t) p = true ∧ u.bit (Reg.wirFault t) p = true
          ∧ s.KeepsRegs u [Reg.wirLive t, Reg.wirFault t]
          ∧ u.bcp.sessions = s.bcp.sessions.map (setAtn Atn.wire (s.evt + 1))))
  ∧ (∀ s : State, s.modes.sampling = true → s.modes.last = none → s.sbx.period + s.fld Reg.sbxLag 8 0 ≤ s.samplePos →
    ∃ u, exec .signalBoxPeriod s = .next u ∧ ∀ x ∈ s.sbx.wireCuts, x.found ≤ s.sbx.period → ∀ w ∈ u.sbx.hits,
      w.chans.getLsbD x.chan = true → w.flags.getLsbD 1 = true ∧ w.endAt.isSome = true)
  ∧ (∀ (s : State) (t : Tile) (p : Pin) (f : Nat), f ≠ s.nextFrame →
    ∃ u, exec (.wireCheckPeriod t p f) s = .next u ∧ (u.wire t p).check = (s.wire t p).check
      ∧ (u.tile t).nextFlags = (s.tile t).nextFlags ∧ s.KeepsRegs u [Reg.wirStarved t])

/-! ### The Signal Box (R115–R147) -/

/-- R117–R119: a sample period whose lag has passed is evaluated once; every armed program takes its first true transition
to its NEXT, and stays in its state without one. A period whose lag has not passed changes nothing. R127, R132: timers
expire, pre-fill and re-arm end. R129, R159: a closed window whose samples are in is built as its record. That such a
period is evaluated by a later event is the model's choice (log entries 8 and 61). -/
def Obligations.SignalBoxEventsComplete : Prop :=
  (∀ s : State, s.modes.sampling = true → s.modes.last = none → s.sbx.period + s.fld Reg.sbxLag 8 0 ≤ s.samplePos →
    ∃ u, exec .signalBoxPeriod s = .next u ∧ u.sbx.period = s.sbx.period + 1 ∧ u.modes = s.modes ∧ u.tim = s.tim
      ∧ u.sbx.prev.sw0 = (s.switchBits s.sbx.period).1 ∧ u.sbx.prev.sw1 = (s.switchBits s.sbx.period).2
      ∧ u.sbx.prev.lines = s.settleProgs.applyLineQ.lines
      ∧ ∀ p : Fin 8, (s.sbx.progs.get p).armed = true →
          (∀ i : Fin 4, s.transTrue p (s.sbx.progs.get p).state.toNat i
              (if (s.sbx.progs.get p).armPeriod = s.sbx.period then u.sbx.prev else s.sbx.prev) u.sbx.prev = true →
            (∀ j : Fin 4, j < i → s.transTrue p (s.sbx.progs.get p).state.toNat j
              (if (s.sbx.progs.get p).armPeriod = s.sbx.period then u.sbx.prev else s.sbx.prev) u.sbx.prev = false) →
            (u.sbx.progs.get p).state
              = BitVec.ofNat 4 (s.fld (Reg.sbxProgSTCtrl p (s.sbx.progs.get p).state.toNat i) 7 4))
          ∧ ((∀ i : Fin 4, s.transTrue p (s.sbx.progs.get p).state.toNat i
              (if (s.sbx.progs.get p).armPeriod = s.sbx.period then u.sbx.prev else s.sbx.prev) u.sbx.prev = false) →
            (u.sbx.progs.get p).state = (s.sbx.progs.get p).state))
  ∧ (∀ s : State, s.samplePos < s.sbx.period + s.fld Reg.sbxLag 8 0 →
    ∃ u, exec .signalBoxPeriod s = .next u ∧ u.sbx = s.sbx ∧ u.que = s.que ∧ u.modes = s.modes)
  ∧ (∀ (s : State) (p : Fin 8) (k : Fin 4), ((s.sbx.progs.get p).tmr.get k).run = true →
    ((s.sbx.progs.get p).tmr.get k).val = 0 →
    ∃ u, exec (.timerExpire p k) s = .next u ∧ (u.sbx.progs.get p).tmr.get k = ⟨0, false, true⟩ ∧ u.regs = s.regs
      ∧ (∀ j : Fin 4, j ≠ k → (u.sbx.progs.get p).tmr.get j = (s.sbx.progs.get p).tmr.get j)
      ∧ (∀ q : Fin 8, q ≠ p → u.sbx.progs.get q = s.sbx.progs.get q))
  ∧ (∀ (s : State) (p : Fin 8), (s.sbx.progs.get p).armPeriod + (s.get (Reg.sbxProgPre p)).toNat ≤ s.sbx.period →
    ∃ u, exec (.prefillEnd p) s = .next u ∧ u.sbx.progs.get p = { s.sbx.progs.get p with prefill := false }
      ∧ u.regs = s.regs ∧ (∀ q : Fin 8, q ≠ p → u.sbx.progs.get q = s.sbx.progs.get q))
  ∧ (∀ (s : State) (p : Fin 8) (e : Nat), (s.sbx.progs.get p).lastEnd = some e →
    e + (s.get (Reg.sbxProgRearm p)).toNat < s.sbx.period →
    ∃ u, exec (.rearmEnd p) s = .next u ∧ u.sbx.progs.get p = { s.sbx.progs.get p with rearm := false }
      ∧ u.regs = s.regs ∧ (∀ q : Fin 8, q ≠ p → u.sbx.progs.get q = s.sbx.progs.get q))
  ∧ (∀ (s : State) (p : Fin 8) (w : Win) (n : Nat), (s.sbx.closing.find? fun x => x.id = .prog p) = some w →
    w.seq = some n → s.samplesIn w = true →
    ∃ u y, exec (.captureClose p) s = .next u ∧ u.que.built = s.que.built ++ [y] ∧ y.seq = n ∧ y.kind = 0
      ∧ y.bytes = s.windowRecord w n ∧ y.long = w.long ∧ u.sbx.closing = s.sbx.closing.filter (fun x => x.seq != some n))
  ∧ (∀ (s : State) (c : Fin 64) (w : Win) (n : Nat), (s.sbx.closing.find? fun x => x.id = .hit c) = some w →
    w.seq = some n → s.samplesIn w = true →
    ∃ u y, exec (.hitWindowClose c) s = .next u ∧ u.que.built = s.que.built ++ [y] ∧ y.seq = n ∧ y.kind = 1
      ∧ y.bytes = s.windowRecord w n ∧ y.long = w.long ∧ u.sbx.closing = s.sbx.closing.filter (fun x => x.seq != some n))

/-! ### Frames and timing messages (R249–R252, R283–R286, R305–R308, R314, R315) -/

/-- R136, R137, R305, R307: a trigger-line message of a selected in-port changes its lines at the period that its arrival
names, or at once while nothing samples; it, and a trigger primitive, go on through the pair's out-port where
LNK_TP_CTRL says so, or are counted in LNK_TM_DROP where the queue is full; a message that R307 does not let in is
counted in DROP. R314, R315: the first HELLO chooses the port's version, HELLOs are sent a second apart, and 3 s
without one choose version 1, and LNK_VER shows what either port of a pair uses; at a timing-out port a HELLO joins
the queue of timing messages, and where that is full it waits (log entry 140). R283, R285, R286, R305, R306: a frame
that its port accepts is counted; on a timing port one that is neither IPv4 nor ARP for LNK_IP goes on through the
pair's other port, at a timing-out port in its turn; those are consumed; what bears the EtherType of timing messages
without being one that R307 lets in is dropped and counted. A frame that fails the FCS, or a check past it, is counted
so. A Mainline counts its codewords with the frame (R317; that they come with frames is the model's choice, log entry
162). An ARP request for LNK_IP is answered with the port's MAC, and another one on a timing port goes on. -/
def Obligations.FramesAndTimingMessagesComplete : Prop :=
  (∀ (s : State) (m : TmHead) (lines set : Byte) (bytes : List Byte), s.Quiet m.port → (m.port = 2 ∨ m.port = 4) →
    s.tmOk m 1 = true → s.fld Reg.sbxXtrg 1 0 / (if m.port = 4 then 2 else 1) % 2 = 1 →
    ∃ u, exec (.triggerLineMessage m lines set bytes) s = .next u ∧ Counted s u (Reg.lnkPortRx m.port) 1
      ∧ (s.modes.sampling = true →
          u.sbx.lineQ = s.sbx.lineQ ++ [(s.linePeriod s.tim.mt, decide (m.port = 4), lines, set)]
          ∧ u.sbx.linesA = s.sbx.linesA ∧ u.sbx.linesB = s.sbx.linesB)
      ∧ (s.modes.sampling = false → s.sbx.lineQ = [] → u.sbx.lineQ = []
          ∧ (m.port = 2 → u.sbx.linesA = (s.sbx.linesA &&& ~~~set) ||| (lines &&& set) ∧ u.sbx.linesB = s.sbx.linesB)
          ∧ (m.port = 4 → u.sbx.linesB = (s.sbx.linesB &&& ~~~set) ||| (lines &&& set) ∧ u.sbx.linesA = s.sbx.linesA)))
  ∧ (∀ (s : State) (m : TmHead) (lines set : Byte) (bytes : List Byte) (prim : Bool), s.Quiet m.port →
    (m.port = 2 ∨ m.port = 4) → s.tmOk m (if prim then 2 else 1) = true → s.Quiet (otherPort m.port) →
    (s.tport (otherPort m.port)).version = some m.version.toNat →
    s.bit Reg.lnkTpCtrl ((if m.port = 4 then 2 else 0) + prim.toNat) = true →
    s.lnk.qA = [] → s.lnk.qB = [] → s.lnk.oA = [] → s.lnk.oB = [] →
    (if m.port = 4 then s.lnk.busyB else s.lnk.busyA) ≤ s.tim.now →
    ∃ u, exec (if prim then .triggerPrimitiveForward m bytes else .triggerLineMessage m lines set bytes) s = .next u
      ∧ Counted s u (Reg.lnkPortRx m.port) 1 ∧ u.tx = s.tx ++ [.timing (Fin.ofNat 7 (otherPort m.port)) bytes]
      ∧ (if m.port = 4 then u.lnk.busyB else u.lnk.busyA) = s.tim.now + lineU 64)
  ∧ (∀ (s : State) (m : TmHead) (lines set : Byte) (bytes : List Byte) (prim : Bool), s.Quiet m.port →
    (m.port = 2 ∨ m.port = 4) → s.tmOk m (if prim then 2 else 1) = true → s.portLive (otherPort m.port) = true →
    (s.tport (otherPort m.port)).version = some m.version.toNat →
    s.bit Reg.lnkTpCtrl ((if m.port = 4 then 2 else 0) + prim.toNat) = true →
    16 ≤ (if m.port = 4 then s.lnk.qB else s.lnk.qA).length →
    ∃ u, exec (if prim then .triggerPrimitiveForward m bytes else .triggerLineMessage m lines set bytes) s = .next u
      ∧ Counted s u Reg.lnkTmDrop 1 ∧ u.tx = s.tx ∧ u.lnk = s.lnk)
  ∧ (∀ (s : State) (m : TmHead) (lines set : Byte) (bytes : List Byte) (prim : Bool), s.Quiet m.port →
    s.tmOk m (if prim then 2 else 1) = false →
    ∃ u, exec (if prim then .triggerPrimitiveForward m bytes else .triggerLineMessage m lines set bytes) s = .next u
      ∧ Counted s u (Reg.lnkPortRx m.port) 1 ∧ Counted s u (Reg.lnkPortDrop m.port) 1 ∧ u.sbx = s.sbx ∧ u.tx = s.tx)
  ∧ (∀ (s : State) (m : TmHead) (lo hi : Byte) (k : BitVec 16), s.Quiet m.port → isTiming m.port = true → m.resv = false →
    m.tmType = 3 → m.version = 1 → (s.tport m.port).heard = false →
    ∃ u, exec (.hello m lo hi k) s = .next u ∧ (u.tport m.port).heard = true
      ∧ s.KeepsRegs u [Reg.lnkPortRx m.port, Reg.lnkPortStat m.port, Reg.lnkVer]
      ∧ (lo ≤ 1 → 1 ≤ hi → (u.tport m.port).version = some 1 ∧ u.bit (Reg.lnkPortStat m.port) 4 = false
          ∧ (if m.port.val < 4 then u.fld Reg.lnkVer 23 20 else u.fld Reg.lnkVer 27 24)
            = max 1 ((s.tport (otherPort m.port)).version.getD 0) % 16)
      ∧ ((1 < lo ∨ hi < 1) → (u.tport m.port).version = none ∧ u.bit (Reg.lnkPortStat m.port) 4 = true
          ∧ (if m.port.val < 4 then u.fld Reg.lnkVer 23 20 else u.fld Reg.lnkVer 27 24)
            = (s.tport (otherPort m.port)).version.getD 0 % 16))
  ∧ (∀ (s : State) (p : Port), s.Quiet p → isTiming p = true → s.incompat p = false →
    (∀ a, (s.tport p).helloAt = some a → a + secU 1 ≤ s.tim.now) →
    ((p = 2 ∨ p = 4) ∨ (s.lnk.qA = [] ∧ s.lnk.qB = [] ∧ s.lnk.oA = [] ∧ s.lnk.oB = []
      ∧ (if p = 5 then s.lnk.busyB else s.lnk.busyA) ≤ s.tim.now)) →
    ∃ u, exec (.helloSend p) s = .next u ∧ u.tx = s.tx ++ [.timing p (helloBytes (s.tport p).seq s.moduleAddr)]
      ∧ (u.tport p).seq = (s.tport p).seq + 1 ∧ (u.tport p).helloAt = some s.tim.now ∧ u.regs = s.regs)
  ∧ (∀ s : State, s.portLive 3 = true → s.incompat 3 = false → (s.tport 3).helloAt = none → s.tim.now < s.lnk.busyA →
    ∃ u, exec (.helloSend 3) s = .next u
      ∧ (s.lnk.qA.length < 16 → u.lnk.qA = s.lnk.qA ++ [⟨helloBytes (s.tport 3).seq s.moduleAddr⟩]
          ∧ (u.tport 3).seq = (s.tport 3).seq + 1 ∧ (u.tport 3).helloAt = some s.tim.now)
      ∧ (16 ≤ s.lnk.qA.length → u = s))
  ∧ (∀ (s : State) (p : Port) (a : Nat), isTiming p = true → (s.tport p).upAt = some a → (s.tport p).heard = false →
    (s.tport p).version = none → a + secU 3 ≤ s.tim.now →
    ∃ u, exec (.helloTimeout p) s = .next u ∧ (u.tport p).version = some 1 ∧ s.KeepsRegs u [Reg.lnkVer]
      ∧ (if p.val < 4 then u.fld Reg.lnkVer 23 20 else u.fld Reg.lnkVer 27 24)
        = max 1 ((s.tport (otherPort p)).version.getD 0) % 16)
  ∧ (∀ (s : State) (p : Port) (f : FrameFacts) (bytes : List Byte), s.Quiet p → f.fcsOk = true → s.frameOk p f = true →
    ∃ u, exec (.frameForward p f bytes) s = .next u ∧ Counted s u (Reg.lnkPortRx p) 1
      ∧ s.KeepsRegs u [Reg.lnkPortRx p, Reg.lnkPortDrop p, Reg.lnkPortFecCorr p, Reg.lnkPortFecUncorr p]
      ∧ (isMainline p = true → Counted s u (Reg.lnkPortFecCorr p) f.fecCorr ∧ Counted s u (Reg.lnkPortFecUncorr p) f.fecUncorr)
      ∧ (isTiming p = true → s.consumes f = false → f.etherType ≠ 0x88B5 → s.Quiet (otherPort p) →
          s.SendsAtOnce (otherPort p) → u.tx = s.tx ++ [.forward (Fin.ofNat 7 (otherPort p)) bytes])
      ∧ (f.etherType = 0x88B5 → Counted s u (Reg.lnkPortDrop p) 1 ∧ u.tx = s.tx ∧ u.lnk = s.lnk)
      ∧ (f.etherType ≠ 0x88B5 → u.get (Reg.lnkPortDrop p) = s.get (Reg.lnkPortDrop p))
      ∧ ((isTiming p = false ∨ s.consumes f = true) → u.tx = s.tx ∧ u.lnk = s.lnk))
  ∧ (∀ (s : State) (f : FrameFacts) (bytes : List Byte), s.Quiet 2 → f.fcsOk = true → s.frameOk 2 f = true →
    s.consumes f = false → f.etherType ≠ 0x88B5 → s.Quiet 3 → s.tim.now < s.lnk.busyA →
    ∃ u, exec (.frameForward 2 f bytes) s = .next u ∧ u.tx = s.tx
      ∧ u.lnk.oA = s.lnk.oA ++ [(.forward 3 bytes, f.length)])
  ∧ (∀ (s : State) (f : FrameFacts) (bytes : List Byte), s.Quiet 4 → f.fcsOk = true → s.frameOk 4 f = true →
    s.consumes f = false → f.etherType ≠ 0x88B5 → s.Quiet 5 → s.tim.now < s.lnk.busyB →
    ∃ u, exec (.frameForward 4 f bytes) s = .next u ∧ u.tx = s.tx
      ∧ u.lnk.oB = s.lnk.oB ++ [(.forward 5 bytes, f.length)])
  ∧ (∀ (s : State) (p : Port) (f : FrameFacts), s.Quiet p → (f.fcsOk = false ∨ s.frameOk p f = false) →
    ∃ u, exec (.frameDropped p f) s = .next u ∧ u.tx = s.tx
      ∧ (f.fcsOk = false → Counted s u (Reg.lnkPortFcs p) 1
          ∧ s.KeepsRegs u [Reg.lnkPortFcs p, Reg.lnkPortFecCorr p, Reg.lnkPortFecUncorr p])
      ∧ (f.fcsOk = true → Counted s u (Reg.lnkPortRx p) 1 ∧ Counted s u (Reg.lnkPortDrop p) 1
          ∧ s.KeepsRegs u [Reg.lnkPortRx p, Reg.lnkPortDrop p, Reg.lnkPortFecCorr p, Reg.lnkPortFecUncorr p]))
  ∧ (∀ (s : State) (p : Port) (a b : Word) (mac : BitVec 48) (bytes : List Byte), s.Quiet p →
    ∃ u, exec (.arpRequest p a ⟨b, mac⟩ bytes) s = .next u ∧ Counted s u (Reg.lnkPortRx p) 1
      ∧ s.KeepsRegs u [Reg.lnkPortRx p]
      ∧ (a = s.get Reg.lnkIp → s.SendsAtOnce p → u.tx = s.tx ++ [.arp p (s.portMac p) a mac b])
      ∧ (a ≠ s.get Reg.lnkIp → isTiming p = true → s.Quiet (otherPort p) → s.SendsAtOnce (otherPort p) →
          u.tx = s.tx ++ [.forward (Fin.ofNat 7 (otherPort p)) bytes])
      ∧ (a ≠ s.get Reg.lnkIp → isTiming p = false → u.tx = s.tx ∧ u.lnk = s.lnk))

/-- R249–R252: a PTP frame passes through a timing pair. What the transparent clock does not correct goes on unchanged; an
event message leaves at once, takes the timing-out port up, and has its residence time, in its domain's time, added to
its correction, a two-step Sync's being kept for its Follow_Up; a Follow_Up without one, and every timed message
during a clock stop, is dropped and counted. A message that comes in on the port it does not pass from goes no
further; that no counter but RX counts it is the model's choice (log entry 152). Said where no provocation has met the
frame through its other command (log entry 160). -/
def Obligations.TransparentClocksComplete : Prop :=
  (∀ (s : State) (p : Port) (f : PtpFrame) (bytes : List Byte), s.Quiet p → s.lnk.ptpSeen = [] → isTiming p = true → f.fcsOk = true →
    s.Quiet (otherPort p) → (ptpEvent f.type = false → s.SendsAtOnce (otherPort p)) →
    (s.bit (Reg.timDomCfg (pairOf p)) 2 = false ∨ f.versionPtp ≠ 2
      ∨ (ptpPasses f.type p = true ∧ f.type ≠ .sync ∧ f.type ≠ .followUp ∧ f.type ≠ .delayReq)) →
    ∃ u, exec (.transparentClock p f bytes) s = .next u ∧ Counted s u (Reg.lnkPortRx p) 1 ∧ s.KeepsRegs u [Reg.lnkPortRx p]
      ∧ u.tx = s.tx ++ [.forward (Fin.ofNat 7 (otherPort p)) bytes] ∧ u.tim = s.tim)
  ∧ (∀ (s : State) (p : Port) (f : PtpFrame) (bytes : List Byte), s.Quiet p → s.lnk.ptpSeen = [] → isTiming p = true → f.fcsOk = true →
    s.Quiet (otherPort p) → s.bit (Reg.timDomCfg (pairOf p)) 2 = true → f.versionPtp = 2 → s.stopped = false →
    ptpPasses f.type p = true → (f.type = .delayReq ∨ (f.type = .sync ∧ f.twoStep = false)) →
    ∃ u, exec (.transparentClock p f bytes) s = .next u ∧ Counted s u (Reg.timDomTcCnt (pairOf p)) 1
      ∧ s.KeepsRegs u [Reg.lnkPortRx p, Reg.timDomTcCnt (pairOf p)] ∧ u.tim = s.tim
      ∧ u.tx = s.tx ++ [.ptp (Fin.ofNat 7 (otherPort p)) (addCorrection f.correction
          (s.inDomain (pairOf p) f.domainNumber ((f.egress : Int) - f.ingress))) bytes]
      ∧ (p = 2 → u.lnk.busyA = max s.tim.now s.lnk.busyA + lineU 64)
      ∧ (p = 4 → u.lnk.busyB = max s.tim.now s.lnk.busyB + lineU 64))
  ∧ (∀ (s : State) (p : Port) (f : PtpFrame) (bytes : List Byte), s.Quiet p → s.lnk.ptpSeen = [] → (p = 2 ∨ p = 4) → f.fcsOk = true →
    s.Quiet (otherPort p) → s.bit (Reg.timDomCfg (pairOf p)) 2 = true → f.versionPtp = 2 → s.stopped = false →
    f.type = .sync → f.twoStep = true →
    ∃ u, exec (.transparentClock p f bytes) s = .next u ∧ s.KeepsRegs u [Reg.lnkPortRx p]
      ∧ u.tx = s.tx ++ [.forward (Fin.ofNat 7 (otherPort p)) bytes]
      ∧ (u.dom (pairOf p)).pend = ((⟨f.seqId, f.source, f.domainNumber,
          s.inDomain (pairOf p) f.domainNumber ((f.egress : Int) - f.ingress), s.tim.now⟩ : Resid)
          :: (s.dom (pairOf p)).pend).take 8)
  ∧ (∀ (s : State) (p : Port) (f : PtpFrame) (bytes : List Byte) (x : Resid), s.Quiet p → s.lnk.ptpSeen = [] → (p = 2 ∨ p = 4) →
    f.fcsOk = true → s.Quiet (otherPort p) → s.bit (Reg.timDomCfg (pairOf p)) 2 = true → f.versionPtp = 2 →
    s.stopped = false → f.type = .followUp → s.SendsAtOnce (otherPort p) →
    ((s.dom (pairOf p)).pend.find? fun (y : Resid) => y.seqId == f.seqId && y.source == f.source
      && y.domainNumber == f.domainNumber && decide (s.tim.now ≤ y.at_ + secU 1)) = some x →
    ∃ u, exec (.transparentClock p f bytes) s = .next u ∧ Counted s u (Reg.timDomTcCnt (pairOf p)) 1
      ∧ u.tx = s.tx ++ [.ptp (Fin.ofNat 7 (otherPort p)) (addCorrection f.correction x.residence) bytes]
      ∧ (u.dom (pairOf p)).pend = (s.dom (pairOf p)).pend.filter (fun (y : Resid) => y != x))
  ∧ (∀ (s : State) (p : Port) (f : PtpFrame) (bytes : List Byte), s.Quiet p → s.lnk.ptpSeen = [] → isTiming p = true → f.fcsOk = true →
    s.bit (Reg.timDomCfg (pairOf p)) 2 = true → f.versionPtp = 2 → ptpPasses f.type p = true →
    ((s.stopped = true ∧ (f.type = .sync ∨ f.type = .followUp ∨ f.type = .delayReq))
      ∨ (f.type = .followUp ∧ ((s.dom (pairOf p)).pend.find? fun (y : Resid) => y.seqId == f.seqId && y.source == f.source
          && y.domainNumber == f.domainNumber && decide (s.tim.now ≤ y.at_ + secU 1)) = none)) →
    ∃ u, exec (.transparentClock p f bytes) s = .next u ∧ Counted s u (Reg.timDomTcDrop (pairOf p)) 1 ∧ u.tx = s.tx
      ∧ u.tim = s.tim ∧ s.KeepsRegs u [Reg.lnkPortRx p, Reg.timDomTcDrop (pairOf p)])
  ∧ (∀ (s : State) (p : Port) (f : PtpFrame) (bytes : List Byte), s.Quiet p → s.lnk.ptpSeen = [] → isTiming p = true → f.fcsOk = true →
    s.bit (Reg.timDomCfg (pairOf p)) 2 = true → f.versionPtp = 2 → ptpPasses f.type p = false →
    ∃ u, exec (.transparentClock p f bytes) s = .next u ∧ Counted s u (Reg.lnkPortRx p) 1 ∧ u.tx = s.tx
      ∧ u.tim = s.tim ∧ s.KeepsRegs u [Reg.lnkPortRx p])

/-! ### Sample transport (R26–R30, R69, R145, R310–R312) -/

/-- R26, R310, R311: a sample frame in its turn, of a tile that has sent it and whose periods the Signal Box has
evaluated, goes with the words the tile sent to the look-back buffer as the next frame; one that a lane's check or the
frame's check shows to be damaged is replayed from the tile's buffer, or counted as lost and marked, with its failing
lanes counted; one that is 4.0 µs overdue likewise; a frame that has come already is dropped. R69, R145, R312: a tile
takes 256 sample periods; every one is evaluated for the switches of the channels that take samples, the words join
the frame that is filled (both said of a tile that goes on), and the segment's bits are delivered; a segment that does
not come whole, or that comes while the link trains, is counted as lost with its 256 periods. R30: the periods of a
span that have left the look-back buffer are lost to their windows, and each is counted once. The octets changed on
the way and the outcomes of replays are operands (log entry 151). That a frame number behind the expected one is
dropped, the moment taken for 4.0 µs overdue, and that an earlier FRAME_OVERDUE has no effect are the model's choices
(log entries 66 and 8). -/
def Obligations.SampleTransportCompletes : Prop :=
  (∀ (s : State) (t : Tile) (errs : List (Nat × Byte)) (oks : List Bool) (ok : Bool) (ws : List Sample),
    s.tileTraining t = false →
    s.frameSent t (s.tile t).framePeriod = true → s.sentWords t (s.tile t).framePeriod = some ws →
    s.bit (Reg.lnkProvCtrl (7 + t.val)) 31 = false → (∀ e ∈ errs, e.2 = 0) →
    ∃ u f, exec (.sampleFrameReceived t (BitVec.ofNat 32 (s.tile t).frameNo) errs 0 oks ok) s = .next u
      ∧ (u.tile t).frameNo = (s.tile t).frameNo + 1 ∧ (u.tile t).framePeriod = (s.tile t).framePeriod + framePeriods
      ∧ (u.sbx.look.get t).getLast? = some f ∧ f.first = (s.tile t).framePeriod ∧ f.words = ws ∧ f.lost = false
      ∧ f.gap = (s.tile t).gapNext
      ∧ u.get (Reg.lnkTlReplays t) = s.get (Reg.lnkTlReplays t) ∧ u.get (Reg.lnkTlLost t) = s.get (Reg.lnkTlLost t))
  ∧ (∀ (s : State) (t : Tile) (errs : List (Nat × Byte)) (dead lanes : BitVec 16) (oks : List Bool) (ok : Bool)
    (ws : List Sample) (o : List Byte),
    s.tileTraining t = false →
    s.frameSent t (s.tile t).framePeriod = true → s.sentWords t (s.tile t).framePeriod = some ws →
    s.bit (Reg.lnkProvCtrl (7 + t.val)) 31 = false → (∀ e ∈ errs, e.2 ≠ 0) →
    o = damage errs (frameOctets (frameBody t.val (s.tile t).frameNo (s.tile t).gapNext
      (s.chFlags t (s.tile t).framePeriod) (s.maskAt t (s.tile t).framePeriod) (s.ilvMask t) ws)) →
    lanes = (if errs = [] then 0 else failingLanes o) ||| dead → (errs ≠ [] ∧ frameCrcOk o = false ∨ lanes ≠ 0) →
    ∃ u f, exec (.sampleFrameReceived t (BitVec.ofNat 32 (s.tile t).frameNo) errs dead oks ok) s = .next u
      ∧ (u.tile t).frameNo = (s.tile t).frameNo + 1 ∧ (u.tile t).framePeriod = (s.tile t).framePeriod + framePeriods
      ∧ (∀ l, l < 16 → Counted s u (Reg.lnkTlLane t l) (lanes.getLsbD l).toNat)
      ∧ Counted s u (Reg.lnkTlReplays t) ok.toNat ∧ Counted s u (Reg.lnkTlLost t) (!ok).toNat
      ∧ (u.sbx.look.get t).getLast? = some f ∧ f.first = (s.tile t).framePeriod ∧ f.lost = !ok
      ∧ f.words = (if ok then ws else [])
      ∧ (ok = false → ∀ x ∈ u.bcp.sessions, x.atn.getLsbD Atn.link = true))
  ∧ (∀ (s : State) (t : Tile) (no : Word) (errs : List (Nat × Byte)) (dead : BitVec 16) (oks : List Bool) (ok : Bool),
    2 ^ 31 ≤ (no - BitVec.ofNat 32 (s.tile t).frameNo).toNat →
    exec (.sampleFrameReceived t no errs dead oks ok) s = .next s)
  ∧ (∀ (s : State) (t : Tile) (late : Nat) (ok : Bool) (ws : List Sample), 4000 ≤ late → s.tileTraining t = false →
    s.frameSent t (s.tile t).framePeriod = true → s.sentWords t (s.tile t).framePeriod = some ws →
    s.bit (Reg.lnkProvCtrl (7 + t.val)) 31 = false → (s.tile t).framePeriod + framePeriods + 8000 ≤ s.samplePos →
    ∃ u f, exec (.frameOverdue t late ok) s = .next u ∧ (u.tile t).frameNo = (s.tile t).frameNo + 1
      ∧ Counted s u (Reg.lnkTlReplays t) ok.toNat ∧ Counted s u (Reg.lnkTlLost t) (!ok).toNat
      ∧ (u.sbx.look.get t).getLast? = some f ∧ f.first = (s.tile t).framePeriod ∧ f.lost = !ok
      ∧ f.words = (if ok then ws else []))
  ∧ (∀ (s : State) (t : Tile) (levels : List (List Int)) (link : Option (List (Nat × Byte))) (first : Nat)
    (values : List (List Int)), (s.tilePowered t = true ∨ s.maskAt t (s.tile t).swPeriod ≠ 0) →
    (s.tile t).swPeriod + 256 ≤ s.samplePos → s.modes.sampling = true →
    (∀ l, s.modes.last = some l → (s.tile t).swPeriod < l) → levels.length = 256 →
    first = (s.tile t).swPeriod →
    values = ((s.takeSegment t first levels).map fun (p : List Taken) => p.map fun (y : Taken) => y.value) →
    ∃ u, exec (.switchSegmentReceived t first levels link) s = .next u ∧ (u.tile t).swPeriod = first + 256
      ∧ ((s.tilePowered t = true ∨ s.maskAt t (first + 256) ≠ 0) →
          (u.tile t).sw = (withIdx values).foldl (fun (w : BitVec 32) (x : Nat × List Int) =>
            (s.evalPeriod t (s.maskAt t (first + x.1)) x.2 w).1) (s.tile t).sw)
      ∧ ((s.tilePowered t = true ∨ s.maskAt t (first + 256) ≠ 0) → (first + 256) % framePeriods ≠ 0 → (u.tile t).building = (s.tile t).building
          ++ (s.takeSegment t first levels).flatMap fun (p : List Taken) => p.map fun (y : Taken) => y.word)
      ∧ (s.tileTraining t = false → link = some [] → u.sbx.swBuf.length
            = s.sbx.swBuf.length + ((List.range 256).filter fun i => decide (s.sbx.period ≤ first + i)).length
          ∧ u.get Reg.sbxSwLoss = s.get Reg.sbxSwLoss ∧ u.get (Reg.lnkTlSwLost t) = s.get (Reg.lnkTlSwLost t))
      ∧ ((s.tileTraining t = true ∨ link = none) → u.sbx.swBuf = s.sbx.swBuf
          ∧ Counted s u Reg.sbxSwLoss 256 ∧ Counted s u (Reg.lnkTlSwLost t) 1
          ∧ ∀ x ∈ u.bcp.sessions, x.atn.getLsbD Atn.link = true))
  ∧ (∀ (s : State) (id : WinId) (a b : Nat),
    ∃ u, exec (.lookbackAgeOut id a b) s = .next u ∧ s.KeepsRegs u [Reg.queLostPeriods]
      ∧ Counted s u Reg.queLostPeriods
          (((s.sbx.hits ++ (s.sbx.progs.toList.filterMap fun (x : Prog) => x.win) ++ s.sbx.closing).filter
            fun (w : Win) => w.id = id).map fun (w : Win) =>
              (w.chanList.map fun (c : Nat) => (s.newlyAged w a b c).length).sum).sum
      ∧ u.sbx.hits.map (fun (w : Win) => (w.id, w.first, w.chans)) = s.sbx.hits.map (fun (w : Win) => (w.id, w.first, w.chans))
      ∧ (∀ w ∈ s.sbx.closing, w.id ≠ id → w ∈ u.sbx.closing)
      ∧ (∀ w ∈ u.sbx.closing, w.id = id → ∃ y ∈ s.sbx.closing, ∃ more, w = { y with lost := y.lost ++ more }
          ∧ ∀ c ∈ y.chanList, ∀ n ∈ s.newlyAged y a b c, ∃ l ∈ w.lost, l.1 = c ∧ l.2.1 ≤ n ∧ n ≤ l.2.2.1))
  ∧ (∀ (s : State) (t : Tile) (late : Nat) (ok : Bool), late < 4000 → exec (.frameOverdue t late ok) s = .next s)


/-! ### Records into the queues, and BDT (R159–R167, R289–R297, R303) -/

/-- R159–R164: the built record whose turn it is goes to the Store and to the queues of QUE_ROUTE as cells, whole or
skipped and counted. R163, R166, R292: a segment's bytes from the live queue, full or after QUE_FLUSH, leave as the
live stream's next segment; a request's or drain's leave as its own, from the read queue, while the live queue offers
nothing, the last with END. R293: a Mainline that is up and has a destination sends HEARTBEATs. R303: the exercise
stream sends PRBS31, its bits as log entry 73 presumes; its END ends it, and where EXERCISE_B has been written to 1
again a fresh one begins. -/
def Obligations.RecordsAndSegmentsAreSent : Prop :=
  (∀ (s : State) (b : Built), s.nextBuilt = some b →
    ∃ u, exec .recordSend s = .next u ∧ u.que.built = s.que.built.filter (fun x => x.seq != b.seq)
      ∧ (b.long = false → ∃ r ∈ u.dpt.recs, r.seq = some b.seq ∧ r.stored = true ∧ r.length = b.bytes.length)
      ∧ (s.fld Reg.queRoute (2 * b.kind + 1) (2 * b.kind) % 2 = 0 → u.que.live = s.que.live)
      ∧ (s.fld Reg.queRoute (2 * b.kind + 1) (2 * b.kind) % 2 = 1 →
          s.liveFill + (if b.long then 64 else 64 * ((b.bytes.length + 63) / 64)) ≤ 8 * 2 ^ 20 →
          ∃ e, u.que.live = s.que.live ++ [e] ∧ e.seq = b.seq ∧ e.length = b.bytes.length ∧ e.isRef = b.long ∧ e.taken = 0
            ∧ (b.long = false → e.bytes = b.bytes))
      ∧ (s.fld Reg.queRoute (2 * b.kind + 1) (2 * b.kind) % 2 = 1 →
          8 * 2 ^ 20 < s.liveFill + (if b.long then 64 else 64 * ((b.bytes.length + 63) / 64)) →
          u.que.live = s.que.live ∧ Counted s u Reg.queLiveSkip 1 ∧ u.bit Reg.queStat 3 = true
            ∧ u.get64 Reg.queLastSkipLo Reg.queLastSkipHi = BitVec.ofNat 64 b.seq)
      ∧ (2 ≤ s.fld Reg.queRoute (2 * b.kind + 1) (2 * b.kind) → b.long = false →
          s.hrFill + (b.bytes.length + 63) / 64 * 64 ≤ 256 * 1024 →
          u.que.hostRead = s.que.hostRead ++ [⟨b.seq, cellsOf .registerPort 3 1 b.bytes, 0⟩])
      ∧ (2 ≤ s.fld Reg.queRoute (2 * b.kind + 1) (2 * b.kind) →
          (b.long = true ∨ 256 * 1024 < s.hrFill + (b.bytes.length + 63) / 64 * 64) →
          u.que.hostRead = s.que.hostRead ∧ Counted s u Reg.queHrSkip 1))
  ∧ (∀ (s : State) (p : Fin 2) (b : Bind) (x : Stream) (e : LiveEnt) (rest : List LiveEnt) (short : Bool), s.Quiet p →
    s.mlServes p = true → s.bindOf p = some b → s.unsettledOn p < s.fld Reg.lnkBdtCfg 31 16 → 0 < s.segBytes →
    s.que.live = e :: rest → e.isRef = false → s.misframed e = false → s.dpt.mapErrs = [] → x = (s.stream 0).getD (Stream.fresh 0) →
    s.lnk.resends = [] →
    (short = false → s.segBytes ≤ s.liveOffers) →
    (short = true → 0 < s.liveOffers ∧ s.liveOffers < s.segBytes
      ∧ ∀ y ∈ s.que.live, y.at_ + usU (s.fld Reg.queFlush 9 0) ≤ s.tim.now) →
    ∃ u y g rest', exec (if short then .shortPacket p 0 else .bdtDataSend p 0) s = .next u ∧ u.stream 0 = some y
      ∧ y.segs = x.segs ++ [g] ∧ g.seq = x.next ∧ g.port = p ∧ y.next = x.next + 1
      ∧ g.deadline = s.tim.now + usU 800
      ∧ u.tx = s.tx ++ [.data p b x.id x.next g.flags g.firstOffset e.seq ((e.bytes.drop e.taken).take s.segBytes ++ rest')]
      ∧ (u.get64 Reg.lnkSegsLo Reg.lnkSegsHi).toNat = min (2 ^ 64 - 1) ((s.get64 Reg.lnkSegsLo Reg.lnkSegsHi).toNat + 1))
  ∧ (∀ (s : State) (p : Fin 2) (b : Bind) (id : BitVec 16) (x : Stream) (l : Loaded) (more : List Loaded), s.Quiet p →
    s.mlServes p = true → s.bindOf p = some b → s.unsettledOn p < s.fld Reg.lnkBdtCfg 31 16 → 0 < s.segBytes →
    s.que.live = [] → s.lnk.resends = [] → id ≠ 0 → id ≠ exerciseStream → s.stream id = some x → x.ended = false →
    (isDrain id = true → s.fld Reg.pwrGrant 23 16 ≠ 0 ∧ ∃ h, x.slot = some h ∧ s.holdState h = 4) →
    x.loaded = l :: more → s.segBytes < l.bytes.length → l.start + l.bytes.length ≤ l.length →
    (l.start = 0 → s.gensHold l.gens = true) → s.dpt.errs = [] → s.dpt.mapErrs = [] →
    ∃ u y g l' more', exec (.bdtDataSend p id) s = .next u ∧ u.stream id = some y ∧ y.segs = x.segs ++ [g]
      ∧ g.seq = x.next ∧ g.port = p ∧ y.next = x.next + 1 ∧ y.ended = false
      ∧ y.loaded = l' :: more' ∧ l'.item = l.item ∧ l'.start = l.start + s.segBytes
      ∧ g.flags.getLsbD 4 = isUnit l.item ∧ g.flags.getLsbD 3 = false
      ∧ u.tx = s.tx ++ [.data p b x.id x.next g.flags (if l.start = 0 then 0 else 0xFFFF) (itemNumber l.item)
          (l.bytes.take s.segBytes)])
  ∧ (∀ (s : State) (p : Fin 2) (b : Bind) (id : BitVec 16) (x : Stream), s.Quiet p → s.mlServes p = true →
    s.bindOf p = some b → s.unsettledOn p < s.fld Reg.lnkBdtCfg 31 16 → s.que.live = [] → s.lnk.resends = [] → id ≠ 0 →
    id ≠ exerciseStream → s.stream id = some x → x.ended = false →
    (isDrain id = true → s.fld Reg.pwrGrant 23 16 ≠ 0 ∧ ∃ h, x.slot = some h ∧ s.holdState h = 4) →
    x.loaded = [] → (s.refill x).items = [] →
    ∃ u y, exec (.bdtDataSend p id) s = .next u ∧ u.stream id = some y ∧ y.ended = true ∧ y.next = x.next + 1
      ∧ u.tx = s.tx ++ [.data p b x.id x.next flagEnd 0xFFFF 0 []])
  ∧ (∀ (s : State) (b : Bind) (x : Stream), s.Quiet 1 → s.mlUp 1 = true → s.lnk.bindB = some b →
    s.unsettledOn 1 < s.fld Reg.lnkBdtCfg 31 16 → s.stream exerciseStream = some x → x.ended = false →
    s.lnk.resends = [] → s.que.live = [] →
    ∃ u y, exec (.bdtDataSend 1 exerciseStream) s = .next u ∧ u.stream exerciseStream = some y
      ∧ u.tx = s.tx ++ [.data 1 b x.id x.next (if x.stopped then flagEnd else 0) 0xFFFF 0 (prbsBytes s.segBytes x.prbs).1]
      ∧ ((x.stopped = false ∨ s.bit Reg.lnkMlCtrl 9 = false) → y.ended = x.stopped ∧ y.next = x.next + 1
          ∧ y.prbs = (prbsBytes s.segBytes x.prbs).2)
      ∧ (x.stopped = true → s.bit Reg.lnkMlCtrl 9 = false → u.bit Reg.lnkMlStat 10 = false)
      ∧ (x.stopped = true → s.bit Reg.lnkMlCtrl 9 = true → y = Stream.fresh exerciseStream
          ∧ u.bit Reg.lnkMlStat 10 = s.bit Reg.lnkMlStat 10))
  ∧ (∀ (s : State) (p : Fin 2) (id : BitVec 16), s.mlServes p = true → id ≠ 0 → id ≠ exerciseStream →
    (∃ e ∈ s.que.live.head?, s.entGone e = false ∧ s.misframed e = false) → 0 < s.liveOffers → s.dpt.mapErrs = [] →
    s.unsettledOn p < s.fld Reg.lnkBdtCfg 31 16 → exec (.bdtDataSend p id) s = .next s)
  ∧ (∀ (s : State) (p : Fin 2) (b : Bind), s.Quiet p → s.bindOf p = some b → s.mlUp p = true →
    ∃ u, exec (.heartbeat p) s = .next u ∧ u.regs = s.regs
      ∧ u.tx = s.tx ++ [.heartbeat p b (((s.stream 0).map fun x => x.next).getD 0) (if s.isActive p then flagActive else 0)
          s.tim.mt])

/-- R294, R296: an ACK settles every segment that it covers, and a request's operation is DONE once all of an ended stream
is settled; a packet that fails its checks is dropped. R31, R296, R297: 200 µs after its latest sending a segment goes
out again with RETX, on the port that sent it last if that still serves, once the live queue offers nothing, and until
then it waits; after its third retransmission, or at its deadline, it is abandoned, counted and reported. When a
request's operation is done is the model's reading (log entry 21). -/
def Obligations.SegmentsAreSettledOrRetransmitted : Prop :=
  (∀ (s : State) (a : AckPkt) (x : Stream), s.Quiet a.port → isMainline a.port = true → s.ackOk a = true →
    s.stream a.stream = some x →
    ∃ u y, exec (.ack a) s = .next u ∧ Counted s u (Reg.lnkPortRx a.port) 1 ∧ u.stream a.stream = some y ∧ y.next = x.next
      ∧ (∀ g ∈ y.segs, a.segSeq.toNat ≤ g.seq
          ∧ (∀ r ∈ a.ranges, ¬(r.1.toNat ≤ g.seq ∧ g.seq ≤ r.2.toNat)) ∧ ∃ g' ∈ x.segs, g'.seq = g.seq)
      ∧ (a.ranges = [] → y.segs = x.segs.filter (fun g => decide (a.segSeq.toNat ≤ g.seq)) ∧ u.tx = s.tx)
      ∧ (∀ o, x.op = some o → isRequest a.stream = true → x.ended = true →
          (∀ g ∈ x.segs, g.seq < a.segSeq.toNat) → OpEnds s u o x.final (s.opCounts (some o))))
  ∧ (∀ (s : State) (a : AckPkt), s.Quiet a.port → (isMainline a.port = false ∨ s.ackOk a = false) →
    ∃ u, exec (.ack a) s = .next u ∧ Counted s u (Reg.lnkPortRx a.port) 1 ∧ Counted s u (Reg.lnkPortDrop a.port) 1
      ∧ u.lnk = s.lnk ∧ u.tx = s.tx)
  ∧ (∀ (s : State) (id : BitVec 16) (q : BitVec 64) (g : Seg) (b : Bind), s.seg id q.toNat = some g → s.anyUp = true →
    g.sentAt + usU 200 ≤ s.tim.now → g.retx < 3 → s.bindOf g.port = some b → s.Quiet g.port → s.mlUp g.port = true →
    (id ≠ exerciseStream → s.mlServes g.port = true) → (id = exerciseStream → g.port = 1) →
    s.lnk.resends = [] → s.liveOffers = 0 →
    ∃ u fl off item bytes, exec (.retransmitTimeout id q) s = .next u ∧ Counted s u Reg.lnkRetx 1
      ∧ u.tx = s.tx ++ [.data g.port b id q.toNat fl off item bytes] ∧ fl.getLsbD 0 = true
      ∧ (∀ h, u.seg id q.toNat = some h → h.retx = g.retx + 1 ∧ h.sentAt = s.tim.now ∧ h.deadline = g.deadline))
  ∧ (∀ (s : State) (id : BitVec 16) (q : BitVec 64) (g : Seg), s.seg id q.toNat = some g → s.anyUp = true →
    g.sentAt + usU 200 ≤ s.tim.now → g.retx < 3 → (id, q.toNat) ∉ s.lnk.resends → 0 < s.liveOffers →
    ∃ u, exec (.retransmitTimeout id q) s = .next u ∧ u.lnk.resends = s.lnk.resends ++ [(id, q.toNat)] ∧ u.tx = s.tx
      ∧ u.regs = s.regs)
  ∧ (∀ (s : State) (id : BitVec 16) (q : BitVec 64) (g : Seg) (i : Instr), s.seg id q.toNat = some g → s.anyUp = true →
    ((i = .retransmitTimeout id q ∧ g.sentAt + usU 200 ≤ s.tim.now ∧ 3 ≤ g.retx)
      ∨ (i = .abandon id q ∧ g.deadline ≤ s.tim.now)) →
    ∃ u, exec i s = .next u ∧ u.seg id q.toNat = none ∧ Counted s u Reg.lnkAbandon 1 ∧ s.KeepsRegs u [Reg.lnkAbandon]
      ∧ u.tx = s.tx ∧ ∀ x ∈ u.bcp.sessions, x.atn.getLsbD Atn.link = true)

/-! ### Mainline events and clock gates (R40, R167, R276–R280, R300, R301, R304) -/

/-- R300, R301, R304: a Mainline that has been without lock for SWO_HOLD is down, and the other takes over, or carries a
bonded pair alone; one that comes up starts its 10 ms of store-and-forward (R167) and takes over from one that is
down. A bonded port that returns beside one that serves takes nothing until its span ends, when the pair is whole
again; beside one that is down it carries the pair. The overlap of a commanded switchover and the store-and-forward
span end. R314, R317: a timing or management port that has lost its link goes down too, with its timing version, and
comes up again without one; LNK_PORT_STATn shows the faults that the loss comes with until the link returns. That a
loss shorter than SWO_HOLD shows its faults and has no other effect is the model's choice (log entry 8). That
PORT_DOWN before SWO_HOLD has no effect is the model's choice (log entry 8). -/
def Obligations.MainlineEventsComplete : Prop :=
  (∀ (s : State) (p : Fin 2) (l : LinkLoss), s.modes.control = true → s.mlUp p = true →
    s.fld Reg.lnkMlCtrl 23 16 ≤ l.heldUs →
    ∃ u, exec (.portDown (Fin.castLE (by decide) p) l) s = .next u
      ∧ u.bit (Reg.lnkPortStat p) 1 = l.localFault ∧ u.bit (Reg.lnkPortStat p) 2 = l.remoteFault ∧ u.mlUp p = false ∧ u.portUp p = false ∧ u.bit (Reg.lnkPortStat p) 3 = true
      ∧ u.mlUp (otherMl p) = s.mlUp (otherMl p)
      ∧ (s.mlMode = 1 → s.mlActive = p.val → s.mlUp (otherMl p) = true →
          u.mlActive = (otherMl p).val ∧ Counted s u Reg.lnkSwitchovers 1
            ∧ u.safEnd (otherMl p) = some (s.tim.now + msU 10) ∧ ∀ x ∈ u.bcp.sessions, x.atn.getLsbD Atn.link = true)
      ∧ ((s.mlMode ≠ 1 ∨ s.mlActive ≠ p.val ∨ s.mlUp (otherMl p) = false) →
          u.mlActive = s.mlActive ∧ u.get Reg.lnkSwitchovers = s.get Reg.lnkSwitchovers)
      ∧ (s.mlMode = 2 → s.mlUp (otherMl p) = true → u.bit Reg.lnkMlStat 9 = true)
      ∧ (s.mlUp (otherMl p) = false → u.lnk.noneUp = some s.tim.now ∧ u.tx = s.tx))
  ∧ (∀ (s : State) (p : Port) (l : LinkLoss), s.modes.control = true → l.heldUs < s.fld Reg.lnkMlCtrl 23 16 →
    ∃ u, exec (.portDown p l) s = .next u ∧ u.bit (Reg.lnkPortStat p) 1 = l.localFault
      ∧ u.bit (Reg.lnkPortStat p) 2 = l.remoteFault ∧ u.portUp p = s.portUp p ∧ s.KeepsRegs u [Reg.lnkPortStat p]
      ∧ u.lnk = s.lnk ∧ u.que = s.que ∧ u.tx = s.tx)
  ∧ (∀ (s : State) (p : Port) (l : LinkLoss), 2 ≤ p.val → s.modes.control = true → s.portUp p = true →
    s.fld Reg.lnkMlCtrl 23 16 ≤ l.heldUs →
    ∃ u, exec (.portDown p l) s = .next u ∧ u.portUp p = false ∧ u.bit (Reg.lnkPortStat p) 3 = true
      ∧ u.bit (Reg.lnkPortStat p) 1 = l.localFault ∧ u.bit (Reg.lnkPortStat p) 2 = l.remoteFault
      ∧ (isTiming p = true → (u.tport p).version = none ∧ u.bit (Reg.lnkPortStat p) 4 = false
          ∧ (u.tport (otherPort p)).version = (s.tport (otherPort p)).version)
      ∧ s.KeepsRegs u [Reg.lnkPortStat p, Reg.lnkVer] ∧ u.tx = s.tx)
  ∧ (∀ (s : State) (p : Port), 2 ≤ p.val → s.portUp p = false → s.portClocked p = true →
    ∃ u, exec (.portUp p) s = .next u ∧ u.portUp p = true ∧ u.bit (Reg.lnkPortStat p) 1 = false
      ∧ u.bit (Reg.lnkPortStat p) 2 = false
      ∧ (isTiming p = true → (u.tport p).version = none ∧ (u.tport p).upAt = some s.tim.now ∧ (u.tport p).heard = false
          ∧ u.bit (Reg.lnkPortStat p) 4 = false)
      ∧ s.KeepsRegs u [Reg.lnkPortStat p, Reg.lnkVer] ∧ u.tx = s.tx)
  ∧ (∀ (s : State) (p : Fin 2), s.mlUp p = false → s.mlEnabled p = true → s.portClocked p = true →
    ∃ u, exec (.portUp (Fin.castLE (by decide) p)) s = .next u ∧ u.bit (Reg.lnkPortStat p) 1 = false
      ∧ u.bit (Reg.lnkPortStat p) 2 = false ∧ u.mlUp p = true ∧ u.portUp p = true ∧ u.safEnd p = some (s.tim.now + msU 10)
      ∧ u.lnk.noneUp = none
      ∧ (s.mlMode = 1 → s.mlActive = (otherMl p).val → s.mlUp (otherMl p) = false →
          u.mlActive = p.val ∧ Counted s u Reg.lnkSwitchovers 1)
      ∧ ((s.mlMode ≠ 1 ∨ s.mlActive ≠ (otherMl p).val ∨ s.mlUp (otherMl p) = true) →
          u.mlActive = s.mlActive ∧ u.get Reg.lnkSwitchovers = s.get Reg.lnkSwitchovers)
      ∧ (s.mlMode = 2 → s.mlUp (otherMl p) = true → otherMl p ∉ s.lnk.rejoin →
          u.lnk.rejoin = s.lnk.rejoin ++ [p] ∧ u.tx = s.tx ∧ u.bit Reg.lnkMlStat 9 = s.bit Reg.lnkMlStat 9)
      ∧ (s.mlMode = 2 → s.mlUp (otherMl p) = false → u.bit Reg.lnkMlStat 9 = true ∧ u.lnk.rejoin = s.lnk.rejoin))
  ∧ (∀ (s : State) (a : Nat), s.lnk.overlap = some a → a ≤ s.tim.now →
    ∃ u, exec .switchoverOverlapEnd s = .next u ∧ u.bit Reg.lnkMlStat 8 = false ∧ u.lnk.overlap = none
      ∧ s.KeepsRegs u [Reg.lnkMlStat])
  ∧ (∀ (s : State) (p : Fin 2) (a : Nat), s.safEnd p = some a → a ≤ s.tim.now →
    ∃ u, exec (.storeAndForwardEnd p) s = .next u ∧ u.safEnd p = none ∧ u.safEnd (otherMl p) = s.safEnd (otherMl p)
      ∧ u.lnk.rejoin = s.lnk.rejoin.filter (fun (q : Fin 2) => q != p)
      ∧ (s.mlMode = 2 → s.mlUp 0 = true → s.mlUp 1 = true → otherMl p ∉ s.lnk.rejoin → u.bit Reg.lnkMlStat 9 = false)
      ∧ s.KeepsRegs u [Reg.lnkMlStat])


/-! ### Compression and the Ring (R183–R185, R218–R222) -/

/-- R218: a complete unit goes to the next eligible engine with a free slot, or raw to the Ring writer, counted where all
are busy. R219–R222: a verified block is stored compressed; one without gain, or unresolved, or late, raw; a failed
first attempt is offered to another engine; a retry that verifies counts a transient, one that fails a lasting fault
of the first engine, the third within 1 s being its quarantine. R184, R185: the Ring writer takes the oldest ready
unit under the next UNIT_SEQ. -/
def Obligations.CompressionAndRingComplete : Prop :=
  (∀ (s : State) (c : Fin 64) (u : UnitB), (s.cmp.building.find? fun (x : UnitB) => x.chan = c.val && x.full) = some u →
    ∃ t, exec (.unitComplete c) s = .next t ∧ t.cmp.building = s.cmp.building.filter (fun (v : UnitB) => !sameBlock v u)
      ∧ ((s.bit Reg.cmpCtrl 0 = false ∨ ∀ e : Fin 32, s.eligible c e = false) →
          t.cmp.ready = s.cmp.ready ++ [⟨u, false, false, wordBytes u.words⟩] ∧ t.cmp.jobs = s.cmp.jobs ∧ t.regs = s.regs)
      ∧ (s.bit Reg.cmpCtrl 0 = true → (∃ e : Fin 32, s.eligible c e = true) →
          (∀ e : Fin 32, s.eligible c e = true → s.freeSlot e = false) →
          t.cmp.ready = s.cmp.ready ++ [⟨u, false, false, wordBytes u.words⟩] ∧ t.cmp.jobs = s.cmp.jobs
            ∧ Counted s t Reg.cmpRawBusy 1)
      ∧ (∀ e : Fin 32, s.bit Reg.cmpCtrl 0 = true →
          (s.roundRobin.find? fun (x : Fin 32) => s.eligible c x && s.freeSlot x) = some e →
          t.cmp.ready = s.cmp.ready ∧ t.cmp.lastEng = e.val
            ∧ ∃ j ∈ t.jobs e, j.unit = u ∧ j.at_ = s.tim.now ∧ j.first = none
              ∧ j.due = s.tim.now + usU (s.fld Reg.cmpDeadline 6 0)))
  ∧ (∀ (s : State) (e : Fin 32) (mismatch : Bool) (j : Job) (body : List Byte), activeJob (s.jobs e) = some j →
    j.first = none → body = compressed j.unit.words →
    ∃ t more, exec (.engineResult e mismatch) s = .next t
      ∧ (65536 ≤ body.length → t.cmp.ready = s.cmp.ready ++ ⟨j.unit, false, true, wordBytes j.unit.words⟩ :: more
          ∧ Counted s t Reg.cmpNoGain 1 ∧ Counted s t (Reg.cmpEngBlocks e) 1)
      ∧ (body.length < 65536 → (mismatch || j.inject) = false →
          t.cmp.ready = s.cmp.ready ++ ⟨j.unit, true, true, body⟩ :: more
            ∧ Counted s t Reg.cmpCompBlocks 1 ∧ Counted s t (Reg.cmpEngBlocks e) 1))
  ∧ (∀ (s : State) (e r : Fin 32) (mismatch : Bool) (j : Job), s.jobs e = [j] → j.waiting = false → j.lent = false →
    j.first = none → (compressed j.unit.words).length < 65536 → (mismatch || j.inject) = true →
    (∀ x : Fin 32, ∀ k ∈ s.jobs x, k.waiting = false) →
    (s.roundRobin.find? fun (x : Fin 32) => x != e && s.eligible j.unit.chan x && s.freeSlot x) = some r →
    ∃ t, exec (.engineResult e mismatch) s = .next t ∧ t.cmp.ready = s.cmp.ready
      ∧ (∃ k ∈ t.jobs r, k.unit = j.unit ∧ k.first = some e.val) ∧ ∃ k ∈ t.jobs e, k.unit = j.unit ∧ k.lent = true)
  ∧ (∀ (s : State) (e : Fin 32) (mismatch : Bool) (j : Job), s.jobs e = [j] → j.waiting = false → j.lent = false →
    j.first = none → (compressed j.unit.words).length < 65536 → (mismatch || j.inject) = true →
    (∀ x : Fin 32, ∀ k ∈ s.jobs x, k.waiting = false) → (∀ x : Fin 32, x ≠ e → s.eligible j.unit.chan x = false) →
    ∃ t, exec (.engineResult e mismatch) s = .next t ∧ Counted s t Reg.cmpUnresolved 1
      ∧ t.cmp.ready = s.cmp.ready ++ [⟨j.unit, false, false, wordBytes j.unit.words⟩])
  ∧ (∀ (s : State) (e f : Fin 32) (mismatch : Bool) (j : Job) (body : List Byte), activeJob (s.jobs e) = some j →
    j.first = some f.val → body = compressed j.unit.words →
    ∃ t more, exec (.engineResult e mismatch) s = .next t ∧ Counted s t (Reg.cmpEngBlocks e) 1
      ∧ (body.length < 65536 → (mismatch || j.inject) = false →
          t.cmp.ready = s.cmp.ready ++ ⟨j.unit, true, true, body⟩ :: more
            ∧ t.fld (Reg.cmpEngFault f) 31 16 = min 65535 (s.fld (Reg.cmpEngFault f) 31 16 + 1))
      ∧ ((65536 ≤ body.length ∨ (mismatch || j.inject) = true) →
          t.cmp.ready = s.cmp.ready ++ ⟨j.unit, false, true, wordBytes j.unit.words⟩ :: more
            ∧ t.fld (Reg.cmpEngFault f) 15 0 = min 65535 (s.fld (Reg.cmpEngFault f) 15 0 + 1)
            ∧ (2 ≤ (((lookupK f.val s.cmp.faults).getD []).filter fun (a : Nat) => decide (s.tim.now ≤ a + secU 1)).length →
                t.bit Reg.cmpQuar f = true)))
  ∧ (∀ (s : State) (e : Fin 32) (late : List Job),
    late = (s.jobs e).filter (fun (j : Job) => decide (j.due ≤ s.tim.now)) →
    ∃ t more, exec (.cmpDeadlineExpire e) s = .next t
      ∧ t.cmp.ready = s.cmp.ready ++ late.map (fun (j : Job) => ⟨j.unit, false, false, wordBytes j.unit.words⟩) ++ more
      ∧ Counted s t Reg.cmpLate (late.filter fun (j : Job) => !j.waiting).length
      ∧ (∀ j ∈ late, ∀ x : Fin 32, ∀ k ∈ t.jobs x, sameBlock k.unit j.unit = false))
  ∧ (∀ (s : State) (r : Ready) (rest : List Ready), s.cmp.ready = r :: rest → s.modes.depot = true →
    ∃ t x, exec .ringUnitWrite s = .next t ∧ t.cmp.ready = rest ∧ t.unitSeq = (s.unitSeq + 1) % 2 ^ 64
      ∧ t.dpt.units.getLast? = some x ∧ x.useq = s.unitSeq ∧ x.chan = r.unit.chan ∧ x.length = r.body.length
      ∧ x.descriptor = descriptorBytes r s.unitSeq x.block x.offset)

/-! ### Scrubbing and the stacks (R202–R208, R211) -/

/-- R204: a scrub step goes on to the next line, a pass ends with the last, and a late pass is LAGGING. R202, R203, R206:
an error of one or two symbols in the line is corrected and counted, one beyond the code's reach leaves the poison
codeword. R205, R208: the walk over the map, once every DPT_SCRUB_MAP, corrects single errors, counting each, and
rebuilds an entry with a double one. R206: every DPT_LEAK buckets leak. R211: a stack's temperature sets its refresh.
That a walk or a leak whose time has not come has no effect is the model's choice (log entry 8). -/
def Obligations.DepotCareCompletes : Prop :=
  (∀ (s : State) (up : List (Nat × Byte)), s.modes.depot = true → s.bit Reg.dptScrubCfg 31 = true →
    s.bit Reg.pwrGrant 1 = true →
    ∃ t, exec (.scrubStep up) s = .next t
      ∧ (s.fitted * 4096 ≤ s.scrubTarget + 1 → t.dpt.scrubLine = 0 ∧ Counted s t Reg.dptScrubPasses 1
          ∧ t.dpt.passStart = s.tim.now)
      ∧ (s.scrubTarget + 1 < s.fitted * 4096 → t.dpt.scrubLine = s.scrubTarget + 1 ∧ t.dpt.passStart = s.dpt.passStart)
      ∧ (s.scrubLate = true → t.bit Reg.dptScrubStat 31 = true))
  ∧ (∀ s : State, s.modes.depot = true → s.bit Reg.dptScrubCfg 31 = true → s.bit Reg.pwrGrant 1 = true →
    s.scrubTarget < s.fitted * 4096 → s.dpt.mapErrs = [] →
    ∃ t, exec (.scrubStep []) s = .next t
      ∧ (s.lineErrs s.scrubTarget = [] → t.dpt.mem = s.dpt.mem ∧ t.dpt.errs = s.dpt.errs ∧ t.dpt.map = s.dpt.map)
      ∧ (1 ≤ (s.lineErrs s.scrubTarget).length → (s.lineErrs s.scrubTarget).length ≤ 2 →
          s.isPoison s.scrubTarget = false → t.dpt.mem = s.dpt.mem
          ∧ t.lineErrs s.scrubTarget = [] ∧ Counted s t (Reg.dptCeCnt (s.scrubTarget / 536870912)) 1)
      ∧ (3 ≤ (s.lineErrs s.scrubTarget).length → (s.lineErrs s.scrubTarget).length ≤ 6 →
          s.isPoison s.scrubTarget = false →
          t.isPoison s.scrubTarget = true ∧ Counted s t Reg.dptUeCnt 1 ∧ t.bit Reg.dptEccStat 8 = true
            ∧ (t.mapEnt (s.scrubTarget / 4096)).poison = true))
  ∧ (∀ (s : State) (j : Nat) (m : Byte), s.modes.depot = true → s.bit Reg.dptScrubCfg 31 = true →
    s.bit Reg.pwrGrant 1 = true → s.scrubTarget < s.fitted * 4096 → s.dpt.errs = [] → j < 72 → m ≠ 0 →
    ({ s with dpt := { s.dpt with errs := [(s.scrubTarget, j, m)] } } : State).isPoison s.scrubTarget = false →
    ∃ t, exec (.scrubStep [(j, m)]) s = .next t ∧ t.dpt.errs = [] ∧ t.dpt.mem = s.dpt.mem
      ∧ Counted s t (Reg.dptCeCnt (s.scrubTarget / 536870912)) 1)
  ∧ (∀ s : State, s.modes.depot = true → s.bit Reg.dptScrubCfg 31 = true →
    s.dpt.mapAt + secU (s.fld Reg.dptScrubMap 11 0) ≤ s.tim.now → s.bit Reg.dptMapflipCtrl 0 = false →
    (∀ x ∈ s.dpt.mapErrs, popCount x.2 = 1) →
    ∃ t, exec (.scrubMapPass []) s = .next t ∧ t.dpt.mapErrs = [] ∧ t.dpt.mapAt = s.tim.now
      ∧ (∀ c, t.mapEnt c = s.mapEnt c)
      ∧ ((s.dpt.mapErrs.map fun x => x.1).Nodup → Counted s t (Reg.dptCeCnt 4) s.dpt.mapErrs.length))
  ∧ (∀ (s : State) (b : Nat) (m : BitVec 72), s.modes.depot = true → s.bit Reg.dptScrubCfg 31 = true →
    s.dpt.mapAt + secU (s.fld Reg.dptScrubMap 11 0) ≤ s.tim.now → s.dpt.mapErrs = [] → popCount m = 2 →
    s.bit Reg.dptMapflipCtrl 0 = false →
    ∃ t, exec (.scrubMapPass [(b, m)]) s = .next t ∧ t.dpt.mapErrs = [] ∧ Counted s t Reg.dptUeCnt 1
      ∧ t.bit Reg.dptEccStat 8 = true
      ∧ t.mapEnt b = ⟨(s.rebuiltOwner b).1, (s.rebuiltOwner b).2, true, true, 511, 0, (s.mapEnt b).generation + 1⟩
      ∧ (∀ c, c ≠ b → t.mapEnt c = s.mapEnt c))
  ∧ (∀ (s : State) (up : List (Nat × BitVec 72)), s.tim.now < s.dpt.mapAt + secU (s.fld Reg.dptScrubMap 11 0) →
    exec (.scrubMapPass up) s = .next s)
  ∧ (∀ s : State, s.modes.depot = true → s.dpt.leakAt + msU (s.fld Reg.dptLeak 15 0) ≤ s.tim.now →
    ∃ t, exec .bucketLeak s = .next t ∧ (∀ i, i < 5 → t.fld (Reg.dptBucket i) 15 0 = s.fld (Reg.dptBucket i) 15 0 - 1)
      ∧ t.dpt.leakAt = s.dpt.leakAt + msU (s.fld Reg.dptLeak 15 0) ∧ s.KeepsRegs t ((List.range 5).map Reg.dptBucket))
  ∧ (∀ s : State, s.tim.now < s.dpt.leakAt + msU (s.fld Reg.dptLeak 15 0) → exec .bucketLeak s = .next s)
  ∧ (∀ (s : State) (k : Fin 4) (c : Int), s.modes.depot = true → s.bit (Reg.dptStackStat k) 0 = true →
    ∃ t, exec (.stackTemperature k c) s = .next t ∧ t.fld (Reg.dptStackStat k) 17 8 = unsigned 10 c
      ∧ t.bit (Reg.dptStackStat k) 2 = (if 95 < c then true else if c < 90 then false else s.bit (Reg.dptStackStat k) 2)
      ∧ t.bit (Reg.dptStackStat k) 0 = true ∧ s.KeepsRegs t [Reg.dptStackStat k])

/-! ### The Station Clock (R236–R248) -/

/-- R236–R239: a Sync of the selected master, with its Follow_Up if it has two steps, is counted, and with a path delay
known gives the offset that steps a base that is not yet near its master, or counts towards LOCKED; Delay_Resp gives
the mean path delay; an Announce is heard, and the best master of those heard selected with its grandmaster; at a tick
one that has fallen silent gives way; a domain without Sync falls back. Delay_Reqs are sent. R242–R248: at the
steering tick the reference is chosen, a STEP_TIME or the first lock steps module time, and MT_ERR and MT_RATE follow
the reference; during a clock stop this goes on but for the rates and the domains, which stay as they are. R245, R246:
RETURN_HOLD and TRAINED. Model's choices: the formulas (log entry 18), when a master is silent (log entry 142), and
that an event whose condition does not hold has no effect (log entry 8). -/
def Obligations.StationClockCompletes : Prop :=
  (∀ (s : State) (d : Fin 2) (m0 m : SyncMsg) (a : AnnounceMsg), s.Quiet m0.port → s.lnk.ptpSeen = [] →
    s.domHears d m0.port m0.domainNumber m0.versionPtp m0.minorVersionPtp = true → pairedSync m0 = some m →
    (s.dom d).master = some a → a.source = m0.source → s.stopped = false → -7 ≤ signed 8 m0.logInterval.toNat →
    signed 8 m0.logInterval.toNat ≤ 0 →
    ∃ t, exec (.sync d m0) s = .next t ∧ (t.dom d).sync = some m ∧ (t.dom d).lastSync = s.tim.now
      ∧ Counted s t (Reg.timDomSyncCnt d) 1 ∧ t.fld (Reg.timDomStat d) 23 16 = m0.logInterval.toNat ∧ t.tim.mt = s.tim.mt
      ∧ ((s.dom d).gotResp = false → (t.dom d).base = (s.dom d).base
          ∧ s.KeepsRegs t [Reg.timDomStat d, Reg.timDomSyncCnt d])
      ∧ ∀ off : Int, off = m.ingress - m.origin - m.correction - (s.mpd d + s.asym d) → (s.dom d).gotResp = true →
          t.get64 (Reg.timDomOfsLo d) (Reg.timDomOfsHi d) = BitVec.ofInt 64 off
          ∧ ((s.domState d = 1 ∨ s.domState d = 4
              ∨ (s.domState d = 2 ∧ ((s.dom d).fresh = true ∨ s.stepThresh d < off.natAbs))
              ∨ (s.domState d = 3 ∧ s.stepThresh d < off.natAbs)) →
              t.domState d = 2 ∧ (t.dom d).base = (s.dom d).base - off * 2 ^ 44 ∧ Counted s t (Reg.timDomSteps d) 1
                ∧ (t.dom d).good = 0)
          ∧ (s.domState d = 2 → (s.dom d).fresh = false → off.natAbs ≤ s.stepThresh d → (t.dom d).base = (s.dom d).base
              ∧ (off.natAbs ≤ 100 * nsU → (t.dom d).good = (s.dom d).good + 1
                  ∧ t.domState d = (if 15 ≤ (s.dom d).good then 3 else 2))
              ∧ (100 * nsU < off.natAbs → (t.dom d).good = 0 ∧ t.domState d = 2))
          ∧ (s.domState d = 3 → off.natAbs ≤ s.stepThresh d → t.domState d = 3 ∧ (t.dom d).base = (s.dom d).base))
  ∧ (∀ (s : State) (d : Fin 2) (m : DelayRespMsg) (a : AnnounceMsg) (y : SyncMsg) (sent : Int), s.Quiet m.port →
    s.lnk.ptpSeen = [] → s.domHears d m.port m.domainNumber m.versionPtp m.minorVersionPtp = true → (s.dom d).master = some a →
    a.source = m.source → s.stopped = false → (s.dom d).req = some (m.seqId, sent) → (s.dom d).sync = some y →
    m.requesting = s.portIdentity d →
    ∃ t, exec (.delayResp d m) s = .next t ∧ (t.dom d).gotResp = true ∧ (t.dom d).req = none
      ∧ (t.dom d).reqLog = m.logInterval
      ∧ t.get64 (Reg.timDomMpdLo d) (Reg.timDomMpdHi d)
          = BitVec.ofInt 64 (roundAway ((y.ingress - sent) + (m.receive - y.origin) - y.correction - m.correction) 2)
      ∧ ((s.dom d).gotResp = true → s.KeepsRegs t [Reg.timDomMpdLo d, Reg.timDomMpdHi d]
          ∧ (t.dom d).base = (s.dom d).base))
  ∧ (∀ (s : State) (d : Fin 2) (m0 : SyncMsg), s.Quiet m0.port → s.lnk.ptpSeen = [] → m0.twoStep = true →
    m0.followUp = none →
    exec (.sync d m0) s = .next s)
  ∧ (∀ (s : State) (d : Fin 2) (m : AnnounceMsg), s.Quiet m.port → s.lnk.ptpSeen = [] →
    s.domHears d m.port m.domainNumber m.versionPtp m.minorVersionPtp = true → s.stopped = false →
    (∀ a ∈ (s.dom d).heard, a.1.source ≠ m.source → betterMaster m a.1 = true) →
    ∃ t, exec (.announce d m) s = .next t ∧ (t.dom d).master = some m
      ∧ t.get64 (Reg.timDomGmLo d) (Reg.timDomGmHi d) = m.gmIdentity ∧ t.bit (Reg.timDomStat d) 9 = true
      ∧ t.bit (Reg.timDomStat d) 8 = !m.ptpTimescale ∧ t.fld (Reg.timDomUtc d) 15 0 = m.utcOffset.toNat
      ∧ t.bit (Reg.timDomUtc d) 16 = m.utcValid
      ∧ ((∀ a, (s.dom d).master = some a → a.source ≠ m.source) → (t.dom d).gotResp = false ∧ (t.dom d).sync = none)
      ∧ (∀ g, (s.dom d).lastGm = some g → g ≠ m.gmIdentity → t.bit Reg.timStat 9 = true
          ∧ (s.domValid d = true → t.domState d = 2 ∧ (t.dom d).fresh = true ∧ (t.dom d).good = 0))
      ∧ ((∀ g, (s.dom d).lastGm = some g → g = m.gmIdentity) → t.domState d = s.domState d
          ∧ t.get Reg.timStat = s.get Reg.timStat))
  ∧ (∀ (s : State) (d : Fin 2) (m : AnnounceMsg), s.Quiet m.port → s.lnk.ptpSeen = [] →
    s.domHears d m.port m.domainNumber m.versionPtp m.minorVersionPtp = true →
    ∃ t, exec (.announce d m) s = .next t
      ∧ (t.dom d).heard = (s.dom d).heard.filter (fun (a : AnnounceMsg × Nat) => a.1.source != m.source) ++ [(m, s.tim.now)]
      ∧ (s.stopped = false → (t.dom d).master = t.bestMaster d)
      ∧ (s.stopped = true → (t.dom d).master = (s.dom d).master ∧ t.regs = s.regs))
  ∧ (∀ (s : State) (d : Fin 2) (eg : Int), s.modes.control = true → s.domEnabled d = true →
    s.bit (Reg.timDomCfg d) 1 = true → (s.dom d).master.isSome = true → (s.dom d).sync.isSome = true →
    s.stopped = false → s.Quiet (domPort d) →
    ((s.dom d).reqAt = 0 ∨ ∀ l : Int, l = signed 8 (s.dom d).reqLog.toNat → (s.dom d).reqAt
      + (if 0 ≤ l then secU (2 ^ l.toNat) else max (secU 1 / 16) (secU 1 / 2 ^ (-l).toNat)) ≤ s.tim.now) →
    ∃ t, exec (.delayReqSend d eg) s = .next t ∧ (t.dom d).req = some ((s.dom d).reqSeq, eg)
      ∧ (t.dom d).reqSeq = (s.dom d).reqSeq + 1 ∧ (t.dom d).reqAt = s.tim.now ∧ t.regs = s.regs
      ∧ t.tx = s.tx ++ [.delayReq (Fin.ofNat 7 (domPort d)) (BitVec.ofNat 8 (s.domNumber d)) (s.dom d).reqSeq])
  ∧ (∀ (s : State) (d : Fin 2), s.stopped = false →
    (s.dom d).lastSync + msU (s.fld Reg.timTimeout 15 0) ≤ s.tim.now → (s.domState d = 2 ∨ s.domState d = 3) →
    ∃ t, exec (.syncTimeout d) s = .next t ∧ t.domState d = (if s.domState d = 3 then 4 else 1)
      ∧ (t.dom d).sync = none ∧ (t.dom d).gotResp = false ∧ (t.dom d).base = (s.dom d).base
      ∧ s.KeepsRegs t [Reg.timDomStat d, Reg.timStat]
      ∧ (s.domState d = 3 → t.bcp.sessions = s.bcp.sessions.map (setAtn Atn.time (s.evt + 1))))
  ∧ (∀ (s : State) (e : Int), s.modes.control = true → s.stopped = false → s.bit Reg.timStat 1 = true →
    (s.modes.sampling = true ∨ s.tim.steps = []) → (∀ d : Fin 2, s.bestMaster d = (s.dom d).master) →
    e = (s.tim.mt : Int) - baseU (s.baseOf (s.chooseRef s.timRef)) →
    ∃ t, exec .steeringTick s = .next t ∧ t.tim.mt = s.tim.mt ∧ t.timRef = s.chooseRef s.timRef
      ∧ t.get64 Reg.timMtErrLo Reg.timMtErrHi = BitVec.ofInt 64 e
      ∧ t.get Reg.timMtRate = BitVec.ofInt 32 (s.slewRate e) ∧ t.tim.reselect = false
      ∧ t.bit Reg.timStat 10 = (s.domValid 0 && s.domValid 1)
      ∧ (s.fld Reg.timSlew 31 16 * 10 * nsU < e.natAbs → s.bit Reg.timStat 5 = false → t.bit Reg.timStat 5 = true)
      ∧ (2 * e.natAbs ≤ s.fld Reg.timSlew 31 16 * 10 * nsU → t.bit Reg.timStat 5 = false))
  ∧ (∀ (s : State) (q : StepReq), s.modes.control = true → s.stopped = false → s.bit Reg.timStat 1 = true →
    s.modes.sampling = false → s.tim.steps = [q] → q.form ≤ 2 → (∀ d : Fin 2, s.bestMaster d = (s.dom d).master) →
    ∃ t, exec .steeringTick s = .next t ∧ t.tim.steps = []
      ∧ t.tim.mt = wrapTime (if q.form = 0 then baseU (s.baseOf s.timRef) else if q.form = 1 then s.tim.mt + q.value
          else q.value) ∧ t.bit Reg.timStat 0 = true
      ∧ t.fld Reg.timStepInfo 17 16 = q.form + 1
      ∧ t.get64 Reg.timStepSizeLo Reg.timStepSizeHi = BitVec.ofInt 64 ((t.tim.mt : Int) - s.tim.mt)
      ∧ (∀ o, q.op = some o → OpEnds s t o St.ok (beBytes 8 (unsigned 64 ((t.tim.mt : Int) - s.tim.mt)))))
  ∧ (∀ s : State, s.modes.control = true → s.bit Reg.timStat 1 = false → s.modes.sampling = false →
    s.tim.steps = [] → (s.tim.firstDue = true ∨ s.bit Reg.timStat 4 = true) → s.locked (s.chooseRef 2) = true →
    (s.stopped = false → ∀ d : Fin 2, s.bestMaster d = (s.dom d).master) →
    ∃ t, exec .steeringTick s = .next t ∧ t.bit Reg.timStat 1 = true
      ∧ t.tim.mt = wrapTime (baseU (s.baseOf (s.chooseRef 2))) ∧ t.fld Reg.timStepInfo 17 16 = 0)
  ∧ (∀ (s : State) (d : Fin 2), s.modes.control = true → s.stopped = false → s.bestMaster d ≠ (s.dom d).master →
    ∃ t, exec .steeringTick s = .next t ∧ (t.dom d).master = s.bestMaster d
      ∧ t.bit (Reg.timDomStat d) 9 = (s.bestMaster d).isSome)
  ∧ (∀ (s : State) (e : Int), s.modes.control = true → s.stopped = true → s.bit Reg.timStat 1 = true →
    (s.modes.sampling = true ∨ s.tim.steps = []) → e = (s.tim.mt : Int) - baseU (s.baseOf (s.chooseRef s.timRef)) →
    ∃ t, exec .steeringTick s = .next t ∧ t.tim.mt = s.tim.mt ∧ (∀ d : Fin 2, t.dom d = s.dom d)
      ∧ t.timRef = s.chooseRef s.timRef ∧ t.get64 Reg.timMtErrLo Reg.timMtErrHi = BitVec.ofInt 64 e
      ∧ t.get Reg.timMtRate = s.get Reg.timMtRate ∧ t.get Reg.clkPllWord = s.get Reg.clkPllWord
      ∧ (s.fld Reg.timSlew 31 16 * 10 * nsU < e.natAbs → t.bit Reg.timStat 5 = true)
      ∧ (2 * e.natAbs ≤ s.fld Reg.timSlew 31 16 * 10 * nsU → t.bit Reg.timStat 5 = false))
  ∧ (∀ (s : State) (q : StepReq), s.modes.control = true → s.stopped = true → s.bit Reg.timStat 1 = true →
    s.modes.sampling = false → s.tim.steps = [q] → q.form ≤ 2 →
    ∃ t, exec .steeringTick s = .next t ∧ t.tim.steps = [] ∧ t.bit Reg.timStat 0 = true
      ∧ t.tim.mt = wrapTime (if q.form = 0 then baseU (s.baseOf s.timRef) else if q.form = 1 then s.tim.mt + q.value
          else q.value)
      ∧ ∀ e : Int, e = (t.tim.mt : Int) - baseU (t.baseOf t.timRef) →
          (s.fld Reg.timSlew 31 16 * 10 * nsU < e.natAbs → t.bit Reg.timStat 5 = true)
          ∧ (2 * e.natAbs ≤ s.fld Reg.timSlew 31 16 * 10 * nsU → t.bit Reg.timStat 5 = false))
  ∧ (∀ (s : State) (d : Fin 2) (a : Nat), (s.dom d).lockedAt = some a →
    a + secU (s.fld Reg.timTimeout 31 16) ≤ s.tim.now →
    ∃ t, exec (.returnHoldExpire d) s = .next t ∧ (t.dom d).held = true ∧ t.regs = s.regs)
  ∧ (∀ s : State, s.tim.trackAt.isSome = true → secU 600 ≤ s.trackedU →
    ∃ t, exec .lTrained s = .next t ∧ t.bit Reg.timLStat 8 = true ∧ s.KeepsRegs t [Reg.timLStat])

/-! ### Clock sources (R257–R274) -/

/-- R260, R263, R268: a missing edge or a lost block lock ends a source's validity at once, and the next valid source
takes over from a locked reference hitlessly; that a missing edge of an RC shows nothing is the model's choice (log
entry 143). R261, R262, R264: a frequency measurement counts, and 16 in the window make a source valid; one outside it
ends the validity of the clock that R264 names. The XO's start and its timeout. R268, R270: the reference is chosen,
the learned rate taken off while it is the XO, and a higher source returns after WTR. R267, R273, R274: lock, the stop
for clock loss, which where a tile samples waits for its frame boundary to count on the RC, and the resumption of
sampling. R258, R376: one RC is trimmed at a time, by the model's reading of the code's direction (log entry 81), and
none of a retired lane. An event whose condition does not hold has no effect: model's choice (log entry 8). -/
def Obligations.ClockSourceEventsComplete : Prop :=
  (∀ (s : State) (x : Fin 3), s.clkUp = true → (x = 2 → s.srcRunning x = true) →
    ∃ t, exec (.missingEdgeTrip ⟨x.val, by omega⟩) s = .next t ∧ t.srcValid x = false ∧ t.bit (Reg.clkSrcStat x) 0 = true
      ∧ t.fld (Reg.clkSrcStat x) 20 16 = 0 ∧ t.srcRunning x = (decide (x ≠ 2) && s.srcRunning x)
      ∧ (∀ y : Fin 3, y ≠ x → t.srcValid y = s.srcValid y)
      ∧ (s.pllRef ≠ x.val → s.srcValid s.pllRef = true → t.pllRef = s.pllRef ∧ t.get Reg.clkSwitches = s.get Reg.clkSwitches)
      ∧ (∀ y, s.pllRef = x.val → s.pllLocked = true → (s.validSrcs.find? fun z => z != x.val) = some y →
          t.pllRef = y ∧ t.pllLocked = true ∧ Counted s t Reg.clkSwitches 1
            ∧ ∀ z ∈ t.bcp.sessions, z.atn.getLsbD Atn.clock = true))
  ∧ (∀ (s : State) (x : Fin 6), 3 ≤ x → exec (.missingEdgeTrip x) s = .next s)
  ∧ (∀ (s : State) (x : Fin 2), s.clkUp = true → s.srcRunning x = true →
    ∃ t, exec (.blockLockLoss x) s = .next t ∧ t.srcValid x = false ∧ t.bit (Reg.clkSrcStat x) 2 = true
      ∧ t.srcRunning x = false ∧ (∀ y : Fin 3, y.val ≠ x.val → t.srcValid y = s.srcValid y)
      ∧ (∀ y, s.pllRef = x.val → s.pllLocked = true → (s.validSrcs.find? fun z => z != x.val) = some y →
          t.pllRef = y ∧ Counted s t Reg.clkSwitches 1))
  ∧ (∀ (s : State) (x : Fin 3) (ppb other : Int) (run : Bool), s.clkUp = true → s.srcRunning x = true →
    ∃ t, exec (.frequencyMeasurement x ppb other run) s = .next t ∧ t.get (Reg.clkSrcOfs x) = BitVec.ofInt 32 ppb
      ∧ t.pllRef = s.pllRef
      ∧ (s.inWindow (s.cmpClock x) ppb = true → t.fld (Reg.clkSrcStat x) 20 16 = min 16 (s.fld (Reg.clkSrcStat x) 20 16 + 1)
          ∧ t.srcValid x = (s.srcValid x || (decide (15 ≤ s.fld (Reg.clkSrcStat x) 20 16) && s.srcEnabled x))
          ∧ ∀ y : Fin 3, y ≠ x → t.srcValid y = s.srcValid y)
      ∧ (s.inWindow (s.cmpClock x) ppb = false → t.bit (Reg.clkSrcStat x) 1 = true
          ∧ ∀ y : Fin 3, t.srcValid y
              = (s.srcValid y && decide (s.blame x (s.cmpClock x) ppb other ≠ some y.val))
            ∧ ((y = x ∨ y.val = s.cmpClock x) → s.blame x (s.cmpClock x) ppb other ≠ some y.val →
                t.fld (Reg.clkSrcStat y) 20 16 = s.fld (Reg.clkSrcStat y) 20 16)))
  ∧ (∀ (s : State) (x : Fin 3) (ppb other : Int) (run : Bool), s.clkUp = true → s.srcRunning x = false →
    (x = 2 ∨ run = false) → exec (.frequencyMeasurement x ppb other run) s = .next s)
  ∧ (∀ (s : State) (x : Fin 2) (ppb other : Int), s.clkUp = true → s.srcRunning x = false →
    ∃ t, exec (.frequencyMeasurement ⟨x.val, by omega⟩ ppb other true) s = .next t ∧ t.srcRunning x = true
      ∧ t.get (Reg.clkSrcOfs x) = BitVec.ofInt 32 ppb ∧ t.pllRef = s.pllRef)
  ∧ (∀ s : State, s.clkUp = true → 10800 ≤ s.modes.mainMv → s.srcRunning 2 = false →
    ∃ t, exec .xoRunning s = .next t ∧ t.srcRunning 2 = true ∧ t.fld (Reg.clkSrcStat 2) 20 16 = 0
      ∧ t.clk.xoRunAt = some s.tim.now ∧ (∀ y : Fin 3, t.srcValid y = s.srcValid y))
  ∧ (∀ (s : State) (a : Nat), s.clk.xoRunAt = some a → s.srcRunning 2 = true → s.srcValid 2 = false →
    s.bit Reg.clkStat 7 = false → a + msU (s.fld Reg.clkTiming 15 0) ≤ s.tim.now →
    ∃ t, exec .xoTimeout s = .next t ∧ t.bit Reg.clkStat 7 = true ∧ s.KeepsRegs t [Reg.clkStat]
      ∧ t.bcp.sessions = s.bcp.sessions.map (setAtn Atn.clock (s.evt + 1)))
  ∧ (∀ (s : State) (x : Nat), s.clkUp = true → s.refWanted = some x →
    ∃ t, exec .referenceSelect s = .next t ∧ t.pllRef = x ∧ (∀ y : Fin 3, t.srcValid y = s.srcValid y)
      ∧ t.bit Reg.clkStat 9 = (s.fld Reg.clkCtrl 1 0 != 0 && !s.srcValid (s.fld Reg.clkCtrl 1 0 - 1))
      ∧ (s.pllLocked = true → t.pllLocked = true
          ∧ Counted s t Reg.clkSwitches (if s.pllRef = x then 0 else 1))
      ∧ ((s.pllLocked = false ∨ s.pllRef ≠ x) →
          t.clk.lineRate = (if x = 2 then -signed 32 (s.get Reg.timLRate).toNat else 0))
      ∧ (s.pllLocked = false → t.clk.acquiring = true ∧ t.get Reg.clkSwitches = s.get Reg.clkSwitches))
  ∧ (∀ (s : State) (x : Fin 3), s.clkUp = true → s.pllLocked = true → s.srcValid x = true → s.wtrServed x = true →
    s.refWanted = some x.val →
    ∃ t, exec (.wtrExpire x) s = .next t ∧ t.pllRef = x.val ∧ t.pllLocked = true
      ∧ Counted s t Reg.clkSwitches (if s.pllRef = x.val then 0 else 1))
  ∧ (∀ (s : State) (ps : Int), s.clkUp = true → s.clk.acquiring = true → s.pllLocked = false →
    s.srcValid s.pllRef = true → ps.natAbs ≤ 10 →
    ∃ t, exec (.pllLock ps) s = .next t ∧ t.pllLocked = true ∧ t.bit Reg.clkStat 2 = false ∧ t.clk.acquiring = false
      ∧ t.fld Reg.clkPllStat 15 0 = unsigned 16 ps
      ∧ t.stopped = (s.stopped && s.clk.stopSampling)
      ∧ ((s.stopped && s.clk.stopSampling) = false → t.bit Reg.timStat 7 = false))
  ∧ (∀ (s : State) (ps : Int), s.clkUp = true → s.pllLocked = true → s.stopped = false →
    (s.validSrcs = [] ∨ (s.pllRef < 3 ∧ s.srcValid s.pllRef = true ∧ 1000 < ps.natAbs)) →
    ∃ t, exec (.clockLossStop ps) s = .next t ∧ t.stopped = true ∧ t.bit Reg.clkStat 2 = true ∧ t.pllLocked = false
      ∧ t.pllRef = 3 ∧ Counted s t Reg.clkStops 1
      ∧ t.clk.stopSampling = s.modes.sampling
      ∧ (s.modes.sampling = true → s.modes.last = none → t.modes.last = some s.nextFrame
          ∧ t.tim.stopDue = some (s.stampOf s.nextFrame) ∧ t.bit Reg.timStat 7 = s.bit Reg.timStat 7)
      ∧ (s.modes.sampling = false → t.bit Reg.timStat 7 = true
          ∧ ∀ z ∈ t.bcp.sessions, z.atn.getLsbD Atn.time = true)
      ∧ ∀ z ∈ t.bcp.sessions, z.atn.getLsbD Atn.clock = true)
  ∧ (∀ s : State, s.clkUp = true → s.stopped = true → s.clk.stopSampling = true → s.pllLocked = true →
    s.modes.sampling = false → s.tim.stopDue = none → s.stopDrained = true →
    ∃ t, exec .samplingResume s = .next t ∧ t.modes.sampling = true ∧ t.modes.last = none ∧ t.stopped = false
      ∧ t.clk.stopSampling = false ∧ t.bit Reg.timStat 6 = true ∧ t.bit Reg.timStat 7 = false
      ∧ t.sbx.period = s.sbx.period ∧ t.stampOf s.sbx.period = roundUp s.tim.mt periodU
      ∧ ∀ k : Tile, s.tilePowered k = true → (t.tile k).gapNext = true ∧ (t.tile k).framePeriod = s.sbx.period
          ∧ (t.tile k).swPeriod = s.sbx.period)
  ∧ (∀ (s : State) (l : Fin 3) (e : Int), l.val = s.clk.rcLane →
    ∃ t, exec (.rcTrim l e) s = .next t ∧ t.clk.rcLane = (l.val + 1) % 3 ∧ s.KeepsRegs t [Reg.clkRcStat l]
      ∧ ((s.laneRetired l || !(s.srcValid 2 || s.srcRunning 0 || s.srcRunning 1)) = true → t.regs = s.regs
          ∧ t.clk.rcSeen = s.clk.rcSeen)
      ∧ (s.laneRetired l = false → (s.srcValid 2 || s.srcRunning 0 || s.srcRunning 1) = true →
          t.clk.rcSeen = s.clk.rcSeen ||| bitOf 3 l ∧ t.fld (Reg.clkRcStat l) 31 16 = unsigned 16 (clampI (-32768) 32767 e)
          ∧ t.fld (Reg.clkRcStat l) 9 0 = (if 150 < e then s.fld (Reg.clkRcStat l) 9 0 - 1
              else if e < -150 then min 1023 (s.fld (Reg.clkRcStat l) 9 0 + 1) else s.fld (Reg.clkRcStat l) 9 0)))

/-! ### The Timetable and the lanes (R358–R372, R374–R379) -/

/-- R358, R362, R364, R366, R367, R372: a tick shows the measurements; while the loop runs it also puts a new budget in
force, shows P_EL, P_MAND and B_EFF by the formulas of R362, hands out its grants, and lowers the lane only once the
withdrawn traffic has settled. A shortfall sets ATN_POWER, raises the lane where the headroom covers it, and else
withdraws compression; a negative headroom counts towards the next shed step, and one that covers the last step's cost
towards its restoring (R369). R367, R368: the next step of the fixed order sheds, is counted and reported. R369: the
last step taken is restored. R39: while raw Ring writes are enabled no tick and no shed step leaves the 0.65 V lane in
force. R363: no grant goes beyond the headroom: either nothing is granted beside the dwells and the attestation job
that run, or the cost of all that is granted lies within it. Where neither a shortfall is seen, nor Drain mode puts
drains first, nor compression is shed, the engines granted are the most, from MIN_ENG up and among those that
compression can use, whose cost with the charge for the lane above the base fits the headroom, and whose output the
lane carries with the margin of 1.05; or none. Scrub is granted only while it is enabled, a drain rate only while a
slot drains and up to DPT_DRAIN_RATE, a dwell only to a tile that dwells or waits for one, and attestation only while
a report waits. Model's readings: what DEMAND takes in and the clamps of the shown powers (log entry 95), which
engines compression can use and what is reserved first (log entry 96), a raise is paid from the headroom, and the
rounding of a drain's cost (log entry 97), a dwell granted ahead (log entry 145), steps without effect (log entry 99),
an event without its condition (log entry 8). -/
def Obligations.TimetableEventsComplete : Prop :=
  (∀ (s : State) (m : Measure), s.modes.control = true →
    ∃ t, exec (.timetableTick m) s = .next t ∧ t.get Reg.pwrPIn = m.pIn.setWidth 32
      ∧ t.get Reg.pwrRailMain = m.mainVolts ++ m.mainAmps ∧ t.get Reg.pwrRailAux = m.auxVolts ++ m.auxAmps
      ∧ (∀ n, n < 20 → t.get (Reg.pwrTemp n)
          = (if s.sensorOn n then BitVec.ofNat 32 (unsigned 10 (clampI (-512) 511 (m.temps.getD n 0))) else 0))
      ∧ t.fld Reg.pwrTempMax 20 16 = t.hottest ∧ t.fld Reg.pwrTempMax 9 0 = t.fld (Reg.pwrTemp t.hottest) 9 0
      ∧ (s.tt.running = false → t.tt = s.tt ∧ t.get Reg.pwrGrant = s.get Reg.pwrGrant ∧ t.lane = s.lane)
      ∧ (s.tt.running = true → t.tt.running = true ∧ t.tt.budget = none
          ∧ t.get Reg.pwrBudget = s.tt.budget.getD (s.get Reg.pwrBudget) ∧ t.tt.steps = s.tt.steps
          ∧ t.fld Reg.cmpGrant 5 0 = t.fld Reg.pwrGrant 29 24
          ∧ (m.settled = false → s.lane ≤ t.lane)
          ∧ ((∃ e : Fin 32, e.val ∉ t.grantedEngines ∧ s.engHolds e = true) → s.lane ≤ t.lane)
          ∧ ∀ (pEl : Nat) (hot t0 bEff pMand head : Int) (short : Bool), pEl = s.tt.granted →
              hot = t.temp t.hottest → t0 = (t.fld Reg.pwrBudget 23 16 : Int) - s.fld Reg.pwrCfg 15 8 →
              bEff = (if hot ≤ t0 then 100 * (t.fld Reg.pwrBudget 8 0 : Int)
                else 100 * (t.fld Reg.pwrBudget 8 0 : Int) - 50 * s.fld Reg.pwrCfg 23 16 * (hot - t0)) →
              pMand = 10 * m.pIn.toNat - pEl → head = bEff - 100 * s.fld Reg.pwrCfg 7 0 - pMand →
              short = decide (laneMin s.lane t.junction < s.concourse m) →
              t.get Reg.pwrPEl = deciwatts pEl ∧ t.get Reg.pwrPMand = deciwatts pMand ∧ t.get Reg.pwrBEff = deciwatts bEff
              ∧ (short = true → s.bit Reg.pwrStat 8 = false → ∀ x ∈ t.bcp.sessions, x.atn.getLsbD Atn.power = true)
              ∧ (short = true → s.lane < 2 → (((2 - s.lane) * s.fld Reg.pwrCostLane 15 0 : Nat) : Int) ≤ head → s.lane < t.lane)
              ∧ (short = true → (2 ≤ s.lane ∨ head < s.fld Reg.pwrCostLane 15 0) →
                  t.fld Reg.pwrGrant 29 24 = 0 ∧ s.lane ≤ t.lane)
              ∧ (head < 0 → t.tt.overTicks = s.tt.overTicks + 1 ∧ t.bit Reg.pwrStat 9 = decide (s.tt.steps.length = 10))
              ∧ (s.tt.steps ≠ [] → ((100 * s.fld Reg.pwrRestore 23 16 + t.restoreCost : Nat) : Int) ≤ head →
                  t.tt.restore = s.tt.restore + 1)
              ∧ (head < ((100 * s.fld Reg.pwrRestore 23 16 : Nat) : Int) → t.tt.restore = 0)))
  ∧ (∀ s : State, s.tt.running = true → 10 ≤ s.tt.overTicks → s.tt.steps.length < 10 →
    ∃ t p, exec .shedStep s = .next t ∧ t.tt.steps = s.tt.steps ++ [p] ∧ p.1 = s.tt.steps.length + 1
      ∧ t.tt.overTicks = 0 ∧ t.tt.restore = 0
      ∧ t.fld Reg.pwrStat 27 24 = s.tt.steps.length + 1 ∧ t.bit Reg.pwrDegraded 0 = true ∧ Counted s t Reg.pwrShedCount 1
      ∧ (∀ x ∈ t.bcp.sessions, x.atn.getLsbD Atn.power = true)
      ∧ (s.tt.steps.length = 0 → t.tt.compOff = true ∧ t.get Reg.cmpGrant = 0 ∧ t.fld Reg.pwrGrant 29 24 = 0)
      ∧ (s.tt.steps.length < 2 → p.2.1 = 0)
      ∧ (s.tt.steps.length = 1 → s.tt.short = false → s.lowLane < s.lane → t.lane = s.lane - 1 ∧ t.tt.laneDown = 1)
      ∧ ((s.tt.steps.length ≠ 1 ∨ s.tt.short = true ∨ s.lane ≤ s.lowLane) → t.lane = s.lane ∧ t.tt.laneDown = s.tt.laneDown)
      ∧ (2 ≤ s.tt.steps.length → p.2.1 = (s.shedGroup (s.tt.steps.length - 2) &&& ~~~s.stepsShed)
          ∧ ∀ c, c < 64 → (s.shedGroup (s.tt.steps.length - 2)).getLsbD c = true → t.shedChans.getLsbD c = true))
  ∧ (∀ (s : State) (init : List (Nat × BitVec 64 × Bool)) (p : Nat × BitVec 64 × Bool), s.tt.running = true →
    s.bit Reg.pwrRestore 31 = true → s.fld Reg.pwrRestore 15 0 ≤ s.tt.restore → s.tt.steps = init ++ [p] →
    init.length < 16 →
    ∃ t, exec .shedRestore s = .next t ∧ t.tt.steps = init ∧ t.fld Reg.pwrStat 27 24 = init.length
      ∧ t.tt.overTicks = 0 ∧ t.tt.restore = 0
      ∧ t.bit Reg.pwrDegraded 0 = !init.isEmpty ∧ t.bit Reg.pwrStat 9 = false
      ∧ t.tt.compOff = (s.tt.compOff && decide (p.1 ≠ 1)) ∧ t.tt.laneDown = (if p.2.2 then 0 else s.tt.laneDown)
      ∧ (∀ c, c < 64 → (t.shedChans.getLsbD c = true ↔
          (∃ q ∈ init, q.2.1.getLsbD c = true) ∨ s.bit Reg.pwrDegraded (4 + c / 16) = true))
      ∧ t.get Reg.pwrShedCount = s.get Reg.pwrShedCount)
  ∧ (∀ (s : State) (m : Measure), s.modes.control = true → s.tt.running = true → s.ringOn = true →
    ∃ t, exec (.timetableTick m) s = .next t ∧ 1 ≤ t.lane)
  ∧ (∀ s : State, s.ringOn = true → 1 ≤ s.lane → ∃ t, exec .shedStep s = .next t ∧ 1 ≤ t.lane)
  ∧ (∀ (s : State) (m : Measure), s.modes.control = true → s.tt.running = true →
    ∃ t, exec (.timetableTick m) s = .next t ∧ ∀ (pMand bEff t0 hot head : Int) (c0 n base : Nat),
      hot = t.temp t.hottest → t0 = (t.fld Reg.pwrBudget 23 16 : Int) - s.fld Reg.pwrCfg 15 8 →
      bEff = (if hot ≤ t0 then 100 * (t.fld Reg.pwrBudget 8 0 : Int)
        else 100 * (t.fld Reg.pwrBudget 8 0 : Int) - 50 * s.fld Reg.pwrCfg 23 16 * (hot - t0)) →
      pMand = 10 * m.pIn.toNat - s.tt.granted → head = bEff - 100 * s.fld Reg.pwrCfg 7 0 - pMand →
      c0 = (allTiles.filter fun k => s.dwelling k).length * s.fld Reg.pwrCostCal 15 0
        + (if s.bit Reg.pwrGrant 0 && s.reportWaits then s.fld Reg.pwrCostAtt 15 0 else 0) →
      n = t.fld Reg.pwrGrant 29 24 → base = max s.lowLane (t.laneFor s.lowLane (m.demand.toNat * 55) - s.tt.laneDown) →
      (t.tt.granted = c0 ∨ (t.tt.granted : Int) ≤ head) ∧ c0 ≤ t.tt.granted
      ∧ (t.bit Reg.pwrGrant 1 = true → s.bit Reg.dptScrubCfg 31 = true ∧ s.modes.depot = true)
      ∧ t.fld Reg.pwrGrant 23 16 ≤ s.fld Reg.dptDrainRate 7 0
      ∧ ((∀ k : Fin 4, s.holdState k ≠ 4) → t.fld Reg.pwrGrant 23 16 = 0)
      ∧ (∀ k : Fin 4, t.bit Reg.pwrGrant (8 + k.val) = true → s.dwelling k = true ∨ (s.relief k).waiting = true)
      ∧ (t.bit Reg.pwrGrant 0 = true → s.reportWaits = true)
      ∧ (n = 0 ∨ (s.fld Reg.pwrCfg 31 24 ≤ n ∧ n ≤ s.enginesUsable))
      ∧ (s.concourse m ≤ laneMin s.lane t.junction → s.inMode .drain = false → s.tt.compOff = false →
          ∀ fits : Nat → Prop,
            (∀ k, fits k ↔ ∀ d l : Nat, d = m.demand.toNat * 55 + (if s.cmp.inBytes = 0 then k * engineRate t.junction
                else k * engineRate t.junction * s.cmp.outBytes / s.cmp.inBytes) → l = t.laneFor base d →
              105 * d ≤ 100 * laneMin l t.junction
                ∧ ((k * s.fld Reg.pwrCostEng 15 0 + (l - base) * s.fld Reg.pwrCostLane 15 0 : Nat) : Int) ≤ head - c0) →
            (n = 0 ∨ fits n)
            ∧ ∀ k, n < k → s.fld Reg.pwrCfg 31 24 ≤ k → k ≤ s.enginesUsable → ¬ fits k))

/-- R374–R377: three lanes that agree go on; one that differs is counted and logged, and resynchronized at the next sync
point, or retired within 10 s of its previous disagreement; where all three differ, or two still differ after
re-execution, the internal reset follows, which samples the straps anew (R359, R417). A replay of two is logged. R375:
a resync ends with the lane voting again, or in the reset. R379: a forced resync begins at a sync point. Model's
choices: the order of a disagreement's kinds (log entry 106) and an event without its condition (log entry 8). -/
def Obligations.LaneEventsComplete : Prop :=
  (∀ (s : State) (a b c : LaneStep), s.modes.inner ≠ .dormant → s.ilk.resync = none → s.ilk.due = none →
    s.votingLanes = [0, 1, 2] → a.digest = b.digest → b.digest = c.digest →
    laneKind a b c = none → laneKind b a c = none → laneKind c a b = none →
    ∃ t, exec (.syncPoint a b c) s = .next t
      ∧ t.fld (Reg.ilkLaneCnt 0) 15 0 = min 65535 (s.fld (Reg.ilkLaneCnt 0) 15 0 + a.sramCe)
      ∧ t.fld (Reg.ilkLaneCnt 1) 15 0 = min 65535 (s.fld (Reg.ilkLaneCnt 1) 15 0 + b.sramCe)
      ∧ t.fld (Reg.ilkLaneCnt 2) 15 0 = min 65535 (s.fld (Reg.ilkLaneCnt 2) 15 0 + c.sramCe)
      ∧ (s.ilk.forced = [] → t.ilk = s.ilk ∧ s.KeepsRegs t [Reg.ilkLaneCnt 0, Reg.ilkLaneCnt 1, Reg.ilkLaneCnt 2])
      ∧ (∀ (l : Fin 3) (rest : List Nat), s.ilk.forced = l.val :: rest → t.ilk.resync = some l.val
          ∧ t.fld Reg.ilkLaneStat (4 * l.val + 1) (4 * l.val) = 2 ∧ l.val ∉ t.ilk.forced
          ∧ ∀ x ∈ t.bcp.sessions, x.atn.getLsbD Atn.ilk = true))
  ∧ (∀ (s : State) (a b c : LaneStep) (l : Fin 3) (k : Nat), s.modes.inner ≠ .dormant →
    s.ilk.resync = none → s.ilk.due = none → s.votingLanes = [0, 1, 2] →
    (a.digest = b.digest ∨ b.digest = c.digest ∨ a.digest = c.digest) →
    (∀ i : Fin 3, (if i = 0 then laneKind a b c else if i = 1 then laneKind b a c else laneKind c a b)
      = if i = l then some k else none) →
    ∃ t, exec (.syncPoint a b c) s = .next t
      ∧ t.fld (Reg.ilkLaneCnt l) 31 16 = min 65535 (s.fld (Reg.ilkLaneCnt l) 31 16 + 1)
      ∧ (∀ x ∈ t.bcp.sessions, x.atn.getLsbD Atn.ilk = true) ∧ lookupK l.val t.ilk.lastDis = some s.tim.now
      ∧ t.ilk.resync = none
      ∧ ((∀ u, lookupK l.val s.ilk.lastDis = some u → u + secU 10 < s.tim.now) →
          t.ilk.due = some l.val ∧ t.get Reg.ilkLaneStat = s.get Reg.ilkLaneStat
            ∧ t.get Reg.ilkLast = BitVec.ofNat 32 (l.val * 65536 + k * 256))
      ∧ (∀ u, lookupK l.val s.ilk.lastDis = some u → s.tim.now ≤ u + secU 10 →
          t.laneRetired l = true ∧ t.voting l = false ∧ t.bit Reg.pwrDegraded 1 = true
            ∧ t.get Reg.ilkLast = BitVec.ofNat 32 (l.val * 65536 + k * 256 + 1)))
  ∧ (∀ (s : State) (a b c : LaneStep) (l : Fin 3), s.modes.inner ≠ .dormant → s.ilk.resync = none →
    s.ilk.due = some l.val → s.votingLanes = [0, 1, 2] →
    ∃ t, exec (.syncPoint a b c) s = .next t ∧ t.ilk.resync = some l.val ∧ t.ilk.due = none
      ∧ t.fld Reg.ilkLaneStat (4 * l.val + 1) (4 * l.val) = 2 ∧ t.modes = s.modes)
  ∧ (∀ (s : State) (a b c : LaneStep), s.modes.inner ≠ .dormant → s.ilk.resync = none →
    ((s.votingLanes = [0, 1, 2] ∧ s.ilk.due = none ∧ a.digest ≠ b.digest ∧ b.digest ≠ c.digest ∧ a.digest ≠ c.digest)
      ∨ (s.votingLanes = [0, 1] ∧ a.digest ≠ b.digest ∧ a.replay ≠ b.replay)
      ∨ (s.votingLanes = [0, 2] ∧ a.digest ≠ c.digest ∧ a.replay ≠ c.replay)
      ∨ (s.votingLanes = [1, 2] ∧ b.digest ≠ c.digest ∧ b.replay ≠ c.replay)) →
    ∃ t i, exec (.syncPoint a b c) s = .next t ∧ t.modes.inner = .boot ∧ t.get Reg.ilkResetCause = 3
      ∧ t.straps = Config.strapPins i)
  ∧ (∀ (s : State) (st : Fin 3 → LaneStep) (l m : Fin 3), s.modes.inner ≠ .dormant → s.ilk.resync = none →
    s.ilk.due = none → s.votingLanes = [l, m] → (st l).digest ≠ (st m).digest → (st l).replay = (st m).replay →
    ∃ t, exec (.syncPoint (st 0) (st 1) (st 2)) s = .next t ∧ t.fld Reg.ilkLast 15 8 = 4 ∧ t.bit Reg.ilkLast 0 = false
      ∧ (t.fld Reg.ilkLast 17 16 = l.val ∨ t.fld Reg.ilkLast 17 16 = m.val)
      ∧ ((st l).selfFault = true → (st m).selfFault = false → (st m).lateNs ≤ (st l).lateNs →
          t.fld Reg.ilkLast 17 16 = l.val)
      ∧ t.ilk = s.ilk ∧ t.get Reg.ilkLaneStat = s.get Reg.ilkLaneStat)
  ∧ (∀ (s : State) (a b c : LaneStep), s.modes.inner ≠ .dormant → s.ilk.resync = none → s.ilk.due = none →
    s.votingLanes.length = 2 → a.digest = b.digest → b.digest = c.digest → a.lateNs = b.lateNs → b.lateNs = c.lateNs →
    a.selfFault = false → b.selfFault = false → c.selfFault = false →
    ∃ t, exec (.syncPoint a b c) s = .next t ∧ t.ilk = s.ilk
      ∧ s.KeepsRegs t [Reg.ilkLaneCnt 0, Reg.ilkLaneCnt 1, Reg.ilkLaneCnt 2])
  ∧ (∀ (s : State) (l : Fin 3), s.ilk.resync = some l.val →
    ∃ t, exec (.resyncComplete true) s = .next t ∧ t.ilk.resync = none ∧ t.voting l = true
      ∧ s.KeepsRegs t [Reg.ilkLaneStat])
  ∧ (∀ (s : State) (l : Fin 3), s.ilk.resync = some l.val →
    ∃ t, exec (.resyncComplete false) s = .next t ∧ t.modes.inner = .boot ∧ t.get Reg.ilkResetCause = 3
      ∧ t.nv.otp = s.nv.otp)

/-! ### Rules of one sentence, and the bytes of a request (R69, R228, R326, R318) -/

/-- R69, R70, R72: where its channel takes a sample, an enabled switch sets at SET and clears at CLR, in the direction of
POL, and otherwise keeps its state; with CLR beyond SET it is a plain comparator at SET. An interleaved pair's even
channel takes both of its output samples in turn and reports the OR of the two; the odd channel's bits read 0. -/
def Obligations.SwitchesFollowTheirThresholds : Prop :=
  ∀ (s : State) (t : Tile) (mask : BitVec 16) (vs : List Int) (sw : BitVec 32) (k : Chan) (i : Fin 2)
    (pol beyond : Bool) (set clr : Int) (sets clears : Int → Bool) (next : Int → Bool → Bool) (n : Nat),
    pol = s.thrPol t k i → (set, clr) = s.thr t k i → n = 2 * k.val + i.val →
    (∀ v, sets v = if pol then decide (v ≤ set) else decide (set ≤ v)) →
    (∀ v, clears v = if pol then decide (clr ≤ v) else decide (v ≤ clr)) →
    beyond = (if pol then decide (clr < set) else decide (set < clr)) →
    (∀ v on, next v on = (s.thrEn t k i && (if beyond then sets v else if on then !clears v else sets v))) →
    (s.ilv t k = false → mask.getLsbD k.val = true →
      (s.evalPeriod t mask vs sw).1.getLsbD n = next (vs.getD k.val 0) (sw.getLsbD n)
      ∧ (s.evalPeriod t mask vs sw).2.getLsbD n = next (vs.getD k.val 0) (sw.getLsbD n))
    ∧ (s.ilv t k = true → k.val % 2 = 0 → mask.getLsbD k.val = true → ∀ a b : Bool,
        a = next (vs.getD k.val 0) (sw.getLsbD n) → b = next (vs.getD (k.val + 1) 0) a →
        (s.evalPeriod t mask vs sw).1.getLsbD n = b ∧ (s.evalPeriod t mask vs sw).2.getLsbD n = (a || b))
    ∧ (s.ilv t k = true → k.val % 2 = 1 → (s.evalPeriod t mask vs sw).2.getLsbD n = false)

/-- R228: an engine is granted exactly where it is enabled and not quarantined, and fewer than GRANT engines below it are.
-/
def Obligations.GrantedEnginesAreTheLowest : Prop :=
  ∀ (s : State) (e : Fin 32), e.val ∈ s.grantedEngines ↔
    s.bit Reg.cmpEngEn e = true ∧ s.engQuarantined e = false
      ∧ ((List.range e.val).filter fun i => s.bit Reg.cmpEngEn i && !s.engQuarantined i).length < s.fld Reg.cmpGrant 5 0

/-- R326: a request that the session's cache holds a reply to is answered with that reply's opcode, STATUS and data,
REPLAYED set, and the present attention word, whatever the command and whatever it would do; at a timing-out port that
sends a frame it waits its turn. That the opcode is the cached one is the model's reading (log entry 13). -/
def Obligations.CachedRepliesAreSentAgain : Prop :=
  ∀ (f : Form) (r : Req) (body : Session → State → Ans) (s : State) (x : Session) (e : Cached) (y : Tx), s.Quiet r.port →
    s.bcpDrops r = false → s.findSession r.session = some x → x.ip = r.ip → x.udp = r.udp → x.version = r.version →
    f.malformed r = false → x.crowded r = false → x.isNew r.seq = false →
    (x.cache.find? fun (c : Cached) => c.seq = r.seq) = some e →
    y = .reply r.port r.mac r.ip r.udp e.opcode e.status true r.seq r.session (s.attention x) r.version e.data →
    (s.SendsAtOnce r.port → (s.request f r body).tx = s.tx ++ [y])
    ∧ (r.port = 3 → s.tim.now < s.lnk.busyA →
        (s.request f r body).lnk.oA = s.lnk.oA ++ [(y, 82 + e.data.length)] ∧ (s.request f r body).tx = s.tx)
    ∧ (r.port = 5 → s.tim.now < s.lnk.busyB →
        (s.request f r body).lnk.oB = s.lnk.oB ++ [(y, 82 + e.data.length)] ∧ (s.request f r body).tx = s.tx)

/-- R318, R340: a request's datagram, as a host writes it byte by byte, is read as the command its OPCODE names with every
operand at its offset, every header field at its own, and the CRC-32C over header and parameters found right; an
opcode that R340 does not list is read as the command NOP with that opcode. That a datagram comes to the block as that
command is the model's form (log entry 115). -/
def Obligations.DatagramsCarryTheirCommands : Prop :=
  ∀ (i : Instr) (r : Req) (op : Nat) (p : List Byte), i.wf = true → requestOf i = some (r, op, p) → wellSent r op p →
    (∀ q, i = .nop r q → q = 3 ∨ listedOpcodes.contains q.toNat = false) →
    readDatagram (Origin.ofReq r) (datagramOf r op p) = i ∧ (datagramOf r op p).length = 36 + p.length
      ∧ crc32c ((datagramOf r op p).take (32 + p.length)) = fieldAt 32 (datagramOf r op p) (32 + p.length)
end

