-- ==== Sys2Proof/Laws/Memory.lean ====
section
/-! SUPPORT. Byte memories (log entry 3): storing keeps the canonical form, and what a read returns after it. -/

namespace Sys2Proof.Machine

theorem lookupK_eq_none {β : Type} (k : Nat) (l : List (Nat × β)) (h : ∀ x ∈ l, x.1 ≠ k) : lookupK k l = none := by
  induction l with
  | nil => rfl
  | cons x l ih =>
    have hx := h x (by simp)
    have hl := ih fun y hy => h y (by simp [hy])
    simp [lookupK, hx, hl]

theorem lookupK_append {β : Type} (k : Nat) (l m : List (Nat × β)) :
    lookupK k (l ++ m) = (lookupK k l).orElse fun _ => lookupK k m := by
  induction l with
  | nil => rfl
  | cons x l ih => by_cases h : x.1 = k <;> simp [lookupK, h, ih]

theorem lookupK_filter {β : Type} (k : Nat) (p : Nat × β → Bool) (l : List (Nat × β)) (h : ∀ v, p (k, v) = true) :
    lookupK k (l.filter p) = lookupK k l := by
  induction l with
  | nil => rfl
  | cons x l ih =>
    obtain ⟨a, b⟩ := x
    by_cases e : a = k
    · subst e
      simp [h, lookupK]
    · by_cases q : p (a, b) = true <;> simp [List.filter, q, lookupK, e, ih]

/-- The entries that stored bytes make lie where the bytes do, and none is 0. -/
theorem Mem.mem_cells (a : Nat) (bs : List Byte) (c : Nat × Byte) (h : c ∈ Mem.cells a bs) :
    a ≤ c.1 ∧ c.1 < a + bs.length ∧ c.2 ≠ 0 := by
  induction bs generalizing a with
  | nil => simp [Mem.cells] at h
  | cons b bs ih =>
    by_cases hb : b = 0
    · rw [Mem.cells, if_pos hb] at h
      have := ih (a + 1) h
      exact ⟨by omega, by simp only [List.length_cons]; omega, this.2.2⟩
    · rw [Mem.cells, if_neg hb, List.mem_cons] at h
      rcases h with rfl | h
      · simpa using hb
      · have := ih (a + 1) h
        exact ⟨by omega, by simp only [List.length_cons]; omega, this.2.2⟩

theorem Mem.cells_wf (a : Nat) (bs : List Byte) : Mem.wf (Mem.cells a bs) := by
  refine ⟨?_, fun c h => (Mem.mem_cells a bs c h).2.2⟩
  induction bs generalizing a with
  | nil => simp [Mem.cells]
  | cons b bs ih =>
    by_cases hb : b = 0
    · rw [Mem.cells, if_pos hb]
      exact ih (a + 1)
    · rw [Mem.cells, if_neg hb, List.pairwise_cons]
      exact ⟨fun c h => (Mem.mem_cells (a + 1) bs c h).1, ih (a + 1)⟩

/-- Storing keeps the canonical form. -/
theorem Mem.writeBytes_wf (a : Nat) (bs : List Byte) (m : Mem) (h : Mem.wf m) : Mem.wf (Mem.writeBytes a bs m) := by
  have hc := Mem.cells_wf a bs
  have lo : ∀ c ∈ m.filter (fun c => decide (c.1 < a)), c.1 < a := by simp
  have hi : ∀ c ∈ m.filter (fun c => decide (a + bs.length ≤ c.1)), a + bs.length ≤ c.1 := by simp
  refine ⟨?_, ?_⟩
  · rw [Mem.writeBytes, List.append_assoc, List.pairwise_append, List.pairwise_append]
    refine ⟨h.1.filter _, ⟨hc.1, h.1.filter _, fun x hx y hy => ?_⟩, fun x hx y hy => ?_⟩
    · have := Mem.mem_cells a bs x hx
      have := hi y hy
      omega
    · have := lo x hx
      rcases List.mem_append.mp hy with hy | hy
      · have := Mem.mem_cells a bs y hy
        omega
      · have := hi y hy
        omega
  · intro c hcm
    rw [Mem.writeBytes, List.mem_append, List.mem_append] at hcm
    rcases hcm with (hcm | hcm) | hcm
    · exact h.2 c (List.mem_filter.mp hcm).1
    · exact hc.2 c hcm
    · exact h.2 c (List.mem_filter.mp hcm).1

theorem Mem.lookup_cells (a x : Nat) (bs : List Byte) (h : a ≤ x) :
    (lookupK x (Mem.cells a bs)).getD 0 = (bs[x - a]?).getD 0 := by
  induction bs generalizing a with
  | nil => simp [Mem.cells, lookupK]
  | cons b bs ih =>
    rcases Nat.eq_or_lt_of_le h with rfl | hlt
    · by_cases hb : b = 0
      · have hn : lookupK a (Mem.cells (a + 1) bs) = none :=
          lookupK_eq_none _ _ fun c hc => by
            have := Mem.mem_cells (a + 1) bs c hc
            omega
        simp [Mem.cells, hb, hn]
      · rw [Mem.cells, if_neg hb]
        simp [lookupK]
    · have e : x - a = x - (a + 1) + 1 := by omega
      have ne : a ≠ x := by omega
      have := ih (a + 1) hlt
      by_cases hb : b = 0
      · rw [Mem.cells, if_pos hb]
        simpa [e] using this
      · rw [Mem.cells, if_neg hb]
        simpa [lookupK, ne, e] using this

/-- A read after a store: the stored byte where bytes were stored, and what was there elsewhere. -/
theorem Mem.read_writeBytes (a x : Nat) (bs : List Byte) (m : Mem) :
    Mem.read (Mem.writeBytes a bs m) x = if a ≤ x ∧ x < a + bs.length then (bs[x - a]?).getD 0 else Mem.read m x := by
  unfold Mem.read Mem.writeBytes
  rw [List.append_assoc, lookupK_append, lookupK_append]
  by_cases hx : x < a
  · have hc : lookupK x (Mem.cells a bs) = none :=
      lookupK_eq_none _ _ fun c hc => by
        have := Mem.mem_cells a bs c hc
        omega
    have hh : lookupK x (m.filter fun c => decide (a + bs.length ≤ c.1)) = none :=
      lookupK_eq_none _ _ fun c hc => by
        have : a + bs.length ≤ c.1 := by simpa using (List.mem_filter.mp hc).2
        omega
    have hl := lookupK_filter x (fun (c : Nat × Byte) => decide (c.1 < a)) m (by simpa using hx)
    rw [hc, hh, hl, if_neg (by omega)]
    cases lookupK x m <;> rfl
  · have hl : lookupK x (m.filter fun c => decide (c.1 < a)) = none :=
      lookupK_eq_none _ _ fun c hc => by
        have : c.1 < a := by simpa using (List.mem_filter.mp hc).2
        omega
    rw [hl]
    by_cases hy : x < a + bs.length
    · have hh : lookupK x (m.filter fun c => decide (a + bs.length ≤ c.1)) = none :=
        lookupK_eq_none _ _ fun c hc => by
          have : a + bs.length ≤ c.1 := by simpa using (List.mem_filter.mp hc).2
          omega
      have hc := Mem.lookup_cells a x bs (by omega)
      rw [hh, if_pos ⟨by omega, hy⟩, ← hc]
      cases lookupK x (Mem.cells a bs) <;> rfl
    · have hc : lookupK x (Mem.cells a bs) = none :=
        lookupK_eq_none _ _ fun c hc => by
          have := Mem.mem_cells a bs c hc
          omega
      have hh := lookupK_filter x (fun (c : Nat × Byte) => decide (a + bs.length ≤ c.1)) m
        (by simp only [decide_eq_true_eq]; intros; omega)
      rw [hc, hh, if_neg (by omega)]
      cases lookupK x m <;> rfl

@[simp] theorem Mem.length_readBytes (m : Mem) (a n : Nat) : (Mem.readBytes m a n).length = n := by
  induction n generalizing a with
  | zero => rfl
  | succ n ih => simp [Mem.readBytes, ih]

theorem Mem.getElem_readBytes (m : Mem) (a n i : Nat) (h : i < n) :
    (Mem.readBytes m a n)[i]? = some (Mem.read m (a + i)) := by
  induction n generalizing a i with
  | zero => omega
  | succ n ih =>
    cases i with
    | zero => rfl
    | succ i =>
      have := ih (a + 1) i (by omega)
      rw [Mem.readBytes, List.getElem?_cons_succ, this, show a + 1 + i = a + (i + 1) by omega]

/-- What was stored is read back. -/
theorem Mem.readBytes_writeBytes (a : Nat) (bs : List Byte) (m : Mem) :
    Mem.readBytes (Mem.writeBytes a bs m) a bs.length = bs := by
  apply List.ext_getElem?
  intro i
  by_cases h : i < bs.length
  · rw [Mem.getElem_readBytes _ _ _ _ h, Mem.read_writeBytes, if_pos ⟨by omega, by omega⟩,
      show a + i - a = i by omega, List.getElem?_eq_getElem h]
    rfl
  · rw [List.getElem?_eq_none (by simpa using h), List.getElem?_eq_none (by omega)]

theorem Nv.reset_wf : Mem.wf State.reset.nv.otp ∧ Mem.wf State.reset.nv.mram := by decide

end Sys2Proof.Machine
end

