-- ==== Sys2Proof/Laws/Words.lean ====
section
/-! SUPPORT. Fields of words: what reading and replacing bits [hi:lo] gives, association lists, and sparse words. -/

namespace Sys2Proof.Machine

theorem bits_testBit {w : Nat} (v : BitVec w) (hi lo j : Nat) :
    (bits v hi lo).testBit j = (decide (j < hi + 1 - lo) && v.getLsbD (lo + j)) := by
  unfold bits
  rw [Nat.testBit_mod_two_pow, Nat.testBit_div_two_pow]
  simp [BitVec.getLsbD, Nat.add_comm]

theorem bits_lt {w : Nat} (v : BitVec w) (hi lo : Nat) : bits v hi lo < 2 ^ (hi + 1 - lo) :=
  Nat.mod_lt _ (Nat.two_pow_pos _)

/-- A bit of a word with bits [hi:lo] replaced. -/
theorem getLsbD_putBits (v : Word) (hi lo x i : Nat) (h : hi < 32) :
    (putBits v hi lo x).getLsbD i
      = if lo ≤ i ∧ i ≤ hi then x.testBit (i - lo) else v.getLsbD i := by
  unfold putBits
  simp only [BitVec.getLsbD_or, BitVec.getLsbD_and, BitVec.getLsbD_not, BitVec.getLsbD_ofNat]
  have hm : ((2 ^ (hi + 1 - lo) - 1) * 2 ^ lo).testBit i = decide (lo ≤ i ∧ i ≤ hi) := by
    rw [Nat.testBit_mul_two_pow, Nat.testBit_two_pow_sub_one]
    by_cases h1 : lo ≤ i <;> (simp [h1]; try omega)
  have hx : (x % 2 ^ (hi + 1 - lo) * 2 ^ lo).testBit i = (decide (lo ≤ i ∧ i ≤ hi) && x.testBit (i - lo)) := by
    rw [Nat.testBit_mul_two_pow, Nat.testBit_mod_two_pow]
    by_cases h1 : lo ≤ i
    · by_cases h2 : i ≤ hi
      · have : i - lo < hi + 1 - lo := by omega
        simp [h1, h2, this]
      · have : ¬ i - lo < hi + 1 - lo := by omega
        simp [h1, h2, this]
    · simp [h1]
  rw [hm, hx]
  by_cases hi32 : i < 32
  · by_cases hc : lo ≤ i ∧ i ≤ hi <;> simp [hc, hi32]
  · have : ¬ (lo ≤ i ∧ i ≤ hi) := by omega
    have hv : v.getLsbD i = false := BitVec.getLsbD_of_ge v i (by omega)
    simp [this, hi32, hv]

/-- The field just written reads as written. -/
@[simp] theorem bits_putBits_same (v : Word) (hi lo x : Nat) (h : hi < 32) :
    bits (putBits v hi lo x) hi lo = x % 2 ^ (hi + 1 - lo) := by
  apply Nat.eq_of_testBit_eq
  intro j
  rw [bits_testBit, getLsbD_putBits _ _ _ _ _ h, Nat.testBit_mod_two_pow]
  by_cases hj : j < hi + 1 - lo
  · have : lo ≤ lo + j ∧ lo + j ≤ hi := by omega
    simp [hj, this]
  · simp [hj]

/-- A field apart from the one written reads as before. -/
theorem bits_putBits_apart (v : Word) (hi lo hi' lo' x : Nat) (h : hi < 32) (hd : hi' < lo ∨ hi < lo') :
    bits (putBits v hi lo x) hi' lo' = bits v hi' lo' := by
  apply Nat.eq_of_testBit_eq
  intro j
  rw [bits_testBit, bits_testBit, getLsbD_putBits _ _ _ _ _ h]
  by_cases hj : j < hi' + 1 - lo'
  · have : ¬ (lo ≤ lo' + j ∧ lo' + j ≤ hi) := by omega
    simp [this]
  · simp [hj]

/-- A one-bit field just written. -/
@[simp] theorem getLsbD_putBits_bit (v : Word) (i : Nat) (b : Bool) (h : i < 32) :
    (putBits v i i b.toNat).getLsbD i = b := by
  rw [getLsbD_putBits _ _ _ _ _ h]
  cases b <;> simp

theorem getLsbD_putBits_apart (v : Word) (hi lo x i : Nat) (h : hi < 32) (hd : i < lo ∨ hi < i) :
    (putBits v hi lo x).getLsbD i = v.getLsbD i := by
  rw [getLsbD_putBits _ _ _ _ _ h, if_neg (by omega)]

/-! ### Association lists -/

@[simp] theorem lookupK_putK_same {β : Type} (k : Nat) (v : β) (l : List (Nat × β)) :
    lookupK k (putK k v l) = some v := by
  induction l with
  | nil => simp [putK, lookupK]
  | cons x l ih =>
    obtain ⟨a, u⟩ := x
    by_cases h : a = k <;> simp [putK, lookupK, h, ih]

theorem lookupK_putK_ne {β : Type} (j k : Nat) (v : β) (l : List (Nat × β)) (h : j ≠ k) :
    lookupK j (putK k v l) = lookupK j l := by
  induction l with
  | nil => simp [putK, lookupK, Ne.symm h]
  | cons x l ih =>
    obtain ⟨a, u⟩ := x
    by_cases ha : a = k
    · subst ha; simp [putK, lookupK, Ne.symm h]
    · have hp : putK k v ((a, u) :: l) = (a, u) :: putK k v l := by simp [putK, ha]
      rw [hp]
      by_cases hj : a = j <;> simp [lookupK, hj, ih]

@[simp] theorem lookupK_dropK_same {β : Type} (k : Nat) (l : List (Nat × β)) : lookupK k (dropK k l) = none := by
  induction l with
  | nil => rfl
  | cons x l ih =>
    obtain ⟨a, u⟩ := x
    unfold dropK at ih ⊢
    by_cases h : a = k <;> simp [lookupK, h, ih]

/-! ### Sparse words (RegMap) -/

@[simp] theorem RegMap.find_put_same (m : RegMap) (a : Nat) (w : Word) : (m.put a w).find a = some w := by
  unfold RegMap.find
  induction m with
  | nil => simp [RegMap.put, lookupK]
  | cons x m ih =>
    obtain ⟨b, v⟩ := x
    unfold RegMap.put
    by_cases h : a < b
    · simp [h, lookupK]
    · by_cases h2 : a = b
      · simp [h2, lookupK]
      · have : b ≠ a := fun e => h2 e.symm
        simp [h, h2, lookupK, this, ih]

theorem RegMap.find_put_ne (m : RegMap) (a c : Nat) (w : Word) (hc : c ≠ a) : (m.put a w).find c = m.find c := by
  unfold RegMap.find
  induction m with
  | nil => simp [RegMap.put, lookupK, Ne.symm hc]
  | cons x m ih =>
    obtain ⟨b, v⟩ := x
    unfold RegMap.put
    by_cases h : a < b
    · simp [h, lookupK, Ne.symm hc]
    · by_cases h2 : a = b
      · subst h2; simp [lookupK, Ne.symm hc]
      · rw [if_neg h, if_neg h2]
        by_cases h3 : b = c <;> simp [lookupK, h3, ih]

end Sys2Proof.Machine
end

