-- ==== Sys2Proof/Laws/State.lean ====
section
/-! SUPPORT. What each named update of the state leaves as it was and what it sets: one lemma per field and update, and
the registers read after each (get, fld, bit). -/

namespace Sys2Proof.Machine

/-! ### set -/

@[simp] theorem State.set_pending (s : State) (a : Nat) (w : Word) : (s.set a w).pending = s.pending := rfl
@[simp] theorem State.set_variant (s : State) (a : Nat) (w : Word) : (s.set a w).variant = s.variant := rfl
@[simp] theorem State.set_straps (s : State) (a : Nat) (w : Word) : (s.set a w).straps = s.straps := rfl
@[simp] theorem State.set_shadow (s : State) (a : Nat) (w : Word) : (s.set a w).shadow = s.shadow := rfl
@[simp] theorem State.set_bcp (s : State) (a : Nat) (w : Word) : (s.set a w).bcp = s.bcp := rfl
@[simp] theorem State.set_modes (s : State) (a : Nat) (w : Word) : (s.set a w).modes = s.modes := rfl
@[simp] theorem State.set_tiles (s : State) (a : Nat) (w : Word) : (s.set a w).tiles = s.tiles := rfl
@[simp] theorem State.set_sbx (s : State) (a : Nat) (w : Word) : (s.set a w).sbx = s.sbx := rfl
@[simp] theorem State.set_que (s : State) (a : Nat) (w : Word) : (s.set a w).que = s.que := rfl
@[simp] theorem State.set_dpt (s : State) (a : Nat) (w : Word) : (s.set a w).dpt = s.dpt := rfl
@[simp] theorem State.set_cmp (s : State) (a : Nat) (w : Word) : (s.set a w).cmp = s.cmp := rfl
@[simp] theorem State.set_lnk (s : State) (a : Nat) (w : Word) : (s.set a w).lnk = s.lnk := rfl
@[simp] theorem State.set_tim (s : State) (a : Nat) (w : Word) : (s.set a w).tim = s.tim := rfl
@[simp] theorem State.set_clk (s : State) (a : Nat) (w : Word) : (s.set a w).clk = s.clk := rfl
@[simp] theorem State.set_ilk (s : State) (a : Nat) (w : Word) : (s.set a w).ilk = s.ilk := rfl
@[simp] theorem State.set_nv (s : State) (a : Nat) (w : Word) : (s.set a w).nv = s.nv := rfl
@[simp] theorem State.set_pers (s : State) (a : Nat) (w : Word) : (s.set a w).pers = s.pers := rfl
@[simp] theorem State.set_tt (s : State) (a : Nat) (w : Word) : (s.set a w).tt = s.tt := rfl
@[simp] theorem State.set_tx (s : State) (a : Nat) (w : Word) : (s.set a w).tx = s.tx := rfl
@[simp] theorem State.set_evt (s : State) (a : Nat) (w : Word) : (s.set a w).evt = s.evt := rfl
@[simp] theorem State.set_free (s : State) (a : Nat) (w : Word) : (s.set a w).free = s.free := rfl

/-! ### setFld -/

@[simp] theorem State.setFld_pending (s : State) (a hi lo x : Nat) : (s.setFld a hi lo x).pending = s.pending := rfl
@[simp] theorem State.setFld_variant (s : State) (a hi lo x : Nat) : (s.setFld a hi lo x).variant = s.variant := rfl
@[simp] theorem State.setFld_straps (s : State) (a hi lo x : Nat) : (s.setFld a hi lo x).straps = s.straps := rfl
@[simp] theorem State.setFld_shadow (s : State) (a hi lo x : Nat) : (s.setFld a hi lo x).shadow = s.shadow := rfl
@[simp] theorem State.setFld_bcp (s : State) (a hi lo x : Nat) : (s.setFld a hi lo x).bcp = s.bcp := rfl
@[simp] theorem State.setFld_modes (s : State) (a hi lo x : Nat) : (s.setFld a hi lo x).modes = s.modes := rfl
@[simp] theorem State.setFld_tiles (s : State) (a hi lo x : Nat) : (s.setFld a hi lo x).tiles = s.tiles := rfl
@[simp] theorem State.setFld_sbx (s : State) (a hi lo x : Nat) : (s.setFld a hi lo x).sbx = s.sbx := rfl
@[simp] theorem State.setFld_que (s : State) (a hi lo x : Nat) : (s.setFld a hi lo x).que = s.que := rfl
@[simp] theorem State.setFld_dpt (s : State) (a hi lo x : Nat) : (s.setFld a hi lo x).dpt = s.dpt := rfl
@[simp] theorem State.setFld_cmp (s : State) (a hi lo x : Nat) : (s.setFld a hi lo x).cmp = s.cmp := rfl
@[simp] theorem State.setFld_lnk (s : State) (a hi lo x : Nat) : (s.setFld a hi lo x).lnk = s.lnk := rfl
@[simp] theorem State.setFld_tim (s : State) (a hi lo x : Nat) : (s.setFld a hi lo x).tim = s.tim := rfl
@[simp] theorem State.setFld_clk (s : State) (a hi lo x : Nat) : (s.setFld a hi lo x).clk = s.clk := rfl
@[simp] theorem State.setFld_ilk (s : State) (a hi lo x : Nat) : (s.setFld a hi lo x).ilk = s.ilk := rfl
@[simp] theorem State.setFld_nv (s : State) (a hi lo x : Nat) : (s.setFld a hi lo x).nv = s.nv := rfl
@[simp] theorem State.setFld_pers (s : State) (a hi lo x : Nat) : (s.setFld a hi lo x).pers = s.pers := rfl
@[simp] theorem State.setFld_tt (s : State) (a hi lo x : Nat) : (s.setFld a hi lo x).tt = s.tt := rfl
@[simp] theorem State.setFld_tx (s : State) (a hi lo x : Nat) : (s.setFld a hi lo x).tx = s.tx := rfl
@[simp] theorem State.setFld_evt (s : State) (a hi lo x : Nat) : (s.setFld a hi lo x).evt = s.evt := rfl
@[simp] theorem State.setFld_free (s : State) (a hi lo x : Nat) : (s.setFld a hi lo x).free = s.free := rfl

/-! ### setBit -/

@[simp] theorem State.setBit_pending (s : State) (a i : Nat) (b : Bool) : (s.setBit a i b).pending = s.pending := rfl
@[simp] theorem State.setBit_variant (s : State) (a i : Nat) (b : Bool) : (s.setBit a i b).variant = s.variant := rfl
@[simp] theorem State.setBit_straps (s : State) (a i : Nat) (b : Bool) : (s.setBit a i b).straps = s.straps := rfl
@[simp] theorem State.setBit_shadow (s : State) (a i : Nat) (b : Bool) : (s.setBit a i b).shadow = s.shadow := rfl
@[simp] theorem State.setBit_bcp (s : State) (a i : Nat) (b : Bool) : (s.setBit a i b).bcp = s.bcp := rfl
@[simp] theorem State.setBit_modes (s : State) (a i : Nat) (b : Bool) : (s.setBit a i b).modes = s.modes := rfl
@[simp] theorem State.setBit_tiles (s : State) (a i : Nat) (b : Bool) : (s.setBit a i b).tiles = s.tiles := rfl
@[simp] theorem State.setBit_sbx (s : State) (a i : Nat) (b : Bool) : (s.setBit a i b).sbx = s.sbx := rfl
@[simp] theorem State.setBit_que (s : State) (a i : Nat) (b : Bool) : (s.setBit a i b).que = s.que := rfl
@[simp] theorem State.setBit_dpt (s : State) (a i : Nat) (b : Bool) : (s.setBit a i b).dpt = s.dpt := rfl
@[simp] theorem State.setBit_cmp (s : State) (a i : Nat) (b : Bool) : (s.setBit a i b).cmp = s.cmp := rfl
@[simp] theorem State.setBit_lnk (s : State) (a i : Nat) (b : Bool) : (s.setBit a i b).lnk = s.lnk := rfl
@[simp] theorem State.setBit_tim (s : State) (a i : Nat) (b : Bool) : (s.setBit a i b).tim = s.tim := rfl
@[simp] theorem State.setBit_clk (s : State) (a i : Nat) (b : Bool) : (s.setBit a i b).clk = s.clk := rfl
@[simp] theorem State.setBit_ilk (s : State) (a i : Nat) (b : Bool) : (s.setBit a i b).ilk = s.ilk := rfl
@[simp] theorem State.setBit_nv (s : State) (a i : Nat) (b : Bool) : (s.setBit a i b).nv = s.nv := rfl
@[simp] theorem State.setBit_pers (s : State) (a i : Nat) (b : Bool) : (s.setBit a i b).pers = s.pers := rfl
@[simp] theorem State.setBit_tt (s : State) (a i : Nat) (b : Bool) : (s.setBit a i b).tt = s.tt := rfl
@[simp] theorem State.setBit_tx (s : State) (a i : Nat) (b : Bool) : (s.setBit a i b).tx = s.tx := rfl
@[simp] theorem State.setBit_evt (s : State) (a i : Nat) (b : Bool) : (s.setBit a i b).evt = s.evt := rfl
@[simp] theorem State.setBit_free (s : State) (a i : Nat) (b : Bool) : (s.setBit a i b).free = s.free := rfl

/-! ### set64 -/

@[simp] theorem State.set64_pending (s : State) (lo hi v : Nat) : (s.set64 lo hi v).pending = s.pending := rfl
@[simp] theorem State.set64_variant (s : State) (lo hi v : Nat) : (s.set64 lo hi v).variant = s.variant := rfl
@[simp] theorem State.set64_straps (s : State) (lo hi v : Nat) : (s.set64 lo hi v).straps = s.straps := rfl
@[simp] theorem State.set64_shadow (s : State) (lo hi v : Nat) : (s.set64 lo hi v).shadow = s.shadow := rfl
@[simp] theorem State.set64_bcp (s : State) (lo hi v : Nat) : (s.set64 lo hi v).bcp = s.bcp := rfl
@[simp] theorem State.set64_modes (s : State) (lo hi v : Nat) : (s.set64 lo hi v).modes = s.modes := rfl
@[simp] theorem State.set64_tiles (s : State) (lo hi v : Nat) : (s.set64 lo hi v).tiles = s.tiles := rfl
@[simp] theorem State.set64_sbx (s : State) (lo hi v : Nat) : (s.set64 lo hi v).sbx = s.sbx := rfl
@[simp] theorem State.set64_que (s : State) (lo hi v : Nat) : (s.set64 lo hi v).que = s.que := rfl
@[simp] theorem State.set64_dpt (s : State) (lo hi v : Nat) : (s.set64 lo hi v).dpt = s.dpt := rfl
@[simp] theorem State.set64_cmp (s : State) (lo hi v : Nat) : (s.set64 lo hi v).cmp = s.cmp := rfl
@[simp] theorem State.set64_lnk (s : State) (lo hi v : Nat) : (s.set64 lo hi v).lnk = s.lnk := rfl
@[simp] theorem State.set64_tim (s : State) (lo hi v : Nat) : (s.set64 lo hi v).tim = s.tim := rfl
@[simp] theorem State.set64_clk (s : State) (lo hi v : Nat) : (s.set64 lo hi v).clk = s.clk := rfl
@[simp] theorem State.set64_ilk (s : State) (lo hi v : Nat) : (s.set64 lo hi v).ilk = s.ilk := rfl
@[simp] theorem State.set64_nv (s : State) (lo hi v : Nat) : (s.set64 lo hi v).nv = s.nv := rfl
@[simp] theorem State.set64_pers (s : State) (lo hi v : Nat) : (s.set64 lo hi v).pers = s.pers := rfl
@[simp] theorem State.set64_tt (s : State) (lo hi v : Nat) : (s.set64 lo hi v).tt = s.tt := rfl
@[simp] theorem State.set64_tx (s : State) (lo hi v : Nat) : (s.set64 lo hi v).tx = s.tx := rfl
@[simp] theorem State.set64_evt (s : State) (lo hi v : Nat) : (s.set64 lo hi v).evt = s.evt := rfl
@[simp] theorem State.set64_free (s : State) (lo hi v : Nat) : (s.set64 lo hi v).free = s.free := rfl

/-! ### bumpFld -/

@[simp] theorem State.bumpFld_pending (s : State) (a hi lo n : Nat) : (s.bumpFld a hi lo n).pending = s.pending := rfl
@[simp] theorem State.bumpFld_variant (s : State) (a hi lo n : Nat) : (s.bumpFld a hi lo n).variant = s.variant := rfl
@[simp] theorem State.bumpFld_straps (s : State) (a hi lo n : Nat) : (s.bumpFld a hi lo n).straps = s.straps := rfl
@[simp] theorem State.bumpFld_shadow (s : State) (a hi lo n : Nat) : (s.bumpFld a hi lo n).shadow = s.shadow := rfl
@[simp] theorem State.bumpFld_bcp (s : State) (a hi lo n : Nat) : (s.bumpFld a hi lo n).bcp = s.bcp := rfl
@[simp] theorem State.bumpFld_modes (s : State) (a hi lo n : Nat) : (s.bumpFld a hi lo n).modes = s.modes := rfl
@[simp] theorem State.bumpFld_tiles (s : State) (a hi lo n : Nat) : (s.bumpFld a hi lo n).tiles = s.tiles := rfl
@[simp] theorem State.bumpFld_sbx (s : State) (a hi lo n : Nat) : (s.bumpFld a hi lo n).sbx = s.sbx := rfl
@[simp] theorem State.bumpFld_que (s : State) (a hi lo n : Nat) : (s.bumpFld a hi lo n).que = s.que := rfl
@[simp] theorem State.bumpFld_dpt (s : State) (a hi lo n : Nat) : (s.bumpFld a hi lo n).dpt = s.dpt := rfl
@[simp] theorem State.bumpFld_cmp (s : State) (a hi lo n : Nat) : (s.bumpFld a hi lo n).cmp = s.cmp := rfl
@[simp] theorem State.bumpFld_lnk (s : State) (a hi lo n : Nat) : (s.bumpFld a hi lo n).lnk = s.lnk := rfl
@[simp] theorem State.bumpFld_tim (s : State) (a hi lo n : Nat) : (s.bumpFld a hi lo n).tim = s.tim := rfl
@[simp] theorem State.bumpFld_clk (s : State) (a hi lo n : Nat) : (s.bumpFld a hi lo n).clk = s.clk := rfl
@[simp] theorem State.bumpFld_ilk (s : State) (a hi lo n : Nat) : (s.bumpFld a hi lo n).ilk = s.ilk := rfl
@[simp] theorem State.bumpFld_nv (s : State) (a hi lo n : Nat) : (s.bumpFld a hi lo n).nv = s.nv := rfl
@[simp] theorem State.bumpFld_pers (s : State) (a hi lo n : Nat) : (s.bumpFld a hi lo n).pers = s.pers := rfl
@[simp] theorem State.bumpFld_tt (s : State) (a hi lo n : Nat) : (s.bumpFld a hi lo n).tt = s.tt := rfl
@[simp] theorem State.bumpFld_tx (s : State) (a hi lo n : Nat) : (s.bumpFld a hi lo n).tx = s.tx := rfl
@[simp] theorem State.bumpFld_evt (s : State) (a hi lo n : Nat) : (s.bumpFld a hi lo n).evt = s.evt := rfl
@[simp] theorem State.bumpFld_free (s : State) (a hi lo n : Nat) : (s.bumpFld a hi lo n).free = s.free := rfl

/-! ### bump -/

@[simp] theorem State.bump_pending (s : State) (a : Nat) : (s.bump a).pending = s.pending := rfl
@[simp] theorem State.bump_variant (s : State) (a : Nat) : (s.bump a).variant = s.variant := rfl
@[simp] theorem State.bump_straps (s : State) (a : Nat) : (s.bump a).straps = s.straps := rfl
@[simp] theorem State.bump_shadow (s : State) (a : Nat) : (s.bump a).shadow = s.shadow := rfl
@[simp] theorem State.bump_bcp (s : State) (a : Nat) : (s.bump a).bcp = s.bcp := rfl
@[simp] theorem State.bump_modes (s : State) (a : Nat) : (s.bump a).modes = s.modes := rfl
@[simp] theorem State.bump_tiles (s : State) (a : Nat) : (s.bump a).tiles = s.tiles := rfl
@[simp] theorem State.bump_sbx (s : State) (a : Nat) : (s.bump a).sbx = s.sbx := rfl
@[simp] theorem State.bump_que (s : State) (a : Nat) : (s.bump a).que = s.que := rfl
@[simp] theorem State.bump_dpt (s : State) (a : Nat) : (s.bump a).dpt = s.dpt := rfl
@[simp] theorem State.bump_cmp (s : State) (a : Nat) : (s.bump a).cmp = s.cmp := rfl
@[simp] theorem State.bump_lnk (s : State) (a : Nat) : (s.bump a).lnk = s.lnk := rfl
@[simp] theorem State.bump_tim (s : State) (a : Nat) : (s.bump a).tim = s.tim := rfl
@[simp] theorem State.bump_clk (s : State) (a : Nat) : (s.bump a).clk = s.clk := rfl
@[simp] theorem State.bump_ilk (s : State) (a : Nat) : (s.bump a).ilk = s.ilk := rfl
@[simp] theorem State.bump_nv (s : State) (a : Nat) : (s.bump a).nv = s.nv := rfl
@[simp] theorem State.bump_pers (s : State) (a : Nat) : (s.bump a).pers = s.pers := rfl
@[simp] theorem State.bump_tt (s : State) (a : Nat) : (s.bump a).tt = s.tt := rfl
@[simp] theorem State.bump_tx (s : State) (a : Nat) : (s.bump a).tx = s.tx := rfl
@[simp] theorem State.bump_evt (s : State) (a : Nat) : (s.bump a).evt = s.evt := rfl
@[simp] theorem State.bump_free (s : State) (a : Nat) : (s.bump a).free = s.free := rfl

/-! ### bumpBy -/

@[simp] theorem State.bumpBy_pending (s : State) (a n : Nat) : (s.bumpBy a n).pending = s.pending := rfl
@[simp] theorem State.bumpBy_variant (s : State) (a n : Nat) : (s.bumpBy a n).variant = s.variant := rfl
@[simp] theorem State.bumpBy_straps (s : State) (a n : Nat) : (s.bumpBy a n).straps = s.straps := rfl
@[simp] theorem State.bumpBy_shadow (s : State) (a n : Nat) : (s.bumpBy a n).shadow = s.shadow := rfl
@[simp] theorem State.bumpBy_bcp (s : State) (a n : Nat) : (s.bumpBy a n).bcp = s.bcp := rfl
@[simp] theorem State.bumpBy_modes (s : State) (a n : Nat) : (s.bumpBy a n).modes = s.modes := rfl
@[simp] theorem State.bumpBy_tiles (s : State) (a n : Nat) : (s.bumpBy a n).tiles = s.tiles := rfl
@[simp] theorem State.bumpBy_sbx (s : State) (a n : Nat) : (s.bumpBy a n).sbx = s.sbx := rfl
@[simp] theorem State.bumpBy_que (s : State) (a n : Nat) : (s.bumpBy a n).que = s.que := rfl
@[simp] theorem State.bumpBy_dpt (s : State) (a n : Nat) : (s.bumpBy a n).dpt = s.dpt := rfl
@[simp] theorem State.bumpBy_cmp (s : State) (a n : Nat) : (s.bumpBy a n).cmp = s.cmp := rfl
@[simp] theorem State.bumpBy_lnk (s : State) (a n : Nat) : (s.bumpBy a n).lnk = s.lnk := rfl
@[simp] theorem State.bumpBy_tim (s : State) (a n : Nat) : (s.bumpBy a n).tim = s.tim := rfl
@[simp] theorem State.bumpBy_clk (s : State) (a n : Nat) : (s.bumpBy a n).clk = s.clk := rfl
@[simp] theorem State.bumpBy_ilk (s : State) (a n : Nat) : (s.bumpBy a n).ilk = s.ilk := rfl
@[simp] theorem State.bumpBy_nv (s : State) (a n : Nat) : (s.bumpBy a n).nv = s.nv := rfl
@[simp] theorem State.bumpBy_pers (s : State) (a n : Nat) : (s.bumpBy a n).pers = s.pers := rfl
@[simp] theorem State.bumpBy_tt (s : State) (a n : Nat) : (s.bumpBy a n).tt = s.tt := rfl
@[simp] theorem State.bumpBy_tx (s : State) (a n : Nat) : (s.bumpBy a n).tx = s.tx := rfl
@[simp] theorem State.bumpBy_evt (s : State) (a n : Nat) : (s.bumpBy a n).evt = s.evt := rfl
@[simp] theorem State.bumpBy_free (s : State) (a n : Nat) : (s.bumpBy a n).free = s.free := rfl

/-! ### bump64 -/

@[simp] theorem State.bump64_pending (s : State) (lo hi n : Nat) : (s.bump64 lo hi n).pending = s.pending := rfl
@[simp] theorem State.bump64_variant (s : State) (lo hi n : Nat) : (s.bump64 lo hi n).variant = s.variant := rfl
@[simp] theorem State.bump64_straps (s : State) (lo hi n : Nat) : (s.bump64 lo hi n).straps = s.straps := rfl
@[simp] theorem State.bump64_shadow (s : State) (lo hi n : Nat) : (s.bump64 lo hi n).shadow = s.shadow := rfl
@[simp] theorem State.bump64_bcp (s : State) (lo hi n : Nat) : (s.bump64 lo hi n).bcp = s.bcp := rfl
@[simp] theorem State.bump64_modes (s : State) (lo hi n : Nat) : (s.bump64 lo hi n).modes = s.modes := rfl
@[simp] theorem State.bump64_tiles (s : State) (lo hi n : Nat) : (s.bump64 lo hi n).tiles = s.tiles := rfl
@[simp] theorem State.bump64_sbx (s : State) (lo hi n : Nat) : (s.bump64 lo hi n).sbx = s.sbx := rfl
@[simp] theorem State.bump64_que (s : State) (lo hi n : Nat) : (s.bump64 lo hi n).que = s.que := rfl
@[simp] theorem State.bump64_dpt (s : State) (lo hi n : Nat) : (s.bump64 lo hi n).dpt = s.dpt := rfl
@[simp] theorem State.bump64_cmp (s : State) (lo hi n : Nat) : (s.bump64 lo hi n).cmp = s.cmp := rfl
@[simp] theorem State.bump64_lnk (s : State) (lo hi n : Nat) : (s.bump64 lo hi n).lnk = s.lnk := rfl
@[simp] theorem State.bump64_tim (s : State) (lo hi n : Nat) : (s.bump64 lo hi n).tim = s.tim := rfl
@[simp] theorem State.bump64_clk (s : State) (lo hi n : Nat) : (s.bump64 lo hi n).clk = s.clk := rfl
@[simp] theorem State.bump64_ilk (s : State) (lo hi n : Nat) : (s.bump64 lo hi n).ilk = s.ilk := rfl
@[simp] theorem State.bump64_nv (s : State) (lo hi n : Nat) : (s.bump64 lo hi n).nv = s.nv := rfl
@[simp] theorem State.bump64_pers (s : State) (lo hi n : Nat) : (s.bump64 lo hi n).pers = s.pers := rfl
@[simp] theorem State.bump64_tt (s : State) (lo hi n : Nat) : (s.bump64 lo hi n).tt = s.tt := rfl
@[simp] theorem State.bump64_tx (s : State) (lo hi n : Nat) : (s.bump64 lo hi n).tx = s.tx := rfl
@[simp] theorem State.bump64_evt (s : State) (lo hi n : Nat) : (s.bump64 lo hi n).evt = s.evt := rfl
@[simp] theorem State.bump64_free (s : State) (lo hi n : Nat) : (s.bump64 lo hi n).free = s.free := rfl

/-! ### stamp -/

@[simp] theorem State.stamp_pending (s : State) (a b t : Nat) : (s.stamp a b t).pending = s.pending := rfl
@[simp] theorem State.stamp_variant (s : State) (a b t : Nat) : (s.stamp a b t).variant = s.variant := rfl
@[simp] theorem State.stamp_straps (s : State) (a b t : Nat) : (s.stamp a b t).straps = s.straps := rfl
@[simp] theorem State.stamp_shadow (s : State) (a b t : Nat) : (s.stamp a b t).shadow = s.shadow := rfl
@[simp] theorem State.stamp_bcp (s : State) (a b t : Nat) : (s.stamp a b t).bcp = s.bcp := rfl
@[simp] theorem State.stamp_modes (s : State) (a b t : Nat) : (s.stamp a b t).modes = s.modes := rfl
@[simp] theorem State.stamp_tiles (s : State) (a b t : Nat) : (s.stamp a b t).tiles = s.tiles := rfl
@[simp] theorem State.stamp_sbx (s : State) (a b t : Nat) : (s.stamp a b t).sbx = s.sbx := rfl
@[simp] theorem State.stamp_que (s : State) (a b t : Nat) : (s.stamp a b t).que = s.que := rfl
@[simp] theorem State.stamp_dpt (s : State) (a b t : Nat) : (s.stamp a b t).dpt = s.dpt := rfl
@[simp] theorem State.stamp_cmp (s : State) (a b t : Nat) : (s.stamp a b t).cmp = s.cmp := rfl
@[simp] theorem State.stamp_lnk (s : State) (a b t : Nat) : (s.stamp a b t).lnk = s.lnk := rfl
@[simp] theorem State.stamp_tim (s : State) (a b t : Nat) : (s.stamp a b t).tim = s.tim := rfl
@[simp] theorem State.stamp_clk (s : State) (a b t : Nat) : (s.stamp a b t).clk = s.clk := rfl
@[simp] theorem State.stamp_ilk (s : State) (a b t : Nat) : (s.stamp a b t).ilk = s.ilk := rfl
@[simp] theorem State.stamp_nv (s : State) (a b t : Nat) : (s.stamp a b t).nv = s.nv := rfl
@[simp] theorem State.stamp_pers (s : State) (a b t : Nat) : (s.stamp a b t).pers = s.pers := rfl
@[simp] theorem State.stamp_tt (s : State) (a b t : Nat) : (s.stamp a b t).tt = s.tt := rfl
@[simp] theorem State.stamp_tx (s : State) (a b t : Nat) : (s.stamp a b t).tx = s.tx := rfl
@[simp] theorem State.stamp_evt (s : State) (a b t : Nat) : (s.stamp a b t).evt = s.evt := rfl
@[simp] theorem State.stamp_free (s : State) (a b t : Nat) : (s.stamp a b t).free = s.free := rfl

/-! ### resetRegs -/

@[simp] theorem State.resetRegs_pending (s : State) (p : Nat → Bool) : (s.resetRegs p).pending = s.pending := rfl
@[simp] theorem State.resetRegs_variant (s : State) (p : Nat → Bool) : (s.resetRegs p).variant = s.variant := rfl
@[simp] theorem State.resetRegs_straps (s : State) (p : Nat → Bool) : (s.resetRegs p).straps = s.straps := rfl
@[simp] theorem State.resetRegs_bcp (s : State) (p : Nat → Bool) : (s.resetRegs p).bcp = s.bcp := rfl
@[simp] theorem State.resetRegs_modes (s : State) (p : Nat → Bool) : (s.resetRegs p).modes = s.modes := rfl
@[simp] theorem State.resetRegs_tiles (s : State) (p : Nat → Bool) : (s.resetRegs p).tiles = s.tiles := rfl
@[simp] theorem State.resetRegs_sbx (s : State) (p : Nat → Bool) : (s.resetRegs p).sbx = s.sbx := rfl
@[simp] theorem State.resetRegs_que (s : State) (p : Nat → Bool) : (s.resetRegs p).que = s.que := rfl
@[simp] theorem State.resetRegs_dpt (s : State) (p : Nat → Bool) : (s.resetRegs p).dpt = s.dpt := rfl
@[simp] theorem State.resetRegs_cmp (s : State) (p : Nat → Bool) : (s.resetRegs p).cmp = s.cmp := rfl
@[simp] theorem State.resetRegs_lnk (s : State) (p : Nat → Bool) : (s.resetRegs p).lnk = s.lnk := rfl
@[simp] theorem State.resetRegs_tim (s : State) (p : Nat → Bool) : (s.resetRegs p).tim = s.tim := rfl
@[simp] theorem State.resetRegs_clk (s : State) (p : Nat → Bool) : (s.resetRegs p).clk = s.clk := rfl
@[simp] theorem State.resetRegs_ilk (s : State) (p : Nat → Bool) : (s.resetRegs p).ilk = s.ilk := rfl
@[simp] theorem State.resetRegs_nv (s : State) (p : Nat → Bool) : (s.resetRegs p).nv = s.nv := rfl
@[simp] theorem State.resetRegs_pers (s : State) (p : Nat → Bool) : (s.resetRegs p).pers = s.pers := rfl
@[simp] theorem State.resetRegs_tt (s : State) (p : Nat → Bool) : (s.resetRegs p).tt = s.tt := rfl
@[simp] theorem State.resetRegs_tx (s : State) (p : Nat → Bool) : (s.resetRegs p).tx = s.tx := rfl
@[simp] theorem State.resetRegs_evt (s : State) (p : Nat → Bool) : (s.resetRegs p).evt = s.evt := rfl
@[simp] theorem State.resetRegs_free (s : State) (p : Nat → Bool) : (s.resetRegs p).free = s.free := rfl

/-! ### attendIf -/

@[simp] theorem State.attendIf_pending (s : State) (p : Session → Bool) (b : Nat) : (s.attendIf p b).pending = s.pending := rfl
@[simp] theorem State.attendIf_variant (s : State) (p : Session → Bool) (b : Nat) : (s.attendIf p b).variant = s.variant := rfl
@[simp] theorem State.attendIf_straps (s : State) (p : Session → Bool) (b : Nat) : (s.attendIf p b).straps = s.straps := rfl
@[simp] theorem State.attendIf_regs (s : State) (p : Session → Bool) (b : Nat) : (s.attendIf p b).regs = s.regs := rfl
@[simp] theorem State.attendIf_shadow (s : State) (p : Session → Bool) (b : Nat) : (s.attendIf p b).shadow = s.shadow := rfl
@[simp] theorem State.attendIf_modes (s : State) (p : Session → Bool) (b : Nat) : (s.attendIf p b).modes = s.modes := rfl
@[simp] theorem State.attendIf_tiles (s : State) (p : Session → Bool) (b : Nat) : (s.attendIf p b).tiles = s.tiles := rfl
@[simp] theorem State.attendIf_sbx (s : State) (p : Session → Bool) (b : Nat) : (s.attendIf p b).sbx = s.sbx := rfl
@[simp] theorem State.attendIf_que (s : State) (p : Session → Bool) (b : Nat) : (s.attendIf p b).que = s.que := rfl
@[simp] theorem State.attendIf_dpt (s : State) (p : Session → Bool) (b : Nat) : (s.attendIf p b).dpt = s.dpt := rfl
@[simp] theorem State.attendIf_cmp (s : State) (p : Session → Bool) (b : Nat) : (s.attendIf p b).cmp = s.cmp := rfl
@[simp] theorem State.attendIf_lnk (s : State) (p : Session → Bool) (b : Nat) : (s.attendIf p b).lnk = s.lnk := rfl
@[simp] theorem State.attendIf_tim (s : State) (p : Session → Bool) (b : Nat) : (s.attendIf p b).tim = s.tim := rfl
@[simp] theorem State.attendIf_clk (s : State) (p : Session → Bool) (b : Nat) : (s.attendIf p b).clk = s.clk := rfl
@[simp] theorem State.attendIf_ilk (s : State) (p : Session → Bool) (b : Nat) : (s.attendIf p b).ilk = s.ilk := rfl
@[simp] theorem State.attendIf_nv (s : State) (p : Session → Bool) (b : Nat) : (s.attendIf p b).nv = s.nv := rfl
@[simp] theorem State.attendIf_pers (s : State) (p : Session → Bool) (b : Nat) : (s.attendIf p b).pers = s.pers := rfl
@[simp] theorem State.attendIf_tt (s : State) (p : Session → Bool) (b : Nat) : (s.attendIf p b).tt = s.tt := rfl
@[simp] theorem State.attendIf_tx (s : State) (p : Session → Bool) (b : Nat) : (s.attendIf p b).tx = s.tx := rfl
@[simp] theorem State.attendIf_free (s : State) (p : Session → Bool) (b : Nat) : (s.attendIf p b).free = s.free := rfl
@[simp] theorem State.attendIf_get (s : State) (p : Session → Bool) (b : Nat) (k : Nat) : (s.attendIf p b).get k = s.get k := rfl
@[simp] theorem State.attendIf_fld (s : State) (p : Session → Bool) (b : Nat) (k hi_ lo_ : Nat) : (s.attendIf p b).fld k hi_ lo_ = s.fld k hi_ lo_ := rfl
@[simp] theorem State.attendIf_bit (s : State) (p : Session → Bool) (b : Nat) (k j : Nat) : (s.attendIf p b).bit k j = s.bit k j := rfl

/-! ### attend -/

@[simp] theorem State.attend_pending (s : State) (b : Nat) : (s.attend b).pending = s.pending := rfl
@[simp] theorem State.attend_variant (s : State) (b : Nat) : (s.attend b).variant = s.variant := rfl
@[simp] theorem State.attend_straps (s : State) (b : Nat) : (s.attend b).straps = s.straps := rfl
@[simp] theorem State.attend_regs (s : State) (b : Nat) : (s.attend b).regs = s.regs := rfl
@[simp] theorem State.attend_shadow (s : State) (b : Nat) : (s.attend b).shadow = s.shadow := rfl
@[simp] theorem State.attend_modes (s : State) (b : Nat) : (s.attend b).modes = s.modes := rfl
@[simp] theorem State.attend_tiles (s : State) (b : Nat) : (s.attend b).tiles = s.tiles := rfl
@[simp] theorem State.attend_sbx (s : State) (b : Nat) : (s.attend b).sbx = s.sbx := rfl
@[simp] theorem State.attend_que (s : State) (b : Nat) : (s.attend b).que = s.que := rfl
@[simp] theorem State.attend_dpt (s : State) (b : Nat) : (s.attend b).dpt = s.dpt := rfl
@[simp] theorem State.attend_cmp (s : State) (b : Nat) : (s.attend b).cmp = s.cmp := rfl
@[simp] theorem State.attend_lnk (s : State) (b : Nat) : (s.attend b).lnk = s.lnk := rfl
@[simp] theorem State.attend_tim (s : State) (b : Nat) : (s.attend b).tim = s.tim := rfl
@[simp] theorem State.attend_clk (s : State) (b : Nat) : (s.attend b).clk = s.clk := rfl
@[simp] theorem State.attend_ilk (s : State) (b : Nat) : (s.attend b).ilk = s.ilk := rfl
@[simp] theorem State.attend_nv (s : State) (b : Nat) : (s.attend b).nv = s.nv := rfl
@[simp] theorem State.attend_pers (s : State) (b : Nat) : (s.attend b).pers = s.pers := rfl
@[simp] theorem State.attend_tt (s : State) (b : Nat) : (s.attend b).tt = s.tt := rfl
@[simp] theorem State.attend_tx (s : State) (b : Nat) : (s.attend b).tx = s.tx := rfl
@[simp] theorem State.attend_free (s : State) (b : Nat) : (s.attend b).free = s.free := rfl
@[simp] theorem State.attend_get (s : State) (b : Nat) (k : Nat) : (s.attend b).get k = s.get k := rfl
@[simp] theorem State.attend_fld (s : State) (b : Nat) (k hi_ lo_ : Nat) : (s.attend b).fld k hi_ lo_ = s.fld k hi_ lo_ := rfl
@[simp] theorem State.attend_bit (s : State) (b : Nat) (k j : Nat) : (s.attend b).bit k j = s.bit k j := rfl

/-! ### updSession -/

@[simp] theorem State.updSession_pending (s : State) (id : Word) (f : Session → Session) : (s.updSession id f).pending = s.pending := rfl
@[simp] theorem State.updSession_variant (s : State) (id : Word) (f : Session → Session) : (s.updSession id f).variant = s.variant := rfl
@[simp] theorem State.updSession_straps (s : State) (id : Word) (f : Session → Session) : (s.updSession id f).straps = s.straps := rfl
@[simp] theorem State.updSession_regs (s : State) (id : Word) (f : Session → Session) : (s.updSession id f).regs = s.regs := rfl
@[simp] theorem State.updSession_shadow (s : State) (id : Word) (f : Session → Session) : (s.updSession id f).shadow = s.shadow := rfl
@[simp] theorem State.updSession_modes (s : State) (id : Word) (f : Session → Session) : (s.updSession id f).modes = s.modes := rfl
@[simp] theorem State.updSession_tiles (s : State) (id : Word) (f : Session → Session) : (s.updSession id f).tiles = s.tiles := rfl
@[simp] theorem State.updSession_sbx (s : State) (id : Word) (f : Session → Session) : (s.updSession id f).sbx = s.sbx := rfl
@[simp] theorem State.updSession_que (s : State) (id : Word) (f : Session → Session) : (s.updSession id f).que = s.que := rfl
@[simp] theorem State.updSession_dpt (s : State) (id : Word) (f : Session → Session) : (s.updSession id f).dpt = s.dpt := rfl
@[simp] theorem State.updSession_cmp (s : State) (id : Word) (f : Session → Session) : (s.updSession id f).cmp = s.cmp := rfl
@[simp] theorem State.updSession_lnk (s : State) (id : Word) (f : Session → Session) : (s.updSession id f).lnk = s.lnk := rfl
@[simp] theorem State.updSession_tim (s : State) (id : Word) (f : Session → Session) : (s.updSession id f).tim = s.tim := rfl
@[simp] theorem State.updSession_clk (s : State) (id : Word) (f : Session → Session) : (s.updSession id f).clk = s.clk := rfl
@[simp] theorem State.updSession_ilk (s : State) (id : Word) (f : Session → Session) : (s.updSession id f).ilk = s.ilk := rfl
@[simp] theorem State.updSession_nv (s : State) (id : Word) (f : Session → Session) : (s.updSession id f).nv = s.nv := rfl
@[simp] theorem State.updSession_pers (s : State) (id : Word) (f : Session → Session) : (s.updSession id f).pers = s.pers := rfl
@[simp] theorem State.updSession_tt (s : State) (id : Word) (f : Session → Session) : (s.updSession id f).tt = s.tt := rfl
@[simp] theorem State.updSession_tx (s : State) (id : Word) (f : Session → Session) : (s.updSession id f).tx = s.tx := rfl
@[simp] theorem State.updSession_evt (s : State) (id : Word) (f : Session → Session) : (s.updSession id f).evt = s.evt := rfl
@[simp] theorem State.updSession_free (s : State) (id : Word) (f : Session → Session) : (s.updSession id f).free = s.free := rfl
@[simp] theorem State.updSession_get (s : State) (id : Word) (f : Session → Session) (k : Nat) : (s.updSession id f).get k = s.get k := rfl
@[simp] theorem State.updSession_fld (s : State) (id : Word) (f : Session → Session) (k hi_ lo_ : Nat) : (s.updSession id f).fld k hi_ lo_ = s.fld k hi_ lo_ := rfl
@[simp] theorem State.updSession_bit (s : State) (id : Word) (f : Session → Session) (k j : Nat) : (s.updSession id f).bit k j = s.bit k j := rfl

/-! ### updOpRef -/

@[simp] theorem State.updOpRef_pending (s : State) (o : OpRef) (f : Op → Op) : (s.updOpRef o f).pending = s.pending := rfl
@[simp] theorem State.updOpRef_variant (s : State) (o : OpRef) (f : Op → Op) : (s.updOpRef o f).variant = s.variant := rfl
@[simp] theorem State.updOpRef_straps (s : State) (o : OpRef) (f : Op → Op) : (s.updOpRef o f).straps = s.straps := rfl
@[simp] theorem State.updOpRef_regs (s : State) (o : OpRef) (f : Op → Op) : (s.updOpRef o f).regs = s.regs := rfl
@[simp] theorem State.updOpRef_shadow (s : State) (o : OpRef) (f : Op → Op) : (s.updOpRef o f).shadow = s.shadow := rfl
@[simp] theorem State.updOpRef_modes (s : State) (o : OpRef) (f : Op → Op) : (s.updOpRef o f).modes = s.modes := rfl
@[simp] theorem State.updOpRef_tiles (s : State) (o : OpRef) (f : Op → Op) : (s.updOpRef o f).tiles = s.tiles := rfl
@[simp] theorem State.updOpRef_sbx (s : State) (o : OpRef) (f : Op → Op) : (s.updOpRef o f).sbx = s.sbx := rfl
@[simp] theorem State.updOpRef_que (s : State) (o : OpRef) (f : Op → Op) : (s.updOpRef o f).que = s.que := rfl
@[simp] theorem State.updOpRef_dpt (s : State) (o : OpRef) (f : Op → Op) : (s.updOpRef o f).dpt = s.dpt := rfl
@[simp] theorem State.updOpRef_cmp (s : State) (o : OpRef) (f : Op → Op) : (s.updOpRef o f).cmp = s.cmp := rfl
@[simp] theorem State.updOpRef_lnk (s : State) (o : OpRef) (f : Op → Op) : (s.updOpRef o f).lnk = s.lnk := rfl
@[simp] theorem State.updOpRef_tim (s : State) (o : OpRef) (f : Op → Op) : (s.updOpRef o f).tim = s.tim := rfl
@[simp] theorem State.updOpRef_clk (s : State) (o : OpRef) (f : Op → Op) : (s.updOpRef o f).clk = s.clk := rfl
@[simp] theorem State.updOpRef_ilk (s : State) (o : OpRef) (f : Op → Op) : (s.updOpRef o f).ilk = s.ilk := rfl
@[simp] theorem State.updOpRef_nv (s : State) (o : OpRef) (f : Op → Op) : (s.updOpRef o f).nv = s.nv := rfl
@[simp] theorem State.updOpRef_pers (s : State) (o : OpRef) (f : Op → Op) : (s.updOpRef o f).pers = s.pers := rfl
@[simp] theorem State.updOpRef_tt (s : State) (o : OpRef) (f : Op → Op) : (s.updOpRef o f).tt = s.tt := rfl
@[simp] theorem State.updOpRef_tx (s : State) (o : OpRef) (f : Op → Op) : (s.updOpRef o f).tx = s.tx := rfl
@[simp] theorem State.updOpRef_evt (s : State) (o : OpRef) (f : Op → Op) : (s.updOpRef o f).evt = s.evt := rfl
@[simp] theorem State.updOpRef_free (s : State) (o : OpRef) (f : Op → Op) : (s.updOpRef o f).free = s.free := rfl
@[simp] theorem State.updOpRef_get (s : State) (o : OpRef) (f : Op → Op) (k : Nat) : (s.updOpRef o f).get k = s.get k := rfl
@[simp] theorem State.updOpRef_fld (s : State) (o : OpRef) (f : Op → Op) (k hi_ lo_ : Nat) : (s.updOpRef o f).fld k hi_ lo_ = s.fld k hi_ lo_ := rfl
@[simp] theorem State.updOpRef_bit (s : State) (o : OpRef) (f : Op → Op) (k j : Nat) : (s.updOpRef o f).bit k j = s.bit k j := rfl

/-! ### emit -/

@[simp] theorem State.emit_pending (s : State) (x : Tx) : (s.emit x).pending = s.pending := rfl
@[simp] theorem State.emit_variant (s : State) (x : Tx) : (s.emit x).variant = s.variant := rfl
@[simp] theorem State.emit_straps (s : State) (x : Tx) : (s.emit x).straps = s.straps := rfl
@[simp] theorem State.emit_regs (s : State) (x : Tx) : (s.emit x).regs = s.regs := rfl
@[simp] theorem State.emit_shadow (s : State) (x : Tx) : (s.emit x).shadow = s.shadow := rfl
@[simp] theorem State.emit_bcp (s : State) (x : Tx) : (s.emit x).bcp = s.bcp := rfl
@[simp] theorem State.emit_modes (s : State) (x : Tx) : (s.emit x).modes = s.modes := rfl
@[simp] theorem State.emit_tiles (s : State) (x : Tx) : (s.emit x).tiles = s.tiles := rfl
@[simp] theorem State.emit_sbx (s : State) (x : Tx) : (s.emit x).sbx = s.sbx := rfl
@[simp] theorem State.emit_que (s : State) (x : Tx) : (s.emit x).que = s.que := rfl
@[simp] theorem State.emit_dpt (s : State) (x : Tx) : (s.emit x).dpt = s.dpt := rfl
@[simp] theorem State.emit_cmp (s : State) (x : Tx) : (s.emit x).cmp = s.cmp := rfl
@[simp] theorem State.emit_lnk (s : State) (x : Tx) : (s.emit x).lnk = s.lnk := rfl
@[simp] theorem State.emit_tim (s : State) (x : Tx) : (s.emit x).tim = s.tim := rfl
@[simp] theorem State.emit_clk (s : State) (x : Tx) : (s.emit x).clk = s.clk := rfl
@[simp] theorem State.emit_ilk (s : State) (x : Tx) : (s.emit x).ilk = s.ilk := rfl
@[simp] theorem State.emit_nv (s : State) (x : Tx) : (s.emit x).nv = s.nv := rfl
@[simp] theorem State.emit_pers (s : State) (x : Tx) : (s.emit x).pers = s.pers := rfl
@[simp] theorem State.emit_tt (s : State) (x : Tx) : (s.emit x).tt = s.tt := rfl
@[simp] theorem State.emit_evt (s : State) (x : Tx) : (s.emit x).evt = s.evt := rfl
@[simp] theorem State.emit_free (s : State) (x : Tx) : (s.emit x).free = s.free := rfl
@[simp] theorem State.emit_get (s : State) (x : Tx) (k : Nat) : (s.emit x).get k = s.get k := rfl
@[simp] theorem State.emit_fld (s : State) (x : Tx) (k hi_ lo_ : Nat) : (s.emit x).fld k hi_ lo_ = s.fld k hi_ lo_ := rfl
@[simp] theorem State.emit_bit (s : State) (x : Tx) (k j : Nat) : (s.emit x).bit k j = s.bit k j := rfl

/-! ### updTile -/

@[simp] theorem State.updTile_pending (s : State) (t : Fin 4) (f : TileState → TileState) : (s.updTile t f).pending = s.pending := rfl
@[simp] theorem State.updTile_variant (s : State) (t : Fin 4) (f : TileState → TileState) : (s.updTile t f).variant = s.variant := rfl
@[simp] theorem State.updTile_straps (s : State) (t : Fin 4) (f : TileState → TileState) : (s.updTile t f).straps = s.straps := rfl
@[simp] theorem State.updTile_regs (s : State) (t : Fin 4) (f : TileState → TileState) : (s.updTile t f).regs = s.regs := rfl
@[simp] theorem State.updTile_shadow (s : State) (t : Fin 4) (f : TileState → TileState) : (s.updTile t f).shadow = s.shadow := rfl
@[simp] theorem State.updTile_bcp (s : State) (t : Fin 4) (f : TileState → TileState) : (s.updTile t f).bcp = s.bcp := rfl
@[simp] theorem State.updTile_modes (s : State) (t : Fin 4) (f : TileState → TileState) : (s.updTile t f).modes = s.modes := rfl
@[simp] theorem State.updTile_sbx (s : State) (t : Fin 4) (f : TileState → TileState) : (s.updTile t f).sbx = s.sbx := rfl
@[simp] theorem State.updTile_que (s : State) (t : Fin 4) (f : TileState → TileState) : (s.updTile t f).que = s.que := rfl
@[simp] theorem State.updTile_dpt (s : State) (t : Fin 4) (f : TileState → TileState) : (s.updTile t f).dpt = s.dpt := rfl
@[simp] theorem State.updTile_cmp (s : State) (t : Fin 4) (f : TileState → TileState) : (s.updTile t f).cmp = s.cmp := rfl
@[simp] theorem State.updTile_lnk (s : State) (t : Fin 4) (f : TileState → TileState) : (s.updTile t f).lnk = s.lnk := rfl
@[simp] theorem State.updTile_tim (s : State) (t : Fin 4) (f : TileState → TileState) : (s.updTile t f).tim = s.tim := rfl
@[simp] theorem State.updTile_clk (s : State) (t : Fin 4) (f : TileState → TileState) : (s.updTile t f).clk = s.clk := rfl
@[simp] theorem State.updTile_ilk (s : State) (t : Fin 4) (f : TileState → TileState) : (s.updTile t f).ilk = s.ilk := rfl
@[simp] theorem State.updTile_nv (s : State) (t : Fin 4) (f : TileState → TileState) : (s.updTile t f).nv = s.nv := rfl
@[simp] theorem State.updTile_pers (s : State) (t : Fin 4) (f : TileState → TileState) : (s.updTile t f).pers = s.pers := rfl
@[simp] theorem State.updTile_tt (s : State) (t : Fin 4) (f : TileState → TileState) : (s.updTile t f).tt = s.tt := rfl
@[simp] theorem State.updTile_tx (s : State) (t : Fin 4) (f : TileState → TileState) : (s.updTile t f).tx = s.tx := rfl
@[simp] theorem State.updTile_evt (s : State) (t : Fin 4) (f : TileState → TileState) : (s.updTile t f).evt = s.evt := rfl
@[simp] theorem State.updTile_free (s : State) (t : Fin 4) (f : TileState → TileState) : (s.updTile t f).free = s.free := rfl
@[simp] theorem State.updTile_get (s : State) (t : Fin 4) (f : TileState → TileState) (k : Nat) : (s.updTile t f).get k = s.get k := rfl
@[simp] theorem State.updTile_fld (s : State) (t : Fin 4) (f : TileState → TileState) (k hi_ lo_ : Nat) : (s.updTile t f).fld k hi_ lo_ = s.fld k hi_ lo_ := rfl
@[simp] theorem State.updTile_bit (s : State) (t : Fin 4) (f : TileState → TileState) (k j : Nat) : (s.updTile t f).bit k j = s.bit k j := rfl

/-! ### updRelief -/

@[simp] theorem State.updRelief_pending (s : State) (t : Fin 4) (f : Relief → Relief) : (s.updRelief t f).pending = s.pending := rfl
@[simp] theorem State.updRelief_variant (s : State) (t : Fin 4) (f : Relief → Relief) : (s.updRelief t f).variant = s.variant := rfl
@[simp] theorem State.updRelief_straps (s : State) (t : Fin 4) (f : Relief → Relief) : (s.updRelief t f).straps = s.straps := rfl
@[simp] theorem State.updRelief_regs (s : State) (t : Fin 4) (f : Relief → Relief) : (s.updRelief t f).regs = s.regs := rfl
@[simp] theorem State.updRelief_shadow (s : State) (t : Fin 4) (f : Relief → Relief) : (s.updRelief t f).shadow = s.shadow := rfl
@[simp] theorem State.updRelief_bcp (s : State) (t : Fin 4) (f : Relief → Relief) : (s.updRelief t f).bcp = s.bcp := rfl
@[simp] theorem State.updRelief_modes (s : State) (t : Fin 4) (f : Relief → Relief) : (s.updRelief t f).modes = s.modes := rfl
@[simp] theorem State.updRelief_sbx (s : State) (t : Fin 4) (f : Relief → Relief) : (s.updRelief t f).sbx = s.sbx := rfl
@[simp] theorem State.updRelief_que (s : State) (t : Fin 4) (f : Relief → Relief) : (s.updRelief t f).que = s.que := rfl
@[simp] theorem State.updRelief_dpt (s : State) (t : Fin 4) (f : Relief → Relief) : (s.updRelief t f).dpt = s.dpt := rfl
@[simp] theorem State.updRelief_cmp (s : State) (t : Fin 4) (f : Relief → Relief) : (s.updRelief t f).cmp = s.cmp := rfl
@[simp] theorem State.updRelief_lnk (s : State) (t : Fin 4) (f : Relief → Relief) : (s.updRelief t f).lnk = s.lnk := rfl
@[simp] theorem State.updRelief_tim (s : State) (t : Fin 4) (f : Relief → Relief) : (s.updRelief t f).tim = s.tim := rfl
@[simp] theorem State.updRelief_clk (s : State) (t : Fin 4) (f : Relief → Relief) : (s.updRelief t f).clk = s.clk := rfl
@[simp] theorem State.updRelief_ilk (s : State) (t : Fin 4) (f : Relief → Relief) : (s.updRelief t f).ilk = s.ilk := rfl
@[simp] theorem State.updRelief_nv (s : State) (t : Fin 4) (f : Relief → Relief) : (s.updRelief t f).nv = s.nv := rfl
@[simp] theorem State.updRelief_pers (s : State) (t : Fin 4) (f : Relief → Relief) : (s.updRelief t f).pers = s.pers := rfl
@[simp] theorem State.updRelief_tt (s : State) (t : Fin 4) (f : Relief → Relief) : (s.updRelief t f).tt = s.tt := rfl
@[simp] theorem State.updRelief_tx (s : State) (t : Fin 4) (f : Relief → Relief) : (s.updRelief t f).tx = s.tx := rfl
@[simp] theorem State.updRelief_evt (s : State) (t : Fin 4) (f : Relief → Relief) : (s.updRelief t f).evt = s.evt := rfl
@[simp] theorem State.updRelief_free (s : State) (t : Fin 4) (f : Relief → Relief) : (s.updRelief t f).free = s.free := rfl
@[simp] theorem State.updRelief_get (s : State) (t : Fin 4) (f : Relief → Relief) (k : Nat) : (s.updRelief t f).get k = s.get k := rfl
@[simp] theorem State.updRelief_fld (s : State) (t : Fin 4) (f : Relief → Relief) (k hi_ lo_ : Nat) : (s.updRelief t f).fld k hi_ lo_ = s.fld k hi_ lo_ := rfl
@[simp] theorem State.updRelief_bit (s : State) (t : Fin 4) (f : Relief → Relief) (k j : Nat) : (s.updRelief t f).bit k j = s.bit k j := rfl

/-! ### updProg -/

@[simp] theorem State.updProg_pending (s : State) (p : Fin 8) (f : Prog → Prog) : (s.updProg p f).pending = s.pending := rfl
@[simp] theorem State.updProg_variant (s : State) (p : Fin 8) (f : Prog → Prog) : (s.updProg p f).variant = s.variant := rfl
@[simp] theorem State.updProg_straps (s : State) (p : Fin 8) (f : Prog → Prog) : (s.updProg p f).straps = s.straps := rfl
@[simp] theorem State.updProg_regs (s : State) (p : Fin 8) (f : Prog → Prog) : (s.updProg p f).regs = s.regs := rfl
@[simp] theorem State.updProg_shadow (s : State) (p : Fin 8) (f : Prog → Prog) : (s.updProg p f).shadow = s.shadow := rfl
@[simp] theorem State.updProg_bcp (s : State) (p : Fin 8) (f : Prog → Prog) : (s.updProg p f).bcp = s.bcp := rfl
@[simp] theorem State.updProg_modes (s : State) (p : Fin 8) (f : Prog → Prog) : (s.updProg p f).modes = s.modes := rfl
@[simp] theorem State.updProg_tiles (s : State) (p : Fin 8) (f : Prog → Prog) : (s.updProg p f).tiles = s.tiles := rfl
@[simp] theorem State.updProg_que (s : State) (p : Fin 8) (f : Prog → Prog) : (s.updProg p f).que = s.que := rfl
@[simp] theorem State.updProg_dpt (s : State) (p : Fin 8) (f : Prog → Prog) : (s.updProg p f).dpt = s.dpt := rfl
@[simp] theorem State.updProg_cmp (s : State) (p : Fin 8) (f : Prog → Prog) : (s.updProg p f).cmp = s.cmp := rfl
@[simp] theorem State.updProg_lnk (s : State) (p : Fin 8) (f : Prog → Prog) : (s.updProg p f).lnk = s.lnk := rfl
@[simp] theorem State.updProg_tim (s : State) (p : Fin 8) (f : Prog → Prog) : (s.updProg p f).tim = s.tim := rfl
@[simp] theorem State.updProg_clk (s : State) (p : Fin 8) (f : Prog → Prog) : (s.updProg p f).clk = s.clk := rfl
@[simp] theorem State.updProg_ilk (s : State) (p : Fin 8) (f : Prog → Prog) : (s.updProg p f).ilk = s.ilk := rfl
@[simp] theorem State.updProg_nv (s : State) (p : Fin 8) (f : Prog → Prog) : (s.updProg p f).nv = s.nv := rfl
@[simp] theorem State.updProg_pers (s : State) (p : Fin 8) (f : Prog → Prog) : (s.updProg p f).pers = s.pers := rfl
@[simp] theorem State.updProg_tt (s : State) (p : Fin 8) (f : Prog → Prog) : (s.updProg p f).tt = s.tt := rfl
@[simp] theorem State.updProg_tx (s : State) (p : Fin 8) (f : Prog → Prog) : (s.updProg p f).tx = s.tx := rfl
@[simp] theorem State.updProg_evt (s : State) (p : Fin 8) (f : Prog → Prog) : (s.updProg p f).evt = s.evt := rfl
@[simp] theorem State.updProg_free (s : State) (p : Fin 8) (f : Prog → Prog) : (s.updProg p f).free = s.free := rfl
@[simp] theorem State.updProg_get (s : State) (p : Fin 8) (f : Prog → Prog) (k : Nat) : (s.updProg p f).get k = s.get k := rfl
@[simp] theorem State.updProg_fld (s : State) (p : Fin 8) (f : Prog → Prog) (k hi_ lo_ : Nat) : (s.updProg p f).fld k hi_ lo_ = s.fld k hi_ lo_ := rfl
@[simp] theorem State.updProg_bit (s : State) (p : Fin 8) (f : Prog → Prog) (k j : Nat) : (s.updProg p f).bit k j = s.bit k j := rfl

/-! ### withTim -/

@[simp] theorem State.withTim_pending (s : State) (f : Tim → Tim) : (s.withTim f).pending = s.pending := rfl
@[simp] theorem State.withTim_variant (s : State) (f : Tim → Tim) : (s.withTim f).variant = s.variant := rfl
@[simp] theorem State.withTim_straps (s : State) (f : Tim → Tim) : (s.withTim f).straps = s.straps := rfl
@[simp] theorem State.withTim_regs (s : State) (f : Tim → Tim) : (s.withTim f).regs = s.regs := rfl
@[simp] theorem State.withTim_shadow (s : State) (f : Tim → Tim) : (s.withTim f).shadow = s.shadow := rfl
@[simp] theorem State.withTim_bcp (s : State) (f : Tim → Tim) : (s.withTim f).bcp = s.bcp := rfl
@[simp] theorem State.withTim_modes (s : State) (f : Tim → Tim) : (s.withTim f).modes = s.modes := rfl
@[simp] theorem State.withTim_tiles (s : State) (f : Tim → Tim) : (s.withTim f).tiles = s.tiles := rfl
@[simp] theorem State.withTim_sbx (s : State) (f : Tim → Tim) : (s.withTim f).sbx = s.sbx := rfl
@[simp] theorem State.withTim_que (s : State) (f : Tim → Tim) : (s.withTim f).que = s.que := rfl
@[simp] theorem State.withTim_dpt (s : State) (f : Tim → Tim) : (s.withTim f).dpt = s.dpt := rfl
@[simp] theorem State.withTim_cmp (s : State) (f : Tim → Tim) : (s.withTim f).cmp = s.cmp := rfl
@[simp] theorem State.withTim_lnk (s : State) (f : Tim → Tim) : (s.withTim f).lnk = s.lnk := rfl
@[simp] theorem State.withTim_clk (s : State) (f : Tim → Tim) : (s.withTim f).clk = s.clk := rfl
@[simp] theorem State.withTim_ilk (s : State) (f : Tim → Tim) : (s.withTim f).ilk = s.ilk := rfl
@[simp] theorem State.withTim_nv (s : State) (f : Tim → Tim) : (s.withTim f).nv = s.nv := rfl
@[simp] theorem State.withTim_pers (s : State) (f : Tim → Tim) : (s.withTim f).pers = s.pers := rfl
@[simp] theorem State.withTim_tt (s : State) (f : Tim → Tim) : (s.withTim f).tt = s.tt := rfl
@[simp] theorem State.withTim_tx (s : State) (f : Tim → Tim) : (s.withTim f).tx = s.tx := rfl
@[simp] theorem State.withTim_evt (s : State) (f : Tim → Tim) : (s.withTim f).evt = s.evt := rfl
@[simp] theorem State.withTim_free (s : State) (f : Tim → Tim) : (s.withTim f).free = s.free := rfl
@[simp] theorem State.withTim_get (s : State) (f : Tim → Tim) (k : Nat) : (s.withTim f).get k = s.get k := rfl
@[simp] theorem State.withTim_fld (s : State) (f : Tim → Tim) (k hi_ lo_ : Nat) : (s.withTim f).fld k hi_ lo_ = s.fld k hi_ lo_ := rfl
@[simp] theorem State.withTim_bit (s : State) (f : Tim → Tim) (k j : Nat) : (s.withTim f).bit k j = s.bit k j := rfl

/-! ### withDpt -/

@[simp] theorem State.withDpt_pending (s : State) (f : Depot → Depot) : (s.withDpt f).pending = s.pending := rfl
@[simp] theorem State.withDpt_variant (s : State) (f : Depot → Depot) : (s.withDpt f).variant = s.variant := rfl
@[simp] theorem State.withDpt_straps (s : State) (f : Depot → Depot) : (s.withDpt f).straps = s.straps := rfl
@[simp] theorem State.withDpt_regs (s : State) (f : Depot → Depot) : (s.withDpt f).regs = s.regs := rfl
@[simp] theorem State.withDpt_shadow (s : State) (f : Depot → Depot) : (s.withDpt f).shadow = s.shadow := rfl
@[simp] theorem State.withDpt_bcp (s : State) (f : Depot → Depot) : (s.withDpt f).bcp = s.bcp := rfl
@[simp] theorem State.withDpt_modes (s : State) (f : Depot → Depot) : (s.withDpt f).modes = s.modes := rfl
@[simp] theorem State.withDpt_tiles (s : State) (f : Depot → Depot) : (s.withDpt f).tiles = s.tiles := rfl
@[simp] theorem State.withDpt_sbx (s : State) (f : Depot → Depot) : (s.withDpt f).sbx = s.sbx := rfl
@[simp] theorem State.withDpt_que (s : State) (f : Depot → Depot) : (s.withDpt f).que = s.que := rfl
@[simp] theorem State.withDpt_cmp (s : State) (f : Depot → Depot) : (s.withDpt f).cmp = s.cmp := rfl
@[simp] theorem State.withDpt_lnk (s : State) (f : Depot → Depot) : (s.withDpt f).lnk = s.lnk := rfl
@[simp] theorem State.withDpt_tim (s : State) (f : Depot → Depot) : (s.withDpt f).tim = s.tim := rfl
@[simp] theorem State.withDpt_clk (s : State) (f : Depot → Depot) : (s.withDpt f).clk = s.clk := rfl
@[simp] theorem State.withDpt_ilk (s : State) (f : Depot → Depot) : (s.withDpt f).ilk = s.ilk := rfl
@[simp] theorem State.withDpt_nv (s : State) (f : Depot → Depot) : (s.withDpt f).nv = s.nv := rfl
@[simp] theorem State.withDpt_pers (s : State) (f : Depot → Depot) : (s.withDpt f).pers = s.pers := rfl
@[simp] theorem State.withDpt_tt (s : State) (f : Depot → Depot) : (s.withDpt f).tt = s.tt := rfl
@[simp] theorem State.withDpt_tx (s : State) (f : Depot → Depot) : (s.withDpt f).tx = s.tx := rfl
@[simp] theorem State.withDpt_evt (s : State) (f : Depot → Depot) : (s.withDpt f).evt = s.evt := rfl
@[simp] theorem State.withDpt_free (s : State) (f : Depot → Depot) : (s.withDpt f).free = s.free := rfl
@[simp] theorem State.withDpt_get (s : State) (f : Depot → Depot) (k : Nat) : (s.withDpt f).get k = s.get k := rfl
@[simp] theorem State.withDpt_fld (s : State) (f : Depot → Depot) (k hi_ lo_ : Nat) : (s.withDpt f).fld k hi_ lo_ = s.fld k hi_ lo_ := rfl
@[simp] theorem State.withDpt_bit (s : State) (f : Depot → Depot) (k j : Nat) : (s.withDpt f).bit k j = s.bit k j := rfl

/-! ### withLnk -/

@[simp] theorem State.withLnk_pending (s : State) (f : Lnk → Lnk) : (s.withLnk f).pending = s.pending := rfl
@[simp] theorem State.withLnk_variant (s : State) (f : Lnk → Lnk) : (s.withLnk f).variant = s.variant := rfl
@[simp] theorem State.withLnk_straps (s : State) (f : Lnk → Lnk) : (s.withLnk f).straps = s.straps := rfl
@[simp] theorem State.withLnk_regs (s : State) (f : Lnk → Lnk) : (s.withLnk f).regs = s.regs := rfl
@[simp] theorem State.withLnk_shadow (s : State) (f : Lnk → Lnk) : (s.withLnk f).shadow = s.shadow := rfl
@[simp] theorem State.withLnk_bcp (s : State) (f : Lnk → Lnk) : (s.withLnk f).bcp = s.bcp := rfl
@[simp] theorem State.withLnk_modes (s : State) (f : Lnk → Lnk) : (s.withLnk f).modes = s.modes := rfl
@[simp] theorem State.withLnk_tiles (s : State) (f : Lnk → Lnk) : (s.withLnk f).tiles = s.tiles := rfl
@[simp] theorem State.withLnk_sbx (s : State) (f : Lnk → Lnk) : (s.withLnk f).sbx = s.sbx := rfl
@[simp] theorem State.withLnk_que (s : State) (f : Lnk → Lnk) : (s.withLnk f).que = s.que := rfl
@[simp] theorem State.withLnk_dpt (s : State) (f : Lnk → Lnk) : (s.withLnk f).dpt = s.dpt := rfl
@[simp] theorem State.withLnk_cmp (s : State) (f : Lnk → Lnk) : (s.withLnk f).cmp = s.cmp := rfl
@[simp] theorem State.withLnk_tim (s : State) (f : Lnk → Lnk) : (s.withLnk f).tim = s.tim := rfl
@[simp] theorem State.withLnk_clk (s : State) (f : Lnk → Lnk) : (s.withLnk f).clk = s.clk := rfl
@[simp] theorem State.withLnk_ilk (s : State) (f : Lnk → Lnk) : (s.withLnk f).ilk = s.ilk := rfl
@[simp] theorem State.withLnk_nv (s : State) (f : Lnk → Lnk) : (s.withLnk f).nv = s.nv := rfl
@[simp] theorem State.withLnk_pers (s : State) (f : Lnk → Lnk) : (s.withLnk f).pers = s.pers := rfl
@[simp] theorem State.withLnk_tt (s : State) (f : Lnk → Lnk) : (s.withLnk f).tt = s.tt := rfl
@[simp] theorem State.withLnk_tx (s : State) (f : Lnk → Lnk) : (s.withLnk f).tx = s.tx := rfl
@[simp] theorem State.withLnk_evt (s : State) (f : Lnk → Lnk) : (s.withLnk f).evt = s.evt := rfl
@[simp] theorem State.withLnk_free (s : State) (f : Lnk → Lnk) : (s.withLnk f).free = s.free := rfl
@[simp] theorem State.withLnk_get (s : State) (f : Lnk → Lnk) (k : Nat) : (s.withLnk f).get k = s.get k := rfl
@[simp] theorem State.withLnk_fld (s : State) (f : Lnk → Lnk) (k hi_ lo_ : Nat) : (s.withLnk f).fld k hi_ lo_ = s.fld k hi_ lo_ := rfl
@[simp] theorem State.withLnk_bit (s : State) (f : Lnk → Lnk) (k j : Nat) : (s.withLnk f).bit k j = s.bit k j := rfl

/-! ### withCmp -/

@[simp] theorem State.withCmp_pending (s : State) (f : Cmp → Cmp) : (s.withCmp f).pending = s.pending := rfl
@[simp] theorem State.withCmp_variant (s : State) (f : Cmp → Cmp) : (s.withCmp f).variant = s.variant := rfl
@[simp] theorem State.withCmp_straps (s : State) (f : Cmp → Cmp) : (s.withCmp f).straps = s.straps := rfl
@[simp] theorem State.withCmp_regs (s : State) (f : Cmp → Cmp) : (s.withCmp f).regs = s.regs := rfl
@[simp] theorem State.withCmp_shadow (s : State) (f : Cmp → Cmp) : (s.withCmp f).shadow = s.shadow := rfl
@[simp] theorem State.withCmp_bcp (s : State) (f : Cmp → Cmp) : (s.withCmp f).bcp = s.bcp := rfl
@[simp] theorem State.withCmp_modes (s : State) (f : Cmp → Cmp) : (s.withCmp f).modes = s.modes := rfl
@[simp] theorem State.withCmp_tiles (s : State) (f : Cmp → Cmp) : (s.withCmp f).tiles = s.tiles := rfl
@[simp] theorem State.withCmp_sbx (s : State) (f : Cmp → Cmp) : (s.withCmp f).sbx = s.sbx := rfl
@[simp] theorem State.withCmp_que (s : State) (f : Cmp → Cmp) : (s.withCmp f).que = s.que := rfl
@[simp] theorem State.withCmp_dpt (s : State) (f : Cmp → Cmp) : (s.withCmp f).dpt = s.dpt := rfl
@[simp] theorem State.withCmp_lnk (s : State) (f : Cmp → Cmp) : (s.withCmp f).lnk = s.lnk := rfl
@[simp] theorem State.withCmp_tim (s : State) (f : Cmp → Cmp) : (s.withCmp f).tim = s.tim := rfl
@[simp] theorem State.withCmp_clk (s : State) (f : Cmp → Cmp) : (s.withCmp f).clk = s.clk := rfl
@[simp] theorem State.withCmp_ilk (s : State) (f : Cmp → Cmp) : (s.withCmp f).ilk = s.ilk := rfl
@[simp] theorem State.withCmp_nv (s : State) (f : Cmp → Cmp) : (s.withCmp f).nv = s.nv := rfl
@[simp] theorem State.withCmp_pers (s : State) (f : Cmp → Cmp) : (s.withCmp f).pers = s.pers := rfl
@[simp] theorem State.withCmp_tt (s : State) (f : Cmp → Cmp) : (s.withCmp f).tt = s.tt := rfl
@[simp] theorem State.withCmp_tx (s : State) (f : Cmp → Cmp) : (s.withCmp f).tx = s.tx := rfl
@[simp] theorem State.withCmp_evt (s : State) (f : Cmp → Cmp) : (s.withCmp f).evt = s.evt := rfl
@[simp] theorem State.withCmp_free (s : State) (f : Cmp → Cmp) : (s.withCmp f).free = s.free := rfl
@[simp] theorem State.withCmp_get (s : State) (f : Cmp → Cmp) (k : Nat) : (s.withCmp f).get k = s.get k := rfl
@[simp] theorem State.withCmp_fld (s : State) (f : Cmp → Cmp) (k hi_ lo_ : Nat) : (s.withCmp f).fld k hi_ lo_ = s.fld k hi_ lo_ := rfl
@[simp] theorem State.withCmp_bit (s : State) (f : Cmp → Cmp) (k j : Nat) : (s.withCmp f).bit k j = s.bit k j := rfl

/-! ### withModes -/

@[simp] theorem State.withModes_pending (s : State) (f : Modes → Modes) : (s.withModes f).pending = s.pending := rfl
@[simp] theorem State.withModes_variant (s : State) (f : Modes → Modes) : (s.withModes f).variant = s.variant := rfl
@[simp] theorem State.withModes_straps (s : State) (f : Modes → Modes) : (s.withModes f).straps = s.straps := rfl
@[simp] theorem State.withModes_regs (s : State) (f : Modes → Modes) : (s.withModes f).regs = s.regs := rfl
@[simp] theorem State.withModes_shadow (s : State) (f : Modes → Modes) : (s.withModes f).shadow = s.shadow := rfl
@[simp] theorem State.withModes_bcp (s : State) (f : Modes → Modes) : (s.withModes f).bcp = s.bcp := rfl
@[simp] theorem State.withModes_tiles (s : State) (f : Modes → Modes) : (s.withModes f).tiles = s.tiles := rfl
@[simp] theorem State.withModes_sbx (s : State) (f : Modes → Modes) : (s.withModes f).sbx = s.sbx := rfl
@[simp] theorem State.withModes_que (s : State) (f : Modes → Modes) : (s.withModes f).que = s.que := rfl
@[simp] theorem State.withModes_dpt (s : State) (f : Modes → Modes) : (s.withModes f).dpt = s.dpt := rfl
@[simp] theorem State.withModes_cmp (s : State) (f : Modes → Modes) : (s.withModes f).cmp = s.cmp := rfl
@[simp] theorem State.withModes_lnk (s : State) (f : Modes → Modes) : (s.withModes f).lnk = s.lnk := rfl
@[simp] theorem State.withModes_tim (s : State) (f : Modes → Modes) : (s.withModes f).tim = s.tim := rfl
@[simp] theorem State.withModes_clk (s : State) (f : Modes → Modes) : (s.withModes f).clk = s.clk := rfl
@[simp] theorem State.withModes_ilk (s : State) (f : Modes → Modes) : (s.withModes f).ilk = s.ilk := rfl
@[simp] theorem State.withModes_nv (s : State) (f : Modes → Modes) : (s.withModes f).nv = s.nv := rfl
@[simp] theorem State.withModes_pers (s : State) (f : Modes → Modes) : (s.withModes f).pers = s.pers := rfl
@[simp] theorem State.withModes_tt (s : State) (f : Modes → Modes) : (s.withModes f).tt = s.tt := rfl
@[simp] theorem State.withModes_tx (s : State) (f : Modes → Modes) : (s.withModes f).tx = s.tx := rfl
@[simp] theorem State.withModes_evt (s : State) (f : Modes → Modes) : (s.withModes f).evt = s.evt := rfl
@[simp] theorem State.withModes_free (s : State) (f : Modes → Modes) : (s.withModes f).free = s.free := rfl
@[simp] theorem State.withModes_get (s : State) (f : Modes → Modes) (k : Nat) : (s.withModes f).get k = s.get k := rfl
@[simp] theorem State.withModes_fld (s : State) (f : Modes → Modes) (k hi_ lo_ : Nat) : (s.withModes f).fld k hi_ lo_ = s.fld k hi_ lo_ := rfl
@[simp] theorem State.withModes_bit (s : State) (f : Modes → Modes) (k j : Nat) : (s.withModes f).bit k j = s.bit k j := rfl

/-! ### withTt -/

@[simp] theorem State.withTt_pending (s : State) (f : Timetable → Timetable) : (s.withTt f).pending = s.pending := rfl
@[simp] theorem State.withTt_variant (s : State) (f : Timetable → Timetable) : (s.withTt f).variant = s.variant := rfl
@[simp] theorem State.withTt_straps (s : State) (f : Timetable → Timetable) : (s.withTt f).straps = s.straps := rfl
@[simp] theorem State.withTt_regs (s : State) (f : Timetable → Timetable) : (s.withTt f).regs = s.regs := rfl
@[simp] theorem State.withTt_shadow (s : State) (f : Timetable → Timetable) : (s.withTt f).shadow = s.shadow := rfl
@[simp] theorem State.withTt_bcp (s : State) (f : Timetable → Timetable) : (s.withTt f).bcp = s.bcp := rfl
@[simp] theorem State.withTt_modes (s : State) (f : Timetable → Timetable) : (s.withTt f).modes = s.modes := rfl
@[simp] theorem State.withTt_tiles (s : State) (f : Timetable → Timetable) : (s.withTt f).tiles = s.tiles := rfl
@[simp] theorem State.withTt_sbx (s : State) (f : Timetable → Timetable) : (s.withTt f).sbx = s.sbx := rfl
@[simp] theorem State.withTt_que (s : State) (f : Timetable → Timetable) : (s.withTt f).que = s.que := rfl
@[simp] theorem State.withTt_dpt (s : State) (f : Timetable → Timetable) : (s.withTt f).dpt = s.dpt := rfl
@[simp] theorem State.withTt_cmp (s : State) (f : Timetable → Timetable) : (s.withTt f).cmp = s.cmp := rfl
@[simp] theorem State.withTt_lnk (s : State) (f : Timetable → Timetable) : (s.withTt f).lnk = s.lnk := rfl
@[simp] theorem State.withTt_tim (s : State) (f : Timetable → Timetable) : (s.withTt f).tim = s.tim := rfl
@[simp] theorem State.withTt_clk (s : State) (f : Timetable → Timetable) : (s.withTt f).clk = s.clk := rfl
@[simp] theorem State.withTt_ilk (s : State) (f : Timetable → Timetable) : (s.withTt f).ilk = s.ilk := rfl
@[simp] theorem State.withTt_nv (s : State) (f : Timetable → Timetable) : (s.withTt f).nv = s.nv := rfl
@[simp] theorem State.withTt_pers (s : State) (f : Timetable → Timetable) : (s.withTt f).pers = s.pers := rfl
@[simp] theorem State.withTt_tx (s : State) (f : Timetable → Timetable) : (s.withTt f).tx = s.tx := rfl
@[simp] theorem State.withTt_evt (s : State) (f : Timetable → Timetable) : (s.withTt f).evt = s.evt := rfl
@[simp] theorem State.withTt_free (s : State) (f : Timetable → Timetable) : (s.withTt f).free = s.free := rfl
@[simp] theorem State.withTt_get (s : State) (f : Timetable → Timetable) (k : Nat) : (s.withTt f).get k = s.get k := rfl
@[simp] theorem State.withTt_fld (s : State) (f : Timetable → Timetable) (k hi_ lo_ : Nat) : (s.withTt f).fld k hi_ lo_ = s.fld k hi_ lo_ := rfl
@[simp] theorem State.withTt_bit (s : State) (f : Timetable → Timetable) (k j : Nat) : (s.withTt f).bit k j = s.bit k j := rfl

/-! ### takeFree -/

@[simp] theorem State.takeFree_pending (s : State) : (s.takeFree.2).pending = s.pending := rfl
@[simp] theorem State.takeFree_variant (s : State) : (s.takeFree.2).variant = s.variant := rfl
@[simp] theorem State.takeFree_straps (s : State) : (s.takeFree.2).straps = s.straps := rfl
@[simp] theorem State.takeFree_regs (s : State) : (s.takeFree.2).regs = s.regs := rfl
@[simp] theorem State.takeFree_shadow (s : State) : (s.takeFree.2).shadow = s.shadow := rfl
@[simp] theorem State.takeFree_bcp (s : State) : (s.takeFree.2).bcp = s.bcp := rfl
@[simp] theorem State.takeFree_modes (s : State) : (s.takeFree.2).modes = s.modes := rfl
@[simp] theorem State.takeFree_tiles (s : State) : (s.takeFree.2).tiles = s.tiles := rfl
@[simp] theorem State.takeFree_sbx (s : State) : (s.takeFree.2).sbx = s.sbx := rfl
@[simp] theorem State.takeFree_que (s : State) : (s.takeFree.2).que = s.que := rfl
@[simp] theorem State.takeFree_dpt (s : State) : (s.takeFree.2).dpt = s.dpt := rfl
@[simp] theorem State.takeFree_cmp (s : State) : (s.takeFree.2).cmp = s.cmp := rfl
@[simp] theorem State.takeFree_lnk (s : State) : (s.takeFree.2).lnk = s.lnk := rfl
@[simp] theorem State.takeFree_tim (s : State) : (s.takeFree.2).tim = s.tim := rfl
@[simp] theorem State.takeFree_clk (s : State) : (s.takeFree.2).clk = s.clk := rfl
@[simp] theorem State.takeFree_ilk (s : State) : (s.takeFree.2).ilk = s.ilk := rfl
@[simp] theorem State.takeFree_nv (s : State) : (s.takeFree.2).nv = s.nv := rfl
@[simp] theorem State.takeFree_pers (s : State) : (s.takeFree.2).pers = s.pers := rfl
@[simp] theorem State.takeFree_tt (s : State) : (s.takeFree.2).tt = s.tt := rfl
@[simp] theorem State.takeFree_tx (s : State) : (s.takeFree.2).tx = s.tx := rfl
@[simp] theorem State.takeFree_evt (s : State) : (s.takeFree.2).evt = s.evt := rfl
@[simp] theorem State.takeFree_get (s : State) (k : Nat) : (s.takeFree.2).get k = s.get k := rfl
@[simp] theorem State.takeFree_fld (s : State) (k hi_ lo_ : Nat) : (s.takeFree.2).fld k hi_ lo_ = s.fld k hi_ lo_ := rfl
@[simp] theorem State.takeFree_bit (s : State) (k j : Nat) : (s.takeFree.2).bit k j = s.bit k j := rfl

/-! ### keeping, queueOf: the shell of a meaning -/

@[simp] theorem State.keeping_pending (old s : State) : (State.keeping old s).pending = old.pending := rfl
@[simp] theorem State.keeping_variant (old s : State) : (State.keeping old s).variant = s.variant := rfl
@[simp] theorem State.keeping_straps (old s : State) : (State.keeping old s).straps = s.straps := rfl
@[simp] theorem State.keeping_regs (old s : State) : (State.keeping old s).regs = s.regs := rfl
@[simp] theorem State.keeping_shadow (old s : State) : (State.keeping old s).shadow = s.shadow := rfl
@[simp] theorem State.keeping_bcp (old s : State) : (State.keeping old s).bcp = s.bcp := rfl
@[simp] theorem State.keeping_modes (old s : State) : (State.keeping old s).modes = s.modes := rfl
@[simp] theorem State.keeping_tiles (old s : State) : (State.keeping old s).tiles = s.tiles := rfl
@[simp] theorem State.keeping_sbx (old s : State) : (State.keeping old s).sbx = s.sbx := rfl
@[simp] theorem State.keeping_que (old s : State) : (State.keeping old s).que = s.que := rfl
@[simp] theorem State.keeping_dpt (old s : State) : (State.keeping old s).dpt = s.dpt := rfl
@[simp] theorem State.keeping_cmp (old s : State) : (State.keeping old s).cmp = s.cmp := rfl
@[simp] theorem State.keeping_lnk (old s : State) : (State.keeping old s).lnk = s.lnk := rfl
@[simp] theorem State.keeping_tim (old s : State) : (State.keeping old s).tim = s.tim := rfl
@[simp] theorem State.keeping_clk (old s : State) : (State.keeping old s).clk = s.clk := rfl
@[simp] theorem State.keeping_ilk (old s : State) : (State.keeping old s).ilk = s.ilk := rfl
@[simp] theorem State.keeping_nv (old s : State) : (State.keeping old s).nv = old.nv := rfl
@[simp] theorem State.keeping_pers (old s : State) : (State.keeping old s).pers = s.pers := rfl
@[simp] theorem State.keeping_tt (old s : State) : (State.keeping old s).tt = s.tt := rfl
@[simp] theorem State.keeping_tx (old s : State) : (State.keeping old s).tx = s.tx := rfl
@[simp] theorem State.keeping_evt (old s : State) : (State.keeping old s).evt = s.evt := rfl
@[simp] theorem State.keeping_free (old s : State) : (State.keeping old s).free = s.free := rfl
@[simp] theorem State.keeping_get (old s : State) (k : Nat) : (State.keeping old s).get k = s.get k := rfl
@[simp] theorem State.keeping_fld (old s : State) (k hi_ lo_ : Nat) : (State.keeping old s).fld k hi_ lo_ = s.fld k hi_ lo_ := rfl
@[simp] theorem State.keeping_bit (old s : State) (k j : Nat) : (State.keeping old s).bit k j = s.bit k j := rfl
@[simp] theorem State.queueOf_pending (old s : State) : (State.queueOf old s).pending = old.pending := rfl
@[simp] theorem State.queueOf_variant (old s : State) : (State.queueOf old s).variant = s.variant := rfl
@[simp] theorem State.queueOf_straps (old s : State) : (State.queueOf old s).straps = s.straps := rfl
@[simp] theorem State.queueOf_regs (old s : State) : (State.queueOf old s).regs = s.regs := rfl
@[simp] theorem State.queueOf_shadow (old s : State) : (State.queueOf old s).shadow = s.shadow := rfl
@[simp] theorem State.queueOf_bcp (old s : State) : (State.queueOf old s).bcp = s.bcp := rfl
@[simp] theorem State.queueOf_modes (old s : State) : (State.queueOf old s).modes = s.modes := rfl
@[simp] theorem State.queueOf_tiles (old s : State) : (State.queueOf old s).tiles = s.tiles := rfl
@[simp] theorem State.queueOf_sbx (old s : State) : (State.queueOf old s).sbx = s.sbx := rfl
@[simp] theorem State.queueOf_que (old s : State) : (State.queueOf old s).que = s.que := rfl
@[simp] theorem State.queueOf_dpt (old s : State) : (State.queueOf old s).dpt = s.dpt := rfl
@[simp] theorem State.queueOf_cmp (old s : State) : (State.queueOf old s).cmp = s.cmp := rfl
@[simp] theorem State.queueOf_lnk (old s : State) : (State.queueOf old s).lnk = s.lnk := rfl
@[simp] theorem State.queueOf_tim (old s : State) : (State.queueOf old s).tim = s.tim := rfl
@[simp] theorem State.queueOf_clk (old s : State) : (State.queueOf old s).clk = s.clk := rfl
@[simp] theorem State.queueOf_ilk (old s : State) : (State.queueOf old s).ilk = s.ilk := rfl
@[simp] theorem State.queueOf_nv (old s : State) : (State.queueOf old s).nv = s.nv := rfl
@[simp] theorem State.queueOf_pers (old s : State) : (State.queueOf old s).pers = s.pers := rfl
@[simp] theorem State.queueOf_tt (old s : State) : (State.queueOf old s).tt = s.tt := rfl
@[simp] theorem State.queueOf_tx (old s : State) : (State.queueOf old s).tx = s.tx := rfl
@[simp] theorem State.queueOf_evt (old s : State) : (State.queueOf old s).evt = s.evt := rfl
@[simp] theorem State.queueOf_free (old s : State) : (State.queueOf old s).free = s.free := rfl
@[simp] theorem State.queueOf_get (old s : State) (k : Nat) : (State.queueOf old s).get k = s.get k := rfl
@[simp] theorem State.queueOf_fld (old s : State) (k hi_ lo_ : Nat) : (State.queueOf old s).fld k hi_ lo_ = s.fld k hi_ lo_ := rfl
@[simp] theorem State.queueOf_bit (old s : State) (k j : Nat) : (State.queueOf old s).bit k j = s.bit k j := rfl

/-! ### What an update sets -/

@[simp] theorem State.withTim_tim (s : State) (f : Tim → Tim) : (s.withTim f).tim = f s.tim := rfl
@[simp] theorem State.withDpt_dpt (s : State) (f : Depot → Depot) : (s.withDpt f).dpt = f s.dpt := rfl
@[simp] theorem State.withLnk_lnk (s : State) (f : Lnk → Lnk) : (s.withLnk f).lnk = f s.lnk := rfl
@[simp] theorem State.withCmp_cmp (s : State) (f : Cmp → Cmp) : (s.withCmp f).cmp = f s.cmp := rfl
@[simp] theorem State.withModes_modes (s : State) (f : Modes → Modes) : (s.withModes f).modes = f s.modes := rfl
@[simp] theorem State.withTt_tt (s : State) (f : Timetable → Timetable) : (s.withTt f).tt = f s.tt := rfl
@[simp] theorem State.emit_tx (s : State) (x : Tx) : (s.emit x).tx = s.tx ++ [x] := rfl
@[simp] theorem State.takeFree_free (s : State) : s.takeFree.2.free = s.free + 1 := rfl
@[simp] theorem State.takeFree_index (s : State) : s.takeFree.1 = s.free := rfl

@[simp] theorem upd_get_same {α : Type} {n : Nat} (v : Vector α n) (i : Fin n) (f : α → α) :
    (upd v i f).get i = f (v.get i) := by
  show (v.set i (f (v.get i)))[(i : Nat)] = f (v.get i)
  simp

theorem upd_get_ne {α : Type} {n : Nat} (v : Vector α n) (i j : Fin n) (f : α → α) (h : j ≠ i) :
    (upd v i f).get j = v.get j := by
  have h' : (i : Nat) ≠ j := fun e => h (Fin.ext e.symm)
  show (v.set i (f (v.get i)))[(j : Nat)] = v[(j : Nat)]
  simp [h']

@[simp] theorem State.updTile_tile_same (s : State) (t : Fin 4) (f : TileState → TileState) :
    (s.updTile t f).tile t = f (s.tile t) := by
  simp [State.updTile, State.tile]

theorem State.updTile_tile_ne (s : State) (t u : Fin 4) (f : TileState → TileState) (h : u ≠ t) :
    (s.updTile t f).tile u = s.tile u := by
  simp [State.updTile, State.tile, upd_get_ne _ _ _ _ h]

@[simp] theorem State.updRelief_relief_same (s : State) (t : Fin 4) (f : Relief → Relief) :
    (s.updRelief t f).relief t = f (s.relief t) := by
  simp [State.updRelief, State.relief]

theorem State.updRelief_relief_ne (s : State) (t u : Fin 4) (f : Relief → Relief) (h : u ≠ t) :
    (s.updRelief t f).relief u = s.relief u := by
  simp [State.updRelief, State.relief, State.updTile_tile_ne _ _ _ _ h]

@[simp] theorem State.updProg_progs_same (s : State) (p : Fin 8) (f : Prog → Prog) :
    (s.updProg p f).sbx.progs.get p = f (s.sbx.progs.get p) := by
  simp [State.updProg]

/-! ### Registers after a write -/

@[simp] theorem State.get_set_same (s : State) (a : Nat) (w : Word) : (s.set a w).get a = w := by
  simp [State.set, State.get]

theorem State.get_set_ne (s : State) (a k : Nat) (w : Word) (h : k ≠ a) : (s.set a w).get k = s.get k := by
  simp [State.set, State.get, RegMap.find_put_ne _ _ _ _ h]

@[simp] theorem State.get_setFld_same (s : State) (a hi lo x : Nat) :
    (s.setFld a hi lo x).get a = putBits (s.get a) hi lo x := by
  simp [State.setFld]

theorem State.get_setFld_ne (s : State) (a hi lo x k : Nat) (h : k ≠ a) : (s.setFld a hi lo x).get k = s.get k := by
  simp [State.setFld, State.get_set_ne _ _ _ _ h]

@[simp] theorem State.fld_setFld_same (s : State) (a hi lo x : Nat) (h : hi < 32) :
    (s.setFld a hi lo x).fld a hi lo = x % 2 ^ (hi + 1 - lo) := by
  simp [State.fld, h]

theorem State.fld_setFld_apart (s : State) (a hi lo x hi' lo' : Nat) (h : hi < 32) (hd : hi' < lo ∨ hi < lo') :
    (s.setFld a hi lo x).fld a hi' lo' = s.fld a hi' lo' := by
  simp [State.fld, bits_putBits_apart _ _ _ _ _ _ h hd]

theorem State.fld_setFld_ne (s : State) (a hi lo x k hi' lo' : Nat) (h : k ≠ a) :
    (s.setFld a hi lo x).fld k hi' lo' = s.fld k hi' lo' := by
  simp [State.fld, State.get_setFld_ne _ _ _ _ _ _ h]

theorem State.bit_setFld_apart (s : State) (a hi lo x i : Nat) (h : hi < 32) (hd : i < lo ∨ hi < i) :
    (s.setFld a hi lo x).bit a i = s.bit a i := by
  simp [State.bit, getLsbD_putBits_apart _ _ _ _ _ h hd]

@[simp] theorem State.bit_setBit_same (s : State) (a i : Nat) (b : Bool) (h : i < 32) :
    (s.setBit a i b).bit a i = b := by
  simp only [State.setBit, State.bit, State.get_setFld_same]
  exact getLsbD_putBits_bit _ _ _ h

theorem State.bit_setBit_apart (s : State) (a i j : Nat) (b : Bool) (h : i < 32) (hd : j ≠ i) :
    (s.setBit a i b).bit a j = s.bit a j := by
  simp only [State.setBit]
  exact State.bit_setFld_apart _ _ _ _ _ _ h (by omega)

theorem State.get_setBit_ne (s : State) (a i k : Nat) (b : Bool) (h : k ≠ a) : (s.setBit a i b).get k = s.get k := by
  simp [State.setBit, State.get_setFld_ne _ _ _ _ _ _ h]

theorem State.bit_setBit_ne (s : State) (a i k j : Nat) (b : Bool) (h : k ≠ a) :
    (s.setBit a i b).bit k j = s.bit k j := by
  simp [State.bit, State.get_setBit_ne _ _ _ _ _ h]

theorem State.fld_setBit_apart (s : State) (a i hi lo : Nat) (b : Bool) (h : i < 32) (hd : hi < i ∨ i < lo) :
    (s.setBit a i b).fld a hi lo = s.fld a hi lo := by
  simp only [State.setBit]
  exact State.fld_setFld_apart _ _ _ _ _ _ _ h (by omega)

theorem State.fld_setBit_ne (s : State) (a i k hi lo : Nat) (b : Bool) (h : k ≠ a) :
    (s.setBit a i b).fld k hi lo = s.fld k hi lo := by
  simp [State.fld, State.get_setBit_ne _ _ _ _ _ h]

theorem State.get_bumpFld_ne (s : State) (a hi lo n k : Nat) (h : k ≠ a) : (s.bumpFld a hi lo n).get k = s.get k := by
  simp [State.bumpFld, State.get_setFld_ne _ _ _ _ _ _ h]

theorem State.get_bump_ne (s : State) (a k : Nat) (h : k ≠ a) : (s.bump a).get k = s.get k := by
  simp [State.bump, State.get_bumpFld_ne _ _ _ _ _ _ h]

/-- A counter field counts up to its maximum and stops there. -/
@[simp] theorem State.fld_bumpFld_same (s : State) (a hi lo n : Nat) (h : hi < 32) :
    (s.bumpFld a hi lo n).fld a hi lo = min (2 ^ (hi + 1 - lo) - 1) (s.fld a hi lo + n) := by
  simp only [State.bumpFld, State.fld_setFld_same _ _ _ _ _ h]
  apply Nat.mod_eq_of_lt
  have := Nat.two_pow_pos (hi + 1 - lo)
  omega

theorem bits_31_0 (v : Word) : bits v 31 0 = v.toNat := by
  simp [bits]
  omega

@[simp] theorem State.get_bump_same (s : State) (a : Nat) :
    ((s.bump a).get a).toNat = min (2 ^ 32 - 1) ((s.get a).toNat + 1) := by
  have h := State.fld_bumpFld_same s a 31 0 1 (by decide)
  simp only [State.fld, bits_31_0] at h
  simpa [State.bump] using h

/-- A pair of registers holds the 64 bits written to it. -/
@[simp] theorem State.get64_set64 (s : State) (lo hi v : Nat) (h : lo ≠ hi) :
    (s.set64 lo hi v).get64 lo hi = BitVec.ofNat 64 v := by
  simp only [State.set64, State.get64, State.get_set_same, State.get_set_ne _ _ _ _ h]
  apply BitVec.eq_of_toNat_eq
  simp only [BitVec.toNat_append, BitVec.toNat_ofNat]
  rw [← Nat.shiftLeft_add_eq_or_of_lt (by omega), Nat.shiftLeft_eq]
  omega

theorem State.get_set64_ne (s : State) (lo hi v k : Nat) (h : k ≠ lo) (h' : k ≠ hi) :
    (s.set64 lo hi v).get k = s.get k := by
  simp [State.set64, State.get_set_ne _ _ _ _ h, State.get_set_ne _ _ _ _ h']

end Sys2Proof.Machine
end

