-- ==== Sys2Proof/Laws/Operations.lean ====
section
/-! SUPPORT. The shared operations of long operations, attention, the engines' queues and outcomes: what each leaves as
it was, and what it does. -/

namespace Sys2Proof.Machine

/-! ### Long operations (R329) -/

@[simp] theorem State.opDone_pending (s : State) (o : OpRef) (f : BitVec 16) (r : List Byte) : (s.opDone o f r).pending = s.pending := by
  unfold State.opDone
  split <;> rfl
@[simp] theorem State.opDone_variant (s : State) (o : OpRef) (f : BitVec 16) (r : List Byte) : (s.opDone o f r).variant = s.variant := by
  unfold State.opDone
  split <;> rfl
@[simp] theorem State.opDone_straps (s : State) (o : OpRef) (f : BitVec 16) (r : List Byte) : (s.opDone o f r).straps = s.straps := by
  unfold State.opDone
  split <;> rfl
@[simp] theorem State.opDone_regs (s : State) (o : OpRef) (f : BitVec 16) (r : List Byte) : (s.opDone o f r).regs = s.regs := by
  unfold State.opDone
  split <;> rfl
@[simp] theorem State.opDone_shadow (s : State) (o : OpRef) (f : BitVec 16) (r : List Byte) : (s.opDone o f r).shadow = s.shadow := by
  unfold State.opDone
  split <;> rfl
@[simp] theorem State.opDone_modes (s : State) (o : OpRef) (f : BitVec 16) (r : List Byte) : (s.opDone o f r).modes = s.modes := by
  unfold State.opDone
  split <;> rfl
@[simp] theorem State.opDone_tiles (s : State) (o : OpRef) (f : BitVec 16) (r : List Byte) : (s.opDone o f r).tiles = s.tiles := by
  unfold State.opDone
  split <;> rfl
@[simp] theorem State.opDone_sbx (s : State) (o : OpRef) (f : BitVec 16) (r : List Byte) : (s.opDone o f r).sbx = s.sbx := by
  unfold State.opDone
  split <;> rfl
@[simp] theorem State.opDone_que (s : State) (o : OpRef) (f : BitVec 16) (r : List Byte) : (s.opDone o f r).que = s.que := by
  unfold State.opDone
  split <;> rfl
@[simp] theorem State.opDone_dpt (s : State) (o : OpRef) (f : BitVec 16) (r : List Byte) : (s.opDone o f r).dpt = s.dpt := by
  unfold State.opDone
  split <;> rfl
@[simp] theorem State.opDone_cmp (s : State) (o : OpRef) (f : BitVec 16) (r : List Byte) : (s.opDone o f r).cmp = s.cmp := by
  unfold State.opDone
  split <;> rfl
@[simp] theorem State.opDone_lnk (s : State) (o : OpRef) (f : BitVec 16) (r : List Byte) : (s.opDone o f r).lnk = s.lnk := by
  unfold State.opDone
  split <;> rfl
@[simp] theorem State.opDone_tim (s : State) (o : OpRef) (f : BitVec 16) (r : List Byte) : (s.opDone o f r).tim = s.tim := by
  unfold State.opDone
  split <;> rfl
@[simp] theorem State.opDone_clk (s : State) (o : OpRef) (f : BitVec 16) (r : List Byte) : (s.opDone o f r).clk = s.clk := by
  unfold State.opDone
  split <;> rfl
@[simp] theorem State.opDone_ilk (s : State) (o : OpRef) (f : BitVec 16) (r : List Byte) : (s.opDone o f r).ilk = s.ilk := by
  unfold State.opDone
  split <;> rfl
@[simp] theorem State.opDone_nv (s : State) (o : OpRef) (f : BitVec 16) (r : List Byte) : (s.opDone o f r).nv = s.nv := by
  unfold State.opDone
  split <;> rfl
@[simp] theorem State.opDone_pers (s : State) (o : OpRef) (f : BitVec 16) (r : List Byte) : (s.opDone o f r).pers = s.pers := by
  unfold State.opDone
  split <;> rfl
@[simp] theorem State.opDone_tt (s : State) (o : OpRef) (f : BitVec 16) (r : List Byte) : (s.opDone o f r).tt = s.tt := by
  unfold State.opDone
  split <;> rfl
@[simp] theorem State.opDone_tx (s : State) (o : OpRef) (f : BitVec 16) (r : List Byte) : (s.opDone o f r).tx = s.tx := by
  unfold State.opDone
  split <;> rfl
@[simp] theorem State.opDone_free (s : State) (o : OpRef) (f : BitVec 16) (r : List Byte) : (s.opDone o f r).free = s.free := by
  unfold State.opDone
  split <;> rfl

@[simp] theorem State.optDone_pending (s : State) (o : Option OpRef) (f : BitVec 16) (r : List Byte) : (s.optDone o f r).pending = s.pending := by
  cases o <;> simp [State.optDone]
@[simp] theorem State.optDone_variant (s : State) (o : Option OpRef) (f : BitVec 16) (r : List Byte) : (s.optDone o f r).variant = s.variant := by
  cases o <;> simp [State.optDone]
@[simp] theorem State.optDone_straps (s : State) (o : Option OpRef) (f : BitVec 16) (r : List Byte) : (s.optDone o f r).straps = s.straps := by
  cases o <;> simp [State.optDone]
@[simp] theorem State.optDone_regs (s : State) (o : Option OpRef) (f : BitVec 16) (r : List Byte) : (s.optDone o f r).regs = s.regs := by
  cases o <;> simp [State.optDone]
@[simp] theorem State.optDone_shadow (s : State) (o : Option OpRef) (f : BitVec 16) (r : List Byte) : (s.optDone o f r).shadow = s.shadow := by
  cases o <;> simp [State.optDone]
@[simp] theorem State.optDone_modes (s : State) (o : Option OpRef) (f : BitVec 16) (r : List Byte) : (s.optDone o f r).modes = s.modes := by
  cases o <;> simp [State.optDone]
@[simp] theorem State.optDone_tiles (s : State) (o : Option OpRef) (f : BitVec 16) (r : List Byte) : (s.optDone o f r).tiles = s.tiles := by
  cases o <;> simp [State.optDone]
@[simp] theorem State.optDone_sbx (s : State) (o : Option OpRef) (f : BitVec 16) (r : List Byte) : (s.optDone o f r).sbx = s.sbx := by
  cases o <;> simp [State.optDone]
@[simp] theorem State.optDone_que (s : State) (o : Option OpRef) (f : BitVec 16) (r : List Byte) : (s.optDone o f r).que = s.que := by
  cases o <;> simp [State.optDone]
@[simp] theorem State.optDone_dpt (s : State) (o : Option OpRef) (f : BitVec 16) (r : List Byte) : (s.optDone o f r).dpt = s.dpt := by
  cases o <;> simp [State.optDone]
@[simp] theorem State.optDone_cmp (s : State) (o : Option OpRef) (f : BitVec 16) (r : List Byte) : (s.optDone o f r).cmp = s.cmp := by
  cases o <;> simp [State.optDone]
@[simp] theorem State.optDone_lnk (s : State) (o : Option OpRef) (f : BitVec 16) (r : List Byte) : (s.optDone o f r).lnk = s.lnk := by
  cases o <;> simp [State.optDone]
@[simp] theorem State.optDone_tim (s : State) (o : Option OpRef) (f : BitVec 16) (r : List Byte) : (s.optDone o f r).tim = s.tim := by
  cases o <;> simp [State.optDone]
@[simp] theorem State.optDone_clk (s : State) (o : Option OpRef) (f : BitVec 16) (r : List Byte) : (s.optDone o f r).clk = s.clk := by
  cases o <;> simp [State.optDone]
@[simp] theorem State.optDone_ilk (s : State) (o : Option OpRef) (f : BitVec 16) (r : List Byte) : (s.optDone o f r).ilk = s.ilk := by
  cases o <;> simp [State.optDone]
@[simp] theorem State.optDone_nv (s : State) (o : Option OpRef) (f : BitVec 16) (r : List Byte) : (s.optDone o f r).nv = s.nv := by
  cases o <;> simp [State.optDone]
@[simp] theorem State.optDone_pers (s : State) (o : Option OpRef) (f : BitVec 16) (r : List Byte) : (s.optDone o f r).pers = s.pers := by
  cases o <;> simp [State.optDone]
@[simp] theorem State.optDone_tt (s : State) (o : Option OpRef) (f : BitVec 16) (r : List Byte) : (s.optDone o f r).tt = s.tt := by
  cases o <;> simp [State.optDone]
@[simp] theorem State.optDone_tx (s : State) (o : Option OpRef) (f : BitVec 16) (r : List Byte) : (s.optDone o f r).tx = s.tx := by
  cases o <;> simp [State.optDone]
@[simp] theorem State.optDone_free (s : State) (o : Option OpRef) (f : BitVec 16) (r : List Byte) : (s.optDone o f r).free = s.free := by
  cases o <;> simp [State.optDone]

@[simp] theorem State.opCount_pending (s : State) (o : Option OpRef) (i n : Nat) : (s.opCount o i n).pending = s.pending := by
  unfold State.opCount
  split <;> rfl
@[simp] theorem State.opCount_variant (s : State) (o : Option OpRef) (i n : Nat) : (s.opCount o i n).variant = s.variant := by
  unfold State.opCount
  split <;> rfl
@[simp] theorem State.opCount_straps (s : State) (o : Option OpRef) (i n : Nat) : (s.opCount o i n).straps = s.straps := by
  unfold State.opCount
  split <;> rfl
@[simp] theorem State.opCount_regs (s : State) (o : Option OpRef) (i n : Nat) : (s.opCount o i n).regs = s.regs := by
  unfold State.opCount
  split <;> rfl
@[simp] theorem State.opCount_shadow (s : State) (o : Option OpRef) (i n : Nat) : (s.opCount o i n).shadow = s.shadow := by
  unfold State.opCount
  split <;> rfl
@[simp] theorem State.opCount_modes (s : State) (o : Option OpRef) (i n : Nat) : (s.opCount o i n).modes = s.modes := by
  unfold State.opCount
  split <;> rfl
@[simp] theorem State.opCount_tiles (s : State) (o : Option OpRef) (i n : Nat) : (s.opCount o i n).tiles = s.tiles := by
  unfold State.opCount
  split <;> rfl
@[simp] theorem State.opCount_sbx (s : State) (o : Option OpRef) (i n : Nat) : (s.opCount o i n).sbx = s.sbx := by
  unfold State.opCount
  split <;> rfl
@[simp] theorem State.opCount_que (s : State) (o : Option OpRef) (i n : Nat) : (s.opCount o i n).que = s.que := by
  unfold State.opCount
  split <;> rfl
@[simp] theorem State.opCount_dpt (s : State) (o : Option OpRef) (i n : Nat) : (s.opCount o i n).dpt = s.dpt := by
  unfold State.opCount
  split <;> rfl
@[simp] theorem State.opCount_cmp (s : State) (o : Option OpRef) (i n : Nat) : (s.opCount o i n).cmp = s.cmp := by
  unfold State.opCount
  split <;> rfl
@[simp] theorem State.opCount_lnk (s : State) (o : Option OpRef) (i n : Nat) : (s.opCount o i n).lnk = s.lnk := by
  unfold State.opCount
  split <;> rfl
@[simp] theorem State.opCount_tim (s : State) (o : Option OpRef) (i n : Nat) : (s.opCount o i n).tim = s.tim := by
  unfold State.opCount
  split <;> rfl
@[simp] theorem State.opCount_clk (s : State) (o : Option OpRef) (i n : Nat) : (s.opCount o i n).clk = s.clk := by
  unfold State.opCount
  split <;> rfl
@[simp] theorem State.opCount_ilk (s : State) (o : Option OpRef) (i n : Nat) : (s.opCount o i n).ilk = s.ilk := by
  unfold State.opCount
  split <;> rfl
@[simp] theorem State.opCount_nv (s : State) (o : Option OpRef) (i n : Nat) : (s.opCount o i n).nv = s.nv := by
  unfold State.opCount
  split <;> rfl
@[simp] theorem State.opCount_pers (s : State) (o : Option OpRef) (i n : Nat) : (s.opCount o i n).pers = s.pers := by
  unfold State.opCount
  split <;> rfl
@[simp] theorem State.opCount_tt (s : State) (o : Option OpRef) (i n : Nat) : (s.opCount o i n).tt = s.tt := by
  unfold State.opCount
  split <;> rfl
@[simp] theorem State.opCount_tx (s : State) (o : Option OpRef) (i n : Nat) : (s.opCount o i n).tx = s.tx := by
  unfold State.opCount
  split <;> rfl
@[simp] theorem State.opCount_free (s : State) (o : Option OpRef) (i n : Nat) : (s.opCount o i n).free = s.free := by
  unfold State.opCount
  split <;> rfl

/-- What ending an operation does: without it only the orphans of closed sessions lose it; else it is done with its
status and result, and ATN_OP is set in its session. -/
theorem State.opDone_none (s : State) (o : OpRef) (f : BitVec 16) (r : List Byte) (h : s.findOp o = none) :
    s.opDone o f r = { s with bcp := { s.bcp with orphans := s.bcp.orphans.filter fun x => x.1 != o } } := by
  unfold State.opDone
  rw [h]

theorem State.opDone_some (s : State) (o : OpRef) (f : BitVec 16) (r : List Byte) (p : Op) (h : s.findOp o = some p) :
    s.opDone o f r = (s.updOpRef o fun p => { p with done := true, final := f, result := r }).attendIf
      (fun x => x.id = o.session) Atn.op := by
  unfold State.opDone
  rw [h]

/-- An event reaches exactly the sessions that it is for. -/
theorem State.attendIf_sessions (s : State) (p : Session → Bool) (b : Nat) :
    (s.attendIf p b).bcp.sessions = s.bcp.sessions.map fun x => if p x then setAtn b (s.evt + 1) x else x := rfl

theorem State.attend_sets (s : State) (b : Nat) (hb : b < 12) : ∀ x ∈ (s.attend b).bcp.sessions, x.atn.getLsbD b = true := by
  intro x hx
  obtain ⟨y, -, rfl⟩ := List.mem_map.mp hx
  simp only [if_true, setAtn]
  rw [BitVec.getLsbD_or, bitOf, BitVec.getLsbD_ofNat, Nat.testBit_two_pow_self, decide_eq_true hb, Bool.and_self,
    Bool.or_true]

/-! ### The compression engines' queues (R219, R220, R226) -/

/-- A state with registers and engines as another has them. -/
def State.enginesInto (s t : State) : State := { s with regs := t.regs, cmp := t.cmp }

/-- Nothing is touched but the engines and the two registers that follow them. -/
def EnginesKept (s t : State) : Prop :=
  t = s.enginesInto t ∧ ∀ a, a ≠ Reg.cmpUnresolved → a ≠ Reg.cmpInject → t.get a = s.get a

theorem EnginesKept.refl (s : State) : EnginesKept s s := ⟨rfl, fun _ _ _ => rfl⟩

theorem EnginesKept.trans {s t u : State} (h : EnginesKept s t) (k : EnginesKept t u) : EnginesKept s u :=
  ⟨Eq.trans k.1 (congrArg (State.enginesInto · u) h.1 :), fun a x y => (k.2 a x y).trans (h.2 a x y)⟩

theorem EnginesKept.proj {α : Type} {s t : State} (f : State → α) (hf : ∀ x y : State, f (x.enginesInto y) = f x)
    (h : EnginesKept s t) : f t = f s := by
  rw [h.1]
  exact hf s t

theorem EnginesKept.foldl {α : Type} (f : State → α → State) (hf : ∀ s x, EnginesKept s (f s x)) (l : List α) :
    ∀ s, EnginesKept s (l.foldl f s) := by
  induction l with
  | nil => exact .refl
  | cons x l ih => exact fun s => (hf s x).trans (ih _)

theorem State.startEngine_kept (e : Fin 32) (s : State) : EnginesKept s (s.startEngine e) := by
  unfold State.startEngine
  split
  · exact .refl s
  · split
    · exact .refl s
    · dsimp only
      split
      · exact ⟨rfl, fun a _ h => (State.get_setBit_ne _ _ _ _ _ h).trans (State.get_setBit_ne _ _ _ _ _ h)⟩
      · exact ⟨rfl, fun _ _ _ => rfl⟩

theorem State.offerRetry_kept (e : Fin 32) (j : Job) (s : State) : EnginesKept s (s.offerRetry e j) := by
  unfold State.offerRetry
  dsimp only
  split
  · exact ⟨rfl, fun a h _ => State.get_bump_ne _ _ _ h⟩
  · split
    · exact .refl s
    · exact ⟨rfl, fun _ _ _ => rfl⟩

theorem State.startEngines_kept (s : State) : EnginesKept s s.startEngines :=
  .foldl (fun s e => s.startEngine e) (fun s e => State.startEngine_kept e s) allEngines s

theorem State.offerRound_kept (s : State) (l : List (Fin 32 × Job)) :
    EnginesKept s (l.foldl (fun s x => s.offerRetry x.1 x.2) s) :=
  .foldl (fun s x => s.offerRetry x.1 x.2) (fun s x => State.offerRetry_kept x.1 x.2 s) l s

/-- Offering the waiting retries touches the engines, CMP_UNRESOLVED and CMP_INJECT, nothing else. -/
theorem State.offerRetries_kept (s : State) : EnginesKept s s.offerRetries := by
  unfold State.offerRetries
  refine .trans ?_ (State.startEngines_kept _)
  refine .foldl _ ?_ s.waitingJobs s
  exact fun s _ => State.offerRound_kept s s.waitingJobs

@[simp] theorem State.offerRetries_pending (s : State) : s.offerRetries.pending = s.pending :=
  EnginesKept.proj State.pending (fun _ _ => rfl) (State.offerRetries_kept s)
@[simp] theorem State.offerRetries_variant (s : State) : s.offerRetries.variant = s.variant :=
  EnginesKept.proj State.variant (fun _ _ => rfl) (State.offerRetries_kept s)
@[simp] theorem State.offerRetries_straps (s : State) : s.offerRetries.straps = s.straps :=
  EnginesKept.proj State.straps (fun _ _ => rfl) (State.offerRetries_kept s)
@[simp] theorem State.offerRetries_shadow (s : State) : s.offerRetries.shadow = s.shadow :=
  EnginesKept.proj State.shadow (fun _ _ => rfl) (State.offerRetries_kept s)
@[simp] theorem State.offerRetries_bcp (s : State) : s.offerRetries.bcp = s.bcp :=
  EnginesKept.proj State.bcp (fun _ _ => rfl) (State.offerRetries_kept s)
@[simp] theorem State.offerRetries_modes (s : State) : s.offerRetries.modes = s.modes :=
  EnginesKept.proj State.modes (fun _ _ => rfl) (State.offerRetries_kept s)
@[simp] theorem State.offerRetries_tiles (s : State) : s.offerRetries.tiles = s.tiles :=
  EnginesKept.proj State.tiles (fun _ _ => rfl) (State.offerRetries_kept s)
@[simp] theorem State.offerRetries_sbx (s : State) : s.offerRetries.sbx = s.sbx :=
  EnginesKept.proj State.sbx (fun _ _ => rfl) (State.offerRetries_kept s)
@[simp] theorem State.offerRetries_que (s : State) : s.offerRetries.que = s.que :=
  EnginesKept.proj State.que (fun _ _ => rfl) (State.offerRetries_kept s)
@[simp] theorem State.offerRetries_dpt (s : State) : s.offerRetries.dpt = s.dpt :=
  EnginesKept.proj State.dpt (fun _ _ => rfl) (State.offerRetries_kept s)
@[simp] theorem State.offerRetries_lnk (s : State) : s.offerRetries.lnk = s.lnk :=
  EnginesKept.proj State.lnk (fun _ _ => rfl) (State.offerRetries_kept s)
@[simp] theorem State.offerRetries_tim (s : State) : s.offerRetries.tim = s.tim :=
  EnginesKept.proj State.tim (fun _ _ => rfl) (State.offerRetries_kept s)
@[simp] theorem State.offerRetries_clk (s : State) : s.offerRetries.clk = s.clk :=
  EnginesKept.proj State.clk (fun _ _ => rfl) (State.offerRetries_kept s)
@[simp] theorem State.offerRetries_ilk (s : State) : s.offerRetries.ilk = s.ilk :=
  EnginesKept.proj State.ilk (fun _ _ => rfl) (State.offerRetries_kept s)
@[simp] theorem State.offerRetries_nv (s : State) : s.offerRetries.nv = s.nv :=
  EnginesKept.proj State.nv (fun _ _ => rfl) (State.offerRetries_kept s)
@[simp] theorem State.offerRetries_pers (s : State) : s.offerRetries.pers = s.pers :=
  EnginesKept.proj State.pers (fun _ _ => rfl) (State.offerRetries_kept s)
@[simp] theorem State.offerRetries_tt (s : State) : s.offerRetries.tt = s.tt :=
  EnginesKept.proj State.tt (fun _ _ => rfl) (State.offerRetries_kept s)
@[simp] theorem State.offerRetries_tx (s : State) : s.offerRetries.tx = s.tx :=
  EnginesKept.proj State.tx (fun _ _ => rfl) (State.offerRetries_kept s)
@[simp] theorem State.offerRetries_evt (s : State) : s.offerRetries.evt = s.evt :=
  EnginesKept.proj State.evt (fun _ _ => rfl) (State.offerRetries_kept s)
@[simp] theorem State.offerRetries_free (s : State) : s.offerRetries.free = s.free :=
  EnginesKept.proj State.free (fun _ _ => rfl) (State.offerRetries_kept s)

theorem State.offerRetries_get (s : State) (a : Nat) (h : a ≠ Reg.cmpUnresolved) (k : a ≠ Reg.cmpInject) :
    s.offerRetries.get a = s.get a := (State.offerRetries_kept s).2 a h k

/-! ### Outcomes -/

/-- A command's effect reaches neither the queue nor the nonvolatile memories. -/
theorem run_eq (f : State → State) (s : State) :
    ∃ t, run f s = .next t ∧ t.pending = s.pending ∧ t.nv = s.nv ∧ t.regs = (f s).regs ∧ t.tx = (f s).tx :=
  ⟨_, rfl, rfl, rfl, rfl, rfl⟩

theorem runNv_eq (f : State → State) (s : State) :
    ∃ t, runNv f s = .next t ∧ t.pending = s.pending ∧ t.nv = (f s).nv ∧ t.regs = (f s).regs ∧ t.tx = (f s).tx :=
  ⟨_, rfl, rfl, rfl, rfl, rfl⟩

end Sys2Proof.Machine
end

