-- ==== Sys2Proof/Laws/Requests.lean ====
section
/-! SUPPORT. The way of a BCP request: what a quiet port lets through, what a served request executes, and what its
answer leaves as it was. -/

namespace Sys2Proof.Machine

/-! ### Ports -/

theorem State.provoke_unarmed (s : State) (i d : Nat) (h : s.bit (Reg.lnkProvCtrl i) 31 = false) :
    s.provoke i d = (.pass, s) := by
  have h' : (s.get (Reg.lnkProvCtrl i)).getLsbD 31 = false := h
  unfold State.provoke
  exact if_pos (by rw [h']; rfl)

/-- What leaves through a port with nothing armed on it. -/
theorem State.send_plain (s : State) (p : Nat) (x : Tx) (h : s.bit (Reg.lnkProvCtrl p) 31 = false)
    (hh : lookupK p s.lnk.heldTx = none) : s.send p x = if s.portLive p then s.emit x else s := by
  unfold State.send
  rw [State.provoke_unarmed s p 0 h]
  have hh' : lookupK p (s.emit x).lnk.heldTx = none := hh
  cases hl : s.portLive p <;> simp only [Bool.not_false, Bool.not_true, if_true, hh'] <;> rfl

/-- A provocation touches its registers and its count, nothing else. -/
theorem State.provoke_shape (s : State) (i d : Nat) :
    ∃ regs prov, (s.provoke i d).2 = { s with regs := regs, lnk := { s.lnk with prov := prov } } := by
  unfold State.provoke
  simp only
  split
  · exact ⟨_, _, rfl⟩
  · split
    · exact ⟨_, _, rfl⟩
    · split <;> exact ⟨_, _, rfl⟩
    · split
      · exact ⟨_, _, rfl⟩
      · split <;> exact ⟨_, _, rfl⟩
    · split
      · dsimp only; split <;> exact ⟨_, _, rfl⟩
      · exact ⟨_, _, rfl⟩
    · exact ⟨_, _, rfl⟩

/-- Sending touches the registers and the state of the provocation and the output, nothing else. -/
theorem State.send_shape (s : State) (p : Nat) (x : Tx) :
    ∃ regs prov heldTx tx, s.send p x
      = { s with regs := regs, tx := tx, lnk := { s.lnk with prov := prov, heldTx := heldTx } } := by
  obtain ⟨regs, prov, h⟩ := State.provoke_shape s p 0
  unfold State.send
  split
  · exact ⟨_, _, _, _, rfl⟩
  · dsimp only
    rw [h]
    split <;> (try split) <;> exact ⟨_, _, _, _, rfl⟩

/-- A state with what sending may touch as another has it: the output, and in the links the timing-out ports. -/
def State.plainInto (s t : State) : State :=
  { s with tx := t.tx, lnk := { s.lnk with
      qA := t.lnk.qA, qB := t.lnk.qB, busyA := t.lnk.busyA, busyB := t.lnk.busyB, oA := t.lnk.oA, oB := t.lnk.oB } }

/-- The same, the registers and the provocations with it. -/
def State.sendInto (s t : State) : State :=
  { s.plainInto t with regs := t.regs
                       lnk := { (s.plainInto t).lnk with prov := t.lnk.prov, heldTx := t.lnk.heldTx } }

/-- Sending has touched nothing else. -/
def SendKept (s t : State) : Prop := t = s.sendInto t

theorem SendKept.refl (s : State) : SendKept s s := rfl

theorem SendKept.eq {s t : State} (h : SendKept s t) : t = s.sendInto t := h

theorem SendKept.trans {s t u : State} (h : SendKept s t) (k : SendKept t u) : SendKept s u :=
  Eq.trans k (congrArg (State.sendInto · u) h.eq :)

theorem State.send_kept (s : State) (p : Nat) (x : Tx) : SendKept s (s.send p x) := by
  obtain ⟨_, _, _, _, h⟩ := State.send_shape s p x
  rw [h]
  rfl

/-- The port's end of sending is all that changes as it is taken up. -/
theorem State.occupy_busy (s : State) (b : Bool) (len : Nat) :
    ∃ n, s.occupy b len = s.withLnk fun l => if b then { l with busyB := n } else { l with busyA := n } := by
  unfold State.occupy State.withLnk
  cases b <;> simp only [Bool.false_eq_true, if_false, if_true] <;> exact ⟨_, rfl⟩

theorem State.occupy_kept (s : State) (b : Bool) (len : Nat) : SendKept s (s.occupy b len) := by
  obtain ⟨n, h⟩ := State.occupy_busy s b len
  rw [h]
  cases b <;> rfl

theorem State.pumpPort_kept (s : State) (b : Bool) : SendKept s (s.pumpPort b) := by
  cases b <;> (unfold State.pumpPort; simp only [Bool.false_eq_true, ↓reduceIte]; split)
  · exact .refl s
  · split
    · exact .trans (.trans (by rfl) (State.occupy_kept _ _ _)) (State.send_kept _ _ _)
    · exact .trans (.trans (by rfl) (State.occupy_kept _ _ _)) (State.send_kept _ _ _)
    · exact .refl s
  · exact .refl s
  · split
    · exact .trans (.trans (by rfl) (State.occupy_kept _ _ _)) (State.send_kept _ _ _)
    · exact .trans (.trans (by rfl) (State.occupy_kept _ _ _)) (State.send_kept _ _ _)
    · exact .refl s

theorem State.sendOther_kept (s : State) (p len : Nat) (x : Tx) : SendKept s (s.sendOther p len x) := by
  unfold State.sendOther
  split
  · exact .trans (by rfl) (State.pumpPort_kept _ _)
  · split
    · exact .trans (by rfl) (State.pumpPort_kept _ _)
    · exact State.send_kept s p x

@[simp] theorem State.sendOther_bcp (s : State) (p len : Nat) (x : Tx) : (s.sendOther p len x).bcp = s.bcp :=
  (congrArg State.bcp (State.sendOther_kept s p len x).eq :)

@[simp] theorem State.sendOther_heldRx (s : State) (p len : Nat) (x : Tx) :
    (s.sendOther p len x).lnk.heldRx = s.lnk.heldRx :=
  (congrArg (fun u : State => u.lnk.heldRx) (State.sendOther_kept s p len x).eq :)

/-- A port with nothing armed on it has touched the output and the timing-out ports as it sent, nothing else. -/
def PlainKept (s t : State) : Prop := t = s.plainInto t

theorem PlainKept.refl (s : State) : PlainKept s s := rfl

theorem PlainKept.eq {s t : State} (h : PlainKept s t) : t = s.plainInto t := h

theorem PlainKept.trans {s t u : State} (h : PlainKept s t) (k : PlainKept t u) : PlainKept s u :=
  Eq.trans k (congrArg (State.plainInto · u) h.eq :)

theorem PlainKept.lnk {s t : State} (h : PlainKept s t) : LnkKept s t := by
  unfold PlainKept at h
  rw [h]
  rfl

theorem State.send_plainKept (s : State) (p : Nat) (x : Tx) (h : s.bit (Reg.lnkProvCtrl p) 31 = false)
    (hh : lookupK p s.lnk.heldTx = none) : PlainKept s (s.send p x) := by
  rw [State.send_plain s p x h hh]
  split <;> rfl

theorem State.occupy_plainKept (s : State) (b : Bool) (len : Nat) : PlainKept s (s.occupy b len) := by
  obtain ⟨n, h⟩ := State.occupy_busy s b len
  rw [h]
  cases b <;> rfl

/-- The same of a state that stands apart from another only where no provocation looks. -/
theorem State.send_plainKept_of {s t : State} (p : Nat) (x : Tx) (hg : ∀ a, t.get a = s.get a)
    (hx : t.lnk.heldTx = s.lnk.heldTx) (h : s.bit (Reg.lnkProvCtrl p) 31 = false)
    (hh : lookupK p s.lnk.heldTx = none) : PlainKept t (t.send p x) :=
  State.send_plainKept t p x (by unfold State.bit at h ⊢; rw [hg]; exact h) (by rw [hx]; exact hh)

theorem State.occupy_get (s : State) (b : Bool) (len a : Nat) : (s.occupy b len).get a = s.get a := rfl

theorem State.occupy_heldTx (s : State) (b : Bool) (len : Nat) : (s.occupy b len).lnk.heldTx = s.lnk.heldTx := by
  cases b <;> simp only [State.occupy, State.withLnk, Bool.false_eq_true, ↓reduceIte]

/-- A frame taken off a port's queue leaves through it. -/
theorem State.occupySend_plainKept (s : State) (f : Lnk → Lnk) (b : Bool) (len p : Nat) (x : Tx)
    (hk : PlainKept s (s.withLnk f)) (hf : (s.withLnk f).lnk.heldTx = s.lnk.heldTx)
    (h : s.bit (Reg.lnkProvCtrl p) 31 = false) (hh : lookupK p s.lnk.heldTx = none) :
    PlainKept s (((s.withLnk f).occupy b len).send p x) :=
  .trans (.trans hk (State.occupy_plainKept _ b _))
    (State.send_plainKept_of (s := s) p x (fun a => by rw [State.occupy_get, State.withLnk_get])
      ((State.occupy_heldTx _ _ _).trans hf) h hh)

theorem State.pumpPort_plainKept (s : State) (b : Bool) (h : s.bit (Reg.lnkProvCtrl (if b then 5 else 3)) 31 = false)
    (hh : lookupK (if b then 5 else 3) s.lnk.heldTx = none) : PlainKept s (s.pumpPort b) := by
  cases b <;> (unfold State.pumpPort; simp only [Bool.false_eq_true, ↓reduceIte] at h hh ⊢; split)
  · rfl
  · split
    · exact State.occupySend_plainKept s _ false _ _ _ (by rfl) rfl h hh
    · exact State.occupySend_plainKept s _ false _ _ _ (by rfl) rfl h hh
    · rfl
  · rfl
  · split
    · exact State.occupySend_plainKept s _ true _ _ _ (by rfl) rfl h hh
    · exact State.occupySend_plainKept s _ true _ _ _ (by rfl) rfl h hh
    · rfl

/-- A frame on its way out through a port with nothing armed on it. -/
theorem State.sendOther_plainKept (s : State) (p len : Nat) (x : Tx) (h : s.bit (Reg.lnkProvCtrl p) 31 = false)
    (hh : lookupK p s.lnk.heldTx = none) : PlainKept s (s.sendOther p len x) := by
  unfold State.sendOther
  split
  · next e => subst e; exact .trans (by rfl) (State.pumpPort_plainKept _ false h hh)
  · split
    · next e => subst e; exact .trans (by rfl) (State.pumpPort_plainKept _ true h hh)
    · exact State.send_plainKept s p x h hh

/-- Ports other than the timing-out ports send at once. -/
theorem State.sendOther_send (s : State) (p len : Nat) (x : Tx) (h3 : p ≠ 3) (h5 : p ≠ 5) :
    s.sendOther p len x = s.send p x := by
  unfold State.sendOther
  rw [if_neg h3, if_neg h5]

/-- A frame on a quiet port does what it does, and nothing held back follows it. -/
theorem receive_quiet (p : Port) (n : Nat) (i : Instr) (f : State → State) (s : State) (h : s.Quiet p)
    (hf : lookupK p.val (f s).lnk.heldRx = none) : receive p n i f s = f s := by
  unfold receive
  rw [State.provoke_unarmed s p 1 h.plain, h.live]
  simp only [Bool.not_true, Bool.false_eq_true, if_false]
  unfold Provoked.onFrame State.arrives State.heldFrame
  simp only []
  rw [hf]

/-! ### Sessions -/

theorem State.find_updSession (s : State) (id : Word) (f : Session → Session) (hf : ∀ x, (f x).id = x.id) :
    (s.updSession id f).findSession id = (s.findSession id).map f := by
  simp only [State.findSession, State.updSession]
  generalize s.bcp.sessions = l
  induction l with
  | nil => rfl
  | cons y l ih =>
    by_cases h : y.id = id
    · simp [h, hf]
    · simp [h, ih]

/-- A map over sessions that keeps their ids finds the mapped session. -/
theorem find_mapped (l : List Session) (g : Session → Session) (id : Word) (hg : ∀ x, (g x).id = x.id) :
    (l.map g).find? (fun x => decide (x.id = id)) = (l.find? fun x => decide (x.id = id)).map g := by
  rw [List.find?_map]
  congr 2
  funext x
  simp [hg]

theorem State.find_attendIf (s : State) (p : Session → Bool) (b : Nat) (id : Word) :
    (s.attendIf p b).findSession id = (s.findSession id).map fun x => if p x then setAtn b (s.evt + 1) x else x := by
  apply find_mapped
  intro x
  split <;> rfl

@[simp] theorem State.attend_isSome (s : State) (b : Nat) (id : Word) :
    ((s.attend b).findSession id).isSome = (s.findSession id).isSome := by
  simp [State.attend, State.find_attendIf]

theorem State.find_arrived (s : State) (r : Req) :
    (s.arrived r).findSession r.session = (s.findSession r.session).map (Session.hear s.tim.now r) := by
  exact State.find_updSession (s.countRx r.port) r.session (Session.hear s.tim.now r) (fun _ => rfl)

/-! ### The state in which a request executes -/

theorem State.get_arrived_ne (s : State) (r : Req) (a : Nat) (h : a ≠ Reg.lnkPortRx r.port) :
    (s.arrived r).get a = s.get a := by
  show (s.bump (Reg.lnkPortRx r.port)).get a = s.get a
  exact State.get_bump_ne _ _ _ h

theorem State.arrived_eq (s : State) (r : Req) :
    s.arrived r = { s with regs := (s.arrived r).regs, bcp := (s.arrived r).bcp } := rfl

@[simp] theorem State.arrived_shadow (s : State) (r : Req) : (s.arrived r).shadow = s.shadow := rfl
@[simp] theorem State.arrived_variant (s : State) (r : Req) : (s.arrived r).variant = s.variant := rfl
@[simp] theorem State.arrived_modes (s : State) (r : Req) : (s.arrived r).modes = s.modes := rfl
@[simp] theorem State.arrived_tiles (s : State) (r : Req) : (s.arrived r).tiles = s.tiles := rfl
@[simp] theorem State.arrived_sbx (s : State) (r : Req) : (s.arrived r).sbx = s.sbx := rfl
@[simp] theorem State.arrived_que (s : State) (r : Req) : (s.arrived r).que = s.que := rfl
@[simp] theorem State.arrived_dpt (s : State) (r : Req) : (s.arrived r).dpt = s.dpt := rfl
@[simp] theorem State.arrived_cmp (s : State) (r : Req) : (s.arrived r).cmp = s.cmp := rfl
@[simp] theorem State.arrived_lnk (s : State) (r : Req) : (s.arrived r).lnk = s.lnk := rfl
@[simp] theorem State.arrived_tim (s : State) (r : Req) : (s.arrived r).tim = s.tim := rfl
@[simp] theorem State.arrived_clk (s : State) (r : Req) : (s.arrived r).clk = s.clk := rfl
@[simp] theorem State.arrived_ilk (s : State) (r : Req) : (s.arrived r).ilk = s.ilk := rfl
@[simp] theorem State.arrived_nv (s : State) (r : Req) : (s.arrived r).nv = s.nv := rfl
@[simp] theorem State.arrived_pers (s : State) (r : Req) : (s.arrived r).pers = s.pers := rfl
@[simp] theorem State.arrived_tt (s : State) (r : Req) : (s.arrived r).tt = s.tt := rfl
@[simp] theorem State.arrived_tx (s : State) (r : Req) : (s.arrived r).tx = s.tx := rfl
@[simp] theorem State.arrived_evt (s : State) (r : Req) : (s.arrived r).evt = s.evt := rfl
@[simp] theorem State.arrived_free (s : State) (r : Req) : (s.arrived r).free = s.free := rfl

/-- A counter of received frames is none of the registers that a request's way reads. -/
theorem lnkPortRx_ne (p : Port) (q : Nat) :
    Reg.lnkProvCtrl q ≠ Reg.lnkPortRx p ∧ Reg.lnkPortStat q ≠ Reg.lnkPortRx p ∧ Reg.lnkAddr ≠ Reg.lnkPortRx p := by
  unfold Reg.lnkProvCtrl Reg.lnkPortStat Reg.lnkPortRx Reg.lnkAddr
  have := p.isLt
  omega

/-! ### The server -/

@[simp] theorem State.passEvent_pending (s : State) : s.passEvent.pending = s.pending := rfl
@[simp] theorem State.passEvent_variant (s : State) : s.passEvent.variant = s.variant := rfl
@[simp] theorem State.passEvent_straps (s : State) : s.passEvent.straps = s.straps := rfl
@[simp] theorem State.passEvent_regs (s : State) : s.passEvent.regs = s.regs := rfl
@[simp] theorem State.passEvent_shadow (s : State) : s.passEvent.shadow = s.shadow := rfl
@[simp] theorem State.passEvent_bcp (s : State) : s.passEvent.bcp = s.bcp := rfl
@[simp] theorem State.passEvent_modes (s : State) : s.passEvent.modes = s.modes := rfl
@[simp] theorem State.passEvent_tiles (s : State) : s.passEvent.tiles = s.tiles := rfl
@[simp] theorem State.passEvent_sbx (s : State) : s.passEvent.sbx = s.sbx := rfl
@[simp] theorem State.passEvent_que (s : State) : s.passEvent.que = s.que := rfl
@[simp] theorem State.passEvent_dpt (s : State) : s.passEvent.dpt = s.dpt := rfl
@[simp] theorem State.passEvent_cmp (s : State) : s.passEvent.cmp = s.cmp := rfl
@[simp] theorem State.passEvent_lnk (s : State) : s.passEvent.lnk = s.lnk := rfl
@[simp] theorem State.passEvent_tim (s : State) : s.passEvent.tim = s.tim := rfl
@[simp] theorem State.passEvent_clk (s : State) : s.passEvent.clk = s.clk := rfl
@[simp] theorem State.passEvent_ilk (s : State) : s.passEvent.ilk = s.ilk := rfl
@[simp] theorem State.passEvent_nv (s : State) : s.passEvent.nv = s.nv := rfl
@[simp] theorem State.passEvent_pers (s : State) : s.passEvent.pers = s.pers := rfl
@[simp] theorem State.passEvent_tt (s : State) : s.passEvent.tt = s.tt := rfl
@[simp] theorem State.passEvent_tx (s : State) : s.passEvent.tx = s.tx := rfl
@[simp] theorem State.passEvent_free (s : State) : s.passEvent.free = s.free := rfl

/-- What follows the execution: the reply is cached and sent, and a closing command ends its session (R324). -/
def State.answered (f : Form) (r : Req) (a : Ans) : State :=
  let s := a.2.2.updSession r.session (Session.keep ⟨r.seq, f.op, a.1, a.2.1, a.2.2.evt + 1⟩)
  let s := s.reply r f.op a.1 false r.session (((s.findSession r.session).map fun y => s.attention y).getD 0) a.2.1
  if f.closes then s.closeSession r.session else s

/-- A served request executes and is answered. -/
theorem State.request_served {s : State} {f : Form} {r : Req} {x : Session} (body : Session → State → Ans)
    (h : Served s f r x) : s.request f r body = State.answered f r (body (x.hear s.tim.now r) (s.arrived r)) := by
  have hd : (s.countRx r.port).bcpDrops r = false := by
    have := h.sound
    unfold State.bcpDrops State.moduleAddr State.fld at this ⊢
    rw [State.countRx, State.get_bump_ne _ _ _ (lnkPortRx_ne r.port 0).2.2]
    exact this
  have hf : (s.countRx r.port).findSession r.session = some x := h.found
  have e1 : (x.ip != r.ip || x.udp != r.udp) = false := by simp [h.ip, h.udp]
  have e2 : (x.version != r.version) = false := by simp [h.version]
  have hm : f.modes ((s.countRx r.port).updSession r.session (Session.hear s.tim.now r)) = true := h.mode
  unfold State.request
  simp only [hd, hf, e1, e2, h.layout, h.room, h.fresh, Bool.false_eq_true, if_false, if_true]
  unfold State.execute
  have ht : (s.countRx r.port).tim = s.tim := rfl
  simp only [ht, hm, if_true]
  rfl

/-! ### What an answer leaves -/

section
variable {f : Form} {r : Req} {a : Ans}

theorem State.answered_eq (hc : f.closes = false) (hp : a.2.2.bit (Reg.lnkProvCtrl r.port) 31 = false)
    (hh : lookupK r.port.val a.2.2.lnk.heldTx = none) (h3 : r.port.val ≠ 3) (h5 : r.port.val ≠ 5) :
    ∃ att, State.answered f r a =
      (let u := (a.2.2.updSession r.session (Session.keep ⟨r.seq, f.op, a.1, a.2.1, a.2.2.evt + 1⟩)).passEvent
       if a.2.2.portLive r.port then
         u.emit (.reply r.port r.mac r.ip r.udp f.op a.1 false r.seq r.session att r.version a.2.1)
       else u) := by
  let u := a.2.2.updSession r.session (Session.keep ⟨r.seq, f.op, a.1, a.2.1, a.2.2.evt + 1⟩)
  refine ⟨((u.findSession r.session).map fun y => u.attention y).getD 0, ?_⟩
  simp only [State.answered, hc, State.reply, Bool.false_eq_true, if_false]
  rw [State.sendOther_send _ _ _ _ h3 h5, State.send_plain _ _ _ (by exact hp) (by exact hh)]
  rfl

/-- Everything but the session, the output, the timing-out ports and the order of events is as execution has left it. -/
theorem State.answered_rest (hc : f.closes = false) (hp : a.2.2.bit (Reg.lnkProvCtrl r.port) 31 = false)
    (hh : lookupK r.port.val a.2.2.lnk.heldTx = none) :
    State.answered f r a = { a.2.2 with
      bcp := (State.answered f r a).bcp, tx := (State.answered f r a).tx, evt := (State.answered f r a).evt,
      lnk := (State.answered f r a).lnk } ∧ LnkKept a.2.2 (State.answered f r a) := by
  unfold State.answered State.reply
  simp only [hc, Bool.false_eq_true, if_false]
  generalize Tx.reply r.port r.mac r.ip r.udp f.op a.1 false r.seq r.session _ r.version a.2.1 = x
  have h := State.sendOther_plainKept
    (State.passEvent (a.2.2.updSession r.session (Session.keep ⟨r.seq, f.op, a.1, a.2.1, a.2.2.evt + 1⟩))) r.port
    (82 + a.2.1.length) x hp hh
  rw [h]
  exact ⟨rfl, rfl⟩

/-- A state with everything that an answer may touch as another has it. -/
def State.answerInto (s t : State) : State := { s.sendInto t with bcp := t.bcp, evt := t.evt }

theorem State.answered_shape (f : Form) (r : Req) (a : Ans) :
    State.answered f r a = a.2.2.answerInto (State.answered f r a) := by
  unfold State.answered State.reply
  dsimp only
  generalize Tx.reply r.port r.mac r.ip r.udp f.op a.1 false r.seq r.session _ r.version a.2.1 = x
  have h : SendKept _ _ := State.sendOther_kept
    (State.passEvent (a.2.2.updSession r.session (Session.keep ⟨r.seq, f.op, a.1, a.2.1, a.2.2.evt + 1⟩))) r.port
    (82 + a.2.1.length) x
  unfold SendKept at h
  rw [h]
  split <;> rfl

@[simp] theorem State.answered_pending : (State.answered f r a).pending = a.2.2.pending :=
  (congrArg State.pending (State.answered_shape f r a) :)
@[simp] theorem State.answered_variant : (State.answered f r a).variant = a.2.2.variant :=
  (congrArg State.variant (State.answered_shape f r a) :)
@[simp] theorem State.answered_straps : (State.answered f r a).straps = a.2.2.straps :=
  (congrArg State.straps (State.answered_shape f r a) :)
@[simp] theorem State.answered_shadow : (State.answered f r a).shadow = a.2.2.shadow :=
  (congrArg State.shadow (State.answered_shape f r a) :)
@[simp] theorem State.answered_modes : (State.answered f r a).modes = a.2.2.modes :=
  (congrArg State.modes (State.answered_shape f r a) :)
@[simp] theorem State.answered_tiles : (State.answered f r a).tiles = a.2.2.tiles :=
  (congrArg State.tiles (State.answered_shape f r a) :)
@[simp] theorem State.answered_sbx : (State.answered f r a).sbx = a.2.2.sbx :=
  (congrArg State.sbx (State.answered_shape f r a) :)
@[simp] theorem State.answered_que : (State.answered f r a).que = a.2.2.que :=
  (congrArg State.que (State.answered_shape f r a) :)
@[simp] theorem State.answered_dpt : (State.answered f r a).dpt = a.2.2.dpt :=
  (congrArg State.dpt (State.answered_shape f r a) :)
@[simp] theorem State.answered_cmp : (State.answered f r a).cmp = a.2.2.cmp :=
  (congrArg State.cmp (State.answered_shape f r a) :)
@[simp] theorem State.answered_tim : (State.answered f r a).tim = a.2.2.tim :=
  (congrArg State.tim (State.answered_shape f r a) :)
@[simp] theorem State.answered_clk : (State.answered f r a).clk = a.2.2.clk :=
  (congrArg State.clk (State.answered_shape f r a) :)
@[simp] theorem State.answered_ilk : (State.answered f r a).ilk = a.2.2.ilk :=
  (congrArg State.ilk (State.answered_shape f r a) :)
@[simp] theorem State.answered_nv : (State.answered f r a).nv = a.2.2.nv :=
  (congrArg State.nv (State.answered_shape f r a) :)
@[simp] theorem State.answered_pers : (State.answered f r a).pers = a.2.2.pers :=
  (congrArg State.pers (State.answered_shape f r a) :)
@[simp] theorem State.answered_tt : (State.answered f r a).tt = a.2.2.tt :=
  (congrArg State.tt (State.answered_shape f r a) :)
@[simp] theorem State.answered_free : (State.answered f r a).free = a.2.2.free :=
  (congrArg State.free (State.answered_shape f r a) :)

@[simp] theorem State.answered_lnk_streams : (State.answered f r a).lnk.streams = a.2.2.lnk.streams :=
  (congrArg (fun u : State => u.lnk.streams) (State.answered_shape f r a) :)
@[simp] theorem State.answered_lnk_order : (State.answered f r a).lnk.order = a.2.2.lnk.order :=
  (congrArg (fun u : State => u.lnk.order) (State.answered_shape f r a) :)
@[simp] theorem State.answered_lnk_bindA : (State.answered f r a).lnk.bindA = a.2.2.lnk.bindA :=
  (congrArg (fun u : State => u.lnk.bindA) (State.answered_shape f r a) :)
@[simp] theorem State.answered_lnk_bindB : (State.answered f r a).lnk.bindB = a.2.2.lnk.bindB :=
  (congrArg (fun u : State => u.lnk.bindB) (State.answered_shape f r a) :)
@[simp] theorem State.answered_lnk_overlap : (State.answered f r a).lnk.overlap = a.2.2.lnk.overlap :=
  (congrArg (fun u : State => u.lnk.overlap) (State.answered_shape f r a) :)
@[simp] theorem State.answered_lnk_noneUp : (State.answered f r a).lnk.noneUp = a.2.2.lnk.noneUp :=
  (congrArg (fun u : State => u.lnk.noneUp) (State.answered_shape f r a) :)
@[simp] theorem State.answered_lnk_resends : (State.answered f r a).lnk.resends = a.2.2.lnk.resends :=
  (congrArg (fun u : State => u.lnk.resends) (State.answered_shape f r a) :)
@[simp] theorem State.answered_lnk_rejoin : (State.answered f r a).lnk.rejoin = a.2.2.lnk.rejoin :=
  (congrArg (fun u : State => u.lnk.rejoin) (State.answered_shape f r a) :)
@[simp] theorem State.answered_lnk_tports : (State.answered f r a).lnk.tports = a.2.2.lnk.tports :=
  (congrArg (fun u : State => u.lnk.tports) (State.answered_shape f r a) :)

@[simp] theorem State.answered_heldRx : (State.answered f r a).lnk.heldRx = a.2.2.lnk.heldRx := by
  unfold State.answered State.reply
  dsimp only
  split <;> simp [State.closeSession]

/-- Registers are as execution has left them, where no provocation is armed on the port. -/
theorem State.answered_get (k : Nat) (hc : f.closes = false) (hp : a.2.2.bit (Reg.lnkProvCtrl r.port) 31 = false)
    (hh : lookupK r.port.val a.2.2.lnk.heldTx = none) : (State.answered f r a).get k = a.2.2.get k := by
  rw [(State.answered_rest hc hp hh).1]
  rfl

/-- The reply is cached under its SEQUENCE. -/
theorem State.answered_replied (hc : f.closes = false) (hs : (a.2.2.findSession r.session).isSome = true) :
    Replied (State.answered f r a) r f.op a.1 a.2.1 := by
  obtain ⟨y, hy⟩ := Option.isSome_iff_exists.mp hs
  have hf := State.find_updSession a.2.2 r.session (Session.keep ⟨r.seq, f.op, a.1, a.2.1, a.2.2.evt + 1⟩) (fun _ => rfl)
  rw [hy] at hf
  refine ⟨Session.keep ⟨r.seq, f.op, a.1, a.2.1, a.2.2.evt + 1⟩ y, a.2.2.evt + 1, ?_, rfl, rfl⟩
  unfold State.answered State.reply
  simp only [hc, Bool.false_eq_true, if_false]
  unfold State.findSession
  rw [State.sendOther_bcp]
  exact hf

/-- On a live port that is no timing-out port the reply leaves at once. -/
theorem State.answered_tx (hc : f.closes = false) (hp : a.2.2.bit (Reg.lnkProvCtrl r.port) 31 = false)
    (hh : lookupK r.port.val a.2.2.lnk.heldTx = none) (hl : a.2.2.portLive r.port = true) (h3 : r.port.val ≠ 3)
    (h5 : r.port.val ≠ 5) :
    ∃ att, (State.answered f r a).tx
      = a.2.2.tx ++ [.reply r.port r.mac r.ip r.udp f.op a.1 false r.seq r.session att r.version a.2.1] := by
  obtain ⟨att, h⟩ := State.answered_eq (f := f) (r := r) (a := a) hc hp hh h3 h5
  refine ⟨att, ?_⟩
  rw [h]
  simp only [hl, if_true]
  rfl

/-- A served request's command is its answer, the queue and the nonvolatile memories apart. -/
theorem run_served {s : State} {x : Session} (n : Nat) (i : Instr) (body : Session → State → Ans) (h : Served s f r x)
    (hr : (body (x.hear s.tim.now r) (s.arrived r)).2.2.lnk.heldRx = s.lnk.heldRx) :
    run (receive r.port n i fun s => s.request f r body) s
      = .next (State.keeping s (State.answered f r (body (x.hear s.tim.now r) (s.arrived r)))) := by
  unfold run
  rw [receive_quiet _ _ _ _ _ h.quiet, State.request_served body h]
  rw [State.request_served body h, State.answered_heldRx, hr]
  exact h.quiet.heldRx

theorem Replied.keeping {t : State} {o st : BitVec 16} {d : List Byte} (s : State) (h : Replied t r o st d) :
    Replied (State.keeping s t) r o st d := h

end

/-! ### Long operations (R329) -/

/-- A fresh operation. -/
def Op.fresh (h : Nat) (opcode : BitVec 16) (counts : List Nat) : Op :=
  { handle := h, opcode := opcode, done := false, final := 0, bytes := 0, counts := counts, result := [] }

def Session.addOp (o : Op) (x : Session) : Session := { x with ops := x.ops ++ [o] }

/-- The state in which a long command that has been accepted goes on. -/
def State.opened (id : Word) (o : Op) (s : State) : State := s.takeFree.2.updSession id (Session.addOp o)

theorem State.long_accepted (s : State) (id : Word) (x : Session) (op : BitVec 16) (counts : List Nat) (more : List Byte)
    (go : OpRef → State → State) (hf : s.findSession id = some x) (hn : x.HasRoom) :
    ∃ h, s.long id op counts more go = (St.accepted, beBytes 2 h ++ beBytes 2 0 ++ more,
      go ⟨id, h⟩ (s.opened id (Op.fresh h op counts))) := by
  have hn' : ¬ 16 ≤ (x.ops.filter fun (o : Op) => !o.done).length := Nat.not_le.mpr hn
  refine ⟨(freshFrom (x.ops.map fun (o : Op) => BitVec.ofNat 16 o.handle) (x.ops.length + 1) (Config.handle s.free)).toNat, ?_⟩
  unfold State.long State.newOp
  simp only [hf, Option.map_some, Option.getD_some, hn', if_false]
  rfl

theorem State.find_opened (s : State) (id : Word) (x : Session) (o : Op) (hf : s.findSession id = some x) :
    (s.opened id o).findSession id = some (x.addOp o) := by
  have h := State.find_updSession s.takeFree.2 id (Session.addOp o) (fun _ => rfl)
  have h2 : s.takeFree.2.findSession id = s.findSession id := rfl
  rw [h2, hf] at h
  exact h

/-- What a long command's answer shows, where its beginning keeps the session's operations. -/
theorem State.answered_accepted {f : Form} {r : Req} {y : Session} {o : Op} {more : List Byte} (u : State)
    (hc : f.closes = false) (hu : u.findSession r.session = some y) (ho : o ∈ y.ops) (hop : o.opcode = f.op) :
    Accepted (State.answered f r (St.accepted, beBytes 2 o.handle ++ beBytes 2 0 ++ more, u)) r f.op more := by
  have hr := State.answered_replied (f := f) (r := r) (a := (St.accepted, beBytes 2 o.handle ++ beBytes 2 0 ++ more, u)) hc
    (by simp [hu])
  obtain ⟨z, k, hz, hq, hk⟩ := hr
  refine ⟨o.handle, z, o, ⟨z, k, hz, hq, hk⟩, hz, ?_, rfl, hop⟩
  have hf := State.find_updSession u r.session
    (Session.keep ⟨r.seq, f.op, St.accepted, beBytes 2 o.handle ++ beBytes 2 0 ++ more, u.evt + 1⟩) (fun _ => rfl)
  rw [hu] at hf
  have : (State.answered f r (St.accepted, beBytes 2 o.handle ++ beBytes 2 0 ++ more, u)).findSession r.session
      = some (Session.keep ⟨r.seq, f.op, St.accepted, beBytes 2 o.handle ++ beBytes 2 0 ++ more, u.evt + 1⟩ y) := by
    unfold State.answered State.reply
    simp only [hc, Bool.false_eq_true, if_false]
    unfold State.findSession
    rw [State.sendOther_bcp]
    exact hf
  rw [hz] at this
  injection this with e
  rw [e]
  exact ho

/-- On a closing command the session is gone. -/
theorem State.answered_closed {f : Form} {r : Req} {a : Ans} (hc : f.closes = true) :
    (State.answered f r a).findSession r.session = none := by
  unfold State.answered
  simp only [hc, if_true]
  unfold State.findSession State.closeSession
  simp only [List.find?_filter]
  rw [List.find?_eq_none]
  intro y _
  by_cases h : y.id = r.session <;> simp [h]

/-- A fresh number is none of those in use. -/
theorem freshFrom_notin {w : Nat} (used : List (BitVec w)) (n : Nat) (h : BitVec w) (hn : used.length ≤ n) (hw : n < 2 ^ w) :
    freshFrom used n h ∉ used := by
  have key : ∀ (m : Nat) (g : BitVec w), (∀ j ≤ m, g + BitVec.ofNat w j ∈ used) ∨ freshFrom used m g ∉ used := by
    intro m
    induction m with
    | zero =>
      intro g
      by_cases hg : g ∈ used
      · left; intro j hj; have : j = 0 := by omega
        subst this; simpa using hg
      · right; exact hg
    | succ m ih =>
      intro g
      unfold freshFrom
      by_cases hg : g ∈ used
      · rw [if_pos (by simpa using hg)]
        rcases ih (g + 1) with h1 | h1
        · left
          intro j hj
          cases j with
          | zero => simpa using hg
          | succ j =>
            have := h1 j (by omega)
            have e : g + 1 + BitVec.ofNat w j = g + BitVec.ofNat w (j + 1) := by
              rw [show j + 1 = 1 + j from by omega, BitVec.ofNat_add, BitVec.add_assoc]
              rfl
            rwa [e] at this
        · right; exact h1
      · right; rw [if_neg (by simpa using hg)]; exact hg
  rcases key n h with h1 | h1
  · exfalso
    have hsub : ((List.range (n + 1)).map fun j => h + BitVec.ofNat w j) ⊆ used := by
      intro y hy
      simp only [List.mem_map, List.mem_range] at hy
      obtain ⟨j, hj, rfl⟩ := hy
      exact h1 j (by omega)
    have hnd : ((List.range (n + 1)).map fun j => h + BitVec.ofNat w j).Nodup := by
      apply List.Nodup.map_on _ List.nodup_range
      intro i hi j hj e
      simp only [List.mem_range] at hi hj
      have e2 := congrArg BitVec.toNat ((BitVec.add_right_inj h).mp e)
      simp only [BitVec.toNat_ofNat] at e2
      rw [Nat.mod_eq_of_lt (by omega), Nat.mod_eq_of_lt (by omega)] at e2
      exact e2
    have := (List.subperm_of_subset hnd hsub).length_le
    simp at this
    omega
  · exact h1

/-! ### Operations that end -/

/-- What a done operation leaves of the sessions: the same sessions, in order. -/
theorem State.opDone_isSome (s : State) (o : OpRef) (st : BitVec 16) (d : List Byte) (id : Word) :
    ((s.opDone o st d).findSession id).isSome = (s.findSession id).isSome := by
  unfold State.opDone
  split
  · rfl
  · rw [State.find_attendIf]
    unfold State.updOpRef State.updSession State.findSession
    rw [Option.isSome_map, find_mapped]
    · simp
    · intro x; split <;> rfl

theorem State.optDone_isSome (s : State) (o : Option OpRef) (st : BitVec 16) (d : List Byte) (id : Word) :
    ((s.optDone o st d).findSession id).isSome = (s.findSession id).isSome := by
  unfold State.optDone
  split
  · exact State.opDone_isSome ..
  · rfl

end Sys2Proof.Machine
end

