-- ==== Sys2Proof/Tests/Slice0.lean ====
section
/-! SUPPORT. Small states and requests, a state for the hypotheses of every obligation, the checks of WellFormed, and
single steps whose outcome the spec states. -/

set_option Elab.async false

open Sys2Proof Sys2Proof.Machine

namespace Sys2Proof.Tests

/-! ### Small states -/

def sess : Session :=
  { slot := 0, id := 5, ip := 9, udp := 7, port := 6, version := 1, timeout := secU 10, last := 0, high := none,
    cache := [], atn := 0, atnAt := [], snaps := [], highs := [], marks := [], ops := [], nonce := none, auth := [],
      report := [], taken := [] }
def req (n : Nat) : Req :=
  { port := 6, mac := 1, ip := 9, udp := 7, udpLen := 36 + n, magic := 0x4256, version := 1, flags := 0, target := 0,
    seq := 1, session := 5, plen := BitVec.ofNat 16 n, module := 0xFFFF, resv := false, presv := false, crcOk := true,
      frameLost := false, ahead := 0 }
def up : State := { State.reset with
  modes := { Modes.reset with
    inner := .standby
    base := .standby
    mainMv := 12000
    control := true
    att := true
    data := true
    depot := true
    tiles := 0xF
    ringMode := true }
  regs := [0,1,2,3,4,5,6].foldl (fun (m : RegMap) (p : Nat) => m.put (Reg.lnkPortStat p) 1)
    [(Reg.clkPllStat, 0x10000)]
  bcp := { Bcp.reset with sessions := [sess] } }
def lo (x : Session) : State := { up with bcp := { Bcp.reset with sessions := [x] } }
def secs (n : Nat) (s : State) : State := s.withTim fun t => { t with now := t.now + secU n, mt := t.mt + secU n }
def late (n : Nat) : State := secs n up
def tgt (n : Nat) (r : Req) : Req := { r with target := BitVec.ofNat 16 n }
def opOf (h : Nat) (d : Bool) : Op := ⟨h, 7, d, 0, 0, [1, 2], [4]⟩
def sOp (h : Nat) (d : Bool) : Session := { sess with ops := [opOf h d] }
def inM (m : Mode) : State := up.withModes fun x => { x with inner := m, base := m }
def tran (m b : Mode) (e st : Bool) : Trans := ⟨m, b, none, e, st, 0⟩
def withT (x : Trans) (s : State) : State := s.withModes fun m => { m with trans := some x }
def trig : State :=
  { (inM .triggered).withModes fun m => { m with sampling := true } with sbx := { Sbx.reset with t0 := 0 } }
def off : State := State.reset.withModes fun m => { m with inner := .safe, base := .safe, mainMv := 12000 }
def good : StartFacts := ⟨12000, false, true, 15, 15, 0x7F, 500⟩
def gen0 : Mem :=
  [(128, 1), (512, 67), (513, 71), (514, 1), (636, 145), (637, 212), (638, 123), (639, 248)]
def gen0S : State := { State.reset with nv := { Nv.reset with otp := gen0 } }
def marked (b : List Nat) : Session := { sess with marks := b }
def latched (b : Nat) (v : RegMap) (s : State) : State := { s with bcp := { s.bcp with latches := [⟨b, v, [], 0⟩] } }
def on (p : Port) (r : Req) : Req := { r with port := p }
def bnd : Bind := ⟨1, 9, 21333⟩
def ml (mode active : Nat) : State :=
  { (up.set Reg.lnkMlCtrl (BitVec.ofNat 32 (0x000A0003 + 16 * mode))).set Reg.lnkMlStat
      (BitVec.ofNat 32 (0x30 + active)) with
    lnk := { Lnk.reset with bindA := some bnd, bindB := some bnd, noneUp := none } }
def hrEnt (n t : Nat) : HrEnt :=
  ⟨7, cellsOf .registerPort 3 1 ((List.range 44).map (BitVec.ofNat 8) ++ beBytes 4 n ++ List.replicate (n - 48) 9), t⟩
def withHr (l : List HrEnt) : State := { up with que := { Que.reset with hostRead := l } }
def sRec : SRec :=
  { seq := some 4, stored := true, block := 0x60000, offset := 64, length := 100, gens := [(0x60000, 0)], order := 0 }
def rUnit : RUnit :=
  { useq := 4, chan := 3, block := 9, offset := 4064, length := 100, descriptor := List.replicate 64 5, gens :=
    [(9, 0), (10, 0)], tFirst := secU 1, tEnd := secU 2, present := true }
def dep : State := { (up.set64 Reg.queSeqNextLo Reg.queSeqNextHi 9).set64 Reg.dptUnitSeqLo Reg.dptUnitSeqHi 9 with
  dpt := { Depot.reset with
    recs := [sRec]
    units := [rUnit]
    map := [(9, ⟨1, 0, false, false, 0, 1, 0⟩), (10, ⟨1, 0, false, false, 0, 0, 0⟩),
      (0x60000, ⟨2, 0, false, false, 0, 1, 0⟩)]
    mem := Mem.cells (9 * 2 ^ 18 + 4064) (List.replicate 300 7) } }
def strm (id : Nat) : Stream := Stream.fresh (BitVec.ofNat 16 id)
def withStr (l : List Stream) (s : State) : State := s.withLnk fun x => { x with streams := l }
def win (i : WinId) (n : Nat) : Win :=
  { id := i, trigger := 100, first := 0, pre := 100, post := 155, maxLen := 4096, program := true, close := some 255,
    chans := 0, ilv := 0, coincidence := 0, flags := 0, pieces := [], marks := [], lost := [], suspect := [],
      swLost := [], sws := List.replicate 257 (1, 2), seq := some n, endAt := none, long := false, reserved := 0,
        place := 0 }
def lvEnt (n k : Nat) : LiveEnt := ⟨7, n, (hrEnt n 0).cells, false, k, none, 0⟩
def rUnitD : RUnit :=
  { rUnit with
      descriptor := [3, 0, 4] ++ List.replicate 13 0 ++ beBytes 8 1 ++ beBytes 4 3 ++
        [0, 0] ++ List.replicate 34 255 }
def recs3 : Depot := { dep.dpt with recs := (List.range 3).map fun i => { sRec with seq := some (6 + i) } }
def atPos (n : Nat) (s : State) : State :=
  s.withTim fun t => { t with mt := n * periodU + 3 * nsU, now := n * periodU + 3 * nsU }
def frontAt (t : Tile) (k : Nat) (f : Front → Front) (s : State) : State := s.updFront t k f
def busyS : State := up.withLnk fun l => { l with busyA := 5, busyB := 5 }
def pl (m : Nat) : State :=
  (((trig.set (Reg.jctExCtrl 1 2) (BitVec.ofNat 32 m)).set (Reg.jctExPulse 1 2) 0x30010).set
    (Reg.jctExPeriod 1 2) 200).set (Reg.jctExStat 1 2) 1
def armed (n m : Nat) : State := (secs 2 (pl m)).updTile 1 fun x => { x with arms := [⟨2, 0, n⟩] }
def smp : State := atPos 100 ((trig.set (Reg.slcSampling 0) 0xFFFF).set (Reg.feaChStat 0 3) 1)
def crs (t0 : Nat) : State := frontAt 0 3 (fun f => { f with crossed := some t0 }) smp
def rel (f : Relief → Relief) (s : State) : State := s.updRelief 2 f
def rn : State := (trig.set (Reg.slcSampling 2) 0xFFFF).set (Reg.calSliceEn 2) 0x1FFFF |>.set (Reg.calCtrl 2) 1
def dw (sl : Nat) : Dwell := ⟨sl, 0, 0, 0, false, false, false, false, false, Trims.reset, Trims.reset, (0,0,0)⟩
def dwg (d : Dwell) (n st : Nat) : State :=
  atPos n ((rel (fun r => { r with dwell := some d }) rn).setFld (Reg.calStat 2) 10 8 st)
def far : Nat := 100000000 * framePeriods - 1000
def dC : Dwell := { dw 5 with standing := true, calibrated := true }
def dR : Dwell := { dC with returned := true, step := (1,2,3) }
def wOpen (s : State) : State := { s with sbx := { s.sbx with hits := [{ win (.hit 37) 2 with chans := 1 <<< 37 }] } }
def noUse : State := (((up.set Reg.timCtrl 0).set Reg.clkCtrl 0).set Reg.sbxXtrg 0).set Reg.sbxPrim 0
def auBytes : List Byte := [0x41, 0x55, 8, 5, 0, 0, 0, 0] ++ List.replicate 7307 1
def au : Mem := (List.range 7315).zip auBytes
def sA : Session := { sess with auth := au, nonce := some (77, 0) }
def sg (r : Req) : Req := { r with flags := 2 }
def sB : Session := { sess with auth := [(0, 1)], nonce := some (77, 0) }
def withJ (l : List AttJob) (s : State) : State := { s with pers := { s.pers with jobs := l } }
def ins : Install := ⟨⟨5, 3⟩, 1, [1, 2, 3, 4, 5, 6, 7, 8, 9, 10]⟩
def insS : State := { lo (sOp 3 false) with pers := { Pers.reset with install := some ins } }
def cjob (n : Nat) : CstJob := ⟨n, ⟨5, 3⟩, [1,2,3,4,5,6,7,8,9,10], 0, true⟩
def cst (n : Nat) : State :=
  { (lo (sOp 3 false)).setBit Reg.cstStat 8 true with pers := { Pers.reset with cst := some (cjob n) } }
def hs (l : List Nat) (s : State) : State :=
  (l.zip (List.range 4)).foldl (fun s x => s.setHoldState (Fin.ofNat 4 x.2) x.1) s
def ho (l : List Nat) : State :=
  hs l ({ ml 0 0 with
      dpt := { dep.dpt with
          map := [(9, ⟨4, 1, false, false, 0, 1, 0⟩), (10, ⟨4, 1, false, false, 0, 0, 0⟩),
            (11, ⟨1, 0, false, false, 0, 0, 0⟩), (0x60000, ⟨2, 0, false, false, 0, 1, 0⟩)] } })
def withSes (x : Session) (s : State) : State := { s with bcp := { s.bcp with sessions := [x] } }
def hol (n : Fin 4) (f : Hold → Hold) (s : State) : State := s.updHold n f
def frz : State :=
  { hs [1] (withSes (sOp 3 false) (secs 9 dep)) with
      dpt := { dep.dpt with
          ringPos := some (10, 64),
          holds := upd dep.dpt.holds 0 fun h => { h with
              op := some ⟨5, 3⟩, ta := secU 3, pre := 2000000, order := 9 } } }
def dS : Stream := { strm 0x101 with ended := true, slot := some 1 }
def dr (l : List Nat) (a : Bool) : State :=
  withSes (sOp 3 false) (withStr [dS] (hol 1 (fun h => { h with drainOp := some ⟨5, 3⟩, autoRelease := a }) (ho l)))
def wm (m : Nat) (s : State) : State := s.set (Reg.wirPin 1 3) (BitVec.ofNat 32 (m + 0x200))
def wr (f : Wire → Wire) (s : State) : State := s.setWire 1 (f (s.wire 1 3))
def wat (s : State) : State := wr (fun w => { w with centre := some (5, s.tim.now) }) (wm 1 s)
def puls (f : Wire → Wire) (s : State) : State := wr f (wm 2 (s.set (Reg.jctPin 1 3) 0x71))
def cutS : State :=
  { (secs 1 (trig.set Reg.sbxLag 250)) with
      sbx := { trig.sbx with
          period := 700, wireCuts := [⟨19, 700, 0, 0, 3⟩],
          hits := [{ win (.hit 19) 2 with
              chans := 1 <<< 19, first := 600, trigger := 650, pre := 50, post := 9000, close := none,
                endAt := none }, { win (.hit 21) 2 with
                    chans := 1 <<< 21, first := 600, trigger := 650, pre := 50, post := 9000, close := none,
                    endAt := none }] } }
def pr (f : Prog → Prog) (s : State) : State := s.updProg 2 f
def sb : State :=
  secs 1 ((trig.set Reg.sbxLag 250).set (Reg.sbxProgSTCtrl 2 0 1) 0x31 |>.set (Reg.sbxProgSTTerm 2 0 1 0) 0)
def cls (w : Win) : State := { sb with sbx := { sb.sbx with closing := [win (.hit 9) 2, w] } }
def tp (s : State) : State :=
  [2,3,4,5].foldl (fun (s : State) (p : Nat) => s.updTport p fun x => { x with version := some 1, upAt := some 0 }) s
def hd (p : Port) (ty : Byte) : TmHead := ⟨p, 1, ty, 0, false⟩
def tb (src : Nat) : State := ((tp trig).setFld Reg.sbxXtrg 1 0 src).setFld Reg.lnkTpCtrl 3 0 15
def ff : FrameFacts := ⟨true, 64, false, false, 0x88F7, none, none, 2, 1⟩
def ipf : IpFacts := ⟨4, 5, true, false, 0x0A400000, 17, 21332, true⟩
def pf (t : PtpType) : PtpFrame :=
  { type := t, versionPtp := 2, domainNumber := 0, twoStep := false, seqId := 4, source := 9, correction := 100,
    ingress := 50, egress := 70050, fcsOk := true }
def tcS : State := up.setBit (Reg.timDomCfg 1) 2 true
def tcF : State := tcS.updDom 1 fun d => { d with pend := [⟨4, 9, 0, 77, 0⟩] }
def r2 : State :=
  secs 1 { ((trig.set (Reg.slcSampling 2) 0xFFFF).updTile 2
    fun x => { x with
        masks := [(0, 0xFFFF)], frameNo := 7, framePeriod := 28672, gapNext := true, swPeriod := 32768,
        sent := [(28672, [1, 2, 3])] }) with sbx := { trig.sbx with period := 32768 } }
def oct : List Byte :=
  damage [(33, 1)] (frameOctets (frameBody 2 7 true (r2.chFlags 2 28672) (r2.maskAt 2 28672) (r2.ilvMask 2) [1,2,3]))
def sw2 : State := r2.updTile 2 fun x => { x with swPeriod := 512 }
def lev : List (List Int) := List.replicate 256 (List.replicate 16 900000)
def vals (s : State) (n : Nat) : List (List Int) :=
  ((s.takeSegment 2 n lev).map fun (p : List Taken) => p.map fun (y : Taken) => y.value)
def blt (n : Nat) : Built := ⟨n, 1, List.replicate 200 5, false, 0, 0⟩
def bs (route : Nat) : State :=
  { (trig.set Reg.queRoute (BitVec.ofNat 32 route)) with que := { Que.reset with built := [blt 8, blt 7] } }
def bltL : Built := { blt 7 with long := true }
def ent (n : Nat) : LiveEnt := { lvEnt 300 64 with seq := n }
def m0 : State := { (ml 0 0).setFld Reg.lnkBdtCfg 13 0 164 with que := { Que.reset with live := [ent 5] } }
def m3 : State := (ml 0 0).setFld Reg.lnkBdtCfg 13 0 164
def l3 : Loaded := ⟨.record 9, 300, 0, cellsOf .registerPort 3 3 (List.replicate 300 7), [], []⟩
def x3 (l : Loaded) : Stream := { strm 4 with loaded := [l], items := [.record 4] }
def x4 : Stream := { strm 4 with next := 6 }
def x5 (b : Bool) : Stream := { strm 0xFFFF with stopped := b }
def e5 (b : Bool) : State := (withStr [x5 b] (ml 0 0)).setBit Reg.lnkMlStat 10 true
def sgm (n : Nat) : Seg :=
  { seq := n, port := 0, parts := [], firstOffset := 0xFFFF, flags := 4, sentAt := 0, order := 0, retx := 0,
    deadline := usU 800 }
def ackP : AckPkt :=
  { port := 0, magic := 0x4244, version := 1, type := 2, flags := 0, stream := 4, segSeq := 3, module := 0,
    portByte := 0, resv := 0, firstOffset := 0, dataLength := 0, itemSeq := 0, ranges := [], crcOk := true }
def sx : Stream := { strm 4 with segs := [sgm 1, sgm 2], next := 5, ended := true, op := some ⟨5, 3⟩ }
def sx2 : Stream := { strm 4 with segs := [sgm 1, sgm 2, sgm 4, sgm 6], next := 7, ended := true, op := some ⟨5, 3⟩ }
def ub (c n : Nat) : UnitB :=
  { chan := c, ilv := false, first := 0, time := 0, status := List.replicate 8 0, flags := List.replicate 8 0,
    words := List.replicate n 5, closed := true }
def cm (gr : Nat) (f : Cmp → Cmp) : State :=
  { (trig.set Reg.cmpGrant (BitVec.ofNat 32 gr)).set Reg.cmpCtrl 1 with cmp := f Cmp.reset }
def jb (c : Nat) : Job := ⟨ub c 16, 0, 0, none, false, false, true, false, false⟩
def js (e : Nat) (l : List Job) (v : Vector (List Job) 32) : Vector (List Job) 32 := upd v (Fin.ofNat 32 e) fun _ => l
def bd : List Byte := compressed (ub 1 16).words
def jr (f : Nat) : Job := { jb 1 with first := some f }
def dg (f : Depot → Depot) : State :=
  ({ dep with
      dpt := f { dep.dpt with
          map := (0, ⟨2, 0, false, false, 0, 0, 0⟩) :: dep.dpt.map } }.set Reg.dptScrubCfg 0x80000001).setBit
            Reg.pwrGrant 1 true
def sy : SyncMsg :=
  { port := 4, domainNumber := 0, versionPtp := 2, minorVersionPtp := 0, twoStep := false, followUp := none,
    source := 9, logInterval := 0xFD, seqId := 4, origin := 1000000, correction := 10, ingress := 3000000 }
def an : AnnounceMsg :=
  { port := 4, domainNumber := 0, versionPtp := 2, minorVersionPtp := 1, logInterval := 1, source := 9, seqId := 5,
    gmIdentity := 77, priority1 := 128, gmClass := 6, accuracy := 0x21, variance := 100, priority2 := 128,
      stepsRemoved := 1, utcOffset := 37, utcValid := true, ptpTimescale := true }
def dom (st : Nat) (f : Dom → Dom) : State :=
  (((secs 1 up).setFld (Reg.timDomStat 1) 2 0 st).setFld (Reg.timDomCfg 1) 3 0 0xF |>.set Reg.timCtrl 0x300).updDom 1
    fun d => f { d with master := some an, heard := [(an, secU 1)], lastGm := some 77 }
def sy' : SyncMsg :=
  { sy with domainNumber := BitVec.ofNat 8 ((dom 1 id).domNumber 1), port := Fin.ofNat 7 (domPort 1) }
def an' : AnnounceMsg :=
  { an with domainNumber := BitVec.ofNat 8 ((dom 1 id).domNumber 1), port := Fin.ofNat 7 (domPort 1) }
def fu : FollowUp := { seqId := 4, source := 9, domainNumber := sy'.domainNumber, origin := 1000, correction := 3 }
def syF : SyncMsg := { sy' with twoStep := true, followUp := some fu }
def dr16 (r : BitVec 80) : DelayRespMsg :=
  { port := sy'.port, domainNumber := sy'.domainNumber, versionPtp := 2, minorVersionPtp := 1, source := 9,
    requesting := r, seqId := 8, logInterval := 1, receive := 400, correction := 5 }
def stp (f : Tim → Tim) : State := (dom 3 id).withTim fun t => f t
def s7 : State := (dom 3 id).setBit Reg.timStat 1 true
def s12 : State := (up.setBit Reg.clkStat 8 true).setBit Reg.timStat 1 true
def s12b : State := s12.withTim fun t => { t with mt := t.mt + secU 5 }
def ck (f : Clk → Clk) (s : State) : State := { s with clk := f s.clk }
def cs (stat : Nat) (cnt : Nat) (s : State) : State :=
  [0, 1, 2].foldl (fun (s : State) (x : Nat) => s.set (Reg.clkSrcStat x) (BitVec.ofNat 32 (0x10 + cnt * 65536)))
    ((s.set Reg.clkStat (BitVec.ofNat 32 stat)).set Reg.clkCtrl 0x300)
def stopS : State :=
  (ck (fun c => { c with stopSampling := true }) (cs 0x158 16 (secs 1 trig))).withModes fun m => { m with
      sampling := false, last := some 4096 }
def rsm : State :=
  { stopS with
      sbx := { trig.sbx with period := 4096 },
      tiles := Vector.replicate 4 { TileState.reset with framePeriod := 4096 } }
def tr (f : Timetable → Timetable) (s : State) : State := { s with tt := f { Timetable.reset with running := true } }
def st (n : Nat) : List (Nat × BitVec 64 × Bool) := (List.range n).map fun i => (i + 1, 0, false)
def sh (n : Nat) : State :=
  tr (fun t => { t with
      overTicks := 10, steps := st n }) (((List.range 8).foldl
        (fun s g => s.set (Reg.pwrShedLo g) (BitVec.ofNat 32 (2 ^ g)))
          (trig.set (Reg.slcSampling 0) 0xFFFF)).setFld Reg.pwrStat 27 24 n)
def ls (d : Nat) (late : Nat) (r : Nat) : LaneStep := ⟨BitVec.ofNat 512 d, late, false, 3, BitVec.ofNat 512 r⟩
def two : State := up.setFld Reg.ilkLaneStat 10 8 4
def stf (i : Fin 3) : LaneStep := ls (i.val + 1) 0 1
def stg (i : Fin 3) : LaneStep := { stf i with selfFault := i == 0 }
def rs (n : Nat) : State :=
  { (up.setFld Reg.ilkLaneStat (4 * n + 2) (4 * n) 2) with ilk := { Ilk.reset with resync := some n } }
def sw : State := ((((trig.setBit (Reg.thrChCfg 0 2) 0 true).set (Reg.thrChSet0 0 2) 100).set (Reg.thrChClr0 0 2) 50))
def swSets (v : Int) : Bool := if false then decide (v ≤ 100) else decide (100 ≤ v)
def swClears (v : Int) : Bool := if false then decide (50 ≤ v) else decide (v ≤ 50)
def swNext (s : State) (k : Chan) (v : Int) (on : Bool) : Bool :=
  s.thrEn 0 k 0 && (if false then swSets v else if on then !swClears v else swSets v)
def sw219 : State := sw.set (Reg.slcIlv 0) 2
def sw319 : State := ((sw219.setBit (Reg.thrChCfg 0 3) 0 true).set (Reg.thrChSet0 0 3) 100).set (Reg.thrChClr0 0 3) 50
def csx : Session := { sess with high := some 1, cache := [⟨1, 7, 3, [1,2], 9⟩] }
def ry (r : Req) (s : State) : Tx :=
  .reply r.port r.mac r.ip r.udp 7 3 true r.seq r.session (s.attention csx) r.version [1,2]
def cb : State := { lo csx with lnk := { Lnk.reset with busyA := secU 1, busyB := secU 1 } }
def an20 : AnnounceMsg :=
  { port := 4, domainNumber := 0, versionPtp := 2, minorVersionPtp := 0, logInterval := 1, source := 9, seqId := 5,
    gmIdentity := 77, priority1 := 128, gmClass := 6, accuracy := 0x21, variance := 100, priority2 := 128,
      stepsRemoved := 1, utcOffset := 37, utcValid := true, ptpTimescale := true }
def dom20 (st : Nat) (f : Dom → Dom) : State :=
  (((secs 1 up).setFld (Reg.timDomStat 1) 2 0 st).setFld (Reg.timDomCfg 1) 3 0 0xF |>.set Reg.timCtrl 0x300).updDom 1
    fun d => f { d with master := some an20, heard := [(an20, secU 1)], lastGm := some 77 }
def s720 : State := (dom20 3 id).setBit Reg.timStat 1 true
def s8 : State := s720.withTim fun t => { t with mt := (baseU (s720.baseOf (s720.chooseRef s720.timRef))).toNat }

/-! ### The hypotheses of the obligations hold together -/

theorem served_of {s : State} {f : Form} {r : Req} {x : Session}
    (h : (s.portLive r.port = true ∧ s.bit (Reg.lnkProvCtrl r.port) 31 = false ∧ lookupK r.port.val s.lnk.heldTx = none
      ∧ lookupK r.port.val s.lnk.heldRx = none) ∧ s.bcpDrops r = false ∧ s.findSession r.session = some x ∧ x.ip = r.ip
      ∧ x.udp = r.udp ∧ x.version = r.version ∧ f.malformed r = false ∧ x.crowded r = false ∧ r.frameLost = false
      ∧ x.isNew r.seq = true ∧ f.modes (s.arrived r) = true) : Served s f r x := by
  obtain ⟨⟨a, b, c, d⟩, e, g, i, j, k, l, m, n, o, q⟩ := h
  exact ⟨⟨a, b, c, d⟩, e, g, i, j, k, l, m, n, o, q⟩

theorem quiet_of {s : State} {p : Nat}
    (h : s.portLive p = true ∧ s.bit (Reg.lnkProvCtrl p) 31 = false ∧ lookupK p s.lnk.heldTx = none
      ∧ lookupK p s.lnk.heldRx = none) : s.Quiet p :=
  ⟨h.1, h.2.1, h.2.2.1, h.2.2.2⟩

/-- The CRC register over zero bytes, in pieces that the kernel evaluates one by one. -/
theorem crc_zeros {c d e : Word} (n m : Nat) (h : (List.replicate n (0 : Byte)).foldl crcByte c = d)
    (g : (List.replicate m (0 : Byte)).foldl crcByte d = e) :
    (List.replicate (n + m) (0 : Byte)).foldl crcByte c = e := by
  rw [← List.replicate_append_replicate, List.foldl_append, h, g]

theorem gen0_crc : crc32c ([0x43, 0x47, 1, 0] ++ List.replicate 120 0) = 0x91D47BF8 := by
  have h : (List.replicate 120 (0 : Byte)).foldl crcByte 0xDE2B1E21 = 0x6E2B8407 :=
    crc_zeros 100 20 (d := 0x406CB8AE) (crc_zeros 80 20 (d := 0xA3909CBE) (crc_zeros 60 20 (d := 0x1DD9564C)
      (crc_zeros 40 20 (d := 0x6C5D576A) (crc_zeros 20 20 (d := 0xAA8BED3C) (by decide +kernel) (by decide +kernel))
        (by decide +kernel)) (by decide +kernel)) (by decide +kernel)) (by decide +kernel)
  have g : ([0x43, 0x47, 1, 0] : List Byte).foldl crcByte 0xFFFFFFFF = 0xDE2B1E21 := by decide +kernel
  unfold crc32c
  rw [List.foldl_append, g, h]
  decide +kernel

theorem gen0_best : gen0S.bestGen = 0 := by
  have h3 : gen0S.genValid 3 = false := by decide +kernel
  have h2 : gen0S.genValid 2 = false := by decide +kernel
  have h1 : gen0S.genValid 1 = false := by decide +kernel
  have h0 : gen0S.genValid 0 = true := by
    have hb : (gen0S.otpBytes (genAddr 0) 128).take 124 = [0x43, 0x47, 1, 0] ++ List.replicate 120 0 := by decide +kernel
    unfold State.genValid State.genOk
    rw [hb, gen0_crc]
    decide +kernel
  simp [State.bestGen, h0, h1, h2, h3]

theorem gen0_patchEn : (gen0S.loadIdentity.bootLanes 7).patchEn = false := by
  unfold State.loadIdentity
  have h (x y : Nat × Nat) : (((gen0S.set64 Reg.ilkEui64Lo Reg.ilkEui64Hi (Mem.num gen0S.nv.otp 0 8)).set64 Reg.lnkMacLo
    Reg.lnkMacHi (Mem.num gen0S.nv.otp 8 6))).bestGen = 0 := gen0_best
  simp only [h (0, 0) (0, 0)]
  decide +kernel

theorem numbered (n : Nat) (l : List Byte) (h : l.length = n) :
    ((List.range n).zip l).map (fun c => c.1) = List.range n ∧ ((List.range n).zip l).map (fun c => c.2) = l
      ∧ ((List.range n).zip l).length = n :=
  ⟨List.map_fst_zip (by simp [h]), List.map_snd_zip (by simp [h]), by simp [h]⟩

theorem auBytes_length : auBytes.length = 7315 := by
  rw [auBytes, List.length_append, List.length_replicate]
  rfl

theorem sA_auth : authBroken (heldFrom0 sA.auth) (sA.auth.map fun c => c.2) = false := by
  have h := numbered 7315 auBytes auBytes_length
  have h1 : auBytes.take 2 = [0x41, 0x55] := List.take_append_of_le_length (by decide)
  have h2 : (auBytes.drop 6).take 2 = [0, 0] := by
    rw [auBytes, List.drop_append_of_le_length (by decide)]
    exact List.take_append_of_le_length (by decide)
  have e : sA.auth = au := by simp only [sA]
  rw [e, au]
  unfold heldFrom0 authBroken
  rw [h.1, h.2.1, h.2.2, if_pos rfl, h1, h2]
  decide

/-- A window centre has not drifted at the moment of its capture. -/
theorem wat_centre (v : Int) : (wat trig).centreNow v (5, 0) = (5, 0) := by
  have h : ((wat trig).tim.now - 0) / usU 1 = 0 := by decide +kernel
  have g (n m : Nat) : min (min ((0 : Nat) : Int) (n : Int)) (m : Int) = 0 := by omega
  simp only [State.centreNow, h]
  rw [g]
  split <;> rfl

/-- A bank in force, the MRAM as given, its recheck due. -/
def rckS (m : Mem) : State := { (secs 3600000 up).setFld Reg.cstStat 1 0 0 with nv := { Nv.reset with mram := m } }

theorem rckS_inForce (m : Mem) : (rckS m).inForce = 0 := by
  have h : ((secs 3600000 up).setFld Reg.cstStat 1 0 0).inForce = 0 := by decide +kernel
  exact h

theorem rckS_digest (m : Mem) (h : Mem.num m (bankAddr 0 + 8) 4 = 0) : (rckS m).bankDigest 0 = sha3Bytes [] := by
  show sha3Bytes (Mem.readBytes m (bankAddr 0) (Mem.num m (bankAddr 0 + 8) 4)) = sha3Bytes []
  rw [h]
  rfl

/-- A bank in force whose seal is a wrong one, whatever SHA3-512 gives: zeros, or a byte 1 before them. -/
theorem wit_recheck_fails : ∃ s : State, 2 ≤ s.modes.inner.code
    ∧ s.pers.recheckAt + secU (3600 * s.fld Reg.cstRecheck 9 0) ≤ s.tim.now ∧ s.inForce < 2
    ∧ (s.upsetBank s.inForce []).sealHolds s.inForce = false := by
  have go (m : Mem) (hd : Mem.num m (bankAddr 0 + 8) 4 = 0)
      (h : Mem.readBytes m (bankAddr 0 + sealOffset) 64 ≠ sha3Bytes []) :
      ((rckS m).upsetBank (rckS m).inForce []).sealHolds (rckS m).inForce = false := by
    rw [rckS_inForce]
    show (Mem.readBytes m (bankAddr 0 + sealOffset) 64 == (rckS m).bankDigest 0) = false
    rw [rckS_digest m hd]
    exact beq_eq_false_iff_ne.mpr h
  by_cases h : sha3Bytes [] = List.replicate 64 0
  · exact ⟨rckS [(sealOffset, 1)], by decide +kernel, by decide +kernel, by decide +kernel,
      go _ (by decide +kernel) (by rw [h]; decide +kernel)⟩
  · exact ⟨rckS [], by decide +kernel, by decide +kernel, by decide +kernel,
      go _ (by decide +kernel) (fun g => h (g.symm.trans (by decide +kernel)))⟩
theorem witness_idleStepPassesOnePeriod :
    ∃ (s : State), s.pending = [] :=
  ⟨up, by decide +kernel⟩

theorem witness_programmedOtpBitsStay :
    ∃ (s : State) (t : State), step s = .next t :=
  ⟨up, up.tick, rfl⟩

theorem witness_nonvolatileMemoriesStayCanonical :
    ∃ (s : State) (t : State), NvWf s ∧ step s = .next t :=
  ⟨up, up.tick, ⟨by decide +kernel, by decide +kernel⟩, rfl⟩

theorem witness_sessionCommandsComplete :
    (∃ (s : State) (r : Req) (bcp : Byte × Byte) (bdt : Byte × Byte) (rec : Byte × Byte) (cblk : Byte × Byte)
      (timeout : BitVec 16), s.Quiet r.port ∧ s.bcpDrops r = false ∧ r.version = 1 ∧ r.session = 0 ∧ (Form.make
      0x0001 28 State.inAll).malformed r = false ∧ timeout.toNat ≤ 3600 ∧ common bcp = true ∧ common bdt = true ∧
      common rec = true ∧ common cblk = true ∧ s.bcp.orphans.length < 2 ^ 31 ∧ (∀ o ∈ s.bcp.opened, ¬ (o.ip = r.ip ∧
      o.udp = r.udp ∧ o.seq = r.seq)) ∧ s.bcp.sessions.length ≤ 3)
    ∧ (∃ (s : State) (r : Req) (x : Session), Served s ⟨0x0002, 0, false, false, true, State.inAll⟩ r x)
    ∧ (∃ (s : State) (n : Fin 4) (x : Session), s.bcp.sessions.find? (fun (y : Session) => y.slot = n.val) = some x ∧
      x.last + x.timeout ≤ s.tim.now)
    ∧ (∃ (s : State) (r : Req) (x : Session), Served s (Form.make 0x0003 0 State.inAll) r x)
    ∧ (∃ (s : State) (r : Req) (x : Session) (op : BitVec 16), op ≠ 0x0003 ∧ listedOpcodes.contains op.toNat = false ∧
      Served s ⟨op, 0, true, false, false, fun _ => true⟩ { r with presv := false } x) :=
  ⟨⟨up, { req 28 with session := 0 }, (1,1), (1,2), (0,1), (1,1), 30, quiet_of (by decide +kernel),
      by decide +kernel⟩,
    ⟨up, req 0, sess, served_of (by decide +kernel)⟩,
    ⟨late 11, 0, sess, by decide +kernel⟩,
    ⟨up, req 0, sess, served_of (by decide +kernel)⟩,
    ⟨up, { req 40 with presv := true }, sess, 0x00FF, by decide +kernel, by decide +kernel, served_of
      (by decide +kernel)⟩⟩

theorem witness_statusAndAttentionCommandsComplete :
    (∃ (s : State) (r : Req) (x : Session), Served s (Form.make 0x0004 0 State.inAll) r x)
    ∧ (∃ (s : State) (r : Req) (x : Session) (replySeq : Word) (c : Cached), Served s (Form.make 0x0005 8 State.inAll)
      r x ∧ x.cache.find? (fun (d : Cached) => d.seq = replySeq) = some c)
    ∧ (∃ (s : State) (r : Req) (x : Session) (o : Op), Served s ⟨0x0006, 0, true, false, false, State.inAll⟩ r x ∧
      x.ops.find? (fun (p : Op) => p.handle = r.target.toNat) = some o ∧ o.done = true)
    ∧ (∃ (s : State) (r : Req) (x : Session), Served s (Form.make 0x0008 0 State.inAll) r x)
    ∧ (∃ (s : State) (r : Req) (x : Session) (data : List Byte), Served s (Form.make 0x0004 0 State.inAll) r x ∧ data =
      (s.arrived r).statusData (x.hear s.tim.now r) ∧ s.SendsAtOnce r.port)
    ∧ (∃ (s : State) (r : Req) (x : Session) (data : List Byte), Served s (Form.make 0x0004 0 State.inAll) r x ∧ data =
      (s.arrived r).statusData (x.hear s.tim.now r) ∧ r.port = 3 ∧ s.tim.now < s.lnk.busyA)
    ∧ (∃ (s : State) (r : Req) (x : Session) (data : List Byte), Served s (Form.make 0x0004 0 State.inAll) r x ∧ data =
      (s.arrived r).statusData (x.hear s.tim.now r) ∧ r.port = 5 ∧ s.tim.now < s.lnk.busyB) :=
  ⟨⟨up, req 0, sess, served_of (by decide +kernel)⟩,
    ⟨lo { sess with cache := [⟨7, 3, 0, [], 12⟩], atn := 0xFF, atnAt := [(1,13),(2,3)], high := some 0 }, req 8,
      { sess with cache := [⟨7, 3, 0, [], 12⟩], atn := 0xFF, atnAt := [(1,13),(2,3)], high := some 0 }, 7, ⟨7, 3, 0,
      [], 12⟩, served_of (by decide +kernel), by decide +kernel⟩,
    ⟨lo (sOp 3 true), tgt 3 (req 0), sOp 3 true, opOf 3 true, served_of (by decide +kernel), by decide +kernel⟩,
    ⟨up, req 0, sess, served_of (by decide +kernel)⟩,
    ⟨up, req 0, sess, (up.arrived (req 0)).statusData (sess.hear up.tim.now (req 0)), served_of (by decide +kernel),
      by decide +kernel, by unfold State.SendsAtOnce; decide +kernel⟩,
    ⟨busyS, on 3 (req 0), sess, (busyS.arrived (on 3 (req 0))).statusData (sess.hear busyS.tim.now (on 3 (req 0))),
      served_of (by decide +kernel), by decide +kernel⟩,
    ⟨busyS, on 5 (req 0), sess, (busyS.arrived (on 5 (req 0))).statusData (sess.hear busyS.tim.now (on 5 (req 0))),
      served_of (by decide +kernel), by decide +kernel⟩⟩

theorem witness_unexecutedRequestsChangeNothingElse :
    (∃ (c : Instr) (r : Req) (s : State) (x : Session), headerOf c = some r ∧ (∀ a b d e f g h, c ≠ .sessionOpen a b
      d e f g h) ∧ s.Quiet r.port ∧ s.findSession r.session = some x ∧ x.ip = r.ip ∧ x.udp = r.udp ∧ s.bcpDrops r =
      false ∧ x.isNew r.seq = false)
    ∧ (∃ (r : Req) (s : State) (x : Session), s.Quiet r.port ∧ s.bcpDrops r = false ∧ s.findSession r.session = some x
      ∧ x.ip = r.ip ∧ x.udp = r.udp ∧ x.version = r.version ∧ (Form.make 0x0004 0 State.inAll).malformed r = false ∧
      ((r.seq, true) ∈ x.taken.take r.ahead ∨ 17 ≤ (x.taken.take r.ahead).length))
    ∧ (∃ (s : State) (r : Req) (x : Session) (f : Form) (a : Word), f = Form.make 0x0101 8 State.inAll ∧ s.Quiet r.port
      ∧ s.bcpDrops r = false ∧ s.findSession r.session = some x ∧ x.ip = r.ip ∧ x.udp = r.udp ∧ x.version = r.version
      ∧ f.malformed r = false ∧ x.crowded r = false ∧ x.isNew r.seq = true ∧ f.modes (s.arrived r) = true ∧
      r.frameLost = true ∧ 0x100000 ≤ a.toNat ∧ (s.arrived r).addrRefused a.toNat = none)
    ∧ (∃ (c : Instr) (r : Req) (s : State), headerOf c = some r ∧ s.Quiet r.port ∧ (∀ a o, c ≠ .nop a o) ∧ s.bcpDrops r
      = true) :=
  ⟨⟨.modeSet (req 1) 5, req 1, lo { sess with high := some 1 }, { sess with high := some 1 }, by decide +kernel,
      by intros; exact nofun, quiet_of (by decide +kernel), by decide +kernel⟩,
    ⟨{ req 0 with seq := 4, ahead := 1 }, lo { sess with taken := [(4, true)] }, { sess with taken := [(4, true)] },
      quiet_of (by decide +kernel), by decide +kernel⟩,
    ⟨up, { req 8 with frameLost := true }, sess, Form.make 0x0101 8 State.inAll, 0x100000, rfl, quiet_of
      (by decide +kernel), by decide +kernel⟩,
    ⟨.modeSet { req 1 with magic := 0 } 5, { req 1 with magic := 0 }, up, by decide +kernel, quiet_of
      (by decide +kernel), by intros; exact nofun, by decide +kernel⟩⟩

theorem witness_modeSetIsAcceptedOrRejected :
    (∃ (s : State) (r : Req) (x : Session) (mode : Byte) (m : Mode), Served s (Form.make 0x0007 1 State.inAll) r x ∧
      x.HasRoom ∧ modeOf mode.toNat = some m ∧ m ≠ .safe ∧ s.modes.inner ≠ .safe ∧ s.modes.trans = none ∧ permitted
      s.modes.inner s.modes.base m = true ∧ (s.modes.inner = .calibrate → s.rangeBusy = false))
    ∧ (∃ (s : State) (r : Req) (x : Session) (mode : Byte) (m : Mode), Served s (Form.make 0x0007 1 State.inAll) r x ∧
      x.HasRoom ∧ modeOf mode.toNat = some m ∧ (m = .standby ∨ m = .update) ∧ s.modes.inner = .safe ∧ s.modes.trans =
      none ∧ s.bit Reg.clkStat 10 = false ∧ (s.modes.thermal = true → s.stillHot = false) ∧ m = .standby)
    ∧ (∃ (s : State) (r : Req) (x : Session) (mode : Byte), Served s (Form.make 0x0007 1 State.inAll) r x ∧ x.HasRoom ∧
      modeOf mode.toNat = some .safe ∧ permitted s.modes.inner s.modes.base .safe = true)
    ∧ (∃ (s : State) (r : Req) (x : Session) (mode : Byte) (m : Mode), Served s (Form.make 0x0007 1 State.inAll) r x ∧
      modeOf mode.toNat = some m ∧ permitted s.modes.inner s.modes.base m = false ∧ (m ≠ .safe → s.modes.trans =
      none))
    ∧ (∃ (s : State) (r : Req) (x : Session) (mode : Byte) (m : Mode), Served s (Form.make 0x0007 1 State.inAll) r x ∧
      modeOf mode.toNat = some m ∧ m ≠ .safe ∧ s.modes.trans.isSome = true) :=
  ⟨⟨up, req 1, sess, 5, .triggered, served_of (by decide +kernel), by unfold Session.HasRoom; decide +kernel,
      by decide +kernel⟩,
    ⟨inM .safe, req 1, sess, 3, .standby, served_of (by decide +kernel), by unfold Session.HasRoom; decide +kernel,
      by decide +kernel⟩,
    ⟨withT (tran .triggered .triggered false false) up, req 1, sess, 2, served_of (by decide +kernel),
      by unfold Session.HasRoom; decide +kernel, by decide +kernel⟩,
    ⟨inM .safe, req 1, sess, 5, .triggered, served_of (by decide +kernel), by decide +kernel⟩,
    ⟨withT (tran .triggered .triggered false false) up, req 1, sess, 3, .standby, served_of (by decide +kernel),
      by decide +kernel⟩⟩

theorem witness_modesAreEntered :
    (∃ (s : State) (x : Trans), s.modes.trans = some x ∧ (s.modes.inner = .safe → x.target = .safe) ∧ (x.ends = false
      ∨ (x.target = .safe ∧ s.modes.sampling = false)))
    ∧ (∃ (s : State) (x : Trans), s.modes.trans = some x ∧ (s.modes.inner = .safe → x.target = .safe) ∧ (x.ends = false
      ∨ (x.target = .safe ∧ s.modes.sampling = false)) ∧ x.target = .safe)
    ∧ (∃ (s : State) (x : Trans), s.modes.trans = some x ∧ (s.modes.inner = .safe → x.target = .safe) ∧ (x.ends = false
      ∨ (x.target = .safe ∧ s.modes.sampling = false)) ∧ x.target = .update) :=
  ⟨⟨withT (tran .triggered .triggered false false) up, tran .triggered .triggered false false, by decide +kernel⟩,
    ⟨withT (tran .safe .safe true false) up, tran .safe .safe true false, by decide +kernel⟩,
    ⟨withT (tran .update .update false false) up, tran .update .update false false, by decide +kernel⟩⟩

theorem witness_samplingStartsAndStops :
    (∃ (s : State), s.modes.startPending = true ∧ s.modes.sampling = false ∧ s.pllLocked = true ∧ s.stopped = false ∧
      s.sbx.closing = [])
    ∧ (∃ (s : State) (x : Trans), s.modes.trans = some x ∧ x.ends = true ∧ s.modes.sampling = true ∧ s.sbx.period %
      framePeriods = 0 ∧ x.first ≤ s.sbx.period ∧ s.anyOpen = false) :=
  ⟨⟨(inM .triggered).setBit Reg.clkStat 3 true |>.withModes fun m => { m with startPending := true },
      by decide +kernel⟩,
    ⟨withT (tran .standby .standby true true) trig, tran .standby .standby true true, by decide +kernel⟩⟩

theorem witness_startUpReachesStandby :
    (∃ (s : State) (f : StartFacts), s.modes.inner = .safe ∧ s.modes.trans = none ∧ s.modes.staySafe = false ∧
      s.modes.control = false ∧ s.fld Reg.pwrStart 27 24 = 0 ∧ s.bit Reg.clkStat 10 = false ∧ 10800 ≤ f.mainMv ∧
      f.railFail = false ∧ f.locked = true ∧ f.tilesTrained = 0xF ∧ f.stacksTrained = 0xF)
    ∧ (∃ (s : State) (f : StartFacts), s.modes.inner = .safe ∧ s.modes.trans = none ∧ s.modes.staySafe = false ∧
      s.modes.control = false ∧ s.fld Reg.pwrStart 27 24 = 0 ∧ s.bit Reg.clkStat 10 = false ∧ 10800 ≤ f.mainMv ∧
      f.railFail = true)
    ∧ (∃ (s : State) (f : StartFacts), s.modes.inner = .safe ∧ s.modes.trans = none ∧ s.modes.staySafe = false ∧
      s.modes.control = false ∧ s.fld Reg.pwrStart 27 24 = 0 ∧ s.bit Reg.clkStat 10 = false ∧ 10800 ≤ f.mainMv ∧
      f.railFail = false ∧ f.locked = true ∧ f.tilesTrained ≠ 0xF)
    ∧ (∃ (s : State) (f : StartFacts) (k : Nat), s.modes.inner = .safe ∧ s.modes.trans = none ∧ s.modes.staySafe =
      false ∧ s.modes.control = false ∧ s.fld Reg.pwrStart 27 24 = 0 ∧ s.bit Reg.clkStat 10 = false ∧ 10800 ≤
      f.mainMv ∧ f.railFail = false ∧ f.locked = true ∧ f.tilesTrained = 0xF ∧ k < s.fitted / 131072 ∧
      f.stacksTrained.getLsbD k = false)
    ∧ (∃ (s : State) (f : StartFacts) (x : Trans), s.modes.inner = .safe ∧ s.modes.trans = some x ∧ x.target = .standby
      ∧ x.base = .standby ∧ s.modes.control = true ∧ s.pllLocked = true ∧ s.bit Reg.clkStat 10 = false ∧ 10800 ≤
      f.mainMv ∧ f.tilesTrained = 0xF ∧ f.stacksTrained = 0xF) :=
  ⟨⟨off, good, by decide +kernel⟩,
    ⟨off, { good with railFail := true }, by decide +kernel⟩,
    ⟨off, { good with tilesTrained := 7 }, by decide +kernel⟩,
    ⟨off, { good with stacksTrained := 7 }, 3, by decide +kernel⟩,
    ⟨(withT (tran .standby .standby false false) (off.withModes fun m => { m with control := true })).set Reg.clkStat
      8, good, tran .standby .standby false false, by decide +kernel⟩⟩

theorem witness_tripsEnterSafe :
    (∃ (s : State) (n : Fin 24) (c : Int), s.fromSafeOn = true ∧ s.modes.control = true ∧ s.sensorOn n = true ∧ 155 ≤
      c)
    ∧ (∃ (s : State) (mv : Nat) (held : Nat), s.fromSafeOn = true ∧ s.modes.control = true ∧ mv < 10500 ∧ 20 ≤ held)
    ∧ (∃ (s : State) (mv : Nat) (held : Nat), s.fromSafeOn = true ∧ s.modes.control = true ∧ 13600 < mv ∧ 20 ≤ held)
    ∧ (∃ (s : State), s.fromSafeOn = true ∧ s.modes.control = true)
    ∧ (∃ (s : State) (mv : Nat) (f : StartFacts), s.modes.inner = .safe ∧ s.modes.staySafe = true ∧ s.modes.trans =
      none ∧ s.bit Reg.clkStat 10 = false ∧ 10800 ≤ mv ∧ mv ≤ 13200 ∧ s.modes.control = false ∧ f.railFail = false) :=
  ⟨⟨up, 3, 155, by decide +kernel⟩,
    ⟨trig, 10499, 20, by decide +kernel⟩,
    ⟨trig, 13601, 20, by decide +kernel⟩,
    ⟨trig, by decide +kernel⟩,
    ⟨off.withModes fun m => { m with staySafe := true }, 12000, good, by decide +kernel⟩⟩

theorem witness_resetsRestoreResetValues :
    (∃ (s : State) (at_ : Nat), s.bcp.resetAt = some at_ ∧ at_ ≤ s.tim.now ∧ s.pers.cst = none ∧ s.pers.install =
      none)
    ∧ (∃ (s : State) (ns : Nat), 1000 ≤ ns ∧ s.modes.nrstLow = false ∧ 2800 ≤ s.modes.auxMv)
    ∧ (∃ (ns : Nat), ns < 500)
    ∧ (∃ (s : State) (ns : Nat), 500 ≤ ns ∧ ns < 1000 ∧ s.modes.nrstLow = false ∧ 2800 ≤ s.modes.auxMv)
    ∧ (∃ (s : State) (ns : Nat), 500 ≤ ns ∧ s.modes.nrstLow = false ∧ s.modes.auxMv < 2800)
    ∧ (∃ (s : State), s.modes.nrstLow = true ∧ 2800 ≤ s.modes.auxMv)
    ∧ (∃ (s : State) (mv : Nat), s.modes.inner = .dormant ∧ s.modes.auxMv < 2800 ∧ 3000 ≤ mv)
    ∧ (∃ (s : State) (mv : Nat), mv < 2800 ∧ s.modes.inner ≠ .dormant ∧ s.pers.cst = none ∧ s.pers.install = none) :=
  ⟨⟨{ secs 1 trig with bcp := { up.bcp with resetAt := some 0 } }, 0, by decide +kernel⟩,
    ⟨trig, 1000, by decide +kernel⟩,
    ⟨400, by decide +kernel⟩,
    ⟨trig, 700, by decide +kernel⟩,
    ⟨State.reset.withModes fun m => { m with inner := .dormant, auxMv := 2799 }, 600, by decide +kernel⟩,
    ⟨State.reset.withModes fun m => { m with inner := .dormant, nrstLow := true }, by decide +kernel⟩,
    ⟨State.reset.withModes fun m => { m with inner := .dormant, auxMv := 2799 }, 3000, by decide +kernel⟩,
    ⟨trig, 2799, by decide +kernel⟩⟩

theorem witness_bootReachesSafe :
    (∃ (s : State), s.modes.inner ≠ .boot)
    ∧ (∃ (s : State) (ok : BitVec 3), s.modes.inner = .boot ∧ 2 ≤ (s.loadIdentity.bootLanes ok).votingLanes.length ∧
      (s.loadIdentity.bootLanes ok).patchEn = false)
    ∧ (∃ (s : State) (ok : BitVec 3) (patchOk : Bool), s.modes.inner = .boot ∧ 2 ≤ (s.loadIdentity.bootLanes
      ok).votingLanes.length ∧ (s.loadIdentity.bootLanes ok).patchEn = true ∧ (patchOk = true ∨
      (s.loadIdentity.bootLanes ok).bestPatch = none) ∧ (s.loadIdentity.bootLanes ok).bestPatch = none)
    ∧ (∃ (s : State), s.modes.inner = .boot ∧ s.loadIdentity.patchEn = true ∧ s.ilk.bootAt + msU 45 ≤ s.tim.now ∧ 2 ≤
      s.votingLanes.length ∧ s.loadIdentity.bestPatch = none)
    ∧ (∃ (s : State) (ok : BitVec 3), s.modes.inner = .boot ∧ (s.bootLanes ok).votingLanes.length < 2 ∧ s.ilk.bootAt +
      secU 1 ≤ s.tim.now) :=
  ⟨⟨up, by decide +kernel⟩,
    ⟨gen0S, 7, by decide +kernel, by decide +kernel, gen0_patchEn⟩,
    ⟨State.reset, 3, true, by decide +kernel⟩,
    ⟨secs 1 State.reset, by decide +kernel⟩,
    ⟨secs 1 State.reset, 4, by decide +kernel⟩⟩

theorem witness_tileLinksAreLostAndRegained :
    (∃ (s : State) (t : Tile), s.tilePowered t = true ∧ s.bit (Reg.lnkTlStat t) 0 = true ∧ s.tileTraining t = false)
    ∧ (∃ (s : State) (t : Tile), s.tileTraining t = true ∧ s.bit Reg.pwrDegraded (4 + t.val) = false)
    ∧ (∃ (s : State) (t : Tile), s.tilePowered t = true ∧ s.tileTraining t = true ∧ (s.tile t).trainSince + secU 1 ≤
      s.tim.now ∧ s.tilesMode = true)
    ∧ (∃ (s : State) (t : Tile), s.bit Reg.pwrDegraded (4 + t.val) = true ∧ (s.tile t).retryAt ≤ s.tim.now ∧
      s.tilesMode = true)
    ∧ (∃ (s : State) (t : Tile) (mine : BitVec 16), s.bit Reg.pwrDegraded (4 + t.val) = true ∧ (s.tile t).retryAt ≤
      s.tim.now ∧ s.tilesMode = true ∧ mine = (s.stepsShed >>> (16 * t.val)).setWidth 16 ∧ ((s.shedChans >>> (16 *
      t.val)).setWidth 16 : BitVec 16) = 0xFFFF ∧ s.enabledMask t ≠ 0 ∧ s.enabledMask t &&& ~~~mine = 0)
    ∧ (∃ (s : State) (t : Tile) (mine : BitVec 16), s.bit Reg.pwrDegraded (4 + t.val) = true ∧ (s.tile t).retryAt ≤
      s.tim.now ∧ s.tilesMode = true ∧ mine = (s.stepsShed >>> (16 * t.val)).setWidth 16 ∧ ((s.shedChans >>> (16 *
      t.val)).setWidth 16 : BitVec 16) = 0xFFFF ∧ mine ≠ 0xFFFF ∧ (s.enabledMask t = 0 ∨ s.enabledMask t &&& ~~~mine
      ≠ 0)) :=
  ⟨⟨up.setBit (Reg.lnkTlStat 2) 0 true, 2, by decide +kernel⟩,
    ⟨up.setBit (Reg.lnkTlStat 2) 1 true, 2, by decide +kernel⟩,
    ⟨secs 1 (up.setBit (Reg.lnkTlStat 2) 1 true), 2, by decide +kernel⟩,
    ⟨up.setBit Reg.pwrDegraded 6 true, 2, by decide +kernel⟩,
    ⟨{ (up.setBit Reg.pwrDegraded 6 true).set64 Reg.pwrShedChLo Reg.pwrShedChHi 0xFFFF00000000 with tt := { up.tt with steps := [(1, 0xFFFF00000000, false)] } },
      2, 0xFFFF, by decide +kernel⟩,
    ⟨{ (up.setBit Reg.pwrDegraded 6 true).set64 Reg.pwrShedChLo Reg.pwrShedChHi 0xFFFF00000000 with tt := { up.tt with steps := [(1, 0x000300000000, false)] } },
      2, 3, by decide +kernel⟩⟩

theorem witness_registerReadsReturnTheValues :
    (∃ (s : State) (r : Req) (x : Session) (a : Word) (n : BitVec 16), Served s (Form.make 0x0100 6 State.inAll) r x
      ∧ 1 ≤ n.toNat ∧ n.toNat ≤ 256 ∧ (∀ i, i < n.toNat → s.addrRefused (a.toNat + 4 * i) = none ∧ pairLo (a.toNat +
      4 * i) = false ∧ x.snaps.find (a.toNat + 4 * i) = none))
    ∧ (∃ (s : State) (r : Req) (x : Session) (a : Word), Served s (Form.make 0x0100 6 State.inAll) r x ∧ s.addrRefused
      a.toNat = none ∧ s.addrRefused (a.toNat + 4) = none ∧ pairLo a.toNat = true ∧ pairLo (a.toNat + 4) = false)
    ∧ (∃ (s : State) (r : Req) (x : Session) (a : Word), Served s (Form.make 0x0103 4 State.inAll) r x ∧ pairLo a.toNat
      = true ∧ s.addrRefused a.toNat = none)
    ∧ (∃ (s : State) (r : Req) (x : Session) (a : Word) (st : BitVec 16), Served s (Form.make 0x0100 6 State.inAll) r x
      ∧ s.addrRefused a.toNat = some st) :=
  ⟨⟨up, req 6, sess, 0x10000, 256, served_of (by decide +kernel), by decide +kernel⟩,
    ⟨up, req 6, sess, BitVec.ofNat 32 Reg.queSeqNextLo, served_of (by decide +kernel), by decide +kernel⟩,
    ⟨dep, req 4, sess, BitVec.ofNat 32 Reg.queSeqNextLo, served_of (by decide +kernel), by decide +kernel⟩,
    ⟨up, req 6, sess, 0x93000, St.badAddress, served_of (by decide +kernel), by decide +kernel⟩⟩

theorem witness_rejectedWritesChangeNothing :
    (∃ (s : State) (r : Req) (x : Session) (a : Word) (v : Word) (st : BitVec 16), Served s (Form.make 0x0101 8
      State.inAll) r x ∧ ((s.arrived r).regWriteOpen a v (x.hear s.tim.now r)).1 = st ∧ st ≠ St.ok ∧ st ≠
      St.gateBusy)
    ∧ (∃ (s : State) (r : Req) (x : Session) (a : Word) (st : BitVec 16), Served s (Form.make 0x0101 8 State.inAll) r x
      ∧ s.addrRefused a.toNat = some st) :=
  ⟨⟨up, req 8, sess, BitVec.ofNat 32 Reg.dptRegion, 0, St.badValue, served_of (by decide +kernel),
      by decide +kernel⟩,
    ⟨up, req 8, sess, 0x93000, St.badAddress, served_of (by decide +kernel), by decide +kernel⟩⟩

theorem witness_writesReachShadowOrRegister :
    (∃ (s : State) (r : Req) (x : Session) (t : Tile) (k : Chan) (v : Word), Served s (Form.make 0x0101 8
      State.inAll) r x ∧ s.addrRefused (Reg.thrChSet0 t k) = none ∧ -524288 ≤ signed 32 v.toNat ∧ signed 32 v.toNat ≤
      524287)
    ∧ (∃ (s : State) (r : Req) (x : Session) (t : Tile) (k : Chan) (v : Word), Served s (Form.make 0x0101 8
      State.inAll) r x ∧ s.addrRefused (Reg.thrChSet0 t k) = none ∧ (signed 32 v.toNat < -524288 ∨ 524287 < signed 32
      v.toNat))
    ∧ (∃ (s : State) (r : Req) (x : Session), Served s (Form.make 0x0101 8 State.inAll) r x)
    ∧ (∃ (s : State) (r : Req) (x : Session), Served s (Form.make 0x0102 12 State.inAll) r x)
    ∧ (∃ (s : State) (r : Req) (x : Session), Served s (Form.make 0x0101 8 State.inAll) r x ∧ s.addrRefused Reg.cstStat
      = none)
    ∧ (∃ (s : State) (r : Req) (x : Session), Served s (Form.make 0x0102 12 State.inAll) r x ∧ s.addrRefused
      Reg.cstStat = none)
    ∧ (∃ (s : State) (r : Req) (x : Session), Served s (Form.make 0x0101 8 State.inAll) r x ∧ s.addrRefused
      Reg.ilkIdent = none)
    ∧ (∃ (s : State) (r : Req) (x : Session) (v : Word), Served s (Form.make 0x0101 8 State.inAll) r x ∧ s.addrRefused
      Reg.ilkLaneCtrl = none ∧ v &&& 0x707 = 0)
    ∧ (∃ (s : State) (r : Req) (x : Session), Served s (Form.make 0x0101 8 State.inAll) r x ∧ s.addrRefused
      Reg.queSeqNextHi = none)
    ∧ (∃ (s : State) (r : Req) (x : Session), Served s (Form.make 0x0101 8 State.inAll) r x ∧ s.addrRefused
      Reg.queSeqNextLo = none ∧ s.acquiring = false)
    ∧ (∃ (s : State) (r : Req) (x : Session) (d : Fin 2) (h : Word) (v : Word), Served s (Form.make 0x0101 8
      State.inAll) r x ∧ s.addrRefused (Reg.timDomAsymLo d) = none ∧ x.highs.find (Reg.timDomAsymLo d + 4) = some h ∧
      10000 * nsU < (signed 64 (h.toNat * 2 ^ 32 + v.toNat)).natAbs) :=
  ⟨⟨up, req 8, sess, 3, 15, 524287, served_of (by decide +kernel), by decide +kernel⟩,
    ⟨up, req 8, sess, 3, 15, 524288, served_of (by decide +kernel), by decide +kernel⟩,
    ⟨up, req 8, sess, served_of (by decide +kernel)⟩,
    ⟨up, req 12, sess, served_of (by decide +kernel)⟩,
    ⟨up, req 8, sess, served_of (by decide +kernel), by decide +kernel⟩,
    ⟨up, req 12, sess, served_of (by decide +kernel), by decide +kernel⟩,
    ⟨up, req 8, sess, served_of (by decide +kernel), by decide +kernel⟩,
    ⟨up, req 8, sess, 0x10, served_of (by decide +kernel), by decide +kernel⟩,
    ⟨up, req 8, sess, served_of (by decide +kernel), by decide +kernel⟩,
    ⟨up, req 8, sess, served_of (by decide +kernel), by decide +kernel⟩,
    ⟨lo { sess with highs := [(Reg.timDomAsymLo 1 + 4, 0x7FFFFFFF)] }, req 8,
      { sess with highs := [(Reg.timDomAsymLo 1 + 4, 0x7FFFFFFF)] }, 1, 0x7FFFFFFF, 3, served_of (by decide +kernel),
      by decide +kernel⟩⟩

theorem witness_commitsLatchAndApply :
    (∃ (s : State) (r : Req) (x : Session) (b : Nat), Served s (Form.make 0x0104 0 State.inAll) r x ∧ x.HasRoom ∧ b <
      32 ∧ x.marks.contains b = true)
    ∧ (∃ (s : State) (r : Req) (x : Session), Served s (Form.make 0x0104 0 State.inAll) r x ∧ x.marks = [])
    ∧ (∃ (s : State) (b : Fin 32) (l : Latch), s.bcp.latches.find? (fun (x : Latch) => x.block == b.val) = some l ∧
      s.powered (blockBase b) = true ∧ (b = 1 ∨ b = 4 ∨ b = 6 ∨ b = 8 ∨ (16 ≤ b.val ∧ b.val % 2 = 1)) ∧ (b = 6 → (∀ e
      ∈ s.que.live.head?, e.taken = 0) ∧ (∀ e ∈ s.que.hostRead.head?, e.taken = 0)) ∧ (b = 8 → ∀ e, s.jobs e = []) ∧
      (l.values.map fun v => v.1).Nodup ∧ s.atBoundary l = true)
    ∧ (∃ (s : State) (b : Fin 32) (l : Latch), s.bcp.latches.find? (fun (x : Latch) => x.block == b.val) = some l ∧
      s.powered (blockBase b) = false)
    ∧ (∃ (s : State) (b : Fin 32) (l : Latch) (w : Word), b = 5 ∧ s.bcp.latches.find? (fun (x : Latch) => x.block ==
      b.val) = some l ∧ s.powered (blockBase b) = true ∧ l.values = [(Reg.sbxArm, w)] ∧ s.modes.acq = .triggered ∧
      s.modes.sampling = true ∧ s.stopping = false ∧ s.sbx.period % framePeriods = 0 ∧ l.first ≤ s.sbx.period)
    ∧ (∃ (s : State) (l : Latch) (e : LiveEnt) (sh : Word), s.bcp.latches.find? (fun (x : Latch) => x.block == 6) =
      some l ∧ s.powered (blockBase 6) = true ∧ (l.values.map fun v => v.1).Nodup ∧ s.que.live.head? = some e ∧
      e.taken ≠ 0 ∧ (∀ h ∈ s.que.hostRead.head?, h.taken = 0) ∧ sh = fieldMask isSh (fieldsAt Reg.queRoute))
    ∧ (∃ (s : State) (b : Fin 32) (l : Latch), s.bcp.latches.find? (fun (x : Latch) => x.block == b.val) = some l ∧
      s.powered (blockBase b) = true ∧ ((l.block = 5 ∧ s.modes.sampling = true ∧ s.sbx.period % framePeriods ≠ 0) ∨
      (∃ k : Tile, (l.block = 16 + 4 * k.val ∨ l.block = 17 + 4 * k.val ∨ l.block = 18 + 4 * k.val) ∧ s.tilePowered k
      = true ∧ s.modes.sampling = true ∧ (s.tile k).swPeriod % framePeriods ≠ 0) ∨ (s.modes.sampling = false ∧
      s.clk.stopSampling = true ∧ (l.block = 5 ∨ ∃ k : Tile, (l.block = 16 + 4 * k.val ∨ l.block = 17 + 4 * k.val ∨
      l.block = 18 + 4 * k.val) ∧ s.tilePowered k = true)))) :=
  ⟨⟨{ lo (marked [16, 5]) with shadow := [(Reg.sbxArm, 3), (Reg.thrChSet0 0 3, 5)] }, req 0, marked [16, 5], 16,
      served_of (by decide +kernel), by unfold Session.HasRoom; decide +kernel, by decide +kernel⟩,
    ⟨up, req 0, sess, served_of (by decide +kernel), by decide +kernel⟩,
    ⟨latched 8 [(Reg.cmpDeadline, 7)] up, 8, ⟨8, [(Reg.cmpDeadline, 7)], [], 0⟩, by decide +kernel⟩,
    ⟨latched 8 [(Reg.cmpDeadline, 7)] (inM .safe |>.withModes fun m => { m with data := false }), 8, ⟨8,
      [(Reg.cmpDeadline, 7)], [], 0⟩, by decide +kernel⟩,
    ⟨latched 5 [(Reg.sbxArm, 0x81)] trig, 5, ⟨5, [(Reg.sbxArm, 0x81)], [], 0⟩, 0x81, by decide +kernel⟩,
    ⟨latched 6 [(Reg.queRoute, 5)] { up with que := { Que.reset with live := [lvEnt 200 64] } }, ⟨6, [(Reg.queRoute,
      5)], [], 0⟩, lvEnt 200 64, fieldMask isSh (fieldsAt Reg.queRoute), by decide +kernel⟩,
    ⟨latched 5 [(Reg.sbxArm, 0x81)] { trig with sbx := { trig.sbx with period := 7 } }, 5, ⟨5, [(Reg.sbxArm, 0x81)],
      [], 0⟩, by decide +kernel⟩⟩

theorem witness_mainlineCommandsComplete :
    (∃ (s : State) (r : Req) (x : Session) (force : Bool) (p : Fin 2), Served s (Form.make 0x0009 3 State.inRun) r x
      ∧ r.port.val = p.val ∧ ((∀ b, s.bindOf p = some b → b.ip = r.ip) ∨ force = true))
    ∧ (∃ (s : State) (r : Req) (x : Session), Served s (Form.make 0x0009 3 State.inRun) r x ∧ isMainline r.port =
      false)
    ∧ (∃ (s : State) (r : Req) (x : Session), Served s (Form.make 0x0600 0 State.inRun) r x ∧ s.variant = .f ∧ s.mlMode
      = 1 ∧ s.mlUp (if s.mlActive = 0 then 1 else 0) = true)
    ∧ (∃ (s : State) (r : Req) (x : Session) (y : Stream), Served s ⟨0x0601, 0, true, false, false, State.inRun⟩ r x ∧
      s.stream r.target = some y)
    ∧ (∃ (s : State) (r : Req) (x : Session), Served s ⟨0x0601, 0, true, false, false, State.inRun⟩ r x ∧ s.stream
      r.target = none) :=
  ⟨⟨ml 0 0, on 0 (req 3), sess, false, 0, served_of (by decide +kernel), by decide +kernel⟩,
    ⟨ml 0 0, req 3, sess, served_of (by decide +kernel), by decide +kernel⟩,
    ⟨ml 1 0, req 0, sess, served_of (by decide +kernel), by decide +kernel⟩,
    ⟨withStr [strm 4] (ml 1 1), tgt 4 (req 0), sess, strm 4, served_of (by decide +kernel), by decide +kernel⟩,
    ⟨ml 1 1, tgt 4 (req 0), sess, served_of (by decide +kernel), by decide +kernel⟩⟩

theorem witness_recordsAndUnitsAreRead :
    (∃ (s : State) (r : Req) (x : Session) (n : Byte), Served s (Form.make 0x0300 1 State.inRun) r x ∧ 1 ≤ n.toNat ∧
      n.toNat ≤ 16 ∧ s.que.hostRead = [])
    ∧ (∃ (s : State) (r : Req) (x : Session) (n : Byte) (e : HrEnt) (rest : List HrEnt) (part : List Cell), Served s
      (Form.make 0x0300 1 State.inRun) r x ∧ 1 ≤ n.toNat ∧ n.toNat ≤ 16 ∧ s.que.hostRead = e :: rest ∧ (framed
      e.cells = true ∨ e.taken ≠ 0) ∧ part = (e.cells.drop e.taken).take n.toNat ∧ (∃ c, part.getLast? = some c ∧
      c.endMark = true))
    ∧ (∃ (s : State) (r : Req) (x : Session) (n : Byte) (e : HrEnt) (rest : List HrEnt) (part : List Cell), Served s
      (Form.make 0x0300 1 State.inRun) r x ∧ 1 ≤ n.toNat ∧ n.toNat ≤ 16 ∧ s.que.hostRead = e :: rest ∧ (framed
      e.cells = true ∨ e.taken ≠ 0) ∧ part = (e.cells.drop e.taken).take n.toNat ∧ (∃ c, part.getLast? = some c ∧
      c.endMark = false))
    ∧ (∃ (s : State) (r : Req) (x : Session) (n : Byte) (e : HrEnt), Served s (Form.make 0x0300 1 State.inRun) r x ∧ 1
      ≤ n.toNat ∧ n.toNat ≤ 16 ∧ s.que.hostRead = [e] ∧ e.taken = 0 ∧ framed e.cells = false)
    ∧ (∃ (s : State) (r : Req) (x : Session) (q : BitVec 64) (o : Word) (c : SRec), Served s (Form.make 0x0301 14
      State.inRun) r x ∧ q.toNat < s.seqNext ∧ s.findRec q.toNat = some c ∧ o.toNat < c.length ∧ s.dpt.errs = [] ∧
      s.dpt.mapErrs = [] ∧ (s.mapEnt ((c.gens.head?.map fun g => g.1).getD 0)).dirLost = false)
    ∧ (∃ (s : State) (r : Req) (x : Session) (q : BitVec 64), Served s (Form.make 0x0301 14 State.inRun) r x ∧ q.toNat
      < s.seqNext ∧ s.findRec q.toNat = none ∧ s.notYetStored q.toNat = false)
    ∧ (∃ (s : State) (r : Req) (x : Session) (q : BitVec 64) (o : Word) (n : BitVec 16) (u : RUnit) (d : List Byte),
      Served s (Form.make 0x0404 14 State.inRun) r x ∧ q.toNat < s.unitSeq ∧ s.findUnit q.toNat = some u ∧ o.toNat <
      64 + u.length ∧ s.dpt.errs = [] ∧ s.dpt.mapErrs = [] ∧ (s.mapEnt ((u.gens.head?.map fun g => g.1).getD
      0)).dirLost = false ∧ (u.descriptor.drop o.toNat).take (min (min n.toNat 1428) (64 + u.length - o.toNat)) = d)
    ∧ (∃ (s : State) (r : Req) (x : Session) (q : BitVec 64), Served s (Form.make 0x0404 14 State.inRun) r x ∧ q.toNat
      < s.unitSeq ∧ s.findUnit q.toNat = none)
    ∧ (∃ (s : State) (r : Req) (x : Session) (q : BitVec 64), Served s (Form.make 0x0301 14 State.inRun) r x ∧
      s.seqNext ≤ q.toNat)
    ∧ (∃ (s : State) (r : Req) (x : Session) (q : BitVec 64), Served s (Form.make 0x0301 14 State.inRun) r x ∧ q.toNat
      < s.seqNext ∧ s.findRec q.toNat = none ∧ s.notYetStored q.toNat = true)
    ∧ (∃ (s : State) (r : Req) (x : Session) (q : BitVec 64), Served s (Form.make 0x0404 14 State.inRun) r x ∧
      s.unitSeq ≤ q.toNat) :=
  ⟨⟨up, req 1, sess, 16, served_of (by decide +kernel), by decide +kernel⟩,
    ⟨withHr [hrEnt 200 1, hrEnt 3 0], req 1, sess, 3, hrEnt 200 1, [hrEnt 3 0], (hrEnt 200 1).cells.drop 1, served_of
      (by decide +kernel), by decide +kernel⟩,
    ⟨withHr [hrEnt 200 0, hrEnt 3 0], req 1, sess, 2, hrEnt 200 0, [hrEnt 3 0], (hrEnt 200 0).cells.take 2, served_of
      (by decide +kernel), by decide +kernel⟩,
    ⟨withHr [⟨7, (hrEnt 200 0).cells.take 2, 0⟩], req 1, sess, 1, ⟨7, (hrEnt 200 0).cells.take 2, 0⟩, served_of
      (by decide +kernel), by decide +kernel⟩,
    ⟨dep, req 14, sess, 4, 3, sRec, served_of (by decide +kernel), by decide +kernel⟩,
    ⟨dep, req 14, sess, 8, served_of (by decide +kernel), by decide +kernel⟩,
    ⟨dep, req 14, sess, 4, 30, 100, rUnit, List.replicate 34 5, served_of (by decide +kernel), by decide +kernel⟩,
    ⟨dep, req 14, sess, 8, served_of (by decide +kernel), by decide +kernel⟩,
    ⟨dep, req 14, sess, 9, served_of (by decide +kernel), by decide +kernel⟩,
    ⟨{ dep with sbx := { Sbx.reset with closing := [{ win (.hit 9) 2 with seq := some 8 }] } }, req 14, sess, 8,
      served_of (by decide +kernel), by decide +kernel⟩,
    ⟨dep, req 14, sess, 9, served_of (by decide +kernel), by decide +kernel⟩⟩

theorem witness_requestStreamsStartAndAbort :
    (∃ (s : State) (r : Req) (x : Session) (first : BitVec 64) (n : Word), Served s ⟨0x0302, 12, true, false, false,
      State.inRun⟩ r x ∧ x.HasRoom ∧ isRequest r.target = true ∧ n ≠ 0 ∧ first.toNat + n.toNat ≤ s.seqNext ∧
      s.streamRefused r.target = none ∧ s.dpt.errs = [] ∧ s.dpt.mapErrs = [] ∧ (∀ i, i < n.toNat → (s.findRec
      (first.toNat + i)).isSome = true))
    ∧ (∃ (s : State) (r : Req) (x : Session) (mask : BitVec 64) (a : Wide) (b : Wide) (items : List Item), Served s
      ⟨0x0403, 38, true, false, false, State.inRun⟩ r x ∧ x.HasRoom ∧ isRequest r.target = true ∧ a.ns.toNat <
      1000000000 ∧ b.ns.toNat < 1000000000 ∧ s.streamRefused r.target = none ∧ s.dpt.errs = [] ∧ s.dpt.mapErrs = [] ∧
      items = s.ringItems ⟨mask, Machine.Wide.toU a, Machine.Wide.toU b, 0⟩ ∧ (∀ q, Item.unit q ∈ items → (s.findUnit
      q).isSome = true))
    ∧ (∃ (s : State) (r : Req) (x : Session) (y : Stream), Served s ⟨0x0303, 0, true, false, false, State.inRun⟩ r x ∧
      isRequest r.target = true ∧ s.stream r.target = some y ∧ y.settled = false) :=
  ⟨⟨{ ml 0 0 with dpt := recs3, regs := ((ml 0 0).set64 Reg.queSeqNextLo Reg.queSeqNextHi 9).regs }, tgt 255 (req
      12), sess, 6, 3, served_of (by decide +kernel), by unfold Session.HasRoom; decide +kernel, by decide +kernel⟩,
    ⟨{ ml 0 0 with dpt := { dep.dpt with units := [rUnitD] } }, tgt 1 (req 38), sess, 8, ⟨1, 5, 0⟩, ⟨2, 0, 0⟩, [.unit
      4], served_of (by decide +kernel), by unfold Session.HasRoom; decide +kernel, by decide +kernel,
      by decide +kernel, by decide +kernel, by decide +kernel, by decide +kernel, by decide +kernel,
      by decide +kernel, fun _ h => by cases List.mem_singleton.mp h; decide +kernel⟩,
    ⟨withStr [{ strm 4 with items := [.record 3] }] (ml 1 1), tgt 4 (req 0), sess,
      { strm 4 with items := [.record 3] }, served_of (by decide +kernel), by decide +kernel⟩⟩

theorem witness_sourcesArmAndRangesCalibrate :
    (∃ (s : State) (r : Req) (x : Session) (m : BitVec 16) (w : Wide), Served s (Form.make 0x0200 18 State.inRun) r x
      ∧ w.ns.toNat < 1000000000 ∧ s.tim.mt + usU 20 ≤ (Machine.Wide.toU w) ∧ (∀ (t : Tile) (e : Fin 4), m.getLsbD (4
      * t.val + e.val) = true → s.tilePowered t = true ∧ s.tileTraining t = false ∧ s.bit (Reg.jctExStat t e) 0 =
      false ∧ s.armRefused t e = false))
    ∧ (∃ (s : State) (r : Req) (x : Session) (m : BitVec 16) (w : Wide), Served s (Form.make 0x0200 18 State.inRun) r x
      ∧ w.ns.toNat < 1000000000 ∧ (Machine.Wide.toU w) < s.tim.mt + usU 20 ∧ (∀ (t : Tile) (e : Fin 4), m.getLsbD (4
      * t.val + e.val) = true → s.tilePowered t = true ∧ s.tileTraining t = false ∧ s.bit (Reg.jctExStat t e) 0 =
      false ∧ s.armRefused t e = false))
    ∧ (∃ (s : State) (r : Req) (x : Session) (m : BitVec 4), Served s (Form.make 0x0201 1 State.inCalibrate) r x ∧
      x.HasRoom ∧ (∀ t : Tile, m.getLsbD t.val = true → s.tilePowered t = true ∧ s.bit (Reg.calStat t) 20 = false)) :=
  ⟨⟨up, req 18, sess, 0x8001, ⟨1, 0, 0⟩, served_of (by decide +kernel), by decide +kernel⟩,
    ⟨late 3, req 18, sess, 0x8001, ⟨1, 0, 0⟩, served_of (by decide +kernel), by decide +kernel⟩,
    ⟨inM .calibrate, req 1, sess, 5, served_of (by decide +kernel), by unfold Session.HasRoom; decide +kernel,
      by decide +kernel⟩⟩

theorem witness_sourceAndRangeEventsComplete :
    (∃ (s : State) (t : Tile) (e : Fin 4) (a : Arm), s.findArm t e = some a ∧ s.pulseDue t a ≤ s.tim.mt ∧
      s.tilePowered t = true ∧ a.sent < s.fld (Reg.jctExPulse t e) 31 16 ∧ s.fld (Reg.jctExCtrl t e) 1 0 = 3)
    ∧ (∃ (s : State) (t : Tile) (e : Fin 4) (a : Arm), s.findArm t e = some a ∧ s.pulseDue t a ≤ s.tim.mt ∧
      s.tilePowered t = true ∧ a.sent < s.fld (Reg.jctExPulse t e) 31 16 ∧ s.fld (Reg.jctExCtrl t e) 1 0 ≠ 3)
    ∧ (∃ (s : State) (t : Tile) (e : Fin 4) (a : Arm), s.findArm t e = some a ∧ s.tilePowered t = true ∧ s.fld
      (Reg.jctExPulse t e) 31 16 ≤ a.sent ∧ s.pulseDue t { a with sent := a.sent - 1 } + s.fld (Reg.jctExPulse t e)
      11 0 * periodU ≤ s.tim.mt)
    ∧ (∃ (s : State) (t : Tile) (e : Fin 4), s.tilePowered t = true ∧ (s.fld (Reg.jctExCtrl t e) 1 0 = 1 ∨ s.fld
      (Reg.jctExCtrl t e) 1 0 = 2))
    ∧ (∃ (s : State) (t : Tile) (b : Fin 4) (load : Nat), s.tilePowered t = true ∧ s.bit (Reg.jctBias t b) 16 = true ∧
      10000 < load)
    ∧ (∃ (s : State) (t : Tile) (load : Nat), s.tilePowered t = true ∧ load ≤ 10000)
    ∧ (∃ (s : State) (t : Tile) (k : Chan) (mag : Nat), s.live t k = true ∧ s.autoRange t k = true ∧ fullScale (s.range
      t k) * 85 ≤ mag * 100 ∧ (s.front t k).rearmAt ≤ s.tim.mt ∧ (s.front t k).crossed = none)
    ∧ (∃ (s : State) (t : Tile) (k : Chan) (hi : Int) (lo : Int) (mag : Nat) (t0 : Nat), s.live t k = true ∧ mag =
      peakMag hi lo ∧ (s.front t k).crossed = some t0 ∧ t0 + 2 * nsU ≤ s.tim.mt)
    ∧ (∃ (s : State) (t : Tile) (k : Chan) (hi : Int) (lo : Int) (mag : Nat) (t0 : Nat), s.live t k = true ∧ mag =
      peakMag hi lo ∧ (s.front t k).crossed = some t0 ∧ t0 + 2 * nsU ≤ s.tim.mt ∧ s.range t k ≤ chooseRange mag)
    ∧ (∃ (s : State) (t : Tile) (k : Chan) (quiet : Nat) (mag : Nat), s.live t k = true ∧ s.autoRange t k = true ∧
      s.range t k + 1 ≤ s.fld (Reg.feaChCtrl t k) 3 2 ∧ s.range t k + 1 ≤ 2 ∧ s.fld (Reg.feaChRange t k) 28 16 ≤
      quiet ∧ (s.front t k).holdFrom + s.fld (Reg.feaChRange t k) 28 16 ≤ s.pinPos ∧ mag * 200 < s.fld
      (Reg.feaChRange t k) 13 8 * fullScale (s.range t k + 1)) :=
  ⟨⟨armed 1 3, 1, 2, ⟨2, 0, 1⟩, by decide +kernel⟩,
    ⟨armed 2 1, 1, 2, ⟨2, 0, 2⟩, by decide +kernel⟩,
    ⟨armed 3 3, 1, 2, ⟨2, 0, 3⟩, by decide +kernel⟩,
    ⟨pl 2, 1, 2, by decide +kernel⟩,
    ⟨up.set (Reg.jctBias 0 3) 0x10000, 0, 3, 10001, by decide +kernel⟩,
    ⟨(up.set (Reg.jctBias 0 3) 0x10000).setBit (Reg.jctBias 0 3) 31 true, 0, 10000, by decide +kernel⟩,
    ⟨smp, 0, 3, fullScale 1 * 85 / 100, by decide +kernel⟩,
    ⟨crs (3 * nsU), 0, 3, 7, -(fullScale 1 : Int), fullScale 1, 3 * nsU, by decide +kernel⟩,
    ⟨crs (nsU), 0, 3, 3, -2, 3, nsU, by decide +kernel⟩,
    ⟨(atPos 90000 smp).set (Reg.feaChCtrl 0 3) 8, 0, 3, 8000, 0, by decide +kernel⟩⟩

theorem witness_dwellsBeginAndCalibrate :
    (∃ (s : State) (t : Tile) (sl : Nat), s.tileSampling t = true ∧ (s.relief t).waiting = true ∧ (s.relief
      t).granted = true ∧ (s.relief t).dwell = none ∧ (s.relief t).manual = none ∧ (s.relief t).retry = false ∧
      (s.relief t).parked = none ∧ s.nextSlice t (s.relief t).next = some sl ∧ (s.relief t).startAt ≤ s.samplePos)
    ∧ (∃ (s : State) (t : Tile) (d : Dwell) (mean : Nat) (gain : Nat) (skew : Nat) (slope : Bool), (s.relief t).dwell =
      some d ∧ s.fld (Reg.calStat t) 10 8 = 1 ∧ d.slice < 16 ∧ d.start + 34 * framePeriods ≤ s.nextFrame ∧ mean ≤ 16
      ∧ gain ≤ 200 ∧ (slope = true → skew ≤ 30))
    ∧ (∃ (s : State) (t : Tile) (d : Dwell), (s.relief t).dwell = some d ∧ s.fld (Reg.calStat t) 10 8 = 2 ∧
      d.calibrated = false ∧ d.standing = true ∧ d.slice < 16)
    ∧ (∃ (s : State) (t : Tile) (d : Dwell), (s.relief t).dwell = some d ∧ s.fld (Reg.calStat t) 10 8 = 2 ∧
      d.calibrated = false ∧ d.slice < 16 ∧ s.bcp.latches.find? (fun (l : Latch) => l.block == 18 + 4 * t.val) =
      none)
    ∧ (∃ (s : State) (t : Tile) (d : Dwell) (ofs : Int) (gain : Int) (skew : Int), (s.relief t).dwell = some d ∧
      d.standing = true ∧ d.calibrated = true ∧ d.returned = false ∧ d.slice < 16 ∧ d.calAt + 34 * framePeriods ≤
      s.samplePos ∧ ofs.natAbs ≤ 128 ∧ gain.natAbs ≤ 2500 ∧ skew.natAbs ≤ 200) :=
  ⟨⟨rel (fun r => { r with waiting := true, granted := true, next := 5, startAt := 8000 }) (atPos 8000 rn), 2, 5,
      by decide +kernel⟩,
    ⟨dwg (dw 5) (33 * framePeriods) 1, 2, dw 5, 16, 200, 30, true, by decide +kernel⟩,
    ⟨dwg { dw 5 with standing := true } far 2, 2, { dw 5 with standing := true }, by decide +kernel⟩,
    ⟨dwg { dw 5 with standing := true } far 2, 2, { dw 5 with standing := true }, by decide +kernel⟩,
    ⟨dwg dC (34 * framePeriods) 3, 2, dC, -128, 2500, -200, by decide +kernel⟩⟩

theorem witness_dwellsEndAndRotationEventsComplete :
    (∃ (s : State) (t : Tile) (d : Dwell), (s.relief t).dwell = some d ∧ s.dwellDue t d ≤ s.nextFrame ∧ s.nextFrame ≤
      s.samplePos + 2000 ∧ d.standing = true ∧ d.returned = true ∧ s.heldOpen (16 * t.val + s.servesOf t d.slice) =
      false ∧ s.bcp.latches.find? (fun (l : Latch) => l.block == 18 + 4 * t.val) = none)
    ∧ (∃ (s : State) (t : Tile) (d : Dwell), (s.relief t).dwell = some d ∧ s.dwellDue t d ≤ s.nextFrame ∧ s.nextFrame ≤
      s.samplePos + 2000 ∧ d.standing = true ∧ d.returned = true ∧ d.deferred = false ∧ s.heldOpen (16 * t.val +
      s.servesOf t d.slice) = true)
    ∧ (∃ (s : State) (t : Tile) (d : Dwell), (s.relief t).dwell = some d ∧ d.deferred = true ∧ s.dwellDue t d + 200000
      * s.fld (Reg.calMaxDefer t) 9 0 ≤ s.nextFrame ∧ s.bcp.latches.find? (fun (l : Latch) => l.block == 18 + 4 *
      t.val) = none)
    ∧ (∃ (s : State) (t : Tile) (w : Nat), (s.relief t).warmUntil = some w ∧ w ≤ s.tim.now ∧ s.calRun t = true ∧
      (s.relief t).parked = none ∧ (s.relief t).manual = none ∧ (s.relief t).dwell = none ∧ (s.relief t).waiting =
      false ∧ s.tileSampling t = true ∧ s.rotation t ≠ [])
    ∧ (∃ (s : State) (t : Tile) (terms : List (Word × Word)), s.bit (Reg.calStat t) 20 = true ∧ (s.relief t).rangeOp =
      none ∧ terms.length = 16)
    ∧ (∃ (s : State) (t : Tile) (sl : Nat) (x : Trims) (at_ : Nat), (s.relief t).manual = some (sl, x, at_) ∧ sl < 16 ∧
      s.tileSampling t = true ∧ s.nextFrame ≤ s.samplePos + 2000 ∧ s.heldOpen (16 * t.val + s.servesOf t sl) = false) :=
  ⟨⟨dwg dR far 3, 2, dR, by decide +kernel⟩,
    ⟨wOpen (dwg dR far 3), 2, dR, by decide +kernel⟩,
    ⟨wOpen (dwg { dR with deferred := true } far 4), 2, { dR with deferred := true }, by decide +kernel⟩,
    ⟨rel (fun r => { r with warmUntil := some 0 }) rn, 2, 0, by decide +kernel⟩,
    ⟨rn.setBit (Reg.calStat 2) 20 true, 2, List.replicate 16 (0xFFFFFFFF, 0x12345678), by decide +kernel⟩,
    ⟨rel (fun r => { r with manual := some (3, ⟨-1, 2, 3, -1⟩, 0) }) (atPos far rn), 2, 3, ⟨-1, 2, 3, -1⟩, 0,
      by decide +kernel⟩⟩

theorem witness_pinAndSourceWritesComplete :
    (∃ (s : State) (r : Req) (x : Session) (t : Tile) (p : Pin) (v : Word), Served s (Form.make 0x0101 8 State.inAll)
      r x ∧ s.addrRefused (Reg.jctPin t p) = none ∧ s.pinCheck t p (bits v 2 0) (bits v 7 4) = none ∧ s.tileSampling
      t = false ∧ s.clk.stopSampling = false)
    ∧ (∃ (s : State) (r : Req) (x : Session) (t : Tile) (p : Pin) (q : Pin) (v : Word), Served s (Form.make 0x0101 8
      State.inAll) r x ∧ s.addrRefused (Reg.jctPin t p) = none ∧ (bits v 2 0 = 1 ∨ bits v 2 0 = 2) ∧ q ≠ p ∧
      s.pinRole t q = bits v 2 0 ∧ s.pinIndex t q = bits v 7 4)
    ∧ (∃ (s : State) (r : Req) (x : Session) (t : Tile) (p : Pin) (v : Word) (st : BitVec 16), Served s (Form.make
      0x0101 8 State.inAll) r x ∧ s.addrRefused (Reg.jctPin t p) = none ∧ s.pinCheck t p (bits v 2 0) (bits v 7 4) =
      some st)
    ∧ (∃ (s : State) (r : Req) (x : Session) (t : Tile) (e : Fin 4) (v : Word) (l : Nat), Served s (Form.make 0x0101 8
      State.inAll) r x ∧ s.addrRefused (Reg.jctExCtrl t e) = none ∧ v.getLsbD 8 = true ∧ s.armRefused t e = false ∧
      s.launchTime (s.get (Reg.jctExLaunchS t e)).toNat (s.fld (Reg.jctExLaunchNs t e) 29 0) (s.fld
      (Reg.jctExLaunchFr t e) 15 0) = l ∧ s.tim.mt + usU 20 ≤ l)
    ∧ (∃ (s : State) (r : Req) (x : Session) (t : Tile) (e : Fin 4) (v : Word) (l : Nat), Served s (Form.make 0x0101 8
      State.inAll) r x ∧ s.addrRefused (Reg.jctExCtrl t e) = none ∧ v.getLsbD 8 = true ∧ s.armRefused t e = false ∧
      s.launchTime (s.get (Reg.jctExLaunchS t e)).toNat (s.fld (Reg.jctExLaunchNs t e) 29 0) (s.fld
      (Reg.jctExLaunchFr t e) 15 0) = l ∧ l < s.tim.mt + usU 20)
    ∧ (∃ (s : State) (r : Req) (x : Session) (t : Tile) (e : Fin 4) (v : Word), Served s (Form.make 0x0101 8
      State.inAll) r x ∧ s.addrRefused (Reg.jctExCtrl t e) = none ∧ v.getLsbD 9 = true ∧ v.getLsbD 8 = false) :=
  ⟨⟨up.set (Reg.jctPin 1 5) 0, req 8, sess, 1, 3, 0x51, served_of (by decide +kernel), by decide +kernel⟩,
    ⟨up.set (Reg.jctPin 1 9) 0x51, req 8, sess, 1, 3, 9, 0x51, served_of (by decide +kernel), by decide +kernel⟩,
    ⟨up, req 8, sess, 1, 3, 0x7, St.badValue, served_of (by decide +kernel), by decide +kernel⟩,
    ⟨(up.set (Reg.jctExLaunchS 1 2) 4).set (Reg.jctExPeriod 1 2) 9999, req 8, sess, 1, 2, 0x100, secU 4, served_of
      (by decide +kernel), by decide +kernel⟩,
    ⟨up.set (Reg.jctExPeriod 1 2) 9999, req 8, sess, 1, 2, 0x300, 0, served_of (by decide +kernel),
      by decide +kernel⟩,
    ⟨up.updTile 1 fun x => { x with arms := [⟨2, 0, 1⟩] }, req 8, sess, 1, 2, 0x200, served_of (by decide +kernel),
      by decide +kernel⟩⟩

theorem witness_rotationWritesComplete :
    (∃ (s : State) (r : Req) (x : Session) (t : Tile) (v : Word), Served s (Form.make 0x0101 8 State.inAll) r x ∧
      s.addrRefused (Reg.calCtrl t) = none ∧ v.getLsbD 8 = true ∧ v.getLsbD 9 = false ∧ (s.relief t).parked.isSome =
      true ∧ (s.relief t).dwell = none)
    ∧ (∃ (s : State) (r : Req) (x : Session) (t : Tile) (v : Word), Served s (Form.make 0x0101 8 State.inAll) r x ∧
      s.addrRefused (Reg.calCtrl t) = none ∧ v.getLsbD 9 = true ∧ v.getLsbD 8 = false ∧ s.inMode .calibrate = true)
    ∧ (∃ (s : State) (r : Req) (x : Session) (t : Tile) (v : Word), Served s (Form.make 0x0101 8 State.inAll) r x ∧
      s.addrRefused (Reg.calCtrl t) = none ∧ v.getLsbD 9 = true ∧ s.inMode .calibrate = false)
    ∧ (∃ (s : State) (r : Req) (x : Session) (t : Tile) (v : Word), Served s (Form.make 0x0101 8 State.inAll) r x ∧
      s.addrRefused (Reg.calManCtrl t) = none ∧ v.getLsbD 8 = true ∧ bits v 4 0 ≤ 16 ∧ s.calRun t = false ∧ (s.relief
      t).parked = none)
    ∧ (∃ (s : State) (r : Req) (x : Session) (t : Tile) (v : Word), Served s (Form.make 0x0101 8 State.inAll) r x ∧
      s.addrRefused (Reg.calManCtrl t) = none ∧ bits v 4 0 ≤ 16 ∧ s.calRun t = true) :=
  ⟨⟨rel (fun r => { r with parked := some 4 }) (inM .triggered), req 8, sess, 2, 0x100, served_of
      (by decide +kernel), by decide +kernel⟩,
    ⟨inM .calibrate, req 8, sess, 2, 0x200, served_of (by decide +kernel), by decide +kernel⟩,
    ⟨up, req 8, sess, 2, 0x300, served_of (by decide +kernel), by decide +kernel⟩,
    ⟨up.set (Reg.calCtrl 2) 0, req 8, sess, 2, 0x110, served_of (by decide +kernel), by decide +kernel⟩,
    ⟨up.set (Reg.calCtrl 2) 1, req 8, sess, 2, 0x110, served_of (by decide +kernel), by decide +kernel⟩⟩

theorem witness_mainlineWritesComplete :
    (∃ (s : State) (r : Req) (x : Session) (v : Word), Served s (Form.make 0x0101 8 State.inAll) r x ∧ s.addrRefused
      Reg.lnkMlCtrl = none ∧ s.variant = .f ∧ s.fld Reg.lnkMlCtrl 5 4 = 1 ∧ s.fld Reg.lnkMlCtrl 1 0 = 3 ∧ bits v 5 4
      = 1 ∧ bits v 1 0 = 3 ∧ bits v 23 16 ≠ 0 ∧ v.getLsbD 8 = true ∧ s.bit Reg.lnkMlCtrl 9 = false ∧ v.getLsbD 9 =
      false ∧ s.mlUp (if s.mlActive = 0 then 1 else 0) = true)
    ∧ (∃ (s : State) (r : Req) (x : Session) (v : Word), Served s (Form.make 0x0101 8 State.inAll) r x ∧ s.addrRefused
      Reg.lnkMlCtrl = none ∧ s.variant = .f ∧ s.fld Reg.lnkMlCtrl 5 4 = 1 ∧ s.fld Reg.lnkMlCtrl 1 0 = 3 ∧ bits v 5 4
      = 1 ∧ bits v 1 0 = 3 ∧ bits v 23 16 ≠ 0 ∧ v.getLsbD 8 = false ∧ s.bit Reg.lnkMlCtrl 9 = false ∧ v.getLsbD 9 =
      true ∧ s.inMode .test = true ∧ s.bit Reg.lnkMlStat 10 = false)
    ∧ (∃ (s : State) (r : Req) (x : Session) (v : Word), Served s (Form.make 0x0101 8 State.inAll) r x ∧ s.addrRefused
      Reg.lnkMlCtrl = none ∧ v.getLsbD 9 = true ∧ s.inMode .test = false)
    ∧ (∃ (s : State) (r : Req) (x : Session) (v : Word), Served s (Form.make 0x0101 8 State.inAll) r x ∧ s.addrRefused
      Reg.lnkMlCtrl = none ∧ s.variant = .l ∧ v.getLsbD 9 = false ∧ bits v 5 4 ≤ 2 ∧ bits v 23 16 ≠ 0 ∧ (bits v 5 4 ≠
      0 ∨ v.getLsbD 1 = true ∨ v.getLsbD 8 = true)) :=
  ⟨⟨ml 1 0, req 8, sess, 0x000A0113, served_of (by decide +kernel), by decide +kernel⟩,
    ⟨(ml 1 0).withModes fun m => { m with inner := .test }, req 8, sess, 0x000A0213, served_of (by decide +kernel),
      by decide +kernel⟩,
    ⟨ml 1 0, req 8, sess, 0x000A0213, served_of (by decide +kernel), by decide +kernel⟩,
    ⟨{ up with variant := .l }, req 8, sess, 0x000A0103, served_of (by decide +kernel), by decide +kernel⟩⟩

theorem witness_engineWritesComplete :
    (∃ (s : State) (r : Req) (x : Session), Served s (Form.make 0x0101 8 State.inAll) r x ∧ s.addrRefused Reg.cmpQuar
      = none)
    ∧ (∃ (s : State) (r : Req) (x : Session) (v : Word), Served s (Form.make 0x0101 8 State.inAll) r x ∧ s.addrRefused
      Reg.cmpInject = none ∧ s.inMode .test = true ∧ v.getLsbD 8 = true)
    ∧ (∃ (s : State) (r : Req) (x : Session), Served s (Form.make 0x0101 8 State.inAll) r x ∧ s.addrRefused
      Reg.cmpInject = none ∧ s.inMode .test = false) :=
  ⟨⟨{ up.set Reg.cmpQuar 7 with cmp := { Cmp.reset with faults := [(0, [3]), (2, [4])] } }, req 8, sess, served_of
      (by decide +kernel), by decide +kernel⟩,
    ⟨inM .test, req 8, sess, 0x1F0103, served_of (by decide +kernel), by decide +kernel⟩,
    ⟨up, req 8, sess, served_of (by decide +kernel), by decide +kernel⟩⟩

theorem witness_depotWritesComplete :
    (∃ (s : State) (r : Req) (x : Session) (v : Word), Served s (Form.make 0x0101 8 State.inAll) r x ∧ s.addrRefused
      Reg.dptRegion = none ∧ s.inMode .standby = true ∧ (∀ n : Fin 4, s.holdState n = 0) ∧ bits v 7 0 ≠ 0 ∧ bits v 15
      8 ≠ 0 ∧ bits v 7 0 + bits v 15 8 + bits v 23 16 + 4 ≤ s.fitted / 4096)
    ∧ (∃ (s : State) (r : Req) (x : Session), Served s (Form.make 0x0101 8 State.inAll) r x ∧ s.addrRefused
      Reg.dptFlipCtrl = none ∧ s.inMode .test = true)
    ∧ (∃ (s : State) (r : Req) (x : Session) (v : Word), Served s (Form.make 0x0101 8 State.inAll) r x ∧ s.addrRefused
      Reg.dptFlipAddr = none ∧ s.inMode .test = true ∧ (bits v 30 0 / 4096 < s.systemBase ∨ s.fitted ≤ bits v 30 0 /
      4096))
    ∧ (∃ (s : State) (r : Req) (x : Session) (v : Word), Served s (Form.make 0x0101 8 State.inAll) r x ∧ s.addrRefused
      Reg.dptFlipAddr = none ∧ s.inMode .test = true ∧ s.systemBase ≤ bits v 30 0 / 4096 ∧ bits v 30 0 / 4096 <
      s.fitted)
    ∧ (∃ (s : State) (r : Req) (x : Session), Served s (Form.make 0x0101 8 State.inAll) r x ∧ s.addrRefused
      Reg.dptMapflipCtrl = none ∧ s.inMode .test = true)
    ∧ (∃ (s : State) (r : Req) (x : Session) (v : Word), Served s (Form.make 0x0101 8 State.inAll) r x ∧ s.addrRefused
      Reg.dptMapSel = none ∧ bits v 18 0 < s.fitted ∧ lookupK (bits v 18 0) s.dpt.mapErrs = none) :=
  ⟨⟨{ up with dpt := dep.dpt }, req 8, sess, 0x08081020, served_of (by decide +kernel), by decide +kernel⟩,
    ⟨inM .test, req 8, sess, served_of (by decide +kernel), by decide +kernel⟩,
    ⟨inM .test, req 8, sess, BitVec.ofNat 32 ((inM .test).systemBase * 4096 - 1), served_of (by decide +kernel),
      by decide +kernel⟩,
    ⟨inM .test, req 8, sess, 0x7FFFFFFF, served_of (by decide +kernel), by decide +kernel⟩,
    ⟨inM .test, req 8, sess, served_of (by decide +kernel), by decide +kernel⟩,
    ⟨dep, req 8, sess, 9, served_of (by decide +kernel), by decide +kernel⟩⟩

theorem witness_snapPowerAndLaneWritesComplete :
    (∃ (s : State) (r : Req) (x : Session) (v : Word), Served s (Form.make 0x0101 8 State.inAll) r x ∧ s.addrRefused
      Reg.timSnap = none ∧ v.getLsbD 0 = true)
    ∧ (∃ (s : State) (r : Req) (x : Session) (v : Word) (l : List (Nat × BitVec 64 × Bool)) (q : Nat × BitVec 64 ×
      Bool), Served s (Form.make 0x0101 8 State.inAll) r x ∧ s.addrRefused Reg.pwrStat = none ∧ v.getLsbD 11 = true ∧
      s.tt.steps = l ++ [q] ∧ l.length < 16)
    ∧ (∃ (s : State) (r : Req) (x : Session) (v : Word) (l : Fin 3), Served s (Form.make 0x0101 8 State.inAll) r x ∧
      s.addrRefused Reg.ilkLaneCtrl = none ∧ bits v 10 8 = 0 ∧ v.getLsbD l = true ∧ s.voting l = true)
    ∧ (∃ (s : State) (r : Req) (x : Session) (v : Word) (l : Fin 3), Served s (Form.make 0x0101 8 State.inAll) r x ∧
      s.addrRefused Reg.ilkLaneCtrl = none ∧ s.retireRefused (bits v 10 8) = false ∧ v.getLsbD (8 + l.val) = true ∧
      s.laneRetired l = false)
    ∧ (∃ (s : State) (r : Req) (x : Session) (v : Word), Served s (Form.make 0x0101 8 State.inAll) r x ∧ s.addrRefused
      Reg.ilkLaneCtrl = none ∧ s.retireRefused (bits v 10 8) = true) :=
  ⟨⟨late 3, req 8, sess, 1, served_of (by decide +kernel), by decide +kernel⟩,
    ⟨{ up with tt := { Timetable.reset with running := true, steps := [(1, 0, false), (2, 0, true)] } }, req 8, sess,
      0x800, [(1, 0, false)], (2, 0, true), served_of (by decide +kernel), by decide +kernel⟩,
    ⟨up, req 8, sess, 4, 2, served_of (by decide +kernel), by decide +kernel⟩,
    ⟨up, req 8, sess, 0x400, 2, served_of (by decide +kernel), by decide +kernel⟩,
    ⟨up, req 8, sess, 0x600, served_of (by decide +kernel), by decide +kernel⟩⟩

theorem witness_clockGatesComplete :
    (∃ (s : State) (r : Req) (x : Session) (v : Word) (busy : Word), Served s (Form.make 0x0101 8 State.inAll) r x ∧
      s.addrRefused Reg.clkGateHostEng = none ∧ (v = 0 ∨ s.inMode .test = true) ∧ v &&& ~~~(s.get Reg.clkGateHostEng)
      &&& busy = 0)
    ∧ (∃ (s : State) (r : Req) (x : Session) (v : Word) (busy : Word) (i : Nat), Served s (Form.make 0x0101 8
      State.inAll) r x ∧ s.addrRefused Reg.clkGateHostEng = none ∧ s.inMode .test = true ∧ (bitList (v &&& ~~~(s.get
      Reg.clkGateHostEng))).find? (fun i => busy.getLsbD i) = some i)
    ∧ (∃ (s : State) (r : Req) (x : Session) (v : Word) (busy : Word), Served s (Form.make 0x0101 8 State.inAll) r x ∧
      s.addrRefused Reg.clkGateHostMisc = none ∧ v &&& ~~~(s.get Reg.clkGateHostMisc) &&& s.miscUse = 0 ∧ v &&&
      ~~~(s.get Reg.clkGateHostMisc) &&& busy = 0)
    ∧ (∃ (s : State) (r : Req) (x : Session) (v : Word), Served s (Form.make 0x0101 8 State.inAll) r x ∧ s.addrRefused
      Reg.clkGateHostMisc = none ∧ v &&& ~~~(s.get Reg.clkGateHostMisc) &&& s.miscUse ≠ 0)
    ∧ (∃ (s : State) (r : Req) (x : Session) (v : Word) (busy : Word) (i : Nat), Served s (Form.make 0x0101 8
      State.inAll) r x ∧ s.addrRefused Reg.clkGateHostMisc = none ∧ v &&& ~~~(s.get Reg.clkGateHostMisc) &&&
      s.miscUse = 0 ∧ (bitList (v &&& 7 &&& ~~~(s.get Reg.clkGateHostMisc))).find? (fun i => busy.getLsbD i) = some
      i)
    ∧ (∃ (s : State) (i : Fin 36) (b : Requester), s.modes.control = true ∧ s.gateWanted i b = true ∧ s.gated i =
      false)
    ∧ (∃ (s : State) (i : Fin 36), i.val ∈ s.clk.closing)
    ∧ (∃ (s : State) (i : Fin 36), i.val ∈ s.clk.closing ∧ (s.gateReqs i).2.1 = true)
    ∧ (∃ (s : State) (i : Fin 36) (b : Requester), s.gateWanted i b = false ∧ withReq (s.gateReqs i) b false = (false,
      false, false))
    ∧ (∃ (s : State) (i : Fin 36) (b : Requester), s.gateWanted i b = false ∧ withReq (s.gateReqs i) b false ≠ (false,
      false, false)) :=
  ⟨⟨inM .test, req 8, sess, 0xF, 0xF0, served_of (by decide +kernel), by decide +kernel⟩,
    ⟨inM .test, req 8, sess, 0xF, 0xFE, 1, served_of (by decide +kernel), by decide +kernel⟩,
    ⟨noUse, req 8, sess, 2, 4, served_of (by decide +kernel), by decide +kernel⟩,
    ⟨up, req 8, sess, 2, served_of (by decide +kernel), by decide +kernel⟩,
    ⟨noUse, req 8, sess, 2, 2, 1, served_of (by decide +kernel), by decide +kernel⟩,
    ⟨up.setBit Reg.cmpQuar 5 true, 5, .fault, by decide +kernel⟩,
    ⟨{ up with clk := { Clk.reset with closing := [34] } }, 34, by decide +kernel⟩,
    ⟨{ up with clk := { Clk.reset with closing := [3], gates := [(3, false, true, true)] } }, 3, by decide +kernel⟩,
    ⟨{ up with clk := { Clk.reset with gates := [(3, false, true, false)] } }, 3, .fault, by decide +kernel⟩,
    ⟨{ up with clk := { Clk.reset with gates := [(3, true, true, true)] } }, 3, .fault, by decide +kernel⟩⟩

theorem witness_provocationsAreArmed :
    (∃ (s : State) (r : Req) (x : Session) (i : Fin 11) (v : Word), Served s (Form.make 0x0101 8 State.inAll) r x ∧
      s.addrRefused (Reg.lnkProvCtrl i) = none ∧ s.inMode .test = true ∧ bits v 2 0 ≤ 4 ∧ dirOk i (v.getLsbD 8) =
      true ∧ v.getLsbD 31 = true ∧ (s.variant = .f ∨ i ≠ 1) ∧ (i.val ≠ r.port.val ∨ v.getLsbD 8 = true))
    ∧ (∃ (s : State) (r : Req) (x : Session) (i : Fin 11), Served s (Form.make 0x0101 8 State.inAll) r x ∧
      s.addrRefused (Reg.lnkProvCtrl i) = none ∧ s.inMode .test = false)
    ∧ (∃ (s : State) (r : Req) (x : Session) (v : Word), Served s (Form.make 0x0101 8 State.inAll) r x ∧ s.addrRefused
      (Reg.lnkProvCtrl 1) = none ∧ s.inMode .test = true ∧ bits v 2 0 ≤ 4 ∧ s.variant = .l)
    ∧ (∃ (s : State) (r : Req) (x : Session) (m : Byte) (d : Byte) (n : Word) (k : BitVec 16), Served s ⟨0x0A00, 16,
      true, false, false, State.inTest⟩ r x ∧ r.target.toNat ≤ 10 ∧ m.toNat ≤ 4 ∧ d.toNat ≤ 1 ∧ n ≠ 0 ∧ (m = 4 → k ≠
      0) ∧ dirOk r.target.toNat (d = 1) = true ∧ (s.variant = .f ∨ r.target ≠ 1) ∧ (r.target.toNat ≠ r.port.val ∨ d =
      1))
    ∧ (∃ (s : State) (r : Req) (x : Session), Served s ⟨0x0A00, 16, true, false, false, fun _ => true⟩ r x ∧ (s.arrived
      r).inTest = false)
    ∧ (∃ (s : State) (r : Req) (x : Session) (m : Byte) (d : Byte) (n : Word) (k : BitVec 16), Served s ⟨0x0A00, 16,
      true, false, false, State.inTest⟩ r x ∧ s.variant = .l ∧ r.target = 1 ∧ m.toNat ≤ 4 ∧ d.toNat ≤ 1 ∧ n ≠ 0 ∧ (m
      = 4 → k ≠ 0)) :=
  ⟨⟨inM .test, req 8, sess, 3, 0x80000002, served_of (by decide +kernel), by decide +kernel⟩,
    ⟨up, req 8, sess, 3, served_of (by decide +kernel), by decide +kernel⟩,
    ⟨{ inM .test with variant := .l }, req 8, sess, 0x80000002, served_of (by decide +kernel), by decide +kernel⟩,
    ⟨inM .test, tgt 10 (req 16), sess, 4, 0, 3, 2, served_of (by decide +kernel), by decide +kernel⟩,
    ⟨up, tgt 6 (req 16), sess, served_of (by decide +kernel), by decide +kernel⟩,
    ⟨{ inM .test with variant := .l }, tgt 1 (req 16), sess, 0, 0, 3, 0, served_of (by decide +kernel),
      by decide +kernel⟩⟩

theorem witness_timeAndSettingsCommandsComplete :
    (∃ (s : State) (r : Req) (x : Session) (f : Byte) (w : Wide), Served s (Form.make 0x0500 30 State.inStandby) r x
      ∧ x.HasRoom ∧ s.modes.sampling = false ∧ f.toNat ≤ 2 ∧ (f = 2 → w.ns.toNat < 1000000000) ∧ (f = 0 → s.locked
      s.timRef = true))
    ∧ (∃ (s : State) (r : Req) (x : Session), Served s (Form.make 0x0500 30 State.inStandby) r x ∧ s.modes.sampling =
      false ∧ s.locked s.timRef = false)
    ∧ (∃ (s : State) (r : Req) (x : Session), Served s (Form.make 0x0501 0 State.inAll) r x)
    ∧ (∃ (s : State) (r : Req) (x : Session), Served s (Form.make 0x0700 0 State.inAll) r x)
    ∧ (∃ (s : State) (r : Req) (x : Session) (p : BitVec 16) (q : BitVec 16), Served s (Form.make 0x0900 4 State.inRun)
      r x ∧ 60 ≤ p.toNat ∧ p.toNat ≤ (if s.variant = .f then 250 else 226) ∧ 60 ≤ q.toNat ∧ q.toNat ≤ 150 ∧
      s.tt.running = false)
    ∧ (∃ (s : State) (r : Req) (x : Session) (p : BitVec 16) (q : BitVec 16), Served s (Form.make 0x0900 4 State.inRun)
      r x ∧ 60 ≤ p.toNat ∧ p.toNat ≤ (if s.variant = .f then 250 else 226) ∧ 60 ≤ q.toNat ∧ q.toNat ≤ 150 ∧
      s.tt.running = true)
    ∧ (∃ (s : State) (r : Req) (x : Session) (p : BitVec 16) (q : BitVec 16), Served s (Form.make 0x0900 4 State.inRun)
      r x ∧ (p.toNat < 60 ∨ (if s.variant = .f then 250 else 226) < p.toNat ∨ q.toNat < 60 ∨ 150 < q.toNat))
    ∧ (∃ (s : State) (r : Req) (x : Session), Served s (Form.make 0x0901 0 State.inRun) r x) :=
  ⟨⟨(late 5).setFld (Reg.timDomStat 0) 2 0 3, req 30, sess, 0, ⟨9, 5, 1⟩, served_of (by decide +kernel),
      by unfold Session.HasRoom; decide +kernel, by decide +kernel⟩,
    ⟨late 5, req 30, sess, served_of (by decide +kernel), by decide +kernel⟩,
    ⟨late 5, req 0, sess, served_of (by decide +kernel)⟩,
    ⟨late 5, req 0, sess, served_of (by decide +kernel)⟩,
    ⟨up, req 4, sess, 250, 60, served_of (by decide +kernel), by decide +kernel⟩,
    ⟨{ up with tt := { Timetable.reset with running := true } }, req 4, sess, 60, 150, served_of (by decide +kernel),
      by decide +kernel⟩,
    ⟨up, req 4, sess, 251, 150, served_of (by decide +kernel), by decide +kernel⟩,
    ⟨up, req 0, sess, served_of (by decide +kernel)⟩⟩

theorem witness_trustCommandsComplete :
    (∃ (s : State) (r : Req) (x : Session), Served s (Form.make 0x0800 0 State.inAll) r x)
    ∧ (∃ (s : State) (r : Req) (x : Session) (o : BitVec 16) (c : List Byte), Served s (Form.make 0x0801 4 State.inAll)
      r x ∧ o.toNat + c.length ≤ 8192)
    ∧ (∃ (s : State) (r : Req) (x : Session), Served s (Form.make 0x0802 32 State.inAll) r x ∧ x.HasRoom ∧
      s.modes.control = true ∧ s.modes.att = true)
    ∧ (∃ (s : State) (r : Req) (x : Session), Served s (Form.make 0x0802 32 State.inAll) r x ∧ s.modes.att = false)
    ∧ (∃ (s : State) (r : Req) (x : Session) (o : Word), Served s (Form.make 0x0803 6 State.inAll) r x ∧ o.toNat <
      x.report.length)
    ∧ (∃ (s : State) (r : Req) (x : Session) (o : Word), Served s (Form.make 0x0804 6 State.inAll) r x ∧ s.keyReady =
      true ∧ o.toNat < 2592)
    ∧ (∃ (s : State) (r : Req) (x : Session) (o : Word) (c : List Byte), Served s (Form.make 0x0806 4 State.inUpdate) r
      x ∧ o.toNat + c.length ≤ 531571 ∧ (o = 0 ∨ o.toNat ≤ s.pers.fwHeld))
    ∧ (∃ (s : State) (r : Req) (x : Session), Served s (Form.make 0x0A01 4 State.inAll) r x ∧ x.HasRoom)
    ∧ (∃ (s : State) (r : Req) (x : Session), Served s (Form.make 0x0701 0 State.inRun) r x ∧ x.HasRoom ∧ s.cstBusy =
      false ∧ s.rangeBusy = false)
    ∧ (∃ (s : State) (r : Req) (x : Session), Served s (Form.make 0x0701 0 State.inRun) r x ∧ (s.cstBusy = true ∨
      s.rangeBusy = true)) :=
  ⟨⟨late 4, req 0, sess, served_of (by decide +kernel)⟩,
    ⟨lo { sess with auth := [(1, 3), (8000, 4)] }, req 6, { sess with auth := [(1, 3), (8000, 4)] }, 8190, [1, 2],
      served_of (by decide +kernel), by decide +kernel⟩,
    ⟨up, req 32, sess, served_of (by decide +kernel), by unfold Session.HasRoom; decide +kernel, by decide +kernel⟩,
    ⟨up.withModes fun m => { m with att := false }, req 32, sess, served_of (by decide +kernel), by decide +kernel⟩,
    ⟨lo { sess with report := [1,2,3,4] }, req 6, { sess with report := [1,2,3,4] }, 1, served_of
      (by decide +kernel), by decide +kernel⟩,
    ⟨up.setBit Reg.attStat 0 true, req 6, sess, 2590, served_of (by decide +kernel), by decide +kernel⟩,
    ⟨inM .update, req 9, sess, 0, [1, 2, 0, 4, 5], served_of (by decide +kernel), by decide +kernel⟩,
    ⟨up, req 4, sess, served_of (by decide +kernel), by unfold Session.HasRoom; decide +kernel⟩,
    ⟨up, req 0, sess, served_of (by decide +kernel), by unfold Session.HasRoom; decide +kernel, by decide +kernel⟩,
    ⟨up.setBit (Reg.calStat 3) 20 true, req 0, sess, served_of (by decide +kernel), by decide +kernel⟩⟩

theorem witness_privilegedRequestsAreQueued :
    (∃ (s : State) (r : Req) (x : Session) (l : BitVec 16) (v : List Byte), v.length = l.toNat ∧ Served s ⟨0x0805, 4,
      false, true, false, fun _ => true⟩ r x ∧ isSigned r = true ∧ x.HasRoom ∧ (s.inMode .safe = true ∨ s.inMode
      .update = true) ∧ s.modes.control = true ∧ s.modes.att = true ∧ authBroken (heldFrom0 x.auth) (x.auth.map fun c
      => c.2) = false)
    ∧ (∃ (s : State) (r : Req) (x : Session), Served s ⟨0x0807, 68, false, true, false, fun _ => true⟩ r x ∧ isSigned r
      = true ∧ x.HasRoom ∧ s.inUpdate = true ∧ s.modes.control = true ∧ s.modes.att = true ∧ authBroken (heldFrom0
      x.auth) (x.auth.map fun c => c.2) = false)
    ∧ (∃ (s : State) (r : Req) (x : Session) (l : BitVec 16) (v : List Byte), v.length = l.toNat ∧ Served s ⟨0x0805, 4,
      false, true, false, fun _ => true⟩ r x ∧ isSigned r = true ∧ (s.inMode .safe = true ∨ s.inMode .update = true)
      ∧ s.modes.control = true ∧ s.modes.att = true ∧ authBroken (heldFrom0 x.auth) (x.auth.map fun c => c.2) = true)
    ∧ (∃ (s : State) (r : Req) (x : Session) (l : BitVec 16) (v : List Byte), v.length = l.toNat ∧ Served s ⟨0x0805, 4,
      false, true, false, fun _ => true⟩ r x ∧ isSigned r = false)
    ∧ (∃ (s : State) (r : Req) (x : Session), Served s ⟨0x0807, 68, false, true, false, fun _ => true⟩ r x ∧ s.inUpdate
      = false) :=
  ⟨⟨(lo sA).withModes fun m => { m with inner := .safe }, sg (req 6), sA, 2, [1, 2], by decide +kernel, served_of
      ⟨by decide +kernel, by decide +kernel, rfl, rfl, rfl, rfl, by decide +kernel, rfl, by decide +kernel⟩,
      by decide +kernel, by unfold Session.HasRoom; decide +kernel, by decide +kernel, by decide +kernel,
      by decide +kernel, sA_auth⟩,
    ⟨(lo sA).withModes fun m => { m with inner := .update }, sg (req 68), sA, served_of ⟨by decide +kernel,
      by decide +kernel, rfl, rfl, rfl, rfl, by decide +kernel, rfl, by decide +kernel⟩, by decide +kernel,
      by unfold Session.HasRoom; decide +kernel, by decide +kernel, by decide +kernel, by decide +kernel, sA_auth⟩,
    ⟨(lo sB).withModes fun m => { m with inner := .safe }, sg (req 6), sB, 2, [1, 2], by decide +kernel, served_of
      (by decide +kernel), by decide +kernel⟩,
    ⟨up, req 6, sess, 2, [1, 2], by decide +kernel, served_of (by decide +kernel), by decide +kernel⟩,
    ⟨up, sg (req 68), sess, served_of (by decide +kernel), by decide +kernel⟩⟩

theorem witness_trustEventsComplete :
    (∃ (s : State) (o : OpRef) (op : BitVec 16) (target : BitVec 16) (p : List Byte) (n : Option (BitVec 128 × Nat))
      (au : List Byte) (rest : List AttJob), s.pers.jobs = .check o op target p n au :: rest ∧ s.modes.att = true ∧
      s.gated 32 = false ∧ s.pers.install = none ∧ s.authVerdict op target p n au ≠ St.ok)
    ∧ (∃ (s : State) (o : OpRef) (target : BitVec 16) (p : List Byte) (n : Option (BitVec 128 × Nat)) (au : List Byte)
      (rest : List AttJob) (v : List Byte) (a : Nat), s.pers.jobs = .check o 0x0805 target p n au :: rest ∧
      s.modes.att = true ∧ s.gated 32 = false ∧ s.pers.install = none ∧ (p.drop 4).take (ofBytes ((p.drop 2).take 2))
      = v ∧ s.otpField (ofBytes (p.take 2)) v = some a)
    ∧ (∃ (s : State) (o : OpRef) (target : BitVec 16) (p : List Byte) (n : Option (BitVec 128 × Nat)) (au : List Byte)
      (rest : List AttJob), s.pers.jobs = .check o 0x0807 target p n au :: rest ∧ s.modes.att = true ∧ s.gated 32 =
      false ∧ s.pers.install = none)
    ∧ (∃ (s : State) (x : Install), s.pers.install = some x ∧ x.image.length ≤ 0x1FFF80)
    ∧ (∃ (s : State) (x : Install), s.pers.install = some x ∧ x.image.length ≤ 0x1FFF80)
    ∧ (∃ (s : State) (x : Install) (ns : Nat), s.pers.install = some x ∧ x.image.length ≤ 0x1FFF80 ∧ s.pers.cst = none
      ∧ 1000 ≤ ns ∧ s.modes.nrstLow = false ∧ 2800 ≤ s.modes.auxMv)
    ∧ (∃ (s : State), s.modes.control = true ∧ s.modes.att = true ∧ s.gated 32 = false ∧ s.keyReady = false)
    ∧ (∃ (s : State) (o : OpRef) (c : BitVec 256) (rest : List AttJob) (x : Session), s.pers.jobs = .report o c :: rest
      ∧ s.modes.att = true ∧ s.gated 32 = false ∧ s.keyReady = true ∧ s.attWaiting = false ∧ (s.inForce < 2 →
      s.sealHolds s.inForce = true) ∧ s.findSession o.session = some x)
    ∧ (∃ (s : State) (o : OpRef) (seed : Word) (rest : List (OpRef × Word)), s.ilk.audits = (o, seed) :: rest)
    ∧ (∃ (s : State) (j : CstJob) (a : Bool) (b : Bool), s.pers.cst = some j ∧ j.target < 2 ∧ (a || b) = true ∧
      j.image.length ≤ sealOffset)
    ∧ (∃ (s : State) (j : CstJob), s.pers.cst = some j ∧ j.target < 2 ∧ s.inForce ≠ j.target)
    ∧ (∃ (s : State) (j : CstJob) (ns : Nat), s.pers.cst = some j ∧ j.zeroed = true ∧ j.image.length ≤ sealOffset ∧
      s.pers.install = none ∧ 1000 ≤ ns ∧ s.modes.nrstLow = false ∧ 2800 ≤ s.modes.auxMv)
    ∧ (∃ (s : State) (upset : List (Nat × Byte)), 2 ≤ s.modes.inner.code ∧ s.pers.recheckAt + secU (3600 * s.fld
      Reg.cstRecheck 9 0) ≤ s.tim.now ∧ (s.inForce < 2 → (s.upsetBank s.inForce upset).sealHolds s.inForce = true)) :=
  ⟨⟨withJ [.check ⟨5, 3⟩ 0x0805 0 [2, 1, 0, 1, 1] none [], .report ⟨0,0⟩ 3] (lo (sOp 3 false)), ⟨5, 3⟩, 0x0805, 0,
      [2, 1, 0, 1, 1], none, [], [.report ⟨0,0⟩ 3], by decide +kernel⟩,
    ⟨withJ [.check ⟨5, 3⟩ 0x0805 0 ([2, 1, 0, 64] ++ List.replicate 64 3) none []] (lo (sOp 3 false)), ⟨5, 3⟩, 0, [2,
      1, 0, 64] ++ List.replicate 64 3, none, [], [], List.replicate 64 3, 0xC0, by decide +kernel⟩,
    ⟨withJ [.check ⟨5, 3⟩ 0x0807 0 [2, 1, 0, 1, 1] none []] (lo (sOp 3 false)), ⟨5, 3⟩, 0, [2, 1, 0, 1, 1], none, [],
      [], by decide +kernel⟩,
    ⟨insS, ins, by decide +kernel⟩,
    ⟨insS, ins, by decide +kernel⟩,
    ⟨insS, ins, 1000, by decide +kernel⟩,
    ⟨up, by decide +kernel⟩,
    ⟨withJ [.report ⟨5, 3⟩ 3] ((lo (sOp 3 false)).setBit Reg.attStat 0 true |>.setFld Reg.cstStat 1 0 3), ⟨5, 3⟩, 3,
      [], sOp 3 false, by decide +kernel⟩,
    ⟨{ lo (sOp 3 false) with ilk := { Ilk.reset with audits := [(⟨5, 3⟩, 7)] } }, ⟨5, 3⟩, 7, [], by decide +kernel⟩,
    ⟨cst 1, cjob 1, false, true, by decide +kernel⟩,
    ⟨cst 0 |>.setFld Reg.cstStat 1 0 1, cjob 0, by decide +kernel⟩,
    ⟨cst 1, cjob 1, 1000, by decide +kernel⟩,
    ⟨(secs 3600000 up).setFld Reg.cstStat 1 0 3, [(5, 1)], by decide +kernel⟩⟩

theorem witness_holdCommandsComplete :
    (∃ (s : State) (r : Req) (x : Session) (post : Word) (store : Byte) (n : Fin 4), Served s (Form.make 0x0400 24
      State.inDepot) r x ∧ x.HasRoom ∧ post.toNat ≤ 1000000 ∧ store.toNat ≤ 1 ∧ s.holdState n = 0 ∧ (∀ m : Fin 4, m <
      n → s.holdState m ≠ 0) ∧ s.modes.inner ≠ .hold)
    ∧ (∃ (s : State) (r : Req) (x : Session) (post : Word) (store : Byte) (n : Fin 4), Served s (Form.make 0x0400 24
      State.inDepot) r x ∧ x.HasRoom ∧ post.toNat ≤ 1000000 ∧ store.toNat ≤ 1 ∧ s.holdState n = 0 ∧ (∀ m : Fin 4, m <
      n → s.holdState m ≠ 0) ∧ s.modes.inner = .hold)
    ∧ (∃ (s : State) (r : Req) (x : Session) (post : Word) (store : Byte), Served s (Form.make 0x0400 24 State.inDepot)
      r x ∧ (1000000 < post.toNat ∨ 1 < store.toNat))
    ∧ (∃ (s : State) (r : Req) (x : Session) (post : Word) (store : Byte), Served s (Form.make 0x0400 24 State.inDepot)
      r x ∧ post.toNat ≤ 1000000 ∧ store.toNat ≤ 1 ∧ (∀ m : Fin 4, s.holdState m ≠ 0))
    ∧ (∃ (s : State) (r : Req) (x : Session) (n : Fin 4), Served s ⟨0x0401, 9, true, false, false, State.inDepot⟩ r x ∧
      x.HasRoom ∧ r.target.toNat = n.val ∧ (s.holdState n = 2 ∨ s.holdState n = 5) ∧ s.hasBinding = true ∧
      s.dpt.mapErrs = [])
    ∧ (∃ (s : State) (r : Req) (x : Session) (n : Fin 4), Served s ⟨0x0401, 9, true, false, false, State.inDepot⟩ r x ∧
      x.HasRoom ∧ r.target.toNat = n.val ∧ (s.holdState n = 2 ∨ s.holdState n = 5) ∧ s.hasBinding = true ∧
      s.dpt.mapErrs = [] ∧ (∃ m, s.holdState m = 4))
    ∧ (∃ (s : State) (r : Req) (x : Session) (n : Fin 4), Served s ⟨0x0401, 9, true, false, false, State.inDepot⟩ r x ∧
      r.target.toNat = n.val ∧ s.holdState n ≠ 2 ∧ s.holdState n ≠ 5)
    ∧ (∃ (s : State) (r : Req) (x : Session) (n : Fin 4), Served s ⟨0x0401, 9, true, false, false, State.inDepot⟩ r x ∧
      r.target.toNat = n.val ∧ (s.holdState n = 2 ∨ s.holdState n = 5) ∧ s.hasBinding = false)
    ∧ (∃ (s : State) (r : Req) (x : Session) (n : Fin 4), Served s ⟨0x0402, 0, true, false, false, State.inDepot⟩ r x ∧
      r.target.toNat = n.val ∧ s.holdState n = 1)
    ∧ (∃ (s : State) (r : Req) (x : Session) (n : Fin 4), Served s ⟨0x0402, 0, true, false, false, State.inDepot⟩ r x ∧
      x.HasRoom ∧ r.target.toNat = n.val ∧ (s.holdState n = 2 ∨ s.holdState n = 5))
    ∧ (∃ (s : State) (r : Req) (x : Session) (n : Fin 4), Served s ⟨0x0402, 0, true, false, false, State.inDepot⟩ r x ∧
      x.HasRoom ∧ r.target.toNat = n.val ∧ s.holdState n = 3)
    ∧ (∃ (s : State) (r : Req) (x : Session) (n : Fin 4) (y : Stream), Served s ⟨0x0402, 0, true, false, false,
      State.inDepot⟩ r x ∧ x.HasRoom ∧ r.target.toNat = n.val ∧ s.holdState n = 4 ∧ s.stream (drainStream n) = some
      y)
    ∧ (∃ (s : State) (r : Req) (x : Session) (n : Fin 4), Served s ⟨0x0402, 0, true, false, false, State.inDepot⟩ r x ∧
      r.target.toNat = n.val ∧ s.holdState n = 6)
    ∧ (∃ (s : State) (r : Req) (x : Session), Served s ⟨0x0402, 0, true, false, false, State.inDepot⟩ r x ∧ (3 <
      r.target.toNat ∨ ∃ n : Fin 4, r.target.toNat = n.val ∧ s.holdState n = 0)) :=
  ⟨⟨secs 3 (ho [2, 0, 0, 1]), req 24, sess, 1000000, 1, 1, served_of (by decide +kernel),
      by unfold Session.HasRoom; decide +kernel, by decide +kernel⟩,
    ⟨((secs 3 dep).withModes fun m => { m with inner := .hold, base := .hold }).withDpt fun d =>
      { d with ringPos := some (10, 64) }, req 24, sess, 1000000, 1, 0, served_of (by decide +kernel),
      by unfold Session.HasRoom; decide +kernel, by decide +kernel⟩,
    ⟨secs 3 (ho [2, 0, 0, 1]), req 24, sess, 1000001, 1, served_of (by decide +kernel), by decide +kernel⟩,
    ⟨secs 3 (ho [2, 4, 5, 1]), req 24, sess, 1000000, 1, served_of (by decide +kernel), by decide +kernel⟩,
    ⟨ho [2, 2, 5, 1], tgt 1 (req 9), sess, 1, served_of (by decide +kernel),
      by unfold Session.HasRoom; decide +kernel, by decide +kernel⟩,
    ⟨ho [2, 2, 4, 1], tgt 1 (req 9), sess, 1, served_of (by decide +kernel),
      by unfold Session.HasRoom; decide +kernel, by decide +kernel⟩,
    ⟨ho [2, 4, 5, 1], tgt 1 (req 9), sess, 1, served_of (by decide +kernel), by decide +kernel⟩,
    ⟨(ho [2, 2, 5, 1]).withLnk fun l => { l with bindA := none, bindB := none }, tgt 1 (req 9), sess, 1, served_of
      (by decide +kernel), by decide +kernel⟩,
    ⟨withSes (sOp 3 false) (hol 1 (fun h => { h with op := some ⟨5, 3⟩ }) (ho [2, 1, 5, 1])), tgt 1 (req 0), sOp 3
      false, 1, served_of (by decide +kernel), by decide +kernel⟩,
    ⟨ho [2, 5, 5, 1], tgt 1 (req 0), sess, 1, served_of (by decide +kernel),
      by unfold Session.HasRoom; decide +kernel, by decide +kernel⟩,
    ⟨ho [2, 3, 5, 1], tgt 1 (req 0), sess, 1, served_of (by decide +kernel),
      by unfold Session.HasRoom; decide +kernel, by decide +kernel⟩,
    ⟨withStr [{ strm 0x101 with items := [.unit 4], slot := some 1 }] (ho [2, 4, 5, 1]), tgt 1 (req 0), sess, 1,
      { strm 0x101 with items := [.unit 4], slot := some 1 }, served_of (by decide +kernel),
      by unfold Session.HasRoom; decide +kernel, by decide +kernel⟩,
    ⟨ho [2, 6, 5, 1], tgt 1 (req 0), sess, 1, served_of (by decide +kernel), by decide +kernel⟩,
    ⟨ho [2, 0, 5, 1], tgt 1 (req 0), sess, served_of (by decide +kernel), by decide +kernel⟩⟩

theorem witness_holdEventsComplete :
    (∃ (s : State) (n : Fin 4), s.holdState n = 1 ∧ (s.dpt.holds.get n).ringDone = false ∧ (s.dpt.holds.get n).ta +
      usU (s.dpt.holds.get n).post ≤ s.tim.mt ∧ ((s.dpt.holds.get n).ta + usU (s.dpt.holds.get n).post + usU 100 ≤
      s.tim.mt ∨ (s.framesBefore ((s.dpt.holds.get n).ta + usU (s.dpt.holds.get n).post) = false ∧ ∀ u ∈
      s.pendingUnits, (s.dpt.holds.get n).ta + usU (s.dpt.holds.get n).post ≤ u.time)))
    ∧ (∃ (s : State) (n : Fin 4), s.holdState n = 1 ∧ (s.dpt.holds.get n).storeDone = false ∧ s.bit (Reg.dptHoldStat n)
      4 = true ∧ (∀ r ∈ s.dpt.recs, r.order < (s.dpt.holds.get n).order → r.stored = true))
    ∧ (∃ (s : State) (n : Fin 4) (x : Stream), s.stream (drainStream n) = some x ∧ s.holdState n = 4 ∧ x.ended = true ∧
      (s.dpt.mapErrs = [] ∨ s.dpt.drainQ = []) ∧ s.dpt.drainQ = [])
    ∧ (∃ (s : State) (n : Fin 4) (x : Stream) (m : Fin 4) (q : List Nat), s.stream (drainStream n) = some x ∧
      s.holdState n = 4 ∧ x.ended = true ∧ s.dpt.drainQ = m.val :: q ∧ m ≠ n ∧ (∀ k : Fin 4, k ≠ n → s.holdState k ≠
      4))
    ∧ (∃ (s : State) (n : Fin 4), s.holdState n = 6 ∧ (∀ x ∈ s.lnk.streams, ∀ g ∈ x.segs, ∀ p ∈ g.parts, s.itemIn
      (s.slotBlocks n) p.1 = false) ∧ s.dpt.mapErrs = [] ∧ s.bit Reg.dptMapflipCtrl 0 = false) :=
  ⟨⟨{ frz with dpt := { frz.dpt with holds := upd frz.dpt.holds 0 fun h => { h with ta := secU 2 } } }, 0,
      by decide +kernel⟩,
    ⟨frz.setBit (Reg.dptHoldStat 0) 4 true, 0, by decide +kernel⟩,
    ⟨dr [2, 4, 5, 1] false, 1, dS, by decide +kernel⟩,
    ⟨(dr [3, 4, 5, 1] true).withDpt fun d => { d with drainQ := [0, 2] }, 1, dS, 0, [2], by decide +kernel⟩,
    ⟨withSes (sOp 3 false) (hol 1 (fun h => { h with releaseOps := [⟨5, 3⟩] }) (ho [2, 6, 5, 1])), 1,
      by decide +kernel⟩⟩

theorem witness_wireWatchCompletes :
    (∃ (s : State) (t : Tile) (p : Pin), s.tilePowered t = true ∧ s.wireMode t p = 1 ∧ s.watchCurrent t p ≠ 0 ∧
      (s.wire t p).centre = none ∧ (s.wire t p).since + usU 100 ≤ s.tim.now)
    ∧ (∃ (s : State) (t : Tile) (p : Pin) (v : Int) (c : Int × Nat) (held : Nat), s.tilePowered t = true ∧ s.wireMode t
      p = 1 ∧ (s.wire t p).centre = some c ∧ (s.wire t p).detected = false ∧ s.drifts t p = true ∧ s.wireLimit t p <
      (v - (s.centreNow v c).1).natAbs ∧ 2000 ≤ held ∧ s.modes.sampling = true)
    ∧ (∃ (s : State) (t : Tile) (p : Pin) (v : Int) (c : Int × Nat), s.tilePowered t = true ∧ s.wireMode t p = 1 ∧
      (s.wire t p).centre = some c ∧ (v - (s.centreNow v c).1).natAbs ≤ s.wireLimit t p)
    ∧ (∃ (s : State) (t : Tile) (p : Pin), s.tileSampling t = true ∧ s.wireMode t p = 2 ∧ (s.wire t p).check = none ∧
      ((s.wire t p).wanted = true ∨ (s.wire t p).periodAt + msU (s.fld (Reg.wirPeriod t) 13 0) ≤ s.tim.now) ∧ (∀ k,
      s.pinChan t p = some k → s.windowOpen (16 * t.val + k) = false) ∧ (s.wire t p).wanted = true ∧ (s.wire t
      p).periodAt + msU (s.fld (Reg.wirPeriod t) 13 0) ≤ s.tim.now)
    ∧ (∃ (s : State) (t : Tile) (p : Pin), s.tileSampling t = true ∧ s.wireMode t p = 2 ∧ (s.wire t p).check = none ∧
      ((s.wire t p).wanted = true ∨ (s.wire t p).periodAt + msU (s.fld (Reg.wirPeriod t) 13 0) ≤ s.tim.now) ∧ (∀ k,
      s.pinChan t p = some k → s.windowOpen (16 * t.val + k) = false) ∧ ((s.wire t p).wanted = false ∨ s.tim.now <
      (s.wire t p).periodAt + msU (s.fld (Reg.wirPeriod t) 13 0)))
    ∧ (∃ (s : State) (t : Tile) (p : Pin) (a : Int) (b : Int) (f : Nat), (s.wire t p).check = some f ∧ f + 2 *
      framePeriods ≤ s.samplePos ∧ s.modes.sampling = true ∧ s.drifts t p = true ∧ s.wireLimit t p < (a - b).natAbs)
    ∧ (∃ (s : State) (t : Tile) (p : Pin) (a : Int) (b : Int) (f : Nat), (s.wire t p).check = some f ∧ f + 2 *
      framePeriods ≤ s.samplePos ∧ s.modes.sampling = true ∧ (a - b).natAbs ≤ s.wireLimit t p)
    ∧ (∃ (s : State), s.modes.sampling = true ∧ s.modes.last = none ∧ s.sbx.period + s.fld Reg.sbxLag 8 0 ≤
      s.samplePos)
    ∧ (∃ (s : State) (f : Nat), f ≠ s.nextFrame) :=
  ⟨⟨secs 1 (wr (fun w => w) (wm 1 trig)), 1, 3, by decide +kernel⟩,
    ⟨wat trig, 1, 3, 20006, (5, 0), 2000, by decide +kernel, by decide +kernel, by decide +kernel, by decide +kernel,
      by decide +kernel, by rw [wat_centre]; decide +kernel, by decide +kernel⟩,
    ⟨wat trig, 1, 3, 20005, (5, 0), by decide +kernel, by decide +kernel, by decide +kernel,
      by rw [wat_centre]; decide +kernel⟩,
    ⟨secs 40 (puls (fun w => { w with wanted := true }) trig), 1, 3, by decide +kernel⟩,
    ⟨secs 40 (puls (fun w => { w with wanted := false }) trig), 1, 3, by decide +kernel⟩,
    ⟨puls (fun w => { w with check := some 4096 }) (secs 1 trig), 1, 3, 20006, 5, 4096, by decide +kernel⟩,
    ⟨puls (fun w => { w with check := some 4096 }) (secs 1 trig), 1, 3, 20005, 5, 4096, by decide +kernel⟩,
    ⟨cutS, by decide +kernel⟩,
    ⟨puls (fun w => { w with wanted := true }) trig, 8192, by decide +kernel⟩⟩

theorem witness_signalBoxEventsComplete :
    (∃ (s : State), s.modes.sampling = true ∧ s.modes.last = none ∧ s.sbx.period + s.fld Reg.sbxLag 8 0 ≤
      s.samplePos)
    ∧ (∃ (s : State), s.samplePos < s.sbx.period + s.fld Reg.sbxLag 8 0)
    ∧ (∃ (s : State) (p : Fin 8) (k : Fin 4), ((s.sbx.progs.get p).tmr.get k).run = true ∧ ((s.sbx.progs.get p).tmr.get
      k).val = 0)
    ∧ (∃ (s : State) (p : Fin 8), (s.sbx.progs.get p).armPeriod + (s.get (Reg.sbxProgPre p)).toNat ≤ s.sbx.period)
    ∧ (∃ (s : State) (p : Fin 8) (e : Nat), (s.sbx.progs.get p).lastEnd = some e ∧ e + (s.get (Reg.sbxProgRearm
      p)).toNat < s.sbx.period)
    ∧ (∃ (s : State) (p : Fin 8) (w : Win) (n : Nat), (s.sbx.closing.find? fun x => x.id = .prog p) = some w ∧ w.seq =
      some n ∧ s.samplesIn w = true)
    ∧ (∃ (s : State) (c : Fin 64) (w : Win) (n : Nat), (s.sbx.closing.find? fun x => x.id = .hit c) = some w ∧ w.seq =
      some n ∧ s.samplesIn w = true) :=
  ⟨⟨pr (fun p => { p with armed := true }) sb, by decide +kernel⟩,
    ⟨trig.set Reg.sbxLag 250, by decide +kernel⟩,
    ⟨pr (fun p => { p with tmr := Vector.replicate 4 ⟨0, true, false⟩ }) sb, 2, 3, by decide +kernel⟩,
    ⟨pr (fun p => { p with prefill := true }) (sb.set (Reg.sbxProgPre 2) 0), 2, by decide +kernel⟩,
    ⟨{ pr (fun p => { p with rearm := true, lastEnd := some 3 }) sb with sbx := { sb.sbx with progs := upd sb.sbx.progs 2 fun p => { p with rearm := true, lastEnd := some 3 }, period := 9 } },
      2, 3, by decide +kernel⟩,
    ⟨cls (win (.prog 2) 7), 2, win (.prog 2) 7, 7, by decide +kernel⟩,
    ⟨cls (win (.hit 2) 7), 2, win (.hit 2) 7, 7, by decide +kernel⟩⟩

theorem witness_framesAndTimingMessagesComplete :
    (∃ (s : State) (m : TmHead), s.Quiet m.port ∧ (m.port = 2 ∨ m.port = 4) ∧ s.tmOk m 1 = true ∧ s.fld Reg.sbxXtrg 1
      0 / (if m.port = 4 then 2 else 1) % 2 = 1 ∧ s.modes.sampling = true)
    ∧ (∃ (s : State) (m : TmHead), s.Quiet m.port ∧ (m.port = 2 ∨ m.port = 4) ∧ s.tmOk m 1 = true ∧ s.fld Reg.sbxXtrg 1
      0 / (if m.port = 4 then 2 else 1) % 2 = 1 ∧ s.modes.sampling = false ∧ s.sbx.lineQ = [])
    ∧ (∃ (s : State) (m : TmHead) (prim : Bool), s.Quiet m.port ∧ (m.port = 2 ∨ m.port = 4) ∧ s.tmOk m (if prim then 2
      else 1) = true ∧ s.Quiet (otherPort m.port) ∧ (s.tport (otherPort m.port)).version = some m.version.toNat ∧
      s.bit Reg.lnkTpCtrl ((if m.port = 4 then 2 else 0) + prim.toNat) = true ∧ s.lnk.qA = [] ∧ s.lnk.qB = [] ∧
      s.lnk.oA = [] ∧ s.lnk.oB = [] ∧ (if m.port = 4 then s.lnk.busyB else s.lnk.busyA) ≤ s.tim.now)
    ∧ (∃ (s : State) (m : TmHead) (prim : Bool), s.Quiet m.port ∧ (m.port = 2 ∨ m.port = 4) ∧ s.tmOk m (if prim then 2
      else 1) = true ∧ s.portLive (otherPort m.port) = true ∧ (s.tport (otherPort m.port)).version = some
      m.version.toNat ∧ s.bit Reg.lnkTpCtrl ((if m.port = 4 then 2 else 0) + prim.toNat) = true ∧ 16 ≤ (if m.port = 4
      then s.lnk.qB else s.lnk.qA).length)
    ∧ (∃ (s : State) (m : TmHead) (prim : Bool), s.Quiet m.port ∧ s.tmOk m (if prim then 2 else 1) = false)
    ∧ (∃ (s : State) (m : TmHead) (lo : Byte) (hi : Byte), s.Quiet m.port ∧ isTiming m.port = true ∧ m.resv = false ∧
      m.tmType = 3 ∧ m.version = 1 ∧ (s.tport m.port).heard = false ∧ lo ≤ 1 ∧ 1 ≤ hi)
    ∧ (∃ (s : State) (m : TmHead) (lo : Byte) (hi : Byte), s.Quiet m.port ∧ isTiming m.port = true ∧ m.resv = false ∧
      m.tmType = 3 ∧ m.version = 1 ∧ (s.tport m.port).heard = false ∧ (1 < lo ∨ hi < 1))
    ∧ (∃ (s : State) (p : Port), s.Quiet p ∧ isTiming p = true ∧ s.incompat p = false ∧ (∀ a, (s.tport p).helloAt =
      some a → a + secU 1 ≤ s.tim.now) ∧ ((p = 2 ∨ p = 4) ∨ (s.lnk.qA = [] ∧ s.lnk.qB = [] ∧ s.lnk.oA = [] ∧ s.lnk.oB
      = [] ∧ (if p = 5 then s.lnk.busyB else s.lnk.busyA) ≤ s.tim.now)))
    ∧ (∃ (s : State), s.portLive 3 = true ∧ s.incompat 3 = false ∧ (s.tport 3).helloAt = none ∧ s.tim.now < s.lnk.busyA
      ∧ s.lnk.qA.length < 16)
    ∧ (∃ (s : State), s.portLive 3 = true ∧ s.incompat 3 = false ∧ (s.tport 3).helloAt = none ∧ s.tim.now < s.lnk.busyA
      ∧ 16 ≤ s.lnk.qA.length)
    ∧ (∃ (s : State) (p : Port) (a : Nat), isTiming p = true ∧ (s.tport p).upAt = some a ∧ (s.tport p).heard = false ∧
      (s.tport p).version = none ∧ a + secU 3 ≤ s.tim.now)
    ∧ (∃ (s : State) (p : Port) (f : FrameFacts), s.Quiet p ∧ f.fcsOk = true ∧ s.frameOk p f = true ∧ isTiming p = true
      ∧ s.consumes f = false ∧ f.etherType ≠ 0x88B5 ∧ s.Quiet (otherPort p) ∧ s.SendsAtOnce (otherPort p))
    ∧ (∃ (s : State) (p : Port) (f : FrameFacts), s.Quiet p ∧ f.fcsOk = true ∧ s.frameOk p f = true ∧ f.etherType ≠
      0x88B5 ∧ (isTiming p = false ∨ s.consumes f = true))
    ∧ (∃ (s : State) (p : Port) (f : FrameFacts), s.Quiet p ∧ f.fcsOk = true ∧ s.frameOk p f = true ∧ isMainline p =
      true ∧ f.etherType ≠ 0x88B5 ∧ (isTiming p = false ∨ s.consumes f = true))
    ∧ (∃ (s : State) (p : Port) (f : FrameFacts), s.Quiet p ∧ f.fcsOk = true ∧ s.frameOk p f = true ∧ f.etherType =
      0x88B5)
    ∧ (∃ (s : State) (f : FrameFacts), s.Quiet 2 ∧ f.fcsOk = true ∧ s.frameOk 2 f = true ∧ s.consumes f = false ∧
      f.etherType ≠ 0x88B5 ∧ s.Quiet 3 ∧ s.tim.now < s.lnk.busyA)
    ∧ (∃ (s : State) (f : FrameFacts), s.Quiet 4 ∧ f.fcsOk = true ∧ s.frameOk 4 f = true ∧ s.consumes f = false ∧
      f.etherType ≠ 0x88B5 ∧ s.Quiet 5 ∧ s.tim.now < s.lnk.busyB)
    ∧ (∃ (s : State) (p : Port) (f : FrameFacts), s.Quiet p ∧ (f.fcsOk = false ∨ s.frameOk p f = false) ∧ f.fcsOk =
      false)
    ∧ (∃ (s : State) (p : Port) (f : FrameFacts), s.Quiet p ∧ (f.fcsOk = false ∨ s.frameOk p f = false) ∧ f.fcsOk =
      true)
    ∧ (∃ (s : State) (p : Port) (a : Word), s.Quiet p ∧ a = s.get Reg.lnkIp ∧ s.SendsAtOnce p)
    ∧ (∃ (s : State) (p : Port) (a : Word), s.Quiet p ∧ a ≠ s.get Reg.lnkIp ∧ isTiming p = true ∧ s.Quiet (otherPort p)
      ∧ s.SendsAtOnce (otherPort p))
    ∧ (∃ (s : State) (p : Port) (a : Word), s.Quiet p ∧ a ≠ s.get Reg.lnkIp ∧ isTiming p = false) :=
  ⟨⟨tb 3, hd 2 1, quiet_of (by decide +kernel), by decide +kernel⟩,
    ⟨(tb 2).withModes fun m => { m with sampling := false }, hd 4 1, quiet_of (by decide +kernel), by decide +kernel⟩,
    ⟨tb 0, hd 2 1, false, quiet_of (by decide +kernel), by decide +kernel, by decide +kernel, quiet_of
      (by decide +kernel), by decide +kernel⟩,
    ⟨(tb 0).withLnk fun l => { l with qA := List.replicate 16 ⟨[]⟩ }, hd 2 2, true, quiet_of (by decide +kernel),
      by decide +kernel⟩,
    ⟨tb 3, { hd 2 1 with resv := true }, false, quiet_of (by decide +kernel), by decide +kernel⟩,
    ⟨up, hd 2 3, 1, 1, quiet_of (by decide +kernel), by decide +kernel⟩,
    ⟨up, hd 5 3, 2, 9, quiet_of (by decide +kernel), by decide +kernel⟩,
    ⟨secs 1 up, 3, quiet_of (by decide +kernel), by decide +kernel⟩,
    ⟨{ up with lnk := { Lnk.reset with busyA := secU 9 } }, by decide +kernel⟩,
    ⟨{ up with lnk := { Lnk.reset with busyA := secU 9, qA := List.replicate 16 ⟨[]⟩ } }, by decide +kernel⟩,
    ⟨(secs 3 up).updTport 4 fun x => { x with upAt := some 0 }, 4, 0, by decide +kernel⟩,
    ⟨up, 3, ff, quiet_of (by decide +kernel), by decide +kernel, by decide +kernel, by decide +kernel,
      by decide +kernel, by decide +kernel, quiet_of (by decide +kernel),
      by unfold State.SendsAtOnce; decide +kernel⟩,
    ⟨up, 4, { ff with etherType := 0x0800, ip := some ipf }, quiet_of (by decide +kernel), by decide +kernel⟩,
    ⟨ml 0 0, 0, ff, quiet_of (by decide +kernel), by decide +kernel⟩,
    ⟨up, 3, { ff with etherType := 0x88B5 }, quiet_of (by decide +kernel), by decide +kernel⟩,
    ⟨{ up with lnk := { Lnk.reset with busyA := secU 9 } }, ff, quiet_of (by decide +kernel), by decide +kernel,
      by decide +kernel, by decide +kernel, by decide +kernel, quiet_of (by decide +kernel), by decide +kernel⟩,
    ⟨{ up with lnk := { Lnk.reset with busyB := secU 9 } }, ff, quiet_of (by decide +kernel), by decide +kernel,
      by decide +kernel, by decide +kernel, by decide +kernel, quiet_of (by decide +kernel), by decide +kernel⟩,
    ⟨up, 3, { ff with fcsOk := false }, quiet_of (by decide +kernel), by decide +kernel⟩,
    ⟨up, 6, { ff with length := 1523 }, quiet_of (by decide +kernel), by decide +kernel⟩,
    ⟨up, 0, 0x0A400000, quiet_of (by decide +kernel), by decide +kernel, by unfold State.SendsAtOnce; decide +kernel⟩,
    ⟨up, 5, 0x0A400001, quiet_of (by decide +kernel), by decide +kernel, by decide +kernel, quiet_of
      (by decide +kernel), by unfold State.SendsAtOnce; decide +kernel⟩,
    ⟨up, 0, 0x0A400001, quiet_of (by decide +kernel), by decide +kernel⟩⟩

theorem witness_transparentClocksComplete :
    (∃ (s : State) (p : Port) (f : PtpFrame), s.Quiet p ∧ s.lnk.ptpSeen = [] ∧ isTiming p = true ∧ f.fcsOk = true ∧
      s.Quiet (otherPort p) ∧ (ptpEvent f.type = false → s.SendsAtOnce (otherPort p)) ∧ (s.bit (Reg.timDomCfg (pairOf
      p)) 2 = false ∨ f.versionPtp ≠ 2 ∨ (ptpPasses f.type p = true ∧ f.type ≠ .sync ∧ f.type ≠ .followUp ∧ f.type ≠
      .delayReq)))
    ∧ (∃ (s : State) (p : Port) (f : PtpFrame), s.Quiet p ∧ s.lnk.ptpSeen = [] ∧ isTiming p = true ∧ f.fcsOk = true ∧
      s.Quiet (otherPort p) ∧ s.bit (Reg.timDomCfg (pairOf p)) 2 = true ∧ f.versionPtp = 2 ∧ s.stopped = false ∧
      ptpPasses f.type p = true ∧ (f.type = .delayReq ∨ (f.type = .sync ∧ f.twoStep = false)) ∧ p = 4)
    ∧ (∃ (s : State) (p : Port) (f : PtpFrame), s.Quiet p ∧ s.lnk.ptpSeen = [] ∧ isTiming p = true ∧ f.fcsOk = true ∧
      s.Quiet (otherPort p) ∧ s.bit (Reg.timDomCfg (pairOf p)) 2 = true ∧ f.versionPtp = 2 ∧ s.stopped = false ∧
      ptpPasses f.type p = true ∧ (f.type = .delayReq ∨ (f.type = .sync ∧ f.twoStep = false)) ∧ p = 2)
    ∧ (∃ (s : State) (p : Port) (f : PtpFrame), s.Quiet p ∧ s.lnk.ptpSeen = [] ∧ (p = 2 ∨ p = 4) ∧ f.fcsOk = true ∧
      s.Quiet (otherPort p) ∧ s.bit (Reg.timDomCfg (pairOf p)) 2 = true ∧ f.versionPtp = 2 ∧ s.stopped = false ∧
      f.type = .sync ∧ f.twoStep = true)
    ∧ (∃ (s : State) (p : Port) (f : PtpFrame) (x : Resid), s.Quiet p ∧ s.lnk.ptpSeen = [] ∧ (p = 2 ∨ p = 4) ∧ f.fcsOk
      = true ∧ s.Quiet (otherPort p) ∧ s.bit (Reg.timDomCfg (pairOf p)) 2 = true ∧ f.versionPtp = 2 ∧ s.stopped =
      false ∧ f.type = .followUp ∧ s.SendsAtOnce (otherPort p) ∧ ((s.dom (pairOf p)).pend.find? fun (y : Resid) =>
      y.seqId == f.seqId && y.source == f.source && y.domainNumber == f.domainNumber && decide (s.tim.now ≤ y.at_ +
      secU 1)) = some x)
    ∧ (∃ (s : State) (p : Port) (f : PtpFrame), s.Quiet p ∧ s.lnk.ptpSeen = [] ∧ isTiming p = true ∧ f.fcsOk = true ∧
      s.bit (Reg.timDomCfg (pairOf p)) 2 = true ∧ f.versionPtp = 2 ∧ ptpPasses f.type p = true ∧ ((s.stopped = true ∧
      (f.type = .sync ∨ f.type = .followUp ∨ f.type = .delayReq)) ∨ (f.type = .followUp ∧ ((s.dom (pairOf
      p)).pend.find? fun (y : Resid) => y.seqId == f.seqId && y.source == f.source && y.domainNumber ==
      f.domainNumber && decide (s.tim.now ≤ y.at_ + secU 1)) = none)))
    ∧ (∃ (s : State) (p : Port) (f : PtpFrame), s.Quiet p ∧ s.lnk.ptpSeen = [] ∧ isTiming p = true ∧ f.fcsOk = true ∧
      s.bit (Reg.timDomCfg (pairOf p)) 2 = true ∧ f.versionPtp = 2 ∧ ptpPasses f.type p = false) :=
  ⟨⟨tcS, 4, pf .announce, quiet_of (by decide +kernel), by decide +kernel, by decide +kernel, by decide +kernel,
      quiet_of (by decide +kernel), by unfold State.SendsAtOnce; decide +kernel, by decide +kernel⟩,
    ⟨tcS, 4, pf .sync, quiet_of (by decide +kernel), by decide +kernel, by decide +kernel, by decide +kernel,
      quiet_of (by decide +kernel), by decide +kernel⟩,
    ⟨up.setBit (Reg.timDomCfg 0) 2 true, 2, pf .sync, quiet_of (by decide +kernel), by decide +kernel,
      by decide +kernel, by decide +kernel, quiet_of (by decide +kernel), by decide +kernel⟩,
    ⟨tcS, 4, { pf .sync with twoStep := true }, quiet_of (by decide +kernel), by decide +kernel, by decide +kernel,
      by decide +kernel, quiet_of (by decide +kernel), by decide +kernel⟩,
    ⟨tcF, 4, pf .followUp, ⟨4, 9, 0, 77, 0⟩, quiet_of (by decide +kernel), by decide +kernel, by decide +kernel,
      by decide +kernel, quiet_of (by decide +kernel), by decide +kernel, by decide +kernel, by decide +kernel,
      by decide +kernel, by unfold State.SendsAtOnce; decide +kernel, by decide +kernel⟩,
    ⟨tcS, 4, pf .followUp, quiet_of (by decide +kernel), by decide +kernel⟩,
    ⟨tcS, 5, pf .sync, quiet_of (by decide +kernel), by decide +kernel⟩⟩

theorem witness_sampleTransportCompletes :
    (∃ (s : State) (t : Tile) (errs : List (Nat × Byte)) (ws : List Sample), s.tileTraining t = false ∧ s.frameSent t
      (s.tile t).framePeriod = true ∧ s.sentWords t (s.tile t).framePeriod = some ws ∧ s.bit (Reg.lnkProvCtrl (7 +
      t.val)) 31 = false ∧ (∀ e ∈ errs, e.2 = 0))
    ∧ (∃ (s : State) (t : Tile) (errs : List (Nat × Byte)) (dead : BitVec 16) (lanes : BitVec 16) (ws : List Sample) (o
      : List Byte), s.tileTraining t = false ∧ s.frameSent t (s.tile t).framePeriod = true ∧ s.sentWords t (s.tile
      t).framePeriod = some ws ∧ s.bit (Reg.lnkProvCtrl (7 + t.val)) 31 = false ∧ (∀ e ∈ errs, e.2 ≠ 0) ∧ o = damage
      errs (frameOctets (frameBody t.val (s.tile t).frameNo (s.tile t).gapNext (s.chFlags t (s.tile t).framePeriod)
      (s.maskAt t (s.tile t).framePeriod) (s.ilvMask t) ws)) ∧ lanes = (if errs = [] then 0 else failingLanes o) |||
      dead ∧ (errs ≠ [] ∧ frameCrcOk o = false ∨ lanes ≠ 0))
    ∧ (∃ (s : State) (t : Tile) (errs : List (Nat × Byte)) (dead : BitVec 16) (lanes : BitVec 16) (ok : Bool) (ws :
      List Sample) (o : List Byte), s.tileTraining t = false ∧ s.frameSent t (s.tile t).framePeriod = true ∧
      s.sentWords t (s.tile t).framePeriod = some ws ∧ s.bit (Reg.lnkProvCtrl (7 + t.val)) 31 = false ∧ (∀ e ∈ errs,
      e.2 ≠ 0) ∧ o = damage errs (frameOctets (frameBody t.val (s.tile t).frameNo (s.tile t).gapNext (s.chFlags t
      (s.tile t).framePeriod) (s.maskAt t (s.tile t).framePeriod) (s.ilvMask t) ws)) ∧ lanes = (if errs = [] then 0
      else failingLanes o) ||| dead ∧ (errs ≠ [] ∧ frameCrcOk o = false ∨ lanes ≠ 0) ∧ ok = false)
    ∧ (∃ (s : State) (t : Tile) (no : Word), 2 ^ 31 ≤ (no - BitVec.ofNat 32 (s.tile t).frameNo).toNat)
    ∧ (∃ (s : State) (t : Tile) (late : Nat) (ws : List Sample), 4000 ≤ late ∧ s.tileTraining t = false ∧ s.frameSent t
      (s.tile t).framePeriod = true ∧ s.sentWords t (s.tile t).framePeriod = some ws ∧ s.bit (Reg.lnkProvCtrl (7 +
      t.val)) 31 = false ∧ (s.tile t).framePeriod + framePeriods + 8000 ≤ s.samplePos)
    ∧ (∃ (s : State) (t : Tile) (levels : List (List Int)) (link : Option (List (Nat × Byte))) (first : Nat) (values :
      List (List Int)), (s.tilePowered t = true ∨ s.maskAt t (s.tile t).swPeriod ≠ 0) ∧ (s.tile t).swPeriod + 256 ≤
      s.samplePos ∧ s.modes.sampling = true ∧ (∀ l, s.modes.last = some l → (s.tile t).swPeriod < l) ∧ levels.length
      = 256 ∧ first = (s.tile t).swPeriod ∧ values = ((s.takeSegment t first levels).map fun (p : List Taken) =>
      p.map fun (y : Taken) => y.value) ∧ (s.tilePowered t = true ∨ s.maskAt t (first + 256) ≠ 0) ∧ (first + 256) %
      framePeriods ≠ 0 ∧ s.tileTraining t = false ∧ link = some [])
    ∧ (∃ (s : State) (t : Tile) (levels : List (List Int)) (link : Option (List (Nat × Byte))) (first : Nat) (values :
      List (List Int)), (s.tilePowered t = true ∨ s.maskAt t (s.tile t).swPeriod ≠ 0) ∧ (s.tile t).swPeriod + 256 ≤
      s.samplePos ∧ s.modes.sampling = true ∧ (∀ l, s.modes.last = some l → (s.tile t).swPeriod < l) ∧ levels.length
      = 256 ∧ first = (s.tile t).swPeriod ∧ values = ((s.takeSegment t first levels).map fun (p : List Taken) =>
      p.map fun (y : Taken) => y.value) ∧ (s.tilePowered t = true ∨ s.maskAt t (first + 256) ≠ 0) ∧ (first + 256) %
      framePeriods ≠ 0 ∧ (s.tileTraining t = true ∨ link = none))
    ∧ (∃ (late : Nat), late < 4000) :=
  ⟨⟨r2, 2, [], [1,2,3], by decide +kernel⟩,
    ⟨r2, 2, [(33, 1)], 0, failingLanes oct, [1,2,3], oct, by decide +kernel⟩,
    ⟨r2, 2, [(33, 1)], 8, failingLanes oct ||| 8, false, [1,2,3], oct, by decide +kernel⟩,
    ⟨r2, 2, 6, by decide +kernel⟩,
    ⟨atPos 40768 r2, 2, 4000, [1,2,3], by decide +kernel⟩,
    ⟨sw2, 2, lev, some [], 512, vals sw2 512, by decide +kernel, by decide +kernel, by decide +kernel,
      by decide +kernel, by decide +kernel, by decide +kernel, rfl, by decide +kernel⟩,
    ⟨sw2, 2, lev, none, 512, vals sw2 512, by decide +kernel, by decide +kernel, by decide +kernel,
      by decide +kernel, by decide +kernel, by decide +kernel, rfl, by decide +kernel⟩,
    ⟨3999, by decide +kernel⟩⟩

theorem witness_recordsAndSegmentsAreSent :
    (∃ (s : State) (b : Built), s.nextBuilt = some b ∧ b.long = false ∧ s.fld Reg.queRoute (2 * b.kind + 1) (2 *
      b.kind) % 2 = 0)
    ∧ (∃ (s : State) (b : Built), s.nextBuilt = some b ∧ b.long = false ∧ s.fld Reg.queRoute (2 * b.kind + 1) (2 *
      b.kind) % 2 = 1 ∧ s.liveFill + (if b.long then 64 else 64 * ((b.bytes.length + 63) / 64)) ≤ 8 * 2 ^ 20 ∧ 2 ≤
      s.fld Reg.queRoute (2 * b.kind + 1) (2 * b.kind) ∧ s.hrFill + (b.bytes.length + 63) / 64 * 64 ≤ 256 * 1024)
    ∧ (∃ (s : State) (b : Built), s.nextBuilt = some b ∧ s.fld Reg.queRoute (2 * b.kind + 1) (2 * b.kind) % 2 = 1 ∧ 8 *
      2 ^ 20 < s.liveFill + (if b.long then 64 else 64 * ((b.bytes.length + 63) / 64)) ∧ 2 ≤ s.fld Reg.queRoute (2 *
      b.kind + 1) (2 * b.kind) ∧ (b.long = true ∨ 256 * 1024 < s.hrFill + (b.bytes.length + 63) / 64 * 64))
    ∧ (∃ (s : State) (p : Fin 2) (b : Bind) (x : Stream) (e : LiveEnt) (rest : List LiveEnt) (short : Bool), s.Quiet p
      ∧ s.mlServes p = true ∧ s.bindOf p = some b ∧ s.unsettledOn p < s.fld Reg.lnkBdtCfg 31 16 ∧ 0 < s.segBytes ∧
      s.que.live = e :: rest ∧ e.isRef = false ∧ s.misframed e = false ∧ s.dpt.mapErrs = [] ∧ x = (s.stream 0).getD
      (Stream.fresh 0) ∧ s.lnk.resends = [] ∧ (short = false → s.segBytes ≤ s.liveOffers) ∧ (short = true → 0 <
      s.liveOffers ∧ s.liveOffers < s.segBytes ∧ ∀ y ∈ s.que.live, y.at_ + usU (s.fld Reg.queFlush 9 0) ≤ s.tim.now))
    ∧ (∃ (s : State) (p : Fin 2) (b : Bind) (id : BitVec 16) (x : Stream) (l : Loaded) (more : List Loaded), s.Quiet p
      ∧ s.mlServes p = true ∧ s.bindOf p = some b ∧ s.unsettledOn p < s.fld Reg.lnkBdtCfg 31 16 ∧ 0 < s.segBytes ∧
      s.que.live = [] ∧ s.lnk.resends = [] ∧ id ≠ 0 ∧ id ≠ exerciseStream ∧ s.stream id = some x ∧ x.ended = false ∧
      (isDrain id = true → s.fld Reg.pwrGrant 23 16 ≠ 0 ∧ ∃ h, x.slot = some h ∧ s.holdState h = 4) ∧ x.loaded = l ::
      more ∧ s.segBytes < l.bytes.length ∧ l.start + l.bytes.length ≤ l.length ∧ (l.start = 0 → s.gensHold l.gens =
      true) ∧ s.dpt.errs = [] ∧ s.dpt.mapErrs = [])
    ∧ (∃ (s : State) (p : Fin 2) (b : Bind) (id : BitVec 16) (x : Stream), s.Quiet p ∧ s.mlServes p = true ∧ s.bindOf p
      = some b ∧ s.unsettledOn p < s.fld Reg.lnkBdtCfg 31 16 ∧ s.que.live = [] ∧ s.lnk.resends = [] ∧ id ≠ 0 ∧ id ≠
      exerciseStream ∧ s.stream id = some x ∧ x.ended = false ∧ (isDrain id = true → s.fld Reg.pwrGrant 23 16 ≠ 0 ∧ ∃
      h, x.slot = some h ∧ s.holdState h = 4) ∧ x.loaded = [] ∧ (s.refill x).items = [])
    ∧ (∃ (s : State) (b : Bind) (x : Stream), s.Quiet 1 ∧ s.mlUp 1 = true ∧ s.lnk.bindB = some b ∧ s.unsettledOn 1 <
      s.fld Reg.lnkBdtCfg 31 16 ∧ s.stream exerciseStream = some x ∧ x.ended = false ∧ s.lnk.resends = [] ∧
      s.que.live = [] ∧ (x.stopped = false ∨ s.bit Reg.lnkMlCtrl 9 = false) ∧ x.stopped = true ∧ s.bit Reg.lnkMlCtrl
      9 = false)
    ∧ (∃ (s : State) (b : Bind) (x : Stream), s.Quiet 1 ∧ s.mlUp 1 = true ∧ s.lnk.bindB = some b ∧ s.unsettledOn 1 <
      s.fld Reg.lnkBdtCfg 31 16 ∧ s.stream exerciseStream = some x ∧ x.ended = false ∧ s.lnk.resends = [] ∧
      s.que.live = [] ∧ x.stopped = true ∧ s.bit Reg.lnkMlCtrl 9 = true)
    ∧ (∃ (s : State) (p : Fin 2) (id : BitVec 16), s.mlServes p = true ∧ id ≠ 0 ∧ id ≠ exerciseStream ∧ (∃ e ∈
      s.que.live.head?, s.entGone e = false ∧ s.misframed e = false) ∧ 0 < s.liveOffers ∧ s.dpt.mapErrs = [] ∧
      s.unsettledOn p < s.fld Reg.lnkBdtCfg 31 16)
    ∧ (∃ (s : State) (p : Fin 2) (b : Bind), s.Quiet p ∧ s.bindOf p = some b ∧ s.mlUp p = true) :=
  ⟨⟨bs 0, blt 7, by decide +kernel⟩,
    ⟨bs 0xFFFF, blt 7, by decide +kernel⟩,
    ⟨{ bs 0xFFFF with que := { Que.reset with built := [bltL], live := List.replicate 256 ⟨1,0,List.replicate 512 ⟨.registerPort,3,1,false,[]⟩,false,0,none,0⟩ } },
      bltL, by decide +kernel⟩,
    ⟨m0, 0, bnd, strm 0, ent 5, [], false, quiet_of (by decide +kernel), by decide +kernel⟩,
    ⟨withStr [x3 l3] m3, 0, bnd, 4, x3 l3, l3, [], quiet_of (by decide +kernel), by decide +kernel⟩,
    ⟨withStr [x4] (ml 0 0), 0, bnd, 4, x4, quiet_of (by decide +kernel), by decide +kernel⟩,
    ⟨e5 true, bnd, x5 true, quiet_of (by decide +kernel), by decide +kernel⟩,
    ⟨(e5 true).setBit Reg.lnkMlCtrl 9 true, bnd, x5 true, quiet_of (by decide +kernel), by decide +kernel⟩,
    ⟨m0, 0, 4, by decide +kernel⟩,
    ⟨ml 0 0, 1, bnd, quiet_of (by decide +kernel), by decide +kernel⟩⟩

theorem witness_segmentsAreSettledOrRetransmitted :
    (∃ (s : State) (a : AckPkt) (x : Stream), s.Quiet a.port ∧ isMainline a.port = true ∧ s.ackOk a = true ∧ s.stream
      a.stream = some x ∧ a.ranges = [])
    ∧ (∃ (s : State) (a : AckPkt), s.Quiet a.port ∧ (isMainline a.port = false ∨ s.ackOk a = false))
    ∧ (∃ (s : State) (id : BitVec 16) (q : BitVec 64) (g : Seg) (b : Bind), s.seg id q.toNat = some g ∧ s.anyUp = true
      ∧ g.sentAt + usU 200 ≤ s.tim.now ∧ g.retx < 3 ∧ s.bindOf g.port = some b ∧ s.Quiet g.port ∧ s.mlUp g.port =
      true ∧ (id ≠ exerciseStream → s.mlServes g.port = true) ∧ (id = exerciseStream → g.port = 1) ∧ s.lnk.resends =
      [] ∧ s.liveOffers = 0)
    ∧ (∃ (s : State) (id : BitVec 16) (q : BitVec 64) (g : Seg), s.seg id q.toNat = some g ∧ s.anyUp = true ∧ g.sentAt
      + usU 200 ≤ s.tim.now ∧ g.retx < 3 ∧ (id, q.toNat) ∉ s.lnk.resends ∧ 0 < s.liveOffers)
    ∧ (∃ (s : State) (id : BitVec 16) (q : BitVec 64) (g : Seg) (i : Instr), s.seg id q.toNat = some g ∧ s.anyUp = true
      ∧ ((i = .retransmitTimeout id q ∧ g.sentAt + usU 200 ≤ s.tim.now ∧ 3 ≤ g.retx) ∨ (i = .abandon id q ∧
      g.deadline ≤ s.tim.now))) :=
  ⟨⟨withSes (sOp 3 false) (withStr [sx] (ml 0 0)), ackP, sx, quiet_of (by decide +kernel), by decide +kernel⟩,
    ⟨ml 0 0, { ackP with magic := 0 }, quiet_of (by decide +kernel), by decide +kernel⟩,
    ⟨secs 1 (withStr [sx2] (ml 0 0)), 4, 2, sgm 2, bnd, by decide +kernel, by decide +kernel, by decide +kernel,
      by decide +kernel, by decide +kernel, quiet_of (by decide +kernel), by decide +kernel⟩,
    ⟨secs 1 { (withStr [sx2] (ml 0 0)) with que := m0.que }, 4, 2, sgm 2, by decide +kernel⟩,
    ⟨secs 1 (withStr [sx2] (ml 0 0)), 4, 2, sgm 2, .abandon 4 2, by decide +kernel⟩⟩

theorem witness_mainlineEventsComplete :
    (∃ (s : State) (p : Fin 2) (l : LinkLoss), s.modes.control = true ∧ s.mlUp p = true ∧ s.fld Reg.lnkMlCtrl 23 16 ≤
      l.heldUs ∧ s.mlMode = 1 ∧ s.mlActive = p.val ∧ s.mlUp (otherMl p) = true)
    ∧ (∃ (s : State) (p : Fin 2) (l : LinkLoss), s.modes.control = true ∧ s.mlUp p = true ∧ s.fld Reg.lnkMlCtrl 23 16 ≤
      l.heldUs ∧ (s.mlMode ≠ 1 ∨ s.mlActive ≠ p.val ∨ s.mlUp (otherMl p) = false) ∧ s.mlMode = 2 ∧ s.mlUp (otherMl p)
      = true)
    ∧ (∃ (s : State) (p : Fin 2) (l : LinkLoss), s.modes.control = true ∧ s.mlUp p = true ∧ s.fld Reg.lnkMlCtrl 23 16 ≤
      l.heldUs ∧ (s.mlMode ≠ 1 ∨ s.mlActive ≠ p.val ∨ s.mlUp (otherMl p) = false) ∧ s.mlUp (otherMl p) = false)
    ∧ (∃ (s : State) (l : LinkLoss), s.modes.control = true ∧ l.heldUs < s.fld Reg.lnkMlCtrl 23 16)
    ∧ (∃ (s : State) (p : Port) (l : LinkLoss), 2 ≤ p.val ∧ s.modes.control = true ∧ s.portUp p = true ∧ s.fld
      Reg.lnkMlCtrl 23 16 ≤ l.heldUs ∧ isTiming p = true)
    ∧ (∃ (s : State) (p : Port), 2 ≤ p.val ∧ s.portUp p = false ∧ s.portClocked p = true ∧ isTiming p = true)
    ∧ (∃ (s : State) (p : Fin 2), s.mlUp p = false ∧ s.mlEnabled p = true ∧ s.portClocked p = true ∧ s.mlMode = 1 ∧
      s.mlActive = (otherMl p).val ∧ s.mlUp (otherMl p) = false)
    ∧ (∃ (s : State) (p : Fin 2), s.mlUp p = false ∧ s.mlEnabled p = true ∧ s.portClocked p = true ∧ (s.mlMode ≠ 1 ∨
      s.mlActive ≠ (otherMl p).val ∨ s.mlUp (otherMl p) = true))
    ∧ (∃ (s : State) (p : Fin 2), s.mlUp p = false ∧ s.mlEnabled p = true ∧ s.portClocked p = true ∧ (s.mlMode ≠ 1 ∨
      s.mlActive ≠ (otherMl p).val ∨ s.mlUp (otherMl p) = true) ∧ s.mlMode = 2 ∧ s.mlUp (otherMl p) = true ∧ otherMl
      p ∉ s.lnk.rejoin)
    ∧ (∃ (s : State) (p : Fin 2), s.mlUp p = false ∧ s.mlEnabled p = true ∧ s.portClocked p = true ∧ (s.mlMode ≠ 1 ∨
      s.mlActive ≠ (otherMl p).val ∨ s.mlUp (otherMl p) = true) ∧ s.mlMode = 2 ∧ s.mlUp (otherMl p) = false)
    ∧ (∃ (s : State) (a : Nat), s.lnk.overlap = some a ∧ a ≤ s.tim.now)
    ∧ (∃ (s : State) (p : Fin 2) (a : Nat), s.safEnd p = some a ∧ a ≤ s.tim.now ∧ s.mlMode = 2 ∧ s.mlUp 0 = true ∧
      s.mlUp 1 = true ∧ otherMl p ∉ s.lnk.rejoin) :=
  ⟨⟨ml 1 0, 0, ⟨10, true, false⟩, by decide +kernel⟩,
    ⟨ml 2 2, 1, ⟨255, false, true⟩, by decide +kernel⟩,
    ⟨(ml 1 0).setFld Reg.lnkMlStat 5 4 1, 0, ⟨10, false, false⟩, by decide +kernel⟩,
    ⟨ml 1 0, ⟨9, true, false⟩, by decide +kernel⟩,
    ⟨ml 1 0, 4, ⟨10, true, true⟩, by decide +kernel⟩,
    ⟨(ml 1 0).setBit (Reg.lnkPortStat 2) 0 false, 2, by decide +kernel⟩,
    ⟨(ml 1 0).setFld Reg.lnkMlStat 5 4 0, 1, by decide +kernel⟩,
    ⟨(ml 1 0).setFld Reg.lnkMlStat 5 4 1, 1, by decide +kernel⟩,
    ⟨(ml 2 2).setFld Reg.lnkMlStat 5 4 2, 0, by decide +kernel⟩,
    ⟨(ml 2 2).setFld Reg.lnkMlStat 5 4 0, 0, by decide +kernel⟩,
    ⟨(ml 1 0).withLnk fun l => { l with overlap := some 0 }, 0, by decide +kernel⟩,
    ⟨{ ml 2 2 with que := { Que.reset with safB := some 0 } }, 1, 0, by decide +kernel⟩⟩

theorem witness_compressionAndRingComplete :
    (∃ (s : State) (c : Fin 64) (u : UnitB), (s.cmp.building.find? fun (x : UnitB) => x.chan = c.val && x.full) =
      some u)
    ∧ (∃ (s : State) (c : Fin 64) (u : UnitB), (s.cmp.building.find? fun (x : UnitB) => x.chan = c.val && x.full) =
      some u)
    ∧ (∃ (s : State) (c : Fin 64) (u : UnitB), (s.cmp.building.find? fun (x : UnitB) => x.chan = c.val && x.full) =
      some u)
    ∧ (∃ (s : State) (e : Fin 32) (mismatch : Bool) (j : Job) (body : List Byte), activeJob (s.jobs e) = some j ∧
      j.first = none ∧ body = compressed j.unit.words ∧ body.length < 65536 ∧ (mismatch || j.inject) = false)
    ∧ (∃ (s : State) (e : Fin 32) (r : Fin 32) (mismatch : Bool) (j : Job), s.jobs e = [j] ∧ j.waiting = false ∧ j.lent
      = false ∧ j.first = none ∧ (compressed j.unit.words).length < 65536 ∧ (mismatch || j.inject) = true ∧ (∀ x :
      Fin 32, ∀ k ∈ s.jobs x, k.waiting = false) ∧ (s.roundRobin.find? fun (x : Fin 32) => x != e && s.eligible
      j.unit.chan x && s.freeSlot x) = some r)
    ∧ (∃ (s : State) (e : Fin 32) (mismatch : Bool) (j : Job), s.jobs e = [j] ∧ j.waiting = false ∧ j.lent = false ∧
      j.first = none ∧ (compressed j.unit.words).length < 65536 ∧ (mismatch || j.inject) = true ∧ (∀ x : Fin 32, ∀ k
      ∈ s.jobs x, k.waiting = false) ∧ (∀ x : Fin 32, x ≠ e → s.eligible j.unit.chan x = false))
    ∧ (∃ (s : State) (e : Fin 32) (f : Fin 32) (mismatch : Bool) (j : Job) (body : List Byte), activeJob (s.jobs e) =
      some j ∧ j.first = some f.val ∧ body = compressed j.unit.words ∧ (65536 ≤ body.length ∨ (mismatch || j.inject)
      = true))
    ∧ (∃ (s : State) (e : Fin 32) (f : Fin 32) (mismatch : Bool) (j : Job) (body : List Byte), activeJob (s.jobs e) =
      some j ∧ j.first = some f.val ∧ body = compressed j.unit.words ∧ body.length < 65536 ∧ (mismatch || j.inject) =
      false)
    ∧ (∃ (s : State) (e : Fin 32) (late : List Job), late = (s.jobs e).filter (fun (j : Job) => decide (j.due ≤
      s.tim.now)))
    ∧ (∃ (s : State) (r : Ready) (rest : List Ready), s.cmp.ready = r :: rest ∧ s.modes.depot = true) :=
  ⟨⟨cm 3 (fun c => { c with building := [ub 3 16] }), 3, ub 3 16, by decide +kernel⟩,
    ⟨(cm 0 (fun c => { c with building := [ub 3 16] })).set Reg.cmpCtrl 0, 3, ub 3 16, by decide +kernel⟩,
    ⟨cm 1 (fun c => { c with building := [ub 3 16], jobs := js 0 [jb 1, jb 2, jb 4, jb 5] c.jobs }), 3, ub 3 16,
      by decide +kernel⟩,
    ⟨cm 3 (fun c => { c with jobs := js 0 [jb 1, jb 2] c.jobs }), 0, false, jb 1, bd, by decide +kernel⟩,
    ⟨cm 3 (fun c => { c with jobs := js 0 [jb 1] c.jobs }), 0, 1, true, jb 1, by decide +kernel⟩,
    ⟨cm 1 (fun c => { c with jobs := js 0 [jb 1] c.jobs }), 0, true, jb 1, by decide +kernel⟩,
    ⟨cm 3 (fun c => { c with jobs := js 1 [jr 0] c.jobs, faults := [(0, [0, 0])] }), 1, 0, true, jr 0, bd,
      by decide +kernel⟩,
    ⟨cm 3 (fun c => { c with jobs := js 1 [jr 0] c.jobs }), 1, 0, false, jr 0, bd, by decide +kernel⟩,
    ⟨secs 1 (cm 3 (fun c => { c with jobs := js 1 [jb 2, { jb 3 with at_ := secU 1, due := secU 2 }] c.jobs })), 1,
      [jb 2], by decide +kernel⟩,
    ⟨{ dep with cmp := { Cmp.reset with ready := [⟨ub 3 16, true, true, List.replicate 500 8⟩] } }, ⟨ub 3 16, true,
      true, List.replicate 500 8⟩, [], by decide +kernel⟩⟩

theorem witness_depotCareCompletes :
    (∃ (s : State), s.modes.depot = true ∧ s.bit Reg.dptScrubCfg 31 = true ∧ s.bit Reg.pwrGrant 1 = true ∧
      s.scrubTarget + 1 < s.fitted * 4096)
    ∧ (∃ (s : State), s.modes.depot = true ∧ s.bit Reg.dptScrubCfg 31 = true ∧ s.bit Reg.pwrGrant 1 = true ∧ s.fitted *
      4096 ≤ s.scrubTarget + 1)
    ∧ (∃ (s : State), s.modes.depot = true ∧ s.bit Reg.dptScrubCfg 31 = true ∧ s.bit Reg.pwrGrant 1 = true ∧
      s.scrubTarget + 1 < s.fitted * 4096 ∧ s.scrubLate = true)
    ∧ (∃ (s : State), s.modes.depot = true ∧ s.bit Reg.dptScrubCfg 31 = true ∧ s.bit Reg.pwrGrant 1 = true ∧
      s.scrubTarget < s.fitted * 4096 ∧ s.dpt.mapErrs = [] ∧ s.lineErrs s.scrubTarget = [])
    ∧ (∃ (s : State), s.modes.depot = true ∧ s.bit Reg.dptScrubCfg 31 = true ∧ s.bit Reg.pwrGrant 1 = true ∧
      s.scrubTarget < s.fitted * 4096 ∧ s.dpt.mapErrs = [] ∧ 1 ≤ (s.lineErrs s.scrubTarget).length ∧ (s.lineErrs
      s.scrubTarget).length ≤ 2 ∧ s.isPoison s.scrubTarget = false)
    ∧ (∃ (s : State), s.modes.depot = true ∧ s.bit Reg.dptScrubCfg 31 = true ∧ s.bit Reg.pwrGrant 1 = true ∧
      s.scrubTarget < s.fitted * 4096 ∧ s.dpt.mapErrs = [] ∧ 3 ≤ (s.lineErrs s.scrubTarget).length ∧ (s.lineErrs
      s.scrubTarget).length ≤ 6 ∧ s.isPoison s.scrubTarget = false)
    ∧ (∃ (s : State) (j : Nat) (m : Byte), s.modes.depot = true ∧ s.bit Reg.dptScrubCfg 31 = true ∧ s.bit Reg.pwrGrant
      1 = true ∧ s.scrubTarget < s.fitted * 4096 ∧ s.dpt.errs = [] ∧ j < 72 ∧ m ≠ 0 ∧
      ({ s with dpt := { s.dpt with errs := [(s.scrubTarget, j, m)] } } : State).isPoison s.scrubTarget = false)
    ∧ (∃ (s : State), s.modes.depot = true ∧ s.bit Reg.dptScrubCfg 31 = true ∧ s.dpt.mapAt + secU (s.fld
      Reg.dptScrubMap 11 0) ≤ s.tim.now ∧ s.bit Reg.dptMapflipCtrl 0 = false ∧ (∀ x ∈ s.dpt.mapErrs, popCount x.2 =
      1) ∧ (s.dpt.mapErrs.map fun x => x.1).Nodup)
    ∧ (∃ (s : State) (m : BitVec 72), s.modes.depot = true ∧ s.bit Reg.dptScrubCfg 31 = true ∧ s.dpt.mapAt + secU
      (s.fld Reg.dptScrubMap 11 0) ≤ s.tim.now ∧ s.dpt.mapErrs = [] ∧ popCount m = 2 ∧ s.bit Reg.dptMapflipCtrl 0 =
      false)
    ∧ (∃ (s : State), s.tim.now < s.dpt.mapAt + secU (s.fld Reg.dptScrubMap 11 0))
    ∧ (∃ (s : State), s.modes.depot = true ∧ s.dpt.leakAt + msU (s.fld Reg.dptLeak 15 0) ≤ s.tim.now)
    ∧ (∃ (s : State), s.tim.now < s.dpt.leakAt + msU (s.fld Reg.dptLeak 15 0))
    ∧ (∃ (s : State) (k : Fin 4), s.modes.depot = true ∧ s.bit (Reg.dptStackStat k) 0 = true) :=
  ⟨⟨dg id, by decide +kernel⟩,
    ⟨dg (fun d => { d with scrubLine := 8 * 2 ^ 30 / 64 * 16 - 1 }), by decide +kernel⟩,
    ⟨secs 400000 (dg id), by decide +kernel⟩,
    ⟨dg id, by decide +kernel⟩,
    ⟨dg (fun d => { d with errs := [(0, 3, 1), (0, 4, 1)] }), by decide +kernel⟩,
    ⟨dg (fun d => { d with errs := [(0, 3, 1), (0, 4, 1), (0, 5, 9)] }), by decide +kernel⟩,
    ⟨dg id, 71, 0x80, by decide +kernel⟩,
    ⟨secs 99999 (dg (fun d => { d with mapErrs := [(9, 4)] })), by decide +kernel⟩,
    ⟨secs 99999 (dg id), 5, by decide +kernel⟩,
    ⟨dg id, by decide +kernel⟩,
    ⟨secs 9999 (dg id) |>.set (Reg.dptBucket 1) 3, by decide +kernel⟩,
    ⟨dg id |>.set (Reg.dptBucket 1) 3, by decide +kernel⟩,
    ⟨dg id |>.set (Reg.dptStackStat 1) 1, 1, by decide +kernel⟩⟩

theorem witness_stationClockCompletes :
    (∃ (s : State) (d : Fin 2) (m0 : SyncMsg) (m : SyncMsg) (a : AnnounceMsg), s.Quiet m0.port ∧ s.lnk.ptpSeen = [] ∧
      s.domHears d m0.port m0.domainNumber m0.versionPtp m0.minorVersionPtp = true ∧ pairedSync m0 = some m ∧ (s.dom
      d).master = some a ∧ a.source = m0.source ∧ s.stopped = false ∧ -7 ≤ signed 8 m0.logInterval.toNat ∧ signed 8
      m0.logInterval.toNat ≤ 0 ∧ (s.dom d).gotResp = false)
    ∧ (∃ (s : State) (d : Fin 2) (m0 : SyncMsg) (m : SyncMsg) (a : AnnounceMsg), s.Quiet m0.port ∧ s.lnk.ptpSeen = [] ∧
      s.domHears d m0.port m0.domainNumber m0.versionPtp m0.minorVersionPtp = true ∧ pairedSync m0 = some m ∧ (s.dom
      d).master = some a ∧ a.source = m0.source ∧ s.stopped = false ∧ -7 ≤ signed 8 m0.logInterval.toNat ∧ signed 8
      m0.logInterval.toNat ≤ 0)
    ∧ (∃ (s : State) (d : Fin 2) (m0 : SyncMsg) (m : SyncMsg) (a : AnnounceMsg), s.Quiet m0.port ∧ s.lnk.ptpSeen = [] ∧
      s.domHears d m0.port m0.domainNumber m0.versionPtp m0.minorVersionPtp = true ∧ pairedSync m0 = some m ∧ (s.dom
      d).master = some a ∧ a.source = m0.source ∧ s.stopped = false ∧ -7 ≤ signed 8 m0.logInterval.toNat ∧ signed 8
      m0.logInterval.toNat ≤ 0)
    ∧ (∃ (s : State) (d : Fin 2) (m0 : SyncMsg) (m : SyncMsg) (a : AnnounceMsg), s.Quiet m0.port ∧ s.lnk.ptpSeen = [] ∧
      s.domHears d m0.port m0.domainNumber m0.versionPtp m0.minorVersionPtp = true ∧ pairedSync m0 = some m ∧ (s.dom
      d).master = some a ∧ a.source = m0.source ∧ s.stopped = false ∧ -7 ≤ signed 8 m0.logInterval.toNat ∧ signed 8
      m0.logInterval.toNat ≤ 0)
    ∧ (∃ (s : State) (d : Fin 2) (m0 : SyncMsg) (m : SyncMsg) (a : AnnounceMsg), s.Quiet m0.port ∧ s.lnk.ptpSeen = [] ∧
      s.domHears d m0.port m0.domainNumber m0.versionPtp m0.minorVersionPtp = true ∧ pairedSync m0 = some m ∧ (s.dom
      d).master = some a ∧ a.source = m0.source ∧ s.stopped = false ∧ -7 ≤ signed 8 m0.logInterval.toNat ∧ signed 8
      m0.logInterval.toNat ≤ 0)
    ∧ (∃ (s : State) (d : Fin 2) (m0 : SyncMsg) (m : SyncMsg) (a : AnnounceMsg), s.Quiet m0.port ∧ s.lnk.ptpSeen = [] ∧
      s.domHears d m0.port m0.domainNumber m0.versionPtp m0.minorVersionPtp = true ∧ pairedSync m0 = some m ∧ (s.dom
      d).master = some a ∧ a.source = m0.source ∧ s.stopped = false ∧ -7 ≤ signed 8 m0.logInterval.toNat ∧ signed 8
      m0.logInterval.toNat ≤ 0)
    ∧ (∃ (s : State) (d : Fin 2) (m : DelayRespMsg) (a : AnnounceMsg) (y : SyncMsg) (sent : Int), s.Quiet m.port ∧
      s.lnk.ptpSeen = [] ∧ s.domHears d m.port m.domainNumber m.versionPtp m.minorVersionPtp = true ∧ (s.dom
      d).master = some a ∧ a.source = m.source ∧ s.stopped = false ∧ (s.dom d).req = some (m.seqId, sent) ∧ (s.dom
      d).sync = some y ∧ m.requesting = s.portIdentity d)
    ∧ (∃ (s : State) (d : Fin 2) (m : DelayRespMsg) (a : AnnounceMsg) (y : SyncMsg) (sent : Int), s.Quiet m.port ∧
      s.lnk.ptpSeen = [] ∧ s.domHears d m.port m.domainNumber m.versionPtp m.minorVersionPtp = true ∧ (s.dom
      d).master = some a ∧ a.source = m.source ∧ s.stopped = false ∧ (s.dom d).req = some (m.seqId, sent) ∧ (s.dom
      d).sync = some y ∧ m.requesting = s.portIdentity d ∧ (s.dom d).gotResp = true)
    ∧ (∃ (s : State) (m0 : SyncMsg), s.Quiet m0.port ∧ s.lnk.ptpSeen = [] ∧ m0.twoStep = true ∧ m0.followUp = none)
    ∧ (∃ (s : State) (d : Fin 2) (m : AnnounceMsg), s.Quiet m.port ∧ s.lnk.ptpSeen = [] ∧ s.domHears d m.port
      m.domainNumber m.versionPtp m.minorVersionPtp = true ∧ s.stopped = false ∧ (∀ a ∈ (s.dom d).heard, a.1.source ≠
      m.source → betterMaster m a.1 = true))
    ∧ (∃ (s : State) (d : Fin 2) (m : AnnounceMsg), s.Quiet m.port ∧ s.lnk.ptpSeen = [] ∧ s.domHears d m.port
      m.domainNumber m.versionPtp m.minorVersionPtp = true ∧ s.stopped = false)
    ∧ (∃ (s : State) (d : Fin 2) (m : AnnounceMsg), s.Quiet m.port ∧ s.lnk.ptpSeen = [] ∧ s.domHears d m.port
      m.domainNumber m.versionPtp m.minorVersionPtp = true ∧ s.stopped = true)
    ∧ (∃ (s : State) (d : Fin 2), s.modes.control = true ∧ s.domEnabled d = true ∧ s.bit (Reg.timDomCfg d) 1 = true ∧
      (s.dom d).master.isSome = true ∧ (s.dom d).sync.isSome = true ∧ s.stopped = false ∧ s.Quiet (domPort d) ∧
      ((s.dom d).reqAt = 0 ∨ ∀ l : Int, l = signed 8 (s.dom d).reqLog.toNat → (s.dom d).reqAt + (if 0 ≤ l then secU
      (2 ^ l.toNat) else max (secU 1 / 16) (secU 1 / 2 ^ (-l).toNat)) ≤ s.tim.now))
    ∧ (∃ (s : State) (d : Fin 2), s.stopped = false ∧ (s.dom d).lastSync + msU (s.fld Reg.timTimeout 15 0) ≤ s.tim.now
      ∧ (s.domState d = 2 ∨ s.domState d = 3) ∧ s.domState d = 3)
    ∧ (∃ (s : State) (e : Int), s.modes.control = true ∧ s.stopped = false ∧ s.bit Reg.timStat 1 = true ∧
      (s.modes.sampling = true ∨ s.tim.steps = []) ∧ (∀ d : Fin 2, s.bestMaster d = (s.dom d).master) ∧ e = (s.tim.mt
      : Int) - baseU (s.baseOf (s.chooseRef s.timRef)) ∧ s.fld Reg.timSlew 31 16 * 10 * nsU < e.natAbs ∧ s.bit
      Reg.timStat 5 = false)
    ∧ (∃ (s : State) (e : Int), s.modes.control = true ∧ s.stopped = false ∧ s.bit Reg.timStat 1 = true ∧
      (s.modes.sampling = true ∨ s.tim.steps = []) ∧ (∀ d : Fin 2, s.bestMaster d = (s.dom d).master) ∧ e = (s.tim.mt
      : Int) - baseU (s.baseOf (s.chooseRef s.timRef)) ∧ 2 * e.natAbs ≤ s.fld Reg.timSlew 31 16 * 10 * nsU)
    ∧ (∃ (s : State) (q : StepReq), s.modes.control = true ∧ s.stopped = false ∧ s.bit Reg.timStat 1 = true ∧
      s.modes.sampling = false ∧ s.tim.steps = [q] ∧ q.form ≤ 2 ∧ (∀ d : Fin 2, s.bestMaster d = (s.dom d).master))
    ∧ (∃ (s : State), s.modes.control = true ∧ s.bit Reg.timStat 1 = false ∧ s.modes.sampling = false ∧ s.tim.steps =
      [] ∧ (s.tim.firstDue = true ∨ s.bit Reg.timStat 4 = true) ∧ s.locked (s.chooseRef 2) = true ∧ (s.stopped =
      false → ∀ d : Fin 2, s.bestMaster d = (s.dom d).master))
    ∧ (∃ (s : State) (d : Fin 2), s.modes.control = true ∧ s.stopped = false ∧ s.bestMaster d ≠ (s.dom d).master)
    ∧ (∃ (s : State) (e : Int), s.modes.control = true ∧ s.stopped = true ∧ s.bit Reg.timStat 1 = true ∧
      (s.modes.sampling = true ∨ s.tim.steps = []) ∧ e = (s.tim.mt : Int) - baseU (s.baseOf (s.chooseRef s.timRef)) ∧
      2 * e.natAbs ≤ s.fld Reg.timSlew 31 16 * 10 * nsU)
    ∧ (∃ (s : State) (e : Int), s.modes.control = true ∧ s.stopped = true ∧ s.bit Reg.timStat 1 = true ∧
      (s.modes.sampling = true ∨ s.tim.steps = []) ∧ e = (s.tim.mt : Int) - baseU (s.baseOf (s.chooseRef s.timRef)) ∧
      s.fld Reg.timSlew 31 16 * 10 * nsU < e.natAbs)
    ∧ (∃ (s : State) (q : StepReq), s.modes.control = true ∧ s.stopped = true ∧ s.bit Reg.timStat 1 = true ∧
      s.modes.sampling = false ∧ s.tim.steps = [q] ∧ q.form ≤ 2)
    ∧ (∃ (s : State) (d : Fin 2) (a : Nat), (s.dom d).lockedAt = some a ∧ a + secU (s.fld Reg.timTimeout 31 16) ≤
      s.tim.now)
    ∧ (∃ (s : State), s.tim.trackAt.isSome = true ∧ secU 600 ≤ s.trackedU) :=
  ⟨⟨dom 1 id, 1, sy', sy', an, quiet_of (by decide +kernel), by decide +kernel⟩,
    ⟨dom 1 (fun d => { d with gotResp := true }), 1, sy', sy', an, quiet_of (by decide +kernel), by decide +kernel⟩,
    ⟨dom 1 (fun d => { d with gotResp := true }), 1, syF, { syF with origin := 1000, correction := 13 }, an, quiet_of
      (by decide +kernel), by decide +kernel⟩,
    ⟨dom 2 (fun d => { d with gotResp := true, good := 15 }), 1, { sy' with ingress := 1000010 },
      { sy' with ingress := 1000010 }, an, quiet_of (by decide +kernel), by decide +kernel⟩,
    ⟨dom 2 (fun d => { d with gotResp := true, good := 3 }), 1, { sy' with ingress := 1000010 + 101 * 65536 },
      { sy' with ingress := 1000010 + 101 * 65536 }, an, quiet_of (by decide +kernel), by decide +kernel⟩,
    ⟨dom 3 (fun d => { d with gotResp := true, good := 15 }), 1, { sy' with ingress := 1000010 },
      { sy' with ingress := 1000010 }, an, quiet_of (by decide +kernel), by decide +kernel⟩,
    ⟨dom 1 (fun d => { d with req := some (8, 300), sync := some sy' }), 1, dr16 ((dom 1 id).portIdentity 1), an,
      sy', 300, quiet_of (by decide +kernel), by decide +kernel⟩,
    ⟨dom 2 (fun d => { d with req := some (8, 300), sync := some sy', gotResp := true }), 1, dr16 ((dom 1
      id).portIdentity 1), an, sy', 300, quiet_of (by decide +kernel), by decide +kernel⟩,
    ⟨dom 1 id, { sy' with twoStep := true }, quiet_of (by decide +kernel), by decide +kernel⟩,
    ⟨dom 3 id, 1, { an' with source := 8, priority1 := 1 }, quiet_of (by decide +kernel), by decide +kernel⟩,
    ⟨dom 3 id, 1, { an' with source := 10, priority1 := 200 }, quiet_of (by decide +kernel), by decide +kernel⟩,
    ⟨(dom 3 id).setBit Reg.clkStat 8 true, 1, { an' with source := 10, priority1 := 2 }, quiet_of
      (by decide +kernel), by decide +kernel⟩,
    ⟨dom 3 (fun d => { d with sync := some sy' }), 1, by decide +kernel, by decide +kernel, by decide +kernel,
      by decide +kernel, by decide +kernel, by decide +kernel, quiet_of (by decide +kernel), .inl
      (by decide +kernel)⟩,
    ⟨secs 5 (dom 3 id), 1, by decide +kernel⟩,
    ⟨s7, (s7.tim.mt : Int) - baseU (s7.baseOf (s7.chooseRef s7.timRef)), by decide +kernel⟩,
    ⟨s8, (s8.tim.mt : Int) - baseU (s8.baseOf (s8.chooseRef s8.timRef)), by decide +kernel⟩,
    ⟨((stp (fun t => { t with steps := [⟨1, -77, none⟩] })).setBit Reg.timStat 1 true), ⟨1, -77, none⟩,
      by decide +kernel⟩,
    ⟨(stp (fun t => { t with firstDue := true, domB := { t.domB with held := true, base := 2 ^ 90 } })).set
      Reg.timCtrl 0x311, by decide +kernel⟩,
    ⟨secs 50 (dom 3 id), 1, by decide +kernel⟩,
    ⟨s12, (s12.tim.mt : Int) - baseU (s12.baseOf (s12.chooseRef s12.timRef)), by decide +kernel⟩,
    ⟨s12b, (s12b.tim.mt : Int) - baseU (s12b.baseOf (s12b.chooseRef s12b.timRef)), by decide +kernel⟩,
    ⟨(stp (fun t => { t with steps := [⟨1, -77, none⟩] })).setBit Reg.clkStat 8 true |>.setBit Reg.timStat 1 true,
      ⟨1, -77, none⟩, by decide +kernel⟩,
    ⟨secs 3600 (dom 3 (fun d => { d with lockedAt := some 0 })), 1, 0, by decide +kernel⟩,
    ⟨secs 600 (stp (fun t => { t with trackAt := some 0 })), by decide +kernel⟩⟩

theorem witness_clockSourceEventsComplete :
    (∃ (s : State) (x : Fin 3), s.clkUp = true ∧ (x = 2 → s.srcRunning x = true))
    ∧ (∃ (s : State) (x : Fin 3), s.clkUp = true ∧ (x = 2 → s.srcRunning x = true) ∧ s.pllRef ≠ x.val ∧ s.srcValid
      s.pllRef = true)
    ∧ (∃ (x : Fin 6), 3 ≤ x)
    ∧ (∃ (s : State) (x : Fin 2), s.clkUp = true ∧ s.srcRunning x = true)
    ∧ (∃ (s : State) (x : Fin 3), s.clkUp = true ∧ s.srcRunning x = true)
    ∧ (∃ (s : State) (x : Fin 3) (ppb : Int), s.clkUp = true ∧ s.srcRunning x = true ∧ s.inWindow (s.cmpClock x) ppb =
      false)
    ∧ (∃ (s : State) (x : Fin 3) (run : Bool), s.clkUp = true ∧ s.srcRunning x = false ∧ (x = 2 ∨ run = false))
    ∧ (∃ (s : State) (x : Fin 2), s.clkUp = true ∧ s.srcRunning x = false)
    ∧ (∃ (s : State), s.clkUp = true ∧ 10800 ≤ s.modes.mainMv ∧ s.srcRunning 2 = false)
    ∧ (∃ (s : State) (a : Nat), s.clk.xoRunAt = some a ∧ s.srcRunning 2 = true ∧ s.srcValid 2 = false ∧ s.bit
      Reg.clkStat 7 = false ∧ a + msU (s.fld Reg.clkTiming 15 0) ≤ s.tim.now)
    ∧ (∃ (s : State) (x : Nat), s.clkUp = true ∧ s.refWanted = some x ∧ (s.pllLocked = false ∨ s.pllRef ≠ x) ∧
      s.pllLocked = false)
    ∧ (∃ (s : State) (x : Nat), s.clkUp = true ∧ s.refWanted = some x ∧ s.pllLocked = true ∧ (s.pllLocked = false ∨
      s.pllRef ≠ x))
    ∧ (∃ (s : State) (x : Fin 3), s.clkUp = true ∧ s.pllLocked = true ∧ s.srcValid x = true ∧ s.wtrServed x = true ∧
      s.refWanted = some x.val)
    ∧ (∃ (s : State) (ps : Int), s.clkUp = true ∧ s.clk.acquiring = true ∧ s.pllLocked = false ∧ s.srcValid s.pllRef =
      true ∧ ps.natAbs ≤ 10)
    ∧ (∃ (s : State) (ps : Int), s.clkUp = true ∧ s.clk.acquiring = true ∧ s.pllLocked = false ∧ s.srcValid s.pllRef =
      true ∧ ps.natAbs ≤ 10 ∧ (s.stopped && s.clk.stopSampling) = false)
    ∧ (∃ (s : State) (ps : Int), s.clkUp = true ∧ s.pllLocked = true ∧ s.stopped = false ∧ (s.validSrcs = [] ∨
      (s.pllRef < 3 ∧ s.srcValid s.pllRef = true ∧ 1000 < ps.natAbs)) ∧ s.modes.sampling = true ∧ s.modes.last =
      none)
    ∧ (∃ (s : State) (ps : Int), s.clkUp = true ∧ s.pllLocked = true ∧ s.stopped = false ∧ (s.validSrcs = [] ∨
      (s.pllRef < 3 ∧ s.srcValid s.pllRef = true ∧ 1000 < ps.natAbs)) ∧ s.modes.sampling = false)
    ∧ (∃ (s : State), s.clkUp = true ∧ s.stopped = true ∧ s.clk.stopSampling = true ∧ s.pllLocked = true ∧
      s.modes.sampling = false ∧ s.tim.stopDue = none ∧ s.stopDrained = true)
    ∧ (∃ (s : State) (l : Fin 3), l.val = s.clk.rcLane ∧ s.laneRetired l = false ∧ (s.srcValid 2 || s.srcRunning 0 ||
      s.srcRunning 1) = true)
    ∧ (∃ (s : State) (l : Fin 3), l.val = s.clk.rcLane ∧ (s.laneRetired l || !(s.srcValid 2 || s.srcRunning 0 ||
      s.srcRunning 1)) = true) :=
  ⟨⟨cs 0x58 16 up, 0, by decide +kernel⟩,
    ⟨cs 0x58 16 up, 2, by decide +kernel⟩,
    ⟨3, by decide +kernel⟩,
    ⟨cs 0x58 16 up, 0, by decide +kernel⟩,
    ⟨cs 0x58 15 up, 1, by decide +kernel⟩,
    ⟨cs 0x58 16 up, 0, 20001, by decide +kernel⟩,
    ⟨up, 1, false, by decide +kernel⟩,
    ⟨up, 1, by decide +kernel⟩,
    ⟨up, by decide +kernel⟩,
    ⟨secs 90 (ck (fun c => { c with xoRunAt := some 0 }) (cs 0 5 up)), 0, by decide +kernel⟩,
    ⟨cs 0x53 16 up, 0, by decide +kernel⟩,
    ⟨(cs 0x5A 16 up).set Reg.clkCtrl 0x301, 0, by decide +kernel⟩,
    ⟨secs 999 (ck (fun c => { c with validAt := [(0, 0), (2, 0)] }) ((cs 0x5A 16 up).set Reg.clkCtrl 0x310)), 0,
      by decide +kernel⟩,
    ⟨ck (fun c => { c with acquiring := true, stopSampling := true }) ((cs 0x150 16 up).setBit Reg.timStat 7 true),
      -10, by decide +kernel⟩,
    ⟨ck (fun c => { c with acquiring := true, stopSampling := false }) ((cs 0x150 16 up).setBit Reg.timStat 7 true),
      10, by decide +kernel⟩,
    ⟨cs 0x08 0 trig, 0, by decide +kernel⟩,
    ⟨cs 0x58 0 up, -1001, by decide +kernel⟩,
    ⟨rsm, by decide +kernel⟩,
    ⟨cs 0x58 16 up, 0, by decide +kernel⟩,
    ⟨up, 0, by decide +kernel⟩⟩

theorem witness_timetableEventsComplete :
    (∃ (s : State), s.modes.control = true ∧ s.tt.running = false)
    ∧ (∃ (s : State), s.tt.running = true ∧ 10 ≤ s.tt.overTicks ∧ s.tt.steps.length < 10 ∧ s.tt.steps.length = 0 ∧
      s.tt.steps.length < 2 ∧ (s.tt.steps.length ≠ 1 ∨ s.tt.short = true ∨ s.lane ≤ s.lowLane))
    ∧ (∃ (s : State), s.tt.running = true ∧ 10 ≤ s.tt.overTicks ∧ s.tt.steps.length < 10 ∧ s.tt.steps.length < 2 ∧
      s.tt.steps.length = 1 ∧ s.tt.short = false ∧ s.lowLane < s.lane)
    ∧ (∃ (s : State) (init : List (Nat × BitVec 64 × Bool)) (p : Nat × BitVec 64 × Bool), s.tt.running = true ∧ s.bit
      Reg.pwrRestore 31 = true ∧ s.fld Reg.pwrRestore 15 0 ≤ s.tt.restore ∧ s.tt.steps = init ++ [p] ∧ init.length <
      16)
    ∧ (∃ (s : State), s.modes.control = true ∧ s.tt.running = true ∧ s.ringOn = true)
    ∧ (∃ (s : State), s.ringOn = true ∧ 1 ≤ s.lane)
    ∧ (∃ (s : State), s.modes.control = true ∧ s.tt.running = true) :=
  ⟨⟨up, by decide +kernel⟩,
    ⟨sh 0, by decide +kernel⟩,
    ⟨sh 1, by decide +kernel⟩,
    ⟨{ sh 3 with tt := { (sh 3).tt with restore := 65535 } }, st 2, (3, 0, false), by decide +kernel⟩,
    ⟨tr id trig, by decide +kernel⟩,
    ⟨tr (fun t => { t with overTicks := 10, steps := st 1 }) (sh 1), by decide +kernel⟩,
    ⟨tr id trig, by decide +kernel⟩⟩

theorem witness_laneEventsComplete :
    (∃ (s : State) (a : LaneStep) (b : LaneStep) (c : LaneStep), s.modes.inner ≠ .dormant ∧ s.ilk.resync = none ∧
      s.ilk.due = none ∧ s.votingLanes = [0, 1, 2] ∧ a.digest = b.digest ∧ b.digest = c.digest ∧ laneKind a b c =
      none ∧ laneKind b a c = none ∧ laneKind c a b = none ∧ s.ilk.forced = [])
    ∧ (∃ (s : State) (a : LaneStep) (b : LaneStep) (c : LaneStep) (l : Fin 3) (k : Nat), s.modes.inner ≠ .dormant ∧
      s.ilk.resync = none ∧ s.ilk.due = none ∧ s.votingLanes = [0, 1, 2] ∧ (a.digest = b.digest ∨ b.digest = c.digest
      ∨ a.digest = c.digest) ∧ (∀ i : Fin 3, (if i = 0 then laneKind a b c else if i = 1 then laneKind b a c else
      laneKind c a b) = if i = l then some k else none))
    ∧ (∃ (s : State) (l : Fin 3), s.modes.inner ≠ .dormant ∧ s.ilk.resync = none ∧ s.ilk.due = some l.val ∧
      s.votingLanes = [0, 1, 2])
    ∧ (∃ (s : State) (a : LaneStep) (b : LaneStep) (c : LaneStep), s.modes.inner ≠ .dormant ∧ s.ilk.resync = none ∧
      ((s.votingLanes = [0, 1, 2] ∧ s.ilk.due = none ∧ a.digest ≠ b.digest ∧ b.digest ≠ c.digest ∧ a.digest ≠
      c.digest) ∨ (s.votingLanes = [0, 1] ∧ a.digest ≠ b.digest ∧ a.replay ≠ b.replay) ∨ (s.votingLanes = [0, 2] ∧
      a.digest ≠ c.digest ∧ a.replay ≠ c.replay) ∨ (s.votingLanes = [1, 2] ∧ b.digest ≠ c.digest ∧ b.replay ≠
      c.replay)))
    ∧ (∃ (s : State) (st : Fin 3 → LaneStep) (l : Fin 3) (m : Fin 3), s.modes.inner ≠ .dormant ∧ s.ilk.resync = none ∧
      s.ilk.due = none ∧ s.votingLanes = [l, m] ∧ (st l).digest ≠ (st m).digest ∧ (st l).replay = (st m).replay)
    ∧ (∃ (s : State) (st : Fin 3 → LaneStep) (l : Fin 3) (m : Fin 3), s.modes.inner ≠ .dormant ∧ s.ilk.resync = none ∧
      s.ilk.due = none ∧ s.votingLanes = [l, m] ∧ (st l).digest ≠ (st m).digest ∧ (st l).replay = (st m).replay ∧ (st
      l).selfFault = true ∧ (st m).selfFault = false ∧ (st m).lateNs ≤ (st l).lateNs)
    ∧ (∃ (s : State) (a : LaneStep) (b : LaneStep) (c : LaneStep), s.modes.inner ≠ .dormant ∧ s.ilk.resync = none ∧
      s.ilk.due = none ∧ s.votingLanes.length = 2 ∧ a.digest = b.digest ∧ b.digest = c.digest ∧ a.lateNs = b.lateNs ∧
      b.lateNs = c.lateNs ∧ a.selfFault = false ∧ b.selfFault = false ∧ c.selfFault = false)
    ∧ (∃ (s : State) (l : Fin 3), s.ilk.resync = some l.val)
    ∧ (∃ (s : State) (l : Fin 3), s.ilk.resync = some l.val) :=
  ⟨⟨up, ls 1 0 1, ls 1 0 1, ls 1 0 1, by decide +kernel⟩,
    ⟨secs 99 up, ls 1 0 1, ls 2 0 1, ls 2 0 1, 0, 1, by decide +kernel⟩,
    ⟨{ up with ilk := { Ilk.reset with due := some 1 } }, 1, by decide +kernel⟩,
    ⟨up, ls 1 0 1, ls 2 0 1, ls 3 0 1, by decide +kernel⟩,
    ⟨two, stf, 0, 1, by decide +kernel⟩,
    ⟨two, stg, 0, 1, by decide +kernel⟩,
    ⟨two, ls 1 0 1, ls 1 0 1, ls 1 0 1, by decide +kernel⟩,
    ⟨rs 2, 2, by decide +kernel⟩,
    ⟨rs 2, 2, by decide +kernel⟩⟩

theorem witness_switchesFollowTheirThresholds :
    (∃ (s : State) (t : Tile) (mask : BitVec 16) (k : Chan) (i : Fin 2) (pol : Bool) (beyond : Bool) (set : Int) (clr
      : Int) (sets : Int → Bool) (clears : Int → Bool) (next : Int → Bool → Bool) (n : Nat), pol = s.thrPol t k i ∧
      (set, clr) = s.thr t k i ∧ n = 2 * k.val + i.val ∧ (∀ v, sets v = if pol then decide (v ≤ set) else decide (set
      ≤ v)) ∧ (∀ v, clears v = if pol then decide (clr ≤ v) else decide (v ≤ clr)) ∧ beyond = (if pol then decide
      (clr < set) else decide (set < clr)) ∧ (∀ v on, next v on = (s.thrEn t k i && (if beyond then sets v else if on
      then !clears v else sets v))) ∧ s.ilv t k = false ∧ mask.getLsbD k.val = true)
    ∧ (∃ (s : State) (t : Tile) (k : Chan) (i : Fin 2) (pol : Bool) (beyond : Bool) (set : Int) (clr : Int) (sets : Int
      → Bool) (clears : Int → Bool) (next : Int → Bool → Bool) (n : Nat), pol = s.thrPol t k i ∧ (set, clr) = s.thr t
      k i ∧ n = 2 * k.val + i.val ∧ (∀ v, sets v = if pol then decide (v ≤ set) else decide (set ≤ v)) ∧ (∀ v, clears
      v = if pol then decide (clr ≤ v) else decide (v ≤ clr)) ∧ beyond = (if pol then decide (clr < set) else decide
      (set < clr)) ∧ (∀ v on, next v on = (s.thrEn t k i && (if beyond then sets v else if on then !clears v else
      sets v))) ∧ s.ilv t k = true ∧ k.val % 2 = 1) :=
  ⟨⟨sw, 0, 0xFFFF, 2, 0, false, false, 100, 50, swSets, swClears, swNext sw 2, 4, by decide +kernel,
      by decide +kernel, by decide +kernel, fun _ => rfl, fun _ => rfl, by decide +kernel, fun _ _ => rfl,
      by decide +kernel⟩,
    ⟨sw319, 0, 3, 0, false, false, 100, 50, swSets, swClears, swNext sw319 3, 6, by decide +kernel,
      by decide +kernel, by decide +kernel, fun _ => rfl, fun _ => rfl, by decide +kernel, fun _ _ => rfl,
      by decide +kernel⟩⟩

theorem witness_cachedRepliesAreSentAgain :
    (∃ (f : Form) (r : Req) (s : State) (x : Session) (e : Cached) (y : Tx), s.Quiet r.port ∧ s.bcpDrops r = false ∧
      s.findSession r.session = some x ∧ x.ip = r.ip ∧ x.udp = r.udp ∧ x.version = r.version ∧ f.malformed r = false
      ∧ x.crowded r = false ∧ x.isNew r.seq = false ∧ (x.cache.find? fun (c : Cached) => c.seq = r.seq) = some e ∧ y
      = .reply r.port r.mac r.ip r.udp e.opcode e.status true r.seq r.session (s.attention x) r.version e.data ∧
      s.SendsAtOnce r.port)
    ∧ (∃ (f : Form) (r : Req) (s : State) (x : Session) (e : Cached) (y : Tx), s.Quiet r.port ∧ s.bcpDrops r = false ∧
      s.findSession r.session = some x ∧ x.ip = r.ip ∧ x.udp = r.udp ∧ x.version = r.version ∧ f.malformed r = false
      ∧ x.crowded r = false ∧ x.isNew r.seq = false ∧ (x.cache.find? fun (c : Cached) => c.seq = r.seq) = some e ∧ y
      = .reply r.port r.mac r.ip r.udp e.opcode e.status true r.seq r.session (s.attention x) r.version e.data ∧
      r.port = 3 ∧ s.tim.now < s.lnk.busyA)
    ∧ (∃ (f : Form) (r : Req) (s : State) (x : Session) (e : Cached) (y : Tx), s.Quiet r.port ∧ s.bcpDrops r = false ∧
      s.findSession r.session = some x ∧ x.ip = r.ip ∧ x.udp = r.udp ∧ x.version = r.version ∧ f.malformed r = false
      ∧ x.crowded r = false ∧ x.isNew r.seq = false ∧ (x.cache.find? fun (c : Cached) => c.seq = r.seq) = some e ∧ y
      = .reply r.port r.mac r.ip r.udp e.opcode e.status true r.seq r.session (s.attention x) r.version e.data ∧
      r.port = 5 ∧ s.tim.now < s.lnk.busyB) :=
  ⟨⟨Form.make 0x0004 0 State.inAll, req 0, lo csx, csx, ⟨1, 7, 3, [1,2], 9⟩, ry (req 0) (lo csx), quiet_of
      (by decide +kernel), by decide +kernel, by decide +kernel, by decide +kernel, by decide +kernel,
      by decide +kernel, by decide +kernel, by decide +kernel, by decide +kernel, by decide +kernel,
      by decide +kernel, by unfold State.SendsAtOnce; decide +kernel⟩,
    ⟨Form.make 0x0004 0 State.inAll, on 3 (req 0), cb, csx, ⟨1, 7, 3, [1,2], 9⟩, ry (on 3 (req 0)) cb, quiet_of
      (by decide +kernel), by decide +kernel⟩,
    ⟨Form.make 0x0004 0 State.inAll, on 5 (req 0), cb, csx, ⟨1, 7, 3, [1,2], 9⟩, ry (on 5 (req 0)) cb, quiet_of
      (by decide +kernel), by decide +kernel⟩⟩

theorem witness_datagramsCarryTheirCommands :
    ∃ (i : Instr) (r : Req) (op : Nat) (p : List Byte), i.wf = true ∧ requestOf i = some (r, op, p) ∧ wellSent r op p
      ∧ (∀ q, i = .nop r q → q = 3 ∨ listedOpcodes.contains q.toNat = false) :=
  ⟨.status (req 0), req 0, 4, [], by decide +kernel, by decide +kernel, by unfold wellSent; decide +kernel,
    fun _ h => nomatch h⟩

/-! ### What the surroundings cannot send -/

theorem test_wf_client_id :
    (Instr.sessionOpen (req 24) (1, 1) (1, 1) (1, 1) (1, 1) 0 (List.replicate 17 0)).wf = false := by decide

theorem test_wf_other_opcode : (Instr.nop (req 0) 1).wf = false := by decide

theorem test_wf_udp_length : (Instr.nop { req 0 with udpLen := 9001 } 3).wf = false := by decide

theorem test_wf_auth_chunk : (Instr.authLoad (req 4) 0 (List.replicate 1433 0)).wf = false := by decide +kernel

theorem test_wf_fw_chunk : (Instr.fwLoad (req 4) 0 (List.replicate 1433 0)).wf = false := by decide +kernel

theorem test_wf_otp_value : (Instr.otpProgram (req 4) 0 0 (List.replicate 1433 0)).wf = false := by decide +kernel

theorem test_wf_range_terms : (Instr.rangeCalDone 0 [(0, 0)]).wf = false := by decide

theorem test_wf_frame : (Instr.sampleFrameReceived 0 0 [(131140, 1)] 0 [] true).wf = false := by decide

theorem test_wf_segment_periods : (Instr.switchSegmentReceived 0 0 [[]] none).wf = false := by decide

theorem test_wf_segment_channels :
    (Instr.switchSegmentReceived 0 0 (List.replicate 256 [0]) none).wf = false := by decide +kernel

theorem test_wf_age_out : (Instr.lookbackAgeOut (.hit 0) 2 1).wf = false := by decide

theorem test_wf_line_message : (Instr.triggerLineMessage ⟨2, 1, 1, 0, false⟩ 0 0 []).wf = false := by decide

theorem test_wf_primitive : (Instr.triggerPrimitiveForward ⟨2, 1, 2, 0, false⟩ []).wf = false := by decide

theorem test_wf_residence :
    (Instr.transparentClock 2 ⟨.sync, 2, 0, false, 0, 0, 0, 5, 4, true⟩ []).wf = false := by decide

theorem test_wf_sensors : (Instr.timetableTick ⟨0, [25], 0, 0, 0, 0, 0, 0, true⟩).wf = false := by decide

theorem test_wf_line_bytes : (Instr.scrubStep [(72, 1)]).wf = false := by decide

theorem test_wf_accepts : (Instr.commit (req 0)).wf = true := by decide

theorem test_wf_accepts_nop : (Instr.nop (req 0) 3).wf = true := by decide

/-! ### Figures that the spec prints -/

/-- The check value of R156 for the string "123456789". -/
theorem test_crc32c : crc32c [0x31, 0x32, 0x33, 0x34, 0x35, 0x36, 0x37, 0x38, 0x39] = 0xE3069283 := by decide +kernel

/-- Two of the four words of the example after R83. -/
theorem test_words : normValues 0 [0x8123, 0x3F9C] = [291, -6400] := by decide +kernel

/-- The first bits of a block (the example after R225): header with K = 2, then the values 6, 3, 6, 0. -/
theorem test_block_start :
    packBits 2 ([false] ++ msbBits 4 2 ++ ([3, -2, 3, 0] : List Int).flatMap fun d => codeValue 2 (mapResidual d))
      = [0x15, 0x3A] := by decide +kernel

/-- Module address 0x2A7 resets LNK_IP to 10.64.2.167 (R284). -/
theorem test_lnk_ip : resetValue .f 0x2A7 Reg.lnkIp = 0x0A4002A7 := by decide +kernel

/-- The register block of tile 3 (R48). -/
theorem test_tile_base : Reg.jctPin 3 0 = 0x130000 := by decide

/-! ### Single steps -/

/-- A waiting NOP is taken from the queue and answered. -/
theorem test_step_nop :
    (match step { up with pending := [.nop (req 0) 3] } with
      | .next t => t.pending.isEmpty && t.tx.length == 1
      | _ => false) = true := by decide +kernel

/-- With nothing waiting one sample period passes. -/
theorem test_step_idle : step State.reset = .next State.reset.tick := rfl

/-- A reply names the present ATTENTION and closes with its CRC: 36 bytes without data (R319). -/
theorem test_reply_length : (up.replyBytes 1 false 2 0 1 5 0 []).length = 36 := by decide +kernel

/-- The IPv4 header of a reply verifies (R287): its words sum to 0xFFFF. -/
theorem test_ip_checksum : ipChecksum (up.ipHeader 0x0A400001 36) = 0 := by decide +kernel

end Sys2Proof.Tests
end

