-- ==== Sys2Proof/Proofs/RegisterWrites.lean ====
section
/-! A served register write: what the answer shows of the state that the write has left (R336, R337), and what a write of
a register that starts nothing stores (R15, R339). -/

namespace Sys2Proof.Machine

/-! ### The answer to a served request -/

/-- The state after a served request that closes no session shows what its execution has left: the status and data are
cached for its session `y`, and every register, shadow and lane reads as execution has left it (R324, R326). -/
structure Answers (t : State) (f : Form) (r : Req) (a : Ans) (y : Session) : Prop where
  replied : Replied t r f.op a.1 a.2.1
  get : ∀ k, t.get k = a.2.2.get k
  shadow : t.shadow = a.2.2.shadow
  ilk : t.ilk = a.2.2.ilk
  found : ∃ c, t.findSession r.session = some (y.keep c)

theorem Answers.keepsRegs {s t : State} {f : Form} {r : Req} {a : Ans} {y : Session} {l : List Nat} (h : Answers t f r a y)
    (hk : (s.arrived r).KeepsRegs a.2.2 l) : s.KeepsRegs t (Reg.lnkPortRx r.port :: l) := by
  intro k hn
  obtain ⟨hrx, hl⟩ := not_or.mp (mt List.mem_cons.mpr hn)
  rw [h.get, hk k hl, State.get_arrived_ne _ _ _ hrx]

theorem State.answered_findSession {f : Form} {r : Req} {a : Ans} {y : Session} (hc : f.closes = false)
    (hy : a.2.2.findSession r.session = some y) :
    (State.answered f r a).findSession r.session = some (y.keep ⟨r.seq, f.op, a.1, a.2.1, a.2.2.evt + 1⟩) := by
  have hf := State.find_updSession a.2.2 r.session (Session.keep ⟨r.seq, f.op, a.1, a.2.1, a.2.2.evt + 1⟩) (fun _ => rfl)
  rw [hy] at hf
  unfold State.answered State.reply
  simp only [hc, Bool.false_eq_true, if_false]
  unfold State.findSession
  rw [State.sendOther_bcp]
  exact hf

theorem lnkProvCtrl_notMem (p : Port) {l : List Nat} (h : ∀ b ∈ l, b < 0x40400 ∨ 0x404B0 ≤ b) :
    Reg.lnkProvCtrl p ∉ l := by
  intro hm
  have := h _ hm
  have := p.isLt
  unfold Reg.lnkProvCtrl at *
  omega

/-- A served request whose execution changes only the registers `l`, none of them a provocation's, leaves the links and
keeps its session open, is answered with what it has left. -/
theorem run_answers {s : State} {f : Form} {r : Req} {x y : Session} {body : Session → State → Ans} {a : Ans}
    {l : List Nat} (n : Nat) (i : Instr) (h : Served s f r x) (hc : f.closes = false)
    (ha : body (x.hear s.tim.now r) (s.arrived r) = a) (hl : a.2.2.lnk = s.lnk) (hk : (s.arrived r).KeepsRegs a.2.2 l)
    (hn : ∀ b ∈ l, b < 0x40400 ∨ 0x404B0 ≤ b) (hy : a.2.2.findSession r.session = some y) :
    ∃ t, run (receive r.port n i fun s => s.request f r body) s = .next t ∧ Answers t f r a y
      ∧ s.KeepsRegs t (Reg.lnkPortRx r.port :: l) := by
  subst ha
  have hp := hk _ (lnkProvCtrl_notMem r.port hn)
  have plain : (body (x.hear s.tim.now r) (s.arrived r)).2.2.bit (Reg.lnkProvCtrl r.port) 31 = false := by
    rw [State.bit, hp, State.get_arrived_ne _ _ _ (lnkPortRx_ne r.port r.port).1]
    exact h.quiet.plain
  have held := hl ▸ h.quiet.heldTx
  have answers : Answers (State.keeping s (State.answered f r _)) f r _ y :=
    { replied := (State.answered_replied hc (by rw [hy]; rfl)).keeping s
      get := fun k => State.answered_get k hc plain held
      shadow := State.answered_shadow
      ilk := State.answered_ilk
      found := ⟨_, State.answered_findSession hc hy⟩ }
  exact ⟨_, run_served n i body h (by rw [hl]), answers, answers.keepsRegs hk⟩

theorem State.findSession_id {s : State} {id : Word} {x : Session} (h : s.findSession id = some x) : x.id = id := by
  simpa using List.find?_some h

/-- The session of a served request as its execution finds it. -/
theorem Served.found_arrived {s : State} {f : Form} {r : Req} {x : Session} (h : Served s f r x) :
    (s.arrived r).findSession r.session = some (x.hear s.tim.now r) := by
  rw [State.find_arrived, h.found]
  rfl

/-- The same session after an update that keeps its id. -/
theorem Served.found_updated {s : State} {f : Form} {r : Req} {x : Session} (h : Served s f r x) (g : Session → Session)
    (hg : ∀ z, (g z).id = z.id) :
    ((s.arrived r).updSession r.session g).findSession r.session = some (g (x.hear s.tim.now r)) := by
  rw [State.find_updSession _ _ _ hg, h.found_arrived]
  rfl

theorem Served.hear_id {s : State} {f : Form} {r : Req} {x : Session} (h : Served s f r x) :
    (x.hear s.tim.now r).id = r.session := State.findSession_id h.found_arrived

/-- A register outside the ports' own is no counter of received frames. -/
theorem ne_lnkPortRx (p : Port) {a : Nat} (h : a < 0x40104 ∨ 0x401C4 < a) : a ≠ Reg.lnkPortRx p := by
  unfold Reg.lnkPortRx
  have := p.isLt
  omega

/-- A request's arrival changes nothing that decides whether an address can be reached. -/
theorem State.arrived_addrRefused (s : State) (r : Req) (a : Nat) : (s.arrived r).addrRefused a = s.addrRefused a := by
  have training (t : Fin 4) : (s.arrived r).tileTraining t = s.tileTraining t := by
    unfold State.tileTraining State.bit
    rw [State.get_arrived_ne]
    unfold Reg.lnkTlStat Reg.lnkPortRx
    have := r.port.isLt
    omega
  unfold State.addrRefused
  rw [training]
  rfl

theorem State.arrived_acquiring (s : State) (r : Req) : (s.arrived r).acquiring = s.acquiring := by
  have mode : (s.arrived r).mode = s.mode := by
    unfold State.mode State.fld
    rw [State.get_arrived_ne _ _ _ (ne_lnkPortRx r.port (by decide))]
    rfl
  unfold State.acquiring State.inMode
  rw [mode]
  rfl

/-! ### REG_WRITE and REG_WRITE_MASKED -/

/-- The row of REG_WRITE in R340. -/
abbrev writeForm : Form := Form.make 0x0101 8 State.inAll

/-- The row of REG_WRITE_MASKED in R340. -/
abbrev maskedForm : Form := Form.make 0x0102 12 State.inAll

/-- No host gate: the islands that stay busy play no part in the write. -/
def NotGate (a : Nat) : Prop := a ≠ Reg.clkGateHostEng ∧ a ≠ Reg.clkGateHostMisc

theorem State.openBusy_of_notGate (s : State) (a : Word) (h : NotGate a.toNat) : s.openBusy a = (0, s) := by
  unfold State.openBusy
  rw [if_neg (by rintro (e | e); exacts [h.1 e, h.2 e])]

theorem State.overLink_kept (s : State) (r : Req) (a : Nat) (go : Ans) (h : r.frameLost = false) :
    s.overLink r a go = go := by
  simp [State.overLink, State.linkLoses, h]

section
variable {s : State} {r : Req} {x y : Session} {a : Nat} {v m : Word} {q : BitVec 16 × State} {l : List Nat}

/-- A served REG_WRITE is answered with its write's status and shows what the write has left. -/
theorem regWrite_answers (h : Served s writeForm r x) (ha : a < 2 ^ 32) (hg : NotGate a)
    (hq : (s.arrived r).writeReg r.session a v 0xFFFFFFFF 0 = q) (hl : q.2.lnk = s.lnk)
    (hk : (s.arrived r).KeepsRegs q.2 l) (hn : ∀ b ∈ l, b < 0x40400 ∨ 0x404B0 ≤ b)
    (hy : q.2.findSession r.session = some y) :
    ∃ t, exec (.regWrite r (BitVec.ofNat 32 a) v) s = .next t ∧ Answers t writeForm r (q.1, [], q.2) y
      ∧ s.KeepsRegs t (Reg.lnkPortRx r.port :: l) := by
  have ea : (BitVec.ofNat 32 a).toNat = a := by rw [BitVec.toNat_ofNat, Nat.mod_eq_of_lt ha]
  refine run_answers _ _ h rfl ?_ hl hk hn hy
  rw [State.overLink_kept _ _ _ _ h.link, State.regWriteOpen, State.openBusy_of_notGate _ _ (by rwa [ea]),
    State.regWrite, ea, h.hear_id, hq]

/-- A served REG_WRITE_MASKED that is accepted returns the register's value read back. -/
theorem regWriteMasked_answers (h : Served s maskedForm r x) (ha : a < 2 ^ 32) (hg : NotGate a)
    (hq : (s.arrived r).writeReg r.session a v m 0 = q) (hok : q.1 = St.ok) (hl : q.2.lnk = s.lnk)
    (hk : (s.arrived r).KeepsRegs q.2 l) (hn : ∀ b ∈ l, b < 0x40400 ∨ 0x404B0 ≤ b)
    (hy : q.2.findSession r.session = some y) :
    ∃ t, exec (.regWriteMasked r (BitVec.ofNat 32 a) v m) s = .next t
      ∧ Answers t maskedForm r (St.ok, beBytes 4 (q.2.view a).toNat, q.2) y
      ∧ s.KeepsRegs t (Reg.lnkPortRx r.port :: l) := by
  have ea : (BitVec.ofNat 32 a).toNat = a := by rw [BitVec.toNat_ofNat, Nat.mod_eq_of_lt ha]
  refine run_answers _ _ h rfl ?_ hl hk hn hy
  rw [State.overLink_kept _ _ _ _ h.link, State.regWriteMasked, State.openBusy_of_notGate _ _ (by rwa [ea]),
    ea, h.hear_id, hq, if_pos hok, hok]

end

/-! ### What a write stores -/

/-- A mask of all ones, as a literal, picks the whole word. -/
theorem and_ones (w : Word) : w &&& 4294967295#32 = w := BitVec.and_allOnes (x := w)

/-- The bits of a write's mask that a register's fields cover. -/
def writeMask (a : Nat) (mask : Word) : Word := mask &&& fieldMask (fun _ => true) (fieldsAt a)

/-- The value that a register's SH, RW and LK fields would show after a write. -/
def State.newValue (s : State) (a : Nat) (value mask : Word) : Word :=
  (s.view a &&& ~~~(writeMask a mask &&& fieldMask isKept (fieldsAt a)))
    ||| (value &&& writeMask a mask &&& fieldMask isKept (fieldsAt a))

/-- Registers below the tiles whose write has a rule or an effect of its own. -/
def ownRuleRegs : List Nat :=
  [Reg.cmpInject, Reg.clkGateHostEng, Reg.clkGateHostMisc, Reg.lnkMlCtrl, Reg.dptRegion, Reg.dptFlipAddr,
    Reg.dptMapSel, Reg.ilkLaneCtrl, Reg.pwrBudget, Reg.timCtrl, Reg.timSnap, Reg.cmpQuar, Reg.pwrStat]

/-- A register whose write only stores its fields: it provokes nothing, stands alone as 32 bits, has no LK field, and of a
tile lies above pins, sources, slices, relief and wires. -/
structure PlainReg (a : Nat) : Prop where
  prov : isProv a = false
  flip : isFlip a = false
  notLo : wholeLo a = false
  notHi : wholeLo (a - 4) = false
  notLk : lkMask a = 0
  own : a ∉ ownRuleRegs
  tile : 0x100000 ≤ a → 0x5100 ≤ a % 0x10000

section
variable {s : State} {id : Word} {a : Nat} {v m busy : Word}

/-- A write that passes every check stores its fields, and then has its register's own effects. -/
theorem State.writeReg_checked (hr : s.addrRefused a = none) (hm : s.modeBlocks a (v &&& writeMask a m) = false)
    (hhi : wholeLo (a - 4) = false) (hlo : wholeLo a = false) (hreg : a ≠ Reg.dptRegion) (hg : NotGate a)
    (hv : rangesOk32 (fieldsAt a) (s.newValue a v m) (writeMask a m) = true)
    (hb : s.blockRefuses a (s.newValue a v m) (v &&& writeMask a m) (writeMask a m) = none)
    (hk : s.lkRefuses a (s.view a) (s.newValue a v m) = false) :
    s.writeReg id a v m busy = (St.ok,
      (s.storeFields id a (s.newValue a v m) (writeMask a m) (v &&& writeMask a m &&& fieldMask isWc (fieldsAt a))).writeActs
        a (v &&& writeMask a m) (writeMask a m) s) := by
  unfold writeMask State.newValue writeMask at *
  unfold State.writeReg
  simp only [hr, hm, hhi, hlo, hreg, hg.1, hg.2, hv, hb, hk, Bool.false_and, Bool.not_true, Bool.false_eq_true, if_false]

/-- A plain register takes the write in every mode, whatever its block does, and starts nothing. -/
theorem PlainReg.modeBlocks (h : PlainReg a) (on : Word) : s.modeBlocks a on = false := by
  obtain ⟨hp, hf, -, -, -, hown, ht⟩ := h
  simp only [ownRuleRegs, List.mem_cons, List.not_mem_nil, or_false, not_or] at hown
  have : ¬ (0x100000 ≤ a ∧ a % 0x10000 = 0x4000) := fun ⟨h1, h2⟩ => by have := ht h1; omega
  simp [State.modeBlocks, hp, hf, hown, this]

theorem PlainReg.notGate (h : PlainReg a) : NotGate a := by
  have hown := h.own
  simp only [ownRuleRegs, List.mem_cons, List.not_mem_nil, or_false, not_or] at hown
  exact ⟨hown.2.1, hown.2.2.1⟩

theorem PlainReg.notRegion (h : PlainReg a) : a ≠ Reg.dptRegion := by
  rintro rfl
  exact h.own (by simp [ownRuleRegs])

theorem PlainReg.blockRefuses (h : PlainReg a) (new on mask : Word) : s.blockRefuses a new on mask = none := by
  obtain ⟨hp, hf, -, -, -, hown, ht⟩ := h
  simp only [ownRuleRegs, List.mem_cons, List.not_mem_nil, or_false, not_or] at hown
  unfold State.blockRefuses
  split
  case isTrue h1 =>
    have := ht h1
    simp only
    rw [if_neg (by omega), if_neg (by omega), if_neg (by omega)]
  case isFalse => simp [hp, hown]

theorem PlainReg.lkRefuses (h : PlainReg a) (old new : Word) : s.lkRefuses a old new = false := by
  have : ¬ (0x100000 ≤ a ∧ 0x4040 ≤ a % 0x10000 ∧ a % 0x10000 ≤ 0x4050) :=
    fun ⟨h1, _, h2⟩ => by have := h.tile h1; omega
  simp [State.lkRefuses, h.notGate.2, this, h.notLk]

theorem PlainReg.writeActs (h : PlainReg a) (on mask : Word) (old : State) : s.writeActs a on mask old = s := by
  obtain ⟨hp, hf, -, -, -, hown, ht⟩ := h
  simp only [ownRuleRegs, List.mem_cons, List.not_mem_nil, or_false, not_or] at hown
  unfold State.writeActs
  split
  case isTrue h1 =>
    have := ht h1
    simp only
    rw [if_neg (by omega), if_neg (by omega), if_neg (by omega), if_neg (by omega)]
  case isFalse => simp [hp, hown]

/-- A plain register's write in its ranges stores the fields and does nothing else (R15, R336). -/
theorem State.writeReg_plain (h : PlainReg a) (hr : s.addrRefused a = none)
    (hv : rangesOk32 (fieldsAt a) (s.newValue a v m) (writeMask a m) = true) :
    s.writeReg id a v m busy = (St.ok,
      s.storeFields id a (s.newValue a v m) (writeMask a m) (v &&& writeMask a m &&& fieldMask isWc (fieldsAt a))) := by
  rw [State.writeReg_checked hr (h.modeBlocks _) h.notHi h.notLo h.notRegion h.notGate hv (h.blockRefuses ..) (h.lkRefuses ..),
    h.writeActs]

/-- A plain register's write outside its ranges has no effect (R336). -/
theorem State.writeReg_outOfRange (h : PlainReg a) (hr : s.addrRefused a = none)
    (hv : rangesOk32 (fieldsAt a) (s.newValue a v m) (writeMask a m) = false) :
    s.writeReg id a v m busy = (St.badValue, s) := by
  have hm : s.modeBlocks a (v &&& writeMask a m) = false := h.modeBlocks _
  unfold State.newValue writeMask at hv
  unfold writeMask at hm
  unfold State.writeReg
  simp only [hr, hm, h.notHi, h.notLo, h.notRegion, hv, Bool.false_and, Bool.not_false, Bool.false_eq_true, if_false, if_true]

/-- Without SH fields a write reaches the register alone. -/
theorem State.storeFields_noShadow (new mask clr : Word) (h : fieldMask isSh (fieldsAt a) = 0) :
    s.storeFields id a new mask clr = s.set a ((s.get a &&& ~~~(fieldMask isDirect (fieldsAt a) ||| clr))
      ||| (new &&& fieldMask isDirect (fieldsAt a))) := by
  simp [State.storeFields, h]

/-- Without a SH field a register shows its value in force, but for what is WO and what no field covers. -/
theorem State.view_noShadow (h : fieldMask isSh (fieldsAt a) = 0) :
    s.view a = s.live32 a &&& fieldMask (fun x => !isWo x) (fieldsAt a) := by
  simp only [State.view, h]
  split <;> simp [and_ones]

end

/-! ### The registers of the statement -/

theorem fieldsAt_thrChSet0 : ∀ (t : Tile) (k : Chan), fieldsAt (Reg.thrChSet0 t k) = [⟨.sh, 31, 0, .s20⟩] := by
  decide +kernel

theorem fieldsAt_otpWinSel : fieldsAt Reg.otpWinSel = [⟨.rw, 4, 0, .any⟩] := rfl

theorem fieldsAt_cstStat : fieldsAt Reg.cstStat
    = [⟨.wc, 10, 10, .any⟩, ⟨.wc, 9, 9, .any⟩, ⟨.ro, 8, 8, .any⟩, ⟨.ro, 5, 4, .any⟩, ⟨.ro, 1, 0, .any⟩] := rfl

theorem fieldsAt_ilkIdent : fieldsAt Reg.ilkIdent = [⟨.ro, 31, 0, .any⟩] := rfl

theorem fieldsAt_ilkLaneCtrl : fieldsAt Reg.ilkLaneCtrl = [⟨.wo, 10, 8, .any⟩, ⟨.wo, 2, 0, .any⟩] := rfl

theorem fieldsAt_timDomAsymLo : ∀ d : Fin 2, fieldsAt (Reg.timDomAsymLo d) = [⟨.sh, 31, 0, .any⟩] := by decide

theorem plainReg_thrChSet0 (t : Tile) (k : Chan) : PlainReg (Reg.thrChSet0 t k) := by
  constructor <;> revert t k <;> decide +kernel

theorem thrChSet0_word : ∀ (t : Tile) (k : Chan), Reg.thrChSet0 t k < 2 ^ 32 := by decide

theorem timDomAsymLo_word (d : Fin 2) : Reg.timDomAsymLo d < 2 ^ 32 ∧ NotGate (Reg.timDomAsymLo d) := by
  unfold NotGate
  revert d
  decide

theorem plainReg_otpWinSel : PlainReg Reg.otpWinSel := by constructor <;> decide

theorem plainReg_cstStat : PlainReg Reg.cstStat := by constructor <;> decide

theorem plainReg_ilkIdent : PlainReg Reg.ilkIdent := by constructor <;> decide

/-! ### What the writes of the statement leave -/

theorem State.keepsRegs_set (s : State) (a : Nat) (w : Word) : s.KeepsRegs (s.set a w) [a] :=
  fun _ hk => State.get_set_ne _ _ _ _ (mt List.mem_singleton.mpr hk)

theorem State.keepsRegs_set_get (s : State) (a : Nat) : s.KeepsRegs (s.set a (s.get a)) [] := by
  intro k _
  by_cases hk : k = a
  · rw [hk, State.get_set_same]
  · exact State.get_set_ne _ _ _ _ hk

theorem State.keepsRegs_set_set (s : State) (a b : Nat) (v w : Word) : s.KeepsRegs ((s.set b w).set a v) [a, b] := by
  intro k hk
  obtain ⟨ha, hb⟩ := not_or.mp (mt List.mem_cons.mpr hk)
  rw [State.get_set_ne _ _ _ _ ha, State.get_set_ne _ _ _ _ (mt List.mem_singleton.mpr hb)]

/-- A HI half held for its session until the LO half is written (R433). -/
def Session.holdHigh (a : Nat) (w : Word) (x : Session) : Session := { x with highs := x.highs.put a w }

/-- The pending HI half of a session let go (R433). -/
def Session.dropHigh (a : Nat) (x : Session) : Session := { x with highs := x.highs.drop fun b => b == a }

theorem addMark_id (b : Nat) (x : Session) : (addMark b x).id = x.id := by
  unfold addMark
  split <;> rfl

theorem addMark_contains (b : Nat) (x : Session) : (addMark b x).marks.contains b = true := by
  unfold addMark
  split
  · assumption
  · simp

theorem RegMap.find_drop_same (m : RegMap) (a : Nat) : (m.drop fun b => b == a).find a = none :=
  lookupK_eq_none a _ fun x hx => by simpa using (List.mem_filter.mp hx).2

/-- The HI half that a write of a LO half joins: the pending one of the session, else the one shown (R433). -/
def State.newHigh (s : State) (id : Word) (a : Nat) : Word :=
  ((s.findSession id).bind fun x => x.highs.find (a + 4)).getD (s.view (a + 4))

theorem rangesOk32_s20 (w : Word) : rangesOk32 [⟨.sh, 31, 0, .s20⟩] w 0xFFFFFFFF
    = (decide (-524288 ≤ signed 32 w.toNat) && decide (signed 32 w.toNat ≤ 524287)) := by
  simp [rangesOk32, limitOk, bits_31_0, isKept, maskOf]

section
variable {s : State} {id : Word} {v m busy : Word}

theorem State.newValue_whole {a : Nat} (h : fieldMask isKept (fieldsAt a) = 0xFFFFFFFF)
    (hm : writeMask a m = 0xFFFFFFFF) : s.newValue a v m = v := by
  simp [State.newValue, h, hm, and_ones]

theorem writeMask_thrChSet0 (t : Tile) (k : Chan) : writeMask (Reg.thrChSet0 t k) 0xFFFFFFFF = 0xFFFFFFFF := by
  rw [writeMask, fieldsAt_thrChSet0]
  rfl

theorem State.newValue_thrChSet0 (t : Tile) (k : Chan) : s.newValue (Reg.thrChSet0 t k) v 0xFFFFFFFF = v :=
  State.newValue_whole (by rw [fieldsAt_thrChSet0]; rfl) (writeMask_thrChSet0 t k)

theorem blockOf_thrChSet0 : ∀ (t : Tile) (k : Chan), blockOf (Reg.thrChSet0 t k) = 16 + 4 * t.val := by decide +kernel

/-- A word put into a register's shadow, the value in force stored as it was. -/
def State.putShadow (s : State) (a : Nat) (w : Word) : State :=
  { s.set a (s.get a) with shadow := s.shadow.put a w }

/-- A threshold in its range goes into the shadow and marks its tile's block (R70, R82). -/
theorem State.writeReg_thrChSet0 (t : Tile) (k : Chan) (hr : s.addrRefused (Reg.thrChSet0 t k) = none)
    (h1 : -524288 ≤ signed 32 v.toNat) (h2 : signed 32 v.toNat ≤ 524287) :
    s.writeReg id (Reg.thrChSet0 t k) v 0xFFFFFFFF busy
      = (St.ok, (s.putShadow (Reg.thrChSet0 t k) v).updSession id (addMark (16 + 4 * t.val))) := by
  have hv : rangesOk32 [⟨.sh, 31, 0, .s20⟩] v 0xFFFFFFFF = true := by
    rw [rangesOk32_s20, decide_eq_true h1, decide_eq_true h2]
    rfl
  rw [State.writeReg_plain (plainReg_thrChSet0 t k) hr]
  · rw [State.newValue_thrChSet0, writeMask_thrChSet0, State.storeFields, fieldsAt_thrChSet0, blockOf_thrChSet0]
    simp [fieldMask, isSh, isDirect, isWc, maskOf, and_ones, State.putShadow]
  · rw [State.newValue_thrChSet0, writeMask_thrChSet0, fieldsAt_thrChSet0, hv]

theorem State.writeReg_thrChSet0_outOfRange (t : Tile) (k : Chan) (hr : s.addrRefused (Reg.thrChSet0 t k) = none)
    (h : signed 32 v.toNat < -524288 ∨ 524287 < signed 32 v.toNat) :
    s.writeReg id (Reg.thrChSet0 t k) v 0xFFFFFFFF busy = (St.badValue, s) := by
  apply State.writeReg_outOfRange (plainReg_thrChSet0 t k) hr
  rw [State.newValue_thrChSet0, writeMask_thrChSet0, fieldsAt_thrChSet0, rangesOk32_s20]
  rcases h with h | h <;> simp [h]

theorem State.view_otpWinSel : s.view Reg.otpWinSel = s.get Reg.otpWinSel &&& 0x1F := State.view_noShadow rfl

/-- OTP_WIN_SEL takes the masked bits of the value in force at once (R15, R337). -/
theorem State.writeReg_otpWinSel (hr : s.addrRefused Reg.otpWinSel = none) :
    s.writeReg id Reg.otpWinSel v m busy = (St.ok,
      s.set Reg.otpWinSel ((s.get Reg.otpWinSel &&& ~~~(m &&& 0x1F)) ||| (v &&& m &&& 0x1F))) := by
  have sh : fieldMask isSh (fieldsAt Reg.otpWinSel) = 0 := rfl
  have kept : fieldMask isKept (fieldsAt Reg.otpWinSel) = 0x1F := rfl
  have direct : fieldMask isDirect (fieldsAt Reg.otpWinSel) = 0x1F := rfl
  have wc : fieldMask isWc (fieldsAt Reg.otpWinSel) = 0 := rfl
  have mask : writeMask Reg.otpWinSel m = m &&& 0x1F := rfl
  rw [State.writeReg_plain plainReg_otpWinSel hr (by simp [rangesOk32, fieldsAt_otpWinSel, limitOk]),
    State.storeFields_noShadow _ _ _ sh, direct, wc, State.newValue, mask, kept, State.view_otpWinSel]
  congr 2
  apply BitVec.eq_of_getLsbD_eq
  intro i hi
  simp only [BitVec.getLsbD_or, BitVec.getLsbD_and, BitVec.getLsbD_not]
  generalize s.get Reg.otpWinSel = g
  cases g.getLsbD i <;> cases v.getLsbD i <;> cases m.getLsbD i <;> cases (0x1F : Word).getLsbD i <;> simp [hi]

/-- A bit of the window selection after a masked write: the written one inside the mask, else the one before. -/
theorem windowSelection_bit (g v m : Word) {i : Nat} (h : i < 5) :
    ((g &&& ~~~(m &&& 0x1F)) ||| (v &&& m &&& 0x1F)).getLsbD i = if m.getLsbD i then v.getLsbD i else g.getLsbD i := by
  have inside : ∀ i, i < 5 → (0x1F : Word).getLsbD i = true := by decide
  simp only [BitVec.getLsbD_or, BitVec.getLsbD_and, BitVec.getLsbD_not, inside i h]
  cases m.getLsbD i <;> simp [show i < 32 by omega]

theorem windowSelection_field (g v : Word) :
    bits ((g &&& ~~~(0xFFFFFFFF &&& 0x1F)) ||| (v &&& 0xFFFFFFFF &&& 0x1F)) 4 0 = v.toNat % 32 := by
  apply Nat.eq_of_testBit_eq
  intro i
  rw [bits_testBit, Nat.testBit_mod_two_pow v.toNat 5 i, Nat.zero_add]
  by_cases h : i < 5
  · have ones : (0xFFFFFFFF : Word).getLsbD i = true := BitVec.getLsbD_allOnes.trans (by simp; omega)
    rw [windowSelection_bit _ _ _ h, ones]
    rfl
  · simp [h]

/-- The OTP window's selection can be reached in every mode that serves a write (R47, R340). -/
theorem Served.reaches_otpWinSel {f : Form} {r : Req} {x : Session} (h : Served s f r x) (hf : f.modes = State.inAll) :
    s.addrRefused Reg.otpWinSel = none := by
  have awake : s.modes.inner ≠ .dormant := by
    intro hd
    have hm := h.mode
    rw [hf] at hm
    simp [State.inAll, State.mode, hd, Mode.code] at hm
  have on : s.powered Reg.otpWinSel = true := by
    unfold State.powered
    rw [if_neg awake]
    split <;> rfl
  unfold State.addrRefused
  rw [on]
  rfl

/-- CST_STAT clears its WC bits 9 and 10 where 1 is written inside the mask, and ignores the rest (R15). -/
theorem State.writeReg_cstStat (hr : s.addrRefused Reg.cstStat = none) :
    s.writeReg id Reg.cstStat v m busy = (St.ok,
      s.set Reg.cstStat (s.get Reg.cstStat &&& ~~~(v &&& m &&& 0x600))) := by
  have sh : fieldMask isSh (fieldsAt Reg.cstStat) = 0 := rfl
  have direct : fieldMask isDirect (fieldsAt Reg.cstStat) = 0 := rfl
  have wc : fieldMask isWc (fieldsAt Reg.cstStat) = 0x600 := rfl
  have mask : writeMask Reg.cstStat m = m &&& 0x733 := rfl
  rw [State.writeReg_plain plainReg_cstStat hr (by simp [rangesOk32, fieldsAt_cstStat, isKept]),
    State.storeFields_noShadow _ _ _ sh, direct, wc, mask]
  simp [BitVec.and_assoc]

/-- ILK_IDENT, all RO, ignores what is written (R15). -/
theorem State.writeReg_ilkIdent (hr : s.addrRefused Reg.ilkIdent = none) :
    s.writeReg id Reg.ilkIdent v m busy = (St.ok, s.set Reg.ilkIdent (s.get Reg.ilkIdent)) := by
  have sh : fieldMask isSh (fieldsAt Reg.ilkIdent) = 0 := rfl
  have direct : fieldMask isDirect (fieldsAt Reg.ilkIdent) = 0 := rfl
  have wc : fieldMask isWc (fieldsAt Reg.ilkIdent) = 0 := rfl
  rw [State.writeReg_plain plainReg_ilkIdent hr (by simp [rangesOk32, fieldsAt_ilkIdent, isKept]),
    State.storeFields_noShadow _ _ _ sh, direct, wc]
  simp [and_ones]

/-- RESYNC and RETIRE that name no lane do nothing (R379). -/
theorem State.laneCtrl_zero : s.laneCtrl 0 0 = s := by simp [State.laneCtrl, allLanes]

theorem State.retireRefused_zero : s.retireRefused 0 = false := by simp [State.retireRefused, allLanes]

/-- ILK_LANE_CTRL does nothing where 0 is written (R15). -/
theorem State.writeReg_ilkLaneCtrl (hr : s.addrRefused Reg.ilkLaneCtrl = none) (h0 : v &&& 0x707 = 0) :
    s.writeReg id Reg.ilkLaneCtrl v 0xFFFFFFFF busy = (St.ok, s.set Reg.ilkLaneCtrl (s.get Reg.ilkLaneCtrl)) := by
  have sh : fieldMask isSh (fieldsAt Reg.ilkLaneCtrl) = 0 := rfl
  have direct : fieldMask isDirect (fieldsAt Reg.ilkLaneCtrl) = 0 := rfl
  have on : v &&& writeMask Reg.ilkLaneCtrl 0xFFFFFFFF = 0 := h0
  have refuses (new mask : Word) : s.blockRefuses Reg.ilkLaneCtrl new 0 mask = none := by
    show (if s.retireRefused 0 then some St.badValue else none) = none
    rw [State.retireRefused_zero]
    rfl
  have locks (old new : Word) : s.lkRefuses Reg.ilkLaneCtrl old new = false := by
    show (((old ^^^ new) &&& 0) != 0 && s.lkRuns Reg.ilkLaneCtrl) = false
    simp
  have acts (u : State) (mask : Word) : u.writeActs Reg.ilkLaneCtrl 0 mask s = u := u.laneCtrl_zero
  rw [State.writeReg_checked hr rfl rfl rfl (by decide) ⟨by decide, by decide⟩
    (by simp [rangesOk32, fieldsAt_ilkLaneCtrl, isKept]) (by rw [on, refuses]) (locks _ _), on,
    acts, State.storeFields_noShadow _ _ _ sh, direct]
  simp [and_ones]

/-! ### 64-bit values (R433) -/

/-- The HI half of a 64-bit value is held for its session. -/
theorem State.writeReg_holds {a : Nat} (hr : s.addrRefused a = none) (hm : s.modeBlocks a (v &&& writeMask a m) = false)
    (hhi : wholeLo (a - 4) = true) (h4 : 4 ≤ a) (kept : fieldMask isKept (fieldsAt a) = 0xFFFFFFFF)
    (mask : writeMask a m = 0xFFFFFFFF) :
    s.writeReg id a v m busy = (St.ok, s.updSession id (Session.holdHigh a v)) := by
  have whole (held : Word) :
      (held &&& ~~~(0xFFFFFFFF &&& 0xFFFFFFFF)) ||| (v &&& 0xFFFFFFFF &&& 0xFFFFFFFF) = v := by simp [and_ones]
  rw [mask] at hm
  unfold writeMask at mask
  unfold State.writeReg
  simp only [hr, hm, hhi, h4, kept, mask, whole, decide_true, Bool.and_self, Bool.false_eq_true, if_false, if_true]
  rfl

/-- A LO half whose joined value is out of its range is refused, and the pending HI half is gone. -/
theorem State.writeReg_joinedOutOfRange {a : Nat} (hr : s.addrRefused a = none)
    (hm : s.modeBlocks a (v &&& writeMask a m) = false) (hhi : wholeLo (a - 4) = false) (hlo : wholeLo a = true)
    (hw : wholeOk a ((s.newHigh id a).toNat * 2 ^ 32 + (s.newValue a v m).toNat) = false) :
    s.writeReg id a v m busy = (St.badValue, s.updSession id (Session.dropHigh (a + 4))) := by
  unfold State.newHigh State.newValue writeMask at hw
  unfold writeMask at hm
  unfold State.writeReg
  simp only [hr, hm, hhi, hlo, hw, Bool.false_and, Bool.not_false, Bool.false_eq_true, if_false, if_true]
  rfl

/-- A LO half of a value in its range, of a block that does not run, writes both halves; the pending HI half is gone. -/
theorem State.writeReg_joined {a : Nat} (hr : s.addrRefused a = none)
    (hm : s.modeBlocks a (v &&& writeMask a m) = false) (hhi : wholeLo (a - 4) = false) (hlo : wholeLo a = true)
    (hw : wholeOk a ((s.newHigh id a).toNat * 2 ^ 32 + (s.newValue a v m).toNat) = true)
    (hk : (s.updSession id (Session.dropHigh (a + 4))).lkRuns a = false) :
    s.writeReg id a v m busy = (St.ok, ((s.updSession id (Session.dropHigh (a + 4))).storeFields id (a + 4)
      (s.newHigh id a) 0xFFFFFFFF 0).storeFields id a (s.newValue a v m) 0xFFFFFFFF 0) := by
  have hk' : (s.updSession id fun x => { x with highs := x.highs.drop fun b => b == a + 4 }).lkRuns a = false := hk
  unfold State.newHigh State.newValue writeMask at *
  unfold State.writeReg
  simp only [hr, hm, hhi, hlo, hw, hk', Bool.false_and, Bool.not_true, Bool.false_eq_true, and_false, if_false, if_true]
  rfl

theorem State.view_queSeqNextHi : s.view Reg.queSeqNextHi = s.get Reg.queSeqNextHi :=
  (State.view_noShadow rfl).trans (and_ones _)

theorem State.writeReg_queSeqNextHi (hr : s.addrRefused Reg.queSeqNextHi = none) :
    s.writeReg id Reg.queSeqNextHi v 0xFFFFFFFF busy
      = (St.ok, s.updSession id (Session.holdHigh Reg.queSeqNextHi v)) :=
  State.writeReg_holds hr rfl rfl (by decide) rfl rfl

/-- QUE_SEQ_NEXT takes the joined value at once while nothing is acquired (R15, R433). -/
theorem State.writeReg_queSeqNextLo {x : Session} (hr : s.addrRefused Reg.queSeqNextLo = none)
    (hacq : s.acquiring = false) (hx : s.findSession id = some x) :
    s.writeReg id Reg.queSeqNextLo v 0xFFFFFFFF busy
      = (St.ok, ((s.updSession id (Session.dropHigh Reg.queSeqNextHi)).set Reg.queSeqNextHi
          ((x.highs.find Reg.queSeqNextHi).getD (s.get Reg.queSeqNextHi))).set Reg.queSeqNextLo v) := by
  have value : s.newValue Reg.queSeqNextLo v 0xFFFFFFFF = v := State.newValue_whole rfl rfl
  have high : s.newHigh id Reg.queSeqNextLo = (x.highs.find Reg.queSeqNextHi).getD (s.get Reg.queSeqNextHi) := by
    rw [State.newHigh, hx, ← State.view_queSeqNextHi]
    rfl
  have shHi : fieldMask isSh (fieldsAt Reg.queSeqNextHi) = 0 := rfl
  have shLo : fieldMask isSh (fieldsAt Reg.queSeqNextLo) = 0 := rfl
  have directHi : fieldMask isDirect (fieldsAt Reg.queSeqNextHi) = 0xFFFFFFFF := rfl
  have directLo : fieldMask isDirect (fieldsAt Reg.queSeqNextLo) = 0xFFFFFFFF := rfl
  rw [State.writeReg_joined hr rfl rfl rfl rfl hacq, value, high, show Reg.queSeqNextLo + 4 = Reg.queSeqNextHi from rfl,
    State.storeFields_noShadow _ _ _ shHi, State.storeFields_noShadow _ _ _ shLo, directHi, directLo]
  simp [and_ones]

theorem timDomAsymLo_whole : ∀ d : Fin 2, wholeLo (Reg.timDomAsymLo d) = true ∧ wholeLo (Reg.timDomAsymLo d - 4) = false
    ∧ Reg.timDomAsymLo d < 0x50000 ∧ Reg.timDomAsymLo d ≠ Reg.queSeqNextLo := by decide

/-- A delay asymmetry out of ±10,000 ns is refused, and its pending HI half is gone (R433). -/
theorem State.writeReg_timDomAsymLo {x : Session} {h : Word} (d : Fin 2) (hr : s.addrRefused (Reg.timDomAsymLo d) = none)
    (hx : s.findSession id = some x) (hh : x.highs.find (Reg.timDomAsymLo d + 4) = some h)
    (hw : 10000 * nsU < (signed 64 (h.toNat * 2 ^ 32 + v.toNat)).natAbs) :
    s.writeReg id (Reg.timDomAsymLo d) v 0xFFFFFFFF busy
      = (St.badValue, s.updSession id (Session.dropHigh (Reg.timDomAsymLo d + 4))) := by
  have mask : writeMask (Reg.timDomAsymLo d) 0xFFFFFFFF = 0xFFFFFFFF := by
    rw [writeMask, fieldsAt_timDomAsymLo]
    rfl
  have value : s.newValue (Reg.timDomAsymLo d) v 0xFFFFFFFF = v :=
    State.newValue_whole (by rw [fieldsAt_timDomAsymLo]; rfl) mask
  have high : s.newHigh id (Reg.timDomAsymLo d) = h := by
    rw [State.newHigh, hx, Option.bind_some, hh, Option.getD_some]
  obtain ⟨whole, notHi, below, notSeq⟩ := timDomAsymLo_whole d
  refine State.writeReg_joinedOutOfRange hr (by fin_cases d <;> rfl) notHi whole ?_
  rw [high, value, wholeOk, if_neg notSeq, if_pos below, decide_eq_false (Nat.not_le.mpr hw)]

end

/-! ### The statement -/

/-- Settles O20: each register's write is computed on the state that the request finds, and the answer shows it. -/
theorem writesReachShadowOrRegister : Obligations.WritesReachShadowOrRegister := by
  unfold Obligations.WritesReachShadowOrRegister
  have reach {s : State} {a : Nat} (r : Req) (h : s.addrRefused a = none) : (s.arrived r).addrRefused a = none :=
    (s.arrived_addrRefused r a).trans h
  refine ⟨?threshold, ?thresholdOutOfRange, ?window, ?windowMasked, ?writeClears, ?writeClearsMasked, ?readOnly,
    fun _ => ?writeOnlyReadsZero, ?writeOnlyZero, ?highHeld, ?joined, ?joinedOutOfRange⟩
  case threshold =>
    intro s r x t k v h hr h1 h2
    obtain ⟨u, hu, ha, hk⟩ := regWrite_answers h (thrChSet0_word t k) (plainReg_thrChSet0 t k).notGate
      (State.writeReg_thrChSet0 t k (reach r hr) h1 h2) rfl (State.keepsRegs_set_get _ _) (by decide)
      (h.found_updated _ (addMark_id _))
    obtain ⟨c, hc⟩ := ha.found
    refine ⟨u, _, hu, ha.replied, ?_, hk, fun b hb => ?_, hc, addMark_contains _ _⟩
    · rw [State.getShadow, ha.shadow]
      exact congrArg (Option.getD · _) (RegMap.find_put_same _ _ _)
    · rw [ha.shadow]
      exact RegMap.find_put_ne _ _ _ _ hb
  case thresholdOutOfRange =>
    intro s r x t k v h hr hv
    obtain ⟨u, hu, ha, -⟩ := regWrite_answers h (thrChSet0_word t k) (plainReg_thrChSet0 t k).notGate
      (State.writeReg_thrChSet0_outOfRange t k (reach r hr) hv) rfl (l := []) (fun _ _ => rfl) (by decide) h.found_arrived
    exact ⟨u, hu, ha.replied, ha.shadow⟩
  case window =>
    intro s r x v h
    obtain ⟨u, hu, ha, hk⟩ := regWrite_answers h (by decide) plainReg_otpWinSel.notGate
      (State.writeReg_otpWinSel (reach r (h.reaches_otpWinSel rfl))) rfl (State.keepsRegs_set _ _ _) (by decide)
      h.found_arrived
    refine ⟨u, hu, ha.replied, ?_, hk, ha.shadow⟩
    rw [State.fld, ha.get, State.get_set_same, windowSelection_field]
  case windowMasked =>
    intro s r x v m h
    obtain ⟨u, hu, ha, hk⟩ := regWriteMasked_answers h (by decide) plainReg_otpWinSel.notGate
      (State.writeReg_otpWinSel (reach r (h.reaches_otpWinSel rfl))) rfl rfl (State.keepsRegs_set _ _ _) (by decide)
      h.found_arrived
    have before : (s.arrived r).get Reg.otpWinSel = s.get Reg.otpWinSel :=
      State.get_arrived_ne _ _ _ (ne_lnkPortRx r.port (by decide))
    refine ⟨u, hu, ?_, fun i hi => ?_, hk, ha.shadow⟩
    · rw [State.view_otpWinSel, ha.get, ← State.view_otpWinSel]
      exact ha.replied
    · rw [State.bit, ha.get, State.get_set_same, windowSelection_bit _ _ _ hi, before, State.bit]
  case writeClears =>
    intro s r x v h hr
    obtain ⟨u, hu, ha, hk⟩ := regWrite_answers h (by decide) plainReg_cstStat.notGate
      (State.writeReg_cstStat (reach r hr)) rfl (State.keepsRegs_set _ _ _) (by decide) h.found_arrived
    refine ⟨u, hu, ha.replied, ?_, hk, ha.shadow⟩
    rw [ha.get, State.get_set_same, State.get_arrived_ne _ _ _ (ne_lnkPortRx r.port (by decide))]
    exact congrArg (fun w => s.get Reg.cstStat &&& ~~~(w &&& 0x600)) (and_ones v)
  case writeClearsMasked =>
    intro s r x v m h hr
    obtain ⟨u, hu, ha, hk⟩ := regWriteMasked_answers h (by decide) plainReg_cstStat.notGate
      (State.writeReg_cstStat (reach r hr)) rfl rfl (State.keepsRegs_set _ _ _) (by decide) h.found_arrived
    refine ⟨u, hu, ?_, hk, ha.shadow⟩
    rw [ha.get, State.get_set_same, State.get_arrived_ne _ _ _ (ne_lnkPortRx r.port (by decide))]
  case readOnly =>
    intro s r x v h hr
    obtain ⟨u, hu, ha, hk⟩ := regWrite_answers h (by decide) plainReg_ilkIdent.notGate
      (State.writeReg_ilkIdent (reach r hr)) rfl (State.keepsRegs_set_get _ _) (by decide) h.found_arrived
    exact ⟨u, hu, ha.replied, hk, ha.shadow⟩
  case writeOnlyReadsZero => exact (State.view_noShadow rfl).trans BitVec.and_zero
  case writeOnlyZero =>
    intro s r x v h hr h0
    obtain ⟨u, hu, ha, hk⟩ := regWrite_answers h (by decide) ⟨by decide, by decide⟩
      (State.writeReg_ilkLaneCtrl (reach r hr) h0) rfl (State.keepsRegs_set_get _ _) (by decide) h.found_arrived
    exact ⟨u, hu, ha.replied, hk, ha.shadow, ha.ilk⟩
  case highHeld =>
    intro s r x v h hr
    obtain ⟨u, hu, ha, hk⟩ := regWrite_answers h (by decide) ⟨by decide, by decide⟩
      (State.writeReg_queSeqNextHi (reach r hr)) rfl (l := []) (fun _ _ => rfl) (by decide)
      (h.found_updated _ fun _ => rfl)
    obtain ⟨c, hc⟩ := ha.found
    exact ⟨u, _, hu, ha.replied, hk, ha.shadow, hc, RegMap.find_put_same _ _ _⟩
  case joined =>
    intro s r x v h hr hacq
    have idle : (s.arrived r).acquiring = false := (s.arrived_acquiring r).trans hacq
    obtain ⟨u, hu, ha, hk⟩ := regWrite_answers h (by decide) ⟨by decide, by decide⟩
      (State.writeReg_queSeqNextLo (reach r hr) idle h.found_arrived) rfl
      (State.keepsRegs_set_set ((s.arrived r).updSession _ _) _ _ _ _) (by decide)
      (h.found_updated _ fun _ => rfl)
    obtain ⟨c, hc⟩ := ha.found
    refine ⟨u, _, hu, ha.replied, ?_, ?_, hk, ha.shadow, hc, RegMap.find_drop_same _ _⟩
    · rw [ha.get, State.get_set_same]
    · rw [ha.get, State.get_set_ne _ _ _ _ (by decide), State.get_set_same,
        State.get_arrived_ne _ _ _ (ne_lnkPortRx r.port (by decide))]
      rfl
  case joinedOutOfRange =>
    intro s r x d g v h hr hg hv
    obtain ⟨u, hu, ha, hk⟩ := regWrite_answers h (timDomAsymLo_word d).1 (timDomAsymLo_word d).2
      (State.writeReg_timDomAsymLo d (reach r hr) h.found_arrived hg hv) rfl (l := []) (fun _ _ => rfl) (by decide)
      (h.found_updated _ fun _ => rfl)
    obtain ⟨c, hc⟩ := ha.found
    exact ⟨u, _, hu, ha.replied, hk, ha.shadow, hc, RegMap.find_drop_same _ _⟩

end Sys2Proof.Machine
end

