-- ==== Sys2Proof/Proofs/RejectedWrites.lean ====
section
/-! A register write that is answered with neither OK nor GATE_BUSY: what it leaves (R46, R47, R336, R433). -/

namespace Sys2Proof.Machine

/-! ### What a rejected write leaves -/

/-- Nothing has changed but what the sessions hold and the count of free values. -/
def SessionsOnly (s u : State) : Prop := u = { s with free := u.free, bcp := { s.bcp with sessions := u.bcp.sessions } }

theorem SessionsOnly.refl (s : State) : SessionsOnly s s := rfl

theorem SessionsOnly.eq {s u : State} (h : SessionsOnly s u) :
    u = { s with free := u.free, bcp := { s.bcp with sessions := u.bcp.sessions } } := h

theorem SessionsOnly.trans {s u w : State} (h : SessionsOnly s u) (k : SessionsOnly u w) : SessionsOnly s w := by
  unfold SessionsOnly
  rw [k.eq, h.eq]

theorem State.updSession_sessionsOnly (s : State) (id : Word) (f : Session → Session) :
    SessionsOnly s (s.updSession id f) := rfl

theorem SessionsOnly.get {s u : State} (h : SessionsOnly s u) (k : Nat) : u.get k = s.get k := by
  rw [h.eq]
  rfl

/-- The outcome of a write at `a` by the session `id`: it is answered with OK or GATE_BUSY, or it has changed nothing but
the HI half pending for that session (R336, R433). -/
def AcceptedOrKept (id : Word) (a : Nat) (s : State) (q : BitVec 16 × State) : Prop :=
  q.1 = St.ok ∨ q.1 = St.gateBusy ∨ q.2 = s ∨ q.2 = s.updSession id (Session.dropHigh (a + 4))

theorem AcceptedOrKept.accepted {id : Word} {a : Nat} {s : State} {q : BitVec 16 × State} (h : q.1 = St.ok) :
    AcceptedOrKept id a s q := .inl h

theorem AcceptedOrKept.kept (id : Word) (a : Nat) (s : State) (st : BitVec 16) : AcceptedOrKept id a s (st, s) :=
  .inr (.inr (.inl rfl))

theorem AcceptedOrKept.dropped (id : Word) (a : Nat) (s : State) (st : BitVec 16) :
    AcceptedOrKept id a s (st, s.updSession id (Session.dropHigh (a + 4))) := .inr (.inr (.inr rfl))

/-- A host gate's write is answered with OK or with GATE_BUSY (R280). -/
theorem State.hostGates_acceptedOrKept (id : Word) (a : Nat) (s : State) (first : Nat) (old new busy : Word) :
    AcceptedOrKept id a s (s.hostGates first old new busy) := by
  unfold State.hostGates
  dsimp only
  split
  · exact .inr (.inl rfl)
  · exact .accepted rfl

/-- The checks of R336 in their order: each of them answers before anything has changed, but that the write of a LO half
uses up the pending HI half before its range and its lock are looked at. -/
theorem State.writeReg_acceptedOrKept (s : State) (id : Word) (a : Nat) (v m busy : Word) :
    AcceptedOrKept id a s (s.writeReg id a v m busy) := by
  unfold State.writeReg
  split
  · exact .kept ..
  dsimp only
  split
  case isTrue mode => exact .kept ..
  split
  case isTrue highHalf => exact .accepted rfl
  split
  case isTrue lowHalf =>
    split_ifs
    · exact .dropped ..
    · exact .dropped ..
    · exact .accepted rfl
  split
  case isTrue region =>
    split
    · exact .kept ..
    · exact .accepted rfl
    · exact .accepted rfl
  split
  case isTrue range => exact .kept ..
  split
  · exact .kept ..
  split_ifs
  · exact .kept ..
  · exact State.hostGates_acceptedOrKept ..
  · exact State.hostGates_acceptedOrKept ..
  · exact .accepted rfl

theorem State.openBusy_sessionsOnly (s : State) (a : Word) : SessionsOnly s (s.openBusy a).2 := by
  unfold State.openBusy
  split <;> rfl

theorem State.openBusy_findSession (s : State) (a id : Word) : (s.openBusy a).2.findSession id = s.findSession id := by
  unfold State.openBusy
  split <;> rfl

theorem State.openBusy_addrRefused (s : State) (a : Word) (b : Nat) : (s.openBusy a).2.addrRefused b = s.addrRefused b := by
  unfold State.openBusy
  split <;> rfl

section
variable {s : State} {a v : Word} {x : Session}

/-- A rejected REG_WRITE leaves everything but its session, which stays open. -/
theorem State.regWriteOpen_rejected (hok : (s.regWriteOpen a v x).1 ≠ St.ok) (hg : (s.regWriteOpen a v x).1 ≠ St.gateBusy)
    (hx : (s.findSession x.id).isSome = true) :
    SessionsOnly s (s.regWriteOpen a v x).2.2 ∧ ((s.regWriteOpen a v x).2.2.findSession x.id).isSome = true := by
  have hb := s.openBusy_sessionsOnly a
  have hf := s.openBusy_findSession a x.id
  unfold State.regWriteOpen State.regWrite at *
  rcases State.writeReg_acceptedOrKept (s.openBusy a).2 x.id a.toNat v 0xFFFFFFFF (s.openBusy a).1 with h | h | h | h
  · exact absurd h hok
  · exact absurd h hg
  · simp only [h]
    exact ⟨hb, by rw [hf, hx]⟩
  · simp only [h]
    refine ⟨hb.trans (State.updSession_sessionsOnly _ _ _), ?_⟩
    rw [State.find_updSession _ x.id (Session.dropHigh (a.toNat + 4)) (fun _ => rfl), Option.isSome_map, hf, hx]

/-- An address that cannot be reached is answered with why (R46, R47). -/
theorem State.regWriteOpen_unreachable {st : BitVec 16} (h : s.addrRefused a.toNat = some st) :
    s.regWriteOpen a v x = (st, [], (s.openBusy a).2) := by
  unfold State.regWriteOpen State.regWrite State.writeReg
  simp only [State.openBusy_addrRefused, h]

end

/-! ### The statement -/

theorem State.answered_latches {f : Form} {r : Req} {a : Ans} (hc : f.closes = false) :
    (State.answered f r a).bcp.latches = a.2.2.bcp.latches := by
  unfold State.answered State.reply
  simp only [hc, Bool.false_eq_true, if_false, State.sendOther_bcp]
  rfl

/-- A served REG_WRITE whose execution has touched its session alone is answered, and nothing else has changed. -/
theorem regWrite_untouched {s : State} {r : Req} {x : Session} {a v : Word} (h : Served s writeForm r x)
    (hk : SessionsOnly (s.arrived r) ((s.arrived r).regWriteOpen a v (x.hear s.tim.now r)).2.2) :
    exec (.regWrite r a v) s = .next (State.keeping s
      (State.answered writeForm r ((s.arrived r).regWriteOpen a v (x.hear s.tim.now r)))) := by
  have e : (s.arrived r).overLink r a.toNat ((s.arrived r).regWriteOpen a v (x.hear s.tim.now r))
      = (s.arrived r).regWriteOpen a v (x.hear s.tim.now r) := State.overLink_kept _ _ _ _ h.link
  rw [← e]
  refine run_served _ _ (fun x s => s.overLink r a.toNat (s.regWriteOpen a v x)) h ?_
  rw [e, hk.eq]
  rfl

/-- Settles O19: a refused write has changed its session's pending half at most, and the answer touches the session, the
links and the output. -/
theorem rejectedWritesChangeNothing : Obligations.RejectedWritesChangeNothing := by
  unfold Obligations.RejectedWritesChangeNothing
  refine ⟨?rejected, ?unreachable⟩
  case rejected =>
    intro s r x a v st h hst hok hg
    have found : ((s.arrived r).findSession (x.hear s.tim.now r).id).isSome = true := by
      rw [h.hear_id, h.found_arrived]
      rfl
    obtain ⟨hk, hf⟩ := State.regWriteOpen_rejected (hst.trans_ne hok) (hst.trans_ne hg) found
    have plain : ((s.arrived r).regWriteOpen a v (x.hear s.tim.now r)).2.2.bit (Reg.lnkProvCtrl r.port) 31 = false := by
      rw [State.bit, hk.get, State.get_arrived_ne _ _ _ (lnkPortRx_ne r.port r.port).1]
      exact h.quiet.plain
    have held : lookupK r.port.val ((s.arrived r).regWriteOpen a v (x.hear s.tim.now r)).2.2.lnk.heldTx = none := by
      rw [hk.eq]
      exact h.quiet.heldTx
    refine ⟨_, regWrite_untouched h hk, ?replied, ?regs, ?rest⟩
    case replied =>
      rw [h.hear_id] at hf
      have := (State.answered_replied (f := writeForm) rfl hf).keeping s
      rwa [hst] at this
    case regs =>
      intro k hn
      rw [State.keeping_get, State.answered_get k rfl plain held, hk.get,
        State.get_arrived_ne _ _ _ (mt List.mem_singleton.mpr hn)]
    case rest =>
      simp only [State.keeping_shadow, State.keeping_modes, State.keeping_tiles, State.keeping_sbx, State.keeping_que,
        State.keeping_dpt, State.keeping_cmp, State.keeping_tim, State.keeping_clk, State.keeping_ilk, State.keeping_pers,
        State.keeping_tt, State.keeping_bcp, State.answered_shadow, State.answered_modes, State.answered_tiles,
        State.answered_sbx, State.answered_que, State.answered_dpt, State.answered_cmp, State.answered_tim,
        State.answered_clk, State.answered_ilk, State.answered_pers, State.answered_tt,
        State.answered_latches (f := writeForm) rfl]
      rw [hk.eq]
      exact ⟨rfl, rfl, rfl, rfl, rfl, rfl, rfl, rfl, rfl, rfl, rfl, rfl, rfl⟩
  case unreachable =>
    intro s r x a v st h hr
    have hw := State.regWriteOpen_unreachable (v := v) (x := x.hear s.tim.now r) ((s.arrived_addrRefused r a.toNat).trans hr)
    have hk : SessionsOnly (s.arrived r) ((s.arrived r).regWriteOpen a v (x.hear s.tim.now r)).2.2 := by
      rw [hw]
      exact (s.arrived r).openBusy_sessionsOnly a
    refine ⟨_, regWrite_untouched h hk, ?_⟩
    have hf : (((s.arrived r).openBusy a).2.findSession r.session).isSome = true := by
      rw [State.openBusy_findSession, h.found_arrived]
      rfl
    rw [hw]
    exact (State.answered_replied (f := writeForm) (a := (st, [], _)) rfl hf).keeping s

end Sys2Proof.Machine
end

