-- ==== Sys2Proof/Proofs/SampleFrames.lean ====
section
/-! Sample frames (R26–R29, R310, R311): what taking a frame leaves as it was, and what taking, replaying and losing one do. -/

namespace Sys2Proof.Machine

/-! ### What a frame's words may touch -/

/-- A state with what a frame's way to windows, Store and Ring may touch as another has it. -/
def State.feedInto (s u : State) : State :=
  { s with regs := u.regs, dpt := u.dpt, cmp := u.cmp,
           sbx := { s.sbx with hits := u.sbx.hits, closing := u.sbx.closing, progs := u.sbx.progs } }

/-- Nothing else has been touched, and no register below the flip injection's (R210). -/
def FeedKept (s u : State) : Prop := u = s.feedInto u ∧ ∀ a, a < Reg.dptFlipMask0 → u.get a = s.get a

theorem FeedKept.refl (s : State) : FeedKept s s := ⟨rfl, fun _ _ => rfl⟩

theorem FeedKept.trans {s u w : State} (h : FeedKept s u) (k : FeedKept u w) : FeedKept s w :=
  ⟨Eq.trans k.1 (congrArg (State.feedInto · w) h.1 :), fun a ha => (k.2 a ha).trans (h.2 a ha)⟩

theorem FeedKept.foldl {α : Type} {f : State → α → State} (hf : ∀ s x, FeedKept s (f s x)) (l : List α) :
    ∀ s, FeedKept s (l.foldl f s) := by
  induction l with
  | nil => exact .refl
  | cons x l ih => exact fun s => (hf s x).trans (ih _)

theorem FeedKept.tiles {s u : State} (h : FeedKept s u) : u.tiles = s.tiles := by rw [h.1]; rfl
theorem FeedKept.look {s u : State} (h : FeedKept s u) : u.sbx.look = s.sbx.look := by rw [h.1]; rfl

theorem State.withCmp_feedKept (s : State) (f : Cmp → Cmp) : FeedKept s (s.withCmp f) := ⟨rfl, fun _ _ => rfl⟩

theorem State.withDpt_feedKept (s : State) (f : Depot → Depot) : FeedKept s (s.withDpt f) := ⟨rfl, fun _ _ => rfl⟩

/-- With a register of the flip injection set none below it changes. -/
theorem FeedKept.set {s u : State} (h : FeedKept s u) {a : Nat} (w : Word) (ha : Reg.dptFlipMask0 ≤ a) :
    FeedKept s (u.set a w) :=
  h.trans ⟨rfl, fun b hb => State.get_set_ne _ _ _ _ (by omega)⟩

theorem FeedKept.setBit {s u : State} (h : FeedKept s u) {a : Nat} (i : Nat) (b : Bool) (ha : Reg.dptFlipMask0 ≤ a) :
    FeedKept s (u.setBit a i b) := h.set _ ha

theorem State.writeLine_feedKept (l : Nat) (d : List Byte) (s : State) : FeedKept s (s.writeLine l d) := by
  unfold State.writeLine
  dsimp only
  have written := s.withDpt_feedKept fun x =>
    { x with mem := x.mem.writeBytes (64 * l) d, errs := x.errs.filter fun x => x.1 != l }
  generalize s.withDpt _ = u at written ⊢
  split
  · refine FeedKept.set ?_ _ (by decide)
    refine FeedKept.setBit (FeedKept.setBit ?_ _ _ (by decide)) _ _ (by decide)
    refine FeedKept.set (FeedKept.set (FeedKept.set ?_ _ (by decide)) _ (by decide)) _ (by decide)
    exact written.trans (State.withDpt_feedKept ..)
  · exact written

theorem State.writePart_feedKept (skip : State → Nat → List Byte → Bool) (gens : List (Nat × BitVec 32)) (offset : Nat)
    (lines : List (List Byte)) (s : State) : FeedKept s (s.writePart skip gens offset lines) := by
  unfold State.writePart
  refine FeedKept.foldl (fun s x => ?_) _ s
  split
  · dsimp only
    split
    · exact State.writeLine_feedKept ..
    · exact .refl _
  · exact .refl _

theorem State.storePiece_feedKept (w : Win) (p : Piece) (s : State) : FeedKept s (s.storePiece w p) := by
  unfold State.storePiece
  split
  · exact .refl _
  · exact State.writePart_feedKept ..

theorem State.feedWindows_feedKept (t : Fin 4) (f : Frame) (s : State) : FeedKept s (s.feedWindows t f) := by
  unfold State.feedWindows
  refine .trans (u := { s with sbx := { s.sbx with hits := _, closing := _, progs := _ } }) ⟨rfl, fun _ _ => rfl⟩ ?_
  exact FeedKept.foldl (fun s w => FeedKept.foldl (fun s p => State.storePiece_feedKept w p s) _ s) _ _

theorem State.closeUnits_feedKept (cs : List Nat) (st : BitVec 2) (s : State) : FeedKept s (s.closeUnits cs st) :=
  FeedKept.foldl (fun s _ => State.withCmp_feedKept s _) cs s

theorem State.addSlot_feedKept (c : Nat) (wide : Bool) (first : Nat) (st : BitVec 2) (fl : Byte) (ws : List Sample)
    (s : State) : FeedKept s (s.addSlot c wide first st fl ws) := by
  unfold State.addSlot
  split <;> exact State.withCmp_feedKept ..

theorem State.feedRing_feedKept (t : Fin 4) (f : Frame) (s : State) : FeedKept s (s.feedRing t f) := by
  unfold State.feedRing
  refine FeedKept.foldl (fun s k => ?_) _ s
  dsimp only
  split
  · exact .refl _
  · split
    · exact State.addSlot_feedKept ..
    · exact State.withCmp_feedKept ..

theorem State.closeAtStop_feedKept (t : Fin 4) (s : State) : FeedKept s (s.closeAtStop t) := by
  unfold State.closeAtStop
  split
  · split
    · exact State.closeUnits_feedKept ..
    · exact .refl _
  · exact .refl _

/-! ### A frame taken -/

/-- The next frame of a tile is in the look-back buffer, with its words or lost, and the tile's next one is due (R27,
R310, R311). -/
structure FrameTaken (t : Fin 4) (words : List Sample) (lost : Bool) (s u : State) : Prop where
  frameNo : (u.tile t).frameNo = (s.tile t).frameNo + 1
  framePeriod : (u.tile t).framePeriod = (s.tile t).framePeriod + framePeriods
  newest : ∃ f, (u.sbx.look.get t).getLast? = some f ∧ f.first = (s.tile t).framePeriod
    ∧ f.words = (if lost then [] else words) ∧ f.lost = lost ∧ f.gap = (s.tile t).gapNext

/-- A frame taken is so too of states that have the same tiles and the same look-back buffer. -/
theorem FrameTaken.congr {t : Fin 4} {ws : List Sample} {lost : Bool} {s s' u u' : State} (h : FrameTaken t ws lost s u)
    (hs : s'.tiles = s.tiles) (hu : u'.tiles = u.tiles) (hl : u'.sbx.look = u.sbx.look) : FrameTaken t ws lost s' u' := by
  have source : s'.tile t = s.tile t := congrArg (·.get t) hs
  have result : u'.tile t = u.tile t := congrArg (·.get t) hu
  exact ⟨by rw [source, result, h.frameNo], by rw [source, result, h.framePeriod], by rw [source, hl]; exact h.newest⟩

theorem getLast?_keepLast {α : Type} (l : List α) (x : α) (n : Nat) :
    ((l ++ [x]).drop (l.length + 1 - (n + 1))).getLast? = some x := by
  rw [List.drop_append_of_le_length (by omega), List.getLast?_append]
  rfl

theorem State.takeFrame_taken (t : Fin 4) (ws : List Sample) (flags : List Byte) (lost : Bool) (s : State) :
    FrameTaken t ws lost s (s.takeFrame t ws flags lost)
      ∧ ∀ a, a < Reg.dptFlipMask0 → (s.takeFrame t ws flags lost).get a = s.get a := by
  unfold State.takeFrame
  dsimp only
  generalize hf : Frame.mk _ _ _ _ _ _ _ _ = f
  generalize hb : ({ s with sbx := { s.sbx with look := _ } } : State) = b
  have buffered : (b.sbx.look.get t).getLast? = some f := by
    rw [← hb, upd_get_same]
    exact getLast?_keepLast _ f 15
  have fed : FeedKept b ((b.feedWindows t f).feedRing t f) :=
    (State.feedWindows_feedKept t f b).trans (State.feedRing_feedKept t f _)
  have tiles : ((b.feedWindows t f).feedRing t f).tiles = s.tiles := by rw [fed.tiles, ← hb]
  have look := fed.look
  have regs : ∀ a, a < Reg.dptFlipMask0 → ((b.feedWindows t f).feedRing t f).get a = s.get a := fun a ha => by
    rw [fed.2 a ha, ← hb]
    rfl
  generalize (b.feedWindows t f).feedRing t f = c at tiles look regs
  generalize hd : c.updTile t _ = d
  have ended : FeedKept d (closeAtStop t (if d.tilePowered t || d.maskAt t ((s.tile t).framePeriod + framePeriods) != 0 then d
      else d.closeUnits ((List.range 16).map fun k => 16 * t.val + k) 3)) := by
    refine .trans ?_ (State.closeAtStop_feedKept t _)
    split
    · exact .refl _
    · exact State.closeUnits_feedKept ..
  have tile : c.tile t = s.tile t := by rw [State.tile, tiles, State.tile]
  have taken : FrameTaken t ws lost s d := by
    refine ⟨?_, ?_, f, ?_, ?_⟩
    · rw [← hd, State.updTile_tile_same, tile]
    · rw [← hd, State.updTile_tile_same]
    · rw [← hd]
      exact look ▸ buffered
    · rw [← hf]
      exact ⟨rfl, rfl, rfl, rfl⟩
  refine ⟨taken.congr rfl ended.tiles ended.look, fun a ha => (ended.2 a ha).trans ?_⟩
  rw [← hd]
  exact regs a ha

/-! ### Counting -/

theorem Counted.refl (s : State) (a : Nat) : Counted s s a 0 := by
  have := (s.get a).isLt
  unfold Counted
  omega

theorem State.counted_bump (s : State) (a : Nat) : Counted s (s.bump a) a 1 := State.get_bump_same s a

/-- A count goes by the register alone. -/
theorem Counted.congr {s s' u u' : State} {a n : Nat} (h : Counted s u a n) (hs : s'.get a = s.get a)
    (hu : u'.get a = u.get a) : Counted s' u' a n := by
  unfold Counted at *
  rw [hs, hu, h]

theorem mem_bitList {w : Nat} (v : BitVec w) (i : Nat) : i ∈ bitList v ↔ v.getLsbD i = true := by
  unfold bitList
  rw [List.mem_filter, List.mem_range]
  exact ⟨fun h => h.2, fun h => ⟨BitVec.lt_of_getLsbD h, h⟩⟩

theorem nodup_bitList {w : Nat} (v : BitVec w) : (bitList v).Nodup := List.nodup_range.filter _

/-- Counters bumped in turn, each at most once: the others keep their values. -/
theorem State.bumpEach_get_ne (f : Nat → Nat) (l : List Nat) (a : Nat) : ∀ s : State, (∀ i ∈ l, a ≠ f i) →
    (l.foldl (fun (s : State) (i : Nat) => s.bump (f i)) s).get a = s.get a := by
  induction l with
  | nil => exact fun _ _ => rfl
  | cons i l ih =>
    intro s h
    rw [List.foldl_cons, ih _ fun j hj => h j (List.mem_cons_of_mem _ hj), State.get_bump_ne _ _ _ (h i List.mem_cons_self)]

theorem State.bumpEach_counted (f : Nat → Nat) (hf : f.Injective) (l : List Nat) (i : Nat) : ∀ s : State, l.Nodup →
    Counted s (l.foldl (fun (s : State) (j : Nat) => s.bump (f j)) s) (f i) (decide (i ∈ l)).toNat := by
  induction l with
  | nil => exact fun s _ => Counted.refl s (f i)
  | cons j l ih =>
    intro s h
    obtain ⟨hj, hl⟩ := List.nodup_cons.mp h
    rw [List.foldl_cons]
    by_cases e : i = j
    · subst e
      have others := State.bumpEach_get_ne f l (f i) (s.bump (f i)) fun k hk e => hj (hf e ▸ hk)
      simpa using (s.counted_bump (f i)).congr rfl others
    · have one : i ∈ j :: l ↔ i ∈ l := by simp [e]
      simp only [one]
      exact (ih (s.bump (f j)) hl).congr (State.get_bump_ne _ _ _ fun c => e (hf c)).symm rfl

/-- Counters bumped in turn touch registers alone. -/
theorem State.bumpEach_regsOnly (f : Nat → Nat) (l : List Nat) : ∀ s : State,
    ∃ r, l.foldl (fun (s : State) (i : Nat) => s.bump (f i)) s = { s with regs := r } := by
  induction l with
  | nil => exact fun s => ⟨_, rfl⟩
  | cons i l ih =>
    intro s
    obtain ⟨r, h⟩ := ih (s.bump (f i))
    exact ⟨r, h⟩

/-! ### A frame replayed or lost -/

/-- The registers of a tile's link (R317) lie apart from each other and below the flip injection's. -/
theorem lnkTl_apart (t : Fin 4) {l : Nat} (hl : l < 16) :
    Reg.lnkTlLane t l ≠ Reg.lnkTlReplays t ∧ Reg.lnkTlLane t l ≠ Reg.lnkTlLost t ∧ Reg.lnkTlReplays t ≠ Reg.lnkTlLost t
      ∧ Reg.lnkTlStat t ≠ Reg.lnkTlLane t l ∧ Reg.lnkTlLane t l < Reg.dptFlipMask0 ∧ Reg.lnkTlReplays t < Reg.dptFlipMask0
      ∧ Reg.lnkTlLost t < Reg.dptFlipMask0 := by
  have := t.isLt
  unfold Reg.lnkTlLane Reg.lnkTlReplays Reg.lnkTlLost Reg.lnkTlStat Reg.dptFlipMask0
  omega

theorem lnkTlLane_injective (t : Nat) : (Reg.lnkTlLane t).Injective := by
  intro i j h
  unfold Reg.lnkTlLane at h
  omega

/-- A frame has been replayed with its words, or is lost, marked and reported (R311). -/
structure FrameSettled (t : Fin 4) (ok : Bool) (words : List Sample) (s u : State) : Prop where
  taken : FrameTaken t words (!ok) s u
  replays : Counted s u (Reg.lnkTlReplays t) ok.toNat
  lost : Counted s u (Reg.lnkTlLost t) (!ok).toNat
  attends : ok = false → ∀ x ∈ u.bcp.sessions, x.atn.getLsbD Atn.link = true

/-- A frame taken from the replay buffer, counted. -/
theorem State.takeReplay_settled (t : Fin 4) (ws : List Sample) (flags : List Byte) (s : State) :
    FrameSettled t true ws s ((s.takeFrame t ws flags false).bump (Reg.lnkTlReplays t))
      ∧ ∀ l, l < 16 → ((s.takeFrame t ws flags false).bump (Reg.lnkTlReplays t)).get (Reg.lnkTlLane t l)
        = s.get (Reg.lnkTlLane t l) := by
  obtain ⟨taken, kept⟩ := s.takeFrame_taken t ws flags false
  obtain ⟨-, -, apart, -, -, replays, lost⟩ := lnkTl_apart t (l := 0) (by decide)
  refine ⟨⟨taken.congr rfl rfl rfl, ?_, ?_, nofun⟩, fun l hl => ?_⟩
  · exact (State.counted_bump _ _).congr (kept _ replays).symm rfl
  · exact (Counted.refl s _).congr rfl ((State.get_bump_ne _ _ _ apart.symm).trans (kept _ lost))
  · obtain ⟨hr, -, -, -, low, -⟩ := lnkTl_apart t hl
    exact (State.get_bump_ne _ _ _ hr).trans (kept _ low)

/-- A frame lost, counted and reported. -/
theorem State.loseFrame_settled (t : Fin 4) (ws : List Sample) (s : State) :
    FrameSettled t false ws s (s.loseFrame t)
      ∧ ∀ l, l < 16 → (s.loseFrame t).get (Reg.lnkTlLane t l) = s.get (Reg.lnkTlLane t l) := by
  obtain ⟨taken, kept⟩ := s.takeFrame_taken t [] [] true
  obtain ⟨-, -, apart, -, -, replays, lost⟩ := lnkTl_apart t (l := 0) (by decide)
  refine ⟨⟨⟨taken.frameNo, taken.framePeriod, taken.newest⟩, ?_, ?_, fun _ => State.attend_sets _ _ (by decide)⟩,
    fun l hl => ?_⟩
  · exact (Counted.refl s _).congr rfl ((State.get_bump_ne _ _ _ apart).trans (kept _ replays))
  · exact (State.counted_bump _ _).congr (kept _ lost).symm rfl
  · obtain ⟨-, hl, -, -, low, -⟩ := lnkTl_apart t hl
    exact (State.get_bump_ne _ _ _ hl).trans (kept _ low)

/-- A frame that the tile still holds is replayed with its words where a correct replay comes, and lost where none does;
the failing lanes are counted before. -/
theorem State.replayFrame_settled {t : Fin 4} {lanes : BitVec 16} {ok : Bool} {ws : List Sample} {s : State}
    (hw : s.sentWords t (s.tile t).framePeriod = some ws) (ht : s.tileTraining t = false) :
    FrameSettled t ok ws s (s.replayFrame t lanes ok)
      ∧ ∀ l, l < 16 → Counted s (s.replayFrame t lanes ok) (Reg.lnkTlLane t l) (lanes.getLsbD l).toNat := by
  obtain ⟨r, hr⟩ := State.bumpEach_regsOnly (Reg.lnkTlLane t) (bitList lanes) s
  have counted (l : Nat) := State.bumpEach_counted _ (lnkTlLane_injective t) (bitList lanes) l s (nodup_bitList _)
  have kept (a : Nat) := State.bumpEach_get_ne (Reg.lnkTlLane t) (bitList lanes) a s
  have inLanes {l : Nat} (h : l ∈ bitList lanes) : l < 16 := BitVec.lt_of_getLsbD ((mem_bitList lanes l).mp h)
  unfold State.replayFrame
  dsimp only
  generalize (bitList lanes).foldl (fun (s : State) (l : Nat) => s.bump (Reg.lnkTlLane t l)) s = b at *
  have words : b.sentWords t (b.tile t).framePeriod = some ws := by
    rw [hr]
    exact hw
  have training : b.tileTraining t = false := by
    rw [State.tileTraining, State.bit, kept _ fun l hl => (lnkTl_apart t (inLanes hl)).2.2.2.1]
    exact ht
  have after {u : State} (h : FrameSettled t ok ws b u ∧ ∀ l, l < 16 → u.get (Reg.lnkTlLane t l) = b.get (Reg.lnkTlLane t l)) :
      FrameSettled t ok ws s u ∧ ∀ l, l < 16 → Counted s u (Reg.lnkTlLane t l) (lanes.getLsbD l).toNat := by
    obtain ⟨h, same⟩ := h
    refine ⟨⟨h.taken.congr (by rw [hr]) rfl rfl, h.replays.congr ?_ rfl, h.lost.congr ?_ rfl, h.attends⟩, fun l hl => ?_⟩
    · exact (kept _ fun l hl => (lnkTl_apart t (inLanes hl)).1.symm).symm
    · exact (kept _ fun l hl => (lnkTl_apart t (inLanes hl)).2.1.symm).symm
    · simpa [mem_bitList] using (counted l).congr rfl (same l hl)
  rw [words]
  cases ok with
  | true =>
    rw [training]
    exact after (State.takeReplay_settled t ws _ b)
  | false => exact after (State.loseFrame_settled t ws b)

/-! ### A frame that comes -/

/-- A frame that comes whole is taken with the tile's words. -/
theorem State.checkFrame_whole {t : Fin 4} {ws : List Sample} {errs : List (Nat × Byte)} {ok : Bool} {s : State}
    (h : ∀ e ∈ errs, e.2 = 0) :
    s.checkFrame t ws errs 0 ok = s.takeFrame t ws (s.chFlags t (s.tile t).framePeriod) false := by
  have unchanged : errs.filter (fun (e : Nat × Byte) => e.2 != 0) = [] :=
    List.filter_eq_nil_iff.mpr fun e he => by rw [h e he]; decide
  unfold State.checkFrame
  simp only [unchanged]
  rfl

/-- The octets in which a frame arrives. -/
def State.frameArrives (s : State) (t : Fin 4) (ws : List Sample) (errs : List (Nat × Byte)) : List Byte :=
  damage errs (frameOctets (frameBody t.val (s.tile t).frameNo (s.tile t).gapNext (s.chFlags t (s.tile t).framePeriod)
    (s.maskAt t (s.tile t).framePeriod) (s.ilvMask t) ws))

/-- A frame whose check fails, or a lane's, is replayed. -/
theorem State.checkFrame_damaged {t : Fin 4} {ws : List Sample} {errs : List (Nat × Byte)} {dead lanes : BitVec 16}
    {ok : Bool} {s : State} (h : ∀ e ∈ errs, e.2 ≠ 0)
    (hl : lanes = (if errs = [] then 0 else failingLanes (s.frameArrives t ws errs)) ||| dead)
    (hd : errs ≠ [] ∧ frameCrcOk (s.frameArrives t ws errs) = false ∨ lanes ≠ 0) :
    s.checkFrame t ws errs dead ok = s.replayFrame t lanes ok := by
  have all : errs.filter (fun (e : Nat × Byte) => e.2 != 0) = errs :=
    List.filter_eq_self.mpr fun e he => bne_iff_ne.mpr (h e he)
  unfold State.checkFrame
  simp only [all]
  by_cases he : errs = []
  · have dead_eq : lanes = dead := by
      rw [hl, if_pos he]
      exact BitVec.zero_or
    have dead_ne : (dead == 0) = false := by
      rw [← dead_eq, beq_eq_false_iff_ne]
      exact hd.resolve_left fun h => h.1 he
    rw [he, dead_ne, dead_eq]
    rfl
  · rw [if_neg he] at hl
    have fails : (frameCrcOk (s.frameArrives t ws errs) && lanes == 0) = false := by
      rcases hd with ⟨-, crc⟩ | lane
      · rw [crc, Bool.false_and]
      · rw [beq_eq_false_iff_ne.mpr lane, Bool.and_false]
    rw [List.isEmpty_eq_false_iff.mpr he, hl]
    rw [hl] at fails
    exact if_neg (Bool.not_eq_true _ ▸ fails)

/-- The expected frame of a tile that has sent it, with no provocation armed, meets the checks at once. -/
theorem sampleFrameReceived_expected {t : Fin 4} {ws : List Sample} {s : State} (errs : List (Nat × Byte))
    (dead : BitVec 16) (oks : List Bool) (ok : Bool) (ht : s.tileTraining t = false)
    (hs : s.frameSent t (s.tile t).framePeriod = true) (hw : s.sentWords t (s.tile t).framePeriod = some ws)
    (hp : s.bit (Reg.lnkProvCtrl (7 + t.val)) 31 = false) :
    sampleFrameReceived t (BitVec.ofNat 32 (s.tile t).frameNo) errs dead oks ok s = s.checkFrame t ws errs dead ok := by
  unfold sampleFrameReceived
  simp only [BitVec.sub_self, BitVec.toNat_zero, Nat.zero_mul, Nat.add_zero, ht, hs, hw, State.replaySkipped,
    State.provoke_unarmed _ _ _ hp]
  rfl

theorem sampleFrameReceived_old {t : Fin 4} {no : Word} {s : State} (errs : List (Nat × Byte)) (dead : BitVec 16)
    (oks : List Bool) (ok : Bool) (h : 2 ^ 31 ≤ (no - BitVec.ofNat 32 (s.tile t).frameNo).toNat) :
    sampleFrameReceived t no errs dead oks ok s = s := by
  unfold sampleFrameReceived
  exact if_pos (by rw [decide_eq_true h]; simp)

theorem frameOverdue_due {t : Fin 4} {late : Nat} {s : State} (ok : Bool) (hl : 4000 ≤ late)
    (hs : s.frameSent t (s.tile t).framePeriod = true) (hp : s.bit (Reg.lnkProvCtrl (7 + t.val)) 31 = false)
    (hd : (s.tile t).framePeriod + framePeriods + 8000 ≤ s.samplePos) :
    frameOverdue t late ok s = s.replayFrame t 0 ok := by
  unfold frameOverdue
  rw [State.provoke_unarmed _ _ _ hp]
  exact if_pos (by simp [hl, hs, hd])

theorem frameOverdue_early {t : Fin 4} {late : Nat} {s : State} (ok : Bool) (hl : late < 4000) :
    frameOverdue t late ok s = s := by
  unfold frameOverdue
  exact if_neg (by simp [Nat.not_le.mpr hl])

end Sys2Proof.Machine
end

