-- ==== Sys2Proof/Proofs/SwitchSegments.lean ====
section
/-! The switch stream (R69–R73, R145, R312): what a tile that takes 256 periods leaves as it was, and what becomes of the
segment's bits. -/

namespace Sys2Proof.Machine

/-! ### What the samples of a segment touch -/

/-- A register outside the ranging amplifiers of a tile (R82). -/
def OutsideFea (t : Fin 4) (a : Nat) : Prop := a < Reg.feaChCtrl t 0 ∨ Reg.feaChCtrl t 16 ≤ a

/-- Of registers and tiles the ranging amplifiers of one tile alone have been touched; free values may have been taken. -/
structure FrontsOnly (t : Fin 4) (s u : State) : Prop where
  rest : u = { s with regs := u.regs, tiles := u.tiles, free := u.free }
  tile : u.tile t = { s.tile t with fronts := (u.tile t).fronts }
  get : ∀ a, OutsideFea t a → u.get a = s.get a

theorem FrontsOnly.refl (t : Fin 4) (s : State) : FrontsOnly t s s := ⟨rfl, rfl, fun _ _ => rfl⟩

theorem FrontsOnly.trans {t : Fin 4} {s u w : State} (h : FrontsOnly t s u) (k : FrontsOnly t u w) : FrontsOnly t s w :=
  ⟨Eq.trans k.rest (by rw [h.rest]), Eq.trans k.tile (by rw [h.tile]), fun a ha => (k.get a ha).trans (h.get a ha)⟩

theorem FrontsOnly.foldl {t : Fin 4} {f : State → Nat → State} {l : List Nat} (hf : ∀ s, ∀ k ∈ l, FrontsOnly t s (f s k)) :
    ∀ s, FrontsOnly t s (l.foldl f s) := by
  induction l with
  | nil => exact .refl t
  | cons k l ih => exact fun s => (hf s k List.mem_cons_self).trans (ih (fun s j hj => hf s j (List.mem_cons_of_mem _ hj)) _)

theorem State.countClips_frontsOnly (t : Fin 4) (taken : List (List Taken)) (s : State) :
    FrontsOnly t s (s.countClips t taken) := by
  refine FrontsOnly.foldl (fun s k hk => ?_) s
  dsimp only
  split
  · exact .refl t s
  · refine ⟨rfl, rfl, fun a ha => State.get_setFld_ne _ _ _ _ _ _ ?_⟩
    have := List.mem_range.mp hk
    unfold OutsideFea Reg.feaChCtrl at ha
    unfold Reg.feaChCnt
    omega

theorem State.restartHolds_frontsOnly (t : Fin 4) (period : Nat) (taken : List (List Taken)) (s : State) :
    FrontsOnly t s (s.restartHolds t period taken) := by
  refine FrontsOnly.foldl (fun s k _ => ?_) s
  dsimp only
  split
  · exact ⟨rfl, by rw [State.updFront, State.updTile_tile_same], fun _ _ => rfl⟩
  · exact .refl t s

/-! ### What an evaluation reads -/

theorem State.maskAt_congr {s u : State} {t : Fin 4} (h : (u.tile t).masks = (s.tile t).masks) (n : Nat) :
    u.maskAt t n = s.maskAt t n := by
  unfold State.maskAt
  rw [h]

/-- A period's switches go by registers outside the ranging amplifiers (R69, R70, R72). -/
theorem State.evalPeriod_congr {s u : State} {t : Fin 4} (h : ∀ a, OutsideFea t a → u.get a = s.get a) (m : BitVec 16)
    (vs : List Int) (sw : BitVec 32) : u.evalPeriod t m vs sw = s.evalPeriod t m vs sw := by
  have thrReg {a : Nat} (ha : Reg.thrChCfg t 0 ≤ a) : u.get a = s.get a := h a (by
    unfold Reg.thrChCfg at ha
    unfold OutsideFea Reg.feaChCtrl
    omega)
  have ilv : u.ilv t = s.ilv t := by
    funext k
    unfold State.ilv State.ilvMask
    rw [h _ (by unfold OutsideFea Reg.feaChCtrl Reg.slcIlv; omega)]
  have cfg (k : Nat) : u.get (Reg.thrChCfg t k) = s.get (Reg.thrChCfg t k) := thrReg (by unfold Reg.thrChCfg; omega)
  have thr : u.thr t = s.thr t := by
    funext k sw
    unfold State.thr
    rw [thrReg (a := Reg.thrChSet0 t k), thrReg (a := Reg.thrChClr0 t k), thrReg (a := Reg.thrChSet1 t k),
      thrReg (a := Reg.thrChClr1 t k)]
    all_goals
      simp only [Reg.thrChCfg, Reg.thrChSet0, Reg.thrChClr0, Reg.thrChSet1, Reg.thrChClr1]
      omega
  have chan : u.evalChan t = s.evalChan t := by
    funext k v sw
    unfold State.evalChan State.thrEn State.thrPol State.bit
    rw [thr, cfg]
  unfold State.evalPeriod
  rw [ilv, chan]

/-- The periods of a segment are evaluated in turn: the last of the switch states is the fold of `evalPeriod` (R69). -/
theorem State.evalPeriods_switches (s : State) (t : Fin 4) (n : Nat) (l : List (List Int)) : ∀ (k : Nat) (sw : BitVec 32),
    (s.evalPeriods t (n + k) l sw).2 = ((List.range' k l.length).zip l).foldl
      (fun (w : BitVec 32) (x : Nat × List Int) => (s.evalPeriod t (s.maskAt t (n + x.1)) x.2 w).1) sw := by
  induction l with
  | nil => exact fun _ _ => rfl
  | cons vs l ih => exact fun k sw => ih (k + 1) _

/-- The bits of a segment are those of consecutive periods. -/
theorem State.evalPeriods_periods (s : State) (t : Fin 4) (l : List (List Int)) : ∀ (n : Nat) (sw : BitVec 32),
    (s.evalPeriods t n l sw).1.map Prod.fst = List.range' n l.length := by
  induction l with
  | nil => exact fun _ _ => rfl
  | cons vs l ih => exact fun n sw => congrArg (n :: ·) (ih (n + 1) _)

/-! ### TSW outputs and the frame that is filled -/

/-- The TSW outputs of a tile have moved, nothing else (R73). -/
structure TswOnly (t : Fin 4) (s u : State) : Prop where
  rest : u = { s with tiles := u.tiles, tx := u.tx }
  tile : u.tile t = { s.tile t with tsw0 := (u.tile t).tsw0, tsw1 := (u.tile t).tsw1 }

theorem TswOnly.refl (t : Fin 4) (s : State) : TswOnly t s s := ⟨rfl, rfl⟩

theorem TswOnly.trans {t : Fin 4} {s u w : State} (h : TswOnly t s u) (k : TswOnly t u w) : TswOnly t s w :=
  ⟨Eq.trans k.rest (by rw [h.rest]), Eq.trans k.tile (by rw [h.tile])⟩

theorem State.tswShow_tswOnly (t : Fin 4) (s : State) : TswOnly t s (s.tswShow t) := by
  unfold State.tswShow
  dsimp only
  split
  · exact .refl t s
  · exact .trans ⟨rfl, by rw [State.updTile_tile_same]⟩ ⟨rfl, rfl⟩

theorem State.tswTick_tswOnly (t : Fin 4) (w : BitVec 32) (s : State) : TswOnly t s (s.tswTick t w) :=
  .trans ⟨rfl, by rw [State.updTile_tile_same]⟩ (State.tswShow_tswOnly t _)

theorem State.tswTicks_tswOnly (t : Fin 4) (n : Nat) : ∀ (bs : List (Nat × BitVec 32)) (s : State),
    TswOnly t s (s.tswTicks t n bs) := by
  induction n with
  | zero => exact fun _ s => .refl t s
  | succ n ih =>
    intro bs s
    unfold State.tswTicks
    split
    · exact .refl t s
    · exact (State.tswTick_tswOnly t _ s).trans (ih _ _)

/-! ### 256 periods taken -/

/-- A tile has taken the 256 periods from `first` on: its switches stand at `sw` and the `words` have joined the frame that
is filled, both where the tile goes on (R69, R312). -/
structure SegmentTaken (t : Fin 4) (first : Nat) (sw : BitVec 32) (words : List Sample) (s u : State) : Prop where
  swPeriod : (u.tile t).swPeriod = first + 256
  switches : (s.tilePowered t = true ∨ s.maskAt t (first + 256) ≠ 0) → (u.tile t).sw = sw
  building : (s.tilePowered t = true ∨ s.maskAt t (first + 256) ≠ 0) → (first + 256) % framePeriods ≠ 0 →
    (u.tile t).building = (s.tile t).building ++ words
  sbx : u.sbx = s.sbx
  get : ∀ a, OutsideFea t a → u.get a = s.get a

theorem State.fillFrame_tile (t : Fin 4) (first : Nat) (words : List Sample) (s : State) :
    ((s.fillFrame t first words).tile t).swPeriod = first + 256 ∧ ((s.fillFrame t first words).tile t).sw = (s.tile t).sw
      ∧ ((s.fillFrame t first words).tile t).masks = (s.tile t).masks
      ∧ ((first + 256) % framePeriods ≠ 0 →
        ((s.fillFrame t first words).tile t).building = (s.tile t).building ++ words) := by
  unfold State.fillFrame
  rw [State.updTile_tile_same]
  dsimp only
  split
  · exact ⟨rfl, rfl, rfl, fun _ => rfl⟩
  · next h => exact ⟨rfl, rfl, rfl, fun hn => absurd (bne_iff_ne.mpr hn) h⟩

/-- A tile that has sampled its last period loses its switches and its frame, but not its place (R353, R416). -/
theorem State.tileGone_kept (t : Fin 4) (s : State) :
    ((s.tileGone t).tile t).swPeriod = (s.tile t).swPeriod ∧ (s.tileGone t).sbx = s.sbx ∧ (s.tileGone t).regs = s.regs
      ∧ (s.tileGone t).variant = s.variant ∧ (s.tileGone t).straps = s.straps
      ∧ (s.tileRuns t = true → s.tileGone t = s) := by
  unfold State.tileGone
  split
  · exact ⟨rfl, rfl, rfl, rfl, rfl, fun _ => rfl⟩
  · next h =>
    refine ⟨?_, ?_, ?_, ?_, ?_, fun hr => absurd hr h⟩
    · rw [(State.tswShow_tswOnly t _).tile, State.updTile_tile_same]
    all_goals rw [(State.tswShow_tswOnly t _).rest]; rfl

/-- Free values, clips and hold counts after the samples of a segment (R64, R66). -/
def State.countSamples (t : Fin 4) (first : Nat) (taken : List (List Taken)) (s : State) : State :=
  ({ s with free := s.free + 5120 }.countClips t taken).restartHolds t first taken

theorem State.countSamples_frontsOnly (t : Fin 4) (first : Nat) (taken : List (List Taken)) (s : State) :
    FrontsOnly t s (s.countSamples t first taken) :=
  .trans (.trans (u := { s with free := s.free + 5120 }) ⟨rfl, rfl, fun _ _ => rfl⟩ (State.countClips_frontsOnly ..))
    (State.restartHolds_frontsOnly ..)

/-- The evaluation of a segment's samples: the reported bits by period, and the switch states after them. -/
def State.segmentEval (s : State) (t : Fin 4) (first : Nat) (levels : List (List Int)) :
    List (Nat × BitVec 32) × BitVec 32 :=
  let taken := s.takeSegment t first levels
  (s.countSamples t first taken).evalPeriods t first (taken.map fun (p : List Taken) => p.map fun (y : Taken) => y.value)
    ((s.countSamples t first taken).tile t).sw

/-- The state in which a tile has taken a segment's samples, before what becomes of its bits. -/
def State.segmentState (t : Fin 4) (first : Nat) (levels : List (List Int)) (s : State) : State :=
  let taken := s.takeSegment t first levels
  let r := s.segmentEval t first levels
  ((((s.countSamples t first taken).updTile t fun x => { x with sw := r.2 }).tswTicks t 64 r.1).fillFrame t first
    (taken.flatMap fun (p : List Taken) => p.map fun (y : Taken) => y.word)).tileGone t

theorem State.segmentState_taken (t : Fin 4) (first : Nat) (levels : List (List Int)) (s : State) :
    SegmentTaken t first (s.segmentEval t first levels).2
      ((s.takeSegment t first levels).flatMap fun (p : List Taken) => p.map fun (y : Taken) => y.word) s
      (s.segmentState t first levels) := by
  unfold State.segmentState
  dsimp only
  generalize s.segmentEval t first levels = r
  generalize s.takeSegment t first levels = taken
  have sampled := s.countSamples_frontsOnly t first taken
  generalize s.countSamples t first taken = a at sampled ⊢
  have shown := State.tswTicks_tswOnly t 64 r.1 (a.updTile t fun x => { x with sw := r.2 })
  have tile : (a.updTile t fun x => { x with sw := r.2 }).tile t = { s.tile t with sw := r.2, fronts := (a.tile t).fronts } := by
    rw [State.updTile_tile_same, sampled.tile]
  generalize hb : (a.updTile t fun x => { x with sw := r.2 }).tswTicks t 64 r.1 = b at shown ⊢
  obtain ⟨period, sw, masks, building⟩ := b.fillFrame_tile t first
    (taken.flatMap fun (p : List Taken) => p.map fun (y : Taken) => y.word)
  generalize hc : b.fillFrame t first (taken.flatMap fun (p : List Taken) => p.map fun (y : Taken) => y.word) = c at *
  have rest : c = { s with regs := a.regs, tiles := c.tiles, tx := c.tx, free := a.free } := by
    rw [← hc, State.fillFrame, State.updTile, shown.rest, State.updTile, sampled.rest]
  obtain ⟨gonePeriod, goneSbx, goneRegs, goneVariant, goneStraps, stays⟩ := c.tileGone_kept t
  have goesOn (h : s.tilePowered t = true ∨ s.maskAt t (first + 256) ≠ 0) : c.tileGone t = c := by
    refine stays ?_
    have powered : c.tilePowered t = s.tilePowered t := by
      rw [rest]
      rfl
    have mask : c.maskAt t (first + 256) = s.maskAt t (first + 256) :=
      State.maskAt_congr (by rw [masks, shown.tile, tile]) _
    rw [State.tileRuns, powered, period, mask]
    rcases h with h | h
    · rw [h, Bool.true_or]
    · rw [bne_iff_ne.mpr h, Bool.or_true]
  refine ⟨gonePeriod.trans period, fun h => ?_, fun h hn => ?_, goneSbx.trans (by rw [rest]), fun k hk => ?_⟩
  · rw [goesOn h, sw, shown.tile, tile]
  · rw [goesOn h, building hn, shown.tile, tile]
  · rw [← sampled.get k hk, State.get, State.get, goneRegs, goneVariant, goneStraps, rest, sampled.rest]

/-- The switch states after a segment: every period in turn, with the samples that the pins' levels give (R69). -/
theorem State.segmentEval_switches (t : Fin 4) (first : Nat) (levels : List (List Int)) (s : State) :
    (s.segmentEval t first levels).2
      = (withIdx ((s.takeSegment t first levels).map fun (p : List Taken) => p.map fun (y : Taken) => y.value)).foldl
        (fun (w : BitVec 32) (x : Nat × List Int) => (s.evalPeriod t (s.maskAt t (first + x.1)) x.2 w).1) (s.tile t).sw := by
  unfold State.segmentEval
  dsimp only
  generalize s.takeSegment t first levels = taken
  have sampled := s.countSamples_frontsOnly t first taken
  generalize s.countSamples t first taken = a at sampled ⊢
  have masks : a.maskAt t = s.maskAt t := funext (State.maskAt_congr (by rw [sampled.tile]))
  have switches : (a.tile t).sw = (s.tile t).sw := by rw [sampled.tile]
  have folded := a.evalPeriods_switches t first (taken.map fun (p : List Taken) => p.map fun (y : Taken) => y.value) 0
    (a.tile t).sw
  simp only [State.evalPeriod_congr sampled.get, masks] at folded
  rw [withIdx, List.range_eq_range', ← switches, ← folded, Nat.add_zero]

/-! ### What becomes of the bits -/

/-- The bits that have come join the buffer from the period on that the Signal Box evaluates next; without them the 256
periods are lost (R145, R312). -/
def State.settleSegment (t : Fin 4) (first : Nat) (bits_ : Option (List (Nat × BitVec 32))) (s : State) : State :=
  match bits_ with
  | some l =>
    { s with sbx := { s.sbx with swBuf := s.sbx.swBuf ++ (l.filter fun (x : Nat × BitVec 32) =>
      decide (s.sbx.period ≤ x.1)).map fun (x : Nat × BitVec 32) => (t.val, x.1, x.2) } }
  | none => (s.loseSwitches t first 256).bump (Reg.lnkTlSwLost t)

/-- The bits that a segment brings: none while the link trains, where it does not come, or where its CRC fails (R312,
R313). -/
def State.segmentBits (s : State) (t : Fin 4) (first : Nat) (levels : List (List Int)) (link : Option (List (Nat × Byte))) :
    Option (List (Nat × BitVec 32)) :=
  (if s.tileTraining t then none else link).bind (segmentRead first (s.segmentEval t first levels).1)

theorem State.segmentBits_whole {s : State} {t : Fin 4} (first : Nat) (levels : List (List Int))
    (h : s.tileTraining t = false) :
    s.segmentBits t first levels (some []) = some (s.segmentEval t first levels).1 := by
  rw [State.segmentBits, h]
  rfl

theorem State.segmentBits_none {s : State} {t : Fin 4} {link : Option (List (Nat × Byte))} (first : Nat)
    (levels : List (List Int)) (h : s.tileTraining t = true ∨ link = none) : s.segmentBits t first levels link = none := by
  unfold State.segmentBits
  rcases h with h | h
  · rw [h]
    rfl
  · rw [h, ite_self]
    rfl

/-- A register below the tiles' own stays as a segment is taken. -/
theorem SegmentTaken.get_low {t : Fin 4} {first : Nat} {sw : BitVec 32} {words : List Sample} {s u : State}
    (h : SegmentTaken t first sw words s u) {a : Nat} (ha : a < 0x100000) : u.get a = s.get a :=
  h.get a (.inl (by unfold Reg.feaChCtrl; omega))

/-- The registers of a tile's link lie below the tiles' own. -/
theorem lnkTl_low (t : Fin 4) : Reg.lnkTlStat t < 0x100000 ∧ Reg.lnkTlSwLost t < 0x100000 := by
  have := t.isLt
  unfold Reg.lnkTlStat Reg.lnkTlSwLost
  omega

/-- The next segment of a tile that samples is taken once its periods are over. -/
theorem switchSegmentReceived_due {t : Fin 4} {s : State} (levels : List (List Int)) (link : Option (List (Nat × Byte)))
    (hr : s.tilePowered t = true ∨ s.maskAt t (s.tile t).swPeriod ≠ 0) (hp : (s.tile t).swPeriod + 256 ≤ s.samplePos)
    (hs : s.modes.sampling = true) (hl : ∀ l, s.modes.last = some l → (s.tile t).swPeriod < l) :
    switchSegmentReceived t (s.tile t).swPeriod levels link s
      = (s.segmentState t (s.tile t).swPeriod levels).settleSegment t (s.tile t).swPeriod
        (s.segmentBits t (s.tile t).swPeriod levels link) := by
  have runs : (s.tilePowered t || s.maskAt t (s.tile t).swPeriod != 0) = true := by
    rcases hr with h | h
    · rw [h, Bool.true_or]
    · rw [bne_iff_ne.mpr h, Bool.or_true]
  have training : s.tileTraining t = (s.segmentState t (s.tile t).swPeriod levels).tileTraining t := by
    unfold State.tileTraining State.bit
    rw [(s.segmentState_taken t (s.tile t).swPeriod levels).get_low (lnkTl_low t).1]
  unfold switchSegmentReceived State.segmentBits
  rw [bne_self_eq_false, runs, decide_eq_false (Nat.not_lt.mpr hp), training]
  cases hm : s.modes.last with
  | none =>
    simp only [hs]
    rfl
  | some l =>
    simp only [decide_eq_false (Nat.not_le.mpr (hl l hm))]
    rfl

/-- The bits of a segment from one period on are those of as many of its 256 periods. -/
theorem State.segmentEval_count (t : Fin 4) (first from_ : Nat) (levels : List (List Int)) (s : State) :
    ((s.segmentEval t first levels).1.filter fun (x : Nat × BitVec 32) => decide (from_ ≤ x.1)).length
      = ((List.range levels.length).filter fun i => decide (from_ ≤ first + i)).length := by
  have periods : (s.segmentEval t first levels).1.map Prod.fst = (List.range levels.length).map (first + ·) := by
    rw [State.segmentEval, State.evalPeriods_periods, List.range'_eq_map_range]
    simp [State.takeSegment, withIdx]
  have count := congrArg (fun l : List Nat => (l.filter fun n => decide (from_ ≤ n)).length) periods
  simp only [List.filter_map, List.length_map] at count
  exact count

end Sys2Proof.Machine
end

