-- ==== Sys2Proof/Proofs/SampleTransport.lean ====
section
/-! Sample transport (R26–R30, R69, R145, R310–R312): lost switch streams and look-back samples, and the statement. -/

namespace Sys2Proof.Machine

/-! ### Lost switches (R145) -/

theorem State.counted_bumpBy (s : State) (a n : Nat) : Counted s (s.bumpBy a n) a n := by
  have h := State.fld_bumpFld_same s a 31 0 n (by decide)
  simp only [State.fld, bits_31_0] at h
  exact h

theorem State.get_bumpBy_ne (s : State) (a n k : Nat) (h : k ≠ a) : (s.bumpBy a n).get k = s.get k :=
  State.get_bumpFld_ne _ _ _ _ _ _ h

/-- What becomes of a segment's bits leaves the tile as it is. -/
theorem State.settleSegment_tile (t : Fin 4) (first : Nat) (b : Option (List (Nat × BitVec 32))) (s : State) :
    (s.settleSegment t first b).tile t = s.tile t := by
  cases b <;> rfl

/-- A lost segment: its periods and the segment are counted, and no bits come (R145, R312). -/
theorem State.settleSegment_lost (t : Fin 4) (first : Nat) (s : State) :
    (s.settleSegment t first none).sbx.swBuf = s.sbx.swBuf
      ∧ Counted s (s.settleSegment t first none) Reg.sbxSwLoss 256
      ∧ Counted s (s.settleSegment t first none) (Reg.lnkTlSwLost t) 1
      ∧ ∀ x ∈ (s.settleSegment t first none).bcp.sessions, x.atn.getLsbD Atn.link = true := by
  have apart : Reg.sbxSwLoss ≠ Reg.lnkTlSwLost t := by
    have := t.isLt
    unfold Reg.sbxSwLoss Reg.lnkTlSwLost
    omega
  unfold State.settleSegment State.loseSwitches
  refine ⟨rfl, ?_, ?_, State.attend_sets _ _ (by decide)⟩
  · exact (State.counted_bumpBy _ _ _).congr rfl (State.get_bump_ne _ _ _ apart)
  · exact (State.counted_bump _ _).congr (State.get_bumpBy_ne _ _ _ _ apart.symm).symm rfl

/-! ### Look-back samples that age out (R30) -/

/-- The span of a window's channel that an age-out loses to it: first and last newly aged period. -/
def State.agedSpan (s : State) (w : Win) (first last c : Nat) : Option (Nat × Nat × Nat × Nat) :=
  match (s.newlyAged w first last c).head?, (s.newlyAged w first last c).getLast? with
  | some a, some b => some (c, a, b, 1)
  | _, _ => none

/-- A window with the lost spans of an age-out that names it. -/
def State.markAged (s : State) (id : WinId) (first last : Nat) (w : Win) : Win :=
  if w.id = id then { w with lost := w.lost ++ w.chanList.filterMap fun (c : Nat) => s.agedSpan w first last c } else w

/-- The periods that an age-out loses to the windows it names, each with its channel. -/
def State.agedCount (s : State) (id : WinId) (first last : Nat) : Nat :=
  (((s.sbx.hits ++ (s.sbx.progs.toList.filterMap fun (x : Prog) => x.win) ++ s.sbx.closing).filter
    fun (w : Win) => w.id = id).map fun (w : Win) =>
      (w.chanList.map fun (c : Nat) => (s.newlyAged w first last c).length).sum).sum

theorem lookbackAgeOut_eq (id : WinId) (first last : Nat) (s : State) :
    lookbackAgeOut id first last s = { s.bumpBy Reg.queLostPeriods (s.agedCount id first last) with
      sbx := { s.sbx with
        hits := s.sbx.hits.map (s.markAged id first last)
        closing := s.sbx.closing.map (s.markAged id first last)
        progs := s.sbx.progs.map fun (x : Prog) => { x with win := x.win.map (s.markAged id first last) } } } := rfl

theorem State.markAged_other {s : State} {id : WinId} {first last : Nat} {w : Win} (h : w.id ≠ id) :
    s.markAged id first last w = w := if_neg h

theorem State.markAged_id (s : State) (id : WinId) (first last : Nat) (w : Win) :
    (s.markAged id first last w).id = w.id ∧ (s.markAged id first last w).first = w.first
      ∧ (s.markAged id first last w).chans = w.chans := by
  unfold State.markAged
  split <;> exact ⟨rfl, rfl, rfl⟩

/-- Newly aged periods come in rising order. -/
theorem State.newlyAged_sorted (s : State) (w : Win) (first last c : Nat) :
    (s.newlyAged w first last c).Pairwise (· ≤ ·) := by
  unfold State.newlyAged
  refine List.Pairwise.filter _ (List.pairwise_map.mpr ?_)
  exact List.pairwise_le_range.imp fun h => Nat.add_le_add_left h _

/-- The span of a channel covers each of its newly aged periods. -/
theorem State.agedSpan_covers {s : State} {w : Win} {first last c n : Nat} (h : n ∈ s.newlyAged w first last c) :
    ∃ l, s.agedSpan w first last c = some l ∧ l.1 = c ∧ l.2.1 ≤ n ∧ n ≤ l.2.2.1 := by
  have sorted := s.newlyAged_sorted w first last c
  have some_ : s.newlyAged w first last c ≠ [] := List.ne_nil_of_mem h
  refine ⟨(c, (s.newlyAged w first last c).head some_, (s.newlyAged w first last c).getLast some_, 1), ?_, rfl,
    sorted.rel_head h, sorted.rel_getLast h⟩
  unfold State.agedSpan
  rw [List.head?_eq_some_head some_, List.getLast?_eq_some_getLast some_]

/-- What the marking of a named window adds covers every newly aged period of its channels. -/
theorem State.markAged_covers (s : State) (first last : Nat) (y : Win) :
    ∃ more, s.markAged y.id first last y = { y with lost := y.lost ++ more }
      ∧ ∀ c ∈ y.chanList, ∀ n ∈ s.newlyAged y first last c, ∃ l ∈ (s.markAged y.id first last y).lost,
        l.1 = c ∧ l.2.1 ≤ n ∧ n ≤ l.2.2.1 := by
  have marked : s.markAged y.id first last y
      = { y with lost := y.lost ++ y.chanList.filterMap fun (c : Nat) => s.agedSpan y first last c } := if_pos rfl
  refine ⟨_, marked, fun c hc n hn => ?_⟩
  obtain ⟨l, hl, covers⟩ := State.agedSpan_covers hn
  refine ⟨l, ?_, covers⟩
  rw [marked]
  exact List.mem_append_right _ (List.mem_filterMap.mpr ⟨c, hc, hl⟩)

/-! ### The statement -/

theorem run_next {f : State → State} {s u : State} (h : f s = u) : run f s = .next (State.keeping s u) := by
  rw [run, h]

/-- Settles O47: a frame is taken, replayed or lost by what its checks show, a segment's 256 periods are evaluated before
what becomes of its bits, and an age-out marks the windows that it names. -/
theorem sampleTransportCompletes : Obligations.SampleTransportCompletes := by
  unfold Obligations.SampleTransportCompletes
  refine ⟨?whole, ?damaged, ?old, ?overdue, ?segment, ?agedOut, ?early⟩
  case whole =>
    intro s t errs oks ok ws ht hs hw hp he
    have received := sampleFrameReceived_expected errs 0 oks ok ht hs hw hp
    rw [State.checkFrame_whole he] at received
    obtain ⟨taken, kept⟩ := s.takeFrame_taken t ws (s.chFlags t (s.tile t).framePeriod) false
    obtain ⟨f, newest, first, words, lost, gap⟩ := taken.newest
    obtain ⟨-, -, -, -, -, replays, losses⟩ := lnkTl_apart t (l := 0) (by decide)
    exact ⟨_, f, run_next received, taken.frameNo, taken.framePeriod, newest, first, words, lost, gap, kept _ replays,
      kept _ losses⟩
  case damaged =>
    intro s t errs dead lanes oks ok ws o ht hs hw hp he ho hl hd
    have received := sampleFrameReceived_expected errs dead oks ok ht hs hw hp
    subst ho
    rw [State.checkFrame_damaged he hl hd] at received
    obtain ⟨settled, counted⟩ := State.replayFrame_settled (lanes := lanes) (ok := ok) hw ht
    obtain ⟨f, newest, first, words, lost, -⟩ := settled.taken.newest
    refine ⟨_, f, run_next received, settled.taken.frameNo, settled.taken.framePeriod, counted, settled.replays,
      settled.lost, newest, first, lost, ?_, settled.attends⟩
    rw [words]
    cases ok <;> rfl
  case old =>
    intro s t no errs dead oks ok h
    exact run_next (sampleFrameReceived_old errs dead oks ok h)
  case overdue =>
    intro s t late ok ws hl ht hs hw hp hd
    obtain ⟨settled, -⟩ := State.replayFrame_settled (lanes := 0) (ok := ok) hw ht
    obtain ⟨f, newest, first, words, lost, -⟩ := settled.taken.newest
    refine ⟨_, f, run_next (frameOverdue_due ok hl hs hp hd), settled.taken.frameNo, settled.replays, settled.lost,
      newest, first, lost, ?_⟩
    rw [words]
    cases ok <;> rfl
  case segment =>
    intro s t levels link first values hr hp hs hl hn hf hv
    subst hf
    have received := switchSegmentReceived_due levels link hr hp hs hl
    have taken := s.segmentState_taken t (s.tile t).swPeriod levels
    have switches := s.segmentEval_switches t (s.tile t).swPeriod levels
    have count := s.segmentEval_count t (s.tile t).swPeriod s.sbx.period levels
    rw [← hv] at switches
    rw [hn] at count
    have loss := taken.get_low (a := Reg.sbxSwLoss) (by decide)
    have lost := taken.get_low (lnkTl_low t).2
    generalize s.segmentState t (s.tile t).swPeriod levels = u at *
    refine ⟨_, run_next received, ?period, ?switches, ?building, ?delivered, ?lost⟩
    case period => exact (congrArg TileState.swPeriod (State.settleSegment_tile ..)).trans taken.swPeriod
    case switches =>
      exact fun h => (congrArg TileState.sw (State.settleSegment_tile ..)).trans ((taken.switches h).trans switches)
    case building =>
      exact fun h hb => (congrArg TileState.building (State.settleSegment_tile ..)).trans (taken.building h hb)
    case delivered =>
      intro ht whole
      rw [whole, State.segmentBits_whole _ _ ht]
      refine ⟨?_, loss, lost⟩
      rw [← count, ← taken.sbx]
      simp [State.settleSegment]
    case lost =>
      intro h
      rw [State.segmentBits_none _ _ h]
      obtain ⟨buffer, periods, segments, attends⟩ := u.settleSegment_lost t (s.tile t).swPeriod
      exact ⟨buffer.trans (congrArg Sbx.swBuf taken.sbx), periods.congr loss.symm rfl, segments.congr lost.symm rfl,
        attends⟩
  case agedOut =>
    intro s id a b
    refine ⟨_, run_next (lookbackAgeOut_eq id a b s), fun k hk => State.get_bumpBy_ne _ _ _ _ (mt List.mem_singleton.mpr hk),
      State.counted_bumpBy s _ _, ?_, ?_, ?_⟩
    · rw [State.keeping_sbx, List.map_map]
      refine List.map_congr_left fun w _ => ?_
      obtain ⟨hid, hfirst, hchans⟩ := s.markAged_id id a b w
      exact Prod.ext hid (Prod.ext hfirst hchans)
    · exact fun w hw hn => List.mem_map.mpr ⟨w, hw, State.markAged_other hn⟩
    · intro w hw hi
      obtain ⟨y, hy, rfl⟩ := List.mem_map.mp hw
      have named : y.id = id := (s.markAged_id id a b y).1.symm.trans hi
      subst named
      obtain ⟨more, marked, covers⟩ := s.markAged_covers a b y
      exact ⟨y, hy, more, marked, covers⟩
  case early =>
    intro s t late ok h
    exact run_next (frameOverdue_early ok h)

end Sys2Proof.Machine
end

