-- ==== Sys2Proof/Proofs/TileRetries.lean ====
section
/-! A tile that is retried (R353) in a state that no step reaches: the shed steps take another tile down, and the dwell that
this abandons is one on a slice that does not exist. -/

namespace Sys2Proof.Machine

/-- A dwell on slice 280 of a tile, where a tile has slices 0 to 16 (R87): that slice's second trim register would be
SLC_CHEN of the next tile. -/
def strayDwell : Dwell :=
  { slice := 280, start := 0, calAt := 0, trial := 0, retry := false, standing := false, calibrated := false,
    returned := false, deferred := false, old := ⟨0, 1, 0, 0⟩, new_ := Trims.reset, step := (0, 0, 0) }

/-- Standby with tile 0 powered and tile 1 lost. Tile 0 has channel 0 enabled, tile 1 channels 0 and 1, and the shed step in
force takes channel 0 of both: tile 0 is to lose its power, tile 1 keeps channel 1 to sample. -/
def strayState : State :=
  { State.reset with
    modes := { Modes.reset with inner := .standby, base := .standby, tiles := 1 }
    regs := [(Reg.pwrDegraded, 0x24), (Reg.pwrShedChLo, 0xFFFF0000), (Reg.slcChen 0, 1), (Reg.slcChen 1, 3)]
    tiles := upd State.reset.tiles 0 fun x => { x with relief := { x.relief with dwell := some strayDwell } }
    tt := { Timetable.reset with steps := [(3, 0x10001, false)] } }

theorem strayState_lost : strayState.bit Reg.pwrDegraded (4 + (1 : Tile).val) = true := by decide +kernel

theorem strayState_shed : ((strayState.shedChans >>> (16 * (1 : Tile).val)).setWidth 16 : BitVec 16) = 0xFFFF := by
  decide +kernel

theorem strayState_stepsShed : ((strayState.stepsShed >>> (16 * (1 : Tile).val)).setWidth 16 : BitVec 16) = 1 := by
  decide +kernel

theorem strayState_tilesMode : strayState.tilesMode = true := by decide +kernel

theorem strayState_due : (strayState.tile 1).retryAt ≤ strayState.tim.now := by decide +kernel

theorem strayState_enabled : strayState.enabledMask 1 = 3 := by decide +kernel

/-- As tile 0 goes down, tile 1 loses the enable of channel 1, and so all that it could sample. -/
theorem tileRetry_strayState_unpowered : (tileRetry 1 true strayState).tilePowered 1 = false := by decide +kernel

theorem exec_tileRetry (t : Tile) (trained : Bool) (s : State) :
    exec (.tileRetry t trained) s = .next (State.keeping s (tileRetry t trained s)) := rfl

theorem State.keeping_tilePowered (old s : State) (t : Tile) : (State.keeping old s).tilePowered t = s.tilePowered t := rfl

/-- Refutes O17: its last clause, of a retried tile that trains and is powered where the shed steps leave it a channel, takes
every state, also `strayState` with a dwell on slice 280. Taking tile 0 down puts that slice's old trims back, into
SLC_CHEN of tile 1, and tile 1 then has no channel left. No step from the reset state begins such a dwell. -/
theorem not_tileLinksAreLostAndRegained : ¬ Obligations.TileLinksAreLostAndRegained := by
  unfold Obligations.TileLinksAreLostAndRegained
  rintro ⟨-, -, -, -, retried⟩
  obtain ⟨u, hu, -, -, powered, -⟩ := retried strayState 1 1 strayState_lost strayState_due
    strayState_tilesMode strayState_stepsShed.symm strayState_shed
  rw [exec_tileRetry] at hu
  have up := powered (by decide) (.inr (by rw [strayState_enabled]; decide))
  rw [← Host.Outcome.next.inj hu, State.keeping_tilePowered, tileRetry_strayState_unpowered] at up
  exact Bool.false_ne_true up

end Sys2Proof.Machine
end

