-- ==== Sys2Proof/Proofs/ThresholdSwitches.lean ====
section
/-! Threshold switches (R69–R72): what one evaluation of a period makes of each switch. -/

namespace Sys2Proof.Machine

/-! ### Words bit by bit -/

theorem getLsbD_bitOf (w i j : Nat) (h : i < w) : (bitOf w i).getLsbD j = decide (j = i) := by
  rw [bitOf, BitVec.getLsbD_ofNat, Nat.testBit_two_pow]
  by_cases e : i = j
  · simp [e, e ▸ h]
  · simp [e, Ne.symm e]

/-- One bit of a word put on or off. -/
def putSwitch (n : Nat) (on : Bool) (w : BitVec 32) : BitVec 32 :=
  if on then w ||| bitOf 32 n else w &&& ~~~(bitOf 32 n)

theorem getLsbD_putSwitch {n m : Nat} (on : Bool) (w : BitVec 32) (hn : n < 32) (hm : m < 32) :
    (putSwitch n on w).getLsbD m = if m = n then on else w.getLsbD m := by
  have bit := getLsbD_bitOf 32 n m hn
  unfold putSwitch
  cases on <;> by_cases e : m = n <;> simp only [e, decide_true, decide_false] at bit <;>
    simp [BitVec.getLsbD_and, BitVec.getLsbD_or, -BitVec.getLsbD_eq_getElem, bit, e, hm, hn]

/-! ### A fold that comes to an element once -/

section
variable {σ α β : Type} {f : σ → α → σ} (obs : σ → β)

/-- A fold whose steps do not touch what is observed of a state. -/
theorem foldl_unobserved {l : List α} (h : ∀ y ∈ l, ∀ s, obs (f s y) = obs s) (s : σ) : obs (l.foldl f s) = obs s :=
  List.foldlRecOn (motive := fun u => obs u = obs s) l f rfl fun u hu y hy => (h y hy u).trans hu

/-- Where only `x` touches what is observed of a state, and comes once, a fold ends as its step at `x` leaves it. -/
theorem foldl_observe (x : α) {l : List α} (others : ∀ y ∈ l, y ≠ x → ∀ s, obs (f s y) = obs s) (once : l.Nodup)
    (hx : x ∈ l) (s : σ) : ∃ u, obs u = obs s ∧ obs (l.foldl f s) = obs (f u x) := by
  obtain ⟨before, after, rfl⟩ := List.append_of_mem hx
  obtain ⟨-, tail, apart⟩ := List.nodup_append.mp once
  have notAfter : x ∉ after := (List.nodup_cons.mp tail).1
  refine ⟨before.foldl f s, foldl_unobserved obs (fun y hy => others y (by simp [hy]) ?_) s, ?_⟩
  · exact apart y hy x (by simp)
  · rw [List.foldl_append, List.foldl_cons]
    exact foldl_unobserved obs (fun y hy => others y (by simp [hy]) fun e => notAfter (e ▸ hy)) _

end

/-! ### One channel -/

/-- The bit of a switch after a value: as R69 and R70 give it, off where the switch is not enabled. -/
def State.switchAfter (s : State) (t : Fin 4) (k i : Nat) (v : Int) (on : Bool) : Bool :=
  s.thrEn t k i && switchNext (s.thrPol t k i) (s.thr t k i).1 (s.thr t k i).2 v on

theorem State.evalChan_eq (s : State) (t : Fin 4) (k : Nat) (v : Int) (sw : BitVec 32) :
    s.evalChan t k v sw = putSwitch (2 * k + 1) (s.switchAfter t k 1 v (sw.getLsbD (2 * k + 1)))
      (putSwitch (2 * k) (s.switchAfter t k 0 v (sw.getLsbD (2 * k))) sw) := by
  simp only [State.evalChan, State.switchAfter, putSwitch, List.foldl_cons, List.foldl_nil, Nat.add_zero]
  rfl

/-- A value moves the two switches of its channel. -/
theorem State.evalChan_own (s : State) (t : Fin 4) {k : Nat} (i : Fin 2) (v : Int) (sw : BitVec 32) (hk : k < 16) :
    (s.evalChan t k v sw).getLsbD (2 * k + i) = s.switchAfter t k i v (sw.getLsbD (2 * k + i)) := by
  rw [State.evalChan_eq, getLsbD_putSwitch _ _ (by omega) (by omega)]
  match i with
  | 0 => rw [if_neg (by simp), getLsbD_putSwitch _ _ (by omega) (by simp; omega)]; exact if_pos rfl
  | 1 => exact if_pos rfl

/-- It moves no other switch. -/
theorem State.evalChan_other (s : State) (t : Fin 4) {j n : Nat} (v : Int) (sw : BitVec 32) (hj : j < 16) (hn : n < 32)
    (h : n / 2 ≠ j) : (s.evalChan t j v sw).getLsbD n = sw.getLsbD n := by
  rw [State.evalChan_eq, getLsbD_putSwitch _ _ (by omega) hn, if_neg (by omega), getLsbD_putSwitch _ _ (by omega) hn,
    if_neg (by omega)]

/-! ### One period -/

/-- The bits of a channel's two switches. -/
def pairMask (k : Nat) : BitVec 32 := bitOf 32 (2 * k) ||| bitOf 32 (2 * k + 1)

theorem getLsbD_pairMask {k : Nat} (n : Nat) (hk : k < 16) : (pairMask k).getLsbD n = decide (n / 2 = k) := by
  rw [pairMask, BitVec.getLsbD_or, getLsbD_bitOf _ _ _ (by omega), getLsbD_bitOf _ _ _ (by omega), ← Bool.decide_or]
  exact decide_eq_decide.mpr (by omega)

/-- The part of a slot's channel in a period: switch states and reported bits after it. -/
def State.evalSlot (s : State) (t : Fin 4) (mask : BitVec 16) (vs : List Int) (acc : BitVec 32 × BitVec 32) (k : Nat) :
    BitVec 32 × BitVec 32 :=
  if !mask.getLsbD (if s.ilv t k then k / 2 * 2 else k) then acc
  else if s.ilv t k then
    if k % 2 = 0 then
      (s.evalChan t k (vs.getD (k + 1) 0) (s.evalChan t k (vs.getD k 0) acc.1),
        acc.2 ||| ((s.evalChan t k (vs.getD k 0) acc.1
          ||| s.evalChan t k (vs.getD (k + 1) 0) (s.evalChan t k (vs.getD k 0) acc.1)) &&& pairMask k))
    else acc
  else (s.evalChan t k (vs.getD k 0) acc.1, acc.2 ||| (s.evalChan t k (vs.getD k 0) acc.1 &&& pairMask k))

theorem State.evalPeriod_eq (s : State) (t : Fin 4) (mask : BitVec 16) (vs : List Int) (sw : BitVec 32) :
    s.evalPeriod t mask vs sw = (List.range 16).foldl (s.evalSlot t mask vs) (sw, 0) := rfl

/-- What a period's evaluation holds of one switch: its state and its reported bit. -/
def switchOf (n : Nat) (acc : BitVec 32 × BitVec 32) : Bool × Bool := (acc.1.getLsbD n, acc.2.getLsbD n)

/-- A slot leaves the switches of the other channels alone. -/
theorem State.evalSlot_other (s : State) (t : Fin 4) (mask : BitVec 16) (vs : List Int) (acc : BitVec 32 × BitVec 32)
    {j n : Nat} (hj : j < 16) (hn : n < 32) (h : n / 2 ≠ j) : switchOf n (s.evalSlot t mask vs acc j) = switchOf n acc := by
  have unreported (w : BitVec 32) : (acc.2 ||| (w &&& pairMask j)).getLsbD n = acc.2.getLsbD n := by
    rw [BitVec.getLsbD_or, BitVec.getLsbD_and, getLsbD_pairMask n hj, decide_eq_false h, Bool.and_false, Bool.or_false]
  unfold State.evalSlot switchOf
  split_ifs
  · rfl
  · simp only [s.evalChan_other t _ _ hj hn h, unreported]
  · rfl
  · rfl
  · simp only [s.evalChan_other t _ _ hj hn h, unreported]

/-- A switch of a period is as its own channel's slot leaves it. -/
theorem State.evalPeriod_switch (s : State) (t : Fin 4) (mask : BitVec 16) (vs : List Int) (sw : BitVec 32) {k n : Nat}
    (hk : k < 16) (hn : n / 2 = k) :
    ∃ acc, switchOf n acc = (sw.getLsbD n, false)
      ∧ switchOf n (s.evalPeriod t mask vs sw) = switchOf n (s.evalSlot t mask vs acc k) := by
  obtain ⟨acc, start, last⟩ := foldl_observe (f := s.evalSlot t mask vs) (switchOf n) k (l := List.range 16)
    (fun j hj h acc => s.evalSlot_other t mask vs acc (List.mem_range.mp hj) (by omega) (by omega)) List.nodup_range
    (List.mem_range.mpr hk) (sw, 0)
  exact ⟨acc, start.trans (by simp [switchOf]), s.evalPeriod_eq t mask vs sw ▸ last⟩

/-- A channel's slot reports its own switch, which has not been reported before. -/
theorem getLsbD_report {k n : Nat} {reported : BitVec 32} (w : BitVec 32) (hk : k < 16) (hn : n / 2 = k)
    (h : reported.getLsbD n = false) : (reported ||| (w &&& pairMask k)).getLsbD n = w.getLsbD n := by
  rw [BitVec.getLsbD_or, BitVec.getLsbD_and, getLsbD_pairMask n hk, decide_eq_true hn, Bool.and_true, h, Bool.false_or]

section
variable {s : State} {t : Fin 4} {mask : BitVec 16} {k : Chan} {n : Nat} {acc : BitVec 32 × BitVec 32} {on : Bool}
  (i : Fin 2) (vs : List Int)

/-- A channel by itself takes one sample and reports its switch. -/
theorem State.evalSlot_single (hn : n = 2 * k.val + i.val) (hacc : switchOf n acc = (on, false)) (hilv : s.ilv t k = false)
    (hm : mask.getLsbD k.val = true) : switchOf n (s.evalSlot t mask vs acc k)
      = (s.switchAfter t k i (vs.getD k.val 0) on, s.switchAfter t k i (vs.getD k.val 0) on) := by
  obtain ⟨rfl, reported⟩ := Prod.mk.inj hacc
  simp only [State.evalSlot, hilv, hm, Bool.false_eq_true, Bool.not_true, if_false, switchOf,
    getLsbD_report _ k.isLt (show n / 2 = k.val by omega) reported]
  subst hn
  rw [s.evalChan_own t i _ _ k.isLt]

/-- An interleaved pair's even channel takes both samples in turn and reports whether its switch was set after either. -/
theorem State.evalSlot_even (hn : n = 2 * k.val + i.val) (hacc : switchOf n acc = (on, false)) (hilv : s.ilv t k = true)
    (heven : k.val % 2 = 0) (hm : mask.getLsbD k.val = true) : switchOf n (s.evalSlot t mask vs acc k)
      = (s.switchAfter t k i (vs.getD (k.val + 1) 0) (s.switchAfter t k i (vs.getD k.val 0) on),
        s.switchAfter t k i (vs.getD k.val 0) on
          || s.switchAfter t k i (vs.getD (k.val + 1) 0) (s.switchAfter t k i (vs.getD k.val 0) on)) := by
  obtain ⟨rfl, reported⟩ := Prod.mk.inj hacc
  have first : k.val / 2 * 2 = k.val := by omega
  simp only [State.evalSlot, hilv, hm, heven, first, Bool.false_eq_true, Bool.not_true, if_false, if_true, switchOf,
    getLsbD_report _ k.isLt (show n / 2 = k.val by omega) reported, BitVec.getLsbD_or]
  subst hn
  rw [s.evalChan_own t i _ _ k.isLt, s.evalChan_own t i _ _ k.isLt]

/-- Its odd channel takes none and reports nothing. -/
theorem State.evalSlot_odd (hilv : s.ilv t k = true) (hodd : k.val % 2 = 1) : s.evalSlot t mask vs acc k = acc := by
  simp [State.evalSlot, hilv, hodd]

end

/-! ### The statement -/

/-- Settles O57: a period's fold comes to each channel once, and only that channel's slot moves its two switches. -/
theorem switchesFollowTheirThresholds : Obligations.SwitchesFollowTheirThresholds := by
  unfold Obligations.SwitchesFollowTheirThresholds
  intro s t mask vs sw k i pol beyond set clr sets clears next n hpol hthr hn hsets hclears hbeyond hnext
  have after (v : Int) (on : Bool) : s.switchAfter t k i v on = next v on := by
    rw [hnext, State.switchAfter, ← hthr, ← hpol, hbeyond]
    simp only [switchNext, badHyst, hsets, hclears]
  obtain ⟨acc, start, last⟩ := s.evalPeriod_switch t mask vs sw k.isLt (n := n) (by omega)
  refine ⟨fun hilv hm => ?single, fun hilv heven hm a b ha hb => ?even, fun hilv hodd => ?odd⟩
  case single =>
    rw [State.evalSlot_single i vs hn start hilv hm, after] at last
    exact Prod.mk.inj last
  case even =>
    rw [State.evalSlot_even i vs hn start hilv heven hm, after, after, ← ha, ← hb] at last
    exact Prod.mk.inj last
  case odd =>
    rw [State.evalSlot_odd vs hilv hodd, start] at last
    exact (Prod.mk.inj last).2

end Sys2Proof.Machine
end

