-- ==== Sys2Proof/Proofs/WireWatch.lean ====
section
/-! Wire watch (R74–R81): the centre of a window whose pin still shows the fault that the host has cleared. -/

namespace Sys2Proof.Machine

/-- Tile 0 watches pin 1 in continuous mode; the host has cleared its fault 100 µs ago, and WIR_LIVE still shows it
(R80). -/
def clearedWatch : State :=
  { State.reset with
    modes := { Modes.reset with tiles := 1 }
    regs := [(Reg.wirPin 0 1, 0x1805), (Reg.wirLive 0, 2)]
    tim := { Tim.reset with now := usU 100 }
    tiles := upd State.reset.tiles 0 fun x => { x with wires := [Wire.fresh 1 0 false] } }

theorem clearedWatch_powered : clearedWatch.tilePowered 0 = true := by decide +kernel

theorem clearedWatch_continuous : clearedWatch.wireMode 0 1 = 1 := by decide +kernel

theorem clearedWatch_current : clearedWatch.watchCurrent 0 1 ≠ 0 := by decide +kernel

theorem clearedWatch_noCentre : (clearedWatch.wire 0 1).centre = none := by decide +kernel

theorem clearedWatch_due : (clearedWatch.wire 0 1).since + usU 100 ≤ clearedWatch.tim.now := by decide +kernel

/-- The register that a pin 38 of tile 0 would have is WIR_LIVE: with its bit 1 set, the pin is one of pulsed mode, … -/
theorem clearedWatch_wire_38 : (clearedWatch.wire 0 38).wanted = true := by decide +kernel

/-- … and no longer so when the centre of pin 1 is captured. -/
theorem wireCentreCapture_clearedWatch_wire_38 : ((wireCentreCapture 0 1 0 clearedWatch).wire 0 38).wanted = false := by
  decide +kernel

theorem exec_wireCentreCapture (t : Tile) (p : Pin) (v : Int) (s : State) :
    exec (.wireCentreCapture t p v) s = .next (State.keeping s (wireCentreCapture t p v s)) := rfl

theorem State.keeping_wire (old s : State) (t : Fin 4) (p : Nat) : (State.keeping old s).wire t p = s.wire t p := rfl

/-- Refutes O43: its first clause keeps the watch of every number q other than the pin's, also of those past 19, which no
pin has (R49). The watch of 38 would be read from WIR_LIVE, and that is what a capture clears in `clearedWatch`. -/
theorem not_wireWatchCompletes : ¬ Obligations.WireWatchCompletes := by
  unfold Obligations.WireWatchCompletes
  rintro ⟨captured, -⟩
  obtain ⟨u, hu, -, -, others, -⟩ := captured clearedWatch 0 1 0 clearedWatch_powered clearedWatch_continuous
    clearedWatch_current clearedWatch_noCentre clearedWatch_due
  rw [exec_wireCentreCapture] at hu
  have kept := others 38 (by decide)
  rw [← Host.Outcome.next.inj hu, State.keeping_wire] at kept
  have wanted := wireCentreCapture_clearedWatch_wire_38
  exact Bool.false_ne_true (wanted.symm.trans ((congrArg Wire.wanted kept).trans clearedWatch_wire_38))

end Sys2Proof.Machine
end

