-- ==== Sys2Proof/Proofs/SourcesAndRanging.lean ====
section
/-! Excitation and bias sources, and look-ahead ranging (R54–R67): what one event of a source or of a
channel's range does. -/

namespace Sys2Proof.Machine

/-! ### Armed sources -/

/-- A state whose registers differ from another's in one place at most. -/
theorem State.keepsRegs_one {s u : State} {a : Nat} (h : ∀ b, b ≠ a → u.get b = s.get b) : s.KeepsRegs u [a] :=
  fun b hb => h b fun e => hb (List.mem_singleton.mpr e)


theorem State.findArm_updTile (s : State) (t : Fin 4) (e : Nat) (f : TileState → TileState) :
    (s.updTile t f).findArm t e = (f (s.tile t)).arms.find? fun a => a.source.val == e := by
  rw [State.findArm, State.updTile_tile_same]

theorem State.findArm_source {s : State} {t e : Fin 4} {a : Arm} (h : s.findArm t e = some a) : a.source = e :=
  Fin.ext (beq_iff_eq.mp (List.find?_some (p := fun (a : Arm) => a.source.val == e.val) h))

/-- A source that is disarmed is not found among the armed ones. -/
@[simp] theorem State.findArm_disarm (s : State) (t e : Fin 4) : (s.disarm t e).findArm t e = none := by
  show (s.updTile t fun x => { x with arms := x.arms.filter fun a => a.source != e }).findArm t e = none
  rw [State.findArm_updTile]
  refine List.find?_eq_none.mpr fun a ha same => ?_
  exact bne_iff_ne.mp (List.mem_filter.mp ha).2 (Fin.ext (beq_iff_eq.mp same))

theorem State.get_disarm_ne (s : State) (t e : Fin 4) {a : Nat} (h : a ≠ Reg.jctExStat t e) :
    (s.disarm t e).get a = s.get a := State.get_setBit_ne _ _ _ _ _ h

theorem State.bit_disarm (s : State) (t e : Fin 4) : (s.disarm t e).bit (Reg.jctExStat t e) 0 = false :=
  State.bit_setBit_same _ _ _ _ (by decide)

theorem State.disarm_tile_ne (s : State) (t e : Fin 4) {o : Fin 4} (h : o ≠ t) : (s.disarm t e).tile o = s.tile o :=
  State.updTile_tile_ne _ _ _ _ h

section
variable {s : State} {t e : Fin 4} {l : Nat}

/-- An ARM for a time that is far enough ahead. -/
theorem State.arm_ahead (h : s.tim.mt + usU 20 ≤ l) : s.arm t e l =
    (((s.disarm t e).setFld (Reg.jctExStat t e) 31 16 0).setBit (Reg.jctExStat t e) 0 true).updTile t fun x =>
      { x with arms := x.arms ++ [⟨e, l, 0⟩] } := if_neg (Nat.not_lt.mpr h)

theorem State.arm_late (h : l < s.tim.mt + usU 20) :
    s.arm t e l = (s.disarm t e).setBit (Reg.jctExStat t e) 1 true := if_pos h

theorem State.findArm_arm_ahead (h : s.tim.mt + usU 20 ≤ l) : (s.arm t e l).findArm t e = some ⟨e, l, 0⟩ := by
  have free : ((s.disarm t e).tile t).arms.find? (fun a => a.source.val == e.val) = none := State.findArm_disarm s t e
  rw [State.arm_ahead h, State.findArm_updTile]
  show (((s.disarm t e).tile t).arms ++ [(⟨e, l, 0⟩ : Arm)]).find? _ = _
  rw [List.find?_append, free]
  simp

theorem State.bit_arm_ahead (h : s.tim.mt + usU 20 ≤ l) : (s.arm t e l).bit (Reg.jctExStat t e) 0 = true := by
  rw [State.arm_ahead h]
  exact State.bit_setBit_same _ _ _ _ (by decide)

theorem State.sent_arm_ahead (h : s.tim.mt + usU 20 ≤ l) : (s.arm t e l).fld (Reg.jctExStat t e) 31 16 = 0 := by
  rw [State.arm_ahead h]
  exact (State.fld_setBit_apart _ _ _ _ _ _ (by decide) (.inr (by decide))).trans
    (State.fld_setFld_same _ _ _ _ _ (by decide))

theorem State.findArm_arm_late (h : l < s.tim.mt + usU 20) : (s.arm t e l).findArm t e = none := by
  rw [State.arm_late h]
  exact State.findArm_disarm s t e

theorem State.bit_arm_late (h : l < s.tim.mt + usU 20) : (s.arm t e l).bit (Reg.jctExStat t e) 0 = false := by
  rw [State.arm_late h]
  exact (State.bit_setBit_apart _ _ _ _ _ (by decide) (by decide)).trans (State.bit_disarm s t e)

theorem State.late_arm_late (h : l < s.tim.mt + usU 20) : (s.arm t e l).bit (Reg.jctExStat t e) 1 = true := by
  rw [State.arm_late h]
  exact State.bit_setBit_same _ _ _ _ (by decide)

/-- What an ARM leaves as it was. -/
theorem State.get_arm_ne {a : Nat} (h : a ≠ Reg.jctExStat t e) : (s.arm t e l).get a = s.get a := by
  have disarmed := State.get_disarm_ne s t e h
  unfold State.arm
  dsimp only
  split
  · exact (State.get_setBit_ne _ _ _ _ _ h).trans disarmed
  · exact (State.get_setBit_ne _ _ _ _ _ h).trans ((State.get_setFld_ne _ _ _ _ _ _ h).trans disarmed)

theorem State.arm_shape : s.arm t e l = { s with regs := (s.arm t e l).regs, tiles := (s.arm t e l).tiles } := by
  rcases Nat.lt_or_ge l (s.tim.mt + usU 20) with h | h
  · rw [State.arm_late h]; rfl
  · rw [State.arm_ahead h]; rfl

@[simp] theorem State.arm_bcp : (s.arm t e l).bcp = s.bcp := (congrArg State.bcp State.arm_shape :)
@[simp] theorem State.arm_lnk : (s.arm t e l).lnk = s.lnk := (congrArg State.lnk State.arm_shape :)
@[simp] theorem State.arm_tim : (s.arm t e l).tim = s.tim := (congrArg State.tim State.arm_shape :)

end

/-- An armed source with its count of pulses set. -/
def Arm.counted (e : Fin 4) (n : Nat) (a : Arm) : Arm := if a.source = e then { a with sent := n } else a

theorem Arm.counted_source (e : Fin 4) (n : Nat) (a : Arm) : (a.counted e n).source = a.source := by
  unfold Arm.counted
  split <;> rfl

/-- A pulse counted in SENT and in the source's own count. -/
def State.countPulse (t e : Fin 4) (n : Nat) (s : State) : State :=
  (s.setFld (Reg.jctExStat t e) 31 16 n).updTile t fun x => { x with arms := x.arms.map (Arm.counted e n) }

theorem State.findArm_countPulse {s : State} {t e : Fin 4} {a : Arm} (n : Nat) (h : s.findArm t e = some a) :
    (s.countPulse t e n).findArm t e = some { a with sent := n } := by
  have same : ((fun (b : Arm) => b.source.val == e.val) ∘ Arm.counted e n) = fun b => b.source.val == e.val :=
    funext fun b => by rw [Function.comp, Arm.counted_source]
  have found : ((s.tile t).arms.find? fun b => b.source.val == e.val) = some a := h
  rw [State.countPulse, State.findArm_updTile]
  show ((s.tile t).arms.map (Arm.counted e n)).find? _ = _
  rw [List.find?_map, same, found, Option.map_some, Arm.counted, if_pos (State.findArm_source h)]

theorem State.get_countPulse_ne (s : State) (t e : Fin 4) (n : Nat) {a : Nat} (h : a ≠ Reg.jctExStat t e) :
    (s.countPulse t e n).get a = s.get a := State.get_setFld_ne _ _ _ _ _ _ h

/-- A pulse that is due is counted, and leaves the connector in pulse mode. -/
theorem pulseLaunch_due {s : State} {t e : Fin 4} {a : Arm} (found : s.findArm t e = some a)
    (due : s.pulseDue t a ≤ s.tim.mt) (powered : s.tilePowered t = true)
    (more : a.sent < s.fld (Reg.jctExPulse t e) 31 16) :
    pulseLaunch t e s = if s.fld (Reg.jctExCtrl t e) 1 0 = 3 then
        (s.countPulse t e (a.sent + 1)).emit (.pulse t e a.sent (toPs (s.pulseDue t a)) (s.fld (Reg.jctExLevel t e) 15 0)
          (s.fld (Reg.jctExLevel t e) 27 16) (s.bit (Reg.jctExCtrl t e) 2) (s.fld (Reg.jctExPulse t e) 11 0))
      else s.countPulse t e (a.sent + 1) := by
  simp only [pulseLaunch, found, powered, Bool.not_true, Bool.false_eq_true, if_false, if_neg (Nat.not_le.mpr more),
    if_neg (Nat.not_lt.mpr due)]
  rfl

/-- After the trailing edge of the last pulse the source is done. -/
theorem pulseLaunch_last {s : State} {t e : Fin 4} {a : Arm} (found : s.findArm t e = some a)
    (powered : s.tilePowered t = true) (all : s.fld (Reg.jctExPulse t e) 31 16 ≤ a.sent)
    (past : s.pulseDue t { a with sent := a.sent - 1 } + s.fld (Reg.jctExPulse t e) 11 0 * periodU ≤ s.tim.mt) :
    pulseLaunch t e s = (s.disarm t e).setBit (Reg.jctExStat t e) 3 true := by
  simp only [pulseLaunch, found, powered, Bool.not_true, Bool.false_eq_true, if_false, if_pos all,
    if_neg (Nat.not_lt.mpr past)]

/-! ### Ranges -/

@[simp] theorem State.updFront_front (s : State) (t : Fin 4) (k : Nat) (f : Front → Front) :
    (s.updFront t k f).front t k = f (s.front t k) := by
  rw [State.front, State.updFront, State.updTile_tile_same, upd_get_same, State.front]

theorem chooseRange_le (mag : Nat) : chooseRange mag ≤ 2 := by
  unfold chooseRange
  split_ifs <;> omega

/-- A switch of a channel to another range with `n` as its settling sample (R66, R67). -/
structure State.Switched (s u : State) (t : Fin 4) (k r n : Nat) : Prop where
  range : u.range t k = r
  changes : u.fld (Reg.feaChCnt t k) 15 0 = (s.fld (Reg.feaChCnt t k) 15 0 + 1) % 65536
  settling : tagAt (u.front t k).tags n = 3
  holds : ∀ m, n + 1 ≤ m → tagAt (u.front t k).tags m = r
  holdFrom : (u.front t k).holdFrom = s.pinPos
  kept : s.KeepsRegs u [Reg.feaChStat t k, Reg.feaChCnt t k]

theorem State.switchRange_switched {s : State} {t : Fin 4} {k r : Nat} (n : Nat) (other : s.range t k ≠ r) (hr : r < 4) :
    s.Switched (s.switchRange t k r n) t k r n := by
  have apart : Reg.feaChStat t k ≠ Reg.feaChCnt t k := by simp only [Reg.feaChStat, Reg.feaChCnt]; omega
  have front : ((s.switchRange t k r n).front t k) = { s.front t k with
      tags := (n + 1, r) :: (n, 3) :: ((s.front t k).tags.filter fun (y : Nat × Nat) => decide (y.1 < n))
      holdFrom := s.pinPos } := by
    rw [State.switchRange, if_neg other, State.updFront_front]
    rfl
  have get (a : Nat) : (s.switchRange t k r n).get a
      = ((s.setFld (Reg.feaChStat t k) 1 0 r).wrapFld (Reg.feaChCnt t k) 15 0 1).get a := by
    rw [State.switchRange, if_neg other]
    rfl
  refine ⟨?range, ?changes, ?settling, ?holds, ?holdFrom, ?kept⟩
  case range =>
    rw [State.range, State.fld, get, ← State.fld, State.wrapFld, State.fld_setFld_ne _ _ _ _ _ _ _ _ apart,
      State.fld_setFld_same _ _ _ _ _ (by decide)]
    exact Nat.mod_eq_of_lt hr
  case changes =>
    rw [State.fld, get, ← State.fld, State.wrapFld, State.fld_setFld_same _ _ _ _ _ (by decide),
      State.fld_setFld_ne _ _ _ _ _ _ _ _ apart.symm]
    rfl
  case settling =>
    simp [front, tagAt]
  case holds =>
    intro m hm
    simp [front, tagAt, hm]
  case holdFrom => rw [front]
  case kept =>
    intro a ha
    simp only [List.mem_cons, List.not_mem_nil, or_false, not_or] at ha
    rw [get, State.wrapFld, State.get_setFld_ne _ _ _ _ _ _ ha.2, State.get_setFld_ne _ _ _ _ _ _ ha.1]


/-! ### The statement's clauses -/

/-- A launch counts its pulse in SENT, and emits it in pulse mode. -/
theorem pulseLaunch_counts (s : State) (t : Tile) (e : Fin 4) (a : Arm) (found : s.findArm t e = some a)
    (due : s.pulseDue t a ≤ s.tim.mt) (powered : s.tilePowered t = true)
    (more : a.sent < s.fld (Reg.jctExPulse t e) 31 16) :
    ∃ u, exec (.pulseLaunch t e) s = .next u ∧ u.fld (Reg.jctExStat t e) 31 16 = (a.sent + 1) % 65536
      ∧ s.KeepsRegs u [Reg.jctExStat t e] ∧ u.findArm t e = some { a with sent := a.sent + 1 }
      ∧ u.bit (Reg.jctExStat t e) 0 = s.bit (Reg.jctExStat t e) 0 ∧ (∀ o, o ≠ t → u.tile o = s.tile o)
      ∧ (s.fld (Reg.jctExCtrl t e) 1 0 = 3 →
          u.tx = s.tx ++ [.pulse t e a.sent ((s.pulseDue t a * 1000 + nsU / 2) / nsU) (s.fld (Reg.jctExLevel t e) 15 0)
            (s.fld (Reg.jctExLevel t e) 27 16) (s.bit (Reg.jctExCtrl t e) 2) (s.fld (Reg.jctExPulse t e) 11 0)])
      ∧ (s.fld (Reg.jctExCtrl t e) 1 0 ≠ 3 → u.tx = s.tx) := by
  have sent : (s.countPulse t e (a.sent + 1)).fld (Reg.jctExStat t e) 31 16 = (a.sent + 1) % 65536 :=
    State.fld_setFld_same _ _ _ _ _ (by decide)
  have kept : s.KeepsRegs (s.countPulse t e (a.sent + 1)) [Reg.jctExStat t e] :=
    State.keepsRegs_one fun _ => State.get_countPulse_ne _ _ _ _
  have arm := State.findArm_countPulse (a.sent + 1) found
  have armed : (s.countPulse t e (a.sent + 1)).bit (Reg.jctExStat t e) 0 = s.bit (Reg.jctExStat t e) 0 :=
    State.bit_setFld_apart _ _ _ _ _ _ (by decide) (.inl (by decide))
  have tiles (o : Tile) (h : o ≠ t) : (s.countPulse t e (a.sent + 1)).tile o = s.tile o := State.updTile_tile_ne _ _ _ _ h
  have launch := pulseLaunch_due found due powered more
  by_cases mode : s.fld (Reg.jctExCtrl t e) 1 0 = 3
  · exact ⟨_, run_next (launch.trans (if_pos mode)), sent, kept, arm, armed, tiles, fun _ => rfl,
      fun no => absurd mode no⟩
  · exact ⟨_, run_next (launch.trans (if_neg mode)), sent, kept, arm, armed, tiles,
      fun yes => absurd yes mode, fun _ => rfl⟩

theorem pulseLaunch_ends (s : State) (t : Tile) (e : Fin 4) (a : Arm) (found : s.findArm t e = some a)
    (powered : s.tilePowered t = true) (all : s.fld (Reg.jctExPulse t e) 31 16 ≤ a.sent)
    (past : s.pulseDue t { a with sent := a.sent - 1 } + s.fld (Reg.jctExPulse t e) 11 0 * periodU ≤ s.tim.mt) :
    ∃ u, exec (.pulseLaunch t e) s = .next u ∧ u.bit (Reg.jctExStat t e) 3 = true
      ∧ u.bit (Reg.jctExStat t e) 0 = false ∧ u.findArm t e = none ∧ u.tx = s.tx ∧ s.KeepsRegs u [Reg.jctExStat t e]
      ∧ (∀ o, o ≠ t → u.tile o = s.tile o) := by
  refine ⟨_, run_next (pulseLaunch_last found powered all past), State.bit_setBit_same _ _ _ _ (by decide), ?armed,
    State.findArm_disarm s t e, rfl, ?kept, fun o h => State.disarm_tile_ne s t e h⟩
  case armed => exact (State.bit_setBit_apart _ _ _ _ _ (by decide) (by decide)).trans (State.bit_disarm s t e)
  case kept =>
    exact State.keepsRegs_one fun b ne => (State.get_setBit_ne _ _ _ _ _ ne).trans (State.get_disarm_ne s t e ne)

theorem sourceCompliance_latches (s : State) (t : Tile) (e : Fin 4) (powered : s.tilePowered t = true)
    (mode : s.fld (Reg.jctExCtrl t e) 1 0 = 1 ∨ s.fld (Reg.jctExCtrl t e) 1 0 = 2) :
    ∃ u, exec (.sourceCompliance t e) s = .next u ∧ u.bit (Reg.jctExStat t e) 2 = true
      ∧ s.KeepsRegs u [Reg.jctExStat t e] ∧ u.bcp = s.bcp := by
  have latched : sourceCompliance t e s = s.setBit (Reg.jctExStat t e) 2 true := by
    simp [sourceCompliance, powered, mode]
  exact ⟨_, run_next latched, State.bit_setBit_same _ _ _ _ (by decide),
    State.keepsRegs_one fun _ => State.get_setBit_ne _ _ _ _ _, rfl⟩

theorem biasCompliance_overloads (s : State) (t : Tile) (b : Fin 4) (load : Nat) (powered : s.tilePowered t = true)
    (used : s.bit (Reg.jctBias t b) 16 = true) (beyond : 10000 < load) :
    ∃ u, exec (.biasCompliance t b load) s = .next u ∧ u.bit (Reg.jctBias t b) 17 = true
      ∧ s.KeepsRegs u [Reg.jctBias t b]
      ∧ u.bcp.sessions = s.bcp.sessions.map (setAtn Atn.wire (s.evt + 1)) ∧ (u.tile t).sagging.getLsbD b = true := by
  have latched : biasCompliance t b load s = ((s.updTile t fun x =>
      { x with sagging := x.sagging ||| bitOf 4 b }).setBit (Reg.jctBias t b) 17 true).attend Atn.wire := by
    simp [biasCompliance, powered, used, beyond]
  refine ⟨_, run_next latched, State.bit_setBit_same _ _ _ _ (by decide),
    State.keepsRegs_one fun _ => State.get_setBit_ne _ _ _ _ _, rfl, ?sagging⟩
  show ((s.updTile t fun x => { x with sagging := x.sagging ||| bitOf 4 b }).tile t).sagging.getLsbD b = true
  rw [State.updTile_tile_same, BitVec.getLsbD_or, getLsbD_bitOf _ _ _ b.isLt, decide_eq_true rfl, Bool.or_true]

theorem biasCompliance_relieves (s : State) (t : Tile) (b : Fin 4) (load : Nat) (powered : s.tilePowered t = true)
    (within : load ≤ 10000) :
    ∃ u, exec (.biasCompliance t b load) s = .next u ∧ u.regs = s.regs ∧ u.bcp = s.bcp
      ∧ (u.tile t).sagging.getLsbD b = false ∧ (∀ o, o ≠ t → u.tile o = s.tile o) := by
  have told : biasCompliance t b load s
      = s.updTile t fun x => { x with sagging := x.sagging &&& ~~~bitOf 4 b } := by
    simp [biasCompliance, powered, Nat.not_lt.mpr within]
  refine ⟨_, run_next told, rfl, rfl, ?sagging, fun o h => State.updTile_tile_ne _ _ _ _ h⟩
  show ((s.updTile t fun x => { x with sagging := x.sagging &&& ~~~bitOf 4 b }).tile t).sagging.getLsbD b = false
  rw [State.updTile_tile_same, BitVec.getLsbD_and, BitVec.getLsbD_not, getLsbD_bitOf _ _ _ b.isLt, decide_eq_true rfl,
    Bool.not_true, Bool.and_false, Bool.and_false]

theorem scoutCrossing_remembers (s : State) (t : Tile) (k : Chan) (mag : Nat) (live : s.live t k = true)
    (auto_ : s.autoRange t k = true) (passes : fullScale (s.range t k) * 85 ≤ mag * 100)
    (armed : (s.front t k).rearmAt ≤ s.tim.mt) (first : (s.front t k).crossed = none) :
    ∃ u, exec (.scoutCrossing t k mag) s = .next u ∧ (u.front t k).crossed = some s.tim.mt
      ∧ (u.front t k).holdFrom = s.pinPos ∧ u.regs = s.regs := by
  have crosses : scoutCrossing t k mag s
      = s.updFront t k fun x => { x with crossed := some s.tim.mt, holdFrom := s.pinPos } := by
    simp [scoutCrossing, live, auto_, passes, armed, first]
  have front := State.updFront_front s t k fun x => { x with crossed := some s.tim.mt, holdFrom := s.pinPos }
  exact ⟨_, run_next crosses, congrArg Front.crossed front, congrArg Front.holdFrom front, rfl⟩

/-- A decision of the scout, where it is for a wider range and where the range stays. -/
theorem upRange_decides {s : State} {t : Tile} {k : Chan} {t0 : Nat} (mag : Nat) (live : s.live t k = true)
    (crossed : (s.front t k).crossed = some t0) (decided : t0 + 2 * nsU ≤ s.tim.mt) :
    ∃ again, upRange t k mag s = (if chooseRange mag < s.range t k then
        s.switchRange t k (chooseRange mag) (s.sampleFrom (t0 + 2 * nsU) + 1) else s).updFront t k fun x =>
          { x with crossed := none, rearmAt := again } := by
  simp only [upRange, crossed, live, Bool.not_true, decide_eq_false (Nat.not_lt.mpr decided), Bool.or_self,
    Bool.false_eq_true, if_false, decide_eq_true_eq]
  exact ⟨_, rfl⟩

theorem upRange_switches (s : State) (t : Tile) (k : Chan) (hi lo : Int) (mag t0 : Nat) (live : s.live t k = true)
    (hmag : mag = peakMag hi lo) (crossed : (s.front t k).crossed = some t0) (decided : t0 + 2 * nsU ≤ s.tim.mt) :
    ∃ u, exec (.upRange t k hi lo) s = .next u ∧ (u.front t k).crossed = none
      ∧ s.KeepsRegs u [Reg.feaChStat t k, Reg.feaChCnt t k]
      ∧ (s.range t k ≤ chooseRange mag → u.regs = s.regs ∧ (u.front t k).tags = (s.front t k).tags)
      ∧ (chooseRange mag < s.range t k → u.range t k = chooseRange mag
          ∧ u.fld (Reg.feaChCnt t k) 15 0 = (s.fld (Reg.feaChCnt t k) 15 0 + 1) % 65536
          ∧ tagAt (u.front t k).tags (s.sampleFrom (t0 + 2 * nsU) + 1) = 3
          ∧ ∀ n, s.sampleFrom (t0 + 2 * nsU) + 2 ≤ n → tagAt (u.front t k).tags n = chooseRange mag) := by
  subst hmag
  obtain ⟨again, decision⟩ := upRange_decides (peakMag hi lo) live crossed decided
  by_cases wider : chooseRange (peakMag hi lo) < s.range t k
  · rw [if_pos wider] at decision
    have switched := State.switchRange_switched (s.sampleFrom (t0 + 2 * nsU) + 1) (Nat.ne_of_gt wider)
      (Nat.lt_of_le_of_lt (chooseRange_le _) (by decide))
    have front := State.updFront_front (s.switchRange t k (chooseRange (peakMag hi lo)) (s.sampleFrom (t0 + 2 * nsU) + 1))
      t k fun x => { x with crossed := none, rearmAt := again }
    have tags := congrArg Front.tags front
    refine ⟨_, run_next decision, congrArg Front.crossed front, switched.kept, fun stays => absurd wider (by omega),
      fun _ => ⟨switched.range, switched.changes, ?settling, fun n hn => ?holds⟩⟩
    case settling => exact (congrArg (tagAt · _) tags).trans switched.settling
    case holds => exact (congrArg (tagAt · n) tags).trans (switched.holds n hn)
  · rw [if_neg wider] at decision
    have front := State.updFront_front s t k fun x => { x with crossed := none, rearmAt := again }
    exact ⟨_, run_next decision, congrArg Front.crossed front, fun _ _ => rfl,
      fun _ => ⟨rfl, (congrArg Front.tags front :)⟩, fun yes => absurd yes wider⟩

theorem downRange_switches (s : State) (t : Tile) (k : Chan) (quiet mag : Nat) (live : s.live t k = true)
    (auto_ : s.autoRange t k = true) (allowed : s.range t k + 1 ≤ s.fld (Reg.feaChCtrl t k) 3 2)
    (narrower : s.range t k + 1 ≤ 2) (long : s.fld (Reg.feaChRange t k) 28 16 ≤ quiet)
    (held : (s.front t k).holdFrom + s.fld (Reg.feaChRange t k) 28 16 ≤ s.pinPos)
    (below : mag * 200 < s.fld (Reg.feaChRange t k) 13 8 * fullScale (s.range t k + 1)) :
    ∃ u, exec (.downRange t k quiet mag) s = .next u ∧ u.range t k = s.range t k + 1
      ∧ u.fld (Reg.feaChCnt t k) 15 0 = (s.fld (Reg.feaChCnt t k) 15 0 + 1) % 65536
      ∧ (u.front t k).holdFrom = s.pinPos ∧ tagAt (u.front t k).tags (s.sampleFrom s.tim.mt + 1) = 3
      ∧ (∀ n, s.sampleFrom s.tim.mt + 2 ≤ n → tagAt (u.front t k).tags n = s.range t k + 1)
      ∧ s.KeepsRegs u [Reg.feaChStat t k, Reg.feaChCnt t k] := by
  have hold : s.fld (Reg.feaChRange t k) 28 16 ≤ s.holdCount t k quiet := by
    rw [State.holdCount]
    omega
  have goes : downRange t k quiet mag s = s.switchRange t k (s.range t k + 1) (s.sampleFrom s.tim.mt + 1) := by
    simp only [downRange, live, auto_, allowed, narrower, hold, below, decide_true, Bool.and_self, if_true]
  have switched := State.switchRange_switched (s.sampleFrom s.tim.mt + 1) (Nat.succ_ne_self (s.range t k)).symm (by omega)
  exact ⟨_, run_next goes, switched.range, switched.changes, switched.holdFrom, switched.settling, switched.holds,
    switched.kept⟩

/-- Settles O26: each event is one update of its source or of its channel's range. -/
theorem sourceAndRangeEventsComplete : Obligations.SourceAndRangeEventsComplete := by
  unfold Obligations.SourceAndRangeEventsComplete
  exact ⟨pulseLaunch_counts, pulseLaunch_ends, sourceCompliance_latches, biasCompliance_overloads,
    biasCompliance_relieves, scoutCrossing_remembers, upRange_switches, downRange_switches⟩

end Sys2Proof.Machine
end

