-- ==== Sys2Proof/Proofs/PinAndSourceWrites.lean ====
section
/-! Writes of JCT_PINp and JCT_EXe_CTRL (R49, R50, R56, R57): the checks that they pass and what they leave. -/

namespace Sys2Proof.Machine

/-! ### Register rows -/

/-- What `run_answers` says of a served request, and its tiles are as execution has left them. -/
theorem run_answers_tiles {s : State} {f : Form} {r : Req} {x y : Session} {body : Session → State → Ans} {a : Ans}
    {l : List Nat} (n : Nat) (i : Instr) (h : Served s f r x) (hc : f.closes = false)
    (ha : body (x.hear s.tim.now r) (s.arrived r) = a) (hl : a.2.2.lnk = s.lnk) (hk : (s.arrived r).KeepsRegs a.2.2 l)
    (hn : ∀ b ∈ l, b < 0x40400 ∨ 0x404B0 ≤ b) (hy : a.2.2.findSession r.session = some y) :
    ∃ t, run (receive r.port n i fun s => s.request f r body) s = .next t ∧ Answers t f r a y
      ∧ s.KeepsRegs t (Reg.lnkPortRx r.port :: l) ∧ t.tiles = a.2.2.tiles := by
  obtain ⟨t, next, answers, kept⟩ := run_answers n i h hc ha hl hk hn hy
  have served := run_served n i body h (by rw [ha, hl])
  refine ⟨t, next, answers, kept, ?_⟩
  rw [← Host.Outcome.next.inj (served.symm.trans next), State.keeping_tiles, State.answered_tiles, ha]

/-- A served write of one register is answered with its status and shows what the write has left. -/
theorem rowWrite_answers {s : State} {r : Req} {x y : Session} {a : Nat} {v : Word} {q : BitVec 16 × State} {l : List Nat}
    (n : Nat) (i : Instr) (h : Served s writeForm r x) (ha : a < 2 ^ 32)
    (hq : (s.arrived r).writeReg r.session a v 0xFFFFFFFF 0 = q) (hl : q.2.lnk = s.lnk)
    (hk : (s.arrived r).KeepsRegs q.2 l) (hn : ∀ b ∈ l, b < 0x40400 ∨ 0x404B0 ≤ b)
    (hy : q.2.findSession r.session = some y) :
    ∃ t, run (receive r.port n i fun s => s.rowWrite r a v 0) s = .next t ∧ Answers t writeForm r (q.1, [], q.2) y
      ∧ s.KeepsRegs t (Reg.lnkPortRx r.port :: l) ∧ t.tiles = q.2.tiles := by
  refine run_answers_tiles n i h rfl ?_ hl hk hn hy
  rw [State.overLink_kept _ _ _ _ h.link, State.regWrite, BitVec.toNat_ofNat, Nat.mod_eq_of_lt ha, h.hear_id, hq]

/-- The registers of a tile are none that a request's arrival touches. -/
theorem State.get_arrived_tile (s : State) (r : Req) {a : Nat} (h : 0x100000 ≤ a) : (s.arrived r).get a = s.get a :=
  State.get_arrived_ne s r a (ne_lnkPortRx r.port (.inr (Nat.lt_of_lt_of_le (by decide) h)))

/-- A register of a tile other than CAL_CTRL: no half of a pair, no gate, and writable in every mode. -/
structure TileReg (a : Nat) : Prop where
  tile : 0x100000 ≤ a
  word : a < 2 ^ 32
  notCal : a % 0x10000 ≠ 0x4000

section
variable {s : State} {id : Word} {a : Nat} {v m : Word}

theorem wholeLo_tile {b : Nat} (h : 0x61000 ≤ b) : wholeLo b = false := by
  rw [Bool.eq_false_iff]
  intro low
  simp [wholeLo, Reg.queSeqNextLo, Reg.timDomAsymLo] at low
  omega

theorem TileReg.notLo (h : TileReg a) : wholeLo a = false := wholeLo_tile (Nat.le_trans (by decide) h.tile)

theorem TileReg.notHi (h : TileReg a) : wholeLo (a - 4) = false :=
  wholeLo_tile (Nat.le_sub_of_add_le (Nat.le_trans (by decide) h.tile))

theorem TileReg.notGate (h : TileReg a) : NotGate a := by
  have := h.tile
  simp only [NotGate, Reg.clkGateHostEng, Reg.clkGateHostMisc]
  omega

theorem TileReg.notRegion (h : TileReg a) : a ≠ Reg.dptRegion := by
  have := h.tile
  simp only [Reg.dptRegion]
  omega

theorem TileReg.modeBlocks (h : TileReg a) (on : Word) : s.modeBlocks a on = false := by
  obtain ⟨tile, -, notCal⟩ := h
  have above {b : Nat} (h : b < 0x100000) : b < a := Nat.lt_of_lt_of_le h tile
  have prov : isProv a = false := by
    rw [isProv, decide_eq_false (Nat.not_lt_of_gt (above (b := Reg.lnkProvCtrl 11) (by decide))), Bool.and_false]
  have flip : isFlip a = false := by
    rw [isFlip, decide_eq_false (Nat.not_le_of_gt (above (b := Reg.dptFlipAddr) (by decide))),
      decide_eq_false (Nat.not_le_of_gt (above (b := Reg.dptMapflipCtrl) (by decide))), Bool.and_false, Bool.and_false,
      Bool.or_false]
  have others : a ≠ Reg.cmpInject ∧ a ≠ Reg.clkGateHostEng ∧ a ≠ Reg.lnkMlCtrl :=
    ⟨Nat.ne_of_gt (above (by decide)), Nat.ne_of_gt (above (by decide)), Nat.ne_of_gt (above (by decide))⟩
  simp [State.modeBlocks, prov, flip, others, notCal]

/-- A write outside its ranges, and one that its block refuses, have no effect (R336). -/
theorem TileReg.writeReg_outOfRange (h : TileReg a) (hr : s.addrRefused a = none)
    (hv : rangesOk32 (fieldsAt a) (s.newValue a v m) (writeMask a m) = false) :
    s.writeReg id a v m 0 = (St.badValue, s) := by
  unfold State.newValue writeMask at hv
  unfold State.writeReg
  simp only [hr, h.modeBlocks, h.notHi, h.notLo, h.notRegion, hv, Bool.false_and, Bool.not_false, Bool.false_eq_true,
    if_false, if_true]

theorem TileReg.writeReg_refused {st : BitVec 16} (h : TileReg a) (hr : s.addrRefused a = none)
    (hv : rangesOk32 (fieldsAt a) (s.newValue a v m) (writeMask a m) = true)
    (hb : s.blockRefuses a (s.newValue a v m) (v &&& writeMask a m) (writeMask a m) = some st) :
    s.writeReg id a v m 0 = (st, s) := by
  unfold writeMask State.newValue writeMask at *
  unfold State.writeReg
  simp only [hr, h.modeBlocks, h.notHi, h.notLo, h.notRegion, hv, hb, Bool.false_and, Bool.not_true, Bool.false_eq_true,
    if_false]

end

/-! ### Fields that a write replaces -/

/-- A field inside the mask is the new value's. -/
theorem bits_merge (x y m : Word) (hi lo : Nat) (h : ∀ j < hi + 1 - lo, m.getLsbD (lo + j) = true) :
    bits ((x &&& ~~~m) ||| (y &&& m)) hi lo = bits y hi lo := by
  apply Nat.eq_of_testBit_eq
  intro j
  rw [bits_testBit, bits_testBit]
  by_cases hj : j < hi + 1 - lo
  · rw [BitVec.getLsbD_or, BitVec.getLsbD_and, BitVec.getLsbD_and, BitVec.getLsbD_not, h j hj, Bool.not_true,
      Bool.and_false, Bool.and_false, Bool.false_or, Bool.and_true]
  · rw [decide_eq_false hj, Bool.false_and, Bool.false_and]

/-! ### JCT_PINp -/

theorem fieldsAt_jctPin : ∀ (t : Tile) (p : Pin), fieldsAt (Reg.jctPin t p)
    = [⟨.lk, 7, 4, .any⟩, ⟨.lk, 2, 0, .range 0 4⟩] := by decide +kernel

section
variable (s : State) (t : Tile) (p : Pin) (v new on mask : Word)

theorem tileReg_jctPin : TileReg (Reg.jctPin t p) := by
  have := t.isLt
  have := p.isLt
  constructor <;> simp only [Reg.jctPin] <;> omega

theorem jctPin_tile : (Fin.ofNat 4 (Reg.jctPin t p / 0x10000 - 0x10)) = t := by
  revert t p
  decide

theorem jctPin_offset : Reg.jctPin t p % 0x10000 = 4 * p := by
  have := p.isLt
  simp only [Reg.jctPin]
  omega

theorem writeMask_jctPin : writeMask (Reg.jctPin t p) 0xFFFFFFFF = 0xF7 := by
  rw [writeMask, fieldsAt_jctPin]
  rfl

theorem directMask_jctPin : fieldMask isDirect (fieldsAt (Reg.jctPin t p)) = 0xF7 := by
  rw [fieldsAt_jctPin]
  rfl

theorem clearMask_jctPin : fieldMask isWc (fieldsAt (Reg.jctPin t p)) = 0#32 := by
  rw [fieldsAt_jctPin]
  rfl

theorem shadowMask_jctPin : fieldMask isSh (fieldsAt (Reg.jctPin t p)) = 0 := by
  rw [fieldsAt_jctPin]
  rfl

theorem State.newValue_jctPin : s.newValue (Reg.jctPin t p) v 0xFFFFFFFF
    = (s.view (Reg.jctPin t p) &&& ~~~0xF7) ||| (v &&& 0xF7) := by
  rw [State.newValue, writeMask_jctPin, fieldsAt_jctPin, BitVec.and_assoc]
  rfl

theorem State.role_newValue : bits (s.newValue (Reg.jctPin t p) v 0xFFFFFFFF) 2 0 = bits v 2 0 := by
  rw [State.newValue_jctPin, bits_merge _ _ _ _ _ (by decide)]

theorem State.index_newValue : bits (s.newValue (Reg.jctPin t p) v 0xFFFFFFFF) 7 4 = bits v 7 4 := by
  rw [State.newValue_jctPin, bits_merge _ _ _ _ _ (by decide)]

theorem rangesOk32_jctPin : rangesOk32 (fieldsAt (Reg.jctPin t p)) new 0xF7 = decide (bits new 2 0 ≤ 4) := by
  rw [fieldsAt_jctPin]
  simp [rangesOk32, isKept, limitOk, maskOf]

/-- The block's own rules for a pin are those of R50. -/
theorem State.blockRefuses_jctPin : s.blockRefuses (Reg.jctPin t p) new on mask
    = s.pinCheck t p (bits new 2 0) (bits new 7 4) := by
  have := p.isLt
  simp only [State.blockRefuses, jctPin_tile, jctPin_offset, if_pos (tileReg_jctPin t p).tile]
  rw [if_pos (by omega), Nat.mul_div_cancel_left _ (by decide)]

theorem State.lkRefuses_jctPin {s : State} (idle : s.tileSampling t = false) (stopped : s.clk.stopSampling = false)
    (old : Word) : s.lkRefuses (Reg.jctPin t p) old new = false := by
  have := p.isLt
  have rest : s.lkRuns (Reg.jctPin t p) = false := by
    simp only [State.lkRuns, jctPin_tile, jctPin_offset, if_pos (tileReg_jctPin t p).tile]
    rw [if_neg (by omega), if_neg (by omega), idle, stopped]
    rfl
  rw [State.lkRefuses, if_neg (tileReg_jctPin t p).notGate.2, rest, Bool.and_false, ite_self]

theorem State.writeActs_jctPin (old : State) : s.writeActs (Reg.jctPin t p) on mask old = s := by
  have := p.isLt
  simp only [State.writeActs, jctPin_offset, if_pos (tileReg_jctPin t p).tile]
  rw [if_neg (by omega), if_neg (by omega), if_neg (by omega), if_neg (by omega)]

end

section
variable {s : State} {id : Word} {t : Tile} {p : Pin} {v : Word}

/-- A write that R50 forbids is refused with its status and has no effect. -/
theorem State.writeReg_jctPin_refused {st : BitVec 16} (hr : s.addrRefused (Reg.jctPin t p) = none)
    (forbidden : s.pinCheck t p (bits v 2 0) (bits v 7 4) = some st) :
    s.writeReg id (Reg.jctPin t p) v 0xFFFFFFFF 0 = (st, s) := by
  have ranges := rangesOk32_jctPin t p (s.newValue (Reg.jctPin t p) v 0xFFFFFFFF)
  rw [← writeMask_jctPin t p, State.role_newValue] at ranges
  by_cases role : bits v 2 0 ≤ 4
  case pos =>
    refine (tileReg_jctPin t p).writeReg_refused hr (ranges.trans (decide_eq_true role)) ?_
    rw [State.blockRefuses_jctPin, State.role_newValue, State.index_newValue, forbidden]
  case neg =>
    have bad : st = St.badValue := by
      have five : 5 ≤ bits v 2 0 := by omega
      simp only [State.pinCheck, five, decide_true, Bool.true_or, if_true] at forbidden
      exact (Option.some.inj forbidden).symm
    rw [(tileReg_jctPin t p).writeReg_outOfRange hr (ranges.trans (decide_eq_false role)), bad]

/-- A pin that R50 allows takes its role and index. -/
theorem State.writeReg_jctPin (hr : s.addrRefused (Reg.jctPin t p) = none)
    (allowed : s.pinCheck t p (bits v 2 0) (bits v 7 4) = none) (idle : s.tileSampling t = false)
    (stopped : s.clk.stopSampling = false) :
    ∃ w, s.writeReg id (Reg.jctPin t p) v 0xFFFFFFFF 0 = (St.ok, s.set (Reg.jctPin t p) w)
      ∧ bits w 2 0 = bits v 2 0 ∧ bits w 7 4 = bits v 7 4 := by
  have role : bits v 2 0 ≤ 4 := by
    by_contra above
    have five : 5 ≤ bits v 2 0 := by omega
    simp [State.pinCheck, five] at allowed
  have ranges := rangesOk32_jctPin t p (s.newValue (Reg.jctPin t p) v 0xFFFFFFFF)
  rw [← writeMask_jctPin t p, State.role_newValue, decide_eq_true role] at ranges
  have block := s.blockRefuses_jctPin t p (s.newValue (Reg.jctPin t p) v 0xFFFFFFFF)
    (v &&& writeMask (Reg.jctPin t p) 0xFFFFFFFF) (writeMask (Reg.jctPin t p) 0xFFFFFFFF)
  rw [State.role_newValue, State.index_newValue, allowed] at block
  have reg := tileReg_jctPin t p
  have written := State.writeReg_checked (id := id) (busy := 0) hr (reg.modeBlocks _) reg.notHi reg.notLo reg.notRegion
    reg.notGate ranges block (State.lkRefuses_jctPin t p _ idle stopped _)
  rw [State.writeActs_jctPin, State.storeFields_noShadow _ _ _ (shadowMask_jctPin t p), directMask_jctPin,
    clearMask_jctPin, BitVec.and_zero, BitVec.or_zero] at written
  exact ⟨_, written, (bits_merge _ _ _ _ _ (by decide)).trans (State.role_newValue ..),
    (bits_merge _ _ _ _ _ (by decide)).trans (State.index_newValue ..)⟩

end

/-! ### JCT_EXe_CTRL -/

/-- A state that a write of a session leaves with other values in the registers `l` alone, the links and the time as they
were, and the session kept. -/
structure State.Carries (s u : State) (id : Word) (l : List Nat) : Prop where
  regs : s.KeepsRegs u l
  tim : u.tim = s.tim
  lnk : u.lnk = s.lnk
  session : ∀ x, s.findSession id = some x → ∃ y, u.findSession id = some y

theorem merge_none (x y : Word) : (x &&& ~~~(0 ||| 0)) ||| (y &&& 0) = x := by simp [and_ones]

/-- Without direct and WC fields a store leaves the registers in force. -/
theorem State.storeFields_carries (s : State) (id : Word) {a : Nat} (new mask : Word)
    (h : fieldMask isDirect (fieldsAt a) = 0) : s.Carries (s.storeFields id a new mask 0) id [] := by
  have same := s.keepsRegs_set_get a
  unfold State.storeFields
  simp only [h, merge_none]
  split
  · exact ⟨same, rfl, rfl, fun x hx => ⟨x, hx⟩⟩
  · refine ⟨same, rfl, rfl, fun x hx => ⟨addMark (blockOf a) x, ?_⟩⟩
    exact (State.find_updSession _ id _ (addMark_id _)).trans (congrArg (Option.map _) hx)

/-- The launch time that the LAUNCH registers of a source hold (R56). -/
def State.launchOf (s : State) (t e : Fin 4) : Nat :=
  s.launchTime (s.get (Reg.jctExLaunchS t e)).toNat (s.fld (Reg.jctExLaunchNs t e) 29 0)
    (s.fld (Reg.jctExLaunchFr t e) 15 0)

theorem State.launchOf_congr {s u : State} {t e : Fin 4} (tim : u.tim = s.tim)
    (regs : ∀ a, a ≠ Reg.jctExStat t e → 0x100000 ≤ a → u.get a = s.get a) : u.launchOf t e = s.launchOf t e := by
  have sec := regs (Reg.jctExLaunchS t e) (by simp only [Reg.jctExLaunchS, Reg.jctExStat]; omega)
    (by simp only [Reg.jctExLaunchS]; omega)
  have ns := regs (Reg.jctExLaunchNs t e) (by simp only [Reg.jctExLaunchNs, Reg.jctExStat]; omega)
    (by simp only [Reg.jctExLaunchNs]; omega)
  have fr := regs (Reg.jctExLaunchFr t e) (by simp only [Reg.jctExLaunchFr, Reg.jctExStat]; omega)
    (by simp only [Reg.jctExLaunchFr]; omega)
  unfold State.launchOf State.launchTime State.fld
  rw [sec, ns, fr, tim]

/-- What a write of DISARM does to its source, … -/
def State.sourceEnded (t e : Fin 4) (off : Bool) (s : State) : State := if off then s.disarm t e else s

/-- … and ARM after it. -/
def State.sourceWritten (t e : Fin 4) (off on : Bool) (s : State) : State :=
  let s := s.sourceEnded t e off
  if on then s.arm t e (s.launchOf t e) else s

theorem fieldsAt_jctExCtrl : ∀ (t : Tile) (e : Fin 4), fieldsAt (Reg.jctExCtrl t e)
    = [⟨.wo, 9, 9, .any⟩, ⟨.wo, 8, 8, .any⟩, ⟨.sh, 2, 2, .any⟩, ⟨.sh, 1, 0, .any⟩] := by decide +kernel

section
variable (s : State) (t : Tile) (e : Fin 4) (v new on mask : Word)

theorem tileReg_jctExCtrl : TileReg (Reg.jctExCtrl t e) := by
  have := t.isLt
  have := e.isLt
  constructor <;> simp only [Reg.jctExCtrl] <;> omega

theorem jctExCtrl_tile : (Fin.ofNat 4 (Reg.jctExCtrl t e / 0x10000 - 0x10)) = t := by
  revert t e
  decide

theorem jctExCtrl_offset : Reg.jctExCtrl t e % 0x10000 = 0x100 + 0x20 * e := by
  have := e.isLt
  simp only [Reg.jctExCtrl]
  omega

theorem writeMask_jctExCtrl : writeMask (Reg.jctExCtrl t e) 0xFFFFFFFF = 0x307 := by
  rw [writeMask, fieldsAt_jctExCtrl]
  rfl

theorem rangesOk32_jctExCtrl : rangesOk32 (fieldsAt (Reg.jctExCtrl t e)) new mask = true := by
  rw [fieldsAt_jctExCtrl]
  simp [rangesOk32, isKept, limitOk]

theorem directMask_jctExCtrl : fieldMask isDirect (fieldsAt (Reg.jctExCtrl t e)) = 0#32 := by
  rw [fieldsAt_jctExCtrl]
  rfl

theorem clearMask_jctExCtrl : fieldMask isWc (fieldsAt (Reg.jctExCtrl t e)) = 0#32 := by
  rw [fieldsAt_jctExCtrl]
  rfl

theorem lkMask_jctExCtrl : lkMask (Reg.jctExCtrl t e) = 0#32 := by
  have := (tileReg_jctExCtrl t e).tile
  rw [lkMask, if_neg (by simp only [Reg.pwrShedLo]; omega), fieldsAt_jctExCtrl]
  rfl

/-- ARM is refused by R55 and R57 alone. -/
theorem State.blockRefuses_jctExCtrl : s.blockRefuses (Reg.jctExCtrl t e) new on mask
    = if on.getLsbD 8 && s.armRefused t e then some St.badValue else none := by
  have := e.isLt
  simp only [State.blockRefuses, jctExCtrl_tile, jctExCtrl_offset, if_pos (tileReg_jctExCtrl t e).tile]
  rw [if_neg (by omega), if_pos (by omega), Nat.add_sub_cancel_left, Nat.mul_div_cancel_left _ (by decide)]

theorem State.lkRefuses_jctExCtrl (old : Word) : s.lkRefuses (Reg.jctExCtrl t e) old new = false := by
  have := e.isLt
  have reg := tileReg_jctExCtrl t e
  rw [State.lkRefuses, if_neg reg.notGate.2, if_neg (by rw [jctExCtrl_offset]; omega), lkMask_jctExCtrl, BitVec.and_zero]
  rfl

theorem State.writeActs_jctExCtrl (old : State) : s.writeActs (Reg.jctExCtrl t e) on mask old
    = s.sourceWritten t e (on.getLsbD 9) (on.getLsbD 8) := by
  have := e.isLt
  have source : Fin.ofNat 4 (e : Nat) = e := Fin.ofNat_val_eq_self e
  simp only [State.writeActs, jctExCtrl_tile, jctExCtrl_offset, if_pos (tileReg_jctExCtrl t e).tile]
  rw [if_pos (by omega), Nat.add_sub_cancel_left, Nat.mul_div_cancel_left _ (by decide), source]
  rfl

/-- A write of JCT_EXe_CTRL whose ARM is not refused stores MODE and DIR in the shadow and ends or starts the source. -/
theorem State.writeReg_jctExCtrl {s : State} (id : Word) (hr : s.addrRefused (Reg.jctExCtrl t e) = none)
    (allowed : v.getLsbD 8 = false ∨ s.armRefused t e = false) :
    ∃ u, s.Carries u id [] ∧ s.writeReg id (Reg.jctExCtrl t e) v 0xFFFFFFFF 0
      = (St.ok, u.sourceWritten t e (v.getLsbD 9) (v.getLsbD 8)) := by
  have reg := tileReg_jctExCtrl t e
  have bit (i : Nat) (h : (0x307 : Word).getLsbD i = true) : (v &&& 0x307).getLsbD i = v.getLsbD i := by
    rw [BitVec.getLsbD_and, h, Bool.and_true]
  have block := s.blockRefuses_jctExCtrl t e (s.newValue (Reg.jctExCtrl t e) v 0xFFFFFFFF)
    (v &&& writeMask (Reg.jctExCtrl t e) 0xFFFFFFFF) (writeMask (Reg.jctExCtrl t e) 0xFFFFFFFF)
  have pass : (v.getLsbD 8 && s.armRefused t e) = false := by
    rcases allowed with h | h <;> simp only [h, Bool.false_and, Bool.and_false]
  rw [writeMask_jctExCtrl, bit 8 (by decide), pass, if_neg Bool.false_ne_true, ← writeMask_jctExCtrl t e] at block
  have written := State.writeReg_checked (id := id) (busy := 0) hr (reg.modeBlocks _) reg.notHi reg.notLo reg.notRegion
    reg.notGate (rangesOk32_jctExCtrl t e _ _) block (State.lkRefuses_jctExCtrl s t e _ _)
  rw [clearMask_jctExCtrl, BitVec.and_zero, State.writeActs_jctExCtrl, writeMask_jctExCtrl, bit 8 (by decide),
    bit 9 (by decide)] at written
  exact ⟨_, s.storeFields_carries id _ _ (directMask_jctExCtrl t e), written⟩

end

section
variable {s u : State} {id : Word} {t e : Fin 4} {l : List Nat}

theorem State.Carries.disarm (h : s.Carries u id l) (hl : Reg.jctExStat t e ∈ l) : s.Carries (u.disarm t e) id l where
  regs a ha := (State.get_disarm_ne u t e (ne_of_mem_of_not_mem hl ha).symm).trans (h.regs a ha)
  tim := h.tim
  lnk := h.lnk
  session := h.session

theorem State.Carries.arm (n : Nat) (h : s.Carries u id l) (hl : Reg.jctExStat t e ∈ l) :
    s.Carries (u.arm t e n) id l where
  regs a ha := (State.get_arm_ne (ne_of_mem_of_not_mem hl ha).symm).trans (h.regs a ha)
  tim := State.arm_tim.trans h.tim
  lnk := State.arm_lnk.trans h.lnk
  session x hx := by
    obtain ⟨y, hy⟩ := h.session x hx
    exact ⟨y, by rw [State.findSession, State.arm_bcp]; exact hy⟩

theorem State.Carries.sourceEnded (off : Bool) (h : s.Carries u id []) :
    s.Carries (u.sourceEnded t e off) id [Reg.jctExStat t e] := by
  have start : s.Carries u id [Reg.jctExStat t e] := ⟨fun a _ => h.regs a List.not_mem_nil, h.tim, h.lnk, h.session⟩
  cases off
  · exact start
  · exact start.disarm (List.mem_singleton.mpr rfl)

theorem State.Carries.sourceWritten (off on : Bool) (h : s.Carries u id []) :
    s.Carries (u.sourceWritten t e off on) id [Reg.jctExStat t e] := by
  have ended := h.sourceEnded (t := t) (e := e) off
  unfold State.sourceWritten
  dsimp only
  split
  · exact ended.arm _ (List.mem_singleton.mpr rfl)
  · exact ended

/-- An ARM is for the time that the LAUNCH registers held when it was written, whether DISARM came with it or not. -/
theorem State.Carries.sourceWritten_on (off : Bool) (h : s.Carries u id []) :
    u.sourceWritten t e off true = (u.sourceEnded t e off).arm t e (s.launchOf t e) := by
  have ended := h.sourceEnded (t := t) (e := e) off
  have same : (u.sourceEnded t e off).launchOf t e = s.launchOf t e := State.launchOf_congr ended.tim fun a ha _ =>
    ended.regs a (mt List.mem_singleton.mp ha)
  rw [State.sourceWritten, same]
  exact if_pos rfl

end

/-! ### The statement -/

theorem State.arrived_pinCheck (s : State) (r : Req) (t : Fin 4) (p role index : Nat) :
    (s.arrived r).pinCheck t p role index = s.pinCheck t p role index := by
  have pin (q : Nat) : (s.arrived r).get (Reg.jctPin t q) = s.get (Reg.jctPin t q) :=
    s.get_arrived_tile r (by simp only [Reg.jctPin]; omega)
  have roles : (s.arrived r).pinRole t = s.pinRole t := funext fun q => congrArg (bits · 2 0) (pin q)
  have indices : (s.arrived r).pinIndex t = s.pinIndex t := funext fun q => congrArg (bits · 7 4) (pin q)
  unfold State.pinCheck
  rw [roles, indices]

theorem State.arrived_armRefused (s : State) (r : Req) (t : Fin 4) (e : Nat) :
    (s.arrived r).armRefused t e = s.armRefused t e := by
  have level : (s.arrived r).get (Reg.jctExLevel t e) = s.get (Reg.jctExLevel t e) :=
    s.get_arrived_tile r (by simp only [Reg.jctExLevel]; omega)
  have ctrl : (s.arrived r).get (Reg.jctExCtrl t e) = s.get (Reg.jctExCtrl t e) :=
    s.get_arrived_tile r (by simp only [Reg.jctExCtrl]; omega)
  have period : (s.arrived r).get (Reg.jctExPeriod t e) = s.get (Reg.jctExPeriod t e) :=
    s.get_arrived_tile r (by simp only [Reg.jctExPeriod]; omega)
  have pulse : (s.arrived r).get (Reg.jctExPulse t e) = s.get (Reg.jctExPulse t e) :=
    s.get_arrived_tile r (by simp only [Reg.jctExPulse]; omega)
  unfold State.armRefused State.pulseLeaves State.fld State.bit
  rw [level, ctrl, period, pulse]

/-- A pin write that R50 forbids is refused with its status. -/
theorem jctPinWrite_refused {s : State} {r : Req} {x : Session} {t : Tile} {p : Pin} {v : Word} {st : BitVec 16}
    (h : Served s writeForm r x) (hr : s.addrRefused (Reg.jctPin t p) = none)
    (forbidden : s.pinCheck t p (bits v 2 0) (bits v 7 4) = some st) :
    ∃ u, exec (.jctPinWrite r t p v) s = .next u ∧ Replied u r 0x0101 st []
      ∧ s.KeepsRegs u [Reg.lnkPortRx r.port] := by
  have refused := State.writeReg_jctPin_refused (id := r.session) ((s.arrived_addrRefused r _).trans hr)
    ((s.arrived_pinCheck r ..).trans forbidden)
  obtain ⟨u, next, answers, kept, -⟩ := rowWrite_answers (wireLen r) (.jctPinWrite r t p v) h (tileReg_jctPin t p).word
    refused rfl (fun _ _ => rfl) (fun _ h => absurd h List.not_mem_nil) h.found_arrived
  exact ⟨u, next, answers.replied, kept⟩

/-- A pin write that R50 allows takes effect. -/
theorem jctPinWrite_takes {s : State} {r : Req} {x : Session} {t : Tile} {p : Pin} {v : Word}
    (h : Served s writeForm r x) (hr : s.addrRefused (Reg.jctPin t p) = none)
    (allowed : s.pinCheck t p (bits v 2 0) (bits v 7 4) = none) (idle : s.tileSampling t = false)
    (stopped : s.clk.stopSampling = false) :
    ∃ u, exec (.jctPinWrite r t p v) s = .next u ∧ Replied u r 0x0101 St.ok [] ∧ u.pinRole t p = bits v 2 0
      ∧ u.pinIndex t p = bits v 7 4 ∧ s.KeepsRegs u [Reg.lnkPortRx r.port, Reg.jctPin t p] := by
  obtain ⟨w, written, role, index⟩ := State.writeReg_jctPin (s := s.arrived r) (id := r.session)
    ((s.arrived_addrRefused r _).trans hr) ((s.arrived_pinCheck r ..).trans allowed) idle stopped
  have far (b : Nat) (hb : b ∈ [Reg.jctPin t p]) : b < 0x40400 ∨ 0x404B0 ≤ b := by
    rw [List.mem_singleton.mp hb]
    exact .inr (Nat.le_trans (by decide) (tileReg_jctPin t p).tile)
  obtain ⟨u, next, answers, kept, -⟩ := rowWrite_answers (wireLen r) (.jctPinWrite r t p v) h (tileReg_jctPin t p).word
    written rfl ((s.arrived r).keepsRegs_set _ w) far h.found_arrived
  have held : u.get (Reg.jctPin t p) = w := (answers.get _).trans (State.get_set_same ..)
  exact ⟨u, next, answers.replied, (congrArg (bits · 2 0) held).trans role,
    (congrArg (bits · 7 4) held).trans index, kept⟩

/-- Two inputs of one kind to one channel are a conflict (R50). -/
theorem State.pinCheck_taken {s : State} {t : Fin 4} {p q : Pin} {role index : Nat} (input : role = 1 ∨ role = 2)
    (other : q ≠ p) (sameRole : s.pinRole t q = role) (sameIndex : s.pinIndex t q = index) :
    s.pinCheck t p role index = some St.routeConflict := by
  have taken : ((List.range 20).filter fun n => n != p.val && s.pinRole t n == role && s.pinIndex t n == index) ≠ [] :=
    List.ne_nil_of_mem (a := q.val) (List.mem_filter.mpr ⟨List.mem_range.mpr q.isLt, by
      simp [sameRole, sameIndex, Fin.val_ne_of_ne other]⟩)
  have nonempty := List.isEmpty_eq_false_iff.mpr taken
  rcases input with rfl | rfl <;> simp [State.pinCheck, nonempty]

section
variable {s : State} {r : Req} {x : Session} {t : Tile} {e : Fin 4} {v : Word}

/-- A served write of JCT_EXe_CTRL that is not refused is answered OK and shows what it did to its source. -/
theorem jctExCtrl_answers (n : Nat) (i : Instr) (h : Served s writeForm r x) (hr : s.addrRefused (Reg.jctExCtrl t e) = none)
    (allowed : v.getLsbD 8 = false ∨ s.armRefused t e = false) :
    ∃ u w, run (receive r.port n i fun s => s.rowWrite r (Reg.jctExCtrl t e) v 0) s = .next u
      ∧ (s.arrived r).Carries w r.session [] ∧ Replied u r 0x0101 St.ok []
      ∧ s.KeepsRegs u [Reg.lnkPortRx r.port, Reg.jctExStat t e]
      ∧ u.get (Reg.jctExStat t e) = (w.sourceWritten t e (v.getLsbD 9) (v.getLsbD 8)).get (Reg.jctExStat t e)
      ∧ u.findArm t e = (w.sourceWritten t e (v.getLsbD 9) (v.getLsbD 8)).findArm t e := by
  obtain ⟨w, stored, written⟩ := State.writeReg_jctExCtrl t e v r.session ((s.arrived_addrRefused r _).trans hr)
    (allowed.imp_right (s.arrived_armRefused r t e).trans)
  have source := stored.sourceWritten (t := t) (e := e) (v.getLsbD 9) (v.getLsbD 8)
  obtain ⟨y, hy⟩ := source.session _ h.found_arrived
  have far (b : Nat) (hb : b ∈ [Reg.jctExStat t e]) : b < 0x40400 ∨ 0x404B0 ≤ b := by
    rw [List.mem_singleton.mp hb]
    exact .inr (by simp only [Reg.jctExStat]; omega)
  obtain ⟨u, next, answers, kept, tiles⟩ := rowWrite_answers n i h (tileReg_jctExCtrl t e).word written source.lnk
    source.regs far hy
  have arms : u.findArm t e = (w.sourceWritten t e (v.getLsbD 9) (v.getLsbD 8)).findArm t e := by
    rw [State.findArm, State.tile, tiles]
    rfl
  exact ⟨u, w, next, stored, answers.replied, kept, answers.get _, arms⟩

/-- A served ARM that is not refused arms its source for the launch time, or marks it LATE. -/
theorem jctExCtrl_arms (n : Nat) (i : Instr) (h : Served s writeForm r x) (hr : s.addrRefused (Reg.jctExCtrl t e) = none)
    (arm : v.getLsbD 8 = true) (allowed : s.armRefused t e = false) :
    ∃ u w, run (receive r.port n i fun s => s.rowWrite r (Reg.jctExCtrl t e) v 0) s = .next u
      ∧ w.tim = s.tim ∧ Replied u r 0x0101 St.ok [] ∧ s.KeepsRegs u [Reg.lnkPortRx r.port, Reg.jctExStat t e]
      ∧ u.get (Reg.jctExStat t e) = (State.arm t e (s.launchOf t e) w).get (Reg.jctExStat t e)
      ∧ u.findArm t e = (State.arm t e (s.launchOf t e) w).findArm t e := by
  obtain ⟨u, w, next, stored, replied, kept, stat, arms⟩ := jctExCtrl_answers n i h hr (.inr allowed)
  have launch : (s.arrived r).launchOf t e = s.launchOf t e := State.launchOf_congr rfl fun _ _ => s.get_arrived_tile r
  rw [arm, stored.sourceWritten_on, launch] at stat arms
  exact ⟨u, _, next, (stored.sourceEnded _).tim, replied, kept, stat, arms⟩

end

/-- Settles O29: each write passes or fails the checks of its register, and what it leaves is what the answer shows. -/
theorem pinAndSourceWritesComplete : Obligations.PinAndSourceWritesComplete := by
  unfold Obligations.PinAndSourceWritesComplete
  refine ⟨fun s r x t p v h hr allowed idle stopped => jctPinWrite_takes h hr allowed idle stopped,
    fun s r x t p q v h hr input other role index => jctPinWrite_refused h hr (State.pinCheck_taken input other role index),
    fun s r x t p v st h hr forbidden => jctPinWrite_refused h hr forbidden, ?ahead, ?late, ?ends⟩
  case ahead =>
    rintro s r x t e v _ h hr arm allowed rfl ahead
    obtain ⟨u, w, next, time, replied, kept, stat, arms⟩ :=
      jctExCtrl_arms (wireLen r) (.excitationArm r t e v) h hr arm allowed
    rw [← time] at ahead
    exact ⟨u, next, replied, arms.trans (State.findArm_arm_ahead ahead),
      (congrArg (BitVec.getLsbD · 0) stat).trans (State.bit_arm_ahead ahead),
      (congrArg (bits · 31 16) stat).trans (State.sent_arm_ahead ahead), kept⟩
  case late =>
    rintro s r x t e v _ h hr arm allowed rfl late
    obtain ⟨u, w, next, time, replied, -, stat, arms⟩ :=
      jctExCtrl_arms (wireLen r) (.excitationArm r t e v) h hr arm allowed
    rw [← time] at late
    exact ⟨u, next, replied, arms.trans (State.findArm_arm_late late),
      (congrArg (BitVec.getLsbD · 0) stat).trans (State.bit_arm_late late),
      (congrArg (BitVec.getLsbD · 1) stat).trans (State.late_arm_late late)⟩
  case ends =>
    intro s r x t e v h hr off noArm
    obtain ⟨u, w, next, -, replied, kept, stat, arms⟩ :=
      jctExCtrl_answers (wireLen r) (.excitationDisarm r t e v) h hr (.inl noArm)
    rw [off, noArm] at stat arms
    exact ⟨u, next, replied, arms.trans (State.findArm_disarm w t e),
      (congrArg (BitVec.getLsbD · 0) stat).trans (State.bit_disarm w t e), kept⟩

end Sys2Proof.Machine
end

