-- ==== Sys2Proof/Proofs/SourceCommands.lean ====
section
/-! PULSE_ARM and RANGE_CAL (R56, R57, R112, R341): what a served command does to the sources and tiles that it names, and
that it leaves the others alone. -/

namespace Sys2Proof.Machine

/-! ### PULSE_ARM -/

/-- The row of PULSE_ARM in R340. -/
abbrev pulseForm : Form := Form.make 0x0200 18 State.inRun

/-- The sources that a PULSE_ARM names, by tile and number. -/
def armSources (m : BitVec 16) : List (Fin 4 × Fin 4) :=
  (bitList m).map fun i => (Fin.ofNat 4 (i / 4), Fin.ofNat 4 (i % 4))

theorem mem_armSources (m : BitVec 16) (t e : Fin 4) :
    (t, e) ∈ armSources m ↔ m.getLsbD (4 * t.val + e.val) = true := by
  rw [armSources, List.mem_map]
  constructor
  case mp =>
    rintro ⟨i, hi, same⟩
    have bit := (mem_bitList m i).mp hi
    have small : i < 16 := BitVec.lt_of_getLsbD bit
    obtain ⟨ht, he⟩ := Prod.mk.inj same
    have tile := congrArg Fin.val ht
    have number := congrArg Fin.val he
    simp only [Fin.val_ofNat] at tile number
    have index : 4 * t.val + e.val = i := by omega
    rwa [index]
  case mpr =>
    refine fun bit => ⟨4 * t.val + e.val, (mem_bitList m _).mpr bit, Prod.ext (Fin.ext ?_) (Fin.ext ?_)⟩ <;>
      simp only [Fin.val_ofNat] <;> omega

theorem nodup_armSources (m : BitVec 16) : (armSources m).Nodup := by
  refine List.Nodup.map_on (fun i hi j hj same => ?_) (nodup_bitList m)
  have := BitVec.lt_of_getLsbD ((mem_bitList m i).mp hi)
  have := BitVec.lt_of_getLsbD ((mem_bitList m j).mp hj)
  obtain ⟨ht, he⟩ := Prod.mk.inj same
  have tile := congrArg Fin.val ht
  have number := congrArg Fin.val he
  simp only [Fin.val_ofNat] at tile number
  omega

theorem jctExStat_ne {x y : Fin 4 × Fin 4} (h : x ≠ y) : Reg.jctExStat x.1 x.2 ≠ Reg.jctExStat y.1 y.2 := by
  revert x y
  decide

/-- A source other than the one that is disarmed, or armed, stays armed as it was. -/
theorem State.findArm_disarm_ne (s : State) {x y : Fin 4 × Fin 4} (h : x ≠ y) :
    (s.disarm y.1 y.2).findArm x.1 x.2 = s.findArm x.1 x.2 := by
  by_cases same : x.1 = y.1
  case neg => rw [State.findArm, s.disarm_tile_ne y.1 y.2 same, State.findArm]
  case pos =>
    have apart (a : Arm) : (a.source != y.2 && a.source.val == x.2.val) = (a.source.val == x.2.val) := by
      by_cases own : a.source.val = x.2.val
      · have other : a.source ≠ y.2 := fun e => h (Prod.ext same ((Fin.ext own).symm.trans e))
        simp [own, other]
      · simp [own]
    show (s.updTile y.1 fun z => { z with arms := z.arms.filter fun a => a.source != y.2 }).findArm x.1 x.2 = _
    rw [same, State.findArm_updTile, List.find?_filter]
    simp only [Bool.decide_and, Bool.decide_eq_true, apart]
    rfl

theorem State.findArm_arm_ne (s : State) (l : Nat) {x y : Fin 4 × Fin 4} (h : x ≠ y) :
    (s.arm y.1 y.2 l).findArm x.1 x.2 = s.findArm x.1 x.2 := by
  have disarmed := s.findArm_disarm_ne h
  rcases Nat.lt_or_ge l (s.tim.mt + usU 20) with late | ahead
  case inl => rw [State.arm_late late, ← disarmed]; rfl
  case inr =>
    rw [State.arm_ahead ahead, ← disarmed]
    by_cases same : x.1 = y.1
    case neg =>
      rw [State.findArm, State.updTile_tile_ne _ _ _ _ same]
      rfl
    case pos =>
      have other : y.2.val ≠ x.2.val := fun e => h (Prod.ext same (Fin.ext e.symm))
      rw [same, State.findArm_updTile, List.find?_append]
      simp [other]
      rfl

/-- What a PULSE_ARM shows of one source. -/
def State.sourceView (x : Fin 4 × Fin 4) (s : State) : Option Arm × Word × Nat :=
  (s.findArm x.1 x.2, s.get (Reg.jctExStat x.1 x.2), s.tim.mt)

theorem State.sourceView_arm_ne (s : State) (l : Nat) {x y : Fin 4 × Fin 4} (h : y ≠ x) :
    (s.arm y.1 y.2 l).sourceView x = s.sourceView x := by
  rw [State.sourceView, s.findArm_arm_ne l h.symm, State.get_arm_ne (jctExStat_ne h.symm), State.arm_tim,
    State.sourceView]

/-- The sources armed one after the other. -/
def State.armAll (l : Nat) (xs : List (Fin 4 × Fin 4)) (s : State) : State :=
  xs.foldl (fun (s : State) (x : Fin 4 × Fin 4) => s.arm x.1 x.2 l) s

/-- A source that is named is armed once, at the present time; … -/
theorem State.armAll_named (s : State) (l : Nat) {xs : List (Fin 4 × Fin 4)} {x : Fin 4 × Fin 4} (once : xs.Nodup)
    (hx : x ∈ xs) : ∃ w : State, w.tim.mt = s.tim.mt
      ∧ (s.armAll l xs).findArm x.1 x.2 = (w.arm x.1 x.2 l).findArm x.1 x.2
      ∧ (s.armAll l xs).get (Reg.jctExStat x.1 x.2) = (w.arm x.1 x.2 l).get (Reg.jctExStat x.1 x.2) := by
  obtain ⟨w, same, last⟩ := foldl_observe (f := fun (s : State) (x : Fin 4 × Fin 4) => s.arm x.1 x.2 l)
    (State.sourceView x) x (fun y _ hy s => s.sourceView_arm_ne l hy) once hx s
  obtain ⟨arm, rest⟩ := Prod.mk.inj last
  exact ⟨w, congrArg (·.2.2) same, arm, (Prod.mk.inj rest).1⟩

/-- … one that is not named stays as it was. -/
theorem State.armAll_unnamed (s : State) (l : Nat) {xs : List (Fin 4 × Fin 4)} {x : Fin 4 × Fin 4} (hx : x ∉ xs) :
    (s.armAll l xs).findArm x.1 x.2 = s.findArm x.1 x.2
      ∧ (s.armAll l xs).get (Reg.jctExStat x.1 x.2) = s.get (Reg.jctExStat x.1 x.2) := by
  have view := foldl_unobserved (State.sourceView x)
    (fun _ hy s => s.sourceView_arm_ne l (ne_of_mem_of_not_mem hy hx)) s
  obtain ⟨arm, rest⟩ := Prod.mk.inj view
  exact ⟨arm, (Prod.mk.inj rest).1⟩

theorem State.armAll_keepsRegs (s : State) (l : Nat) (xs : List (Fin 4 × Fin 4)) :
    s.KeepsRegs (s.armAll l xs) (xs.map fun x => Reg.jctExStat x.1 x.2) := by
  intro a ha
  refine foldl_unobserved (State.get · a) (fun y hy s => State.get_arm_ne fun same => ha ?_) s
  exact List.mem_map.mpr ⟨y, hy, same.symm⟩

/-- Arming touches registers and tiles only. -/
theorem State.armAll_shape (l : Nat) (xs : List (Fin 4 × Fin 4)) :
    ∀ s : State, ∃ regs tiles, s.armAll l xs = { s with regs := regs, tiles := tiles } := by
  induction xs with
  | nil => exact fun s => ⟨_, _, rfl⟩
  | cons x xs ih =>
    intro s
    obtain ⟨regs, tiles, rest⟩ := ih (s.arm x.1 x.2 l)
    refine ⟨regs, tiles, ?_⟩
    unfold State.armAll at rest ⊢
    rw [List.foldl_cons, rest, State.arm_shape]

theorem State.arrived_tileTraining (s : State) (r : Req) (t : Fin 4) :
    (s.arrived r).tileTraining t = s.tileTraining t := by
  have status : (s.arrived r).get (Reg.lnkTlStat t) = s.get (Reg.lnkTlStat t) :=
    s.get_arrived_ne r _ (ne_lnkPortRx r.port (.inr (by simp only [Reg.lnkTlStat]; omega)))
  unfold State.tileTraining State.bit
  rw [status]

/-- A source that a PULSE_ARM may arm (R341). -/
structure State.ArmFree (s : State) (t e : Fin 4) : Prop where
  powered : s.tilePowered t = true
  trained : s.tileTraining t = false
  idle : s.bit (Reg.jctExStat t e) 0 = false
  allowed : s.armRefused t e = false

theorem State.armFree_of_and {s : State} {t e : Fin 4} (h : s.tilePowered t = true ∧ s.tileTraining t = false
    ∧ s.bit (Reg.jctExStat t e) 0 = false ∧ s.armRefused t e = false) : s.ArmFree t e := by
  obtain ⟨powered, trained, idle, allowed⟩ := h
  exact ⟨powered, trained, idle, allowed⟩

theorem State.arrived_armFree {s : State} {t e : Fin 4} (r : Req) (h : s.ArmFree t e) : (s.arrived r).ArmFree t e := by
  obtain ⟨powered, trained, idle, allowed⟩ := h
  have stat : (s.arrived r).get (Reg.jctExStat t e) = s.get (Reg.jctExStat t e) :=
    s.get_arrived_tile r (by simp only [Reg.jctExStat]; omega)
  exact ⟨powered, (s.arrived_tileTraining r t).trans trained, by rw [State.bit, stat]; exact idle,
    (s.arrived_armRefused r t e).trans allowed⟩

/-- A PULSE_ARM that no source refuses arms them all. -/
theorem State.pulseArm_accepted {s : State} {m : BitVec 16} {w : Wide} (ns : w.ns.toNat < 1000000000)
    (free : ∀ (t e : Fin 4), m.getLsbD (4 * t.val + e.val) = true → s.ArmFree t e) :
    s.pulseArm m w = (St.ok, [], s.armAll (Wide.toU w) (armSources m)) := by
  have none {p : Fin 4 × Fin 4 → Bool}
      (h : ∀ t e : Fin 4, m.getLsbD (4 * t.val + e.val) = true → p (t, e) = false) : (armSources m).any p = false :=
    List.any_eq_false.mpr fun ⟨t, e⟩ hx => by simp [h t e ((mem_armSources m t e).mp hx)]
  have powered := none (p := fun x => !s.tilePowered x.1) fun t e h => by simp [(free t e h).powered]
  have trained := none (p := fun x => s.tileTraining x.1) fun t e h => (free t e h).trained
  have idle := none (p := fun x => s.bit (Reg.jctExStat x.1 x.2) 0) fun t e h => (free t e h).idle
  have allowed := none (p := fun x => s.armRefused x.1 x.2) fun t e h => (free t e h).allowed
  unfold armSources at powered trained idle allowed
  simp only [State.pulseArm, if_neg (Nat.not_le.mpr ns), powered, trained, idle, allowed, Bool.false_eq_true, if_false]
  rfl

/-- A served PULSE_ARM that no source refuses is answered OK and shows every source as the arming has left it. -/
theorem pulseArm_answers {s : State} {r : Req} {x : Session} {m : BitVec 16} {w : Wide} (h : Served s pulseForm r x)
    (ns : w.ns.toNat < 1000000000)
    (free : ∀ (t e : Fin 4), m.getLsbD (4 * t.val + e.val) = true → s.ArmFree t e) :
    ∃ u, exec (.pulseArm r m w) s = .next u ∧ Replied u r 0x0200 St.ok []
      ∧ (∀ t e : Fin 4, m.getLsbD (4 * t.val + e.val) = true → ∃ v : State, v.tim.mt = s.tim.mt
          ∧ u.findArm t e = (v.arm t e (Wide.toU w)).findArm t e
          ∧ u.get (Reg.jctExStat t e) = (v.arm t e (Wide.toU w)).get (Reg.jctExStat t e))
      ∧ (∀ t e : Fin 4, m.getLsbD (4 * t.val + e.val) = false → u.findArm t e = s.findArm t e
          ∧ u.get (Reg.jctExStat t e) = s.get (Reg.jctExStat t e)) := by
  have stat (t e : Fin 4) : (s.arrived r).get (Reg.jctExStat t e) = s.get (Reg.jctExStat t e) :=
    s.get_arrived_tile r (by simp only [Reg.jctExStat]; omega)
  have accepted := State.pulseArm_accepted (s := s.arrived r) ns fun t e named => State.arrived_armFree r (free t e named)
  have far (b : Nat) (hb : b ∈ (armSources m).map fun x => Reg.jctExStat x.1 x.2) : b < 0x40400 ∨ 0x404B0 ≤ b := by
    obtain ⟨y, -, rfl⟩ := List.mem_map.mp hb
    exact .inr (by simp only [Reg.jctExStat]; omega)
  obtain ⟨_, _, shape⟩ := State.armAll_shape (Wide.toU w) (armSources m) (s.arrived r)
  have links : ((s.arrived r).armAll (Wide.toU w) (armSources m)).lnk = s.lnk := (congrArg State.lnk shape :)
  have found := (congrArg (State.findSession · r.session) shape).trans h.found_arrived
  obtain ⟨u, next, answers, -, tiles⟩ := run_answers_tiles (body := fun _ s => s.pulseArm m w) (wireLen r)
    (.pulseArm r m w) h rfl accepted links (State.armAll_keepsRegs (s.arrived r) _ _) far found
  have arms (t e : Fin 4) : u.findArm t e = ((s.arrived r).armAll (Wide.toU w) (armSources m)).findArm t e := by
    rw [State.findArm, State.tile, tiles]
    rfl
  refine ⟨u, next, answers.replied, fun t e named => ?_, fun t e unnamed => ?_⟩
  · obtain ⟨v, time, arm, shown⟩ := (s.arrived r).armAll_named (Wide.toU w) (nodup_armSources m)
      ((mem_armSources m t e).mpr named)
    exact ⟨v, time, (arms t e).trans arm, (answers.get _).trans shown⟩
  · obtain ⟨arm, shown⟩ := (s.arrived r).armAll_unnamed (Wide.toU w)
      (mt (mem_armSources m t e).mp (Bool.eq_false_iff.mp unnamed))
    exact ⟨(arms t e).trans arm, (answers.get _).trans (shown.trans (stat t e))⟩

/-! ### RANGE_CAL -/

/-- The row of RANGE_CAL in R340. -/
abbrev calForm : Form := Form.make 0x0201 1 State.inCalibrate

/-- The tiles that a RANGE_CAL names. -/
def calTiles (m : BitVec 4) : List (Fin 4) := allTiles.filter fun t => m.getLsbD t.val

theorem mem_calTiles (m : BitVec 4) (t : Fin 4) : t ∈ calTiles m ↔ m.getLsbD t.val = true := by
  have all : t ∈ allTiles := by
    revert t
    decide
  rw [calTiles, List.mem_filter]
  exact ⟨fun h => h.2, fun h => ⟨all, h⟩⟩

theorem nodup_calTiles (m : BitVec 4) : (calTiles m).Nodup := List.Nodup.filter _ (by decide)

theorem calStat_ne {t o : Fin 4} (h : t ≠ o) : Reg.calStat t ≠ Reg.calStat o := by
  revert t o
  decide

/-- What a RANGE_CAL shows of one tile. -/
def State.calView (t : Fin 4) (s : State) : Word × Relief := (s.get (Reg.calStat t), s.relief t)

section
variable (s : State) (t : Fin 4) (op : Option OpRef)

theorem State.startRangeCal_idle (h : s.bit (Reg.calStat t) 20 = false) : s.startRangeCal t op =
    ((s.setBit (Reg.calStat t) 20 true).updTile t fun x =>
      { x with inject := x.inject ++ [(s.samplePos, none)] }).updRelief t fun r => { r with rangeOp := op } := by
  rw [State.startRangeCal, h]
  rfl

theorem State.startRangeCal_lnk : (s.startRangeCal t op).lnk = s.lnk := by
  unfold State.startRangeCal
  split <;> rfl

theorem State.startRangeCal_bcp : (s.startRangeCal t op).bcp = s.bcp := by
  unfold State.startRangeCal
  split <;> rfl

theorem State.get_startRangeCal_ne {a : Nat} (h : a ≠ Reg.calStat t) : (s.startRangeCal t op).get a = s.get a := by
  unfold State.startRangeCal
  split
  · rfl
  · exact State.get_setBit_ne _ _ _ _ _ h

theorem State.calView_startRangeCal_ne {o : Fin 4} (h : t ≠ o) : (s.startRangeCal t op).calView o = s.calView o := by
  have relief : (s.startRangeCal t op).relief o = s.relief o := by
    unfold State.startRangeCal
    split
    · rfl
    · rw [State.updRelief_relief_ne _ _ _ _ h.symm, State.relief, State.updTile_tile_ne _ _ _ _ h.symm]
      rfl
  rw [State.calView, s.get_startRangeCal_ne t op (calStat_ne h.symm), relief, State.calView]

end

/-- Range calibration begun on tiles one after the other. -/
def State.calAll (op : Option OpRef) (ts : List (Fin 4)) (s : State) : State :=
  ts.foldl (fun (s : State) (t : Fin 4) => s.startRangeCal t op) s

/-- Range calibration runs on the tiles named, and is on the others what it was; nothing below the tiles changes. -/
structure State.RangesCalibrate (s g : State) (m : BitVec 4) : Prop where
  named : ∀ t : Fin 4, m.getLsbD t.val = true → g.bit (Reg.calStat t) 20 = true ∧ (g.relief t).rangeOp.isSome = true
  unnamed : ∀ t : Fin 4, m.getLsbD t.val = false → g.get (Reg.calStat t) = s.get (Reg.calStat t)
  below : ∀ a, a < 0x100000 → g.get a = s.get a
  lnk : g.lnk = s.lnk

theorem State.calAll_calibrates (s : State) (m : BitVec 4) (o : OpRef)
    (idle : ∀ t : Fin 4, m.getLsbD t.val = true → s.bit (Reg.calStat t) 20 = false) :
    s.RangesCalibrate (s.calAll (some o) (calTiles m)) m where
  named t ht := by
    obtain ⟨w, same, last⟩ := foldl_observe (f := fun (s : State) (t : Fin 4) => s.startRangeCal t (some o))
      (State.calView t) t (fun y _ hy s => s.calView_startRangeCal_ne y (some o) hy) (nodup_calTiles m)
      ((mem_calTiles m t).mpr ht) s
    have free : w.bit (Reg.calStat t) 20 = false :=
      (congrArg (fun v : Word × Relief => v.1.getLsbD 20) same).trans (idle t ht)
    rw [w.startRangeCal_idle t _ free] at last
    obtain ⟨stat, relief⟩ := Prod.mk.inj last
    exact ⟨(congrArg (BitVec.getLsbD · 20) stat).trans (State.bit_setBit_same _ _ _ _ (by decide)),
      by rw [State.calAll, relief, State.updRelief_relief_same]; rfl⟩
  unnamed t ht := by
    have notNamed : t ∉ calTiles m := mt (mem_calTiles m t).mp (Bool.eq_false_iff.mp ht)
    exact congrArg Prod.fst (foldl_unobserved (State.calView t)
      (fun y hy s => s.calView_startRangeCal_ne y (some o) (ne_of_mem_of_not_mem hy notNamed)) s)
  below a ha := foldl_unobserved (State.get · a) (fun t _ s => s.get_startRangeCal_ne t (some o)
    (Nat.ne_of_lt (Nat.lt_of_lt_of_le ha (by simp only [Reg.calStat]; omega)))) s
  lnk := foldl_unobserved State.lnk (fun t _ s => s.startRangeCal_lnk t (some o)) s

theorem State.calAll_bcp (s : State) (op : Option OpRef) (ts : List (Fin 4)) : (s.calAll op ts).bcp = s.bcp :=
  foldl_unobserved State.bcp (fun t _ s => s.startRangeCal_bcp t op) s

/-- What RANGE_CAL begins: with no tile named the operation is done at once (R329, R341). -/
def State.calBegin (o : OpRef) (m : BitVec 4) (s : State) : State :=
  if (calTiles m).isEmpty then s.opDone o St.ok (beBytes 1 0) else s.calAll (some o) (calTiles m)

theorem State.calBegin_calibrates (s : State) (m : BitVec 4) (o : OpRef)
    (idle : ∀ t : Fin 4, m.getLsbD t.val = true → s.bit (Reg.calStat t) 20 = false) :
    s.RangesCalibrate (s.calBegin o m) m := by
  unfold State.calBegin
  split
  case isFalse => exact s.calAll_calibrates m o idle
  case isTrue none =>
    have same (a : Nat) : (s.opDone o St.ok (beBytes 1 0)).get a = s.get a := by simp [State.get]
    refine ⟨fun t ht => ?_, fun t _ => same _, fun a _ => same a, State.opDone_lnk ..⟩
    have named := (mem_calTiles m t).mpr ht
    rw [List.isEmpty_iff.mp none] at named
    exact absurd named List.not_mem_nil

/-- An operation that is done is held on by its session until it is read. -/
theorem State.opDone_holds {s : State} {id : Word} {y : Session} {o : Op} (st : BitVec 16) (d : List Byte)
    (found : s.findSession id = some y) (held : o ∈ y.ops) :
    ∃ z p, (s.opDone ⟨id, o.handle⟩ st d).findSession id = some z ∧ p ∈ z.ops ∧ p.handle = o.handle
      ∧ p.opcode = o.opcode := by
  have present : (y.ops.find? fun p => p.handle = o.handle).isSome = true :=
    List.find?_isSome.mpr ⟨o, held, decide_eq_true rfl⟩
  obtain ⟨q, hq⟩ := Option.isSome_iff_exists.mp present
  have op : s.findOp ⟨id, o.handle⟩ = some q := by
    rw [State.findOp, found]
    exact hq
  have ended := State.find_updSession s id (updOp o.handle fun p => { p with done := true, final := st, result := d })
    (fun _ => rfl)
  rw [State.opDone_some _ _ _ _ _ op, State.find_attendIf, State.updOpRef, ended, found]
  refine ⟨_, { o with done := true, final := st, result := d }, rfl, ?_, rfl, rfl⟩
  have mem : { o with done := true, final := st, result := d } ∈
      (updOp o.handle (fun p => { p with done := true, final := st, result := d }) y).ops :=
    List.mem_map.mpr ⟨o, held, if_pos rfl⟩
  beta_reduce
  split
  · exact mem
  · exact mem

/-- The operation that RANGE_CAL begins is held by its session. -/
theorem State.calBegin_holds {s : State} {id : Word} {y : Session} {o : Op} (m : BitVec 4)
    (found : s.findSession id = some y) (held : o ∈ y.ops) :
    ∃ z p, (s.calBegin ⟨id, o.handle⟩ m).findSession id = some z ∧ p ∈ z.ops ∧ p.handle = o.handle
      ∧ p.opcode = o.opcode := by
  unfold State.calBegin
  split
  · exact State.opDone_holds _ _ found held
  · refine ⟨y, o, ?_, held, rfl, rfl⟩
    rw [State.findSession, State.calAll_bcp]
    exact found

/-- A RANGE_CAL whose tiles are powered and calibrate nothing begins its operation. -/
theorem State.rangeCal_accepted {s : State} {x : Session} {m : BitVec 4} (found : s.findSession x.id = some x)
    (room : x.HasRoom) (powered : ∀ t : Fin 4, m.getLsbD t.val = true → s.tilePowered t = true)
    (idle : ∀ t : Fin 4, m.getLsbD t.val = true → s.bit (Reg.calStat t) 20 = false) :
    ∃ h, s.rangeCal m x = (St.accepted, beBytes 2 h ++ beBytes 2 0 ++ [],
      (s.opened x.id (Op.fresh h 0x0201 [0, 0])).calBegin ⟨x.id, h⟩ m) := by
  have up : ((calTiles m).any fun t => !s.tilePowered t) = false :=
    List.any_eq_false.mpr fun t ht => by simp [powered t ((mem_calTiles m t).mp ht)]
  have free : ((calTiles m).any fun t => s.bit (Reg.calStat t) 20) = false :=
    List.any_eq_false.mpr fun t ht => by simp [idle t ((mem_calTiles m t).mp ht)]
  obtain ⟨h, begun⟩ := State.long_accepted s x.id x 0x0201 [0, 0] [] (fun o s => s.calBegin o m) found room
  refine ⟨h, Eq.trans ?_ begun⟩
  unfold calTiles at up free
  simp only [State.rangeCal, up, free, Bool.false_eq_true, if_false]
  rfl

/-- A served RANGE_CAL is accepted and shows what it has begun. -/
theorem rangeCal_answers {s : State} {r : Req} {x : Session} {m : BitVec 4} (h : Served s calForm r x) (room : x.HasRoom)
    (free : ∀ t : Fin 4, m.getLsbD t.val = true → s.tilePowered t = true ∧ s.bit (Reg.calStat t) 20 = false) :
    ∃ u, exec (.rangeCal r m) s = .next u ∧ Accepted u r 0x0201 []
      ∧ (∀ t : Fin 4, m.getLsbD t.val = true → u.bit (Reg.calStat t) 20 = true
          ∧ (u.relief t).rangeOp.isSome = true)
      ∧ (∀ t : Fin 4, m.getLsbD t.val = false → u.get (Reg.calStat t) = s.get (Reg.calStat t)) := by
  have stat (t : Fin 4) : (s.arrived r).get (Reg.calStat t) = s.get (Reg.calStat t) :=
    s.get_arrived_tile r (by simp only [Reg.calStat]; omega)
  have idle (t : Fin 4) (ht : m.getLsbD t.val = true) : (s.arrived r).bit (Reg.calStat t) 20 = false := by
    rw [State.bit, stat]
    exact (free t ht).2
  obtain ⟨n, accepted⟩ := State.rangeCal_accepted (s := s.arrived r) (x := x.hear s.tim.now r)
    (h.hear_id ▸ h.found_arrived) room (fun t ht => (free t ht).1) idle
  rw [h.hear_id] at accepted
  have opened := State.find_opened (s.arrived r) r.session _ (Op.fresh n 0x0201 [0, 0]) h.found_arrived
  have begun := ((s.arrived r).opened r.session (Op.fresh n 0x0201 [0, 0])).calBegin_calibrates m ⟨r.session, n⟩ idle
  obtain ⟨y, op, found, held, handle, opcode⟩ : ∃ y op, (((s.arrived r).opened r.session
      (Op.fresh n 0x0201 [0, 0])).calBegin ⟨r.session, n⟩ m).findSession r.session = some y ∧ op ∈ y.ops
      ∧ op.handle = n ∧ op.opcode = 0x0201 :=
    State.calBegin_holds m opened (List.mem_append_right _ (List.mem_singleton.mpr rfl))
  generalize ((s.arrived r).opened r.session (Op.fresh n 0x0201 [0, 0])).calBegin ⟨r.session, n⟩ m = g at *
  have links : g.lnk = s.lnk := begun.lnk
  have plain : g.bit (Reg.lnkProvCtrl r.port) 31 = false := by
    have kept := (begun.below (Reg.lnkProvCtrl r.port) (by simp only [Reg.lnkProvCtrl]; omega)).trans
      (s.get_arrived_ne r _ (lnkPortRx_ne r.port r.port).1)
    rw [State.bit, kept]
    exact h.quiet.plain
  have shown (a : Nat) := State.answered_get (f := calForm) (r := r)
    (a := (St.accepted, beBytes 2 n ++ beBytes 2 0 ++ [], g)) a rfl plain (links ▸ h.quiet.heldTx)
  have served := run_served (wireLen r) (.rangeCal r m) (fun x s => s.rangeCal m x) h
    (by rw [accepted]; exact congrArg Lnk.heldRx links)
  rw [accepted] at served
  subst handle
  refine ⟨_, served, State.answered_accepted g rfl found held opcode, fun t ht => ⟨?running, ?owned⟩,
    fun t ht => ?other⟩
  case running => exact (congrArg (BitVec.getLsbD · 20) (shown _)).trans (begun.named t ht).1
  case owned =>
    rw [State.relief, State.tile, State.keeping_tiles, State.answered_tiles]
    exact (begun.named t ht).2
  case other => exact (shown _).trans ((begun.unnamed t ht).trans (stat t))

/-! ### The statement -/

/-- Settles O25: a PULSE_ARM comes to each source that it names once, a RANGE_CAL to each tile, and neither to another. -/
theorem sourcesArmAndRangesCalibrate : Obligations.SourcesArmAndRangesCalibrate := by
  unfold Obligations.SourcesArmAndRangesCalibrate
  refine ⟨?ahead, ?late, ?ranges⟩
  case ahead =>
    intro s r x m w h ns ahead free
    obtain ⟨u, next, replied, named, unnamed⟩ := pulseArm_answers h ns fun t e hm => State.armFree_of_and (free t e hm)
    refine ⟨u, next, replied, fun t e hm => ?_, unnamed⟩
    obtain ⟨v, time, arm, stat⟩ := named t e hm
    rw [← time] at ahead
    exact ⟨arm.trans (State.findArm_arm_ahead ahead),
      (congrArg (BitVec.getLsbD · 0) stat).trans (State.bit_arm_ahead ahead),
      (congrArg (bits · 31 16) stat).trans (State.sent_arm_ahead ahead)⟩
  case late =>
    intro s r x m w h ns late free
    obtain ⟨u, next, replied, named, -⟩ := pulseArm_answers h ns fun t e hm => State.armFree_of_and (free t e hm)
    refine ⟨u, next, replied, fun t e hm => ?_⟩
    obtain ⟨v, time, arm, stat⟩ := named t e hm
    rw [← time] at late
    exact ⟨arm.trans (State.findArm_arm_late late),
      (congrArg (BitVec.getLsbD · 0) stat).trans (State.bit_arm_late late),
      (congrArg (BitVec.getLsbD · 1) stat).trans (State.late_arm_late late)⟩
  case ranges => exact fun s r x m h room free => rangeCal_answers h room free

end Sys2Proof.Machine
end

