-- ==== Sys2Proof/Proofs/ReliefRules.lean ====
section
/-! Slices and the relief rotation (R91–R113): what each of the rotation's operations sets and what it leaves. -/

namespace Sys2Proof.Machine

/-! ### Frames -/

section
variable {s u v : State} {l m : List Nat} {a : Nat}

theorem State.KeepsRegs.trans (h : s.KeepsRegs u l) (k : u.KeepsRegs v m) : s.KeepsRegs v (l ++ m) := fun a ha => by
  obtain ⟨hl, hm⟩ := not_or.mp (mt List.mem_append.mpr ha)
  exact (k a hm).trans (h a hl)

theorem State.KeepsRegs.mono (h : s.KeepsRegs u l) (sub : ∀ a ∈ l, a ∈ m) : s.KeepsRegs u m := fun a ha =>
  h a fun hl => ha (sub a hl)

theorem State.KeepsRegs.fld (h : s.KeepsRegs u l) (ha : a ∉ l) (hi lo : Nat) : u.fld a hi lo = s.fld a hi lo :=
  congrArg (bits · hi lo) (h a ha)

theorem State.KeepsRegs.bit (h : s.KeepsRegs u l) (ha : a ∉ l) (i : Nat) : u.bit a i = s.bit a i :=
  congrArg (BitVec.getLsbD · i) (h a ha)

theorem State.bit_setFld_ne (s : State) (a hi lo x k i : Nat) (h : k ≠ a) :
    (s.setFld a hi lo x).bit k i = s.bit k i := congrArg (BitVec.getLsbD · i) (State.get_setFld_ne _ _ _ _ _ _ h)

/-- An update that touches the registers `l` at most, what a tile holds beside its rotation, and the count of free
values. -/
structure ReliefKept (s u : State) (l : List Nat) : Prop where
  regs : s.KeepsRegs u l
  relief : ∀ o, u.relief o = s.relief o
  rest : u = { s with regs := u.regs, tiles := u.tiles, free := u.free }

namespace ReliefKept

theorem trans (h : ReliefKept s u l) (k : ReliefKept u v m) : ReliefKept s v (l ++ m) where
  regs := h.regs.trans k.regs
  relief o := (k.relief o).trans (h.relief o)
  rest := k.rest.trans (congrArg (fun x : State => { x with regs := v.regs, tiles := v.tiles, free := v.free }) h.rest)

theorem bcp (h : ReliefKept s u l) : u.bcp = s.bcp := (congrArg State.bcp h.rest :)
theorem modes (h : ReliefKept s u l) : u.modes = s.modes := (congrArg State.modes h.rest :)
theorem stamp (h : ReliefKept s u l) : u.stampOf u.nextFrame = s.stampOf s.nextFrame :=
  (congrArg (fun x : State => x.stampOf x.nextFrame) h.rest :)

theorem que (h : ReliefKept s u l) : u.que = s.que := (congrArg State.que h.rest :)

end ReliefKept

end

section
variable (s : State) (t : Fin 4)

theorem State.set_reliefKept (a : Nat) (w : Word) : ReliefKept s (s.set a w) [a] :=
  ⟨s.keepsRegs_set a w, fun _ => rfl, rfl⟩

theorem State.setFld_reliefKept (a hi lo x : Nat) : ReliefKept s (s.setFld a hi lo x) [a] := s.set_reliefKept a _

theorem State.setBit_reliefKept (a i : Nat) (b : Bool) : ReliefKept s (s.setBit a i b) [a] := s.set_reliefKept a _

theorem State.wrapFld_reliefKept (a hi lo n : Nat) : ReliefKept s (s.wrapFld a hi lo n) [a] := s.set_reliefKept a _

theorem State.takeFree_reliefKept : ReliefKept s s.takeFree.2 [] := ⟨fun _ _ => rfl, fun _ => rfl, rfl⟩

/-- An update of a tile beside its rotation. -/
theorem State.updTile_reliefKept {f : TileState → TileState} (h : ∀ x, (f x).relief = x.relief := by intro _; rfl) :
    ReliefKept s (s.updTile t f) [] where
  regs _ _ := rfl
  rest := rfl
  relief o := by
    by_cases same : o = t
    · subst same
      rw [State.relief, State.updTile_tile_same, h, State.relief]
    · rw [State.relief, State.updTile_tile_ne _ _ _ _ same, State.relief]

/-! ### Slices (R91–R94) -/

/-- The registers of a slice: its trims and its status. -/
def sliceRegs (t sl : Nat) : List Nat :=
  [Reg.slcSlTrim0 t sl, Reg.slcSlTrim1 t sl, Reg.slcSlTrim2 t sl, Reg.slcSlTrim3 t sl, Reg.slcSlStat t sl]

theorem mem_sliceRegs {t sl a : Nat} (h : a ∈ sliceRegs t sl) :
    ∃ i, i ≤ 4 ∧ a = 0x102000 + 0x10000 * t + 0x100 * sl + 4 * i := by
  simp only [sliceRegs, List.mem_cons, List.not_mem_nil, or_false] at h
  rcases h with rfl | rfl | rfl | rfl | rfl
  exacts [⟨0, by decide, by simp [Reg.slcSlTrim0]⟩, ⟨1, by decide, by simp only [Reg.slcSlTrim1]; omega⟩,
    ⟨2, by decide, by simp only [Reg.slcSlTrim2]; omega⟩, ⟨3, by decide, by simp only [Reg.slcSlTrim3]; omega⟩,
    ⟨4, by decide, by simp only [Reg.slcSlStat]; omega⟩]

/-- The registers of the 17 slices lie below those of the rotation. -/
theorem notMem_sliceRegs_above {t sl a : Nat} (hsl : sl ≤ 16) (above : 0x104000 + 0x10000 * t ≤ a) :
    a ∉ sliceRegs t sl := by
  intro h
  obtain ⟨i, hi, rfl⟩ := mem_sliceRegs h
  omega

/-- A slice's registers lie in the first bytes of its 256. -/
theorem notMem_sliceRegs_low {t sl a : Nat} (low : 0x10 < a % 0x100) : a ∉ sliceRegs t sl := by
  intro h
  obtain ⟨i, hi, rfl⟩ := mem_sliceRegs h
  omega

theorem ne_calStat_of_low {t a : Nat} (low : 0x10 < a % 0x100) : a ≠ Reg.calStat t := by
  rintro rfl
  simp only [Reg.calStat] at low
  omega

theorem calStat_notMem_sliceRegs {t sl : Nat} (hsl : sl ≤ 16) : Reg.calStat t ∉ sliceRegs t sl :=
  notMem_sliceRegs_above hsl (by simp only [Reg.calStat]; omega)

variable (sl : Nat) (x : Trims)

theorem State.logTrims_reliefKept : ReliefKept s (s.logTrims t sl) [] := s.updTile_reliefKept t

theorem State.setTrims_reliefKept : ReliefKept s (s.setTrims t sl x) (sliceRegs t sl) where
  regs a ha := by
    simp only [sliceRegs, List.mem_cons, List.not_mem_nil, or_false, not_or] at ha
    obtain ⟨h0, h1, h2, h3, -⟩ := ha
    simp only [State.setTrims, State.logTrims, State.updTile_get, State.get_set_ne _ _ _ _ h3, State.get_set_ne _ _ _ _ h2,
      State.get_set_ne _ _ _ _ h1, State.get_set_ne _ _ _ _ h0]
  relief := (State.logTrims_reliefKept _ t sl).relief
  rest := rfl

theorem State.loadRangeTerms_reliefKept (k : Nat) : ReliefKept s (s.loadRangeTerms t sl k) (sliceRegs t sl) where
  regs a ha := by
    simp only [sliceRegs, List.mem_cons, List.not_mem_nil, or_false, not_or] at ha
    obtain ⟨-, -, h2, h3, -⟩ := ha
    simp only [State.loadRangeTerms, State.logTrims, State.updTile_get, State.get_set_ne _ _ _ _ h3,
      State.get_set_ne _ _ _ _ h2]
  relief := (State.logTrims_reliefKept _ t sl).relief
  rest := rfl

theorem State.get_setSlice_ne (st serves : Nat) {a : Nat} (h : a ≠ Reg.slcSlStat t sl) :
    (s.setSlice t sl st serves).get a = s.get a := by
  rw [State.setSlice, State.get_setFld_ne _ _ _ _ _ _ h, State.get_setFld_ne _ _ _ _ _ _ h]

theorem State.setSlice_reliefKept (st serves : Nat) : ReliefKept s (s.setSlice t sl st serves) (sliceRegs t sl) where
  regs a ha := s.get_setSlice_ne t sl st serves fun e => ha (e ▸ by simp [sliceRegs])
  relief _ := rfl
  rest := rfl

theorem State.setPhase_reliefKept (p : Nat) : ReliefKept s (s.setPhase t p) [Reg.calStat t] := s.setFld_reliefKept ..

theorem State.flagNext_reliefKept (k : Nat) (f : Byte) : ReliefKept s (s.flagNext t k f) [] :=
  s.updTile_reliefKept t

theorem State.openSpan_reliefKept : ReliefKept s (s.openSpan t sl) [] := s.updTile_reliefKept t

theorem State.closeSpan_reliefKept : ReliefKept s (s.closeSpan t sl) [] := s.updTile_reliefKept t

/-- The trims that a slice is given. -/
theorem State.get_setTrims_trim3 : (s.setTrims t sl x).get (Reg.slcSlTrim3 t sl) = x.t3 &&& 0xFFF :=
  State.get_set_same ..

theorem State.get_setTrims_trim1 : (s.setTrims t sl x).get (Reg.slcSlTrim1 t sl) = x.t1 &&& 0x003F03FF := by
  have h2 : Reg.slcSlTrim1 t sl ≠ Reg.slcSlTrim2 t sl := by simp [Reg.slcSlTrim1, Reg.slcSlTrim2]
  have h3 : Reg.slcSlTrim1 t sl ≠ Reg.slcSlTrim3 t sl := by simp [Reg.slcSlTrim1, Reg.slcSlTrim3]
  rw [State.setTrims, State.logTrims, State.updTile_get, State.get_set_ne _ _ _ _ h3, State.get_set_ne _ _ _ _ h2,
    State.get_set_same]

theorem State.get_setTrims_trim0 : (s.setTrims t sl x).get (Reg.slcSlTrim0 t sl) = x.t0 &&& 0x0FFF0FFF := by
  have h1 : Reg.slcSlTrim0 t sl ≠ Reg.slcSlTrim1 t sl := by simp [Reg.slcSlTrim0, Reg.slcSlTrim1]
  have h2 : Reg.slcSlTrim0 t sl ≠ Reg.slcSlTrim2 t sl := by simp [Reg.slcSlTrim0, Reg.slcSlTrim2]
  have h3 : Reg.slcSlTrim0 t sl ≠ Reg.slcSlTrim3 t sl := by simp [Reg.slcSlTrim0, Reg.slcSlTrim3]
  rw [State.setTrims, State.logTrims, State.updTile_get, State.get_set_ne _ _ _ _ h3, State.get_set_ne _ _ _ _ h2,
    State.get_set_ne _ _ _ _ h1, State.get_set_same]

variable (st serves : Nat)

theorem State.state_setSlice : (s.setSlice t sl st serves).fld (Reg.slcSlStat t sl) 2 0 = st % 8 :=
  (State.fld_setFld_apart _ _ _ _ _ _ _ (by decide) (.inl (by decide))).trans
    (State.fld_setFld_same _ _ _ _ _ (by decide))

theorem State.serves_setSlice : (s.setSlice t sl st serves).fld (Reg.slcSlStat t sl) 20 16 = serves % 32 :=
  State.fld_setFld_same _ _ _ _ _ (by decide)

theorem State.phase_setPhase (p : Nat) : (s.setPhase t p).fld (Reg.calStat t) 10 8 = p % 8 :=
  State.fld_setFld_same _ _ _ _ _ (by decide)

end

/-! ### The rotation's own state (R95, R104, R105, R110) -/

section
variable (s : State) (t : Fin 4) (sl : Nat)

theorem State.updRelief_keepsRegs (f : Relief → Relief) : s.KeepsRegs (s.updRelief t f) [] := fun _ _ => rfl

/-- A dwell is requested where the rotation has a slice, or a parked one is to be retried. -/
theorem State.requestDwell_requests (h : s.rotation t ≠ [] ∨ (s.relief t).retry = true) :
    (s.requestDwell t).relief t = { s.relief t with
        waiting := true, granted := (s.relief t).ahead, ahead := false, startAt := s.nextFrame }
      ∧ (s.requestDwell t).fld (Reg.calStat t) 10 8 = 6 := by
  have goes : ¬((s.rotation t).isEmpty && !(s.relief t).retry) = true := by
    rcases h with h | h <;> simp [h]
  rw [State.requestDwell, if_neg goes, (State.setPhase_reliefKept _ t 6).relief, State.updRelief_relief_same,
    State.phase_setPhase]
  exact ⟨rfl, rfl⟩

/-- A tile's history is kept, with the other tiles' rotations, the sessions and COMMITs, and every register outside
`l`. -/
structure HistoryKept (s u : State) (t : Fin 4) (l : List Nat) : Prop where
  regs : s.KeepsRegs u l
  hist : (u.relief t).hist = (s.relief t).hist
  others : ∀ o, o ≠ t → u.relief o = s.relief o
  bcp : u.bcp = s.bcp

end

theorem HistoryKept.trans {s u v : State} {t : Fin 4} {l m : List Nat} (h : HistoryKept s u t l)
    (k : HistoryKept u v t m) : HistoryKept s v t (l ++ m) where
  regs := h.regs.trans k.regs
  hist := k.hist.trans h.hist
  others o ho := (k.others o ho).trans (h.others o ho)
  bcp := k.bcp.trans h.bcp

theorem HistoryKept.mono {s u : State} {t : Fin 4} {l m : List Nat} (h : HistoryKept s u t l) (sub : ∀ a ∈ l, a ∈ m) :
    HistoryKept s u t m := ⟨h.regs.mono sub, h.hist, h.others, h.bcp⟩

theorem ReliefKept.history {s u : State} {l : List Nat} (h : ReliefKept s u l) (t : Fin 4) : HistoryKept s u t l :=
  ⟨h.regs, congrArg Relief.hist (h.relief t), fun o _ => h.relief o, h.bcp⟩

section
variable (s : State) (t : Fin 4)

theorem State.updRelief_historyKept {f : Relief → Relief} (h : ∀ r, (f r).hist = r.hist := by intro _; rfl) :
    HistoryKept s (s.updRelief t f) t [] where
  regs _ _ := rfl
  hist := (congrArg Relief.hist (s.updRelief_relief_same t f)).trans (h _)
  others o ho := s.updRelief_relief_ne t o f ho
  bcp := rfl

theorem State.requestDwell_historyKept : HistoryKept s (s.requestDwell t) t [Reg.calStat t] := by
  unfold State.requestDwell
  split
  · exact (s.setPhase_reliefKept t 0).history t
  · exact (s.updRelief_historyKept t).trans ((State.setPhase_reliefKept _ t 6).history t)

theorem State.requestDwell_dwell : ((s.requestDwell t).relief t).dwell = (s.relief t).dwell := by
  unfold State.requestDwell
  split
  · rfl
  · rw [(State.setPhase_reliefKept _ t 6).relief, State.updRelief_relief_same]

/-- What the rotation does after a dwell (R110). -/
def State.rotateOn (t : Fin 4) (s : State) : State := if s.calRun t then s.requestDwell t else s.setPhase t 0

theorem State.rotateOn_historyKept : HistoryKept s (s.rotateOn t) t [Reg.calStat t] := by
  unfold State.rotateOn
  split
  · exact s.requestDwell_historyKept t
  · exact (s.setPhase_reliefKept t 0).history t

theorem State.rotateOn_dwell : ((s.rotateOn t).relief t).dwell = (s.relief t).dwell := by
  unfold State.rotateOn
  split
  · exact s.requestDwell_dwell t
  · rfl

/-- The end of a cycle is counted (R93). -/
def State.countCycle (t : Fin 4) (last : Bool) (s : State) : State :=
  if last then (s.wrapFld (Reg.calCycles t) 31 0 1).setBit (Reg.calStat t) 16 false else s

theorem State.countCycle_reliefKept (last : Bool) :
    ReliefKept s (s.countCycle t last) [Reg.calCycles t, Reg.calStat t] := by
  cases last
  · exact ⟨fun _ _ => rfl, fun _ => rfl, rfl⟩
  · exact (s.wrapFld_reliefKept _ 31 0 1).trans (State.setBit_reliefKept _ _ 16 false)

theorem State.endDwell_eq (sl : Nat) : ∃ next, s.endDwell t sl =
    ((s.updRelief t fun r => { r with dwell := none, next := next, retry := false }).countCycle t
      ((s.rotation t).all fun i => decide (i ≤ sl))).rotateOn t := ⟨_, rfl⟩

/-- A dwell that ends is over, and changes CAL_CYCLES and CAL_STAT alone of the registers (R93, R95). -/
theorem State.endDwell_historyKept (sl : Nat) :
    HistoryKept s (s.endDwell t sl) t [Reg.calCycles t, Reg.calStat t] := by
  obtain ⟨next, ends⟩ := s.endDwell_eq t sl
  rw [ends]
  exact (((s.updRelief_historyKept t).trans ((State.countCycle_reliefKept _ t _).history t)).trans
    (State.rotateOn_historyKept _ t)).mono (by simp)

theorem State.endDwell_dwell (sl : Nat) : ((s.endDwell t sl).relief t).dwell = none := by
  obtain ⟨next, ends⟩ := s.endDwell_eq t sl
  rw [ends, State.rotateOn_dwell, (State.countCycle_reliefKept _ t _).relief, State.updRelief_relief_same]

theorem State.unpark_historyKept (d : Dwell) :
    HistoryKept s (s.unpark t d) t (Reg.calStat t :: sliceRegs t 16) := by
  unfold State.unpark
  split
  · exact ((((s.setBit_reliefKept _ 17 false).trans (State.setSlice_reliefKept _ t 16 0 31)).trans
      (State.closeSpan_reliefKept _ t _)).history t).trans (State.updRelief_historyKept _ t)
  · exact ⟨fun _ _ => rfl, rfl, fun _ _ => rfl, rfl⟩

end

/-- A handback or a manual trim adds its entry to the history (R104). -/
structure HistoryAdded (s u : State) (t : Fin 4) (e : HistEntry) (l : List Nat) : Prop where
  regs : s.KeepsRegs u l
  relief : u.relief t = { s.relief t with hist := (e :: (s.relief t).hist).take 32 }
  others : ∀ o, o ≠ t → u.relief o = s.relief o
  bcp : u.bcp = s.bcp

theorem State.addHist_added (s : State) (t : Fin 4) (stamp : Nat) (st : Int × Int × Int) (sl k : Nat)
    (manual abandoned forced : Bool) : HistoryAdded s (s.addHist t stamp st sl k manual abandoned forced) t
      ⟨BitVec.ofNat 32 (secOf stamp), BitVec.ofNat 32 (nsOf stamp), st, sl, k, manual, abandoned, forced⟩
      [Reg.calHistHead t] where
  regs := ((State.setFld_reliefKept (s.updRelief t _) _ 4 0 _).trans
    (State.setFld_reliefKept _ _ 31 16 _)).regs.mono (by simp)
  relief := by
    unfold State.addHist
    dsimp only
    rw [(State.setFld_reliefKept _ _ 31 16 _).relief, (State.setFld_reliefKept _ _ 4 0 _).relief,
      State.updRelief_relief_same]
  others o ho := by
    unfold State.addHist
    dsimp only
    rw [(State.setFld_reliefKept _ _ 31 16 _).relief, (State.setFld_reliefKept _ _ 4 0 _).relief,
      State.updRelief_relief_ne _ _ _ _ ho]
  bcp := rfl

theorem calFault_ne_calCnt1 (t : Nat) : Reg.calFault t ≠ Reg.calCnt1 t := by simp [Reg.calFault, Reg.calCnt1]

/-- A failed calibration is latched and counted, and every session hears of it (R99, R105). -/
theorem State.fault_calFailed (s : State) (t : Fin 4) {sl : Nat} (h : sl < 32) :
    (s.calFailed t sl).bit (Reg.calFault t) sl = true :=
  (State.bit_setFld_ne _ _ _ _ _ _ _ (calFault_ne_calCnt1 t)).trans (State.bit_setBit_same _ _ _ _ h)

theorem State.count_calFailed (s : State) (t : Fin 4) (sl : Nat) :
    (s.calFailed t sl).fld (Reg.calCnt1 t) 31 16 = (s.fld (Reg.calCnt1 t) 31 16 + 1) % 65536 :=
  (State.fld_setFld_same _ _ _ _ _ (by decide)).trans
    (congrArg (fun n => (n + 1) % 65536) (State.fld_setBit_ne _ _ _ _ _ _ _ (calFault_ne_calCnt1 t).symm))

theorem State.calFailed_latches (s : State) (t : Fin 4) (sl : Nat) : (s.calFailed t sl).bcp.latches = s.bcp.latches := rfl

theorem State.attention_calFailed (s : State) (t : Fin 4) (sl : Nat) :
    ∀ x ∈ (s.calFailed t sl).bcp.sessions, x.atn.getLsbD Atn.cal = true := State.attend_sets _ _ (by decide)

section
variable (s : State) (t : Fin 4) (sl : Nat)

theorem State.parkSlice_keepsRegs : s.KeepsRegs (s.parkSlice t sl) (Reg.calStat t :: sliceRegs t sl) :=
  ((s.updRelief_keepsRegs t _).trans ((((State.setBit_reliefKept _ _ 17 true).trans
    (State.setFld_reliefKept _ _ 28 24 sl)).trans (State.setSlice_reliefKept _ t sl 5 31)).trans
      (State.setPhase_reliefKept _ t 0)).regs).mono fun a ha => by grind

@[simp] theorem State.parkSlice_bcp : (s.parkSlice t sl).bcp = s.bcp := rfl

/-- A parked slice stands in CAL_STAT, and no dwell goes on (R105, R114). -/
theorem State.parkSlice_relief :
    ((s.parkSlice t sl).relief t).dwell = none ∧ ((s.parkSlice t sl).relief t).parked = some sl := by
  unfold State.parkSlice
  dsimp only
  rw [(State.setPhase_reliefKept _ t 0).relief, (State.setSlice_reliefKept _ t sl 5 31).relief,
    (State.setFld_reliefKept _ _ 28 24 sl).relief, (State.setBit_reliefKept _ _ 17 true).relief,
    State.updRelief_relief_same]
  exact ⟨rfl, rfl⟩

theorem State.stat_parkSlice {sl : Nat} (h : sl ≤ 16) :
    (s.parkSlice t sl).bit (Reg.calStat t) 17 = true ∧ (s.parkSlice t sl).fld (Reg.calStat t) 28 24 = sl := by
  unfold State.parkSlice
  dsimp only
  have apart := calStat_notMem_sliceRegs (t := t) h
  rw [State.setPhase, State.bit_setFld_apart _ _ _ _ _ _ (by decide) (.inr (by decide)),
    State.fld_setFld_apart _ _ _ _ _ _ _ (by decide) (.inr (by decide)),
    (State.setSlice_reliefKept _ t sl 5 31).regs.bit apart, (State.setSlice_reliefKept _ t sl 5 31).regs.fld apart,
    State.bit_setFld_apart _ _ _ _ _ _ (by decide) (.inl (by decide)), State.bit_setBit_same _ _ _ _ (by decide),
    State.fld_setFld_same _ _ _ _ _ (by decide)]
  exact ⟨rfl, Nat.mod_eq_of_lt (by omega)⟩

end

/-- What is seen of a state: its registers, the rotations, the sessions and COMMITs, the modes and the queues. -/
structure State.Shows (u v : State) : Prop where
  get : ∀ a, u.get a = v.get a
  relief : ∀ o, u.relief o = v.relief o
  bcp : u.bcp = v.bcp
  modes : u.modes = v.modes
  que : u.que = v.que

theorem State.Shows.fld {u v : State} (h : u.Shows v) (a hi lo : Nat) : u.fld a hi lo = v.fld a hi lo :=
  congrArg (bits · hi lo) (h.get a)

theorem State.Shows.bit {u v : State} (h : u.Shows v) (a i : Nat) : u.bit a i = v.bit a i :=
  congrArg (BitVec.getLsbD · i) (h.get a)

theorem State.Shows.keepsRegs {s u v : State} {l : List Nat} (h : u.Shows v) (k : s.KeepsRegs v l) : s.KeepsRegs u l :=
  fun a ha => (h.get a).trans (k a ha)

/-- An event's next state shows what its effect has left. -/
theorem run_shows {f : State → State} {s v : State} (h : f s = v) : ∃ u, run f s = .next u ∧ u.Shows v :=
  ⟨_, run_next h, ⟨fun _ => rfl, fun _ => rfl, rfl, rfl, rfl⟩⟩

/-- While the dwell goes on nothing waits for its end, and no COMMIT is taken (R110). -/
theorem State.rotationCommit_dwelling {s u : State} {t : Fin 4} {d : Dwell} (h : (u.relief t).dwell = some d) :
    u.rotationCommit t s = u := by
  simp [State.rotationCommit, h]

/-- With no copy of the rotation latched its end changes nothing more. -/
theorem State.rotationCommit_unlatched {s u : State} {t : Fin 4}
    (h : u.bcp.latches.find? (fun (l : Latch) => l.block == 18 + 4 * t.val) = none) : u.rotationCommit t s = u := by
  simp [State.rotationCommit, h]

end Sys2Proof.Machine
end

