-- ==== Sys2Proof/Proofs/ReliefDwells.lean ====
section
/-! A dwell of the relief rotation from its start to its return shadow (R95–R99, R105). -/

namespace Sys2Proof.Machine

/-! ### The start (R95, R96) -/

/-- A dwell that has just begun on a slice which is not retried. -/
structure Dwell.Begun (d : Dwell) (s : State) (t : Fin 4) (sl : Nat) : Prop where
  slice : d.slice = sl
  start : d.start = (s.relief t).startAt
  standing : d.standing = false
  old : d.old = s.trims t sl

/-- The state in which a dwell has begun, before its slices take part. -/
def State.dwellBegun (t : Fin 4) (d : Dwell) (s : State) : State :=
  (({ s with free := s.free + 1 } : State).updRelief t fun r =>
    { r with dwell := some d, waiting := false, granted := false }).setFld (Reg.calStat t) 4 0 d.slice

theorem State.relief_dwellBegun (s : State) (t : Fin 4) (d : Dwell) : (s.dwellBegun t d).relief t
    = { s.relief t with dwell := some d, waiting := false, granted := false } := by
  unfold State.dwellBegun
  rw [(State.setFld_reliefKept _ _ 4 0 _).relief, State.updRelief_relief_same]
  rfl

theorem State.relief_dwellBegun_ne (s : State) {t o : Fin 4} (d : Dwell) (h : o ≠ t) :
    (s.dwellBegun t d).relief o = s.relief o := by
  unfold State.dwellBegun
  rw [(State.setFld_reliefKept _ _ 4 0 _).relief, State.updRelief_relief_ne _ _ _ _ h]
  rfl

theorem State.nextSlice_le {s : State} {t : Fin 4} {n sl : Nat} (h : s.nextSlice t n = some sl) : sl ≤ 16 := by
  have enabled : sl ∈ s.rotation t := by
    unfold State.nextSlice at h
    split at h
    · next i found => exact Option.some.inj h ▸ List.mem_of_find?_eq_some found
    · exact List.mem_of_head? h
  have := List.mem_range.mp (List.mem_filter.mp enabled).1
  omega

/-- A granted dwell begins on the next slice of the rotation; its slices then take part, and CAL_STAT shows the
phase. -/
theorem dwellStart_begins {s : State} {t : Fin 4} {sl : Nat} (sampling : s.tileSampling t = true)
    (waiting : (s.relief t).waiting = true) (granted : (s.relief t).granted = true) (idle : (s.relief t).dwell = none)
    (noTrims : (s.relief t).manual = none) (anew : (s.relief t).retry = false) (unparked : (s.relief t).parked = none)
    (upcoming : s.nextSlice t (s.relief t).next = some sl) (due : (s.relief t).startAt ≤ s.samplePos) :
    ∃ d w p l, d.Begun s t sl ∧ dwellStart t s = State.setPhase t p w ∧ ReliefKept (s.dwellBegun t d) w l
      ∧ Reg.calStat t ∉ l := by
  have apart (i : Nat) (hi : i ≤ 16) : Reg.calStat t ∉ sliceRegs t i := calStat_notMem_sliceRegs hi
  have hsl := State.nextSlice_le upcoming
  unfold dwellStart
  simp only [sampling, waiting, granted, idle, noTrims, anew, unparked, upcoming, Nat.not_lt.mpr due]
  simp only [Bool.not_true, Option.isSome_none, Bool.or_self, Bool.false_eq_true, if_false, Bool.false_and,
    decide_false]
  split
  · exact ⟨_, _, _, _, ⟨rfl, rfl, rfl, rfl⟩, rfl, State.setSlice_reliefKept _ t 16 6 31, apart 16 (by omega)⟩
  · split
    · exact ⟨_, _, _, _, ⟨rfl, rfl, rfl, rfl⟩, rfl, State.setSlice_reliefKept _ t sl 3 31, apart sl hsl⟩
    · refine ⟨_, _, _, _, ⟨rfl, rfl, rfl, rfl⟩, rfl, (((State.takeFree_reliefKept _).trans
        (State.setTrims_reliefKept _ t 16 _)).trans (State.loadRangeTerms_reliefKept _ t 16 _)).trans
          (State.setSlice_reliefKept _ t 16 2 _), ?_⟩
      simp [apart]

theorem dwellStart_completes (s : State) (t : Tile) (sl : Nat) (sampling : s.tileSampling t = true)
    (waiting : (s.relief t).waiting = true) (granted : (s.relief t).granted = true) (idle : (s.relief t).dwell = none)
    (noTrims : (s.relief t).manual = none) (anew : (s.relief t).retry = false) (unparked : (s.relief t).parked = none)
    (upcoming : s.nextSlice t (s.relief t).next = some sl) (due : (s.relief t).startAt ≤ s.samplePos) :
    ∃ u d, exec (.dwellStart t) s = .next u ∧ (u.relief t).dwell = some d ∧ d.slice = sl
      ∧ d.start = (s.relief t).startAt ∧ d.standing = false ∧ d.old = s.trims t sl ∧ (u.relief t).waiting = false
      ∧ u.fld (Reg.calStat t) 4 0 = sl % 32 ∧ (∀ o, o ≠ t → u.relief o = s.relief o) ∧ u.modes = s.modes
      ∧ u.que = s.que := by
  obtain ⟨d, w, p, l, begun, starts, kept, apart⟩ :=
    dwellStart_begins sampling waiting granted idle noTrims anew unparked upcoming due
  obtain ⟨u, next, shows⟩ := run_shows starts
  have relief (o : Fin 4) : u.relief o = (s.dwellBegun t d).relief o := by
    rw [shows.relief, (w.setPhase_reliefKept t p).relief, kept.relief]
  have here := (relief t).trans (s.relief_dwellBegun t d)
  refine ⟨u, d, next, congrArg Relief.dwell here, begun.slice, begun.start, begun.standing, begun.old,
    congrArg Relief.waiting here, ?named, fun o ho => ?others, ?modes, ?que⟩
  case named =>
    rw [shows.fld, State.setPhase, State.fld_setFld_apart _ _ _ _ _ _ _ (by decide) (.inl (by decide)),
      kept.regs.fld apart, State.dwellBegun, State.fld_setFld_same _ _ _ _ _ (by decide), begun.slice]
    rfl
  case others => rw [relief, s.relief_dwellBegun_ne d ho]
  case modes => exact shows.modes.trans kept.modes
  case que => exact shows.que.trans kept.que

/-! ### The handover (R96, R97) -/

/-- The relief slice, with the trims of its match, serves a channel, … -/
def State.reliefServes (t : Fin 4) (k : Nat) (x : Trims) (s : State) : State :=
  ((s.takeFree.2.setTrims t 16 x).loadRangeTerms t 16 k).setSlice t 16 1 k

/-- … and the slice in whose place it does so calibrates. -/
def State.sliceCalibrates (t : Fin 4) (sl k : Nat) (s : State) : State :=
  (((s.setSlice t sl 3 31).setPhase t 2).flagNext t k 1).openSpan t sl

section
variable (s : State) (t : Fin 4) (k : Nat) {sl : Nat}

theorem State.reliefServes_reliefKept (x : Trims) : ReliefKept s (s.reliefServes t k x)
    ([] ++ sliceRegs t 16 ++ sliceRegs t 16 ++ sliceRegs t 16) := by
  unfold State.reliefServes
  exact ((s.takeFree_reliefKept.trans (State.setTrims_reliefKept _ t 16 x)).trans
    (State.loadRangeTerms_reliefKept _ t 16 k)).trans (State.setSlice_reliefKept _ t 16 1 k)

theorem State.sliceCalibrates_reliefKept : ReliefKept s (s.sliceCalibrates t sl k)
    (sliceRegs t sl ++ [Reg.calStat t] ++ [] ++ []) := by
  unfold State.sliceCalibrates
  exact (((s.setSlice_reliefKept t sl 3 31).trans (State.setPhase_reliefKept _ t 2)).trans
    (State.flagNext_reliefKept _ t k 1)).trans (State.openSpan_reliefKept _ t sl)

theorem State.phase_sliceCalibrates : (s.sliceCalibrates t sl k).fld (Reg.calStat t) 10 8 = 2 :=
  (((State.flagNext_reliefKept _ t k 1).trans (State.openSpan_reliefKept _ t sl)).regs.fld List.not_mem_nil 10 8).trans
    (State.phase_setPhase ..)

theorem slcSlStat_notMem_sliceCalibrates (h : sl < 16) :
    Reg.slcSlStat t 16 ∉ sliceRegs t sl ++ [Reg.calStat t] ++ [] ++ [] := by
  simp only [List.append_nil, List.mem_append, List.mem_singleton, not_or]
  refine ⟨fun mem => ?_, ?_⟩
  · obtain ⟨i, hi, e⟩ := mem_sliceRegs mem
    simp only [Reg.slcSlStat] at e
    omega
  · simp only [Reg.slcSlStat, Reg.calStat]
    omega

end

/-- A match within its limits hands over. -/
theorem handover_within {s : State} {t : Fin 4} {d : Dwell} {mean gain skew : Nat} {slope : Bool}
    (dwell : (s.relief t).dwell = some d) (matching : s.fld (Reg.calStat t) 10 8 = 1)
    (long : d.start + 34 * framePeriods ≤ s.nextFrame) (hm : mean ≤ 16) (hg : gain ≤ 200)
    (hs : slope = true → skew ≤ 30) :
    ∃ x, handover t mean gain skew slope s = (((s.reliefServes t (s.servesOf t d.slice) x).sliceCalibrates t d.slice
      (s.servesOf t d.slice)).updRelief t fun r =>
        { r with dwell := some { d with standing := true }, matchFails := dropK d.slice r.matchFails }) := by
  have within : (decide (mean ≤ 16) && decide (gain ≤ 200) && (!slope || decide (skew ≤ 30))) = true := by
    cases slope
    · simp [hm, hg]
    · simp [hm, hg, hs rfl]
  unfold handover
  simp only [dwell, matching, within, Nat.not_lt.mpr long]
  exact ⟨_, rfl⟩

theorem handover_completes (s : State) (t : Tile) (d : Dwell) (mean gain skew : Nat) (slope : Bool)
    (dwell : (s.relief t).dwell = some d) (matching : s.fld (Reg.calStat t) 10 8 = 1) (working : d.slice < 16)
    (long : d.start + 34 * framePeriods ≤ s.nextFrame) (hm : mean ≤ 16) (hg : gain ≤ 200)
    (hs : slope = true → skew ≤ 30) :
    ∃ u e, exec (.handover t mean gain skew slope) s = .next u ∧ (u.relief t).dwell = some e ∧ e.standing = true
      ∧ e.slice = d.slice ∧ u.fld (Reg.calStat t) 10 8 = 2
      ∧ u.fld (Reg.slcSlStat t 16) 2 0 = 1 ∧ u.fld (Reg.slcSlStat t 16) 20 16 = s.servesOf t d.slice % 32
      ∧ (∀ o, o ≠ t → u.relief o = s.relief o) := by
  obtain ⟨x, hands⟩ := handover_within dwell matching long hm hg hs
  generalize s.servesOf t d.slice = k at *
  have serves := s.reliefServes_reliefKept t k x
  have calibrates := (s.reliefServes t k x).sliceCalibrates_reliefKept t k (sl := d.slice)
  have apart := slcSlStat_notMem_sliceCalibrates t working
  have stands : ((handover t mean gain skew slope s).relief t).dwell = some { d with standing := true } := by
    rw [hands, State.updRelief_relief_same]
  obtain ⟨u, next, shows⟩ := run_shows (State.rotationCommit_dwelling (s := s) stands)
  refine ⟨u, { d with standing := true }, next, ?dwells, rfl, rfl, ?phase, ?state, ?serves, fun o ho => ?others⟩
  case dwells => rw [shows.relief, stands]
  case phase => rw [shows.fld, hands, State.updRelief_fld, State.phase_sliceCalibrates]
  case state =>
    rw [shows.fld, hands, State.updRelief_fld, calibrates.regs.fld apart, State.reliefServes, State.state_setSlice]
  case serves =>
    rw [shows.fld, hands, State.updRelief_fld, calibrates.regs.fld apart, State.reliefServes, State.serves_setSlice]
  case others => rw [shows.relief, hands, State.updRelief_relief_ne _ t o _ ho, calibrates.relief, serves.relief]

/-! ### The end of Calibrate (R98, R105) -/

section
variable {s : State} {t : Fin 4} {d : Dwell} (dwell : (s.relief t).dwell = some d)
  (phase : s.fld (Reg.calStat t) 10 8 = 2) (running : d.calibrated = false)
include dwell phase running

/-- A calibration that completes gives the slice its trims, and where the relief slice stands in the return shadow
begins. -/
theorem calibrateDone_completed (standing : d.standing = true) (a b : Word) :
    ∃ k, calibrateDone t (a, b) true s = (((((s.setTrims t d.slice ⟨a, b, d.old.t2, d.old.t3⟩).updRelief t fun r =>
      { r with
        dwell := some { d with calibrated := true, calAt := s.nextFrame, new_ := ⟨a, b, d.old.t2, d.old.t3⟩ } }).setSlice
          t d.slice 4 k).setPhase t 3).setBit (Reg.calLast1 t) 24 false) := by
  unfold calibrateDone
  simp only [dwell, phase, running, standing]
  exact ⟨_, rfl⟩

theorem calibrateDone_failed (w : Word × Word) : calibrateDone t w false s
    = ((s.setTrims t d.slice (s.trialOf d)).calFailed t d.slice).parkSlice t d.slice := by
  unfold calibrateDone
  simp only [dwell, phase, running]
  rfl

end

theorem calibrateDone_completes (s : State) (t : Tile) (d : Dwell) (a b : Word) (dwell : (s.relief t).dwell = some d)
    (phase : s.fld (Reg.calStat t) 10 8 = 2) (running : d.calibrated = false) (standing : d.standing = true)
    (working : d.slice < 16) :
    ∃ u e, exec (.calibrateDone t (a, b) true) s = .next u ∧ (u.relief t).dwell = some e ∧ e.calibrated = true
      ∧ e.calAt = s.nextFrame
      ∧ u.get (Reg.slcSlTrim0 t d.slice) = a &&& 0x0FFF0FFF ∧ u.get (Reg.slcSlTrim1 t d.slice) = b &&& 0x003F03FF
      ∧ u.fld (Reg.calStat t) 10 8 = 3 ∧ u.modes = s.modes := by
  obtain ⟨k, completed⟩ := calibrateDone_completed dwell phase running standing a b
  have stands : ((calibrateDone t (a, b) true s).relief t).dwell
      = some { d with calibrated := true, calAt := s.nextFrame, new_ := ⟨a, b, d.old.t2, d.old.t3⟩ } := by
    rw [completed, (State.setBit_reliefKept _ _ 24 false).relief, (State.setPhase_reliefKept _ t 3).relief,
      (State.setSlice_reliefKept _ t d.slice 4 k).relief, State.updRelief_relief_same]
  have last : Reg.calStat t ≠ Reg.calLast1 t := by simp [Reg.calStat, Reg.calLast1]
  have trim (r : Nat) (low : 0x10 ≠ r % 0x100) (below : r < 0x104000 + 0x10000 * t) :
      (calibrateDone t (a, b) true s).get r = (s.setTrims t d.slice ⟨a, b, d.old.t2, d.old.t3⟩).get r := by
    rw [completed, State.get_setBit_ne _ _ _ _ _ (by simp only [Reg.calLast1]; omega), State.setPhase,
      State.get_setFld_ne _ _ _ _ _ _ (by simp only [Reg.calStat]; omega),
      State.get_setSlice_ne _ _ _ _ _ (by simp only [Reg.slcSlStat]; omega), State.updRelief_get]
  obtain ⟨u, next, shows⟩ := run_shows (State.rotationCommit_dwelling (s := s) stands)
  refine ⟨u, _, next, (congrArg Relief.dwell (shows.relief t)).trans stands, rfl, rfl, ?trim0, ?trim1, ?phase, ?modes⟩
  case trim0 =>
    rw [shows.get, trim _ (by simp only [Reg.slcSlTrim0]; omega) (by simp only [Reg.slcSlTrim0]; omega),
      State.get_setTrims_trim0]
  case trim1 =>
    rw [shows.get, trim _ (by simp only [Reg.slcSlTrim1]; omega) (by simp only [Reg.slcSlTrim1]; omega),
      State.get_setTrims_trim1]
  case phase => rw [shows.fld, completed, State.fld_setBit_ne _ _ _ _ _ _ _ last, State.phase_setPhase]
  case modes =>
    rw [shows.modes, completed, State.setBit_modes, (State.setPhase_reliefKept _ t 3).modes,
      (State.setSlice_reliefKept _ t d.slice 4 k).modes, State.updRelief_modes, (s.setTrims_reliefKept t d.slice _).modes]

theorem calibrateDone_parks (s : State) (t : Tile) (d : Dwell) (w : Word × Word) (dwell : (s.relief t).dwell = some d)
    (phase : s.fld (Reg.calStat t) 10 8 = 2) (running : d.calibrated = false) (working : d.slice < 16)
    (unlatched : s.bcp.latches.find? (fun (l : Latch) => l.block == 18 + 4 * t.val) = none) :
    ∃ u, exec (.calibrateDone t w false) s = .next u ∧ (u.relief t).dwell = none ∧ (u.relief t).parked = some d.slice
      ∧ u.bit (Reg.calFault t) d.slice = true ∧ u.bit (Reg.calStat t) 17 = true ∧ u.fld (Reg.calStat t) 28 24 = d.slice
      ∧ u.fld (Reg.calCnt1 t) 31 16 = (s.fld (Reg.calCnt1 t) 31 16 + 1) % 65536
      ∧ (∀ x ∈ u.bcp.sessions, x.atn.getLsbD Atn.cal = true) := by
  have tried := s.setTrims_reliefKept t d.slice (s.trialOf d)
  have fails := calibrateDone_failed dwell phase running w
  generalize s.setTrims t d.slice (s.trialOf d) = v at tried fails
  have parks := (v.calFailed t d.slice).parkSlice_keepsRegs t d.slice
  have idle : ((v.calFailed t d.slice).parkSlice t d.slice).rotationCommit t s = _ := State.rotationCommit_unlatched (by
    rw [State.parkSlice_bcp, State.calFailed_latches, tried.bcp, unlatched])
  have low (a : Nat) (h : 0x10 < a % 0x100) : a ∉ Reg.calStat t :: sliceRegs t d.slice := by
    simp [ne_calStat_of_low h, notMem_sliceRegs_low h]
  have fault := low (Reg.calFault t) (by simp only [Reg.calFault]; omega)
  have count := low (Reg.calCnt1 t) (by simp only [Reg.calCnt1]; omega)
  obtain ⟨ended, parked⟩ := (v.calFailed t d.slice).parkSlice_relief t d.slice
  obtain ⟨stat, named⟩ := (v.calFailed t d.slice).stat_parkSlice t (Nat.le_of_lt working)
  rw [← fails] at idle
  obtain ⟨u, next, shows⟩ := run_shows (idle.trans fails)
  refine ⟨u, next, ?ended, ?parked, ?fault, ?stat, ?named, ?count, ?told⟩
  case ended => rw [shows.relief, ended]
  case parked => rw [shows.relief, parked]
  case fault => rw [shows.bit, parks.bit fault, v.fault_calFailed t (by omega)]
  case stat => rw [shows.bit, stat]
  case named => rw [shows.fld, named]
  case count =>
    rw [shows.fld, parks.fld count, v.count_calFailed, tried.regs.fld (mt (List.mem_cons_of_mem _) count)]
  case told =>
    rw [shows.bcp, State.parkSlice_bcp]
    exact v.attention_calFailed t d.slice

/-! ### The return shadow (R99) -/

theorem unsigned_lt (w : Nat) (i : Int) : unsigned w i < 2 ^ w := by
  have := Int.emod_lt_of_pos i (b := ((2 ^ w : Nat) : Int)) (by positivity)
  have := Int.emod_nonneg i (b := ((2 ^ w : Nat) : Int)) (by positivity)
  rw [unsigned]
  omega

/-- A word of two 16-bit halves. -/
theorem bits_halves {hi lo : Nat} (hhi : hi < 65536) (hlo : lo < 65536) :
    bits (BitVec.ofNat 32 (hi * 65536 + lo)) 15 0 = lo ∧ bits (BitVec.ofNat 32 (hi * 65536 + lo)) 31 16 = hi := by
  simp only [bits, BitVec.toNat_ofNat]
  omega

/-- The step that a return shadow has measured, in CAL_LAST0 and CAL_LAST1. -/
def State.stepShown (t : Fin 4) (ofs gain skew : Int) (sl : Nat) (s : State) : State :=
  ((s.set (Reg.calLast0 t) (BitVec.ofNat 32 (unsigned 16 gain * 65536 + unsigned 16 ofs))).setFld
    (Reg.calLast1 t) 20 16 sl).setFld (Reg.calLast1 t) 15 0 (unsigned 16 skew)

section
variable (s : State) (t : Fin 4) (ofs gain skew : Int) {sl : Nat}

theorem State.get_stepShown :
    (s.stepShown t ofs gain skew sl).get (Reg.calLast0 t)
      = BitVec.ofNat 32 (unsigned 16 gain * 65536 + unsigned 16 ofs) := by
  have apart : Reg.calLast0 t ≠ Reg.calLast1 t := by simp [Reg.calLast0, Reg.calLast1]
  rw [State.stepShown, State.get_setFld_ne _ _ _ _ _ _ apart, State.get_setFld_ne _ _ _ _ _ _ apart, State.get_set_same]

theorem State.skew_stepShown : (s.stepShown t ofs gain skew sl).fld (Reg.calLast1 t) 15 0 = unsigned 16 skew :=
  (State.fld_setFld_same _ _ _ _ _ (by decide)).trans (Nat.mod_eq_of_lt (unsigned_lt 16 skew))

theorem State.slice_stepShown (h : sl < 32) : (s.stepShown t ofs gain skew sl).fld (Reg.calLast1 t) 20 16 = sl :=
  (State.fld_setFld_apart _ _ _ _ _ _ _ (by decide) (.inr (by decide))).trans
    ((State.fld_setFld_same _ _ _ _ _ (by decide)).trans (Nat.mod_eq_of_lt h))

end

theorem returnShadowDone_within {s : State} {t : Fin 4} {d : Dwell} {ofs gain skew : Int}
    (dwell : (s.relief t).dwell = some d) (standing : d.standing = true) (calibrated : d.calibrated = true)
    (running : d.returned = false) (long : d.calAt + 34 * framePeriods ≤ s.samplePos)
    (ho : ofs.natAbs ≤ 128) (hg : gain.natAbs ≤ 2500) (hs : skew.natAbs ≤ 200) :
    ∃ k, returnShadowDone t ofs gain skew false s
      = (((s.stepShown t ofs gain skew d.slice).setSlice t d.slice 2 k).updRelief t fun r => { r with dwell := some { d with returned := true, step := (ofs, gain, skew) } }) := by
  unfold returnShadowDone
  simp only [dwell, standing, calibrated, running, Nat.not_lt.mpr long, Nat.not_lt.mpr ho, Nat.not_lt.mpr hg,
    Nat.not_lt.mpr hs]
  exact ⟨_, rfl⟩

theorem returnShadowDone_completes (s : State) (t : Tile) (d : Dwell) (ofs gain skew : Int)
    (dwell : (s.relief t).dwell = some d) (standing : d.standing = true) (calibrated : d.calibrated = true)
    (running : d.returned = false) (working : d.slice < 16) (long : d.calAt + 34 * framePeriods ≤ s.samplePos)
    (ho : ofs.natAbs ≤ 128) (hg : gain.natAbs ≤ 2500) (hs : skew.natAbs ≤ 200) :
    ∃ u e, exec (.returnShadowDone t ofs gain skew false) s = .next u ∧ (u.relief t).dwell = some e
      ∧ e.returned = true ∧ e.step = (ofs, gain, skew)
      ∧ u.fld (Reg.calLast0 t) 15 0 = unsigned 16 ofs ∧ u.fld (Reg.calLast0 t) 31 16 = unsigned 16 gain
      ∧ u.fld (Reg.calLast1 t) 15 0 = unsigned 16 skew ∧ u.fld (Reg.calLast1 t) 20 16 = d.slice := by
  obtain ⟨k, measured⟩ := returnShadowDone_within dwell standing calibrated running long ho hg hs
  have stands : ((returnShadowDone t ofs gain skew false s).relief t).dwell
      = some { d with returned := true, step := (ofs, gain, skew) } := by
    rw [measured, State.updRelief_relief_same]
  obtain ⟨u, next, shows⟩ := run_shows (State.rotationCommit_dwelling (s := s) stands)
  have shown (a : Nat) (low : 0x10 < a % 0x100) : u.get a = (s.stepShown t ofs gain skew d.slice).get a := by
    rw [shows.get, measured, State.updRelief_get, (State.setSlice_reliefKept _ t d.slice 2 k).regs a
      (notMem_sliceRegs_low low)]
  have last0 := (shown (Reg.calLast0 t) (by simp only [Reg.calLast0]; omega)).trans (s.get_stepShown t ofs gain skew)
  have last1 := shown (Reg.calLast1 t) (by simp only [Reg.calLast1]; omega)
  obtain ⟨offset, gained⟩ := bits_halves (unsigned_lt 16 gain) (unsigned_lt 16 ofs)
  exact ⟨u, { d with returned := true, step := (ofs, gain, skew) }, next,
    (congrArg Relief.dwell (shows.relief t)).trans stands, rfl, rfl, (congrArg (bits · 15 0) last0).trans offset,
    (congrArg (bits · 31 16) last0).trans gained,
    (congrArg (bits · 15 0) last1).trans (s.skew_stepShown t ofs gain skew),
    (congrArg (bits · 20 16) last1).trans (s.slice_stepShown t ofs gain skew (by omega))⟩

/-- Settles O27: a dwell's start, handover and return shadow each leave the dwell that they say, the end of Calibrate
leaves one or parks the slice. -/
theorem dwellsBeginAndCalibrate : Obligations.DwellsBeginAndCalibrate := by
  unfold Obligations.DwellsBeginAndCalibrate
  exact ⟨dwellStart_completes, handover_completes, calibrateDone_completes, calibrateDone_parks,
    returnShadowDone_completes⟩

end Sys2Proof.Machine
end

