-- ==== Sys2Proof/Proofs/ReliefHandbacks.lean ====
section
/-! The end of a dwell, and the other events of the relief rotation: warm-up, range calibration and manual trims
(R95, R101–R105, R110–R113). -/

namespace Sys2Proof.Machine

/-! ### The handback (R96, R102, R104) -/

/-- A slice takes its channel back from the relief slice. -/
def State.takesBack (t : Fin 4) (sl k : Nat) (f : Byte) (s : State) : State :=
  ((((s.loadRangeTerms t sl k).setSlice t sl 1 k).setSlice t 16 0 31).flagNext t k f).closeSpan t sl

/-- A forced handback is counted and marked. -/
def State.markForced (t : Fin 4) (forced : Bool) (s : State) : State :=
  if forced then (s.wrapFld (Reg.calCnt0 t) 31 16 1).setBit (Reg.calLast1 t) 24 true else s

/-- The history entry of a handback at the next frame boundary. -/
def State.handbackEntry (s : State) (t : Fin 4) (d : Dwell) (forced : Bool) : HistEntry :=
  ⟨BitVec.ofNat 32 (secOf (s.stampOf s.nextFrame)), BitVec.ofNat 32 (nsOf (s.stampOf s.nextFrame)), d.step, d.slice,
    s.servesOf t d.slice, false, false, forced⟩

section
variable (s : State) (t : Fin 4) (sl k : Nat)

theorem State.takesBack_reliefKept (f : Byte) : ReliefKept s (s.takesBack t sl k f)
    (sliceRegs t sl ++ sliceRegs t sl ++ sliceRegs t 16 ++ [] ++ []) := by
  unfold State.takesBack
  exact ((((s.loadRangeTerms_reliefKept t sl k).trans (State.setSlice_reliefKept _ t sl 1 k)).trans
    (State.setSlice_reliefKept _ t 16 0 31)).trans (State.flagNext_reliefKept _ t k f)).trans
      (State.closeSpan_reliefKept _ t sl)

theorem State.markForced_reliefKept (forced : Bool) :
    ReliefKept s (s.markForced t forced) [Reg.calCnt0 t, Reg.calLast1 t] := by
  cases forced
  · exact ⟨fun _ _ => rfl, fun _ => rfl, rfl⟩
  · exact (s.wrapFld_reliefKept _ 31 16 1).trans (State.setBit_reliefKept _ _ 24 true)

theorem State.count_markForced :
    (s.markForced t true).fld (Reg.calCnt0 t) 31 16 = (s.fld (Reg.calCnt0 t) 31 16 + 1) % 65536 := by
  have apart : Reg.calCnt0 t ≠ Reg.calLast1 t := by simp [Reg.calCnt0, Reg.calLast1]
  exact (State.fld_setBit_ne _ _ _ _ _ _ _ apart).trans (State.fld_setFld_same _ _ _ _ _ (by decide))

theorem State.mark_markForced : (s.markForced t true).bit (Reg.calLast1 t) 24 = true :=
  State.bit_setBit_same _ _ _ _ (by decide)

/-- What a dwell leaves at its end. -/
theorem State.unpark_endDwell_historyKept (d : Dwell) : HistoryKept s ((s.unpark t d).endDwell t sl) t
    (Reg.calStat t :: sliceRegs t 16 ++ [Reg.calCycles t, Reg.calStat t]) :=
  (s.unpark_historyKept t d).trans (State.endDwell_historyKept _ t sl)

end

section
variable (s : State) (t : Fin 4) (d : Dwell) (forced : Bool)

/-- A handback up to its entry in the history. -/
def State.handedBack (t : Fin 4) (d : Dwell) (forced : Bool) (s : State) : State :=
  let v := s.takesBack t d.slice (s.servesOf t d.slice) (if forced then 3 else 1)
  v.addHist t (v.stampOf v.nextFrame) d.step d.slice (s.servesOf t d.slice) false false forced

theorem State.doHandback_eq : s.doHandback t d forced
    = (((s.handedBack t d forced).markForced t forced).unpark t d).endDwell t d.slice := rfl

theorem State.handedBack_added : HistoryAdded s (s.handedBack t d forced) t (s.handbackEntry t d forced)
    (sliceRegs t d.slice ++ sliceRegs t 16 ++ [Reg.calHistHead t]) := by
  have back := s.takesBack_reliefKept t d.slice (s.servesOf t d.slice) (if forced then 3 else 1)
  have stamp := back.stamp
  unfold State.handedBack State.handbackEntry
  rw [← stamp]
  dsimp only
  generalize s.takesBack t d.slice (s.servesOf t d.slice) (if forced then 3 else 1) = v at back
  have added := v.addHist_added t (v.stampOf v.nextFrame) d.step d.slice (s.servesOf t d.slice) false false forced
  exact ⟨(back.regs.trans added.regs).mono (by grind), by rw [added.relief, back.relief],
    fun o ho => (added.others o ho).trans (back.relief o), added.bcp.trans back.bcp⟩

/-- A dwell that is handed back is over, and the tile's history has its entry; the other tiles' rotations, the sessions
and the COMMITs stay. -/
theorem State.doHandback_ends : ((s.doHandback t d forced).relief t).dwell = none
    ∧ ((s.doHandback t d forced).relief t).hist.head? = some (s.handbackEntry t d forced)
    ∧ (∀ o, o ≠ t → (s.doHandback t d forced).relief o = s.relief o) ∧ (s.doHandback t d forced).bcp = s.bcp := by
  rw [State.doHandback_eq]
  have entered := s.handedBack_added t d forced
  have left := ((State.markForced_reliefKept (s.handedBack t d forced) t forced).history t).trans
    (State.unpark_endDwell_historyKept _ t d.slice d)
  refine ⟨State.endDwell_dwell .., ?entry, fun o ho => ?others, left.bcp.trans entered.bcp⟩
  case entry =>
    rw [left.hist, entered.relief]
    rfl
  case others => rw [left.others o ho, entered.others o ho]

/-- A forced handback is counted in CAL_CNT0 and marked in CAL_LAST1 (R102). -/
theorem State.doHandback_forced :
    (s.doHandback t d true).fld (Reg.calCnt0 t) 31 16 = (s.fld (Reg.calCnt0 t) 31 16 + 1) % 65536
      ∧ (s.doHandback t d true).bit (Reg.calLast1 t) 24 = true := by
  rw [State.doHandback_eq]
  have entered := (s.handedBack_added t d true).regs
  have left := (((s.handedBack t d true).markForced t true).unpark_endDwell_historyKept t d.slice d).regs
  have low (a : Nat) (h : 0x14 < a % 0x100) :
      a ∉ Reg.calStat t :: sliceRegs t 16 ++ [Reg.calCycles t, Reg.calStat t] := by
    have cycles : a ≠ Reg.calCycles t := by
      rintro rfl
      simp only [Reg.calCycles] at h
      omega
    simp [ne_calStat_of_low (t := t) (a := a) (by omega), notMem_sliceRegs_low (t := t) (a := a) (by omega), cycles]
  have apart : Reg.calCnt0 t ∉ sliceRegs t d.slice ++ sliceRegs t 16 ++ [Reg.calHistHead t] := by
    have slices (sl : Nat) : Reg.calCnt0 t ∉ sliceRegs t sl := notMem_sliceRegs_low (by simp only [Reg.calCnt0]; omega)
    have head : Reg.calCnt0 t ≠ Reg.calHistHead t := by simp [Reg.calCnt0, Reg.calHistHead]
    simp [slices, head]
  constructor
  · rw [left.fld (low _ (by simp only [Reg.calCnt0]; omega)), State.count_markForced, entered.fld apart]
  · rw [left.bit (low _ (by simp only [Reg.calLast1]; omega)), State.mark_markForced]

end

/-! ### The decision on the due boundary (R95, R101, R102) -/

section
variable {s : State} {t : Fin 4} {d : Dwell}

theorem handback_closed (dwell : (s.relief t).dwell = some d) (due : s.dwellDue t d ≤ s.nextFrame)
    (decides : s.nextFrame ≤ s.samplePos + 2000) (standing : d.standing = true) (returned : d.returned = true)
    (closed : s.heldOpen (16 * t.val + s.servesOf t d.slice) = false) : handback t s = s.doHandback t d false := by
  simp only [handback, dwell, Nat.not_lt.mpr due, standing, returned, State.decides, decides, closed]
  rfl

theorem handback_open (dwell : (s.relief t).dwell = some d) (due : s.dwellDue t d ≤ s.nextFrame)
    (decides : s.nextFrame ≤ s.samplePos + 2000) (standing : d.standing = true) (returned : d.returned = true)
    (first : d.deferred = false) (opened : s.heldOpen (16 * t.val + s.servesOf t d.slice) = true) :
    handback t s = ((s.wrapFld (Reg.calCnt0 t) 15 0 1).setPhase t 4).updRelief t fun r =>
      { r with dwell := some { d with deferred := true } } := by
  simp only [handback, dwell, Nat.not_lt.mpr due, standing, returned, State.decides, decides, opened, first]
  rfl

theorem forcedHandback_forces (dwell : (s.relief t).dwell = some d) (deferred : d.deferred = true)
    (waited : s.dwellDue t d + 200000 * s.fld (Reg.calMaxDefer t) 9 0 ≤ s.nextFrame) :
    forcedHandback t s = s.doHandback t d true := by
  simp only [forcedHandback, dwell, deferred, waited]
  rfl

end

theorem handback_completes (s : State) (t : Tile) (d : Dwell) (dwell : (s.relief t).dwell = some d)
    (due : s.dwellDue t d ≤ s.nextFrame) (decides : s.nextFrame ≤ s.samplePos + 2000) (standing : d.standing = true)
    (returned : d.returned = true) (closed : s.heldOpen (16 * t.val + s.servesOf t d.slice) = false)
    (unlatched : s.bcp.latches.find? (fun (l : Latch) => l.block == 18 + 4 * t.val) = none) :
    ∃ u e, exec (.handback t) s = .next u ∧ (u.relief t).dwell = none ∧ (u.relief t).hist.head? = some e
      ∧ e.slice = d.slice ∧ e.step = d.step ∧ e.forced = false ∧ e.manual = false
      ∧ e.seconds = BitVec.ofNat 32 (secOf (s.stampOf s.nextFrame)) ∧ (∀ o, o ≠ t → u.relief o = s.relief o) := by
  have back := handback_closed dwell due decides standing returned closed
  obtain ⟨ended, entry, others, bcp⟩ := s.doHandback_ends t d false
  rw [← back] at ended entry others bcp
  obtain ⟨u, next, shows⟩ := run_shows (State.rotationCommit_unlatched (s := s) (u := handback t s) (t := t)
    (by rw [bcp, unlatched]))
  exact ⟨u, s.handbackEntry t d false, next, shows.relief t ▸ ended, shows.relief t ▸ entry, rfl, rfl, rfl, rfl, rfl,
    fun o ho => (shows.relief o).trans (others o ho)⟩

theorem handback_defers (s : State) (t : Tile) (d : Dwell) (dwell : (s.relief t).dwell = some d)
    (due : s.dwellDue t d ≤ s.nextFrame) (decides : s.nextFrame ≤ s.samplePos + 2000) (standing : d.standing = true)
    (returned : d.returned = true) (first : d.deferred = false)
    (opened : s.heldOpen (16 * t.val + s.servesOf t d.slice) = true) :
    ∃ u e, exec (.handback t) s = .next u ∧ (u.relief t).dwell = some e ∧ e.deferred = true ∧ e.slice = d.slice
      ∧ u.fld (Reg.calCnt0 t) 15 0 = (s.fld (Reg.calCnt0 t) 15 0 + 1) % 65536 ∧ u.fld (Reg.calStat t) 10 8 = 4
      ∧ s.KeepsRegs u [Reg.calCnt0 t, Reg.calStat t] := by
  have defers := handback_open dwell due decides standing returned first opened
  have goesOn : ((handback t s).relief t).dwell = some { d with deferred := true } := by
    rw [defers, State.updRelief_relief_same]
  have apart : Reg.calCnt0 t ≠ Reg.calStat t := by simp [Reg.calCnt0, Reg.calStat]
  obtain ⟨u, next, shows⟩ := run_shows (State.rotationCommit_dwelling (s := s) goesOn)
  refine ⟨u, _, next, (congrArg Relief.dwell (shows.relief t)).trans goesOn, rfl, rfl, ?count, ?phase, ?kept⟩
  case count =>
    rw [shows.fld, defers, State.updRelief_fld, State.setPhase, State.fld_setFld_ne _ _ _ _ _ _ _ _ apart, State.wrapFld,
      State.fld_setFld_same _ _ _ _ _ (by decide)]
    rfl
  case phase => rw [shows.fld, defers, State.updRelief_fld, State.phase_setPhase]
  case kept =>
    refine shows.keepsRegs ?_
    rw [defers]
    exact ((s.wrapFld_reliefKept _ 15 0 1).trans (State.setPhase_reliefKept _ t 4)).regs

theorem forcedHandback_completes (s : State) (t : Tile) (d : Dwell) (dwell : (s.relief t).dwell = some d)
    (deferred : d.deferred = true) (waited : s.dwellDue t d + 200000 * s.fld (Reg.calMaxDefer t) 9 0 ≤ s.nextFrame)
    (unlatched : s.bcp.latches.find? (fun (l : Latch) => l.block == 18 + 4 * t.val) = none) :
    ∃ u e, exec (.forcedHandback t) s = .next u ∧ (u.relief t).dwell = none ∧ (u.relief t).hist.head? = some e
      ∧ e.slice = d.slice ∧ e.forced = true
      ∧ u.fld (Reg.calCnt0 t) 31 16 = (s.fld (Reg.calCnt0 t) 31 16 + 1) % 65536
      ∧ u.bit (Reg.calLast1 t) 24 = true := by
  have back := forcedHandback_forces dwell deferred waited
  obtain ⟨ended, entry, -, bcp⟩ := s.doHandback_ends t d true
  obtain ⟨count, mark⟩ := s.doHandback_forced t d
  rw [← back] at ended entry bcp count mark
  obtain ⟨u, next, shows⟩ := run_shows (State.rotationCommit_unlatched (s := s) (u := forcedHandback t s) (t := t)
    (by rw [bcp, unlatched]))
  exact ⟨u, s.handbackEntry t d true, next, shows.relief t ▸ ended, shows.relief t ▸ entry, rfl, rfl,
    (shows.fld ..).trans count, (shows.bit ..).trans mark⟩

/-! ### The end of the 10 ms wait (R110) -/

theorem reliefWarmupEnd_requests {s : State} {t : Fin 4} {w : Nat} (waits : (s.relief t).warmUntil = some w)
    (past : w ≤ s.tim.now) (runs : s.calRun t = true) (unparked : (s.relief t).parked = none)
    (noTrims : (s.relief t).manual = none) (idle : (s.relief t).dwell = none) (fresh : (s.relief t).waiting = false)
    (sampling : s.tileSampling t = true) :
    reliefWarmupEnd t s = (s.updRelief t fun r => { r with warmUntil := none }).requestDwell t := by
  have calRun (f : Relief → Relief) : (s.updRelief t f).calRun t = true := runs
  have tileSampling (f : Relief → Relief) : (s.updRelief t f).tileSampling t = true := sampling
  simp only [reliefWarmupEnd, waits, Nat.not_lt.mpr past, State.rotates, State.updRelief_relief_same, idle, fresh, noTrims,
    unparked, calRun, tileSampling]
  rfl

theorem reliefWarmupEnd_completes (s : State) (t : Tile) (w : Nat) (waits : (s.relief t).warmUntil = some w)
    (past : w ≤ s.tim.now) (runs : s.calRun t = true) (unparked : (s.relief t).parked = none)
    (noTrims : (s.relief t).manual = none) (idle : (s.relief t).dwell = none) (fresh : (s.relief t).waiting = false)
    (sampling : s.tileSampling t = true) (rotating : s.rotation t ≠ []) :
    ∃ u, exec (.reliefWarmupEnd t) s = .next u ∧ (u.relief t).warmUntil = none ∧ (u.relief t).waiting = true
      ∧ u.fld (Reg.calStat t) 10 8 = 6 ∧ s.KeepsRegs u [Reg.calStat t] := by
  have ends := reliefWarmupEnd_requests waits past runs unparked noTrims idle fresh sampling
  have goes : (s.updRelief t fun r => { r with warmUntil := none }).rotation t ≠ [] := rotating
  obtain ⟨relief, phase⟩ := State.requestDwell_requests _ t (.inl goes)
  obtain ⟨u, next, shows⟩ := run_shows ends
  rw [← shows.relief, State.updRelief_relief_same] at relief
  exact ⟨u, next, by rw [relief], by rw [relief], (shows.fld ..).trans phase,
    shows.keepsRegs ((s.updRelief_keepsRegs t _).trans (State.requestDwell_historyKept _ t).regs)⟩

/-! ### Range calibration (R112) -/

theorem withIdx_fst {α : Type} (l : List α) : (withIdx l).map Prod.fst = List.range l.length :=
  List.map_fst_zip (by simp)

theorem withIdx_nodup {α : Type} (l : List α) : (withIdx l).Nodup :=
  List.Nodup.of_map Prod.fst (withIdx_fst l ▸ List.nodup_range)

theorem mem_withIdx {α : Type} {l : List α} {i : Nat} {v : α} : (i, v) ∈ withIdx l ↔ l[i]? = some v := by
  rw [withIdx, List.mem_iff_getElem?]
  constructor
  · rintro ⟨n, hn⟩
    obtain ⟨place, value⟩ := List.getElem?_zip_eq_some.mp hn
    obtain ⟨_, same⟩ := List.getElem?_eq_some_iff.mp place
    obtain rfl : n = i := (List.getElem_range _).symm.trans same
    exact value
  · intro h
    obtain ⟨hi, -⟩ := List.getElem?_eq_some_iff.mp h
    exact ⟨i, List.getElem?_zip_eq_some.mpr ⟨List.getElem?_range hi, h⟩⟩

/-- The amplifier terms of one channel, written. -/
def State.writeTerms (t : Fin 4) (s : State) (x : Nat × Word × Word) : State :=
  (s.set (Reg.calChAmp0 t x.1) (x.2.1 &&& 0x0FFF0FFF)).set (Reg.calChAmp1 t x.1) (x.2.2 &&& 0xFFF)

/-- The amplifier terms of the channels, written in their order. -/
def State.writeAllTerms (t : Fin 4) (terms : List (Word × Word)) (s : State) : State :=
  (withIdx (terms.take 16)).foldl (State.writeTerms t) s

section
variable (s : State) (t : Fin 4) (terms : List (Word × Word))

theorem State.writeTerms_reliefKept (x : Nat × Word × Word) :
    ReliefKept s (s.writeTerms t x) [Reg.calChAmp0 t x.1, Reg.calChAmp1 t x.1] :=
  (s.set_reliefKept _ _).trans (State.set_reliefKept _ _ _)

theorem State.writeAllTerms_bcp : (s.writeAllTerms t terms).bcp = s.bcp :=
  foldl_unobserved State.bcp (fun x _ s => (s.writeTerms_reliefKept t x).bcp) s

theorem State.writeAllTerms_relief (o : Fin 4) : (s.writeAllTerms t terms).relief o = s.relief o :=
  foldl_unobserved (State.relief · o) (fun x _ s => (s.writeTerms_reliefKept t x).relief o) s

/-- Each channel has the terms that are its own. -/
theorem State.get_writeAllTerms {k : Nat} {x : Word × Word} (hk : k < 16) (hx : terms[k]? = some x) :
    (s.writeAllTerms t terms).get (Reg.calChAmp0 t k) = x.1 &&& 0x0FFF0FFF
      ∧ (s.writeAllTerms t terms).get (Reg.calChAmp1 t k) = x.2 &&& 0xFFF := by
  have own : (k, x) ∈ withIdx (terms.take 16) := mem_withIdx.mpr (by rw [List.getElem?_take_of_lt hk, hx])
  have apart : Reg.calChAmp0 t k ≠ Reg.calChAmp1 t k := by simp [Reg.calChAmp0, Reg.calChAmp1]
  have others : ∀ y ∈ withIdx (terms.take 16), y ≠ (k, x) → ∀ s : State,
      (fun u : State => (u.get (Reg.calChAmp0 t k), u.get (Reg.calChAmp1 t k))) (s.writeTerms t y)
        = (s.get (Reg.calChAmp0 t k), s.get (Reg.calChAmp1 t k)) := by
    rintro ⟨i, v⟩ hy ne s
    have other : i ≠ k := by
      rintro rfl
      exact ne (congrArg _ (Option.some.inj ((mem_withIdx.mp hy).symm.trans (mem_withIdx.mp own))))
    have kept := (s.writeTerms_reliefKept t (i, v)).regs
    refine Prod.ext (kept _ ?_) (kept _ ?_) <;> simp [Reg.calChAmp0, Reg.calChAmp1] <;> omega
  obtain ⟨u, -, written⟩ := foldl_observe (f := State.writeTerms t)
    (fun u : State => (u.get (Reg.calChAmp0 t k), u.get (Reg.calChAmp1 t k))) (k, x) others (withIdx_nodup _) own s
  obtain ⟨amp0, amp1⟩ := Prod.mk.inj written
  exact ⟨amp0.trans ((State.get_set_ne _ _ _ _ apart).trans (State.get_set_same ..)), amp1.trans (State.get_set_same ..)⟩

end

theorem State.rangeCalOver_reliefKept (s : State) (t : Fin 4) : ReliefKept s (s.rangeCalOver t) [Reg.calStat t] :=
  (s.setBit_reliefKept (Reg.calStat t) 20 false).trans (State.updTile_reliefKept _ t)

/-- A range calibration that no operation asked for writes the terms of the channels. -/
theorem rangeCalDone_writes {s : State} {t : Fin 4} (terms : List (Word × Word))
    (runs : s.bit (Reg.calStat t) 20 = true) (own : (s.relief t).rangeOp = none) :
    rangeCalDone t terms s = (s.writeAllTerms t terms).rangeCalOver t := by
  have alone : (((s.writeAllTerms t terms).rangeCalOver t).relief t).rangeOp = none := by
    rw [(State.rangeCalOver_reliefKept _ t).relief, State.writeAllTerms_relief, own]
  have part : ((s.writeAllTerms t terms).rangeCalOver t).rangeCalPart t 0 = (s.writeAllTerms t terms).rangeCalOver t := by
    rw [State.rangeCalPart, alone]
  rw [rangeCalDone, runs]
  exact part

theorem rangeCalDone_completes (s : State) (t : Tile) (terms : List (Word × Word))
    (runs : s.bit (Reg.calStat t) 20 = true) (own : (s.relief t).rangeOp = none) (_all : terms.length = 16) :
    ∃ u, exec (.rangeCalDone t terms) s = .next u ∧ u.bit (Reg.calStat t) 20 = false
      ∧ (∀ (k : Chan) (x : Word × Word), terms[k.val]? = some x →
          u.get (Reg.calChAmp0 t k) = x.1 &&& 0x0FFF0FFF ∧ u.get (Reg.calChAmp1 t k) = x.2 &&& 0xFFF)
      ∧ u.bcp = s.bcp := by
  obtain ⟨u, next, shows⟩ := run_shows (rangeCalDone_writes terms runs own)
  have ends := (s.writeAllTerms t terms).rangeCalOver_reliefKept t
  refine ⟨u, next, ?bit, fun k x hx => ?terms, ?bcp⟩
  case bit => exact (shows.bit ..).trans (State.bit_setBit_same _ _ _ _ (by decide))
  case terms =>
    obtain ⟨amp0, amp1⟩ := s.get_writeAllTerms t terms k.isLt hx
    rw [shows.get, shows.get, ends.regs _ (by simp [Reg.calChAmp0, Reg.calStat]; omega),
      ends.regs _ (by simp [Reg.calChAmp1, Reg.calStat]; omega)]
    exact ⟨amp0, amp1⟩
  case bcp => rw [shows.bcp, ends.bcp, State.writeAllTerms_bcp]

/-! ### Manual trims (R113) -/

theorem State.warmUpAnew_keepsRegs (s : State) (t : Fin 4) : s.KeepsRegs (s.warmUpAnew t) [Reg.calStat t] :=
  (State.setPhase_reliefKept (s.updRelief t _) t 7).regs

theorem State.warmUpAnew_manual (s : State) (t : Fin 4) : ((s.warmUpAnew t).relief t).manual = (s.relief t).manual := by
  rw [State.warmUpAnew, State.updRelief_relief_same, State.warmUp, (State.setPhase_reliefKept _ t 7).relief,
    State.updRelief_relief_same]

/-- Manual trims are in force and no longer pending; where RUN is 1 the rotation warms up again. -/
def State.trimsDone (t : Fin 4) (s : State) : State :=
  let s := (s.setBit (Reg.calManCtrl t) 9 false).updRelief t fun r => { r with manual := none }
  if s.calRun t then s.warmUpAnew t else s

theorem State.trimsDone_manual (s : State) (t : Fin 4) : ((s.trimsDone t).relief t).manual = none := by
  unfold State.trimsDone
  dsimp only
  split
  · rw [State.warmUpAnew_manual, State.updRelief_relief_same]
  · rw [State.updRelief_relief_same]

theorem State.trimsDone_keepsRegs (s : State) (t : Fin 4) :
    (s.setBit (Reg.calManCtrl t) 9 false).KeepsRegs (s.trimsDone t) [Reg.calStat t] := by
  unfold State.trimsDone
  dsimp only
  split
  · exact (State.updRelief_keepsRegs _ t _).trans (State.warmUpAnew_keepsRegs _ t)
  · exact fun _ _ => rfl

/-- The next frame of a channel is flagged where the slice serves it. -/
def State.flagServed (t : Fin 4) (k : Nat) (f : Byte) (on : Bool) (s : State) : State :=
  if on then s.flagNext t k f else s

theorem State.flagServed_reliefKept (s : State) (t : Fin 4) (k : Nat) (f : Byte) (on : Bool) :
    ReliefKept s (s.flagServed t k f on) [] := by
  cases on
  · exact ⟨fun _ _ => rfl, fun _ => rfl, rfl⟩
  · exact s.flagNext_reliefKept t k f

theorem manualTrimEffect_takes {s : State} {t : Fin 4} {sl : Nat} {x : Trims} {at_ : Nat}
    (manual : (s.relief t).manual = some (sl, x, at_)) (working : sl < 16) (sampling : s.tileSampling t = true)
    (decides : s.nextFrame ≤ s.samplePos + 2000) (closed : s.heldOpen (16 * t.val + s.servesOf t sl) = false) :
    ∃ v, manualTrimEffect t s = State.trimsDone t v ∧ (s.setTrims t sl x).KeepsRegs v [Reg.calHistHead t] := by
  have other : sl ≠ 16 := Nat.ne_of_lt working
  unfold manualTrimEffect
  simp only [manual, sampling, State.decides, decides, closed, other, Bool.not_true, Bool.false_eq_true, if_false,
    decide_true, Bool.and_false, Bool.false_and, Bool.or_self]
  exact ⟨_, rfl, ((State.flagServed_reliefKept _ t _ 1 _).regs.trans (State.addHist_added _ t _ _ _ _ _ _ _).regs)⟩

theorem manualTrimEffect_completes (s : State) (t : Tile) (sl : Nat) (x : Trims) (at_ : Nat)
    (manual : (s.relief t).manual = some (sl, x, at_)) (working : sl < 16) (sampling : s.tileSampling t = true)
    (decides : s.nextFrame ≤ s.samplePos + 2000) (closed : s.heldOpen (16 * t.val + s.servesOf t sl) = false) :
    ∃ u, exec (.manualTrimEffect t) s = .next u ∧ (u.relief t).manual = none
      ∧ u.get (Reg.slcSlTrim0 t sl) = x.t0 &&& 0x0FFF0FFF ∧ u.get (Reg.slcSlTrim3 t sl) = x.t3 &&& 0xFFF
      ∧ u.bit (Reg.calManCtrl t) 9 = false := by
  obtain ⟨v, takes, kept⟩ := manualTrimEffect_takes manual working sampling decides closed
  obtain ⟨u, next, shows⟩ := run_shows takes
  have done := v.trimsDone_keepsRegs t
  have trim (a : Nat) (below : a < 0x104000 + 0x10000 * t.val) : u.get a = (s.setTrims t sl x).get a := by
    rw [shows.get, done a (by simp only [Reg.calStat, List.mem_singleton]; omega),
      State.get_setBit_ne _ _ _ _ _ (by simp only [Reg.calManCtrl]; omega),
      kept a (by simp only [Reg.calHistHead, List.mem_singleton]; omega)]
  have apart : Reg.calManCtrl t ∉ [Reg.calStat t] := by simp [Reg.calManCtrl, Reg.calStat]
  refine ⟨u, next, ?manual, ?trim0, ?trim3, ?pending⟩
  case manual => rw [shows.relief, State.trimsDone_manual]
  case trim0 => rw [trim _ (by simp only [Reg.slcSlTrim0]; omega), State.get_setTrims_trim0]
  case trim3 => rw [trim _ (by simp only [Reg.slcSlTrim3]; omega), State.get_setTrims_trim3]
  case pending => rw [shows.bit, done.bit apart, State.bit_setBit_same _ _ _ _ (by decide)]

/-- Settles O28: each decision hands a dwell back or defers it, and each other event changes the one thing it is for. -/
theorem dwellsEndAndRotationEventsComplete : Obligations.DwellsEndAndRotationEventsComplete := by
  unfold Obligations.DwellsEndAndRotationEventsComplete
  exact ⟨handback_completes, handback_defers, forcedHandback_completes, reliefWarmupEnd_completes, rangeCalDone_completes,
    manualTrimEffect_completes⟩

end Sys2Proof.Machine
end

