-- ==== Sys2Proof/Proofs/RotationWrites.lean ====
section
/-! Writes of CAL_CTRL and CAL_MAN_CTRL (R105, R112, R113): the checks that they pass and what they start. -/

namespace Sys2Proof.Machine

/-! ### Checks -/

/-- No provocation's register and none that flips a line stands in a tile. -/
theorem isProv_tile {a : Nat} (h : 0x100000 ≤ a) : isProv a = false := by
  have last : Reg.lnkProvCtrl 11 < a := Nat.lt_of_lt_of_le (by decide) h
  rw [isProv, decide_eq_false (Nat.not_lt_of_gt last), Bool.and_false]

theorem isFlip_tile {a : Nat} (h : 0x100000 ≤ a) : isFlip a = false := by
  have last : Reg.dptFlipAddr < a ∧ Reg.dptMapflipCtrl < a :=
    ⟨Nat.lt_of_lt_of_le (by decide) h, Nat.lt_of_lt_of_le (by decide) h⟩
  simp only [isFlip, decide_eq_false (Nat.not_le_of_gt last.1), decide_eq_false (Nat.not_le_of_gt last.2),
    Bool.and_false, Bool.or_false]

section
variable {s : State} {id : Word} {a : Nat} {v m : Word}

/-- A write that the mode forbids has no effect (R336). -/
theorem State.writeReg_wrongMode (hr : s.addrRefused a = none) (hm : s.modeBlocks a (v &&& writeMask a m) = true) :
    s.writeReg id a v m 0 = (St.wrongMode, s) := by
  unfold writeMask at hm
  unfold State.writeReg
  simp only [hr, hm, if_true]

/-- A write of a register whose block runs has no effect (R336). -/
theorem TileReg.writeReg_locked (h : TileReg a) (hr : s.addrRefused a = none)
    (hv : rangesOk32 (fieldsAt a) (s.newValue a v m) (writeMask a m) = true)
    (hb : s.blockRefuses a (s.newValue a v m) (v &&& writeMask a m) (writeMask a m) = none)
    (hk : s.lkRefuses a (s.view a) (s.newValue a v m) = true) :
    s.writeReg id a v m 0 = (St.busyRunning, s) := by
  unfold writeMask State.newValue writeMask at *
  unfold State.writeReg
  simp only [hr, h.modeBlocks, h.notHi, h.notLo, h.notRegion, hv, hb, hk, Bool.false_and, Bool.not_true,
    Bool.false_eq_true, if_false, if_true]

theorem State.storeFields_tiles (new mask clr : Word) : (s.storeFields id a new mask clr).tiles = s.tiles := by
  unfold State.storeFields
  dsimp only
  split <;> rfl

end

/-! ### CAL_CTRL -/

theorem fieldsAt_calCtrl : ∀ t : Tile, fieldsAt (Reg.calCtrl t)
    = [⟨.wo, 9, 9, .any⟩, ⟨.wo, 8, 8, .any⟩, ⟨.sh, 0, 0, .any⟩] := by decide +kernel

section
variable (s : State) (t : Tile) (v new on mask : Word)

theorem calCtrl_range : 0x100000 ≤ Reg.calCtrl t ∧ Reg.calCtrl t < 2 ^ 32 := by
  simp only [Reg.calCtrl]
  omega

theorem calCtrl_tile : (Fin.ofNat 4 (Reg.calCtrl t / 0x10000 - 0x10)) = t := by
  revert t
  decide

theorem calCtrl_offset : Reg.calCtrl t % 0x10000 = 0x4000 := by
  simp only [Reg.calCtrl]
  omega

theorem writeMask_calCtrl : writeMask (Reg.calCtrl t) 0xFFFFFFFF = 0x301 := by
  rw [writeMask, fieldsAt_calCtrl]
  rfl

theorem rangesOk32_calCtrl : rangesOk32 (fieldsAt (Reg.calCtrl t)) new mask = true := by
  rw [fieldsAt_calCtrl]
  simp [rangesOk32, isKept, limitOk]

theorem directMask_calCtrl : fieldMask isDirect (fieldsAt (Reg.calCtrl t)) = 0#32 := by
  rw [fieldsAt_calCtrl]
  rfl

theorem clearMask_calCtrl : fieldMask isWc (fieldsAt (Reg.calCtrl t)) = 0#32 := by
  rw [fieldsAt_calCtrl]
  rfl

theorem lkMask_calCtrl : lkMask (Reg.calCtrl t) = 0#32 := by
  have := (calCtrl_range t).1
  rw [lkMask, if_neg (by simp only [Reg.pwrShedLo]; omega), fieldsAt_calCtrl]
  rfl

theorem calCtrl_notGate : NotGate (Reg.calCtrl t) := by
  have := (calCtrl_range t).1
  simp only [NotGate, Reg.clkGateHostEng, Reg.clkGateHostMisc]
  omega

/-- RANGE_CAL is for Calibrate alone (R112). -/
theorem State.modeBlocks_calCtrl : s.modeBlocks (Reg.calCtrl t) on = (on.getLsbD 9 && !s.inMode .calibrate) := by
  have tile := (calCtrl_range t).1
  have others : Reg.calCtrl t ≠ Reg.cmpInject ∧ Reg.calCtrl t ≠ Reg.clkGateHostEng ∧ Reg.calCtrl t ≠ Reg.lnkMlCtrl := by
    simp only [Reg.cmpInject, Reg.clkGateHostEng, Reg.lnkMlCtrl]
    omega
  simp [State.modeBlocks, isProv_tile tile, isFlip_tile tile, others, tile, calCtrl_offset]

theorem State.blockRefuses_calCtrl : s.blockRefuses (Reg.calCtrl t) new on mask = none := by
  simp only [State.blockRefuses, calCtrl_offset, if_pos (calCtrl_range t).1]
  rw [if_neg (by omega), if_neg (by omega), if_neg (by omega)]

theorem State.lkRefuses_calCtrl (old : Word) : s.lkRefuses (Reg.calCtrl t) old new = false := by
  rw [State.lkRefuses, if_neg (calCtrl_notGate t).2, if_neg (by rw [calCtrl_offset]; omega), lkMask_calCtrl,
    BitVec.and_zero]
  rfl

/-- What RANGE_CAL, … -/
def State.rangeWritten (t : Fin 4) (range : Bool) (s : State) : State := if range then s.startRangeCal t none else s

/-- … and then CLEAR_PARK start. -/
def State.calWritten (t : Fin 4) (range park : Bool) (s : State) : State :=
  if park then (s.rangeWritten t range).clearPark t else s.rangeWritten t range

theorem State.writeActs_calCtrl (old : State) : s.writeActs (Reg.calCtrl t) on mask old
    = s.calWritten t (on.getLsbD 9) (on.getLsbD 8) := by
  simp only [State.writeActs, calCtrl_tile, calCtrl_offset, if_pos (calCtrl_range t).1]
  rfl

/-- A write of CAL_CTRL that the mode allows stores RUN in the shadow and starts what it asks for. -/
theorem State.writeReg_calCtrl {s : State} (id : Word) (hr : s.addrRefused (Reg.calCtrl t) = none)
    (allowed : (v.getLsbD 9 && !s.inMode .calibrate) = false) :
    ∃ u, s.Carries u id [] ∧ u.tiles = s.tiles ∧ s.writeReg id (Reg.calCtrl t) v 0xFFFFFFFF 0
      = (St.ok, u.calWritten t (v.getLsbD 9) (v.getLsbD 8)) := by
  have low : 0x61000 ≤ Reg.calCtrl t - 4 := by simp only [Reg.calCtrl]; omega
  have bit (i : Nat) (h : (0x301 : Word).getLsbD i = true) : (v &&& 0x301).getLsbD i = v.getLsbD i := by
    rw [BitVec.getLsbD_and, h, Bool.and_true]
  have mode : s.modeBlocks (Reg.calCtrl t) (v &&& writeMask (Reg.calCtrl t) 0xFFFFFFFF) = false := by
    rw [State.modeBlocks_calCtrl, writeMask_calCtrl, bit 9 (by decide), allowed]
  have written := State.writeReg_checked (id := id) (busy := 0) hr mode (wholeLo_tile low)
    (wholeLo_tile (Nat.le_trans low (Nat.sub_le _ _))) (by simp only [Reg.calCtrl, Reg.dptRegion]; omega)
    (calCtrl_notGate t) (rangesOk32_calCtrl t _ _) (State.blockRefuses_calCtrl s t _ _ _) (State.lkRefuses_calCtrl s t _ _)
  rw [clearMask_calCtrl, BitVec.and_zero, State.writeActs_calCtrl, writeMask_calCtrl, bit 8 (by decide),
    bit 9 (by decide)] at written
  exact ⟨_, s.storeFields_carries id _ _ (directMask_calCtrl t), State.storeFields_tiles .., written⟩

theorem State.writeReg_calCtrl_refused {s : State} (id : Word) (hr : s.addrRefused (Reg.calCtrl t) = none)
    (asked : v.getLsbD 9 = true) (other : s.inMode .calibrate = false) :
    s.writeReg id (Reg.calCtrl t) v 0xFFFFFFFF 0 = (St.wrongMode, s) := by
  refine State.writeReg_wrongMode hr ?_
  rw [State.modeBlocks_calCtrl, writeMask_calCtrl, BitVec.getLsbD_and, asked, other]
  rfl

end

section
variable {s u : State} {id : Word} {t : Fin 4} {l : List Nat}

theorem State.startRangeCal_shape (op : Option OpRef) : s.startRangeCal t op
    = { s with regs := (s.startRangeCal t op).regs, tiles := (s.startRangeCal t op).tiles } := by
  unfold State.startRangeCal
  split <;> rfl

theorem State.requestDwell_shape : s.requestDwell t
    = { s with regs := (s.requestDwell t).regs, tiles := (s.requestDwell t).tiles } := by
  unfold State.requestDwell
  split <;> rfl

/-- CLEAR_PARK requests a dwell on the parked slice. -/
theorem State.clearPark_parked (parked : (s.relief t).parked.isSome = true) (idle : (s.relief t).dwell = none) :
    s.clearPark t = (s.updRelief t fun r => { r with retry := true, warmUntil := none }).requestDwell t := by
  rw [State.clearPark, parked, idle]
  rfl

theorem State.Carries.of_shape {v : State} (h : s.Carries u id l) (regs : u.KeepsRegs v l)
    (shape : v = { u with regs := v.regs, tiles := v.tiles }) : s.Carries v id l where
  regs a ha := (regs a ha).trans (h.regs a ha)
  tim := (congrArg State.tim shape :).trans h.tim
  lnk := (congrArg State.lnk shape :).trans h.lnk
  session x hx := by
    obtain ⟨y, hy⟩ := h.session x hx
    exact ⟨y, (congrArg (State.findSession · id) shape :).trans hy⟩

/-- What a write of CAL_CTRL starts shows in CAL_STAT alone of the registers. -/
theorem State.Carries.clearPark (h : s.Carries u id [Reg.calStat t]) : s.Carries (u.clearPark t) id [Reg.calStat t] := by
  unfold State.clearPark
  split
  · have asked : s.Carries (u.updRelief t fun r => { r with retry := true, warmUntil := none }) id [Reg.calStat t] :=
      h.of_shape (fun _ _ => rfl) rfl
    exact asked.of_shape (State.requestDwell_historyKept _ t).regs State.requestDwell_shape
  · exact h

theorem State.Carries.calWritten (range park : Bool) (h : s.Carries u id []) :
    s.Carries (u.calWritten t range park) id [Reg.calStat t] := by
  have started : s.Carries (u.rangeWritten t range) id [Reg.calStat t] := by
    have start : s.Carries u id [Reg.calStat t] := ⟨fun a _ => h.regs a List.not_mem_nil, h.tim, h.lnk, h.session⟩
    cases range
    · exact start
    · exact start.of_shape (State.keepsRegs_one fun a ne => u.get_startRangeCal_ne t none ne) (State.startRangeCal_shape none)
  cases park
  · exact started
  · exact started.clearPark

end

/-- A range calibration that is started runs, anew or as it ran. -/
theorem State.bit_startRangeCal (s : State) (t : Fin 4) (op : Option OpRef) :
    (s.startRangeCal t op).bit (Reg.calStat t) 20 = true := by
  unfold State.startRangeCal
  split
  · assumption
  · exact State.bit_setBit_same _ _ _ _ (by decide)

theorem State.arrived_inMode (s : State) (r : Req) (m : Mode) : (s.arrived r).inMode m = s.inMode m := by
  have cause : (s.arrived r).get Reg.pwrDegraded = s.get Reg.pwrDegraded :=
    State.get_arrived_ne _ _ _ (ne_lnkPortRx r.port (by decide))
  unfold State.inMode State.mode State.fld
  rw [cause]
  rfl

section
variable {s : State} {r : Req} {x : Session} {t : Tile} {v : Word}

/-- A served write of CAL_CTRL that the mode allows is answered OK and shows what it has started. -/
theorem calCtrl_answers (n : Nat) (i : Instr) (h : Served s writeForm r x) (hr : s.addrRefused (Reg.calCtrl t) = none)
    (allowed : (v.getLsbD 9 && !s.inMode .calibrate) = false) :
    ∃ u w : State, run (receive r.port n i fun s => s.rowWrite r (Reg.calCtrl t) v 0) s = .next u
      ∧ w.tiles = s.tiles ∧ Replied u r 0x0101 St.ok [] ∧ s.KeepsRegs u [Reg.lnkPortRx r.port, Reg.calStat t]
      ∧ (∀ a, u.get a = (w.calWritten t (v.getLsbD 9) (v.getLsbD 8)).get a)
      ∧ u.tiles = (w.calWritten t (v.getLsbD 9) (v.getLsbD 8)).tiles := by
  obtain ⟨w, stored, tiles, written⟩ := State.writeReg_calCtrl t v r.session ((s.arrived_addrRefused r _).trans hr)
    (by rw [s.arrived_inMode r, allowed])
  have started := stored.calWritten (t := t) (v.getLsbD 9) (v.getLsbD 8)
  obtain ⟨y, hy⟩ := started.session _ h.found_arrived
  have far (b : Nat) (hb : b ∈ [Reg.calStat t]) : b < 0x40400 ∨ 0x404B0 ≤ b := by
    rw [List.mem_singleton.mp hb]
    exact .inr (by simp only [Reg.calStat]; omega)
  obtain ⟨u, next, answers, kept, shown⟩ := rowWrite_answers n i h (calCtrl_range t).2 written started.lnk
    started.regs far hy
  exact ⟨u, w, next, tiles, answers.replied, kept, answers.get, shown⟩

/-- A range calibration asked for outside Calibrate is refused. -/
theorem calCtrl_refused (n : Nat) (i : Instr) (h : Served s writeForm r x) (hr : s.addrRefused (Reg.calCtrl t) = none)
    (asked : v.getLsbD 9 = true) (other : s.inMode .calibrate = false) :
    ∃ u, run (receive r.port n i fun s => s.rowWrite r (Reg.calCtrl t) v 0) s = .next u
      ∧ Replied u r 0x0101 St.wrongMode [] ∧ s.KeepsRegs u [Reg.lnkPortRx r.port] := by
  have refused := State.writeReg_calCtrl_refused t v r.session ((s.arrived_addrRefused r _).trans hr) asked
    ((s.arrived_inMode r .calibrate).trans other)
  obtain ⟨u, next, answers, kept, -⟩ := rowWrite_answers n i h (calCtrl_range t).2 refused rfl (fun _ _ => rfl)
    (fun _ h => absurd h List.not_mem_nil) h.found_arrived
  exact ⟨u, next, answers.replied, kept⟩

end

theorem clearPark_completes (s : State) (r : Req) (x : Session) (t : Tile) (v : Word) (h : Served s writeForm r x)
    (hr : s.addrRefused (Reg.calCtrl t) = none) (park : v.getLsbD 8 = true) (noRange : v.getLsbD 9 = false)
    (parked : (s.relief t).parked.isSome = true) (idle : (s.relief t).dwell = none) :
    ∃ u, exec (.clearPark r t v) s = .next u ∧ Replied u r 0x0101 St.ok [] ∧ (u.relief t).retry = true
      ∧ (u.relief t).waiting = true ∧ u.fld (Reg.calStat t) 10 8 = 6
      ∧ s.KeepsRegs u [Reg.lnkPortRx r.port, Reg.calStat t] := by
  obtain ⟨u, w, next, same, replied, kept, get, tiles⟩ := calCtrl_answers (wireLen r) (.clearPark r t v) h hr
    (by rw [noRange, Bool.false_and])
  have before : w.relief t = s.relief t := by rw [State.relief, State.tile, same]; rfl
  rw [park, noRange] at get tiles
  have parks : w.calWritten t false true
      = (w.updRelief t fun r => { r with retry := true, warmUntil := none }).requestDwell t :=
    State.clearPark_parked (before ▸ parked) (before ▸ idle)
  have retried : ((w.updRelief t fun r => { r with retry := true, warmUntil := none }).relief t).retry = true := by
    rw [State.updRelief_relief_same]
  obtain ⟨relief, phase⟩ := State.requestDwell_requests _ t (.inr retried)
  rw [← parks] at relief phase
  have shown : u.relief t = (w.calWritten t false true).relief t := by rw [State.relief, State.tile, tiles]; rfl
  refine ⟨u, next, replied, ?retry, ?waiting, (congrArg (bits · 10 8) (get _)).trans phase, kept⟩
  case retry => rw [shown, relief, retried]
  case waiting => rw [shown, relief]

theorem calCtrlRangeCal_completes (s : State) (r : Req) (x : Session) (t : Tile) (v : Word) (h : Served s writeForm r x)
    (hr : s.addrRefused (Reg.calCtrl t) = none) (range : v.getLsbD 9 = true) (noPark : v.getLsbD 8 = false)
    (mode : s.inMode .calibrate = true) :
    ∃ u, exec (.calCtrlRangeCal r t v) s = .next u ∧ Replied u r 0x0101 St.ok [] ∧ u.bit (Reg.calStat t) 20 = true
      ∧ s.KeepsRegs u [Reg.lnkPortRx r.port, Reg.calStat t] := by
  obtain ⟨u, w, next, -, replied, kept, get, -⟩ := calCtrl_answers (wireLen r) (.calCtrlRangeCal r t v) h hr
    (by rw [mode, Bool.not_true, Bool.and_false])
  rw [range, noPark] at get
  exact ⟨u, next, replied, (congrArg (BitVec.getLsbD · 20) (get _)).trans (w.bit_startRangeCal t none), kept⟩

/-! ### CAL_MAN_CTRL -/

theorem fieldsAt_calManCtrl : ∀ t : Tile, fieldsAt (Reg.calManCtrl t)
    = [⟨.ro, 9, 9, .any⟩, ⟨.wo, 8, 8, .any⟩, ⟨.lk, 4, 0, .range 0 16⟩] := by decide +kernel

section
variable (s : State) (t : Tile) (v new on mask : Word)

theorem tileReg_calManCtrl : TileReg (Reg.calManCtrl t) := by
  have := t.isLt
  constructor <;> simp only [Reg.calManCtrl] <;> omega

theorem calManCtrl_tile : (Fin.ofNat 4 (Reg.calManCtrl t / 0x10000 - 0x10)) = t := by
  revert t
  decide

theorem calManCtrl_offset : Reg.calManCtrl t % 0x10000 = 0x4040 := by
  simp only [Reg.calManCtrl]
  omega

theorem writeMask_calManCtrl : writeMask (Reg.calManCtrl t) 0xFFFFFFFF = 0x31F := by
  rw [writeMask, fieldsAt_calManCtrl]
  rfl

theorem directMask_calManCtrl : fieldMask isDirect (fieldsAt (Reg.calManCtrl t)) = 0x1F := by
  rw [fieldsAt_calManCtrl]
  rfl

theorem clearMask_calManCtrl : fieldMask isWc (fieldsAt (Reg.calManCtrl t)) = 0#32 := by
  rw [fieldsAt_calManCtrl]
  rfl

theorem shadowMask_calManCtrl : fieldMask isSh (fieldsAt (Reg.calManCtrl t)) = 0 := by
  rw [fieldsAt_calManCtrl]
  rfl

theorem State.newValue_calManCtrl : s.newValue (Reg.calManCtrl t) v 0xFFFFFFFF
    = (s.view (Reg.calManCtrl t) &&& ~~~0x1F) ||| (v &&& 0x1F) := by
  rw [State.newValue, writeMask_calManCtrl, fieldsAt_calManCtrl, BitVec.and_assoc]
  rfl

theorem State.slice_newValue : bits (s.newValue (Reg.calManCtrl t) v 0xFFFFFFFF) 4 0 = bits v 4 0 := by
  rw [State.newValue_calManCtrl, bits_merge _ _ _ _ _ (by decide)]

theorem rangesOk32_calManCtrl : rangesOk32 (fieldsAt (Reg.calManCtrl t)) new 0x31F = decide (bits new 4 0 ≤ 16) := by
  rw [fieldsAt_calManCtrl]
  simp [rangesOk32, isKept, limitOk, maskOf]

theorem State.blockRefuses_calManCtrl : s.blockRefuses (Reg.calManCtrl t) new on mask = none := by
  simp only [State.blockRefuses, calManCtrl_offset, if_pos (tileReg_calManCtrl t).tile]
  rw [if_neg (by omega), if_neg (by omega), if_neg (by omega)]

/-- The manual registers take no write while the rotation runs or a slice is parked (R113). -/
theorem State.lkRefuses_calManCtrl (old : Word) :
    s.lkRefuses (Reg.calManCtrl t) old new = (s.calRun t || (s.relief t).parked.isSome) := by
  have runs : s.lkRuns (Reg.calManCtrl t) = (s.calRun t || (s.relief t).parked.isSome) := by
    simp only [State.lkRuns, calManCtrl_tile, calManCtrl_offset, if_pos (tileReg_calManCtrl t).tile]
    rw [if_neg (by omega), if_pos (by omega)]
  have reg := tileReg_calManCtrl t
  rw [State.lkRefuses, if_neg reg.notGate.2, if_pos ⟨reg.tile, by rw [calManCtrl_offset]; omega⟩, runs]

theorem State.writeActs_calManCtrl (old : State) : s.writeActs (Reg.calManCtrl t) on mask old
    = if on.getLsbD 8 then s.manualApply t else s := by
  simp only [State.writeActs, calManCtrl_offset, calManCtrl_tile, if_pos (tileReg_calManCtrl t).tile]
  rw [if_neg (by omega), if_neg (by omega), if_true]

end

section
variable {s : State} {id : Word} {t : Tile} {v : Word}

theorem State.writeReg_calManCtrl_ranges (within : bits v 4 0 ≤ 16) : rangesOk32 (fieldsAt (Reg.calManCtrl t))
    (s.newValue (Reg.calManCtrl t) v 0xFFFFFFFF) (writeMask (Reg.calManCtrl t) 0xFFFFFFFF) = true := by
  rw [writeMask_calManCtrl, rangesOk32_calManCtrl, State.slice_newValue, decide_eq_true within]

/-- While the rotation runs a write of CAL_MAN_CTRL is refused (log entry 28). -/
theorem State.writeReg_calManCtrl_refused (hr : s.addrRefused (Reg.calManCtrl t) = none) (within : bits v 4 0 ≤ 16)
    (runs : s.calRun t = true) : s.writeReg id (Reg.calManCtrl t) v 0xFFFFFFFF 0 = (St.busyRunning, s) :=
  (tileReg_calManCtrl t).writeReg_locked hr (State.writeReg_calManCtrl_ranges within) (State.blockRefuses_calManCtrl ..)
    (by rw [State.lkRefuses_calManCtrl, runs, Bool.true_or])

/-- APPLY of a slice stores it and latches it with its values. -/
theorem State.writeReg_calManCtrl (hr : s.addrRefused (Reg.calManCtrl t) = none) (apply : v.getLsbD 8 = true)
    (within : bits v 4 0 ≤ 16) (still : s.calRun t = false) (unparked : (s.relief t).parked = none) :
    ∃ w, s.writeReg id (Reg.calManCtrl t) v 0xFFFFFFFF 0 = (St.ok, (s.set (Reg.calManCtrl t) w).manualApply t)
      ∧ bits w 4 0 = bits v 4 0 := by
  have reg := tileReg_calManCtrl t
  have on : (v &&& writeMask (Reg.calManCtrl t) 0xFFFFFFFF).getLsbD 8 = true := by
    rw [writeMask_calManCtrl, BitVec.getLsbD_and, apply]
    rfl
  have written := State.writeReg_checked (id := id) (busy := 0) hr (reg.modeBlocks _) reg.notHi reg.notLo reg.notRegion
    reg.notGate (State.writeReg_calManCtrl_ranges within) (State.blockRefuses_calManCtrl ..)
    (by rw [State.lkRefuses_calManCtrl, still, unparked]; rfl)
  rw [State.writeActs_calManCtrl, if_pos on, State.storeFields_noShadow _ _ _ (shadowMask_calManCtrl t),
    directMask_calManCtrl, clearMask_calManCtrl, BitVec.and_zero, BitVec.or_zero] at written
  exact ⟨_, written, (bits_merge _ _ _ _ _ (by decide)).trans (State.slice_newValue ..)⟩

end

/-- What APPLY latches: the slice of CAL_MAN_CTRL, the manual trims and the moment. -/
theorem State.manual_manualApply (s : State) (t : Fin 4) : ((s.manualApply t).relief t).manual
    = some (s.fld (Reg.calManCtrl t) 4 0, ⟨s.get (Reg.calManTrim0 t), s.get (Reg.calManTrim1 t), s.get (Reg.calManTrim2 t),
        s.get (Reg.calManTrim3 t)⟩, s.tim.now) := by
  unfold State.manualApply
  dsimp only
  rw [State.updRelief_relief_same]

theorem State.manualApply_keepsRegs (s : State) (t : Fin 4) : s.KeepsRegs (s.manualApply t) [Reg.calManCtrl t] :=
  (s.setBit_reliefKept _ 9 true).regs

theorem State.pending_manualApply (s : State) (t : Fin 4) : (s.manualApply t).bit (Reg.calManCtrl t) 9 = true :=
  State.bit_setBit_same _ _ _ _ (by decide)

theorem State.arrived_calRun (s : State) (r : Req) (t : Fin 4) : (s.arrived r).calRun t = s.calRun t :=
  congrArg (BitVec.getLsbD · 0) (s.get_arrived_tile r (calCtrl_range t).1)

theorem manualTrimApply_completes (s : State) (r : Req) (x : Session) (t : Tile) (v : Word) (h : Served s writeForm r x)
    (hr : s.addrRefused (Reg.calManCtrl t) = none) (apply : v.getLsbD 8 = true) (within : bits v 4 0 ≤ 16)
    (still : s.calRun t = false) (unparked : (s.relief t).parked = none) :
    ∃ u, exec (.manualTrimApply r t v) s = .next u ∧ Replied u r 0x0101 St.ok []
      ∧ (u.relief t).manual = some (bits v 4 0, ⟨s.get (Reg.calManTrim0 t), s.get (Reg.calManTrim1 t),
          s.get (Reg.calManTrim2 t), s.get (Reg.calManTrim3 t)⟩, s.tim.now)
      ∧ u.bit (Reg.calManCtrl t) 9 = true ∧ s.KeepsRegs u [Reg.lnkPortRx r.port, Reg.calManCtrl t] := by
  have ctrl := tileReg_calManCtrl t
  obtain ⟨w, written, slice⟩ := State.writeReg_calManCtrl (s := s.arrived r) (id := r.session)
    ((s.arrived_addrRefused r _).trans hr) apply within ((s.arrived_calRun r t).trans still) unparked
  have kept : (s.arrived r).KeepsRegs (((s.arrived r).set (Reg.calManCtrl t) w).manualApply t) [Reg.calManCtrl t] :=
    (((s.arrived r).keepsRegs_set _ w).trans (State.manualApply_keepsRegs _ t)).mono (by simp)
  have far (b : Nat) (hb : b ∈ [Reg.calManCtrl t]) : b < 0x40400 ∨ 0x404B0 ≤ b := by
    rw [List.mem_singleton.mp hb]
    exact .inr (Nat.le_trans (by decide) ctrl.tile)
  obtain ⟨u, next, answers, keeps, tiles⟩ := rowWrite_answers (wireLen r) (.manualTrimApply r t v) h ctrl.word written rfl
    kept far h.found_arrived
  have shown : u.relief t = (((s.arrived r).set (Reg.calManCtrl t) w).manualApply t).relief t := by
    rw [State.relief, State.tile, tiles]
    rfl
  have trim (a : Nat) (tile : 0x100000 ≤ a) (ne : a ≠ Reg.calManCtrl t) :
      ((s.arrived r).set (Reg.calManCtrl t) w).get a = s.get a :=
    (State.get_set_ne _ _ _ _ ne).trans (s.get_arrived_tile r tile)
  refine ⟨u, next, answers.replied, ?latched, ?pending, keeps⟩
  case latched =>
    rw [shown, State.manual_manualApply, State.fld, State.get_set_same, slice]
    rw [trim (Reg.calManTrim0 t), trim (Reg.calManTrim1 t), trim (Reg.calManTrim2 t), trim (Reg.calManTrim3 t)]
    · rfl
    all_goals simp only [Reg.calManTrim0, Reg.calManTrim1, Reg.calManTrim2, Reg.calManTrim3, Reg.calManCtrl]; omega
  case pending => exact (congrArg (BitVec.getLsbD · 9) (answers.get _)).trans (State.pending_manualApply _ t)

theorem manualTrimApply_refused (s : State) (r : Req) (x : Session) (t : Tile) (v : Word) (h : Served s writeForm r x)
    (hr : s.addrRefused (Reg.calManCtrl t) = none) (within : bits v 4 0 ≤ 16) (runs : s.calRun t = true) :
    ∃ u, exec (.manualTrimApply r t v) s = .next u ∧ Replied u r 0x0101 St.busyRunning [] ∧ u.tiles = s.tiles := by
  have refused := State.writeReg_calManCtrl_refused (s := s.arrived r) (id := r.session)
    ((s.arrived_addrRefused r _).trans hr) within ((s.arrived_calRun r t).trans runs)
  obtain ⟨u, next, answers, -, tiles⟩ := rowWrite_answers (wireLen r) (.manualTrimApply r t v) h
    (tileReg_calManCtrl t).word refused rfl (fun _ _ => rfl) (fun _ h => absurd h List.not_mem_nil) h.found_arrived
  exact ⟨u, next, answers.replied, tiles⟩

/-- Settles O30: each write passes or fails the checks of its register, and what it starts is what the answer shows. -/
theorem rotationWritesComplete : Obligations.RotationWritesComplete := by
  unfold Obligations.RotationWritesComplete
  exact ⟨clearPark_completes, calCtrlRangeCal_completes,
    fun s r x t v h hr asked other => calCtrl_refused (wireLen r) (.calCtrlRangeCal r t v) h hr asked other,
    manualTrimApply_completes, manualTrimApply_refused⟩

end Sys2Proof.Machine
end

