-- ==== Sys2Proof/Proofs/DepotWriters.lean ====
section
/-! What the Depot's writers leave as it was (R160, R190): a record's place in the Store is taken, and its lines written, within
the Depot's own registers and memories. -/

namespace Sys2Proof.Machine

/-- A state with what the Depot's writers may touch as another has it. -/
def State.depotInto (s u : State) : State :=
  { s with regs := u.regs, dpt := u.dpt, bcp := u.bcp, evt := u.evt, free := u.free }

/-- Nothing else has been touched, and no register below the Depot's. -/
def DepotKept (s u : State) : Prop := u = s.depotInto u ∧ ∀ a, a < Reg.dptCtrl → u.get a = s.get a

namespace DepotKept
variable {s u v : State}

theorem refl (s : State) : DepotKept s s := ⟨rfl, fun _ _ => rfl⟩

theorem trans (h : DepotKept s u) (k : DepotKept u v) : DepotKept s v :=
  ⟨Eq.trans k.1 (congrArg (State.depotInto · v) h.1 :), fun a ha => (k.2 a ha).trans (h.2 a ha)⟩

theorem foldl {α : Type} {f : State → α → State} (hf : ∀ s x, DepotKept s (f s x)) (l : List α) :
    ∀ s, DepotKept s (l.foldl f s) := by
  induction l with
  | nil => exact refl
  | cons x l ih => exact fun s => (hf s x).trans (ih _)

theorem snd {α : Type} {x : α × State} {a : α} (h : DepotKept s x.2) (eq : x = (a, u)) : DepotKept s u := by
  rw [eq] at h
  exact h

theorem sbx (h : DepotKept s u) : u.sbx = s.sbx := (congrArg State.sbx h.1 :)
theorem que (h : DepotKept s u) : u.que = s.que := (congrArg State.que h.1 :)
theorem modes (h : DepotKept s u) : u.modes = s.modes := (congrArg State.modes h.1 :)
theorem tim (h : DepotKept s u) : u.tim = s.tim := (congrArg State.tim h.1 :)

theorem withDpt (h : DepotKept s u) (f : Depot → Depot) : DepotKept s (u.withDpt f) :=
  h.trans ⟨rfl, fun _ _ => rfl⟩

theorem attend (h : DepotKept s u) (b : Nat) : DepotKept s (u.attend b) := h.trans ⟨rfl, fun _ _ => rfl⟩

/-- With a register of the Depot set none below it changes; fields, bits and counters are set so too. -/
theorem set (h : DepotKept s u) {a : Nat} (w : Word) (ha : Reg.dptCtrl ≤ a) : DepotKept s (u.set a w) :=
  h.trans ⟨rfl, fun b hb => State.get_set_ne _ _ _ _ (by omega)⟩

theorem setFld (h : DepotKept s u) {a : Nat} (hi lo x : Nat) (ha : Reg.dptCtrl ≤ a) : DepotKept s (u.setFld a hi lo x) :=
  h.set _ ha

theorem setBit (h : DepotKept s u) {a : Nat} (i : Nat) (b : Bool) (ha : Reg.dptCtrl ≤ a) : DepotKept s (u.setBit a i b) :=
  h.set _ ha

theorem bump (h : DepotKept s u) {a : Nat} (ha : Reg.dptCtrl ≤ a) : DepotKept s (u.bump a) := h.set _ ha

end DepotKept

/-! ### The block map -/

theorem State.withDpt_depotKept (f : Depot → Depot) (s : State) : DepotKept s (s.withDpt f) := (DepotKept.refl s).withDpt f

theorem State.mapFlip_depotKept (b : Nat) (s : State) : DepotKept s (s.mapFlip b) := by
  unfold State.mapFlip
  dsimp only
  split
  · refine DepotKept.set (.setBit (.setBit (.set (.set (.set ?_ _ (by decide)) _ (by decide)) _ (by decide)) _ _ (by decide))
      _ _ (by decide)) _ (by decide)
    split
    · exact .refl s
    · exact s.withDpt_depotKept _
  · exact .refl s

theorem State.setEnt_depotKept (b : Nat) (e : MapEnt) (s : State) : DepotKept s (s.setEnt b e) :=
  (s.withDpt_depotKept _).trans (State.mapFlip_depotKept ..)

theorem State.addLog_depotKept (kind : Nat) (src : LogSource) (owner bucket addr : Nat) (s : State) :
    DepotKept s (s.addLog kind src owner bucket addr) :=
  ((s.withDpt_depotKept _).setFld _ _ _ (by decide)).setFld _ _ _ (by decide)

theorem State.bucketAdd_depotKept (i : Nat) (src : LogSource) (owner : Nat) (s : State) :
    DepotKept s (s.bucketAdd i src owner) := by
  have counter : Reg.dptCtrl ≤ Reg.dptCeCnt i := by simp only [Reg.dptCtrl, Reg.dptCeCnt]; omega
  have bucket : Reg.dptCtrl ≤ Reg.dptBucket i := by simp only [Reg.dptCtrl, Reg.dptBucket]; omega
  have counted := (DepotKept.refl s).bump counter
  unfold State.bucketAdd
  dsimp only
  split
  · exact (((counted.setFld _ _ _ bucket).setBit _ _ (by decide)).trans (State.addLog_depotKept ..)).attend _
  · exact counted.setFld _ _ _ bucket

theorem State.mapLost_depotKept (b : Nat) (src : LogSource) (s : State) : DepotKept s (s.mapLost b src) :=
  (((((s.withDpt_depotKept _).trans (State.setEnt_depotKept ..)).trans (State.addLog_depotKept ..)).bump
    (by decide)).setBit _ _ (by decide)).attend _

theorem State.checkMap_depotKept (b : Nat) (src : LogSource) (s : State) : DepotKept s (s.checkMap b src) := by
  have fixed (u : State) : DepotKept u ((u.setEnt b (u.mapEnt b)).bucketAdd 4 src (u.mapEnt b).owner.toNat) :=
    (State.setEnt_depotKept ..).trans (State.bucketAdd_depotKept ..)
  have wide : DepotKept s s.takeFree.2 := ⟨rfl, fun _ _ => rfl⟩
  unfold State.checkMap
  split
  · exact .refl s
  · dsimp only
    split
    · exact .refl s
    · exact fixed s
    · exact State.mapLost_depotKept ..
    · split
      · exact wide
      · exact wide.trans (fixed _)
      · exact wide.trans (State.mapLost_depotKept ..)

theorem State.changeEnt_depotKept (b : Nat) (f : MapEnt → MapEnt) (s : State) : DepotKept s (s.changeEnt b f) :=
  (State.checkMap_depotKept ..).trans (State.setEnt_depotKept ..)

theorem State.decodeWay_depotKept (k last : Nat) (s : State) : DepotKept s (s.decodeWay k last) :=
  .foldl (fun s b => State.checkMap_depotKept b _ s) _ s

/-! ### Lines and directories -/

theorem State.writeLine_depotKept (l : Nat) (d : List Byte) (s : State) : DepotKept s (s.writeLine l d) := by
  have written := s.withDpt_depotKept fun x =>
    { x with mem := x.mem.writeBytes (64 * l) d, errs := x.errs.filter fun x => x.1 != l }
  unfold State.writeLine
  dsimp only
  split
  · exact .set (.setBit (.setBit (.set (.set (.set (written.withDpt _) _ (by decide)) _ (by decide)) _ (by decide))
      _ _ (by decide)) _ _ (by decide)) _ (by decide)
  · exact written

theorem State.writeLines_depotKept (ds : List (List Byte)) : ∀ (l : Nat) (s : State), DepotKept s (s.writeLines l ds) := by
  induction ds with
  | nil => exact fun _ s => .refl s
  | cons d ds ih => exact fun l s => (State.writeLine_depotKept l d s).trans (ih _ _)

theorem State.writePart_depotKept (skip : State → Nat → List Byte → Bool) (gens : List (Nat × BitVec 32)) (offset : Nat)
    (lines : List (List Byte)) (s : State) : DepotKept s (s.writePart skip gens offset lines) := by
  refine DepotKept.foldl (fun s x => ?_) _ s
  dsimp only
  split
  · split
    · exact State.writeLine_depotKept ..
    · exact .refl s
  · exact .refl s

theorem State.writeDirectory_depotKept (b : Nat) (ring : Bool) (s : State) : DepotKept s (s.writeDirectory b ring) := by
  unfold State.writeDirectory
  exact (State.writeLines_depotKept ..).withDpt _

theorem State.storeDirectories_depotKept (s : State) : DepotKept s s.storeDirectories :=
  .foldl (fun s b => State.writeDirectory_depotKept b false s) _ s

/-! ### The writers' places -/

theorem State.ringSpan_depotKept (s : State) : DepotKept s s.ringSpan := by
  unfold State.ringSpan
  dsimp only
  split
  · exact (((DepotKept.refl s).set _ (by decide)).set _ (by decide)).set _ (by decide)
  · exact (((DepotKept.refl s).set _ (by decide)).set _ (by decide)).set _ (by decide)

theorem State.startBlock_depotKept (b : Nat) (ring : Bool) (s : State) : DepotKept s (s.startBlock b ring) := by
  have started (f : Depot → Depot) (e : MapEnt) : DepotKept s (((s.checkMap b .mapLookup).withDpt f).setEnt b e) :=
    ((State.checkMap_depotKept ..).withDpt f).trans (State.setEnt_depotKept ..)
  unfold State.startBlock
  dsimp only
  split
  · exact (started ..).trans (State.ringSpan_depotKept _)
  · exact started ..

theorem State.handBack_depotKept (o : BitVec 3) (fuel : Nat) : ∀ (k : Nat) (s : State),
    DepotKept s (s.handBack o fuel k).2 := by
  induction fuel with
  | zero => exact fun _ s => .refl s
  | succ fuel ih =>
    intro k s
    unfold State.handBack
    split
    · exact .refl s
    · dsimp only
      generalize (if o = 1 then _ else _) * 4096 = size
      split
      · exact (((State.decodeWay_depotKept ..).trans (State.changeEnt_depotKept ..)).withDpt _).trans (ih _ _)
      · exact State.decodeWay_depotKept ..

theorem State.nextBlock_depotKept (ring : Bool) (s : State) : DepotKept s (s.nextBlock ring).2 := by
  unfold State.nextBlock
  dsimp only
  split
  · next b t eq =>
      have begun := (DepotKept.snd (State.handBack_depotKept ..) eq).trans (State.startBlock_depotKept b ring t)
      dsimp only
      exact begun.withDpt _
  · next eq => exact DepotKept.snd (State.handBack_depotKept ..) eq

theorem State.setWriterPos_depotKept (ring : Bool) (p : Nat × Nat) (s : State) : DepotKept s (s.setWriterPos ring p) :=
  s.withDpt_depotKept _

theorem State.fillBlock_depotKept (ring : Bool) (s : State) : DepotKept s (s.fillBlock ring) := by
  unfold State.fillBlock
  split
  · exact .refl s
  · exact (State.writeLines_depotKept ..).withDpt _

theorem State.seekStart_depotKept (ring : Bool) (maxStarts : Nat) (s : State) : DepotKept s (s.seekStart ring maxStarts) := by
  unfold State.seekStart
  split
  · exact State.nextBlock_depotKept ..
  · split
    · exact State.nextBlock_depotKept ..
    · split
      · exact (State.fillBlock_depotKept ..).trans (State.nextBlock_depotKept ..)
      · exact .refl s

theorem State.takeSpace_depotKept (ring : Bool) (fuel : Nat) : ∀ (n : Nat) (s : State),
    DepotKept s (s.takeSpace ring fuel n).2 := by
  induction fuel with
  | zero => exact fun _ s => .refl s
  | succ fuel ih =>
    intro n s
    unfold State.takeSpace
    split
    · exact .refl s
    · dsimp only
      split
      · exact State.setWriterPos_depotKept ..
      · exact ((State.setWriterPos_depotKept ..).trans (State.nextBlock_depotKept ..)).trans (ih _ _)

theorem State.allocate_depotKept (ring : Bool) (maxStarts nlines : Nat) (s : State) :
    DepotKept s (s.allocate ring maxStarts nlines).2.2.2 := by
  have sought := State.seekStart_depotKept ring maxStarts s
  unfold State.allocate
  dsimp only
  split
  · exact sought
  · exact (sought.trans (State.changeEnt_depotKept ..)).trans (State.takeSpace_depotKept ..)

/-! ### Long-path records (R160, R190) -/

theorem State.storePiece_depotKept (w : Win) (p : Piece) (s : State) : DepotKept s (s.storePiece w p) := by
  unfold State.storePiece
  split
  · exact .refl s
  · exact State.writePart_depotKept ..

theorem longPlace_depotKept (w : Win) (s : State) : DepotKept s (longPlace w s).2 := by
  have taken (f : Depot → Depot) (n : Nat) : DepotKept s ((s.allocate false 2016 n).2.2.2.withDpt f).storeDirectories :=
    ((State.allocate_depotKept ..).withDpt f).trans (State.storeDirectories_depotKept _)
  exact (taken _ _).trans (.foldl (fun s p => State.storePiece_depotKept _ p s) _ _)

theorem State.storeLongs_depotKept (s : State) : DepotKept s s.storeLongs := by
  refine DepotKept.foldl (fun s b => ?_) _ s
  dsimp only
  split
  · exact .refl s
  · exact ((State.writePart_depotKept ..).withDpt _).trans (State.storeDirectories_depotKept _)

end Sys2Proof.Machine
end

