-- ==== Sys2Proof/Proofs/SignalBoxPeriod.lean ====
section
/-! One sample period of the Signal Box (R117–R119): what it leaves as it was, and where its programs go. -/

namespace Sys2Proof.Machine

/-! ### What a period leaves as it was -/

/-- A register of a program's transitions: condition, terms, action (R118). -/
abbrev TransReg (a : Nat) : Prop := 0x51000 ≤ a ∧ a < 0x59000 ∧ 0x800 ≤ a % 0x1000

theorem transReg_ctrl (p : Fin 8) (j : BitVec 4) {i : Nat} (hi : i < 4) : TransReg (Reg.sbxProgSTCtrl p j.toNat i) := by
  have := p.isLt
  have := j.isLt
  unfold Reg.sbxProgSTCtrl
  omega

/-- The period stands, and so do the clock, the modes, the transitions, and which programs are armed since when; the
programs outside a list are in the states in which they were. -/
structure PeriodKept (but : List (Fin 8)) (s u : State) : Prop where
  period : u.sbx.period = s.sbx.period
  modes : u.modes = s.modes
  tim : u.tim = s.tim
  regs : ∀ a, TransReg a → u.get a = s.get a
  armed : ∀ p, (u.sbx.progs.get p).armed = (s.sbx.progs.get p).armed
  armPeriod : ∀ p, (u.sbx.progs.get p).armPeriod = (s.sbx.progs.get p).armPeriod
  state : ∀ p, p ∉ but → (u.sbx.progs.get p).state = (s.sbx.progs.get p).state

namespace PeriodKept
variable {l m : List (Fin 8)} {s u v : State}

theorem same (period : u.sbx.period = s.sbx.period := by rfl) (modes : u.modes = s.modes := by rfl)
    (tim : u.tim = s.tim := by rfl) (regs : ∀ a, TransReg a → u.get a = s.get a := by intro _ _; rfl)
    (progs : u.sbx.progs = s.sbx.progs := by rfl) : PeriodKept [] s u :=
  ⟨period, modes, tim, regs, fun _ => by rw [progs], fun _ => by rw [progs], fun _ _ => by rw [progs]⟩

theorem refl (s : State) : PeriodKept [] s s := same

theorem trans (h : PeriodKept l s u) (k : PeriodKept m u v) : PeriodKept (l ++ m) s v where
  period := k.period.trans h.period
  modes := k.modes.trans h.modes
  tim := k.tim.trans h.tim
  regs a ha := (k.regs a ha).trans (h.regs a ha)
  armed p := (k.armed p).trans (h.armed p)
  armPeriod p := (k.armPeriod p).trans (h.armPeriod p)
  state p hp := by
    rw [List.mem_append, not_or] at hp
    exact (k.state p hp.2).trans (h.state p hp.1)

/-- What comes after, and touches no program's state, adds nothing to the list. -/
theorem next (h : PeriodKept l s u) (k : PeriodKept [] u v) : PeriodKept l s v := l.append_nil ▸ h.trans k

theorem ite {c : Prop} [Decidable c] (h : PeriodKept l s u) (k : PeriodKept l s v) :
    PeriodKept l s (if c then u else v) := by
  split
  · exact h
  · exact k

theorem weaken (h : PeriodKept [] s u) : PeriodKept l s u := { h with state := fun p _ => h.state p List.not_mem_nil }

theorem foldl {α : Type} {f : State → α → State} (hf : ∀ s x, PeriodKept [] s (f s x)) (xs : List α) :
    ∀ s, PeriodKept [] s (xs.foldl f s) := by
  induction xs with
  | nil => exact refl
  | cons x xs ih => exact fun s => (hf s x).next (ih _)

theorem set (h : PeriodKept l s u) {a : Nat} (w : Word) (ha : ¬ TransReg a) : PeriodKept l s (u.set a w) :=
  h.next (same (regs := fun b hb => State.get_set_ne _ _ _ _ fun e => ha (e ▸ hb)))

theorem bump (h : PeriodKept l s u) {a : Nat} (ha : ¬ TransReg a) : PeriodKept l s (u.bump a) := h.set _ ha

theorem set64 (h : PeriodKept l s u) {lo hi : Nat} (v : Nat) (hl : ¬ TransReg lo) (hh : ¬ TransReg hi) :
    PeriodKept l s (u.set64 lo hi v) := (h.set _ hl).set _ hh

theorem bump64 (h : PeriodKept l s u) {lo hi : Nat} (n : Nat) (hl : ¬ TransReg lo) (hh : ¬ TransReg hi) :
    PeriodKept l s (u.bump64 lo hi n) := h.set64 _ hl hh

/-- A program's state changes, and it alone. -/
theorem updProg {p : Fin 8} {f : Prog → Prog} (armed : ∀ x, (f x).armed = x.armed := by intro _; rfl)
    (armPeriod : ∀ x, (f x).armPeriod = x.armPeriod := by intro _; rfl)
    (state : p ∈ l ∨ ∀ x, (f x).state = x.state) : PeriodKept l s (s.updProg p f) where
  period := rfl
  modes := rfl
  tim := rfl
  regs _ _ := rfl
  armed q := by
    by_cases same : q = p
    · rw [same, State.updProg_progs_same, armed]
    · exact congrArg Prog.armed (upd_get_ne _ _ _ _ same)
  armPeriod q := by
    by_cases same : q = p
    · rw [same, State.updProg_progs_same, armPeriod]
    · exact congrArg Prog.armPeriod (upd_get_ne _ _ _ _ same)
  state q hq := by
    by_cases same : q = p
    · rw [same, State.updProg_progs_same]
      exact state.resolve_left (same ▸ hq) _
    · exact congrArg Prog.state (upd_get_ne _ _ _ _ same)

/-- An update of a program beside its state. -/
theorem updProg_beside {p : Fin 8} {f : Prog → Prog} (armed : ∀ x, (f x).armed = x.armed := by intro _; rfl)
    (armPeriod : ∀ x, (f x).armPeriod = x.armPeriod := by intro _; rfl)
    (state : ∀ x, (f x).state = x.state := by intro _; rfl) : PeriodKept [] s (s.updProg p f) :=
  updProg armed armPeriod (.inr state)

/-- Every program's window changes, and what else a period may change. -/
theorem mapWin {g : Option Win → Option Win} (period : u.sbx.period = s.sbx.period := by rfl)
    (modes : u.modes = s.modes := by rfl) (tim : u.tim = s.tim := by rfl)
    (regs : ∀ a, TransReg a → u.get a = s.get a := by intro _ _; rfl)
    (progs : u.sbx.progs = s.sbx.progs.map fun x => { x with win := g x.win } := by rfl) : PeriodKept [] s u := by
  have mapped (p : Fin 8) : u.sbx.progs.get p = { s.sbx.progs.get p with win := g (s.sbx.progs.get p).win } := by
    rw [progs]
    exact Vector.getElem_map _ p.isLt
  exact ⟨period, modes, tim, regs, fun _ => by rw [mapped], fun _ => by rw [mapped], fun _ _ => by rw [mapped]⟩

end PeriodKept

theorem DepotKept.periodKept {s u : State} (h : DepotKept s u) : PeriodKept [] s u :=
  .same (by rw [h.sbx]) h.modes h.tim (fun a ha => h.2 a (by unfold Reg.dptCtrl; omega)) (by rw [h.sbx])

/-- A register outside the programs' transitions. -/
theorem not_transReg_low {p : Fin 8} {n : Nat} (hn : n < 0x800) : ¬ TransReg (0x51000 + n + 0x1000 * p.val) := by
  omega

/-! ### Records that close (R157) -/

theorem State.takeSeq_periodKept (s : State) : PeriodKept [] s s.takeSeq.2 :=
  (PeriodKept.refl s).set64 _ (by decide) (by decide)

theorem State.addBuilt_periodKept (seq kind : Nat) (bytes : List Byte) (long : Bool) (place staged : Nat) (s : State) :
    PeriodKept [] s (s.addBuilt seq kind bytes long place staged) := by
  have counted := (PeriodKept.refl s).bump64 (lo := Reg.queRecordsLo) (hi := Reg.queRecordsHi) 1 (by decide) (by decide)
  exact counted.next .same

theorem State.addMarker_periodKept (type source code flags time periods : Nat) (c : Word) (s : State) :
    PeriodKept [] s (s.addMarker type source code flags time periods c) :=
  s.takeSeq_periodKept.next (State.addBuilt_periodKept ..)

theorem State.addWireMark_periodKept (x : WireMark) (s : State) : PeriodKept [] s (s.addWireMark x) :=
  State.addMarker_periodKept ..

theorem State.closeWin_periodKept (w : Win) (last : Nat) (s : State) : PeriodKept [] s (s.closeWin w last) := by
  unfold State.closeWin
  dsimp only
  split
  · exact (s.takeSeq_periodKept.next .same).next .updProg_beside
  · exact s.takeSeq_periodKept.next .same

theorem State.numberUpTo_periodKept (m : Nat) (marks : List (Nat × Nat × Word)) (s : State) :
    PeriodKept [] s (s.numberUpTo m marks) := by
  unfold State.numberUpTo
  extract_lets captures hits markers due faults _ kept _
  have closes (s : State) (w : Win) (e : Nat) : PeriodKept [] s (if e ≤ m then s.closeWin w e else s) :=
    .ite (State.closeWin_periodKept ..) (.refl s)
  have captured : PeriodKept [] s captures := .foldl (fun s p => by split; exacts [closes .., .refl s]) _ s
  have hit : PeriodKept [] captures hits := .foldl (fun s c => by split; exacts [closes .., .refl s]) _ _
  have marked : PeriodKept [] hits markers := .foldl (fun s x => State.addMarker_periodKept ..) _ _
  have shown : PeriodKept [] markers kept := .next (.foldl (fun s x => State.addWireMark_periodKept x s) _ _) .same
  have all := ((captured.next hit).next marked).next shown
  split
  · split
    · exact (all.next .same).next (State.addMarker_periodKept ..)
    · exact all
  · exact all

/-! ### Windows -/

theorem State.applyCuts_periodKept (n : Nat) (s : State) : PeriodKept [] s (s.applyCuts n) :=
  (PeriodKept.same (u := { s with sbx := { s.sbx with wireCuts := _ } })).next
    (.foldl (fun _ _ => .mapWin) _ _)

theorem State.lossCloses_periodKept (s : State) : PeriodKept [] s s.lossCloses := by
  unfold State.lossCloses
  dsimp only
  split
  · exact .mapWin
  · exact .refl s

theorem State.closeDisarmed_periodKept (s : State) : PeriodKept [] s s.closeDisarmed := by
  refine .foldl (fun s p => ?_) _ s
  split
  · exact .updProg_beside
  · exact .refl s

theorem State.pushSwitches_periodKept (sw : BitVec 64 × BitVec 64) (s : State) : PeriodKept [] s (s.pushSwitches sw) :=
  .mapWin

theorem State.voidCheck_periodKept (t : Fin 4) (w : Wire) (f k : Nat) (s : State) :
    PeriodKept [] s (s.voidCheck t w f k) := by
  unfold State.voidCheck
  dsimp only
  split
  · exact .refl s
  · exact .same

theorem State.voidChecks_periodKept (chans : BitVec 64) (s : State) : PeriodKept [] s (s.voidChecks chans).1 := by
  refine .foldl (fun s t => .foldl (fun s w => ?_) _ s) _ s
  split
  · split
    · exact State.voidCheck_periodKept ..
    · exact .refl s
  · exact .refl s

theorem State.reserve_periodKept (place : Nat) (w : Win) (s : State) : PeriodKept [] s (s.reserve place w).2 := by
  unfold State.reserve
  split
  · exact .refl s
  · exact .same

/-- The place of a window that opens, its reservation and the wire checks on its channels. -/
theorem longPlace_periodKept (w : Win) (s : State) : PeriodKept [] s (if w.long then longPlace w s else (0, s)).2 := by
  split
  · exact (longPlace_depotKept w s).periodKept
  · exact .refl s

theorem State.openCapture_periodKept (p : Fin 8) (bitmap : Word) (s : State) :
    PeriodKept [] s (s.openCapture longPlace p bitmap) := by
  unfold State.openCapture
  dsimp only
  exact ((((longPlace_periodKept ..).next (State.reserve_periodKept ..)).next (State.voidChecks_periodKept ..)).next
    .updProg_beside).bump (by have := p.isLt; unfold Reg.sbxProgCaptures; omega)

theorem State.hitEdge_periodKept (c : Nat) (s : State) : PeriodKept [] s (s.hitEdge longPlace c) := by
  have prefill : ¬ TransReg Reg.sbxStrIgnPrefill := by decide
  have rearm : ¬ TransReg Reg.sbxStrIgnRearm := by decide
  have taken (u : State) (hits : List Win) : PeriodKept [] u { u with sbx := { u.sbx with hits := hits } } := .same
  unfold State.hitEdge
  extract_lets n id pre longest w
  refine .ite (.refl s) (.ite ((PeriodKept.refl s).bump prefill) (.ite ((PeriodKept.refl s).bump rearm) ?_))
  have place := longPlace_periodKept w s
  generalize (if w.long = true then longPlace w s else (0, s)) = placed at place ⊢
  obtain ⟨at_, u⟩ := placed
  have opened := (place.next (State.reserve_periodKept at_ w u)).next
    (State.voidChecks_periodKept (u.reserve at_ w).1.chans _)
  dsimp only
  exact (opened.next (taken _ _)).bump64 1 (by decide) (by decide)

theorem State.streamPeriod_periodKept (now : Inputs) (s : State) : PeriodKept [] s (s.streamPeriod longPlace now) := by
  unfold State.streamPeriod
  extract_lets en w was stop s1 s2
  have extended : PeriodKept [] s s1 := by
    dsimp only [s1]
    split
    · exact .refl s
    · exact .same
  have numbered : PeriodKept [] s s2 := by
    dsimp only [s2]
    split
    · exact extended
    · exact extended.next (State.numberUpTo_periodKept ..)
  split
  · exact numbered
  · exact numbered.next (.foldl (fun s c => State.hitEdge_periodKept c s) _ _)

theorem State.enqueueTm_periodKept {s u : State} {b : Bool} {bytes : List Byte} (h : s.enqueueTm b bytes = some u) :
    PeriodKept [] s u := by
  simp only [State.enqueueTm, Option.ite_none_left_eq_some, Option.some.injEq] at h
  obtain ⟨-, rfl⟩ := h
  exact .same

theorem State.sendPrims_periodKept (codes : List (Nat × Nat)) (s : State) : PeriodKept [] s (s.sendPrims codes) := by
  unfold State.sendPrims
  split
  · exact .refl s
  · refine .foldl (fun s b => ?_) _ s
    dsimp only
    split
    · exact .refl s
    · split
      · exact .refl s
      · split
        · next queued => exact (State.enqueueTm_periodKept queued).next .same
        · exact (PeriodKept.refl s).set _ (by decide)

/-! ### A program's transition (R118, R119) -/

theorem State.doAction_periodKept (p : Fin 8) (a bitmap : Word) (s : State) :
    PeriodKept [] s (s.doAction longPlace p a bitmap) := by
  have counted {n : Nat} (hn : n < 0x800) : PeriodKept [] s (s.bump (0x51000 + n + 0x1000 * p.val)) :=
    (PeriodKept.refl s).bump (not_transReg_low hn)
  unfold State.doAction
  dsimp only
  refine .next ?_ .updProg_beside
  split
  · split
    · exact State.openCapture_periodKept ..
    · exact counted (n := 0x24) (by decide)
    · exact counted (n := 0x28) (by decide)
    · exact counted (n := 0x2C) (by decide)
  · exact .updProg_beside
  · exact .refl s

/-- The state that a program goes to, given its true transitions as 4 bits: the NEXT of the first one (R119). -/
def State.nextState (s : State) (p : Fin 8) (taken : Nat) : BitVec 4 :=
  match (List.range 4).find? fun i => taken / 2 ^ i % 2 == 1 with
  | none => (s.sbx.progs.get p).state
  | some i => BitVec.ofNat 4 (s.fld (Reg.sbxProgSTCtrl p (s.sbx.progs.get p).state.toNat i) 7 4)

/-- The same programs go to the same states. -/
theorem PeriodKept.nextState {l : List (Fin 8)} {s u : State} (h : PeriodKept l s u) {p : Fin 8} (hp : p ∉ l)
    (taken : Nat) : u.nextState p taken = s.nextState p taken := by
  unfold State.nextState
  rw [h.state p hp]
  split
  · rfl
  · next found =>
    have hi := List.mem_range.mp (List.mem_of_find?_eq_some found)
    unfold State.fld
    rw [h.regs _ (transReg_ctrl p _ hi)]

/-- A program's run over a period: only its own state changes, to the NEXT of its first true transition. -/
theorem State.runProg_runs (p : Fin 8) (prev now : Inputs) (bitmap : Word) (taken : Nat) (s : State) :
    PeriodKept [p] s (s.runProg longPlace p prev now bitmap taken)
      ∧ ((s.sbx.progs.get p).armed = true →
        ((s.runProg longPlace p prev now bitmap taken).sbx.progs.get p).state = s.nextState p taken) := by
  unfold State.runProg State.nextState
  extract_lets x pv counted j taking
  have count : PeriodKept [] s counted := .updProg_beside
  have tick (u : State) : PeriodKept [] u (u.updProg p fun x => { x with tmr := x.tmr.map tmrTick }) := .updProg_beside
  split
  · next idle => exact ⟨(PeriodKept.refl s).weaken, fun armed => by simp [x, armed] at idle⟩
  · dsimp only [taking]
    generalize found : (List.range 4).find? (fun i => taken / 2 ^ i % 2 == 1) = first
    cases first with
    | none =>
      have kept := count.next (tick counted)
      exact ⟨kept.weaken, fun _ => kept.state p List.not_mem_nil⟩
    | some i =>
      have acted := count.next (State.doAction_periodKept p (counted.get (Reg.sbxProgSTAct p j i)) bitmap counted)
      have ctrl := transReg_ctrl p (s.sbx.progs.get p).state (List.mem_range.mp (List.mem_of_find?_eq_some found))
      refine ⟨(acted.trans (.updProg (state := .inl (List.mem_singleton_self p)))).next (tick _), fun _ => ?_⟩
      rw [(tick _).state p List.not_mem_nil, State.updProg_progs_same]
      exact congrArg (fun w => BitVec.ofNat 4 (bits w 7 4)) (acted.regs _ ctrl)

/-- Programs that run in turn, each once. -/
theorem State.runProgs_run (prev now : Inputs) (bitmap : Word) (xs : List (Fin 8 × Nat)) :
    (xs.map Prod.fst).Nodup → ∀ s : State,
      let u := xs.foldl (fun (s : State) x => s.runProg longPlace x.1 prev now bitmap x.2) s
      PeriodKept (xs.map Prod.fst) s u
        ∧ ∀ x ∈ xs, (s.sbx.progs.get x.1).armed = true → (u.sbx.progs.get x.1).state = s.nextState x.1 x.2 := by
  induction xs with
  | nil => exact fun _ s => ⟨.refl s, by simp⟩
  | cons y ys ih =>
    intro nodup s
    obtain ⟨fresh, nodup⟩ := List.nodup_cons.mp nodup
    obtain ⟨first, own⟩ := State.runProg_runs y.1 prev now bitmap y.2 s
    obtain ⟨rest, others⟩ := ih nodup (s.runProg longPlace y.1 prev now bitmap y.2)
    refine ⟨first.trans rest, fun x hx armed => ?_⟩
    rcases List.mem_cons.mp hx with rfl | hx
    · exact (rest.state _ fresh).trans (own armed)
    · have apart : x.1 ∉ [y.1] := fun same => fresh (List.mem_singleton.mp same ▸ List.mem_map_of_mem hx)
      exact (others x hx ((first.armed _).trans armed)).trans (first.nextState apart _)

/-! ### Conditions (R121–R124) -/

section
variable {s u : State}

/-- Conditions read the registers of the programs. -/
theorem State.transTrue_congr (h : ∀ a, 0x51000 ≤ a → u.get a = s.get a) (p : Fin 8) (j i : Nat) (prev now : Inputs) :
    u.transTrue p j i prev now = s.transTrue p j i prev now := by
  have mask (m : Nat) : u.progMask p m = s.progMask p m := by
    unfold State.progMask
    rw [h _ (by unfold Reg.sbxProgMaskHi; omega), h _ (by unfold Reg.sbxProgMaskLo; omega)]
  have compare (k : Nat) : u.get (Reg.sbxProgCntCmp p k) = s.get (Reg.sbxProgCntCmp p k) :=
    h _ (by unfold Reg.sbxProgCntCmp; omega)
  have level (w : Word) (inp : Inputs) : u.termLevel p w inp = s.termLevel p w inp := by
    simp only [State.termLevel, mask, compare]
  have term (w : Word) : u.termTrue p w prev now = s.termTrue p w prev now := by
    simp only [State.termTrue, level]
  have ctrl : u.get (Reg.sbxProgSTCtrl p j i) = s.get (Reg.sbxProgSTCtrl p j i) :=
    h _ (by unfold Reg.sbxProgSTCtrl; omega)
  have terms (n : Nat) : u.get (Reg.sbxProgSTTerm p j i n) = s.get (Reg.sbxProgSTTerm p j i n) :=
    h _ (by unfold Reg.sbxProgSTTerm; omega)
  simp only [State.transTrue, ctrl, terms, term]

end

/-- Four conditions as bits, and the first of them found again. -/
theorem find_encoded (b : Nat → Bool) :
    (List.range 4).find? (fun i => (List.range 4).foldl (fun a i => if b i then a + 2 ^ i else a) 0 / 2 ^ i % 2 == 1)
      = (List.range 4).find? b := by
  have four : List.range 4 = [0, 1, 2, 3] := rfl
  simp only [four, List.foldl_cons, List.foldl_nil, List.find?_cons, List.find?_nil]
  cases b 0 <;> cases b 1 <;> cases b 2 <;> cases b 3 <;> rfl

section
variable {s : State} {p : Fin 8} {prev now : Inputs}

/-- What a program's conditions take for the period before: in the one that it is armed in, that period itself (R117). -/
def State.before (s : State) (p : Fin 8) (prev now : Inputs) : Inputs :=
  if (s.sbx.progs.get p).armPeriod = s.sbx.period then now else prev

theorem State.find_transBits (armed : (s.sbx.progs.get p).armed = true) :
    (List.range 4).find? (fun i => s.transBits p prev now / 2 ^ i % 2 == 1)
      = (List.range 4).find? fun i => s.transTrue p (s.sbx.progs.get p).state.toNat i (s.before p prev now) now := by
  unfold State.transBits State.before
  simp only [armed, Bool.not_true, Bool.false_eq_true, if_false]
  exact find_encoded _

/-- An armed program takes its first true transition. -/
theorem State.nextState_first (armed : (s.sbx.progs.get p).armed = true) {i : Fin 4}
    (true_ : s.transTrue p (s.sbx.progs.get p).state.toNat i (s.before p prev now) now = true)
    (lower : ∀ j : Fin 4, j < i →
      s.transTrue p (s.sbx.progs.get p).state.toNat j (s.before p prev now) now = false) :
    s.nextState p (s.transBits p prev now)
      = BitVec.ofNat 4 (s.fld (Reg.sbxProgSTCtrl p (s.sbx.progs.get p).state.toNat i) 7 4) := by
  have first : (List.range 4).find? (fun i => s.transBits p prev now / 2 ^ i % 2 == 1) = some i.val := by
    rw [State.find_transBits armed, List.find?_range_eq_some]
    refine ⟨true_, List.mem_range.mpr i.isLt, fun j hj => ?_⟩
    rw [lower ⟨j, hj.trans i.isLt⟩ hj]
    rfl
  unfold State.nextState
  rw [first]

/-- Without a true transition it stays in its state. -/
theorem State.nextState_none (armed : (s.sbx.progs.get p).armed = true)
    (none_ : ∀ i : Fin 4, s.transTrue p (s.sbx.progs.get p).state.toNat i (s.before p prev now) now = false) :
    s.nextState p (s.transBits p prev now) = (s.sbx.progs.get p).state := by
  have stays : (List.range 4).find? (fun i => s.transBits p prev now / 2 ^ i % 2 == 1) = none := by
    rw [State.find_transBits armed, List.find?_range_eq_none]
    intro j hj
    rw [none_ ⟨j, hj⟩]
    rfl
  unfold State.nextState
  rw [stays]

end

/-! ### One period (R117, R118) -/

/-- The state in which a period is evaluated: timers and spans have ended, and the lines have changed. -/
def State.periodStart (s : State) : State := s.settleProgs.applyLineQ

/-- The inputs of the period. -/
def State.periodInputs (s : State) : Inputs :=
  { sw0 := (s.switchBits s.sbx.period).1, sw1 := (s.switchBits s.sbx.period).2, lines := s.lines,
    progs := allProgs.map s.progIn }

theorem State.settleProgs_periodKept (s : State) : PeriodKept [] s s.settleProgs :=
  .foldl (fun _ _ => .updProg_beside) _ s

theorem State.applyLineQ_periodKept (s : State) : PeriodKept [] s s.applyLineQ := by
  unfold State.applyLineQ
  extract_lets r lines u
  have changed : PeriodKept [] s u := .same
  exact changed.set _ (by decide)

theorem State.periodStart_periodKept (s : State) : PeriodKept [] s s.periodStart :=
  s.settleProgs_periodKept.next s.settleProgs.applyLineQ_periodKept

/-- A state with the programs of another. -/
def State.progsInto (s u : State) : State := { s with sbx := { s.sbx with progs := u.sbx.progs } }

/-- Only programs change before the lines do. -/
theorem State.settleProgs_eq (s : State) : s.settleProgs = s.progsInto s.settleProgs := by
  unfold State.settleProgs
  refine List.foldlRecOn (motive := fun u : State => u = s.progsInto u) allProgs _ rfl fun u kept p _ => ?_
  exact (congrArg (fun v : State => v.updProg p _) kept).trans (by rfl)

theorem State.periodStart_prev (s : State) : s.periodStart.sbx.prev = s.sbx.prev :=
  (congrArg (fun u : State => u.sbx.prev) s.settleProgs_eq :)

theorem State.periodStart_swBuf (s : State) : s.periodStart.sbx.swBuf = s.sbx.swBuf :=
  (congrArg (fun u : State => u.sbx.swBuf) s.settleProgs_eq :)

/-- SBX_XTRG shows the lines; no other register changes before a period is evaluated. -/
theorem State.periodStart_get (s : State) {a : Nat} (ha : a ≠ Reg.sbxXtrg) : s.periodStart.get a = s.get a := by
  unfold State.periodStart State.applyLineQ
  dsimp only
  rw [State.get_setFld_ne _ _ _ _ _ _ ha]
  exact (congrArg (fun u : State => u.get a) s.settleProgs_eq :)

/-- A period has been evaluated. -/
structure PeriodDone (s u : State) : Prop where
  period : u.sbx.period = s.sbx.period + 1
  modes : u.modes = s.modes
  tim : u.tim = s.tim
  prev : u.sbx.prev = s.periodStart.periodInputs
  states : ∀ p, (s.sbx.progs.get p).armed = true → (u.sbx.progs.get p).state
    = s.periodStart.nextState p (s.periodStart.transBits p s.periodStart.sbx.prev s.periodStart.periodInputs)

theorem mem_allProgs : ∀ p : Fin 8, p ∈ allProgs := by decide

theorem State.sbxPeriod_done (s : State) : PeriodDone s (s.sbxPeriod longPlace) := by
  unfold State.sbxPeriod
  extract_lets start sw now prev trans bitmap acts prims marks pushed ran sent streamed n cut late numbered
  have started : PeriodKept [] s start := s.periodStart_periodKept
  have keys : trans.map Prod.fst = allProgs := by simp [trans, Function.comp_def]
  have push : PeriodKept [] start pushed := State.pushSwitches_periodKept sw start
  obtain ⟨run, states⟩ := State.runProgs_run prev now bitmap trans (keys ▸ by decide) pushed
  have stream : PeriodKept [] ran streamed :=
    (State.sendPrims_periodKept prims ran).next (.ite (State.streamPeriod_periodKept now sent) (.refl sent))
  have closed : PeriodKept [] streamed numbered :=
    (((State.applyCuts_periodKept n streamed).next (State.lossCloses_periodKept _)).next
      (State.closeDisarmed_periodKept _)).next (.ite (.refl cut) (State.numberUpTo_periodKept n marks cut))
  have after : PeriodKept [] ran numbered := stream.next closed
  have all : PeriodKept _ s numbered := ((started.next push).trans run).next after
  have streamedAt : n = s.sbx.period := (((started.next push).trans run).next stream).period
  have startIs : s.periodStart = start := rfl
  have prevIs : s.periodStart.sbx.prev = prev := rfl
  have nowIs : s.periodStart.periodInputs = now := rfl
  refine { period := ?_, modes := all.modes, tim := all.tim, prev := rfl, states := fun p armed => ?_ }
  · exact congrArg Nat.succ streamedAt
  · rw [prevIs, nowIs, startIs]
    have mem : (p, start.transBits p prev now) ∈ trans :=
      List.mem_map_of_mem (f := fun p => (p, start.transBits p prev now)) (mem_allProgs p)
    have ends := states _ mem (((started.next push).armed p).trans armed)
    dsimp only at ends
    show (numbered.sbx.progs.get p).state = _
    rw [after.state p List.not_mem_nil, ends, push.nextState List.not_mem_nil]
end Sys2Proof.Machine
end

