-- ==== Sys2Proof/Proofs/SignalBoxEvents.lean ====
section
/-! The Signal Box's events: a period that is due or not, a timer, a span or a window that ends. -/

namespace Sys2Proof.Machine

/-! ### The events (R117–R119, R127, R129, R132, R159) -/

theorem State.pump_kept (s : State) : SendKept s s.pump := (s.pumpPort_kept false).trans (State.pumpPort_kept _ true)

@[simp] theorem State.pump_sbx (s : State) : s.pump.sbx = s.sbx := (congrArg State.sbx s.pump_kept.eq :)
@[simp] theorem State.pump_que (s : State) : s.pump.que = s.que := (congrArg State.que s.pump_kept.eq :)
@[simp] theorem State.pump_modes (s : State) : s.pump.modes = s.modes := (congrArg State.modes s.pump_kept.eq :)
@[simp] theorem State.pump_tim (s : State) : s.pump.tim = s.tim := (congrArg State.tim s.pump_kept.eq :)

theorem exec_signalBoxPeriod (s : State) :
    exec .signalBoxPeriod s = .next (State.keeping s (signalBoxPeriod longPlace s).pump) := rfl

/-- A period whose lag has passed is evaluated, where sampling has no last one. -/
theorem signalBoxPeriod_due {s : State} (sampling : s.modes.sampling = true) (last : s.modes.last = none)
    (due : s.sbx.period + s.fld Reg.sbxLag 8 0 ≤ s.samplePos) : signalBoxPeriod longPlace s = s.sbxPeriod longPlace := by
  have goes_on : (s.sbxPeriod longPlace).modes.last = none := by rw [s.sbxPeriod_done.modes, last]
  simp [signalBoxPeriod, State.lossEnds, sampling, last, due, goes_on]

theorem signalBoxPeriod_early {s : State} (early : s.samplePos < s.sbx.period + s.fld Reg.sbxLag 8 0) :
    signalBoxPeriod longPlace s = s := by
  have := Nat.not_le.mpr early
  simp [signalBoxPeriod, this]

theorem signalBoxPeriod_evaluates (s : State) (sampling : s.modes.sampling = true) (last : s.modes.last = none)
    (due : s.sbx.period + s.fld Reg.sbxLag 8 0 ≤ s.samplePos) :
    ∃ u, exec .signalBoxPeriod s = .next u ∧ u.sbx.period = s.sbx.period + 1 ∧ u.modes = s.modes ∧ u.tim = s.tim
      ∧ u.sbx.prev.sw0 = (s.switchBits s.sbx.period).1 ∧ u.sbx.prev.sw1 = (s.switchBits s.sbx.period).2
      ∧ u.sbx.prev.lines = s.settleProgs.applyLineQ.lines
      ∧ ∀ p : Fin 8, (s.sbx.progs.get p).armed = true →
          (∀ i : Fin 4, s.transTrue p (s.sbx.progs.get p).state.toNat i
              (if (s.sbx.progs.get p).armPeriod = s.sbx.period then u.sbx.prev else s.sbx.prev) u.sbx.prev = true →
            (∀ j : Fin 4, j < i → s.transTrue p (s.sbx.progs.get p).state.toNat j
              (if (s.sbx.progs.get p).armPeriod = s.sbx.period then u.sbx.prev else s.sbx.prev) u.sbx.prev = false) →
            (u.sbx.progs.get p).state
              = BitVec.ofNat 4 (s.fld (Reg.sbxProgSTCtrl p (s.sbx.progs.get p).state.toNat i) 7 4))
          ∧ ((∀ i : Fin 4, s.transTrue p (s.sbx.progs.get p).state.toNat i
              (if (s.sbx.progs.get p).armPeriod = s.sbx.period then u.sbx.prev else s.sbx.prev) u.sbx.prev = false) →
            (u.sbx.progs.get p).state = (s.sbx.progs.get p).state) := by
  have done := s.sbxPeriod_done
  have start := s.periodStart_periodKept
  rw [exec_signalBoxPeriod, signalBoxPeriod_due sampling last due]
  refine ⟨_, rfl, ?_⟩
  simp only [State.keeping_sbx, State.keeping_modes, State.keeping_tim, State.pump_sbx, State.pump_modes, State.pump_tim,
    done.prev]
  have switches : s.periodStart.switchBits s.periodStart.sbx.period = s.switchBits s.sbx.period := by
    unfold State.switchBits
    rw [start.period, s.periodStart_swBuf]
  refine ⟨done.period, done.modes, done.tim, congrArg Prod.fst switches, congrArg Prod.snd switches, rfl,
    fun p armed => ?_⟩
  rw [done.states p armed]
  have stillArmed := (start.armed p).trans armed
  have state := start.state p List.not_mem_nil
  generalize s.periodStart.periodInputs = now
  have conditions (i : Nat) : s.periodStart.transTrue p (s.periodStart.sbx.progs.get p).state.toNat i
        (s.periodStart.before p s.periodStart.sbx.prev now) now
      = s.transTrue p (s.sbx.progs.get p).state.toNat i
        (if (s.sbx.progs.get p).armPeriod = s.sbx.period then now else s.sbx.prev) now := by
    rw [State.transTrue_congr fun a ha => s.periodStart_get (by unfold Reg.sbxXtrg; omega), state]
    simp only [State.before, start.armPeriod, start.period, s.periodStart_prev]
  constructor
  · intro i true_ lower
    rw [State.nextState_first stillArmed ((conditions i).trans true_) fun j hj => (conditions j).trans (lower j hj), state]
    have ctrl := start.regs _ (transReg_ctrl p (s.sbx.progs.get p).state i.isLt)
    exact congrArg (fun w => BitVec.ofNat 4 (bits w 7 4)) ctrl
  · intro none_
    rw [State.nextState_none stillArmed fun i => (conditions i).trans (none_ i), state]

theorem signalBoxPeriod_waits (s : State) (early : s.samplePos < s.sbx.period + s.fld Reg.sbxLag 8 0) :
    ∃ u, exec .signalBoxPeriod s = .next u ∧ u.sbx = s.sbx ∧ u.que = s.que ∧ u.modes = s.modes := by
  rw [exec_signalBoxPeriod, signalBoxPeriod_early early]
  exact ⟨_, rfl, s.pump_sbx, s.pump_que, s.pump_modes⟩

/-- An event that updates one program leaves the registers and the other programs. -/
theorem run_updProg (p : Fin 8) (f : Prog → Prog) (s : State) : ∃ u, run (State.updProg p f) s = .next u
    ∧ u.sbx.progs.get p = f (s.sbx.progs.get p) ∧ u.regs = s.regs
    ∧ ∀ q : Fin 8, q ≠ p → u.sbx.progs.get q = s.sbx.progs.get q :=
  ⟨_, rfl, State.updProg_progs_same s p f, rfl, fun _ apart => upd_get_ne _ _ _ _ apart⟩

theorem timerExpire_completes (s : State) (p : Fin 8) (k : Fin 4) (runs : ((s.sbx.progs.get p).tmr.get k).run = true)
    (zero : ((s.sbx.progs.get p).tmr.get k).val = 0) :
    ∃ u, exec (.timerExpire p k) s = .next u ∧ (u.sbx.progs.get p).tmr.get k = ⟨0, false, true⟩ ∧ u.regs = s.regs
      ∧ (∀ j : Fin 4, j ≠ k → (u.sbx.progs.get p).tmr.get j = (s.sbx.progs.get p).tmr.get j)
      ∧ (∀ q : Fin 8, q ≠ p → u.sbx.progs.get q = s.sbx.progs.get q) := by
  obtain ⟨u, next, own, regs, others⟩ := run_updProg p (fun x => { x with tmr := upd x.tmr k tmrSettle }) s
  refine ⟨u, next, ?_, regs, fun j apart => ?_, others⟩
  · rw [own, upd_get_same]
    simp [tmrSettle, runs, zero]
  · rw [own]
    exact upd_get_ne _ _ _ _ apart

theorem prefillEnd_completes (s : State) (p : Fin 8)
    (ended : (s.sbx.progs.get p).armPeriod + (s.get (Reg.sbxProgPre p)).toNat ≤ s.sbx.period) :
    ∃ u, exec (.prefillEnd p) s = .next u ∧ u.sbx.progs.get p = { s.sbx.progs.get p with prefill := false }
      ∧ u.regs = s.regs ∧ (∀ q : Fin 8, q ≠ p → u.sbx.progs.get q = s.sbx.progs.get q) := by
  obtain ⟨u, next, own, regs, others⟩ := run_updProg p (fun x => { x with
    prefill := x.prefill && decide (s.sbx.period < x.armPeriod + (s.get (Reg.sbxProgPre p)).toNat) }) s
  have past := Nat.not_lt.mpr ended
  exact ⟨u, next, by rw [own]; simp [past], regs, others⟩

theorem rearmEnd_completes (s : State) (p : Fin 8) (e : Nat) (last : (s.sbx.progs.get p).lastEnd = some e)
    (ended : e + (s.get (Reg.sbxProgRearm p)).toNat < s.sbx.period) :
    ∃ u, exec (.rearmEnd p) s = .next u ∧ u.sbx.progs.get p = { s.sbx.progs.get p with rearm := false }
      ∧ u.regs = s.regs ∧ (∀ q : Fin 8, q ≠ p → u.sbx.progs.get q = s.sbx.progs.get q) := by
  obtain ⟨u, next, own, regs, others⟩ := run_updProg p (fun x => { x with rearm := x.rearm && (match x.lastEnd with
    | some e => decide (s.sbx.period ≤ e + (s.get (Reg.sbxProgRearm p)).toNat)
    | none => false) }) s
  have past := Nat.not_le.mpr ended
  exact ⟨u, next, by rw [own]; simp [last, past], regs, others⟩

/-- The place of a source's records in the order of R173. -/
def builtKind : WinId → Nat
  | .prog _ => 0
  | .hit _ => 1

/-- A closed window whose samples are in is built as its record. -/
theorem State.buildWindow_builds {s : State} {id : WinId} {w : Win} {n : Nat}
    (closed : (s.sbx.closing.find? fun x => x.id = id) = some w) (numbered : w.seq = some n)
    (samples : s.samplesIn w = true) : ∃ y, (s.buildWindow id).que.built = s.que.built ++ [y] ∧ y.seq = n
      ∧ y.kind = builtKind id ∧ y.bytes = s.windowRecord w n ∧ y.long = w.long
      ∧ (s.buildWindow id).sbx.closing = s.sbx.closing.filter (fun x => x.seq != some n) := by
  have own : w.id = id := by simpa using List.find?_some closed
  unfold State.buildWindow
  simp only [closed, numbered, samples, own, Bool.not_true, Bool.false_eq_true, if_false]
  generalize s.windowRecord w n = bytes
  refine ⟨⟨n, builtKind id, bytes, w.long, w.place, if w.long then 0 else min w.reserved bytes.length⟩, ?built, rfl, rfl,
    rfl, rfl, ?closing⟩
  case built => cases w.long <;> cases id <;> rfl
  case closing => cases w.long <;> rfl

/-- Its record is then in its place in the Store where it goes the long path (R160), which leaves the queues. -/
theorem run_buildWindow {s : State} {id : WinId} {w : Win} {n : Nat}
    (closed : (s.sbx.closing.find? fun x => x.id = id) = some w) (numbered : w.seq = some n)
    (samples : s.samplesIn w = true) : ∃ u y, run (fun s => (s.buildWindow id).storeLongs) s = .next u
      ∧ u.que.built = s.que.built ++ [y] ∧ y.seq = n ∧ y.kind = builtKind id ∧ y.bytes = s.windowRecord w n
      ∧ y.long = w.long ∧ u.sbx.closing = s.sbx.closing.filter (fun x => x.seq != some n) := by
  obtain ⟨y, built, seq, kind, bytes, long, closing⟩ := State.buildWindow_builds closed numbered samples
  have stored := (s.buildWindow id).storeLongs_depotKept
  exact ⟨_, y, rfl, (congrArg Que.built stored.que).trans built, seq, kind, bytes, long,
    (congrArg Sbx.closing stored.sbx).trans closing⟩

/-- Settles O44: what the period leaves as it was carries its start to the programs' transitions, and these to its end; each
event at a window's end is the one update that it makes. -/
theorem signalBoxEventsComplete : Obligations.SignalBoxEventsComplete := by
  unfold Obligations.SignalBoxEventsComplete
  exact ⟨signalBoxPeriod_evaluates, signalBoxPeriod_waits, timerExpire_completes, prefillEnd_completes,
    rearmEnd_completes, fun _ _ _ _ => run_buildWindow, fun _ _ _ _ => run_buildWindow⟩

end Sys2Proof.Machine
end

