-- ==== Sys2Proof/Proofs/TimingPorts.lean ====
section
/-! Frames on the timing ports (R283–R286, R305, R316): one that passes through a pair meets what is armed on the port that
it leaves by. -/

namespace Sys2Proof.Machine

/-- Both ports of pair A are up, and a provocation is armed that changes a byte of the next frame sent through A-out
(R316). -/
def armedOut : State :=
  { State.reset with
    modes := { Modes.reset with control := true }
    regs := [(Reg.clkPllStat, 0x10000), (Reg.lnkPortStat 2, 1), (Reg.lnkPortStat 3, 1), (Reg.lnkProvCtrl 3, 0x80000002),
      (Reg.lnkProvN 3, 1)] }

theorem armedOut_quiet : armedOut.Quiet 2 where
  live := by decide +kernel
  plain := by decide +kernel
  heldTx := rfl
  heldRx := rfl

theorem armedOut_arm : (armedOut.get (Reg.lnkProvCtrl 3)).getLsbD 31 = true := by decide +kernel

/-- An ARP request for another address comes in on A-in and leaves through A-out, where it spends the provocation. -/
theorem receive_armedOut_arm :
    ((receive 2 64 (.arpRequest 2 1 ⟨0, 0⟩ []) (arpRequest 2 1 ⟨0, 0⟩ []) armedOut).get (Reg.lnkProvCtrl 3)).getLsbD 31
      = false := by
  decide +kernel

theorem exec_arpRequest (p : Port) (a : Word) (from_ : ArpSender) (bytes : List Byte) (s : State) :
    exec (.arpRequest p a from_ bytes) s = .next (State.keeping s
      (receive p (max 64 bytes.length) (.arpRequest p a from_ bytes) (arpRequest p a from_ bytes) s)) := rfl

/-- Refutes O45: its last clause keeps every register but the receiving port's LNK_PORTx_RX, with nothing said of the port
that the frame leaves by. In `armedOut` ARM of that port's LNK_PROVi_CTRL clears (R316). The clause for other frames keeps
too much in the same way. -/
theorem not_framesAndTimingMessagesComplete : ¬ Obligations.FramesAndTimingMessagesComplete := by
  unfold Obligations.FramesAndTimingMessagesComplete
  rintro ⟨-, -, -, -, -, -, -, -, -, -, -, -, arp⟩
  obtain ⟨u, next, -, kept, -⟩ := arp armedOut 2 1 0 0 [] armedOut_quiet
  rw [exec_arpRequest] at next
  have stays := kept (Reg.lnkProvCtrl 3) (by decide)
  rw [← Host.Outcome.next.inj next, State.keeping_get] at stays
  exact Bool.false_ne_true (receive_armedOut_arm.symm.trans (stays ▸ armedOut_arm :))

end Sys2Proof.Machine
end

