-- ==== Sys2Proof/Proofs/DepotReads.lean ====
section
/-! What a reader of the Depot leaves as it was (R189, R191, R202, R203, R208): decoding map entries and lines touches the
Depot, its own registers and the attention of the sessions. Where no line and no map entry is erroneous, it touches
nothing. -/

namespace Sys2Proof.Machine

/-- A reader has touched nothing but what the Depot's writers may touch, no register below DPT_POISON_READS, and has closed
no session. -/
structure ReadKept (s u : State) : Prop where
  rest : u = s.depotInto u
  get : ∀ a, a < Reg.dptPoisonReads → u.get a = s.get a
  sessions : ∀ id, (u.findSession id).isSome = (s.findSession id).isSome

namespace ReadKept
variable {s u v : State}

theorem refl (s : State) : ReadKept s s := ⟨rfl, fun _ _ => rfl, fun _ => rfl⟩

theorem trans (h : ReadKept s u) (k : ReadKept u v) : ReadKept s v where
  rest := Eq.trans k.rest (congrArg (State.depotInto · v) h.rest :)
  get a ha := (k.get a ha).trans (h.get a ha)
  sessions id := (k.sessions id).trans (h.sessions id)

theorem foldl {α : Type} {f : State → α → State} (hf : ∀ s x, ReadKept s (f s x)) (l : List α) :
    ∀ s, ReadKept s (l.foldl f s) := by
  induction l with
  | nil => exact refl
  | cons x l ih => exact fun s => (hf s x).trans (ih _)

theorem depotKept (h : ReadKept s u) : DepotKept s u :=
  ⟨h.rest, fun a ha => h.get a (Nat.lt_trans ha (by decide))⟩

theorem que (h : ReadKept s u) : u.que = s.que := (congrArg State.que h.rest :)
theorem lnk (h : ReadKept s u) : u.lnk = s.lnk := (congrArg State.lnk h.rest :)

theorem withDpt (h : ReadKept s u) (f : Depot → Depot) : ReadKept s (u.withDpt f) :=
  h.trans ⟨rfl, fun _ _ => rfl, fun _ => rfl⟩

theorem takeFree (h : ReadKept s u) : ReadKept s u.takeFree.2 := h.trans ⟨rfl, fun _ _ => rfl, fun _ => rfl⟩

theorem attend (h : ReadKept s u) (b : Nat) : ReadKept s (u.attend b) :=
  h.trans ⟨rfl, fun _ _ => rfl, State.attend_isSome u b⟩

/-- With a register from DPT_POISON_READS on set none below it changes; fields, bits and counters are set so too. -/
theorem set (h : ReadKept s u) {a : Nat} (w : Word) (ha : Reg.dptPoisonReads ≤ a) : ReadKept s (u.set a w) :=
  h.trans ⟨rfl, fun b hb => State.get_set_ne _ _ _ _ (by omega), fun _ => rfl⟩

theorem setFld (h : ReadKept s u) {a : Nat} (hi lo x : Nat) (ha : Reg.dptPoisonReads ≤ a) :
    ReadKept s (u.setFld a hi lo x) := h.set _ ha

theorem setBit (h : ReadKept s u) {a : Nat} (i : Nat) (b : Bool) (ha : Reg.dptPoisonReads ≤ a) :
    ReadKept s (u.setBit a i b) := h.set _ ha

theorem bump (h : ReadKept s u) {a : Nat} (ha : Reg.dptPoisonReads ≤ a) : ReadKept s (u.bump a) := h.set _ ha

end ReadKept

/-! ### The block map -/

theorem State.mapFlip_readKept (b : Nat) (s : State) : ReadKept s (s.mapFlip b) := by
  unfold State.mapFlip
  dsimp only
  split
  · refine ReadKept.set (.setBit (.setBit (.set (.set (.set ?_ _ (by decide)) _ (by decide)) _ (by decide)) _ _ (by decide))
      _ _ (by decide)) _ (by decide)
    split
    · exact .refl s
    · exact (ReadKept.refl s).withDpt _
  · exact .refl s

theorem State.setEnt_readKept (b : Nat) (e : MapEnt) (s : State) : ReadKept s (s.setEnt b e) :=
  ((ReadKept.refl s).withDpt _).trans (State.mapFlip_readKept ..)

theorem State.addLog_readKept (kind : Nat) (src : LogSource) (owner bucket addr : Nat) (s : State) :
    ReadKept s (s.addLog kind src owner bucket addr) :=
  (((ReadKept.refl s).withDpt _).setFld _ _ _ (by decide)).setFld _ _ _ (by decide)

theorem State.bucketAdd_readKept (i : Nat) (src : LogSource) (owner : Nat) (s : State) :
    ReadKept s (s.bucketAdd i src owner) := by
  have counter : Reg.dptPoisonReads ≤ Reg.dptCeCnt i := by simp only [Reg.dptPoisonReads, Reg.dptCeCnt]; omega
  have bucket : Reg.dptPoisonReads ≤ Reg.dptBucket i := by simp only [Reg.dptPoisonReads, Reg.dptBucket]; omega
  have counted := (ReadKept.refl s).bump counter
  unfold State.bucketAdd
  dsimp only
  split
  · exact (((counted.setFld _ _ _ bucket).setBit _ _ (by decide)).trans (State.addLog_readKept ..)).attend _
  · exact counted.setFld _ _ _ bucket

theorem State.mapLost_readKept (b : Nat) (src : LogSource) (s : State) : ReadKept s (s.mapLost b src) :=
  ((((((ReadKept.refl s).withDpt _).trans (State.setEnt_readKept ..)).trans (State.addLog_readKept ..)).bump
    (by decide)).setBit _ _ (by decide)).attend _

theorem State.checkMap_readKept (b : Nat) (src : LogSource) (s : State) : ReadKept s (s.checkMap b src) := by
  have fixed (u : State) : ReadKept u ((u.setEnt b (u.mapEnt b)).bucketAdd 4 src (u.mapEnt b).owner.toNat) :=
    (State.setEnt_readKept ..).trans (State.bucketAdd_readKept ..)
  have wide := (ReadKept.refl s).takeFree
  unfold State.checkMap
  split
  · exact .refl s
  · dsimp only
    split
    · exact .refl s
    · exact fixed s
    · exact State.mapLost_readKept ..
    · split
      · exact wide
      · exact wide.trans (fixed _)
      · exact wide.trans (State.mapLost_readKept ..)

theorem State.changeEnt_readKept (b : Nat) (f : MapEnt → MapEnt) (s : State) : ReadKept s (s.changeEnt b f) :=
  (State.checkMap_readKept ..).trans (State.setEnt_readKept ..)

theorem State.decodeBlocks_readKept (bs : List Nat) (src : LogSource) (s : State) : ReadKept s (s.decodeBlocks bs src) :=
  .foldl (fun s b => State.checkMap_readKept b src s) _ s

/-! ### Lines, directories and items -/

theorem State.poisonLine_readKept (l : Nat) (s : State) : ReadKept s (s.poisonLine l) := by
  unfold State.poisonLine
  exact ((ReadKept.refl s).withDpt _).trans (State.changeEnt_readKept ..)

/-- A line given up: poisoned, logged and counted (R203, R207, R209). -/
theorem State.loseLine_readKept (kind : Nat) (src : LogSource) (owner l : Nat) (s : State) :
    ReadKept s (((((s.poisonLine l).addLog kind src owner 0 l).bump Reg.dptUeCnt).setBit Reg.dptEccStat 8 true).attend
      Atn.eccUe) :=
  ((((State.poisonLine_readKept l s).trans (State.addLog_readKept ..)).bump (by decide)).setBit _ _ (by decide)).attend _

theorem State.readLine_readKept (l : Nat) (src : LogSource) (s : State) : ReadKept s (s.readLine l src).2 := by
  unfold State.readLine
  dsimp only
  generalize (if src = LogSource.scrubber then 2 else 1) = kind
  split
  · exact .refl s
  · split
    · exact (ReadKept.refl s).bump (by decide)
    · split
      · exact ((ReadKept.refl s).withDpt _).trans (State.bucketAdd_readKept ..)
      · split
        · exact State.loseLine_readKept ..
        · split
          · exact (ReadKept.refl s).takeFree.trans (State.loseLine_readKept ..)
          · exact (ReadKept.refl s).takeFree

theorem State.readLines_readKept (src : LogSource) (ls : List Nat) : ∀ s : State, ReadKept s (s.readLines src ls).2 := by
  induction ls with
  | nil => exact .refl
  | cons l ls ih => exact fun s => (State.readLine_readKept l src s).trans (ih _)

theorem State.readDirectory_readKept (b : Nat) (s : State) : ReadKept s (s.readDirectory b).2 := by
  have checked := State.checkMap_readKept b .mapLookup s
  unfold State.readDirectory
  dsimp only
  split
  · split
    · exact (checked.trans (State.readLines_readKept ..)).trans (State.changeEnt_readKept ..)
    · exact checked.trans (State.readLines_readKept ..)
  · exact checked

theorem State.probeRec_readKept (seq : Nat) (src : LogSource) (s : State) : ReadKept s (s.probeRec seq src) :=
  .foldl (fun s b => (State.readDirectory_readKept b s).trans (State.readLines_readKept ..)) _ s

theorem State.readItem_readKept (src : LogSource) (gens : List (Nat × BitVec 32)) (offset a n : Nat) (s : State) :
    ReadKept s (s.readItem src gens offset a n).2 := by
  have listed := State.readDirectory_readKept ((gens.head?.map fun g => g.1).getD 0) s
  unfold State.readItem
  dsimp only
  split
  · exact (listed.trans (State.readLines_readKept ..)).takeFree
  · exact listed.trans (State.readLines_readKept ..)

theorem State.itemMap_readKept (i : Item) (s : State) : ReadKept s (s.itemMap i) := State.decodeBlocks_readKept ..

theorem State.readPart_readKept (src : LogSource) (i : Item) (a n : Nat) (s : State) :
    ReadKept s (s.readPart src i a n).2 := by
  have mapped := s.itemMap_readKept i
  cases i with
  | record q =>
    unfold State.readPart
    dsimp only
    split
    · exact mapped
    · exact mapped.trans (State.readItem_readKept ..)
  | unit q =>
    unfold State.readPart
    dsimp only
    split
    · exact mapped
    · exact mapped.trans (State.readItem_readKept ..)
  | prbs => exact mapped

/-! ### Reads of an intact Depot -/

section
variable {s : State} (map : s.dpt.mapErrs = []) (lines : s.dpt.errs = [])

include map

theorem State.checkMap_intact (b : Nat) (src : LogSource) : s.checkMap b src = s := by
  rw [State.checkMap, map]
  rfl

theorem State.decodeBlocks_intact (bs : List Nat) (src : LogSource) : s.decodeBlocks bs src = s := by
  rw [State.decodeBlocks, map]
  rfl

theorem State.itemMap_intact (i : Item) : s.itemMap i = s := State.decodeBlocks_intact map ..

include lines

omit map in
/-- No line stands out to be read for its errors. -/
theorem State.readLines_intact (src : LogSource) (ls : List Nat) :
    s.readLines src (ls.filter fun l => !(s.lineErrs l).isEmpty) = (false, s) := by
  have sound (l : Nat) : s.lineErrs l = [] := by rw [State.lineErrs, lines, List.filter_nil]
  simp only [sound, List.isEmpty_nil, Bool.not_true, List.filter_false]
  rfl

theorem State.readDirectory_intact (b : Nat) : s.readDirectory b = ((s.mapEnt b).dirLost, s) := by
  simp only [State.readDirectory, State.checkMap_intact map, State.readLines_intact lines, Bool.false_eq_true, if_false,
    ite_self]

theorem State.probeRec_intact (seq : Nat) (src : LogSource) : s.probeRec seq src = s := by
  unfold State.probeRec
  dsimp only
  generalize ((s.dpt.recs.map fun r => r.block).eraseDups.filter _) = blocks
  induction blocks with
  | nil => rfl
  | cons b bs ih => rw [List.foldl_cons, State.readDirectory_intact map lines, State.readLines_intact lines, ih]

/-- An item's bytes are those stored, and they are lost only with their directory. -/
theorem State.readItem_intact (src : LogSource) (gens : List (Nat × BitVec 32)) (offset a n : Nat) :
    s.readItem src gens offset a n = (((s.mapEnt ((gens.head?.map fun g => g.1).getD 0)).dirLost,
      (List.range n).map fun j => s.dpt.mem.read (itemAddr gens offset (a + j))), s) := by
  simp only [State.readItem, State.readDirectory_intact map lines, State.readLines_intact lines, Bool.false_eq_true,
    if_false, Bool.false_and, Bool.false_or]

theorem State.readPart_record_intact {q : Nat} {c : SRec} (src : LogSource) (a n : Nat) (held : s.findRec q = some c) :
    s.readPart src (.record q) a n = (some ((s.mapEnt ((c.gens.head?.map fun g => g.1).getD 0)).dirLost,
      (List.range n).map fun j => s.dpt.mem.read (itemAddr c.gens c.offset (a + j))), s) := by
  simp only [State.readPart, State.itemMap_intact map, held, State.readItem_intact map lines]

theorem State.readPart_unit_intact {q : Nat} {u : RUnit} (src : LogSource) (a n : Nat) (held : s.findUnit q = some u) :
    s.readPart src (.unit q) a n = (some ((s.mapEnt ((u.gens.head?.map fun g => g.1).getD 0)).dirLost,
      (u.descriptor.drop a).take n ++ (List.range (n - ((u.descriptor.drop a).take n).length)).map fun j =>
        s.dpt.mem.read (itemAddr u.gens u.offset (a - 64 + j))), s) := by
  simp only [State.readPart, State.itemMap_intact map, held, State.readItem_intact map lines]

theorem State.readPart_intact (src : LogSource) (i : Item) (a n : Nat) : (s.readPart src i a n).2 = s := by
  cases i with
  | record q =>
    cases held : s.findRec q with
    | none => simp only [State.readPart, State.itemMap_intact map, held]
    | some c => rw [State.readPart_record_intact map lines src a n held]
  | unit q =>
    cases held : s.findUnit q with
    | none => simp only [State.readPart, State.itemMap_intact map, held]
    | some u => rw [State.readPart_unit_intact map lines src a n held]
  | prbs => simp only [State.readPart, State.itemMap_intact map]

end

end Sys2Proof.Machine
end

