-- ==== Sys2Proof/Proofs/RecordReads.lean ====
section
/-! QUEUE_READ, RECORD_READ and UNIT_READ (R169, R170, R184, R189, R191, R341): what they read of the host-read queue and of
the Depot, and what they refuse. -/

namespace Sys2Proof.Machine

/-! ### What a served command shows -/

/-- The answer to a served request is cached, and registers, queues and Depot are as execution has left them. -/
structure AnswerShown (t : State) (f : Form) (r : Req) (a : Ans) : Prop where
  replied : Replied t r f.op a.1 a.2.1
  get : ∀ k, t.get k = a.2.2.get k
  que : t.que = a.2.2.que
  dpt : t.dpt = a.2.2.dpt

section
variable {s : State} {f : Form} {r : Req} {x : Session} {body : Session → State → Ans} {a : Ans}

/-- A served request whose execution leaves the links, its port's provocation and the session is answered with what it has
left. -/
theorem run_answer_shows (n : Nat) (i : Instr) (h : Served s f r x) (hc : f.closes = false)
    (ha : body (x.hear s.tim.now r) (s.arrived r) = a) (links : a.2.2.lnk = s.lnk)
    (prov : a.2.2.get (Reg.lnkProvCtrl r.port) = (s.arrived r).get (Reg.lnkProvCtrl r.port))
    (found : (a.2.2.findSession r.session).isSome = true) :
    ∃ t, run (receive r.port n i fun s => s.request f r body) s = .next t ∧ AnswerShown t f r a := by
  have plain : a.2.2.bit (Reg.lnkProvCtrl r.port) 31 = false := by
    rw [State.bit, prov, State.get_arrived_ne _ _ _ (lnkPortRx_ne r.port r.port).1]
    exact h.quiet.plain
  subst ha
  exact ⟨_, run_served n i body h (by rw [links]),
    { replied := (State.answered_replied hc found).keeping s
      get := fun k => State.answered_get k hc plain (links ▸ h.quiet.heldTx)
      que := State.answered_que
      dpt := State.answered_dpt }⟩

theorem Served.found_isSome (h : Served s f r x) : ((s.arrived r).findSession r.session).isSome = true := by
  rw [h.found_arrived]
  rfl

/-- A served request that only looks. -/
theorem run_looks {status : BitVec 16} {data : List Byte} (n : Nat) (i : Instr) (h : Served s f r x)
    (hc : f.closes = false) (ha : body (x.hear s.tim.now r) (s.arrived r) = (status, data, s.arrived r)) :
    ∃ t, run (receive r.port n i fun s => s.request f r body) s = .next t
      ∧ AnswerShown t f r (status, data, s.arrived r) :=
  run_answer_shows n i h hc ha rfl rfl h.found_isSome

end

/-! ### QUEUE_READ (R167, R169) -/

section
variable {s : State} {n : Byte} {e : HrEnt} {rest : List HrEnt}

theorem State.queueRead_inRange (low : 1 ≤ n.toNat) (high : n.toNat ≤ 16) :
    s.queueRead n = (s.dropMisframed s.que.hostRead).readCells n.toNat := by
  have some_ : ¬ n = 0#8 := by
    rintro rfl
    exact absurd low (by decide)
  have served : (n = 0 || decide (16 < n.toNat)) = false := by simp [some_, high]
  rw [State.queueRead, if_neg (Bool.eq_false_iff.mp served)]

/-- A record with as many cells as its length calls for, or one that has been begun, stays at the head. -/
theorem State.dropMisframed_framed (h : framed e.cells = true ∨ e.taken ≠ 0) : s.dropMisframed (e :: rest) = s := by
  rcases h with h | h <;> simp [State.dropMisframed, h]

/-- A misframed record is counted and skipped (R167). -/
def State.skipMisframed (s : State) (rest : List HrEnt) : State :=
  { ((s.bump Reg.queFraming).bump Reg.queHrSkip).attend Atn.link with que := { s.que with hostRead := rest } }

theorem State.dropMisframed_broken (fresh : e.taken = 0) (broken : framed e.cells = false) :
    s.dropMisframed [e] = s.skipMisframed [] := by
  simp [State.dropMisframed, fresh, broken, State.skipMisframed]

theorem State.readCells_empty (n : Nat) (h : s.que.hostRead = []) : s.readCells n = (St.ok, beBytes 4 0, s) := by
  rw [State.readCells, h]

/-- The cells returned, and what is left of the queue: the record goes with its last cell. -/
theorem State.readCells_part {n : Nat} {part : List Cell} {c : Cell} (h : s.que.hostRead = e :: rest)
    (cells : part = (e.cells.drop e.taken).take n) (last : part.getLast? = some c) :
    s.readCells n = (St.ok, beBytes 4 (2 ^ 31 + c.endMark.toNat * 2 ^ 30 + part.length * 2 ^ 16) ++ cellBytes part,
      { s with que := { s.que with
          hostRead := if c.endMark then rest else { e with taken := e.taken + part.length } :: rest } }) := by
  simp only [State.readCells, h, ← cells, last, Option.map_some, Option.getD_some]

end

/-- The row of QUEUE_READ in R340. -/
abbrev queueForm : Form := Form.make 0x0300 1 State.inRun

section
variable {s : State} {r : Req} {x : Session} {n : Byte} {e : HrEnt} {rest : List HrEnt}

theorem queueRead_empty (h : Served s queueForm r x) (low : 1 ≤ n.toNat) (high : n.toNat ≤ 16)
    (none_ : s.que.hostRead = []) :
    ∃ t, exec (.queueRead r n) s = .next t ∧ Replied t r 0x0300 St.ok (beBytes 4 0) ∧ t.que = s.que := by
  have answer : (s.arrived r).queueRead n = (St.ok, beBytes 4 0, s.arrived r) := by
    have empty : (s.arrived r).que.hostRead = [] := none_
    rw [State.queueRead_inRange low high, empty]
    exact State.readCells_empty _ empty
  obtain ⟨t, next, shown⟩ := run_looks (body := fun _ s => s.queueRead n) (wireLen r) (.queueRead r n) h rfl answer
  exact ⟨t, next, shown.replied, shown.que⟩

/-- The front record's next cells are returned; with its last cell the record goes. -/
theorem queueRead_cells {part : List Cell} {c : Cell} (h : Served s queueForm r x) (low : 1 ≤ n.toNat)
    (high : n.toNat ≤ 16) (front : s.que.hostRead = e :: rest) (whole : framed e.cells = true ∨ e.taken ≠ 0)
    (cells : part = (e.cells.drop e.taken).take n.toNat) (last : part.getLast? = some c) :
    ∃ t, exec (.queueRead r n) s = .next t
      ∧ t.que.hostRead = (if c.endMark then rest else { e with taken := e.taken + part.length } :: rest)
      ∧ Replied t r 0x0300 St.ok (beBytes 4 (2 ^ 31 + c.endMark.toNat * 2 ^ 30 + part.length * 2 ^ 16)
          ++ part.flatMap fun c => c.data) := by
  have arrived : (s.arrived r).que.hostRead = e :: rest := front
  have answer := State.queueRead_inRange (s := s.arrived r) low high
  rw [arrived, State.dropMisframed_framed whole, State.readCells_part arrived cells last] at answer
  obtain ⟨t, next, shown⟩ := run_answer_shows (body := fun _ s => s.queueRead n) (wireLen r) (.queueRead r n) h rfl answer
    rfl rfl h.found_isSome
  exact ⟨t, next, congrArg Que.hostRead shown.que, shown.replied⟩

/-- A lone record that is misframed is discarded and counted, and nothing is left to return (R167). -/
theorem queueRead_misframed (h : Served s queueForm r x) (low : 1 ≤ n.toNat) (high : n.toNat ≤ 16)
    (front : s.que.hostRead = [e]) (fresh : e.taken = 0) (broken : framed e.cells = false) :
    ∃ t, exec (.queueRead r n) s = .next t ∧ t.que.hostRead = [] ∧ Replied t r 0x0300 St.ok (beBytes 4 0)
      ∧ Counted s t Reg.queFraming 1 ∧ Counted s t Reg.queHrSkip 1 := by
  have answer : (s.arrived r).queueRead n = (St.ok, beBytes 4 0, (s.arrived r).skipMisframed []) := by
    have arrived : (s.arrived r).que.hostRead = [e] := front
    rw [State.queueRead_inRange low high, arrived, State.dropMisframed_broken fresh broken]
    exact State.readCells_empty _ rfl
  have kept (a : Nat) (hf : a ≠ Reg.queFraming) (hs : a ≠ Reg.queHrSkip) :
      ((s.arrived r).skipMisframed []).get a = (s.arrived r).get a :=
    (State.get_bump_ne _ _ _ hs).trans (State.get_bump_ne _ _ _ hf)
  have prov := kept (Reg.lnkProvCtrl r.port) (by simp only [Reg.lnkProvCtrl, Reg.queFraming]; omega)
    (by simp only [Reg.lnkProvCtrl, Reg.queHrSkip]; omega)
  obtain ⟨t, next, shown⟩ := run_answer_shows (body := fun _ s => s.queueRead n) (wireLen r) (.queueRead r n) h rfl answer
    rfl prov ((State.attend_isSome ..).trans h.found_isSome)
  have framing : (s.arrived r).get Reg.queFraming = s.get Reg.queFraming :=
    s.get_arrived_ne r _ (ne_lnkPortRx r.port (.inr (by decide)))
  have skips : ((s.arrived r).bump Reg.queFraming).get Reg.queHrSkip = s.get Reg.queHrSkip :=
    (State.get_bump_ne _ _ _ (by decide)).trans (s.get_arrived_ne r _ (ne_lnkPortRx r.port (.inr (by decide))))
  exact ⟨t, next, congrArg Que.hostRead shown.que, shown.replied,
    (State.counted_bump (s.arrived r) _).congr framing.symm
      ((shown.get _).trans (State.get_bump_ne ((s.arrived r).bump Reg.queFraming) Reg.queHrSkip _ (by decide))),
    (State.counted_bump ((s.arrived r).bump Reg.queFraming) _).congr skips.symm (shown.get _)⟩

end

/-! ### What the Depot holds, seen from another state -/

section
variable {s u : State}

/-- The map is read from the Depot, DPT_REGION and the variant alone. -/
theorem State.mapEnt_congr (dpt : u.dpt = s.dpt) (region : u.get Reg.dptRegion = s.get Reg.dptRegion)
    (variant : u.variant = s.variant) : u.mapEnt = s.mapEnt := by
  have owner : u.regionOwner = s.regionOwner := by
    funext b
    unfold State.regionOwner State.systemBase State.ringGib State.storeGib State.holdGib State.fitted State.fld
    rw [region, variant]
  funext b
  rw [State.mapEnt, State.mapEnt, dpt, owner]

theorem State.gensHold_congr (same : u.mapEnt = s.mapEnt) : u.gensHold = s.gensHold := by
  funext g
  rw [State.gensHold, State.gensHold, same]

theorem State.findRec_congr (dpt : u.dpt = s.dpt) (same : u.mapEnt = s.mapEnt) : u.findRec = s.findRec := by
  funext q
  rw [State.findRec, State.findRec, dpt, State.gensHold_congr same]

theorem State.findUnit_congr (dpt : u.dpt = s.dpt) (same : u.mapEnt = s.mapEnt) : u.findUnit = s.findUnit := by
  funext q
  rw [State.findUnit, State.findUnit, dpt, State.gensHold_congr same, same]

end

section
variable (s : State) (r : Req)

/-- A request's arrival changes no register of the queues or of the Depot. -/
theorem State.get_arrived_above {a : Nat} (h : Reg.queRoute ≤ a) : (s.arrived r).get a = s.get a :=
  s.get_arrived_ne r a (ne_lnkPortRx r.port (.inr (Nat.lt_of_lt_of_le (by decide) h)))

theorem State.arrived_mapEnt : (s.arrived r).mapEnt = s.mapEnt :=
  State.mapEnt_congr rfl (s.get_arrived_above r (by decide)) rfl

theorem State.arrived_findRec : (s.arrived r).findRec = s.findRec := State.findRec_congr rfl (s.arrived_mapEnt r)

theorem State.arrived_findUnit : (s.arrived r).findUnit = s.findUnit := State.findUnit_congr rfl (s.arrived_mapEnt r)

theorem State.arrived_seqNext : (s.arrived r).seqNext = s.seqNext := by
  rw [State.seqNext, State.get64, s.get_arrived_above r (by decide), s.get_arrived_above r (by decide)]
  rfl

theorem State.arrived_unitSeq : (s.arrived r).unitSeq = s.unitSeq := by
  rw [State.unitSeq, State.get64, s.get_arrived_above r (by decide), s.get_arrived_above r (by decide)]
  rfl

end

/-! ### RECORD_READ and UNIT_READ (R189, R191) -/

section
variable {s : State} {q : BitVec 64} {o : Word} {n : BitVec 16}

theorem State.itemRead_whole {i : Item} {total offset length : Nat} {bytes : List Byte} (within : offset < total)
    (read : s.readPart .hostRead i offset (min (min length 1428) (total - offset)) = (some (false, bytes), s)) :
    s.itemRead i total offset length = (St.ok, beBytes 4 total ++ beBytes 4 offset ++ bytes, s) := by
  simp only [State.itemRead, if_neg (Nat.not_le.mpr within), read]

theorem State.recordRead_unknown (h : s.seqNext ≤ q.toNat) : s.recordRead q o n = (St.badValue, [], s) := by
  rw [State.recordRead, if_pos h]
  rfl

theorem State.recordRead_held {c : SRec} (given : q.toNat < s.seqNext) (held : s.findRec q.toNat = some c)
    (within : o.toNat < c.length) (map : s.dpt.mapErrs = []) (lines : s.dpt.errs = [])
    (listed : (s.mapEnt ((c.gens.head?.map fun g => g.1).getD 0)).dirLost = false) :
    s.recordRead q o n = (St.ok, beBytes 4 c.length ++ beBytes 4 o.toNat
      ++ (List.range (min (min n.toNat 1428) (c.length - o.toNat))).map fun j =>
        s.dpt.mem.read (itemAddr c.gens c.offset (o.toNat + j)), s) := by
  simp only [State.recordRead, if_neg (Nat.not_le.mpr given), held, State.probeRec_intact map lines]
  exact State.itemRead_whole within (by rw [State.readPart_record_intact map lines _ _ _ held, listed])

theorem State.recordRead_waiting (given : q.toNat < s.seqNext) (gone : s.findRec q.toNat = none)
    (waiting : s.notYetStored q.toNat = true) : s.recordRead q o n = (St.busyRunning, [], s) := by
  simp only [State.recordRead, if_neg (Nat.not_le.mpr given), gone, waiting, if_true]
  rfl

theorem State.recordRead_gone (given : q.toNat < s.seqNext) (gone : s.findRec q.toNat = none)
    (passed : s.notYetStored q.toNat = false) :
    s.recordRead q o n = (St.overwritten, [], (s.probeRec q.toNat .hostRead).bump Reg.dptOverwritten) := by
  simp only [State.recordRead, if_neg (Nat.not_le.mpr given), gone, passed, Bool.false_eq_true, if_false]
  rfl

theorem State.unitRead_unknown (h : s.unitSeq ≤ q.toNat) : s.unitRead q o n = (St.badValue, [], s) := by
  rw [State.unitRead, if_pos h]
  rfl

theorem State.unitRead_held {u : RUnit} (given : q.toNat < s.unitSeq) (held : s.findUnit q.toNat = some u)
    (within : o.toNat < 64 + u.length) (map : s.dpt.mapErrs = []) (lines : s.dpt.errs = [])
    (listed : (s.mapEnt ((u.gens.head?.map fun g => g.1).getD 0)).dirLost = false) {d : List Byte}
    (head : (u.descriptor.drop o.toNat).take (min (min n.toNat 1428) (64 + u.length - o.toNat)) = d) :
    s.unitRead q o n = (St.ok, beBytes 4 (64 + u.length) ++ beBytes 4 o.toNat ++ (d
      ++ (List.range (min (min n.toNat 1428) (64 + u.length - o.toNat) - d.length)).map fun j =>
        s.dpt.mem.read (itemAddr u.gens u.offset (o.toNat - 64 + j))), s) := by
  simp only [State.unitRead, if_neg (Nat.not_le.mpr given), held]
  exact State.itemRead_whole within (by rw [State.readPart_unit_intact map lines _ _ _ held, listed, head])

theorem State.unitRead_gone (given : q.toNat < s.unitSeq) (gone : s.findUnit q.toNat = none) :
    s.unitRead q o n = (St.overwritten, [], s.bump Reg.dptOverwritten) := by
  simp only [State.unitRead, if_neg (Nat.not_le.mpr given), gone]
  rfl

end

/-- The rows of RECORD_READ and UNIT_READ in R340. -/
abbrev recordForm : Form := Form.make 0x0301 14 State.inRun
abbrev unitForm : Form := Form.make 0x0404 14 State.inRun

section
variable {s : State} {r : Req} {x : Session} {q : BitVec 64} {o : Word} {n : BitVec 16} {status : BitVec 16}
  {data : List Byte}

/-- A RECORD_READ or UNIT_READ that only looks leaves the Depot. -/
theorem recordRead_looks (h : Served s recordForm r x)
    (answer : (s.arrived r).recordRead q o n = (status, data, s.arrived r)) :
    ∃ t, exec (.recordRead r q o n) s = .next t ∧ Replied t r 0x0301 status data ∧ t.dpt = s.dpt := by
  obtain ⟨t, next, shown⟩ := run_looks (body := fun _ s => s.recordRead q o n) (wireLen r) (.recordRead r q o n) h rfl
    answer
  exact ⟨t, next, shown.replied, shown.dpt⟩

theorem unitRead_looks (h : Served s unitForm r x)
    (answer : (s.arrived r).unitRead q o n = (status, data, s.arrived r)) :
    ∃ t, exec (.unitRead r q o n) s = .next t ∧ Replied t r 0x0404 status data ∧ t.dpt = s.dpt := by
  obtain ⟨t, next, shown⟩ := run_looks (body := fun _ s => s.unitRead q o n) (wireLen r) (.unitRead r q o n) h rfl
    answer
  exact ⟨t, next, shown.replied, shown.dpt⟩

/-- A read that finds its item gone is answered OVERWRITTEN and counted, whatever the lookup has met (R191, R209). -/
theorem run_overwritten {f : Form} {body : Session → State → Ans} {u : State} (k : Nat) (i : Instr) (h : Served s f r x)
    (hc : f.closes = false) (looked : ReadKept (s.arrived r) u)
    (answer : body (x.hear s.tim.now r) (s.arrived r) = (St.overwritten, [], u.bump Reg.dptOverwritten)) :
    ∃ t, run (receive r.port k i fun s => s.request f r body) s = .next t ∧ Replied t r f.op St.overwritten []
      ∧ Counted s t Reg.dptOverwritten 1 := by
  have low : Reg.lnkProvCtrl r.port < Reg.dptOverwritten := by
    have := r.port.isLt
    simp only [Reg.lnkProvCtrl, Reg.dptOverwritten]
    omega
  have prov : (u.bump Reg.dptOverwritten).get (Reg.lnkProvCtrl r.port) = (s.arrived r).get (Reg.lnkProvCtrl r.port) :=
    (State.get_bump_ne _ _ _ low.ne).trans (looked.get _ (low.trans (by decide)))
  obtain ⟨t, next, shown⟩ := run_answer_shows k i h hc answer looked.lnk prov
    ((looked.sessions r.session).trans h.found_isSome)
  have count : u.get Reg.dptOverwritten = s.get Reg.dptOverwritten :=
    (looked.get _ (by decide)).trans (s.get_arrived_above r (by decide))
  exact ⟨t, next, shown.replied, (u.counted_bump _).congr count.symm (shown.get _)⟩

end

/-! ### The statement -/

/-- Settles O23: QUEUE_READ takes cells off the front record, and RECORD_READ and UNIT_READ only look, but for what a lookup
of an item that is gone meets and counts. -/
theorem recordsAndUnitsAreRead : Obligations.RecordsAndUnitsAreRead := by
  unfold Obligations.RecordsAndUnitsAreRead
  refine ⟨?empty, ?last, ?more, ?misframed, ?record, ?recordGone, ?unit, ?unitGone, ?recordUnknown, ?recordWaits,
    ?unitUnknown⟩
  case empty => exact fun s r x n h low high none_ => queueRead_empty h low high none_
  case last =>
    intro s r x n e rest part h low high front whole cells ⟨c, final, ends⟩
    simpa only [ends, if_true, Bool.toNat_true, Nat.one_mul] using queueRead_cells h low high front whole cells final
  case more =>
    intro s r x n e rest part h low high front whole cells ⟨c, final, ends⟩
    simpa only [ends, Bool.false_eq_true, if_false, Bool.toNat_false, Nat.zero_mul, Nat.add_zero] using
      queueRead_cells h low high front whole cells final
  case misframed => exact fun s r x n e h low high front fresh broken => queueRead_misframed h low high front fresh broken
  case record =>
    intro s r x q o n c h given held within lines map listed
    obtain ⟨t, next, replied, dpt⟩ := recordRead_looks h (State.recordRead_held (n := n)
      (given.trans_eq (s.arrived_seqNext r).symm)
      ((congrFun (s.arrived_findRec r) _).trans held) within map lines (by rw [s.arrived_mapEnt r]; exact listed))
    exact ⟨t, next, dpt, replied⟩
  case recordGone =>
    intro s r x q o n h given gone passed
    exact run_overwritten (wireLen r) (.recordRead r q o n) h rfl (State.probeRec_readKept ..)
      (State.recordRead_gone (given.trans_eq (s.arrived_seqNext r).symm)
        ((congrFun (s.arrived_findRec r) _).trans gone) passed)
  case unit =>
    intro s r x q o n u d h given held within lines map listed head
    obtain ⟨t, next, replied, dpt⟩ := unitRead_looks h (State.unitRead_held (given.trans_eq (s.arrived_unitSeq r).symm)
      ((congrFun (s.arrived_findUnit r) _).trans held) within map lines (by rw [s.arrived_mapEnt r]; exact listed) head)
    exact ⟨t, next, dpt, replied⟩
  case unitGone =>
    intro s r x q o n h given gone
    exact run_overwritten (wireLen r) (.unitRead r q o n) h rfl (.refl _)
      (State.unitRead_gone (given.trans_eq (s.arrived_unitSeq r).symm) ((congrFun (s.arrived_findUnit r) _).trans gone))
  case recordUnknown =>
    exact fun s r x q o n h unknown => recordRead_looks h (State.recordRead_unknown ((s.arrived_seqNext r).trans_le unknown))
  case recordWaits =>
    intro s r x q o n h given gone waiting
    exact recordRead_looks h (State.recordRead_waiting (given.trans_eq (s.arrived_seqNext r).symm)
      ((congrFun (s.arrived_findRec r) _).trans gone) waiting)
  case unitUnknown =>
    exact fun s r x q o n h unknown => unitRead_looks h (State.unitRead_unknown ((s.arrived_unitSeq r).trans_le unknown))

end Sys2Proof.Machine
end

