-- ==== Sys2Proof/Proofs/RecordRouting.lean ====
section
/-! RECORD_SEND (R159–R164, R190): a built record goes to the Store, and as cells to the queues that QUE_ROUTE selects, whole
or skipped and counted. -/

namespace Sys2Proof.Machine

/-! ### Cells of a record (R161) -/

theorem length_beBytes (n v : Nat) : (beBytes n v).length = n := by
  induction n with
  | zero => rfl
  | succ n ih => rw [beBytes, List.length_cons, ih]

theorem length_toLines (n : Nat) : ∀ bs : List Byte, (bs.length + 63) / 64 ≤ n →
    (toLines n bs).length = (bs.length + 63) / 64 := by
  induction n with
  | zero => exact fun bs h => (Nat.le_zero.mp h).symm
  | succ n ih =>
    intro bs h
    cases bs with
    | nil => rfl
    | cons b bs =>
      have rest := ih ((b :: bs).drop 64) (by rw [List.length_drop]; omega)
      rw [List.length_drop] at rest
      rw [toLines, List.length_cons, rest]
      · rw [List.length_cons]
        omega
      · exact List.cons_ne_nil b bs

/-- The lines begin with the bytes; a pad follows. -/
theorem prefix_toLines (n : Nat) : ∀ bs : List Byte, (bs.length + 63) / 64 ≤ n → bs <+: (toLines n bs).flatten := by
  induction n with
  | zero =>
    intro bs h
    rw [List.eq_nil_of_length_eq_zero (by omega : bs.length = 0)]
    exact List.nil_prefix
  | succ n ih =>
    intro bs h
    cases bs with
    | nil => exact List.nil_prefix
    | cons b bs =>
      rw [toLines, List.flatten_cons]
      · generalize b :: bs = l at *
        rcases Nat.lt_or_ge l.length 64 with short | long
        · rw [List.take_of_length_le short.le, List.append_assoc]
          exact List.prefix_append ..
        · have rest := ih (l.drop 64) (by rw [List.length_drop]; omega)
          rw [Nat.sub_eq_zero_of_le long, List.replicate_zero, List.append_nil]
          conv => lhs; rw [← List.take_append_drop 64 l]
          exact (List.prefix_append_right_inj _).mpr rest
      · exact List.cons_ne_nil b bs

theorem withIdx_snd {α : Type} (l : List α) : (withIdx l).map Prod.snd = l :=
  List.map_snd_zip (by rw [List.length_range])

section
variable (to_ : Island) (flow type : Nat) (bytes : List Byte)

theorem length_cellsOf : (cellsOf to_ flow type bytes).length = (bytes.length + 63) / 64 := by
  have idx : (withIdx (linesOf bytes)).length = (linesOf bytes).length := by
    rw [← List.length_map (f := Prod.snd), withIdx_snd]
  rw [cellsOf, List.length_map, idx]
  exact length_toLines _ _ (by omega)

theorem cellBytes_cellsOf : cellBytes (cellsOf to_ flow type bytes) = (linesOf bytes).flatten := by
  conv => rhs; rw [← withIdx_snd (linesOf bytes)]
  rw [cellBytes, cellsOf, List.flatMap_map, List.flatMap_def]

/-- A record's cells without the pad are its bytes. -/
theorem take_cellBytes_cellsOf : (cellBytes (cellsOf to_ flow type bytes)).take bytes.length = bytes := by
  rw [cellBytes_cellsOf]
  exact (List.prefix_iff_eq_take.mp (prefix_toLines _ bytes (by omega))).symm

end

/-! ### The Store (R190) -/

theorem State.writeLine_recs (l : Nat) (d : List Byte) (s : State) : (s.writeLine l d).dpt.recs = s.dpt.recs := by
  unfold State.writeLine
  dsimp only
  split <;> rfl

theorem State.writeLines_recs (ds : List (List Byte)) : ∀ (l : Nat) (s : State),
    (s.writeLines l ds).dpt.recs = s.dpt.recs := by
  induction ds with
  | nil => exact fun _ _ => rfl
  | cons d ds ih => exact fun l s => (ih _ _).trans (s.writeLine_recs l d)

theorem State.writeDirectory_recs (b : Nat) (ring : Bool) (s : State) : (s.writeDirectory b ring).dpt.recs = s.dpt.recs := by
  unfold State.writeDirectory
  exact State.writeLines_recs ..

theorem State.storeDirectories_recs (s : State) : s.storeDirectories.dpt.recs = s.dpt.recs :=
  foldl_unobserved (fun s : State => s.dpt.recs) (fun b _ s => s.writeDirectory_recs b false) s

theorem State.storeRecord_depotKept (seq : Nat) (bytes : List Byte) (s : State) : DepotKept s (s.storeRecord seq bytes) :=
  (((State.allocate_depotKept ..).trans (State.writePart_depotKept ..)).withDpt _).trans
    (State.storeDirectories_depotKept _)

theorem State.storeRecord_holds (seq : Nat) (bytes : List Byte) (s : State) :
    ∃ r ∈ (s.storeRecord seq bytes).dpt.recs, r.seq = some seq ∧ r.stored = true ∧ r.length = bytes.length := by
  unfold State.storeRecord
  dsimp only
  rw [State.storeDirectories_recs]
  exact ⟨_, List.mem_append_right _ (List.mem_singleton.mpr rfl), rfl, rfl, rfl⟩

/-! ### The live queue (R163, R164) -/

/-- What a record takes up in the live queue. -/
def Built.liveNeed (b : Built) : Nat := if b.long then 64 else 64 * ((b.bytes.length + 63) / 64)

/-- A record's entry in the live queue: its cells, or those of a reference to it. -/
structure Built.Enters (b : Built) (e : LiveEnt) : Prop where
  seq : e.seq = b.seq
  length : e.length = b.bytes.length
  isRef : e.isRef = b.long
  taken : e.taken = 0
  bytes : b.long = false → e.bytes = b.bytes

section
variable (s : State) (b : Built)

/-- The cells with which a record enters the live queue. -/
def State.liveCells : List Cell :=
  let to_ : Island := .packetizer (if s.fld Reg.lnkMlStat 1 0 = 1 then 1 else 0)
  if b.long then cellsOf to_ 3 2 (beBytes 8 b.seq ++ beBytes 56 0) else cellsOf to_ 3 1 b.bytes

theorem State.length_liveCells : 64 * (s.liveCells b).length = b.liveNeed := by
  unfold State.liveCells Built.liveNeed
  dsimp only
  split
  · rw [length_cellsOf, List.length_append, length_beBytes, length_beBytes]
  · rw [length_cellsOf]

theorem State.toLive_eq : s.toLive b = if s.liveFill + b.liveNeed ≤ 8 * 2 ^ 20 then
    { s with que := { s.que with
        live := s.que.live ++ [⟨b.seq, b.bytes.length, s.liveCells b, b.long, 0, none, s.tim.now⟩] } }
    else (s.bump Reg.queLiveSkip).liveSkip b.seq := by
  rw [← s.length_liveCells b]
  rfl

theorem State.toLive_fits (room : s.liveFill + b.liveNeed ≤ 8 * 2 ^ 20) :
    ∃ e, b.Enters e ∧ s.toLive b = { s with que := { s.que with live := s.que.live ++ [e] } } := by
  refine ⟨⟨b.seq, b.bytes.length, s.liveCells b, b.long, 0, none, s.tim.now⟩, ⟨rfl, rfl, rfl, rfl, fun whole => ?_⟩,
    (s.toLive_eq b).trans (if_pos room)⟩
  simp only [LiveEnt.bytes, State.liveCells, whole, Bool.false_eq_true, if_false]
  exact take_cellBytes_cellsOf ..

/-- A record skipped from the live queue shows in its counter, in QUE_STAT and in QUE_LAST_SKIP (R164). -/
theorem State.toLive_full (full : 8 * 2 ^ 20 < s.liveFill + b.liveNeed) :
    (s.toLive b).que.live = s.que.live ∧ Counted s (s.toLive b) Reg.queLiveSkip 1
      ∧ (s.toLive b).bit Reg.queStat 3 = true
      ∧ (s.toLive b).get64 Reg.queLastSkipLo Reg.queLastSkipHi = BitVec.ofNat 64 b.seq := by
  rw [(s.toLive_eq b).trans (if_neg (Nat.not_le.mpr full))]
  have kept (a : Nat) (h : a ≠ Reg.queStat) : ((s.bump Reg.queLiveSkip).liveSkip b.seq).get a
      = ((s.bump Reg.queLiveSkip).set64 Reg.queLastSkipLo Reg.queLastSkipHi b.seq).get a := State.get_setBit_ne _ _ _ _ _ h
  have count : ((s.bump Reg.queLiveSkip).liveSkip b.seq).get Reg.queLiveSkip = (s.bump Reg.queLiveSkip).get Reg.queLiveSkip :=
    (kept _ (by decide)).trans (State.get_set64_ne _ _ _ _ _ (by decide) (by decide))
  refine ⟨rfl, (s.counted_bump _).congr rfl count, State.bit_setBit_same _ _ _ _ (by decide), ?_⟩
  rw [State.get64, kept _ (by decide), kept _ (by decide)]
  exact State.get64_set64 _ _ _ _ (by decide)

/-- Admission to the live queue touches nothing of the host-read queue, of the built records and of the Depot. -/
theorem State.toLive_kept : (s.toLive b).que.hostRead = s.que.hostRead ∧ (s.toLive b).que.built = s.que.built
    ∧ (s.toLive b).dpt = s.dpt ∧ (s.toLive b).get Reg.queHrSkip = s.get Reg.queHrSkip := by
  rw [s.toLive_eq b]
  split
  · exact ⟨rfl, rfl, rfl, rfl⟩
  · exact ⟨rfl, rfl, rfl, (State.get_setBit_ne _ _ _ _ _ (by decide)).trans
      ((State.get_set64_ne _ _ _ _ _ (by decide) (by decide)).trans (State.get_bump_ne _ _ _ (by decide)))⟩

/-! ### The host-read queue (R164) -/

theorem State.toHostRead_fits (whole : b.long = false) (room : s.hrFill + (b.bytes.length + 63) / 64 * 64 ≤ 256 * 1024) :
    (s.toHostRead b).que.hostRead = s.que.hostRead ++ [⟨b.seq, cellsOf .registerPort 3 1 b.bytes, 0⟩] := by
  simp only [State.toHostRead, whole, room, Bool.not_false, decide_true, Bool.and_true, if_true]

theorem State.toHostRead_full (full : b.long = true ∨ 256 * 1024 < s.hrFill + (b.bytes.length + 63) / 64 * 64) :
    (s.toHostRead b).que.hostRead = s.que.hostRead ∧ Counted s (s.toHostRead b) Reg.queHrSkip 1 := by
  have refused : (!b.long && decide (s.hrFill + (b.bytes.length + 63) / 64 * 64 ≤ 256 * 1024)) = false := by
    rcases full with long | full
    · rw [long]
      rfl
    · rw [decide_eq_false (Nat.not_le.mpr full), Bool.and_false]
  rw [State.toHostRead, if_neg (Bool.eq_false_iff.mp refused)]
  exact ⟨rfl, s.counted_bump _⟩

/-- Admission to the host-read queue touches nothing else but QUE_HR_SKIP. -/
theorem State.toHostRead_kept : (s.toHostRead b).que.live = s.que.live ∧ (s.toHostRead b).que.built = s.que.built
    ∧ (s.toHostRead b).dpt = s.dpt ∧ ∀ a, a ≠ Reg.queHrSkip → (s.toHostRead b).get a = s.get a := by
  unfold State.toHostRead
  split
  · exact ⟨rfl, rfl, rfl, fun _ _ => rfl⟩
  · exact ⟨rfl, rfl, rfl, fun _ h => State.get_bump_ne _ _ _ h⟩

end

/-! ### A built record's way -/

section
variable (s : State) (b : Built)

/-- The QUE_ROUTE field of a record's kind. -/
def State.routeOf : Nat := s.fld Reg.queRoute (2 * b.kind + 1) (2 * b.kind)

/-- The record in the Store, where a long-path record stands already. -/
def State.keepRecord : State := if b.long then s else s.storeRecord b.seq b.bytes

def State.offerLive : State := if s.routeOf b % 2 = 1 then (s.keepRecord b).toLive b else s.keepRecord b

def State.offerHostRead : State := if 2 ≤ s.routeOf b then (s.offerLive b).toHostRead b else s.offerLive b

theorem State.keepRecord_depotKept : DepotKept s (s.keepRecord b) := by
  unfold State.keepRecord
  split
  · exact .refl s
  · exact State.storeRecord_depotKept ..

variable {s b}

theorem recordSend_due (due : s.nextBuilt = some b) : recordSend s = { s.offerHostRead b with
    que := { (s.offerHostRead b).que with
      built := (s.offerHostRead b).que.built.filter fun x => x.seq != b.seq
      staging := (s.offerHostRead b).que.staging - b.staged } } := by
  have route : (if b.long = true then s else s.storeRecord b.seq b.bytes).fld Reg.queRoute (2 * b.kind + 1) (2 * b.kind)
      = s.routeOf b := congrArg (bits · (2 * b.kind + 1) (2 * b.kind)) ((s.keepRecord_depotKept b).2 _ (by decide))
  simp only [recordSend, due, route]
  rfl

theorem State.offerLive_unrouted (h : s.routeOf b % 2 = 0) : s.offerLive b = s.keepRecord b :=
  if_neg (by omega)

theorem State.offerLive_routed (h : s.routeOf b % 2 = 1) : s.offerLive b = (s.keepRecord b).toLive b := if_pos h

theorem State.offerHostRead_routed (h : 2 ≤ s.routeOf b) : s.offerHostRead b = (s.offerLive b).toHostRead b := if_pos h

variable (s b)

theorem State.keepRecord_que : (s.keepRecord b).que = s.que := (s.keepRecord_depotKept b).que

theorem State.keepRecord_liveFill : (s.keepRecord b).liveFill = s.liveFill := by
  rw [State.liveFill, State.keepRecord_que, State.liveFill]

theorem State.get_keepRecord {a : Nat} (h : a < Reg.dptCtrl) : (s.keepRecord b).get a = s.get a :=
  (s.keepRecord_depotKept b).2 a h

/-- What the offer to the live queue leaves to the host-read queue and the Depot. -/
theorem State.offerLive_kept : (s.offerLive b).que.hostRead = s.que.hostRead ∧ (s.offerLive b).que.built = s.que.built
    ∧ (s.offerLive b).dpt = (s.keepRecord b).dpt ∧ (s.offerLive b).get Reg.queHrSkip = s.get Reg.queHrSkip := by
  have stored := s.keepRecord_que b
  have count := s.get_keepRecord b (show Reg.queHrSkip < Reg.dptCtrl by decide)
  unfold State.offerLive
  split
  · obtain ⟨host, built, dpt, skips⟩ := (s.keepRecord b).toLive_kept b
    exact ⟨host.trans (congrArg Que.hostRead stored), built.trans (congrArg Que.built stored), dpt, skips.trans count⟩
  · exact ⟨congrArg Que.hostRead stored, congrArg Que.built stored, rfl, count⟩

/-- What the offer to the host-read queue leaves to the live queue and the Depot. -/
theorem State.offerHostRead_kept : (s.offerHostRead b).que.live = (s.offerLive b).que.live
    ∧ (s.offerHostRead b).que.built = s.que.built ∧ (s.offerHostRead b).dpt = (s.keepRecord b).dpt
    ∧ ∀ a, a ≠ Reg.queHrSkip → (s.offerHostRead b).get a = (s.offerLive b).get a := by
  obtain ⟨-, built, dpt, -⟩ := s.offerLive_kept b
  unfold State.offerHostRead
  split
  · obtain ⟨live, built', dpt', get⟩ := (s.offerLive b).toHostRead_kept b
    exact ⟨live, built'.trans built, dpt'.trans dpt, get⟩
  · exact ⟨rfl, built, dpt, fun _ _ => rfl⟩

theorem State.offerLive_hrFill : (s.offerLive b).hrFill = s.hrFill := by
  rw [State.hrFill, (s.offerLive_kept b).1, State.hrFill]

end

/-- The record whose turn it is goes its way (R159–R164, R190). -/
theorem recordSend_routes (s : State) (b : Built) (due : s.nextBuilt = some b) :
    ∃ u, exec .recordSend s = .next u ∧ u.que.built = s.que.built.filter (fun x => x.seq != b.seq)
      ∧ (b.long = false → ∃ r ∈ u.dpt.recs, r.seq = some b.seq ∧ r.stored = true ∧ r.length = b.bytes.length)
      ∧ (s.routeOf b % 2 = 0 → u.que.live = s.que.live)
      ∧ (s.routeOf b % 2 = 1 → s.liveFill + b.liveNeed ≤ 8 * 2 ^ 20 → ∃ e, u.que.live = s.que.live ++ [e] ∧ b.Enters e)
      ∧ (s.routeOf b % 2 = 1 → 8 * 2 ^ 20 < s.liveFill + b.liveNeed →
          u.que.live = s.que.live ∧ Counted s u Reg.queLiveSkip 1 ∧ u.bit Reg.queStat 3 = true
            ∧ u.get64 Reg.queLastSkipLo Reg.queLastSkipHi = BitVec.ofNat 64 b.seq)
      ∧ (2 ≤ s.routeOf b → b.long = false → s.hrFill + (b.bytes.length + 63) / 64 * 64 ≤ 256 * 1024 →
          u.que.hostRead = s.que.hostRead ++ [⟨b.seq, cellsOf .registerPort 3 1 b.bytes, 0⟩])
      ∧ (2 ≤ s.routeOf b → (b.long = true ∨ 256 * 1024 < s.hrFill + (b.bytes.length + 63) / 64 * 64) →
          u.que.hostRead = s.que.hostRead ∧ Counted s u Reg.queHrSkip 1) := by
  have stored := s.keepRecord_que b
  obtain ⟨host, -, -, skips⟩ := s.offerLive_kept b
  obtain ⟨live, built, dpt, get⟩ := s.offerHostRead_kept b
  refine ⟨_, run_next (recordSend_due due), congrArg (List.filter _) built, fun whole => ?_, fun off => ?_, fun on room => ?_,
    fun on full => ?_, fun on whole room => ?_, fun on full => ?_⟩
  · have kept : s.keepRecord b = s.storeRecord b.seq b.bytes := if_neg (Bool.eq_false_iff.mp whole)
    have held := s.storeRecord_holds b.seq b.bytes
    rw [← kept, ← dpt] at held
    exact held
  · rw [State.offerLive_unrouted off, stored] at live
    exact live
  · obtain ⟨e, enters, offered⟩ := (s.keepRecord b).toLive_fits b (by rw [s.keepRecord_liveFill]; exact room)
    rw [State.offerLive_routed on, offered, stored] at live
    exact ⟨e, live, enters⟩
  · obtain ⟨same, count, stat, last⟩ := (s.keepRecord b).toLive_full b (by rw [s.keepRecord_liveFill]; exact full)
    rw [State.offerLive_routed on] at live get
    refine ⟨live.trans (same.trans (congrArg Que.live stored)),
      count.congr (s.get_keepRecord b (by decide)).symm (get _ (by decide)),
      (congrArg (BitVec.getLsbD · 3) (get _ (by decide))).trans stat, Eq.trans ?_ last⟩
    exact congrArg₂ (fun hi lo : Word => (hi ++ lo : BitVec 64)) (get _ (by decide)) (get _ (by decide))
  · have fits := (s.offerLive b).toHostRead_fits b whole (by rw [s.offerLive_hrFill]; exact room)
    rw [← State.offerHostRead_routed on, host] at fits
    exact fits
  · obtain ⟨same, count⟩ := (s.offerLive b).toHostRead_full b (by rw [s.offerLive_hrFill]; exact full)
    rw [← State.offerHostRead_routed on] at same count
    exact ⟨same.trans host, count.congr skips.symm rfl⟩

end Sys2Proof.Machine
end

