-- ==== Sys2Proof/Proofs/Segments.lean ====
section
/-! A BDT segment as it leaves (R289–R293, R303): what a new segment does to its stream, its counter and the output, and with
it the heartbeats and the exercise stream. -/

namespace Sys2Proof.Machine

/-! ### Ports -/

section
variable {s u : State} {p : Nat}

/-- A port stays as it is while no register below the queues' and nothing of its links changes. -/
theorem State.portLive_congr (port : p < 7) (low : ∀ a, a < Reg.queRoute → u.get a = s.get a) (modes : u.modes = s.modes) :
    u.portLive p = s.portLive p := by
  have stat := low (Reg.lnkPortStat p) (by simp only [Reg.lnkPortStat, Reg.queRoute]; omega)
  have pll := low Reg.clkPllStat (by decide)
  have source := low (Reg.clkSrcStat 2) (by decide)
  have gates := low Reg.clkGateStatMisc (by decide)
  have gated (i : Nat) (h : ¬ i < 32) : u.gated i = s.gated i := by
    rw [State.gated, State.gated, if_neg h, if_neg h, State.bit, State.bit, gates]
  unfold State.portLive State.portUp State.portClocked State.lineOn State.bit State.fld
  rw [stat, pll, source, modes, gated 33 (by decide), gated 34 (by decide), gated 35 (by decide)]

theorem State.Quiet.carried (quiet : s.Quiet p) (port : p < 7) (low : ∀ a, a < Reg.queRoute → u.get a = s.get a)
    (modes : u.modes = s.modes) (heldTx : u.lnk.heldTx = s.lnk.heldTx) (heldRx : u.lnk.heldRx = s.lnk.heldRx) :
    u.Quiet p where
  live := (State.portLive_congr port low modes).trans quiet.live
  plain := (congrArg (BitVec.getLsbD · 31)
    (low (Reg.lnkProvCtrl p) (by simp only [Reg.lnkProvCtrl, Reg.queRoute]; omega))).trans quiet.plain
  heldTx := heldTx ▸ quiet.heldTx
  heldRx := heldRx ▸ quiet.heldRx

/-- What goes out through a quiet port leaves at once. -/
theorem State.send_quiet (x : Tx) (quiet : s.Quiet p) : s.send p x = s.emit x := by
  rw [State.send_plain s p x quiet.plain quiet.heldTx, if_pos quiet.live]

end

/-- Ports with nothing waiting behind live traffic. -/
theorem State.flushResends_none {s : State} (none_ : s.lnk.resends = []) : s.flushResends = s := by
  rw [State.flushResends, none_, List.foldl_nil, ite_self]

/-! ### Streams -/

theorem State.stream_id {s : State} {id : BitVec 16} {x : Stream} (h : s.stream id = some x) : x.id = id := by
  simpa using List.find?_some h

theorem find_replaced (l : List Stream) (x : Stream) (h : (l.any fun y => y.id = x.id) = true) :
    (l.map fun y => if y.id = x.id then x else y).find? (fun y => y.id = x.id) = some x := by
  induction l with
  | nil => simp at h
  | cons y l ih =>
    by_cases same : y.id = x.id
    · simp [same]
    · simp only [List.any_cons, same, decide_false, Bool.false_or] at h
      simp [same, ih h]

theorem State.stream_putStream (s : State) (x : Stream) : (s.putStream x).stream x.id = some x := by
  unfold State.putStream State.stream State.withLnk
  dsimp only
  split
  case isTrue known => exact find_replaced _ x known
  case isFalse fresh =>
    have none_ : s.lnk.streams.find? (fun y => y.id = x.id) = none := by
      simpa using fresh
    rw [List.find?_append, none_]
    simp

/-! ### A new segment (R290, R292, R296) -/

/-- FLAGS of a new segment. -/
def Fill.flags (f : Fill) (last : Bool) : BitVec 16 :=
  (if f.damaged then flagDamaged else 0) ||| (if last then flagEnd else 0)
    ||| (if f.parts.any fun q => isUnit q.1 then flagUnits else 0)

/-- ITEM_SEQ of a new segment. -/
def Fill.item (f : Fill) : Nat :=
  match f.parts with
  | q :: _ => itemNumber q.1
  | [] => 0

/-- The segment that a stream sends next. -/
def State.segOf (s : State) (p : Fin 2) (x : Stream) (f : Fill) (last : Bool) : Seg :=
  ⟨x.next, p, f.parts, f.first.getD 0xFFFF, f.flags last, s.tim.now, s.lnk.order, 0, s.tim.now + usU 800⟩

/-- A stream with a segment sent. -/
def Stream.sends (x : Stream) (g : Seg) (last : Bool) : Stream :=
  { x with next := x.next + 1, segs := x.segs ++ [g], ended := x.ended || last }

/-- The state with a segment held by its stream, its operation and its slot, before it goes out. -/
def State.segHeld (p : Fin 2) (x : Stream) (f : Fill) (last : Bool) (s : State) : State :=
  let s := (s.putStream (x.sends (s.segOf p x f last) last)).withLnk fun l => { l with order := l.order + 1 }
  let s := match x.op with
    | some o => s.updOpRef o fun y => { y with bytes := x.sentBytes }
    | none => s
  match x.slot with
  | some h => s.set (Reg.dptHoldDrainedMib h) (BitVec.ofNat 32 (x.sentBytes / 2 ^ 20))
  | none => s

/-- A segment has gone out: its stream holds it, and nothing else of the links, the queues and the Depot has changed. -/
structure SegmentSent (s u : State) (p : Fin 2) (b : Bind) (x : Stream) (f : Fill) (last : Bool) : Prop where
  stream : u.stream x.id = some (x.sends (s.segOf p x f last) last)
  tx : u.tx = s.tx ++ [.data p b x.id x.next (f.flags last) (f.first.getD 0xFFFF) f.item f.bytes]
  counted : (u.get64 Reg.lnkSegsLo Reg.lnkSegsHi).toNat
    = min (2 ^ 64 - 1) ((s.get64 Reg.lnkSegsLo Reg.lnkSegsHi).toNat + 1)
  get : ∀ a, a < Reg.dptPoisonReads → a ≠ Reg.lnkSegsLo → a ≠ Reg.lnkSegsHi → u.get a = s.get a
  dpt : u.dpt = s.dpt
  resends : u.lnk.resends = s.lnk.resends

section
variable (p : Fin 2) (x : Stream) (f : Fill) (last : Bool) (s : State)

theorem State.segHeld_rest : ∃ regs bcp streams, s.segHeld p x f last
    = { s with regs := regs, bcp := bcp, lnk := { s.lnk with streams := streams, order := s.lnk.order + 1 } } := by
  unfold State.segHeld
  cases x.op <;> cases x.slot <;> exact ⟨_, _, _, rfl⟩

theorem State.segHeld_stream : (s.segHeld p x f last).stream x.id = some (x.sends (s.segOf p x f last) last) := by
  have put := s.stream_putStream (x.sends (s.segOf p x f last) last)
  unfold State.segHeld
  cases x.op <;> cases x.slot <;> exact put

theorem State.get_segHeld {a : Nat} (h : a < Reg.dptPoisonReads) : (s.segHeld p x f last).get a = s.get a := by
  unfold State.segHeld
  cases x.slot with
  | none => cases x.op <;> rfl
  | some k =>
    have apart : a ≠ Reg.dptHoldDrainedMib k := by
      simp only [Reg.dptPoisonReads, Reg.dptHoldDrainedMib] at h ⊢
      omega
    cases x.op <;> exact State.get_set_ne _ _ _ _ apart

variable {s}

theorem State.newSegment_eq {b : Bind} (bound : s.bindOf p = some b) : s.newSegment p x f last
    = ((s.segHeld p x f last).send p (.data p b x.id x.next (f.flags last) (f.first.getD 0xFFFF) f.item f.bytes)).bump64
      Reg.lnkSegsLo Reg.lnkSegsHi 1 := by
  simp only [State.newSegment, bound]
  rfl

theorem State.newSegment_sent {b : Bind} (bound : s.bindOf p = some b) (quiet : s.Quiet p) :
    SegmentSent s (s.newSegment p x f last) p b x f last := by
  have held := s.segHeld_stream p x f last
  have get (a : Nat) (h : a < Reg.dptPoisonReads) := s.get_segHeld p x f last h
  obtain ⟨regs, bcp, streams, rest⟩ := s.segHeld_rest p x f last
  have ready : (s.segHeld p x f last).Quiet p :=
    quiet.carried (by omega) (fun a h => get a (Nat.lt_trans h (by decide))) (congrArg State.modes rest :)
      (congrArg (fun u : State => u.lnk.heldTx) rest :) (congrArg (fun u : State => u.lnk.heldRx) rest :)
  rw [State.newSegment_eq p x f last bound, State.send_quiet _ ready]
  have before : (s.segHeld p x f last).get64 Reg.lnkSegsLo Reg.lnkSegsHi = s.get64 Reg.lnkSegsLo Reg.lnkSegsHi :=
    congrArg₂ (fun hi lo : Word => (hi ++ lo : BitVec 64)) (get _ (by decide)) (get _ (by decide))
  exact
    { stream := held
      tx := (congrArg (fun u : State => u.tx ++ [_]) rest :)
      counted := by
        rw [State.bump64, State.get64_set64 _ _ _ _ (by decide), BitVec.toNat_ofNat, ← before]
        exact Nat.mod_eq_of_lt (by omega)
      get := fun a h lo hi => (State.get_set64_ne _ _ _ _ _ lo hi).trans (get a h)
      dpt := (congrArg State.dpt rest :)
      resends := (congrArg (fun u : State => u.lnk.resends) rest :) }

end

/-! ### HEARTBEATs (R293) -/

theorem heartbeat_leaves (s : State) (p : Fin 2) (b : Bind) (quiet : s.Quiet p) (bound : s.bindOf p = some b)
    (up : s.mlUp p = true) : ∃ u, exec (.heartbeat p) s = .next u ∧ u.regs = s.regs
      ∧ u.tx = s.tx ++ [.heartbeat p b (((s.stream 0).map fun x => x.next).getD 0)
        (if s.isActive p then flagActive else 0) s.tim.mt] := by
  have sent : heartbeat p s = s.emit (.heartbeat p b (((s.stream 0).map fun x => x.next).getD 0)
      (if s.isActive p then flagActive else 0) s.tim.mt) := by
    simp only [heartbeat, bound, up, if_true]
    exact State.send_quiet _ quiet
  exact ⟨_, run_next sent, rfl, rfl⟩

/-! ### An empty live queue -/

section
variable {s : State} (empty : s.que.live = [])
include empty

theorem State.liveOffers_empty : s.liveOffers = 0 := by rw [State.liveOffers, empty, List.map_nil, List.sum_nil]

theorem State.dropDead_empty : s.dropDead = s := by rw [State.dropDead, empty]; rfl

/-- With nothing in the live queue and nothing to send again, the exercise stream has its turn (R303); … -/
theorem bdtDataSend_exercise {p : Fin 2} (none_ : s.lnk.resends = [])
    (window : s.unsettledOn p < s.fld Reg.lnkBdtCfg 31 16) :
    bdtDataSend p exerciseStream s = s.sendExercise p := by
  simp only [bdtDataSend, State.dropDead_empty empty, ite_self, if_neg (Nat.not_le.mpr window), if_true,
    State.flushResends_none none_]

/-- … and any other stream but the live one has its (R163, R289). -/
theorem bdtDataSend_stream {p : Fin 2} {id : BitVec 16} (none_ : s.lnk.resends = []) (serves : s.mlServes p = true)
    (window : s.unsettledOn p < s.fld Reg.lnkBdtCfg 31 16) (other : id ≠ 0) (notExercise : id ≠ exerciseStream) :
    bdtDataSend p id s = s.sendStream p id := by
  simp only [bdtDataSend, State.dropDead_empty empty, ite_self, if_neg (Nat.not_le.mpr window), if_neg notExercise, serves,
    Bool.not_true, Bool.false_eq_true, if_false, if_neg other, State.liveOffers_empty empty, Nat.lt_irrefl,
    State.flushResends_none none_]

end

/-! ### The exercise stream (R303) -/

/-- A segment's fill of PRBS31. -/
def prbsFill (n r : Nat) : Fill := ⟨[(.prbs, r, n)], (prbsBytes n r).1, none, false⟩

theorem prbsFill_flags (n r : Nat) (last : Bool) : (prbsFill n r).flags last = if last then flagEnd else 0 := by
  simp [Fill.flags, prbsFill, isUnit]

section
variable {s : State} {b : Bind} {x : Stream}

/-- The exercise stream's segment goes out; with the last one the exercise ends, or begins afresh. -/
theorem State.sendExercise_eq (quiet : s.Quiet 1) (up : s.mlUp 1 = true) (bound : s.lnk.bindB = some b)
    (running : s.stream exerciseStream = some x) (open_ : x.ended = false) (empty : s.que.live = []) :
    s.sendExercise 1 =
      let t := s.newSegment 1 { x with prbs := (prbsBytes s.segBytes x.prbs).2 } (prbsFill s.segBytes x.prbs) x.stopped
      if !x.stopped then t
      else if t.bit Reg.lnkMlCtrl 9 then t.putStream (Stream.fresh exerciseStream)
      else t.setBit Reg.lnkMlStat 10 false := by
  have live : s.portLive 1 = true := quiet.live
  simp only [State.sendExercise, running, open_, live, up, bound, State.liveOffers_empty empty]
  simp only [bne_self_eq_false, Bool.and_self, Bool.not_true, Option.isNone_some, Nat.lt_irrefl, decide_false, Bool.and_false,
    Bool.or_self, Bool.false_eq_true, if_false]
  rfl

theorem exercise_leaves (quiet : s.Quiet 1) (up : s.mlUp 1 = true) (bound : s.lnk.bindB = some b)
    (window : s.unsettledOn 1 < s.fld Reg.lnkBdtCfg 31 16) (running : s.stream exerciseStream = some x)
    (open_ : x.ended = false) (none_ : s.lnk.resends = []) (empty : s.que.live = []) :
    ∃ u y, exec (.bdtDataSend 1 exerciseStream) s = .next u ∧ u.stream exerciseStream = some y
      ∧ u.tx = s.tx ++ [.data 1 b x.id x.next (if x.stopped then flagEnd else 0) 0xFFFF 0 (prbsBytes s.segBytes x.prbs).1]
      ∧ ((x.stopped = false ∨ s.bit Reg.lnkMlCtrl 9 = false) → y.ended = x.stopped ∧ y.next = x.next + 1
          ∧ y.prbs = (prbsBytes s.segBytes x.prbs).2)
      ∧ (x.stopped = true → s.bit Reg.lnkMlCtrl 9 = false → u.bit Reg.lnkMlStat 10 = false)
      ∧ (x.stopped = true → s.bit Reg.lnkMlCtrl 9 = true → y = Stream.fresh exerciseStream
          ∧ u.bit Reg.lnkMlStat 10 = s.bit Reg.lnkMlStat 10) := by
  have id : x.id = exerciseStream := State.stream_id running
  have sent := State.newSegment_sent 1 { x with prbs := (prbsBytes s.segBytes x.prbs).2 } (prbsFill s.segBytes x.prbs)
    x.stopped (show s.bindOf 1 = some b from bound) quiet
  have eq := (bdtDataSend_exercise empty none_ window).trans
    (State.sendExercise_eq quiet up bound running open_ empty)
  dsimp only at eq
  generalize s.newSegment 1 _ _ _ = t at eq sent
  have stream : t.stream exerciseStream = some _ := id ▸ sent.stream
  have tx := sent.tx
  rw [prbsFill_flags] at tx
  have again : t.bit Reg.lnkMlCtrl 9 = s.bit Reg.lnkMlCtrl 9 :=
    congrArg (BitVec.getLsbD · 9) (sent.get _ (by decide) (by decide) (by decide))
  have shown : t.bit Reg.lnkMlStat 10 = s.bit Reg.lnkMlStat 10 :=
    congrArg (BitVec.getLsbD · 10) (sent.get _ (by decide) (by decide) (by decide))
  have ends : (x.ended || x.stopped) = x.stopped := by rw [open_, Bool.false_or]
  cases stopped : x.stopped with
  | false =>
    rw [stopped, Bool.not_false, if_pos rfl] at eq
    exact ⟨_, _, run_next eq, stream, stopped ▸ tx, fun _ => ⟨stopped ▸ ends, rfl, rfl⟩, nofun, nofun⟩
  | true =>
    rw [stopped, Bool.not_true, if_neg Bool.false_ne_true, again] at eq
    cases begins : s.bit Reg.lnkMlCtrl 9 with
    | false =>
      rw [begins, if_neg Bool.false_ne_true] at eq
      exact ⟨_, _, run_next eq, stream, stopped ▸ tx, fun _ => ⟨stopped ▸ ends, rfl, rfl⟩,
        fun _ _ => State.bit_setBit_same _ _ _ _ (by decide), nofun⟩
    | true =>
      rw [begins, if_pos rfl] at eq
      exact ⟨_, _, run_next eq, State.stream_putStream t (Stream.fresh exerciseStream), stopped ▸ tx, by simp, nofun,
        fun _ _ => ⟨rfl, shown⟩⟩

end

end Sys2Proof.Machine
end

