-- ==== Sys2Proof/Proofs/LiveSegments.lean ====
section
/-! Segments of the live queue (R163–R168, R289, R292): entries are taken in order from the head, and their bytes leave as the
live stream's next segment. -/

namespace Sys2Proof.Machine

/-! ### What taking entries leaves -/

/-- Taking entries has touched the queue, the Depot and the attention of the sessions, and no register below the queues'. -/
structure LiveKept (s u : State) : Prop where
  rest : u = { s.depotInto u with que := u.que }
  get : ∀ a, a < Reg.queRoute → u.get a = s.get a

namespace LiveKept
variable {s u v : State}

theorem refl (s : State) : LiveKept s s := ⟨rfl, fun _ _ => rfl⟩

theorem trans (h : LiveKept s u) (k : LiveKept u v) : LiveKept s v where
  rest := Eq.trans k.rest (congrArg (fun w : State => { w.depotInto v with que := v.que }) h.rest :)
  get a ha := (k.get a ha).trans (h.get a ha)

theorem withQue (h : LiveKept s u) (q : Que) : LiveKept s { u with que := q } := h.trans ⟨rfl, fun _ _ => rfl⟩

theorem lnk (h : LiveKept s u) : u.lnk = s.lnk := (congrArg State.lnk h.rest :)
theorem tim (h : LiveKept s u) : u.tim = s.tim := (congrArg State.tim h.rest :)
theorem modes (h : LiveKept s u) : u.modes = s.modes := (congrArg State.modes h.rest :)
theorem tx (h : LiveKept s u) : u.tx = s.tx := (congrArg State.tx h.rest :)

end LiveKept

theorem ReadKept.liveKept {s u : State} (h : ReadKept s u) : LiveKept s u where
  rest := Eq.trans h.rest (congrArg (fun q : Que => { s.depotInto u with que := q }) h.que.symm :)
  get a ha := h.get a (Nat.lt_trans ha (by decide))

theorem State.skipEnt_liveKept (e : LiveEnt) (rest : List LiveEnt) (s : State) : LiveKept s (s.skipEnt e rest) := by
  have skipped (u : State) : LiveKept u { (u.bump Reg.queLiveSkip).liveSkip e.seq with que := { u.que with live := rest } } :=
    { rest := rfl
      get := fun a ha =>
        have apart {b : Nat} (h : Reg.queRoute ≤ b) : a ≠ b := (Nat.lt_of_lt_of_le ha h).ne
        (State.get_setBit_ne _ _ _ _ _ (apart (by decide))).trans
          ((State.get_set64_ne _ _ _ _ _ (apart (by decide)) (apart (by decide))).trans
            (State.get_bump_ne _ _ _ (apart (by decide)))) }
  unfold State.skipEnt
  dsimp only
  split
  · refine LiveKept.trans (u := s.bump Reg.queFraming) ⟨rfl, fun a ha => State.get_bump_ne _ _ _ ?_⟩ (skipped _)
    exact (Nat.lt_trans ha (by decide)).ne
  · exact skipped s

/-! ### Filling a segment -/

/-- A fill that goes on from another. -/
structure Fill.Extends (f g : Fill) : Prop where
  parts : f.parts <+: g.parts
  bytes : f.bytes <+: g.bytes

theorem Fill.Extends.refl (f : Fill) : f.Extends f := ⟨List.prefix_rfl, List.prefix_rfl⟩

theorem Fill.Extends.add (f : Fill) (i : Item) (a : Nat) (bs : List Byte) (bad : List Nat) : f.Extends (f.add i a bs bad) :=
  ⟨List.prefix_append .., List.prefix_append ..⟩

theorem Fill.Extends.trans {f g h : Fill} (x : f.Extends g) (y : g.Extends h) : f.Extends h :=
  ⟨x.parts.trans y.parts, x.bytes.trans y.bytes⟩

/-- An entry as it is served: what a reference names is read from the Store first (R160). -/
def State.openEnt (e : LiveEnt) (s : State) : LiveEnt × State :=
  if e.isRef && e.read.isNone then
    let q := s.probeRec e.seq .uplink
    let r := q.readPart .uplink (.record e.seq) 0 e.length
    ({ e with read := some ((r.1.map fun x => x.2).getD [], r.2.badLines (.record e.seq)) }, r.2)
  else (e, s)

/-- The bytes that an entry gives to a segment with room for `n`. -/
def LiveEnt.part (e : LiveEnt) (n : Nat) : List Byte := (e.bytes.drop e.taken).take n

/-- The queue after an entry has given its bytes: it goes with its last one. -/
def State.takeEnt (e : LiveEnt) (rest : List LiveEnt) (n : Nat) (saf : Bool) (s : State) : State :=
  { s with que := { s.que with
      live := if e.bytes.length ≤ e.taken + (e.part n).length then rest
        else { e with taken := e.taken + (e.part n).length, at_ := s.tim.now } :: rest
      saf := saf } }

section
variable {s : State} {e : LiveEnt} {rest : List LiveEnt}

theorem State.openEnt_readKept (e : LiveEnt) (s : State) : ReadKept s (s.openEnt e).2 := by
  unfold State.openEnt
  split
  · exact (State.probeRec_readKept ..).trans (State.readPart_readKept ..)
  · exact .refl s

theorem State.openEnt_cells (h : e.isRef = false) : s.openEnt e = (e, s) := by
  rw [State.openEnt, h]
  rfl

/-- The entry at the head, if it can be served, gives what it has to the segment. -/
theorem State.fillLive_serves {fuel n : Nat} (f : Fill) (live : s.que.live = e :: rest) (room : n ≠ 0)
    (served : (s.entGone e || s.misframed e) = false) :
    State.fillLive (fuel + 1) n f s =
      let o := s.openEnt e
      State.fillLive fuel (n - (o.1.part n).length)
        (f.add (.record o.1.seq) o.1.taken (o.1.part n) ((o.1.read.map fun x => x.2).getD []))
        (o.2.takeEnt o.1 rest n (if e.taken = 0 then s.safNow else s.que.saf)) := by
  rw [State.fillLive, if_neg room]
  simp only [live, served, Bool.false_eq_true, if_false]
  unfold State.openEnt
  split <;> rfl

/-- Filling takes entries, and only adds to the segment. -/
theorem State.fillLive_extends (fuel : Nat) : ∀ (n : Nat) (f : Fill) (s : State),
    LiveKept s (State.fillLive fuel n f s).2 ∧ f.Extends (State.fillLive fuel n f s).1 := by
  induction fuel with
  | zero => exact fun _ f s => ⟨.refl s, .refl f⟩
  | succ fuel ih =>
    intro n f s
    by_cases room : n = 0
    case pos =>
      rw [State.fillLive, if_pos room]
      exact ⟨.refl s, .refl f⟩
    case neg =>
      cases live : s.que.live with
      | nil =>
        rw [State.fillLive, if_neg room, live]
        exact ⟨.refl s, .refl f⟩
      | cons e rest =>
        cases served : s.entGone e || s.misframed e with
        | true =>
          rw [State.fillLive, if_neg room]
          simp only [live, served, if_true]
          obtain ⟨kept, ext⟩ := ih n f (s.skipEnt e rest)
          exact ⟨(s.skipEnt_liveKept e rest).trans kept, ext⟩
        | false =>
          rw [State.fillLive_serves f live room served]
          dsimp only
          obtain ⟨kept, ext⟩ := ih _ _ _
          exact ⟨((s.openEnt_readKept e).liveKept.withQue _).trans kept, (Fill.Extends.add ..).trans ext⟩

/-- The head of the live queue is an entry that can be served. -/
theorem State.served_of {s : State} {e : LiveEnt} (cells : e.isRef = false) (whole : s.misframed e = false) :
    (s.entGone e || s.misframed e) = false := by
  rw [State.entGone, cells, whole]
  rfl

/-- A segment that begins with cells at the head of the live queue leaves from a state in which only the queue, the Depot and
the sessions' attention have moved on. -/
theorem State.sendLive_sends {n : Nat} (p : Fin 2) (live : s.que.live = e :: rest) (cells : e.isRef = false)
    (whole : s.misframed e = false) (room : n ≠ 0) :
    ∃ t f, LiveKept s t ∧ s.sendLive p n = t.newSegment p ((s.stream 0).getD (Stream.fresh 0)) f false
      ∧ f.item = e.seq ∧ ∃ more, f.bytes = e.part n ++ more := by
  have served := State.served_of cells whole
  obtain ⟨kept, -⟩ := State.fillLive_extends (n + s.que.live.length + 1) n Fill.empty s
  have serves := State.fillLive_serves (fuel := n + s.que.live.length) Fill.empty live room served
  rw [State.openEnt_cells cells] at serves
  dsimp only at serves
  obtain ⟨-, parts, bytes⟩ := State.fillLive_extends (n + s.que.live.length) (n - (e.part n).length)
    (Fill.empty.add (.record e.seq) e.taken (e.part n) ((e.read.map fun x => x.2).getD []))
    (s.takeEnt e rest n (if e.taken = 0 then s.safNow else s.que.saf))
  rw [← serves] at parts bytes
  unfold State.sendLive
  dsimp only
  generalize State.fillLive (n + s.que.live.length + 1) n Fill.empty s = r at kept parts bytes ⊢
  obtain ⟨morePart, parts⟩ := parts
  obtain ⟨more, bytes⟩ := bytes
  have stream : r.2.stream 0 = s.stream 0 := by rw [State.stream, kept.lnk, State.stream]
  refine ⟨r.2, r.1, kept, ?_, ?_, more, bytes.symm⟩
  · rw [← parts, stream]
    rfl
  · rw [Fill.item, ← parts]
    rfl

end

/-! ### The live stream (R163, R166, R292) -/

section
variable {s : State} {e : LiveEnt} {rest : List LiveEnt}

/-- With a head that can be served and no map entry to correct, nothing leaves the live queue unserved. -/
theorem State.dropDead_served (live : s.que.live = e :: rest) (served : (s.entGone e || s.misframed e) = false)
    (map : s.dpt.mapErrs = []) : s.dropDead = s := by
  have looked (l : List LiveEnt) :
      l.foldl (fun (s : State) (e : LiveEnt) => s.itemMap (.record e.seq)) s = s :=
    List.foldl_fixed' (fun e => State.itemMap_intact map _) l
  rw [State.dropDead, looked, live, List.length_cons, State.dropHeads]
  simp only [live, served, Bool.false_eq_true, if_false]

section
variable {p : Fin 2} (live : s.que.live = e :: rest) (served : (s.entGone e || s.misframed e) = false)
  (map : s.dpt.mapErrs = []) (serves : s.mlServes p = true) (window : s.unsettledOn p < s.fld Reg.lnkBdtCfg 31 16)
include live served map serves window

theorem bdtDataSend_live (full : s.segBytes ≤ s.liveOffers) :
    bdtDataSend p 0 s = (s.sendLive p s.segBytes).flushResends := by
  have live0 : (0 : BitVec 16) ≠ exerciseStream := by decide
  simp only [bdtDataSend, State.dropDead_served live served map, ite_self, if_neg (Nat.not_le.mpr window), if_neg live0,
    serves, Bool.not_true, Bool.false_eq_true, if_false, if_true, if_neg (Nat.not_lt.mpr full)]

theorem shortPacket_live (some_ : 0 < s.liveOffers) (short : s.liveOffers < s.segBytes)
    (waited : ∀ y ∈ s.que.live, y.at_ + usU (s.fld Reg.queFlush 9 0) ≤ s.tim.now) :
    shortPacket p 0 s = (s.sendLive p s.segBytes).flushResends := by
  have all : (s.que.live.all fun y => decide (y.at_ + usU (s.fld Reg.queFlush 9 0) ≤ s.tim.now)) = true :=
    List.all_eq_true.mpr fun y hy => decide_eq_true (waited y hy)
  simp only [shortPacket, State.dropDead_served live served map, ite_self, all, serves, decide_eq_false some_.ne',
    decide_eq_false (Nat.not_le.mpr short), decide_eq_false (Nat.not_le.mpr window), Bool.not_true, Bool.or_false,
    bne_self_eq_false, Bool.false_eq_true, if_false]

/-- While the live queue offers something, no other stream sends (R163, R289). -/
theorem bdtDataSend_waits {id : BitVec 16} (other : id ≠ 0) (notExercise : id ≠ exerciseStream)
    (some_ : 0 < s.liveOffers) : bdtDataSend p id s = s := by
  simp only [bdtDataSend, State.dropDead_served live served map, ite_self, if_neg (Nat.not_le.mpr window),
    if_neg notExercise, serves, Bool.not_true, Bool.false_eq_true, if_neg other, if_pos some_]

end

/-- A live segment leaves, full or after QUE_FLUSH. -/
theorem liveSegment_leaves {p : Fin 2} {b : Bind} {x : Stream} {short : Bool} (quiet : s.Quiet p)
    (serves : s.mlServes p = true) (bound : s.bindOf p = some b)
    (window : s.unsettledOn p < s.fld Reg.lnkBdtCfg 31 16) (room : 0 < s.segBytes) (live : s.que.live = e :: rest)
    (cells : e.isRef = false) (whole : s.misframed e = false) (map : s.dpt.mapErrs = [])
    (stream : x = (s.stream 0).getD (Stream.fresh 0)) (none_ : s.lnk.resends = [])
    (full : short = false → s.segBytes ≤ s.liveOffers)
    (flush : short = true → 0 < s.liveOffers ∧ s.liveOffers < s.segBytes
      ∧ ∀ y ∈ s.que.live, y.at_ + usU (s.fld Reg.queFlush 9 0) ≤ s.tim.now) :
    ∃ u y g rest', exec (if short then .shortPacket p 0 else .bdtDataSend p 0) s = .next u ∧ u.stream 0 = some y
      ∧ y.segs = x.segs ++ [g] ∧ g.seq = x.next ∧ g.port = p ∧ y.next = x.next + 1
      ∧ g.deadline = s.tim.now + usU 800
      ∧ u.tx = s.tx ++ [.data p b x.id x.next g.flags g.firstOffset e.seq (e.part s.segBytes ++ rest')]
      ∧ (u.get64 Reg.lnkSegsLo Reg.lnkSegsHi).toNat
        = min (2 ^ 64 - 1) ((s.get64 Reg.lnkSegsLo Reg.lnkSegsHi).toNat + 1) := by
  have served := State.served_of cells whole
  have id : x.id = 0 := by
    rw [stream]
    cases known : s.stream 0 with
    | none => rfl
    | some y => exact State.stream_id known
  obtain ⟨t, f, kept, sends, item, more, bytes⟩ := State.sendLive_sends p live cells whole room.ne'
  rw [← stream] at sends
  have ready : t.Quiet p := quiet.carried (by omega) kept.get kept.modes (by rw [kept.lnk]) (by rw [kept.lnk])
  have sent := State.newSegment_sent p x f false (s := t) (b := b) (by rw [State.bindOf, kept.lnk]; exact bound) ready
  rw [← sends] at sent
  have flushed : (s.sendLive p s.segBytes).flushResends = s.sendLive p s.segBytes :=
    State.flushResends_none (sent.resends.trans ((congrArg Lnk.resends kept.lnk).trans none_))
  have next : exec (if short then .shortPacket p 0 else .bdtDataSend p 0) s
      = .next (State.keeping s (s.sendLive p s.segBytes)) := by
    cases short with
    | false => exact run_next ((bdtDataSend_live live served map serves window (full rfl)).trans flushed)
    | true =>
      obtain ⟨some_, less, waited⟩ := flush rfl
      exact run_next ((shortPacket_live live served map serves window some_ less waited).trans flushed)
  have tx := sent.tx
  rw [kept.tx, item, bytes] at tx
  have before : t.get64 Reg.lnkSegsLo Reg.lnkSegsHi = s.get64 Reg.lnkSegsLo Reg.lnkSegsHi :=
    congrArg₂ (fun hi lo : Word => (hi ++ lo : BitVec 64)) (kept.get _ (by decide)) (kept.get _ (by decide))
  have counted := sent.counted
  rw [before] at counted
  exact ⟨_, x.sends (t.segOf p x f false) false, t.segOf p x f false, more, next, id ▸ sent.stream, rfl, rfl, rfl, rfl,
    congrArg (fun m : Tim => m.now + usU 800) kept.tim, tx, counted⟩

end

end Sys2Proof.Machine
end

