-- ==== Sys2Proof/Proofs/StreamSegments.lean ====
section
/-! Segments of requests and drains (R163, R189, R292): the read queue is filled behind what a stream has in it, its first
bytes leave as the stream's next segment, and with nothing left END leaves alone. -/

namespace Sys2Proof.Machine

/-! ### What filling the read queue leaves -/

/-- An item in the read queue, with more of its bytes behind those that it had. -/
structure Loaded.Grows (l m : Loaded) : Prop where
  rest : m = { l with cells := m.cells, bad := m.bad }
  bytes : l.bytes <+: m.bytes

namespace Loaded.Grows
variable {l m k : Loaded}

theorem refl (l : Loaded) : l.Grows l := ⟨rfl, List.prefix_rfl⟩

theorem trans (h : l.Grows m) (j : m.Grows k) : l.Grows k where
  rest := Eq.trans j.rest (congrArg (fun w : Loaded => { w with cells := k.cells, bad := k.bad }) h.rest :)
  bytes := h.bytes.trans j.bytes

theorem cells (l : Loaded) (cells : List Cell) (bad : List Nat) :
    l.Grows { l with cells := l.cells ++ cells, bad := bad } where
  rest := rfl
  bytes := by
    unfold Loaded.bytes cellBytes
    rw [List.flatMap_append, List.drop_append]
    exact (List.prefix_append _ _).take _

theorem item (h : l.Grows m) : m.item = l.item := (congrArg Loaded.item h.rest :)
theorem length (h : l.Grows m) : m.length = l.length := (congrArg Loaded.length h.rest :)
theorem start (h : l.Grows m) : m.start = l.start := (congrArg Loaded.start h.rest :)
theorem gens (h : l.Grows m) : m.gens = l.gens := (congrArg Loaded.gens h.rest :)

end Loaded.Grows

/-- A stream that has been read for: only what it still reads and has in the read queue changes, and the head there has
grown. -/
structure Stream.Fed (x y : Stream) : Prop where
  rest : y = { x with items := y.items, loaded := y.loaded, ring := y.ring }
  head : ∀ l more, x.loaded = l :: more → ∃ m more', y.loaded = m :: more' ∧ l.Grows m

namespace Stream.Fed
variable {x y z : Stream}

theorem of_loaded (rest : y = { x with items := y.items, loaded := y.loaded, ring := y.ring }) (same : y.loaded = x.loaded) :
    x.Fed y :=
  ⟨rest, fun l more h => ⟨l, more, same.trans h, .refl l⟩⟩

theorem refl (x : Stream) : x.Fed x := of_loaded rfl rfl

theorem trans (h : x.Fed y) (k : y.Fed z) : x.Fed z where
  rest := Eq.trans k.rest
    (congrArg (fun w : Stream => { w with items := z.items, loaded := z.loaded, ring := z.ring }) h.rest :)
  head l more first := by
    obtain ⟨m, more', first, grows⟩ := h.head l more first
    obtain ⟨m', more'', first, grows'⟩ := k.head m more' first
    exact ⟨m', more'', first, grows.trans grows'⟩

theorem id (h : x.Fed y) : y.id = x.id := (congrArg Stream.id h.rest :)

theorem items (x : Stream) (is : List Item) : x.Fed { x with items := is } := of_loaded rfl rfl

theorem refill (s : State) (x : Stream) : x.Fed (s.refill x) := by
  unfold State.refill
  split
  · exact of_loaded rfl rfl
  · exact refl x

theorem append (x : Stream) (ls : List Loaded) : x.Fed { x with loaded := x.loaded ++ ls } :=
  ⟨rfl, fun l more h => ⟨l, more ++ ls, congrArg (· ++ ls) h, .refl l⟩⟩

/-- The last item in the read queue has got more of its bytes. -/
theorem growLast {l m : Loaded} (last : x.loaded.getLast? = some l) (grows : l.Grows m) :
    x.Fed { x with loaded := x.loaded.dropLast ++ [m] } := by
  refine ⟨rfl, fun l0 more h => ?_⟩
  rw [h] at last
  dsimp only
  rw [h]
  cases more with
  | nil =>
    obtain rfl : l0 = l := by simpa using last
    exact ⟨m, [], rfl, grows⟩
  | cons k ks => exact ⟨l0, _, rfl, .refl l0⟩

end Stream.Fed

/-- Filling the read queue for a stream touches that stream, DPT_OVERWRITTEN and the counts of its operation. -/
structure State.Feeds (id : BitVec 16) (s t : State) : Prop where
  rest : t = { s with regs := t.regs, bcp := t.bcp, free := t.free, lnk := { s.lnk with streams := t.lnk.streams } }
  get : ∀ a, a ≠ Reg.dptOverwritten → t.get a = s.get a
  stream : ∀ x, s.stream id = some x → ∃ y, t.stream id = some y ∧ x.Fed y

namespace State.Feeds
variable {id : BitVec 16} {s t u : State}

theorem refl (id : BitVec 16) (s : State) : Feeds id s s := ⟨rfl, fun _ _ => rfl, fun x h => ⟨x, h, .refl x⟩⟩

theorem trans (h : Feeds id s t) (k : Feeds id t u) : Feeds id s u where
  rest := Eq.trans k.rest (congrArg (fun w : State =>
    { w with regs := u.regs, bcp := u.bcp, free := u.free, lnk := { w.lnk with streams := u.lnk.streams } }) h.rest :)
  get a ha := (k.get a ha).trans (h.get a ha)
  stream x known := by
    obtain ⟨y, known, fed⟩ := h.stream x known
    obtain ⟨z, known, fed'⟩ := k.stream y known
    exact ⟨z, known, fed.trans fed'⟩

theorem dpt (h : Feeds id s t) : t.dpt = s.dpt := (congrArg State.dpt h.rest :)
theorem tx (h : Feeds id s t) : t.tx = s.tx := (congrArg State.tx h.rest :)
theorem modes (h : Feeds id s t) : t.modes = s.modes := (congrArg State.modes h.rest :)
theorem variant (h : Feeds id s t) : t.variant = s.variant := (congrArg State.variant h.rest :)
theorem bindOf (h : Feeds id s t) (p : Fin 2) : t.bindOf p = s.bindOf p := by
  rw [h.rest]
  rfl

theorem quiet (h : Feeds id s t) {p : Nat} (port : p < 7) (plain : s.Quiet p) : t.Quiet p :=
  plain.carried port (fun a ha => h.get a (Nat.lt_trans ha (by decide)).ne) h.modes
    (congrArg (fun u : State => u.lnk.heldTx) h.rest :) (congrArg (fun u : State => u.lnk.heldRx) h.rest :)

theorem gensHold (h : Feeds id s t) : t.gensHold = s.gensHold :=
  State.gensHold_congr (State.mapEnt_congr h.dpt (h.get _ (by decide)) h.variant)

theorem putStream {x y : Stream} (known : s.stream id = some x) (fed : x.Fed y) : Feeds id s (s.putStream y) where
  rest := rfl
  get _ _ := rfl
  stream x' known' := by
    obtain rfl : x = x' := Option.some.inj (known.symm.trans known')
    have named : y.id = id := fed.id.trans (State.stream_id known)
    exact ⟨y, named ▸ s.stream_putStream y, fed⟩

theorem takeFree (id : BitVec 16) (s : State) : Feeds id s s.takeFree.2 :=
  ⟨rfl, fun _ _ => rfl, fun x h => ⟨x, h, .refl x⟩⟩

theorem overwritten (id : BitVec 16) (s : State) : Feeds id s (s.bump Reg.dptOverwritten) :=
  ⟨rfl, fun _ ha => State.get_bump_ne _ _ _ ha, fun x h => ⟨x, h, .refl x⟩⟩

theorem opCount (id : BitVec 16) (o : Option OpRef) (i n : Nat) (s : State) : Feeds id s (s.opCount o i n) := by
  cases o <;> exact ⟨rfl, fun _ _ => rfl, fun x h => ⟨x, h, .refl x⟩⟩

theorem itemGone (id : BitVec 16) (x : Stream) (i : Item) (s : State) : Feeds id s (s.itemGone x i) := by
  unfold State.itemGone
  split
  · exact opCount ..
  · exact (overwritten id s).trans (opCount ..)

end State.Feeds

/-! ### Reading for a stream from an intact Depot (R31, R163, R189) -/

section
variable {s : State} {id : BitVec 16}

theorem State.loadRest_feeds {x y : Stream} {l : Loaded} (map : s.dpt.mapErrs = []) (lines : s.dpt.errs = [])
    (known : s.stream id = some x) (fed : x.Fed y) (last : y.loaded.getLast? = some l) (src : LogSource) (n : Nat) :
    State.Feeds id s (s.loadRest y l src n) := by
  unfold State.loadRest
  dsimp only
  rw [State.readPart_intact map lines]
  split
  · exact .putStream known (fed.trans (.growLast last (.cells ..)))
  · exact (State.Feeds.takeFree id s).trans (.putStream (x := x) known (fed.trans (.growLast last (.cells ..))))

/-- One read: an item no longer held is passed over, a new one is begun, or the last one goes on. -/
theorem State.loadMore_feeds {t : State} (map : s.dpt.mapErrs = []) (lines : s.dpt.errs = [])
    (more : s.loadMore id = some t) : State.Feeds id s t := by
  cases known : s.stream id with
  | none =>
    rw [State.loadMore, known] at more
    cases more
  | some x0 =>
    unfold State.loadMore at more
    simp -zeta only [known] at more
    extract_lets x room src fresh at more
    have fed : x0.Fed x := .refill s x0
    have passed (i : Item) (rest : List Item) :
        State.Feeds id s ((s.putStream { x with items := rest }).itemGone { x with items := rest } i) :=
      (State.Feeds.putStream known (fed.trans (.items x rest))).trans (.itemGone ..)
    have read {u : State} (same : u = s) (from_ : LogSource) (i : Item) (n : Nat) (rest : List Item) (ls : List Loaded) :
        State.Feeds id s ((u.readPart from_ i 0 n).2.putStream { x with items := rest, loaded := x.loaded ++ ls }) := by
      rw [same, State.readPart_intact map lines]
      exact .putStream known (fed.trans ((Stream.Fed.items x rest).trans (.append _ ls)))
    have opened : fresh = some t → State.Feeds id s t := by
      intro more
      simp only [fresh, State.itemMap_intact map, State.probeRec_intact map lines] at more
      split at more
      · cases more
      · split at more
        · split at more
          · cases more
          · cases more
            exact passed _ _
        · cases more
          exact passed _ _
        · obtain ⟨-, rfl⟩ := by simpa only [Option.ite_none_left_eq_some, Option.some.injEq] using more
          exact read (by split <;> rfl) _ _ _ _ _
    clear_value fresh
    split at more
    · cases more
    · split at more
      next l last =>
        dsimp only at more
        split at more
        · exact opened more
        · split at more
          · cases more
          · cases more
            exact State.loadRest_feeds map lines known fed last ..
      · exact opened more

theorem State.loadAll_feeds (n : Nat) :
    ∀ s : State, s.dpt.mapErrs = [] → s.dpt.errs = [] → State.Feeds id s (s.loadAll id n) := by
  induction n with
  | zero => exact fun s _ _ => .refl id s
  | succ n ih =>
    intro s map lines
    rw [State.loadAll]
    split
    next t more =>
      have fed := State.loadMore_feeds map lines more
      exact fed.trans (ih t (fed.dpt ▸ map) (fed.dpt ▸ lines))
    · exact .refl id s

theorem State.loadStream_feeds (map : s.dpt.mapErrs = []) (lines : s.dpt.errs = []) : State.Feeds id s (s.loadStream id) :=
  State.loadAll_feeds _ s map lines

end

/-! ### The first bytes of the read queue (R189, R292) -/

/-- A stream whose head has given `n` bytes to a segment and has more. -/
def Stream.gives (x : Stream) (l : Loaded) (n : Nat) (more : List Loaded) : Stream :=
  { x with sentBytes := x.sentBytes + n, loaded := l.advance n :: more }

/-- A stream that goes on from another with an item at the head that has given `n` bytes. -/
structure Stream.Gave (x y : Stream) (l : Loaded) (n : Nat) : Prop where
  rest : y = { x with items := y.items, loaded := y.loaded, ring := y.ring, sentBytes := y.sentBytes }
  head : ∃ more, y.loaded = l.advance n :: more

theorem State.refill_rest (s : State) (x : Stream) :
    s.refill x = { x with items := (s.refill x).items, ring := (s.refill x).ring } := by
  unfold State.refill
  split <;> rfl

theorem State.refill_loaded (s : State) (x : Stream) : (s.refill x).loaded = x.loaded :=
  (congrArg Stream.loaded (s.refill_rest x) :)

theorem Stream.Fed.gave {x y : Stream} (fed : x.Fed y) (s : State) (l : Loaded) (n : Nat) (more : List Loaded) :
    x.Gave (s.refill (y.gives l n more)) l n where
  rest := by
    have rest := s.refill_rest (y.gives l n more)
    generalize s.refill (y.gives l n more) = z at rest ⊢
    rw [rest, fed.rest]
    rfl
  head := ⟨more, s.refill_loaded _⟩

/-- A segment's fill from one item. -/
def Loaded.fillOf (l : Loaded) (n : Nat) : Fill := Fill.empty.add l.item l.start (l.bytes.take n) l.bad

theorem Loaded.fillOf_flags (l : Loaded) (n : Nat) :
    ((l.fillOf n).flags false).getLsbD 4 = isUnit l.item ∧ ((l.fillOf n).flags false).getLsbD 3 = false := by
  have parts : ((l.fillOf n).parts.any fun q => isUnit q.1) = isUnit l.item := by simp [Loaded.fillOf, Fill.add, Fill.empty]
  rw [Fill.flags, parts]
  generalize (l.fillOf n).damaged = d
  cases d <;> cases isUnit l.item <;> exact ⟨rfl, rfl⟩

theorem Loaded.fillOf_first (l : Loaded) (n : Nat) : (l.fillOf n).first.getD 0xFFFF = if l.start = 0 then 0 else 0xFFFF := by
  by_cases begun : l.start = 0 <;> simp [Loaded.fillOf, Fill.add, Fill.empty, begun]

section
variable {s : State} {x : Stream} {l : Loaded} {more : List Loaded} {n : Nat}

/-- An item with more bytes than the segment takes fills it alone, and stays at the head. -/
theorem State.fillItems_head (fuel : Nat) (map : s.dpt.mapErrs = []) (first : x.loaded = l :: more) (room : 0 < n)
    (long : n < l.bytes.length) (inside : l.start + n < l.length) (held : l.start = 0 → s.gensHold l.gens = true) :
    s.fillItems (fuel + 1) n Fill.empty x = (l.fillOf n, x.gives l n more, s) := by
  have taken : (l.bytes.take n).length = n := by rw [List.length_take, Nat.min_eq_left long.le]
  have going : ¬ l.length ≤ (l.advance n).start := by
    unfold Loaded.advance
    dsimp only
    omega
  have whole : (decide (l.start = 0) && !s.gensHold l.gens) = false := by
    by_cases begun : l.start = 0
    · simp [held begun]
    · simp [begun]
  rw [State.fillItems, if_neg room.ne', first]
  simp only [State.decodeBlocks_intact map, ite_self, whole, taken, if_neg going, Fill.empty, List.any_nil,
    Bool.false_eq_true, if_false]
  rfl

end

/-! ### A stream's next segment (R163, R292) -/

section
variable {s : State} {p : Fin 2} {id : BitVec 16} {x : Stream}

/-- The stream that a segment has left goes on, so its operation is not done. -/
theorem State.requestDone_unsettled (known : s.stream id = some x) (unsettled : x.segs ≠ []) : s.requestDone id = s := by
  have open_ : x.settled = false := by simp [Stream.settled, unsettled]
  rw [State.requestDone, known]
  simp only [open_, Bool.and_false, Bool.false_eq_true, if_false]

theorem State.drainWaits_granted (known : s.stream id = some x)
    (granted : isDrain id = true → s.fld Reg.pwrGrant 23 16 ≠ 0 ∧ ∃ h, x.slot = some h ∧ s.holdState h = 4) :
    s.drainWaits x = false := by
  rw [State.drainWaits, State.stream_id known]
  cases drain : isDrain id with
  | false => rfl
  | true =>
    obtain ⟨grant, h, slot, draining⟩ := granted drain
    simp [slot, grant, draining]

theorem Stream.sends_unsettled (x : Stream) (g : Seg) (last : Bool) : (x.sends g last).segs ≠ [] :=
  List.append_ne_nil_of_right_ne_nil _ (List.cons_ne_nil _ _)

/-- A full segment of one item: what has been read, or is read now, goes out, and the read queue is filled again. -/
theorem State.sendStream_full {l : Loaded} {more : List Loaded} (known : s.stream id = some x) (open_ : x.ended = false)
    (goes : s.drainWaits x = false) (room : 0 < s.segBytes) (first : x.loaded = l :: more)
    (long : s.segBytes < l.bytes.length) (inside : l.start + l.bytes.length ≤ l.length)
    (held : l.start = 0 → s.gensHold l.gens = true) (lines : s.dpt.errs = []) (map : s.dpt.mapErrs = []) :
    ∃ t y m, State.Feeds id s t ∧ x.Gave y m s.segBytes ∧ l.Grows m ∧ s.sendStream p id
      = ((t.newSegment p y (m.fillOf s.segBytes) false).requestDone id).loadStream id := by
  have feeds := State.loadStream_feeds (id := id) map lines
  obtain ⟨y, known', fed⟩ := feeds.stream x known
  obtain ⟨m, more', first', grows⟩ := fed.head l more first
  have long' : s.segBytes < m.bytes.length := Nat.lt_of_lt_of_le long grows.bytes.length_le
  have fill (fuel : Nat) := State.fillItems_head (n := s.segBytes) fuel (feeds.dpt ▸ map) first' room long'
    (by rw [grows.start, grows.length]; omega) (by rw [grows.start, grows.gens, feeds.gensHold]; exact held)
  have full : s.segBytes ≤ (m.fillOf s.segBytes).bytes.length := by
    simp [Loaded.fillOf, Fill.add, Fill.empty, long'.le]
  have left : ((s.loadStream id).refill (y.gives m s.segBytes more')).loaded = m.advance s.segBytes :: more' :=
    State.refill_loaded ..
  refine ⟨_, _, m, feeds, fed.gave (s.loadStream id) m s.segBytes more', grows, ?_⟩
  simp [State.sendStream, known, open_, goes, known', fill, full, left]

/-- With nothing left to read or to send, END goes out alone. -/
theorem State.sendStream_end (known : s.stream id = some x) (open_ : x.ended = false) (goes : s.drainWaits x = false)
    (none_ : x.loaded = []) (done : (s.refill x).items = []) :
    s.sendStream p id = (((s.newSegment p (s.refill x) Fill.empty true).requestDone id).loadStream id) := by
  have more : s.loadMore id = none := by
    have loaded := (s.refill_loaded x).trans none_
    simp [State.loadMore, known, loaded, done]
  have read : s.loadStream id = s := by rw [State.loadStream, State.loadAll, more]
  have fill (fuel n : Nat) : s.fillItems fuel n Fill.empty x = (Fill.empty, x, s) := by
    cases fuel with
    | zero => rfl
    | succ fuel => simp [State.fillItems, none_]
  simp [State.sendStream, known, open_, goes, read, fill, s.refill_loaded x, none_, done]

/-- A stream that a segment has left goes on. -/
theorem SegmentSent.goesOn {u : State} {b : Bind} {f : Fill} {last : Bool} (sent : SegmentSent s u p b x f last) :
    u.requestDone x.id = u :=
  State.requestDone_unsettled sent.stream (x.sends_unsettled (s.segOf p x f last) last)

/-- For an ended stream nothing more is read. -/
theorem State.loadStream_ended (known : s.stream id = some x) (ended : x.ended = true) : s.loadStream id = s := by
  have stays : (s.refill x).ended = true := Eq.trans (congrArg Stream.ended (s.refill_rest x) :) ended
  have none_ : s.loadMore id = none := by simp only [State.loadMore, known, stays, if_true]
  rw [State.loadStream, State.loadAll, none_]

variable {b : Bind} (quiet : s.Quiet p) (serves : s.mlServes p = true) (bound : s.bindOf p = some b)
  (window : s.unsettledOn p < s.fld Reg.lnkBdtCfg 31 16) (empty : s.que.live = []) (none_ : s.lnk.resends = [])
  (other : id ≠ 0) (notExercise : id ≠ exerciseStream) (known : s.stream id = some x) (open_ : x.ended = false)
  (granted : isDrain id = true → s.fld Reg.pwrGrant 23 16 ≠ 0 ∧ ∃ h, x.slot = some h ∧ s.holdState h = 4)
include quiet serves bound window empty none_ other notExercise known open_ granted

/-- A full segment of the item at the head leaves, and the item stays at the head with the rest of its bytes. -/
theorem requestSegment_leaves {l : Loaded} {more : List Loaded} (room : 0 < s.segBytes) (first : x.loaded = l :: more)
    (long : s.segBytes < l.bytes.length) (inside : l.start + l.bytes.length ≤ l.length)
    (held : l.start = 0 → s.gensHold l.gens = true) (lines : s.dpt.errs = []) (map : s.dpt.mapErrs = []) :
    ∃ u y g l' more', exec (.bdtDataSend p id) s = .next u ∧ u.stream id = some y ∧ y.segs = x.segs ++ [g]
      ∧ g.seq = x.next ∧ g.port = p ∧ y.next = x.next + 1 ∧ y.ended = false
      ∧ y.loaded = l' :: more' ∧ l'.item = l.item ∧ l'.start = l.start + s.segBytes
      ∧ g.flags.getLsbD 4 = isUnit l.item ∧ g.flags.getLsbD 3 = false
      ∧ u.tx = s.tx ++ [.data p b x.id x.next g.flags (if l.start = 0 then 0 else 0xFFFF) (itemNumber l.item)
          (l.bytes.take s.segBytes)] := by
  obtain ⟨t, y, m, feeds, gave, grows, sends⟩ := State.sendStream_full (p := p) known open_
    (State.drainWaits_granted known granted) room first long inside held lines map
  have same : y.id = x.id := (congrArg Stream.id gave.rest :)
  have number : y.next = x.next := (congrArg Stream.next gave.rest :)
  have before : y.segs = x.segs := (congrArg Stream.segs gave.rest :)
  have unended : y.ended = false := Eq.trans (congrArg Stream.ended gave.rest :) open_
  have named : y.id = id := same.trans (State.stream_id known)
  obtain ⟨more1, head⟩ := gave.head
  have sent := State.newSegment_sent p y (m.fillOf s.segBytes) false ((feeds.bindOf p).trans bound)
    (feeds.quiet (by omega) quiet)
  generalize t.newSegment p y _ _ = u at sends sent
  have stream : u.stream id = some _ := named ▸ sent.stream
  rw [show u.requestDone id = u from named ▸ sent.goesOn] at sends
  have after : State.Feeds id u (u.loadStream id) :=
    State.loadStream_feeds (by rw [sent.dpt, feeds.dpt, map]) (by rw [sent.dpt, feeds.dpt, lines])
  obtain ⟨z, known', fed⟩ := after.stream _ stream
  obtain ⟨l', more', first', grows'⟩ := fed.head _ more1 head
  obtain ⟨units, goesOn⟩ := m.fillOf_flags s.segBytes
  have next := run_next ((bdtDataSend_stream empty none_ serves window other notExercise).trans sends)
  have bytes : m.bytes.take s.segBytes = l.bytes.take s.segBytes := by
    obtain ⟨tail, grown⟩ := grows.bytes
    rw [← grown, List.take_append_of_le_length long.le]
  have sentBytes : (m.fillOf s.segBytes).bytes = l.bytes.take s.segBytes := bytes
  have sentItem : (m.fillOf s.segBytes).item = itemNumber l.item := congrArg itemNumber grows.item
  have tx := sent.tx
  rw [feeds.tx, same, number, m.fillOf_first, grows.start, sentItem, sentBytes] at tx
  rw [grows.item] at units
  exact ⟨_, z, t.segOf p y (m.fillOf s.segBytes) false, l', more', next, known',
    Eq.trans (congrArg Stream.segs fed.rest :) (congrArg (· ++ [_]) before), number, rfl,
    Eq.trans (congrArg Stream.next fed.rest :) (congrArg (· + 1) number),
    Eq.trans (congrArg Stream.ended fed.rest :) ((Bool.or_false _).trans unended),
    first', grows'.item.trans grows.item, grows'.start.trans (congrArg (· + s.segBytes) grows.start), units, goesOn,
    after.tx.trans tx⟩

/-- END leaves alone, and with it the stream has ended. -/
theorem requestEnd_leaves (nothing : x.loaded = []) (done : (s.refill x).items = []) :
    ∃ u y, exec (.bdtDataSend p id) s = .next u ∧ u.stream id = some y ∧ y.ended = true ∧ y.next = x.next + 1
      ∧ u.tx = s.tx ++ [.data p b x.id x.next flagEnd 0xFFFF 0 []] := by
  have sends := State.sendStream_end (p := p) known open_ (State.drainWaits_granted known granted) nothing done
  have rest := s.refill_rest x
  have sent := State.newSegment_sent p (s.refill x) Fill.empty true bound quiet
  generalize s.refill x = y at sends rest sent
  have same : y.id = x.id := (congrArg Stream.id rest :)
  have number : y.next = x.next := (congrArg Stream.next rest :)
  have named : y.id = id := same.trans (State.stream_id known)
  generalize s.newSegment p y _ _ = u at sends sent
  have stream : u.stream id = some _ := named ▸ sent.stream
  rw [show u.requestDone id = u from named ▸ sent.goesOn, State.loadStream_ended stream (Bool.or_true _)] at sends
  have next := run_next ((bdtDataSend_stream empty none_ serves window other notExercise).trans sends)
  have tx := sent.tx
  rw [same, number] at tx
  exact ⟨_, _, next, stream, Bool.or_true _, congrArg (· + 1) number, tx⟩

end

/-- Settles O48: a record is routed as QUE_ROUTE and the room of the queues let it be; a live segment begins with the head
of the live queue, a request's with the head of its stream in the read queue, each by what filling a segment takes first;
and while the live queue offers anything, the others wait. -/
theorem recordsAndSegmentsAreSent : Obligations.RecordsAndSegmentsAreSent := by
  unfold Obligations.RecordsAndSegmentsAreSent
  refine ⟨?record, ?live, ?request, ?last, ?exercise, ?waits, ?heartbeat⟩
  case record =>
    intro s b due
    obtain ⟨u, next, built, kept, off, enters, skipped, queued, full⟩ := recordSend_routes s b due
    refine ⟨u, next, built, kept, off, fun on room => ?_, skipped, queued, full⟩
    obtain ⟨e, live, entry⟩ := enters on room
    exact ⟨e, live, entry.seq, entry.length, entry.isRef, entry.taken, entry.bytes⟩
  case live =>
    intro s p b x e rest short quiet serves bound window room live cells whole map stream none_ full flush
    exact liveSegment_leaves quiet serves bound window room live cells whole map stream none_ full flush
  case request =>
    intro s p b id x l more quiet serves bound window room empty none_ other notExercise known open_ granted first long
      inside held lines map
    exact requestSegment_leaves quiet serves bound window empty none_ other notExercise known open_ granted room first long
      inside held lines map
  case last =>
    intro s p b id x quiet serves bound window empty none_ other notExercise known open_ granted nothing done
    exact requestEnd_leaves quiet serves bound window empty none_ other notExercise known open_ granted nothing done
  case exercise =>
    intro s b x quiet up bound window running open_ none_ empty
    exact exercise_leaves quiet up bound window running open_ none_ empty
  case waits =>
    intro s p id serves other notExercise head some_ map window
    obtain ⟨e, first, held, whole⟩ := head
    obtain ⟨rest, live⟩ := List.head?_eq_some_iff.mp first
    have served : (s.entGone e || s.misframed e) = false := by rw [held, whole, Bool.or_false]
    exact run_next (bdtDataSend_waits live served map serves window other notExercise some_)
  case heartbeat => exact heartbeat_leaves

end Sys2Proof.Machine
end

