-- ==== Sys2Proof/Proofs/SessionOps.lean ====
section
/-! Long operations as their sessions hold them (R329): what ending or counting one does to the others, and what the answer to a
served request shows of the state that its execution has left. -/

namespace Sys2Proof.Machine

/-! ### The operations of a session -/

/-- The operations that a session holds. -/
def State.opsOf (s : State) (id : Word) : Option (List Op) := (s.findSession id).map fun x => x.ops

theorem State.findOp_opsOf (s : State) (o : OpRef) :
    s.findOp o = (s.opsOf o.session).bind fun ops => ops.find? fun p => p.handle = o.handle := by
  rw [State.findOp, State.opsOf, Option.bind_map]
  rfl

theorem State.findOp_congr {s u : State} (h : u.opsOf = s.opsOf) : u.findOp = s.findOp := by
  funext o
  rw [State.findOp_opsOf, State.findOp_opsOf, h]

theorem State.findSession_isSome (s : State) (id : Word) : (s.findSession id).isSome = (s.opsOf id).isSome :=
  Option.isSome_map.symm

/-- Sessions changed one by one, under the ids that they have. -/
theorem State.opsOf_mapped {s u : State} {g : Session → Session} {f : List Op → List Op} (id : Word)
    (sessions : u.bcp.sessions = s.bcp.sessions.map g) (ids : ∀ x, (g x).id = x.id)
    (ops : ∀ x, x.id = id → (g x).ops = f x.ops) : u.opsOf id = (s.opsOf id).map f := by
  unfold State.opsOf State.findSession
  rw [sessions, find_mapped _ _ _ ids]
  cases known : s.bcp.sessions.find? fun x => decide (x.id = id) with
  | none => rfl
  | some x => exact congrArg some (ops x (by simpa using List.find?_some known))

theorem State.opsOf_withDpt (s : State) (f : Depot → Depot) : (s.withDpt f).opsOf = s.opsOf := rfl
theorem State.opsOf_set (s : State) (a : Nat) (w : Word) : (s.set a w).opsOf = s.opsOf := rfl

/-- Sessions whose operations stay. -/
theorem State.opsOf_kept {s u : State} {g : Session → Session} (sessions : u.bcp.sessions = s.bcp.sessions.map g)
    (ids : ∀ x, (g x).id = x.id) (ops : ∀ x, (g x).ops = x.ops) : u.opsOf = s.opsOf := by
  funext id
  rw [State.opsOf_mapped (f := fun l => l) id sessions ids fun x _ => ops x, Option.map_id']

theorem State.opsOf_updSession (s : State) (id : Word) {f : Session → Session} (ids : ∀ x, (f x).id = x.id)
    (ops : ∀ x, (f x).ops = x.ops) : (s.updSession id f).opsOf = s.opsOf := by
  refine State.opsOf_kept rfl (fun x => ?_) (fun x => ?_)
  · split
    · exact ids x
    · rfl
  · split
    · exact ops x
    · rfl

theorem State.opsOf_attendIf (s : State) (p : Session → Bool) (b : Nat) : (s.attendIf p b).opsOf = s.opsOf := by
  refine State.opsOf_kept (s.attendIf_sessions p b) (fun x => ?_) (fun x => ?_) <;> (split <;> rfl)

theorem State.opsOf_attend (s : State) (b : Nat) : (s.attend b).opsOf = s.opsOf := s.opsOf_attendIf ..

theorem State.opsOf_arrived (s : State) (r : Req) : (s.arrived r).opsOf = s.opsOf :=
  State.opsOf_updSession (s.countRx r.port) r.session (fun _ => rfl) (fun _ => rfl)

theorem State.opsOf_answered {f : Form} {r : Req} {a : Ans} (hc : f.closes = false) :
    (State.answered f r a).opsOf = a.2.2.opsOf := by
  refine Eq.trans ?_ (a.2.2.opsOf_updSession r.session
    (f := Session.keep ⟨r.seq, f.op, a.1, a.2.1, a.2.2.evt + 1⟩) (fun _ => rfl) (fun _ => rfl))
  funext id
  unfold State.opsOf State.findSession State.answered State.reply
  simp only [hc, Bool.false_eq_true, if_false, State.sendOther_bcp]
  rfl

/-! ### Operations that end or count (R329, R341) -/

/-- An operation that is DONE. -/
def Op.ended (final : BitVec 16) (result : List Byte) (p : Op) : Op :=
  { p with done := true, final := final, result := result }

/-- The operations of a session with those of one handle changed. -/
def updOps (h : Nat) (f : Op → Op) (ops : List Op) : List Op := ops.map fun p => if p.handle = h then f p else p

theorem State.opsOf_updOpRef (s : State) (o : OpRef) (f : Op → Op) (id : Word) :
    (s.updOpRef o f).opsOf id = (s.opsOf id).map (if id = o.session then updOps o.handle f else fun l => l) := by
  refine State.opsOf_mapped (g := fun x => if x.id = o.session then updOp o.handle f x else x) id rfl (fun x => ?_)
    (fun x hx => ?_)
  · split <;> rfl
  · rw [← hx]
    split <;> rfl

theorem find_updOps (h k : Nat) (f : Op → Op) (handle : ∀ p, (f p).handle = p.handle) (ops : List Op) :
    (updOps h f ops).find? (fun p => decide (p.handle = k))
      = (ops.find? fun p => decide (p.handle = k)).map (if k = h then f else fun p => p) := by
  induction ops with
  | nil => rfl
  | cons p ops ih =>
    have same : (if p.handle = h then f p else p).handle = p.handle := by
      split
      · exact handle p
      · rfl
    rw [updOps, List.map_cons, ← updOps]
    by_cases hit : p.handle = k
    · subst hit
      rw [List.find?_cons_of_pos (by simp [same]), List.find?_cons_of_pos (by simp), Option.map_some]
      split <;> rfl
    · rw [List.find?_cons_of_neg (by simp [same, hit]), List.find?_cons_of_neg (by simp [hit]), ih]

theorem State.findOp_updOpRef (s : State) (o q : OpRef) (f : Op → Op) (handle : ∀ p, (f p).handle = p.handle) :
    (s.updOpRef o f).findOp q = (s.findOp q).map (if q = o then f else fun p => p) := by
  rw [State.findOp_opsOf, State.findOp_opsOf, State.opsOf_updOpRef]
  cases s.opsOf q.session with
  | none => rfl
  | some ops =>
    simp only [Option.map_some, Option.bind_some]
    by_cases session : q.session = o.session
    · have same : q = o ↔ q.handle = o.handle := by
        constructor
        · exact congrArg OpRef.handle
        · intro handles
          cases q
          cases o
          simp_all
      rw [if_pos session, find_updOps _ _ _ handle]
      simp only [same]
    · rw [if_neg session, if_neg (fun e => session (congrArg OpRef.session e))]
      simp

theorem updOps_absent {h : Nat} {ops : List Op} (f : Op → Op) (none_ : (ops.find? fun p => decide (p.handle = h)) = none) :
    updOps h f ops = ops := by
  have absent (p : Op) (hp : p ∈ ops) : ¬ p.handle = h := by simpa using List.find?_eq_none.mp none_ p hp
  exact (List.map_congr_left fun p hp => if_neg (absent p hp)).trans (List.map_id _)

/-- An operation that ends is DONE, the others stay. -/
theorem State.opsOf_opDone (s : State) (o : OpRef) (st : BitVec 16) (d : List Byte) (id : Word) :
    (s.opDone o st d).opsOf id
      = (s.opsOf id).map (if id = o.session then updOps o.handle (Op.ended st d) else fun l => l) := by
  cases known : s.findOp o with
  | some p =>
    rw [State.opDone_some _ _ _ _ _ known, State.opsOf_attendIf]
    exact s.opsOf_updOpRef ..
  | none =>
    rw [State.opDone_none _ _ _ _ known]
    show s.opsOf id = _
    split
    · next own =>
        subst own
        rw [State.findOp_opsOf] at known
        cases ops : s.opsOf o.session with
        | none => rfl
        | some l =>
          rw [ops] at known
          exact congrArg some (updOps_absent _ known).symm
    · rw [Option.map_id']

theorem State.findOp_opDone (s : State) (o q : OpRef) (st : BitVec 16) (d : List Byte) :
    (s.opDone o st d).findOp q = (s.findOp q).map (if q = o then Op.ended st d else fun p => p) := by
  rw [State.findOp_opsOf, State.opsOf_opDone, ← State.opsOf_updOpRef, ← State.findOp_opsOf]
  exact s.findOp_updOpRef o q _ fun _ => rfl

theorem State.opDone_ends (s : State) (o : OpRef) (st : BitVec 16) (d : List Byte) : OpEnds s (s.opDone o st d) o st d := by
  intro p known
  refine ⟨p.ended st d, ?_, rfl, rfl, rfl⟩
  rw [State.findOp_opDone, known, if_pos rfl]
  rfl

/-- That an operation ends is said of other states in which it is known as it was before, and as it is after. -/
theorem OpEnds.congr {s s' t t' : State} {o : OpRef} {st : BitVec 16} {d : List Byte} (h : OpEnds s t o st d)
    (before : ∀ p, s'.findOp o = some p → s.findOp o = some p) (after : t'.findOp o = t.findOp o) : OpEnds s' t' o st d := by
  intro p known
  rw [after]
  exact h p (before p known)

/-- Of operations that end alike each has ended. -/
theorem State.opsDone_ends (st : BitVec 16) (d : List Byte) (os : List OpRef) :
    ∀ (s : State) (o : OpRef), o ∈ os → OpEnds s (s.opsDone os st d) o st d := by
  have stays (os : List OpRef) : ∀ (s : State) (o : OpRef) (p : Op), s.findOp o = some p → p.done = true ∧ p.final = st
      ∧ p.result = d → ∃ q, (s.opsDone os st d).findOp o = some q ∧ q.done = true ∧ q.final = st ∧ q.result = d := by
    induction os with
    | nil => exact fun s o p known ended => ⟨p, known, ended⟩
    | cons o' os ih =>
      intro s o p known ended
      refine ih (s.opDone o' st d) o _ (by rw [State.findOp_opDone, known]; rfl) ?_
      split
      · exact ⟨rfl, rfl, rfl⟩
      · exact ended
  induction os with
  | nil => exact fun s o h => absurd h List.not_mem_nil
  | cons o' os ih =>
    intro s o h p known
    by_cases own : o = o'
    · subst own
      exact stays os _ o _ (by rw [State.findOp_opDone, known, if_pos rfl]; rfl) ⟨rfl, rfl, rfl⟩
    · refine ih (s.opDone o' st d) o ((List.mem_cons.mp h).resolve_left own) p ?_
      rw [State.findOp_opDone, known, if_neg own]
      rfl

/-- An operation of a session by its handle and its opcode (R329, R342). -/
def State.HasOp (s : State) (id : Word) (h : Nat) (op : BitVec 16) : Prop :=
  ∃ ops, s.opsOf id = some ops ∧ ∃ o ∈ ops, o.handle = h ∧ o.opcode = op

theorem State.HasOp.congr {s u : State} {id : Word} {h : Nat} {op : BitVec 16} (held : s.HasOp id h op)
    (same : u.opsOf = s.opsOf) : u.HasOp id h op := by
  unfold State.HasOp
  rw [same]
  exact held

/-- An operation keeps its handle and its opcode, whatever is noted of it. -/
theorem State.HasOp.mapped {s u : State} {id : Word} {h : Nat} {op : BitVec 16} {o : OpRef} {f : Op → Op}
    (held : s.HasOp id h op) (names : ∀ p, (f p).handle = p.handle ∧ (f p).opcode = p.opcode)
    (ops : u.opsOf id = (s.opsOf id).map (if id = o.session then updOps o.handle f else fun l => l)) : u.HasOp id h op := by
  obtain ⟨l, known, p, mem, handle, opcode⟩ := held
  rw [known, Option.map_some] at ops
  refine ⟨_, ops, ?_⟩
  split
  · refine ⟨if p.handle = o.handle then f p else p, List.mem_map.mpr ⟨p, mem, rfl⟩, ?_⟩
    split
    · exact ⟨(names p).1.trans handle, (names p).2.trans opcode⟩
    · exact ⟨handle, opcode⟩
  · exact ⟨p, mem, handle, opcode⟩

section
variable {s : State} {id : Word} {h : Nat} {op : BitVec 16} (held : s.HasOp id h op)
include held

theorem State.HasOp.opDone (o : OpRef) (st : BitVec 16) (d : List Byte) : (s.opDone o st d).HasOp id h op :=
  held.mapped (o := o) (f := Op.ended st d) (fun _ => ⟨rfl, rfl⟩) (s.opsOf_opDone o st d id)

theorem State.HasOp.optDone (o : Option OpRef) (st : BitVec 16) (d : List Byte) : (s.optDone o st d).HasOp id h op := by
  cases o with
  | none => exact held
  | some o => exact held.opDone o st d

theorem State.HasOp.opCount (o : Option OpRef) (i n : Nat) : (s.opCount o i n).HasOp id h op := by
  cases o with
  | none => exact held
  | some o =>
    exact held.mapped (o := o) (f := fun p => { p with counts := p.counts.set i (p.counts.getD i 0 + n) })
      (fun _ => ⟨rfl, rfl⟩) (s.opsOf_updOpRef o _ id)

end

/-! ### A long command (R329) -/

theorem State.opsOf_opened (s : State) (id q : Word) (o : Op) :
    (s.opened id o).opsOf q = (s.opsOf q).map (if q = id then (· ++ [o]) else fun l => l) := by
  refine State.opsOf_mapped (s := s) (g := fun x => if x.id = id then x.addOp o else x) q rfl (fun x => ?_)
    (fun x hx => ?_)
  · split <;> rfl
  · rw [← hx]
    split <;> rfl

/-- Operations that a session held before are known on. -/
theorem State.findOp_opened {s : State} {id : Word} {o : Op} {q : OpRef} {p : Op} (known : s.findOp q = some p) :
    (s.opened id o).findOp q = some p := by
  rw [State.findOp_opsOf] at known ⊢
  rw [State.opsOf_opened]
  obtain ⟨ops, held, found⟩ := Option.bind_eq_some_iff.mp known
  rw [held, Option.map_some, Option.bind_some]
  split
  · rw [List.find?_append, found]
    rfl
  · exact found

theorem State.opened_hasOp {s : State} {id : Word} (o : Op) (known : (s.findSession id).isSome = true) :
    (s.opened id o).HasOp id o.handle o.opcode := by
  rw [State.findSession_isSome] at known
  obtain ⟨ops, held⟩ := Option.isSome_iff_exists.mp known
  refine ⟨ops ++ [o], ?_, o, List.mem_append_right _ (List.mem_singleton.mpr rfl), rfl, rfl⟩
  rw [State.opsOf_opened, held, if_pos rfl]
  rfl

/-! ### What a served request shows -/

/-- Registers, Depot, streams and operations are as another state has them. -/
structure SameView (u t : State) : Prop where
  get : ∀ k, t.get k = u.get k
  dpt : t.dpt = u.dpt
  streams : t.lnk.streams = u.lnk.streams
  variant : t.variant = u.variant
  ops : t.opsOf = u.opsOf

/-- The answer to a served request is cached, and registers, Depot, streams and operations are as execution has left them. -/
structure StateShown (t : State) (f : Form) (r : Req) (a : Ans) : Prop extends SameView a.2.2 t where
  replied : Replied t r f.op a.1 a.2.1

/-- Execution has left the port that the answer goes out on as it was. -/
structure State.PortKept (s u : State) (p : Port) : Prop where
  heldTx : u.lnk.heldTx = s.lnk.heldTx
  heldRx : u.lnk.heldRx = s.lnk.heldRx
  prov : u.get (Reg.lnkProvCtrl p) = s.get (Reg.lnkProvCtrl p)

theorem State.PortKept.of_low {s u : State} (lnk : u.lnk = s.lnk) (low : ∀ a, a < Reg.queRoute → u.get a = s.get a)
    (p : Port) : s.PortKept u p where
  heldTx := by rw [lnk]
  heldRx := by rw [lnk]
  prov := low _ (by have := p.isLt; simp only [Reg.lnkProvCtrl, Reg.queRoute]; omega)

section
variable {s : State} {f : Form} {r : Req} {x : Session} {body : Session → State → Ans}

theorem run_stateShown {a : Ans} (n : Nat) (i : Instr) (h : Served s f r x) (hc : f.closes = false)
    (ha : body (x.hear s.tim.now r) (s.arrived r) = a) (port : (s.arrived r).PortKept a.2.2 r.port)
    (found : (a.2.2.opsOf r.session).isSome = true) :
    ∃ t, run (receive r.port n i fun s => s.request f r body) s = .next t ∧ StateShown t f r a := by
  have plain : a.2.2.bit (Reg.lnkProvCtrl r.port) 31 = false := by
    rw [State.bit, port.prov, State.get_arrived_ne _ _ _ (lnkPortRx_ne r.port r.port).1]
    exact h.quiet.plain
  have heldTx : lookupK r.port.val a.2.2.lnk.heldTx = none := port.heldTx ▸ h.quiet.heldTx
  subst ha
  exact ⟨_, run_served n i body h port.heldRx,
    { replied := (State.answered_replied hc (by rw [State.findSession_isSome, found])).keeping s
      get := fun k => State.answered_get k hc plain heldTx
      dpt := State.answered_dpt
      streams := State.answered_lnk_streams
      variant := State.answered_variant
      ops := State.opsOf_answered hc }⟩

/-- A served request that is refused, or only looks. -/
theorem run_unchanged {status : BitVec 16} {data : List Byte} (n : Nat) (i : Instr) (h : Served s f r x)
    (hc : f.closes = false) (ha : body (x.hear s.tim.now r) (s.arrived r) = (status, data, s.arrived r)) :
    ∃ t, run (receive r.port n i fun s => s.request f r body) s = .next t ∧ Replied t r f.op status data
      ∧ t.dpt = s.dpt := by
  obtain ⟨t, next, shown⟩ := run_looks n i h hc ha
  exact ⟨t, next, shown.replied, shown.dpt⟩

theorem StateShown.accepted {t u : State} {k : Nat} {more : List Byte}
    (shown : StateShown t f r (St.accepted, beBytes 2 k ++ beBytes 2 0 ++ more, u)) (held : u.HasOp r.session k f.op) :
    Accepted t r f.op more := by
  obtain ⟨ops, known, o, mem, handle, opcode⟩ := held
  rw [← shown.ops] at known
  obtain ⟨y, hy, rfl⟩ := Option.map_eq_some_iff.mp known
  exact ⟨k, y, o, shown.replied, hy, mem, handle, opcode⟩

/-- A served long command of a session with room: what it begins is begun for a new operation of the session, which is
accepted while the session holds it on. -/
theorem run_accepts {k : Nat} {counts : List Nat} {more : List Byte} {go : OpRef → State → State} (n : Nat) (i : Instr)
    (h : Served s f r x) (hc : f.closes = false)
    (ha : body (x.hear s.tim.now r) (s.arrived r) = (St.accepted, beBytes 2 k ++ beBytes 2 0 ++ more,
      go ⟨r.session, k⟩ ((s.arrived r).opened r.session (Op.fresh k f.op counts))))
    (port : (s.arrived r).PortKept (go ⟨r.session, k⟩ ((s.arrived r).opened r.session (Op.fresh k f.op counts))) r.port)
    (held : ((s.arrived r).opened r.session (Op.fresh k f.op counts)).HasOp r.session k f.op →
      (go ⟨r.session, k⟩ ((s.arrived r).opened r.session (Op.fresh k f.op counts))).HasOp r.session k f.op) :
    ∃ t, run (receive r.port n i fun s => s.request f r body) s = .next t ∧ Accepted t r f.op more
      ∧ StateShown t f r (St.accepted, beBytes 2 k ++ beBytes 2 0 ++ more,
          go ⟨r.session, k⟩ ((s.arrived r).opened r.session (Op.fresh k f.op counts))) := by
  have after := held (State.opened_hasOp (Op.fresh k f.op counts) h.found_isSome)
  obtain ⟨ops, known, -⟩ := id after
  obtain ⟨t, next, shown⟩ := run_stateShown n i h hc ha port (Option.isSome_iff_exists.mpr ⟨ops, known⟩)
  exact ⟨t, next, shown.accepted after, shown⟩

/-- The session of a served request begins a long operation while it has room. -/
theorem Served.long_accepted (h : Served s f r x) (room : x.HasRoom) (op : BitVec 16) (counts : List Nat) (more : List Byte)
    (go : OpRef → State → State) :
    ∃ k, (s.arrived r).long (x.hear s.tim.now r).id op counts more go = (St.accepted, beBytes 2 k ++ beBytes 2 0 ++ more,
      go ⟨r.session, k⟩ ((s.arrived r).opened r.session (Op.fresh k op counts))) := by
  rw [h.hear_id]
  exact State.long_accepted _ _ (x.hear s.tim.now r) op counts more go h.found_arrived room

end

end Sys2Proof.Machine
end

