-- ==== Sys2Proof/Proofs/BlockMap.lean ====
section
/-! What a change of the block map leaves as it was (R181, R205, R208, R210): the hold slots with their registers, the memory,
and every other block's entry. -/

namespace Sys2Proof.Machine

/-! ### What stays with the hold slots -/

/-- What the Depot keeps of holds and drains. -/
def Depot.slots (d : Depot) : Vector Hold 4 × List Nat × Nat := (d.holds, d.drainQ, d.order)

/-- Nothing but what the Depot's writers may touch has been touched, no register of the Depot below DPT_STACK0_STAT, no
operation and no slot. -/
structure SlotsKept (s u : State) : Prop where
  rest : u = s.depotInto u
  get : ∀ a, a < Reg.dptStackStat 0 → u.get a = s.get a
  ops : u.opsOf = s.opsOf
  slots : u.dpt.slots = s.dpt.slots

/-- Besides, the memory stays, and every entry of the map but those of the blocks that `p` names. -/
structure MapKept (p : Nat → Prop) (s u : State) : Prop extends SlotsKept s u where
  mem : u.dpt.mem = s.dpt.mem
  ent : ∀ c, ¬ p c → u.mapEnt c = s.mapEnt c

theorem State.regionOwner_congr {s u : State} (region : u.get Reg.dptRegion = s.get Reg.dptRegion)
    (variant : u.variant = s.variant) : u.regionOwner = s.regionOwner := by
  funext b
  unfold State.regionOwner State.systemBase State.ringGib State.storeGib State.holdGib State.fitted State.fld
  rw [region, variant]

namespace SlotsKept
variable {s u v : State}

theorem refl (s : State) : SlotsKept s s := ⟨rfl, fun _ _ => rfl, rfl, rfl⟩

theorem trans (h : SlotsKept s u) (k : SlotsKept u v) : SlotsKept s v where
  rest := Eq.trans k.rest (congrArg (State.depotInto · v) h.rest :)
  get a ha := (k.get a ha).trans (h.get a ha)
  ops := k.ops.trans h.ops
  slots := k.slots.trans h.slots

theorem lnk (h : SlotsKept s u) : u.lnk = s.lnk := (congrArg State.lnk h.rest :)
theorem tim (h : SlotsKept s u) : u.tim = s.tim := (congrArg State.tim h.rest :)
theorem variant (h : SlotsKept s u) : u.variant = s.variant := (congrArg State.variant h.rest :)
theorem holds (h : SlotsKept s u) : u.dpt.holds = s.dpt.holds := congrArg Prod.fst h.slots
theorem drainQ (h : SlotsKept s u) : u.dpt.drainQ = s.dpt.drainQ := congrArg (fun x => x.2.1) h.slots
theorem order (h : SlotsKept s u) : u.dpt.order = s.dpt.order := congrArg (fun x => x.2.2) h.slots

theorem bit (h : SlotsKept s u) {a : Nat} (ha : a < Reg.dptStackStat 0) (i : Nat) : u.bit a i = s.bit a i := by
  rw [State.bit, h.get a ha, State.bit]

theorem fld (h : SlotsKept s u) {a : Nat} (ha : a < Reg.dptStackStat 0) (hi lo : Nat) : u.fld a hi lo = s.fld a hi lo := by
  rw [State.fld, h.get a ha, State.fld]

theorem holdState (h : SlotsKept s u) (n : Fin 4) : u.holdState n = s.holdState n :=
  h.fld (by have := n.isLt; simp only [Reg.dptHoldStat, Reg.dptStackStat]; omega) ..

theorem mapEnt (h : SlotsKept s u) (map : u.dpt.map = s.dpt.map) : u.mapEnt = s.mapEnt := by
  funext b
  rw [State.mapEnt, State.mapEnt, map, State.regionOwner_congr (h.get _ (by decide)) h.variant]

/-- A change of the Depot that leaves the slots. -/
theorem withDpt (h : SlotsKept s u) {f : Depot → Depot} (slots : (f u.dpt).slots = u.dpt.slots) :
    SlotsKept s (u.withDpt f) :=
  h.trans ⟨rfl, fun _ _ => rfl, rfl, slots⟩

theorem takeFree (h : SlotsKept s u) : SlotsKept s u.takeFree.2 := h.trans ⟨rfl, fun _ _ => rfl, rfl, rfl⟩

theorem attend (h : SlotsKept s u) (b : Nat) : SlotsKept s (u.attend b) :=
  h.trans ⟨rfl, fun _ _ => rfl, u.opsOf_attend b, rfl⟩

/-- With a register from DPT_STACK0_STAT on set none below it changes; fields, bits and counters are set so too. -/
theorem set (h : SlotsKept s u) {a : Nat} (w : Word) (ha : Reg.dptStackStat 0 ≤ a) : SlotsKept s (u.set a w) :=
  h.trans ⟨rfl, fun b hb => State.get_set_ne _ _ _ _ (by omega), rfl, rfl⟩

theorem setFld (h : SlotsKept s u) {a : Nat} (hi lo x : Nat) (ha : Reg.dptStackStat 0 ≤ a) : SlotsKept s (u.setFld a hi lo x) :=
  h.set _ ha

theorem setBit (h : SlotsKept s u) {a : Nat} (i : Nat) (b : Bool) (ha : Reg.dptStackStat 0 ≤ a) :
    SlotsKept s (u.setBit a i b) := h.set _ ha

theorem bump (h : SlotsKept s u) {a : Nat} (ha : Reg.dptStackStat 0 ≤ a) : SlotsKept s (u.bump a) := h.set _ ha

/-- Where the map and the memory stay too. -/
theorem mapKept (h : SlotsKept s u) (map : u.dpt.map = s.dpt.map) (mem : u.dpt.mem = s.dpt.mem) (p : Nat → Prop) :
    MapKept p s u :=
  { h with mem := mem, ent := fun c _ => congrFun (h.mapEnt map) c }

end SlotsKept

namespace MapKept
variable {s u v : State} {p q : Nat → Prop}

theorem refl (p : Nat → Prop) (s : State) : MapKept p s s := (SlotsKept.refl s).mapKept rfl rfl p

theorem trans (h : MapKept p s u) (k : MapKept p u v) : MapKept p s v :=
  { h.toSlotsKept.trans k.toSlotsKept with
    mem := k.mem.trans h.mem, ent := fun c hc => (k.ent c hc).trans (h.ent c hc) }

theorem mono (h : MapKept p s u) (sub : ∀ c, p c → q c) : MapKept q s u :=
  { h with ent := fun c hc => h.ent c fun hp => hc (sub c hp) }

theorem foldl {α : Type} {f : State → α → State} (l : List α) (hf : ∀ x ∈ l, ∀ s, MapKept p s (f s x)) :
    ∀ s, MapKept p s (l.foldl f s) := by
  induction l with
  | nil => exact refl p
  | cons x l ih =>
    intro s
    have first := hf x List.mem_cons_self s
    exact first.trans (ih (fun y hy => hf y (List.mem_cons_of_mem x hy)) _)

/-- Later changes that leave map and memory. -/
theorem still (h : MapKept p s u) (k : SlotsKept u v) (map : v.dpt.map = u.dpt.map) (mem : v.dpt.mem = u.dpt.mem) :
    MapKept p s v := h.trans (k.mapKept map mem p)

end MapKept

/-! ### Map writes (R210) -/

/-- A map flip reaches its own registers and the errors of the map. -/
theorem State.mapFlip_slotsKept (b : Nat) (s : State) : SlotsKept s (s.mapFlip b) := by
  unfold State.mapFlip
  dsimp only
  split
  · refine SlotsKept.set (.setBit (.setBit (.set (.set (.set ?_ _ (by decide)) _ (by decide)) _ (by decide)) _ _ (by decide))
      _ _ (by decide)) _ (by decide)
    split
    · exact .refl s
    · exact (SlotsKept.refl s).withDpt rfl
  · exact .refl s

theorem State.mapFlip_dpt (b : Nat) (s : State) : (s.mapFlip b).dpt = { s.dpt with mapErrs := (s.mapFlip b).dpt.mapErrs } := by
  unfold State.mapFlip
  dsimp only
  split
  · split <;> rfl
  · rfl

/-- Without an armed mask a map write flips nothing. -/
theorem State.mapFlip_unarmed {s : State} (unarmed : s.bit Reg.dptMapflipCtrl 0 = false) (b : Nat) : s.mapFlip b = s := by
  rw [State.mapFlip, unarmed]
  rfl

theorem State.setEnt_slotsKept (b : Nat) (e : MapEnt) (s : State) : SlotsKept s (s.setEnt b e) :=
  ((SlotsKept.refl s).withDpt rfl).trans (State.mapFlip_slotsKept ..)

theorem State.mapEnt_setEnt (b : Nat) (e : MapEnt) (s : State) : (s.setEnt b e).mapEnt = Function.update s.mapEnt b e := by
  have put : (s.setEnt b e).dpt.map = putK b e s.dpt.map := (congrArg Depot.map (State.mapFlip_dpt b _) :)
  have owner := State.regionOwner_congr ((s.setEnt_slotsKept b e).get Reg.dptRegion (by decide)) (s.setEnt_slotsKept b e).variant
  funext c
  by_cases own : c = b
  · rw [own, Function.update_self, State.mapEnt, put, lookupK_putK_same]
    rfl
  · rw [Function.update_of_ne own, State.mapEnt, put, lookupK_putK_ne _ _ _ _ own, owner, ← State.mapEnt]

theorem State.setEnt_mapKept (b : Nat) (e : MapEnt) (s : State) : MapKept (· = b) s (s.setEnt b e) :=
  { s.setEnt_slotsKept b e with
    mem := (congrArg Depot.mem (State.mapFlip_dpt b _) :)
    ent := fun c hc => by rw [State.mapEnt_setEnt, Function.update_of_ne hc] }

/-! ### Entries that are decoded (R205, R206, R208) -/

theorem State.addLog_slotsKept (kind : Nat) (src : LogSource) (owner bucket addr : Nat) (s : State) :
    SlotsKept s (s.addLog kind src owner bucket addr) :=
  (((SlotsKept.refl s).withDpt rfl).setFld _ _ _ (by decide)).setFld _ _ _ (by decide)

theorem State.bucketAdd_slotsKept (i : Nat) (src : LogSource) (owner : Nat) (s : State) :
    SlotsKept s (s.bucketAdd i src owner) ∧ (s.bucketAdd i src owner).dpt.map = s.dpt.map
      ∧ (s.bucketAdd i src owner).dpt.mem = s.dpt.mem := by
  have counter : Reg.dptStackStat 0 ≤ Reg.dptCeCnt i := by simp only [Reg.dptStackStat, Reg.dptCeCnt]; omega
  have bucket : Reg.dptStackStat 0 ≤ Reg.dptBucket i := by simp only [Reg.dptStackStat, Reg.dptBucket]; omega
  have counted := (SlotsKept.refl s).bump counter
  unfold State.bucketAdd
  dsimp only
  split
  · exact ⟨(((counted.setFld _ _ _ bucket).setBit _ _ (by decide)).trans (State.addLog_slotsKept ..)).attend _, rfl, rfl⟩
  · exact ⟨counted.setFld _ _ _ bucket, rfl, rfl⟩

theorem State.mapLost_mapKept (b : Nat) (src : LogSource) (s : State) : MapKept (· = b) s (s.mapLost b src) := by
  unfold State.mapLost
  refine MapKept.still (MapKept.trans (SlotsKept.mapKept ((SlotsKept.refl s).withDpt ?_) ?_ ?_ _)
    (State.setEnt_mapKept ..)) ((((State.addLog_slotsKept ..).bump (by decide)).setBit _ _ (by decide)).attend _) ?_ ?_ <;> rfl

theorem State.checkMap_mapKept (b : Nat) (src : LogSource) (s : State) : MapKept (· = b) s (s.checkMap b src) := by
  have fixed (u : State) : MapKept (· = b) u ((u.setEnt b (u.mapEnt b)).bucketAdd 4 src (u.mapEnt b).owner.toNat) := by
    obtain ⟨kept, map, mem⟩ := State.bucketAdd_slotsKept 4 src (u.mapEnt b).owner.toNat (u.setEnt b (u.mapEnt b))
    exact (State.setEnt_mapKept ..).still kept map mem
  have wide : MapKept (· = b) s s.takeFree.2 := (SlotsKept.refl s).takeFree.mapKept rfl rfl _
  unfold State.checkMap
  split
  · exact .refl _ s
  · dsimp only
    split
    · exact .refl _ s
    · exact fixed s
    · exact State.mapLost_mapKept ..
    · split
      · exact wide
      · exact wide.trans (fixed _)
      · exact wide.trans (State.mapLost_mapKept ..)

theorem State.decodeBlocks_slotsKept (bs : List Nat) (src : LogSource) (s : State) : SlotsKept s (s.decodeBlocks bs src) :=
  (MapKept.foldl (p := fun _ => True) _ (fun b _ s => (State.checkMap_mapKept b src s).mono fun _ _ => trivial) s).toSlotsKept

/-! ### Entries that are changed -/

theorem State.changeEnt_mapKept (b : Nat) (f : MapEnt → MapEnt) (s : State) : MapKept (· = b) s (s.changeEnt b f) :=
  (State.checkMap_mapKept ..).trans (State.setEnt_mapKept ..)

/-- An entry holds what it is changed to, whatever its decoding has made of it. -/
theorem State.mapEnt_changeEnt (b : Nat) (f : MapEnt → MapEnt) (s : State) : ∃ e, (s.changeEnt b f).mapEnt b = f e :=
  ⟨_, by rw [State.changeEnt, State.mapEnt_setEnt, Function.update_self]⟩

/-- Entries changed one by one. -/
def State.changeEnts (f : MapEnt → MapEnt) (bs : List Nat) (s : State) : State := bs.foldl (fun s b => s.changeEnt b f) s

theorem State.changeEnts_mapKept (f : MapEnt → MapEnt) (bs : List Nat) (s : State) :
    MapKept (· ∈ bs) s (s.changeEnts f bs) :=
  .foldl bs (fun b hb s => (State.changeEnt_mapKept b f s).mono fun _ eq => eq ▸ hb) s

theorem State.mapEnt_changeEnts (f : MapEnt → MapEnt) (bs : List Nat) {b : Nat} (hb : b ∈ bs) :
    ∀ s : State, ∃ e, (s.changeEnts f bs).mapEnt b = f e := by
  induction bs with
  | nil => exact absurd hb List.not_mem_nil
  | cons c bs ih =>
    intro s
    by_cases again : b ∈ bs
    · exact ih again _
    · obtain rfl := (List.mem_cons.mp hb).resolve_right again
      obtain ⟨e, changed⟩ := State.mapEnt_changeEnt b f s
      exact ⟨e, ((State.changeEnts_mapKept f bs _).ent b again).trans changed⟩

/-- Blocks lent are blocks that the reserve holds (R180). -/
theorem State.lendBlocks_mapKept (o : BitVec 3) (k : Nat) (s : State) :
    MapKept (fun b => (s.mapEnt b).owner = 3) s (s.lendBlocks o k) := by
  refine .foldl _ (fun b hb u => ?_) s
  have free : (s.mapEnt b).owner = 3 := by simpa using (List.mem_filter.mp (List.mem_of_mem_take hb)).2
  exact ((State.changeEnt_mapKept b _ u).mono fun _ eq => eq ▸ free).still ((SlotsKept.refl _).withDpt rfl) rfl rfl

/-- A map without errors, with no mask armed against its writes (R210). -/
def State.MapClean (s : State) : Prop := s.dpt.mapErrs = [] ∧ s.bit Reg.dptMapflipCtrl 0 = false

/-- A clean map's entry changes without touching what the Depot knows of units and records. -/
theorem State.MapClean.changeEnt {s : State} (clean : s.MapClean) (b : Nat) (f : MapEnt → MapEnt) :
    (s.changeEnt b f).MapClean ∧ (s.changeEnt b f).dpt.units = s.dpt.units ∧ (s.changeEnt b f).dpt.recs = s.dpt.recs := by
  obtain ⟨errs, unarmed⟩ := clean
  have checked : s.checkMap b .mapLookup = s := s.checkMap_intact errs ..
  have changed : s.changeEnt b f
      = s.withDpt fun d => { d with map := putK b (f (s.mapEnt b)) d.map, mapErrs := dropK b d.mapErrs } := by
    rw [State.changeEnt, checked]
    exact State.mapFlip_unarmed (s := s.withDpt _) unarmed b
  rw [changed]
  exact ⟨⟨(congrArg (dropK b) errs :), unarmed⟩, rfl, rfl⟩

theorem State.MapClean.changeEnts {f : MapEnt → MapEnt} (bs : List Nat) : ∀ {s : State}, s.MapClean →
    (s.changeEnts f bs).dpt.units = s.dpt.units ∧ (s.changeEnts f bs).dpt.recs = s.dpt.recs := by
  induction bs with
  | nil => exact fun _ => ⟨rfl, rfl⟩
  | cons b bs ih =>
    intro s clean
    obtain ⟨next, units, recs⟩ := clean.changeEnt b f
    obtain ⟨units', recs'⟩ := ih next
    exact ⟨units'.trans units, recs'.trans recs⟩

end Sys2Proof.Machine
end

