-- ==== Sys2Proof/Proofs/DepotRegisterWrites.lean ====
section
/-! Writes of the Depot's own registers (R178, R179, R181, R210): the division of the Depot, the flip masks and the selected
map entry. -/

namespace Sys2Proof.Machine

/-! ### A served write -/

/-- A served write of a register is answered with its status and shows what the write has left. -/
theorem rowWrite_shows {s : State} {r : Req} {x : Session} {a : Nat} {v : Word} {q : BitVec 16 × State} {l : List Nat}
    (n : Nat) (i : Instr) (h : Served s writeForm r x) (ha : a < 2 ^ 32)
    (hq : (s.arrived r).writeReg r.session a v 0xFFFFFFFF 0 = q) (lnk : q.2.lnk = (s.arrived r).lnk)
    (ops : q.2.opsOf = (s.arrived r).opsOf) (regs : (s.arrived r).KeepsRegs q.2 l) (above : ∀ b ∈ l, Reg.queRoute ≤ b) :
    ∃ t, run (receive r.port n i fun s => s.rowWrite r a v 0) s = .next t ∧ StateShown t writeForm r (q.1, [], q.2)
      ∧ s.KeepsRegs t (Reg.lnkPortRx r.port :: l) := by
  have low (k : Nat) (hk : k < Reg.queRoute) : q.2.get k = (s.arrived r).get k :=
    regs k fun mem => absurd (above k mem) (by omega)
  have answer : (s.arrived r).overLink r a ((s.arrived r).regWrite (BitVec.ofNat 32 a) v 0 (x.hear s.tim.now r))
      = (q.1, [], q.2) := by
    rw [State.overLink_kept _ _ _ _ h.link, State.regWrite, BitVec.toNat_ofNat, Nat.mod_eq_of_lt ha, h.hear_id, hq]
  obtain ⟨t, next, shown⟩ := run_stateShown
    (body := fun x s => s.overLink r a (s.regWrite (BitVec.ofNat 32 a) v 0 x)) n i h rfl answer (.of_low lnk low r.port)
    (by rw [ops, ← State.findSession_isSome, h.found_arrived]; rfl)
  refine ⟨t, next, shown, fun k hk => ?_⟩
  obtain ⟨hrx, hl⟩ := not_or.mp (mt List.mem_cons.mpr hk)
  rw [shown.get, regs k hl, State.get_arrived_ne _ _ _ hrx]

/-! ### Registers that a write replaces at once -/

/-- A register of the Depot that a write of all its bits replaces within the mask `m`: it stands alone as 32 bits, takes
every value at once, and is neither in the shadow nor locked while something runs. -/
structure DepotReg (a : Nat) (m : Word) : Prop where
  notHi : wholeLo (a - 4) = false
  notLo : wholeLo a = false
  notRegion : a ≠ Reg.dptRegion
  notGate : a ≠ Reg.clkGateHostEng ∧ a ≠ Reg.clkGateHostMisc
  depot : Reg.dptCtrl ≤ a ∧ a < 0x100000
  notLk : lkMask a = 0
  any : ∀ f ∈ fieldsAt a, f.lim = .any
  shadow : fieldMask isSh (fieldsAt a) = 0
  direct : fieldMask isDirect (fieldsAt a) = m
  kept : writeMask a 0xFFFFFFFF &&& fieldMask isKept (fieldsAt a) = m

/-- Two words agree within a mask. -/
def AgreeIn (m w v : Word) : Prop := ∀ j, m.getLsbD j = true → w.getLsbD j = v.getLsbD j

theorem AgreeIn.bits {m w v : Word} (h : AgreeIn m w v) (hi lo : Nat)
    (inside : ∀ j < hi + 1 - lo, m.getLsbD (lo + j) = true) : bits w hi lo = bits v hi lo := by
  apply Nat.eq_of_testBit_eq
  intro j
  rw [bits_testBit, bits_testBit]
  by_cases hj : j < hi + 1 - lo
  · rw [h _ (inside j hj)]
  · rw [decide_eq_false hj, Bool.false_and, Bool.false_and]

theorem agreeIn_merge (x y m : Word) : AgreeIn m ((x &&& ~~~m) ||| (y &&& m)) y := fun j hj => by
  rw [BitVec.getLsbD_or, BitVec.getLsbD_and, BitVec.getLsbD_and, BitVec.getLsbD_not, hj, Bool.not_true, Bool.and_false,
    Bool.and_false, Bool.false_or, Bool.and_true]

namespace DepotReg
variable {s : State} {id : Word} {a : Nat} {v m : Word}

theorem word (h : DepotReg a m) : a < 2 ^ 32 := Nat.lt_trans h.depot.2 (by decide)

theorem above (h : DepotReg a m) : ∀ b ∈ [a], Reg.queRoute ≤ b := fun b hb =>
  List.mem_singleton.mp hb ▸ Nat.le_trans (by decide) h.depot.1

theorem rangesOk (h : DepotReg a m) (new mask : Word) : rangesOk32 (fieldsAt a) new mask = true := by
  refine List.all_eq_true.mpr fun f hf => ?_
  rw [h.any f hf, limitOk, Bool.or_true]

theorem lkRefuses (h : DepotReg a m) (old new : Word) : s.lkRefuses a old new = false := by
  have notTile : ¬ (0x100000 ≤ a ∧ 0x4040 ≤ a % 0x10000 ∧ a % 0x10000 ≤ 0x4050) := fun tile =>
    absurd tile.1 (Nat.not_le_of_gt h.depot.2)
  simp [State.lkRefuses, h.notGate.2, notTile, h.notLk]

theorem newValue_agrees (h : DepotReg a m) (s : State) (v : Word) : AgreeIn m (s.newValue a v 0xFFFFFFFF) v := by
  rw [State.newValue, BitVec.and_assoc, h.kept]
  exact agreeIn_merge _ _ _

/-- A write in a mode that permits it, which the block takes, stores the fields of `m` and has the register's own effects. -/
theorem writeReg_stores (h : DepotReg a m) (hr : s.addrRefused a = none) (mode : ∀ on, s.modeBlocks a on = false)
    (block : ∀ on mask, s.blockRefuses a (s.newValue a v 0xFFFFFFFF) on mask = none) :
    ∃ w on mask, s.writeReg id a v 0xFFFFFFFF 0 = (St.ok, (s.set a w).writeActs a on mask s)
      ∧ AgreeIn m w v := by
  refine ⟨_, _, _, (State.writeReg_checked hr (mode _) h.notHi h.notLo h.notRegion h.notGate (h.rangesOk ..) (block ..)
    (h.lkRefuses ..)).trans (by rw [State.storeFields_noShadow _ _ _ h.shadow]), fun j hj => ?_⟩
  rw [h.direct, BitVec.or_comm m, BitVec.not_or, ← BitVec.and_assoc, agreeIn_merge _ _ _ j hj, h.newValue_agrees s v j hj]

theorem writeReg_refused {st : BitVec 16} (h : DepotReg a m) (hr : s.addrRefused a = none)
    (mode : ∀ on, s.modeBlocks a on = false)
    (block : ∀ on mask, s.blockRefuses a (s.newValue a v 0xFFFFFFFF) on mask = some st) :
    s.writeReg id a v 0xFFFFFFFF 0 = (st, s) := by
  have mode' := mode (v &&& writeMask a 0xFFFFFFFF)
  have block' := block (v &&& writeMask a 0xFFFFFFFF) (writeMask a 0xFFFFFFFF)
  unfold State.newValue writeMask at block'
  unfold writeMask at mode'
  unfold State.writeReg
  simp only [hr, mode', h.notHi, h.notLo, h.notRegion, h.rangesOk, block', Bool.false_and, Bool.not_true, Bool.false_eq_true,
    if_false]

/-- A served write that is taken and starts nothing. -/
theorem stored {r : Req} {x : Session} (h : DepotReg a m) (n : Nat) (i : Instr) (served : Served s writeForm r x)
    (hr : s.addrRefused a = none) (mode : ∀ on, (s.arrived r).modeBlocks a on = false)
    (block : ∀ on mask, (s.arrived r).blockRefuses a ((s.arrived r).newValue a v 0xFFFFFFFF) on mask = none)
    (still : ∀ w on mask, ((s.arrived r).set a w).writeActs a on mask (s.arrived r) = (s.arrived r).set a w) :
    ∃ t, run (receive r.port n i fun s => s.rowWrite r a v 0) s = .next t ∧ Replied t r 0x0101 St.ok []
      ∧ AgreeIn m (t.get a) v ∧ s.KeepsRegs t [Reg.lnkPortRx r.port, a] := by
  obtain ⟨w, on, mask, written, value⟩ :=
    h.writeReg_stores (id := r.session) ((s.arrived_addrRefused r a).trans hr) mode block
  rw [still] at written
  obtain ⟨t, next, shown, kept⟩ := rowWrite_shows n i served h.word written rfl rfl
    (State.keepsRegs_set _ _ _) h.above
  refine ⟨t, next, shown.replied, ?_, kept⟩
  rw [shown.get, State.get_set_same]
  exact value

end DepotReg

/-! ### The registers of the statement -/

theorem depotReg_dptFlipCtrl : DepotReg Reg.dptFlipCtrl 0xFF03 := by constructor <;> decide +kernel
theorem depotReg_dptFlipAddr : DepotReg Reg.dptFlipAddr 0x7FFFFFFF := by constructor <;> decide +kernel
theorem depotReg_dptMapflipCtrl : DepotReg Reg.dptMapflipCtrl 1 := by constructor <;> decide +kernel
theorem depotReg_dptMapSel : DepotReg Reg.dptMapSel 0x7FFFF := by constructor <;> decide +kernel

/-! ### Flip masks (R179, R210) -/

section
variable {s : State} {r : Req} {x : Session} {v : Word}

theorem State.modeBlocks_flip {a : Nat} (flip : isFlip a = true) (test : s.inMode .test = true) (on : Word) :
    s.modeBlocks a on = false := by
  simp [State.modeBlocks, flip, test]

theorem State.arrived_systemBase (s : State) (r : Req) : (s.arrived r).systemBase = s.systemBase := by
  unfold State.systemBase State.ringGib State.storeGib State.holdGib State.fld
  rw [s.get_arrived_above r (by decide)]

theorem State.arrived_isSystemLine (s : State) (r : Req) (l : Nat) : (s.arrived r).isSystemLine l = s.isSystemLine l := by
  rw [State.isSystemLine, s.arrived_systemBase r]
  rfl

theorem dptFlipArm_stored (h : Served s writeForm r x) (hr : s.addrRefused Reg.dptFlipCtrl = none)
    (test : s.inMode .test = true) :
    ∃ u, exec (.dptFlipArm r v) s = .next u ∧ Replied u r 0x0101 St.ok [] ∧ u.fld Reg.dptFlipCtrl 15 8 = bits v 15 8
      ∧ u.fld Reg.dptFlipCtrl 1 0 = bits v 1 0 ∧ s.KeepsRegs u [Reg.lnkPortRx r.port, Reg.dptFlipCtrl] := by
  obtain ⟨u, next, replied, agree, kept⟩ := depotReg_dptFlipCtrl.stored (v := v) (wireLen r) (.dptFlipArm r v) h hr
    (State.modeBlocks_flip rfl ((s.arrived_inMode r _).trans test)) (fun _ _ => rfl) (fun _ _ _ => rfl)
  exact ⟨u, next, replied, agree.bits 15 8 (by decide), agree.bits 1 0 (by decide), kept⟩

theorem State.blockRefuses_dptFlipAddr (s : State) (new on mask : Word) : s.blockRefuses Reg.dptFlipAddr new on mask
    = if s.isSystemLine (bits new 30 0) then some St.badAddress else none := rfl

theorem State.line_newValue (s : State) (v : Word) :
    bits (s.newValue Reg.dptFlipAddr v 0xFFFFFFFF) 30 0 = bits v 30 0 :=
  (depotReg_dptFlipAddr.newValue_agrees s v).bits 30 0 (by decide)

theorem dptFlipAddr_stored (h : Served s writeForm r x) (hr : s.addrRefused Reg.dptFlipAddr = none)
    (test : s.inMode .test = true) (named : bits v 30 0 / 4096 < s.systemBase ∨ s.fitted ≤ bits v 30 0 / 4096) :
    ∃ u, exec (.dptFlipAddr r v) s = .next u ∧ Replied u r 0x0101 St.ok [] ∧ u.fld Reg.dptFlipAddr 30 0 = bits v 30 0
      ∧ s.KeepsRegs u [Reg.lnkPortRx r.port, Reg.dptFlipAddr] := by
  have host : s.isSystemLine (bits v 30 0) = false := by
    rw [State.isSystemLine, Bool.and_eq_false_iff, decide_eq_false_iff_not, decide_eq_false_iff_not]
    omega
  obtain ⟨u, next, replied, agree, kept⟩ := depotReg_dptFlipAddr.stored (v := v) (wireLen r) (.dptFlipAddr r v) h hr
    (State.modeBlocks_flip rfl ((s.arrived_inMode r _).trans test))
    (fun _ _ => by rw [State.blockRefuses_dptFlipAddr, State.line_newValue, s.arrived_isSystemLine, host]; rfl)
    (fun _ _ _ => rfl)
  exact ⟨u, next, replied, agree.bits 30 0 (by decide), kept⟩

/-- A line of the System region cannot be named (R179). -/
theorem dptFlipAddr_refused (h : Served s writeForm r x) (hr : s.addrRefused Reg.dptFlipAddr = none)
    (test : s.inMode .test = true) (system : s.systemBase ≤ bits v 30 0 / 4096) (fitted : bits v 30 0 / 4096 < s.fitted) :
    ∃ u, exec (.dptFlipAddr r v) s = .next u ∧ Replied u r 0x0101 St.badAddress []
      ∧ s.KeepsRegs u [Reg.lnkPortRx r.port] := by
  have hidden : s.isSystemLine (bits v 30 0) = true := by
    rw [State.isSystemLine, decide_eq_true system, decide_eq_true fitted]
    rfl
  have refused := depotReg_dptFlipAddr.writeReg_refused (s := s.arrived r) (id := r.session) (v := v)
    ((s.arrived_addrRefused r _).trans hr) (State.modeBlocks_flip rfl ((s.arrived_inMode r _).trans test))
    (fun _ _ => by rw [State.blockRefuses_dptFlipAddr, State.line_newValue, s.arrived_isSystemLine, hidden]; rfl)
  obtain ⟨u, next, shown, kept⟩ := rowWrite_shows (l := []) (wireLen r) (.dptFlipAddr r v) h depotReg_dptFlipAddr.word
    refused rfl rfl (fun _ _ => rfl) (fun _ hb => absurd hb List.not_mem_nil)
  exact ⟨u, next, shown.replied, kept⟩

theorem dptMapflipArm_stored (h : Served s writeForm r x) (hr : s.addrRefused Reg.dptMapflipCtrl = none)
    (test : s.inMode .test = true) :
    ∃ u, exec (.dptMapflipArm r v) s = .next u ∧ Replied u r 0x0101 St.ok []
      ∧ u.bit Reg.dptMapflipCtrl 0 = v.getLsbD 0 ∧ s.KeepsRegs u [Reg.lnkPortRx r.port, Reg.dptMapflipCtrl] := by
  obtain ⟨u, next, replied, agree, kept⟩ := depotReg_dptMapflipCtrl.stored (v := v) (wireLen r) (.dptMapflipArm r v) h hr
    (State.modeBlocks_flip rfl ((s.arrived_inMode r _).trans test)) (fun _ _ => rfl) (fun _ _ _ => rfl)
  exact ⟨u, next, replied, agree 0 rfl, kept⟩

/-! ### The selected map entry (R181) -/

/-- An entry without an error is decoded as it stands. -/
theorem State.checkMap_clean {s : State} {b : Nat} (clean : lookupK b s.dpt.mapErrs = none) (src : LogSource) :
    s.checkMap b src = s := by
  rw [State.checkMap, clean]

theorem State.modeBlocks_dptMapSel (s : State) (on : Word) : s.modeBlocks Reg.dptMapSel on = false := rfl

theorem State.writeActs_dptMapSel (s old : State) (on mask : Word) :
    s.writeActs Reg.dptMapSel on mask old = s.latchMap (s.fld Reg.dptMapSel 18 0) := rfl

theorem State.blockRefuses_dptMapSel (s : State) (new on mask : Word) : s.blockRefuses Reg.dptMapSel new on mask
    = if s.fitted ≤ bits new 18 0 then some St.notFitted else none := rfl

theorem State.latchMap_clean {s : State} {b : Nat} (clean : lookupK b s.dpt.mapErrs = none) :
    s.latchMap b = s.withDpt fun d => { d with mapSel := entWord (s.mapEnt b) } := by
  rw [State.latchMap, State.checkMap_clean clean]

/-- A fitted block's entry without an error is latched as it stands. -/
theorem dptMapSel_latched (h : Served s writeForm r x) (hr : s.addrRefused Reg.dptMapSel = none)
    (fitted : bits v 18 0 < s.fitted) (clean : lookupK (bits v 18 0) s.dpt.mapErrs = none) :
    ∃ u, exec (.dptMapSel r v) s = .next u ∧ Replied u r 0x0101 St.ok []
      ∧ u.dpt.mapSel = entWord (s.mapEnt (bits v 18 0)) ∧ u.fld Reg.dptMapSel 18 0 = bits v 18 0
      ∧ s.KeepsRegs u [Reg.lnkPortRx r.port, Reg.dptMapSel] := by
  have block (on mask : Word) : (s.arrived r).blockRefuses Reg.dptMapSel ((s.arrived r).newValue Reg.dptMapSel v 0xFFFFFFFF)
      on mask = none := by
    rw [State.blockRefuses_dptMapSel, (depotReg_dptMapSel.newValue_agrees _ v).bits 18 0 (by decide)]
    exact if_neg (Nat.not_le_of_gt fitted)
  obtain ⟨w, on, mask, written, agree⟩ := depotReg_dptMapSel.writeReg_stores (id := r.session)
    ((s.arrived_addrRefused r _).trans hr) (State.modeBlocks_dptMapSel _) block
  have selected : ((s.arrived r).set Reg.dptMapSel w).fld Reg.dptMapSel 18 0 = bits v 18 0 := by
    rw [State.fld, State.get_set_same, agree.bits 18 0 (by decide)]
  have entries : ((s.arrived r).set Reg.dptMapSel w).mapEnt = s.mapEnt :=
    (((SlotsKept.refl (s.arrived r)).set w (by decide)).mapEnt rfl).trans (s.arrived_mapEnt r)
  rw [State.writeActs_dptMapSel, selected,
    State.latchMap_clean (s := (s.arrived r).set Reg.dptMapSel w) clean, entries] at written
  generalize entWord (s.mapEnt (bits v 18 0)) = e at written ⊢
  obtain ⟨u, next, shown, kept⟩ := rowWrite_shows (wireLen r) (.dptMapSel r v) h depotReg_dptMapSel.word written
    ((State.withDpt_lnk ..).trans (State.set_lnk ..)) ((State.opsOf_withDpt ..).trans (State.opsOf_set ..))
    (fun k hk => (State.withDpt_get ..).trans (State.keepsRegs_set _ _ w k hk)) depotReg_dptMapSel.above
  refine ⟨u, next, shown.replied, ?_, ?_, kept⟩
  · rw [shown.dpt]
    rfl
  · rw [State.fld, shown.get, State.withDpt_get]
    exact selected

/-! ### The division of the Depot (R178) -/

theorem regionMask : writeMask Reg.dptRegion 0xFFFFFFFF &&& fieldMask isKept (fieldsAt Reg.dptRegion) = 0xFFFFFF := by
  decide +kernel

theorem State.region_newValue (s : State) (v : Word) : AgreeIn 0xFFFFFF (s.newValue Reg.dptRegion v 0xFFFFFFFF) v := by
  rw [State.newValue, BitVec.and_assoc, regionMask]
  exact agreeIn_merge _ _ _

/-- A division that R178 takes is in force at once. -/
theorem State.writeReg_dptRegion {s : State} {id : Word} (hr : s.addrRefused Reg.dptRegion = none)
    (taken : s.regionRefuses (s.newValue Reg.dptRegion v 0xFFFFFFFF) = none) :
    s.writeReg id Reg.dptRegion v 0xFFFFFFFF 0 = (St.ok, s.resizeRegions (bits v 7 0) (bits v 15 8) (bits v 23 16)) := by
  have agree := s.region_newValue v
  rw [← agree.bits 7 0 (by decide), ← agree.bits 15 8 (by decide), ← agree.bits 23 16 (by decide)]
  have mode (on : Word) : s.modeBlocks Reg.dptRegion on = false := rfl
  have notHi : wholeLo (Reg.dptRegion - 4) = false := rfl
  have notLo : wholeLo Reg.dptRegion = false := rfl
  unfold State.newValue writeMask at taken ⊢
  unfold State.writeReg
  simp only [hr, mode, notHi, notLo, taken, Bool.false_and, Bool.false_eq_true, if_false, if_true]

/-- In Standby with no hold R178 takes every division into parts that all have their size. -/
theorem State.regionRefuses_none {s : State} {w : Word} (standby : s.inMode .standby = true)
    (free : ∀ n : Fin 4, s.holdState n = 0) (ring : bits w 7 0 ≠ 0) (store : bits w 15 8 ≠ 0)
    (room : bits w 7 0 + bits w 15 8 + bits w 23 16 + 4 ≤ s.fitted / 4096) : s.regionRefuses w = none := by
  unfold State.regionRefuses
  dsimp only
  rw [if_neg (by omega), if_neg (by omega), if_neg (by simp [standby]), if_neg (by simp [standby, free])]

/-- The fields of DPT_REGION. -/
theorem region_fields {ring store hold sys : Nat} (hring : ring < 256) (hstore : store < 256) (hhold : hold < 256)
    (hsys : sys < 256) : bits (BitVec.ofNat 32 (sys * 2 ^ 24 + hold * 2 ^ 16 + store * 2 ^ 8 + ring)) 7 0 = ring
      ∧ bits (BitVec.ofNat 32 (sys * 2 ^ 24 + hold * 2 ^ 16 + store * 2 ^ 8 + ring)) 15 8 = store
      ∧ bits (BitVec.ofNat 32 (sys * 2 ^ 24 + hold * 2 ^ 16 + store * 2 ^ 8 + ring)) 23 16 = hold
      ∧ bits (BitVec.ofNat 32 (sys * 2 ^ 24 + hold * 2 ^ 16 + store * 2 ^ 8 + ring)) 31 24 = sys := by
  simp only [bits, BitVec.toNat_ofNat]
  omega

theorem State.mapFlip_keepsRegs (b : Nat) (s : State) : s.KeepsRegs (s.mapFlip b)
    [Reg.dptMapflipCtrl, Reg.dptMapflipMask0, Reg.dptMapflipMask1, Reg.dptMapflipMask2, Reg.dptMapflipLast] := by
  intro a ha
  simp only [List.mem_cons, List.not_mem_nil, or_false, not_or] at ha
  obtain ⟨ctrl, mask0, mask1, mask2, last⟩ := ha
  unfold State.mapFlip
  dsimp only
  split
  · rw [State.get_set_ne _ _ _ _ last, State.get_setBit_ne _ _ _ _ _ ctrl, State.get_setBit_ne _ _ _ _ _ ctrl,
      State.get_set_ne _ _ _ _ mask2, State.get_set_ne _ _ _ _ mask1, State.get_set_ne _ _ _ _ mask0]
    split <;> rfl
  · rfl

/-- A new division empties Ring and Store. -/
theorem State.resizeRegions_dpt (ring store hold : Nat) (s : State) :
    (s.resizeRegions ring store hold).dpt.units = [] ∧ (s.resizeRegions ring store hold).dpt.recs = []
      ∧ (s.resizeRegions ring store hold).dpt.ringPos = none ∧ (s.resizeRegions ring store hold).dpt.storePos = none := by
  unfold State.resizeRegions
  dsimp only
  rw [State.mapFlip_dpt]
  exact ⟨rfl, rfl, rfl, rfl⟩

theorem State.resizeRegions_keepsRegs (ring store hold : Nat) (s : State) : s.KeepsRegs (s.resizeRegions ring store hold)
    [Reg.dptRegion, Reg.dptMapflipCtrl, Reg.dptMapflipMask0, Reg.dptMapflipMask1, Reg.dptMapflipMask2, Reg.dptMapflipLast] := by
  intro a ha
  obtain ⟨region, others⟩ := not_or.mp (mt List.mem_cons.mpr ha)
  exact (State.mapFlip_keepsRegs 0 _ a others).trans (State.get_set_ne _ _ _ _ region)

theorem State.get_resizeRegions (ring store hold : Nat) (s : State) : (s.resizeRegions ring store hold).get Reg.dptRegion
    = BitVec.ofNat 32 ((s.fitted / 4096 - ring - store - hold) * 2 ^ 24 + hold * 2 ^ 16 + store * 2 ^ 8 + ring) :=
  (State.mapFlip_keepsRegs 0 _ _ (by decide)).trans (State.get_set_same ..)

theorem State.resizeRegions_lnk (ring store hold : Nat) (s : State) : (s.resizeRegions ring store hold).lnk = s.lnk :=
  (State.mapFlip_slotsKept 0 _).lnk.trans ((State.withDpt_lnk ..).trans (State.set_lnk ..))

theorem State.opsOf_resizeRegions (ring store hold : Nat) (s : State) : (s.resizeRegions ring store hold).opsOf = s.opsOf :=
  (State.mapFlip_slotsKept 0 _).ops.trans ((State.opsOf_withDpt ..).trans (State.opsOf_set ..))

theorem dptRegionWrite_divides (h : Served s writeForm r x) (hr : s.addrRefused Reg.dptRegion = none)
    (standby : s.inMode .standby = true) (free : ∀ n : Fin 4, s.holdState n = 0) (ring : bits v 7 0 ≠ 0)
    (store : bits v 15 8 ≠ 0) (room : bits v 7 0 + bits v 15 8 + bits v 23 16 + 4 ≤ s.fitted / 4096) :
    ∃ u, exec (.dptRegionWrite r v) s = .next u ∧ Replied u r 0x0101 St.ok [] ∧ u.ringGib = bits v 7 0
      ∧ u.storeGib = bits v 15 8 ∧ u.holdGib = bits v 23 16
      ∧ u.fld Reg.dptRegion 31 24 = s.fitted / 4096 - bits v 7 0 - bits v 15 8 - bits v 23 16
      ∧ u.dpt.units = [] ∧ u.dpt.recs = [] ∧ u.dpt.ringPos = none ∧ u.dpt.storePos = none
      ∧ s.KeepsRegs u [Reg.lnkPortRx r.port, Reg.dptRegion, Reg.dptMapflipCtrl, Reg.dptMapflipMask0, Reg.dptMapflipMask1,
          Reg.dptMapflipMask2, Reg.dptMapflipLast] := by
  have agree := (s.arrived r).region_newValue v
  have taken := State.regionRefuses_none (s := s.arrived r) (w := (s.arrived r).newValue Reg.dptRegion v 0xFFFFFFFF)
    ((s.arrived_inMode r _).trans standby) (fun n => (congrArg (bits · 2 0) (s.get_arrived_above r
      (by simp only [Reg.queRoute, Reg.dptHoldStat]; omega))).trans (free n))
    (by rw [agree.bits 7 0 (by decide)]; exact ring) (by rw [agree.bits 15 8 (by decide)]; exact store)
    (by rw [agree.bits 7 0 (by decide), agree.bits 15 8 (by decide), agree.bits 23 16 (by decide)]; exact room)
  obtain ⟨u, next, shown, kept⟩ := rowWrite_shows (wireLen r) (.dptRegionWrite r v) h (by decide)
    (State.writeReg_dptRegion ((s.arrived_addrRefused r _).trans hr) taken) (State.resizeRegions_lnk ..)
    (State.opsOf_resizeRegions ..) (State.resizeRegions_keepsRegs _ _ _ _) (by decide)
  obtain ⟨units, recs, ringPos, storePos⟩ := State.resizeRegions_dpt (bits v 7 0) (bits v 15 8) (bits v 23 16) (s.arrived r)
  have size : s.fitted / 4096 < 256 := by
    unfold State.fitted
    split <;> decide
  obtain ⟨ring', store', hold', sys⟩ := region_fields (bits_lt v 7 0) (bits_lt v 15 8) (bits_lt v 23 16)
    (sys := s.fitted / 4096 - bits v 7 0 - bits v 15 8 - bits v 23 16) (by omega)
  have region : u.get Reg.dptRegion = _ := (shown.get _).trans (State.get_resizeRegions ..)
  refine ⟨u, next, shown.replied, ?_, ?_, ?_, ?_, ?_, ?_, ?_, ?_, kept⟩
  · exact (congrArg (bits · 7 0) region).trans ring'
  · exact (congrArg (bits · 15 8) region).trans store'
  · exact (congrArg (bits · 23 16) region).trans hold'
  · exact (congrArg (bits · 31 24) region).trans sys
  · rw [shown.dpt, units]
  · rw [shown.dpt, recs]
  · rw [shown.dpt, ringPos]
  · rw [shown.dpt, storePos]

end

/-- Settles O33: each write passes or fails the checks of its register, and what it stores is what the answer shows. -/
theorem depotWritesComplete : Obligations.DepotWritesComplete := by
  unfold Obligations.DepotWritesComplete
  exact ⟨fun _ _ _ _ => dptRegionWrite_divides, fun _ _ _ _ => dptFlipArm_stored, fun _ _ _ _ => dptFlipAddr_stored,
    fun _ _ _ _ => dptFlipAddr_refused, fun _ _ _ _ => dptMapflipArm_stored, fun _ _ _ _ => dptMapSel_latched⟩

end Sys2Proof.Machine
end

