-- ==== Sys2Proof/Proofs/HoldSlots.lean ====
section
/-! One hold slot (R192, R197–R199, R212): its registers, its record, and the operations that end with what it reaches. -/

namespace Sys2Proof.Machine

/-! ### State and record of a slot -/

section
variable (s : State) (n m : Fin 4)

theorem holdStat_ne {n m : Fin 4} (h : m ≠ n) : Reg.dptHoldStat m ≠ Reg.dptHoldStat n := fun e =>
  h (Fin.ext (by simp only [Reg.dptHoldStat] at e; omega))

@[simp] theorem State.holdState_withDpt (f : Depot → Depot) : (s.withDpt f).holdState n = s.holdState n := rfl

@[simp] theorem State.holdState_updHold (f : Hold → Hold) : (s.updHold m f).holdState n = s.holdState n := rfl

/-- That an operation ends is seen in the sessions alone. -/
theorem State.optDone_rest (o : Option OpRef) (st : BitVec 16) (d : List Byte) :
    ∃ b e, s.optDone o st d = { s with bcp := b, evt := e } := by
  cases o with
  | none => exact ⟨_, _, rfl⟩
  | some o =>
    show ∃ b e, s.opDone o st d = _
    cases known : s.findOp o with
    | none => exact ⟨_, _, State.opDone_none _ _ _ _ known⟩
    | some p => exact ⟨_, _, State.opDone_some _ _ _ _ _ known⟩

@[simp] theorem State.get_optDone (o : Option OpRef) (st : BitVec 16) (d : List Byte) (a : Nat) :
    (s.optDone o st d).get a = s.get a := by
  obtain ⟨b, e, ended⟩ := s.optDone_rest o st d
  rw [ended]
  rfl

@[simp] theorem State.holdState_optDone (o : Option OpRef) (st : BitVec 16) (d : List Byte) :
    (s.optDone o st d).holdState n = s.holdState n := congrArg (bits · 2 0) (State.get_optDone ..)

theorem State.holdState_setHoldState (st : Nat) : (s.setHoldState n st).holdState n = st % 8 :=
  State.fld_setFld_same _ _ _ _ _ (by decide)

theorem State.holdState_setHoldState_ne {n m : Fin 4} (h : m ≠ n) (st : Nat) :
    (s.setHoldState n st).holdState m = s.holdState m := State.fld_setFld_ne _ _ _ _ _ _ _ _ (holdStat_ne h)

@[simp] theorem State.holds_updHold (f : Hold → Hold) : (s.updHold n f).dpt.holds.get n = f (s.dpt.holds.get n) :=
  upd_get_same _ n f

theorem State.holds_updHold_ne {n m : Fin 4} (h : m ≠ n) (f : Hold → Hold) :
    (s.updHold n f).dpt.holds.get m = s.dpt.holds.get m := upd_get_ne _ n m f h

@[simp] theorem State.setHoldState_dpt (st : Nat) : (s.setHoldState n st).dpt = s.dpt := rfl

end

/-! ### Changes of one slot alone -/

/-- Nothing but the slot's registers, its record and the operations' ends has been touched. -/
structure SlotOnly (n : Fin 4) (s u : State) : Prop where
  rest : u = { s with regs := u.regs, dpt := { s.dpt with holds := u.dpt.holds }, bcp := u.bcp, evt := u.evt }
  get : ∀ a, a < Reg.dptHoldStat n ∨ Reg.dptHoldStat n + 0x40 ≤ a → u.get a = s.get a
  others : ∀ m, m ≠ n → u.dpt.holds.get m = s.dpt.holds.get m
  hasOp : ∀ id h op, s.HasOp id h op → u.HasOp id h op

namespace SlotOnly
variable {n : Fin 4} {s u v : State}

theorem refl (n : Fin 4) (s : State) : SlotOnly n s s := ⟨rfl, fun _ _ => rfl, fun _ _ => rfl, fun _ _ _ h => h⟩

theorem trans (h : SlotOnly n s u) (k : SlotOnly n u v) : SlotOnly n s v where
  rest := Eq.trans k.rest
    (congrArg (fun w : State =>
      { w with regs := v.regs, dpt := { w.dpt with holds := v.dpt.holds }, bcp := v.bcp, evt := v.evt }) h.rest :)
  get a ha := (k.get a ha).trans (h.get a ha)
  others m hm := (k.others m hm).trans (h.others m hm)
  hasOp id handle op held := k.hasOp id handle op (h.hasOp id handle op held)

theorem lnk (h : SlotOnly n s u) : u.lnk = s.lnk := (congrArg State.lnk h.rest :)
theorem tim (h : SlotOnly n s u) : u.tim = s.tim := (congrArg State.tim h.rest :)
theorem modes (h : SlotOnly n s u) : u.modes = s.modes := (congrArg State.modes h.rest :)
theorem variant (h : SlotOnly n s u) : u.variant = s.variant := (congrArg State.variant h.rest :)
theorem dpt (h : SlotOnly n s u) : u.dpt = { s.dpt with holds := u.dpt.holds } := (congrArg State.dpt h.rest :)
theorem map (h : SlotOnly n s u) : u.dpt.map = s.dpt.map := (congrArg Depot.map h.dpt :)
theorem mem (h : SlotOnly n s u) : u.dpt.mem = s.dpt.mem := (congrArg Depot.mem h.dpt :)
theorem units (h : SlotOnly n s u) : u.dpt.units = s.dpt.units := (congrArg Depot.units h.dpt :)
theorem recs (h : SlotOnly n s u) : u.dpt.recs = s.dpt.recs := (congrArg Depot.recs h.dpt :)
theorem drainQ (h : SlotOnly n s u) : u.dpt.drainQ = s.dpt.drainQ := (congrArg Depot.drainQ h.dpt :)

theorem low (h : SlotOnly n s u) (a : Nat) (ha : a < Reg.queRoute) : u.get a = s.get a :=
  h.get a (.inl (Nat.lt_of_lt_of_le ha (by simp only [Reg.queRoute, Reg.dptHoldStat]; omega)))

theorem mapEnt (h : SlotOnly n s u) : u.mapEnt = s.mapEnt := by
  have owner := State.regionOwner_congr (h.get Reg.dptRegion (.inl (by simp only [Reg.dptRegion, Reg.dptHoldStat]; omega)))
    h.variant
  funext b
  rw [State.mapEnt, State.mapEnt, h.map, owner]

theorem holdState (h : SlotOnly n s u) {m : Fin 4} (hm : m ≠ n) : u.holdState m = s.holdState m :=
  congrArg (bits · 2 0) (h.get _ (by
    have : (m : Nat) ≠ n := fun e => hm (Fin.ext e)
    simp only [Reg.dptHoldStat]
    omega))

theorem set (h : SlotOnly n s u) {a : Nat} (w : Word) (ha : Reg.dptHoldStat n ≤ a ∧ a < Reg.dptHoldStat n + 0x40) :
    SlotOnly n s (u.set a w) :=
  h.trans ⟨rfl, fun b hb => State.get_set_ne _ _ _ _ (by omega), fun _ _ => rfl, fun _ _ _ held => held⟩

theorem setHoldState (h : SlotOnly n s u) (st : Nat) : SlotOnly n s (u.setHoldState n st) :=
  h.set _ ⟨Nat.le_refl _, Nat.lt_add_of_pos_right (by decide)⟩

theorem updHold (h : SlotOnly n s u) (f : Hold → Hold) : SlotOnly n s (u.updHold n f) :=
  h.trans ⟨rfl, fun _ _ => rfl, fun _ hm => State.holds_updHold_ne u hm f, fun _ _ _ held => held⟩

theorem optDone (h : SlotOnly n s u) (o : Option OpRef) (st : BitVec 16) (d : List Byte) :
    SlotOnly n s (u.optDone o st d) := by
  refine h.trans
    ⟨?_, fun a _ => State.get_optDone .., fun m _ => by rw [State.optDone_dpt], fun _ _ _ held => held.optDone ..⟩
  obtain ⟨b, e, ended⟩ := u.optDone_rest o st d
  rw [ended]

end SlotOnly

/-! ### HELD (R197) -/

section
variable (s : State) (n : Fin 4)

/-- Both parts of a slot are frozen, where it has two. -/
def State.holdReady : Bool :=
  (s.dpt.holds.get n).ringDone && ((s.dpt.holds.get n).storeDone || !s.bit (Reg.dptHoldStat n) 4)

theorem State.holdDone_eq : s.holdDone n = if s.holdReady n then
    ((s.setHoldState n 2).optDone (s.dpt.holds.get n).op St.ok
      (beBytes 1 ((s.setHoldState n 2).fld (Reg.dptHoldStat n) 7 0))).updHold n fun h => { h with op := none }
    else s := rfl

theorem State.holdDone_only : SlotOnly n s (s.holdDone n) := by
  rw [State.holdDone_eq]
  split
  · exact (((SlotOnly.refl n s).setHoldState 2).optDone _ _ _).updHold _
  · exact .refl n s

theorem State.get_holdDone {a : Nat} (other : a ≠ Reg.dptHoldStat n) : (s.holdDone n).get a = s.get a := by
  rw [State.holdDone_eq]
  split
  · exact (State.get_optDone ..).trans (State.get_setFld_ne _ _ _ _ _ _ other)
  · rfl

theorem State.holdState_holdDone : (s.holdDone n).holdState n = if s.holdReady n then 2 else s.holdState n := by
  rw [State.holdDone_eq]
  split
  · rw [State.holdState_updHold, State.holdState_optDone, State.holdState_setHoldState]
  · rfl

theorem State.parts_holdDone : ((s.holdDone n).dpt.holds.get n).ringDone = (s.dpt.holds.get n).ringDone
    ∧ ((s.holdDone n).dpt.holds.get n).storeDone = (s.dpt.holds.get n).storeDone := by
  rw [State.holdDone_eq]
  split
  · rw [State.holds_updHold, State.optDone_dpt, State.setHoldState_dpt]
    exact ⟨rfl, rfl⟩
  · exact ⟨rfl, rfl⟩

/-- HOLD is done as its slot is HELD; its result is what the slot then shows. -/
theorem State.holdDone_ends (ready : s.holdReady n = true) {q : OpRef} (op : (s.dpt.holds.get n).op = some q) :
    OpEnds s (s.holdDone n) q St.ok (beBytes 1 ((s.holdDone n).fld (Reg.dptHoldStat n) 7 0)) := by
  rw [State.holdDone_eq, if_pos ready, op]
  have shown :
      (((s.setHoldState n 2).optDone (some q) St.ok (beBytes 1 ((s.setHoldState n 2).fld (Reg.dptHoldStat n) 7 0))).updHold n
          fun h => { h with op := none }).fld (Reg.dptHoldStat n) 7 0
        = (s.setHoldState n 2).fld (Reg.dptHoldStat n) 7 0 :=
    congrArg (bits · 7 0) (State.get_optDone ..)
  rw [shown]
  exact ((s.setHoldState n 2).opDone_ends q St.ok _).congr (fun _ known => known) rfl

end

/-! ### What a freeze notes of its slot -/

/-- Only registers of the slot have been touched, and of DPT_HOLDn_STAT neither STATE nor STORE. -/
structure Noted (n : Fin 4) (s u : State) : Prop where
  rest : u = { s with regs := u.regs }
  get : ∀ a, a < Reg.dptHoldStat n ∨ Reg.dptHoldStat n + 0x40 ≤ a → u.get a = s.get a
  state : u.holdState n = s.holdState n
  store : u.bit (Reg.dptHoldStat n) 4 = s.bit (Reg.dptHoldStat n) 4

namespace Noted
variable {n : Fin 4} {s u v : State}

theorem refl (n : Fin 4) (s : State) : Noted n s s := ⟨rfl, fun _ _ => rfl, rfl, rfl⟩

theorem trans (h : Noted n s u) (k : Noted n u v) : Noted n s v where
  rest := Eq.trans k.rest (congrArg (fun w : State => { w with regs := v.regs }) h.rest :)
  get a ha := (k.get a ha).trans (h.get a ha)
  state := k.state.trans h.state
  store := k.store.trans h.store

theorem dpt (h : Noted n s u) : u.dpt = s.dpt := (congrArg State.dpt h.rest :)
theorem bcp (h : Noted n s u) : u.bcp = s.bcp := (congrArg State.bcp h.rest :)

theorem ops (h : Noted n s u) : u.opsOf = s.opsOf := by
  funext id
  rw [State.opsOf, State.opsOf, State.findSession, State.findSession, h.bcp]

theorem only (h : Noted n s u) : SlotOnly n s u where
  rest := by
    obtain ⟨rest, -, -, -⟩ := h
    rw [rest]
  get := h.get
  others m _ := by rw [h.dpt]
  hasOp _ _ _ held := held.congr h.ops

/-- Another register of the slot. -/
theorem set (h : Noted n s u) {a : Nat} (w : Word) (ha : Reg.dptHoldStat n < a ∧ a < Reg.dptHoldStat n + 0x40) :
    Noted n s (u.set a w) :=
  have stat : (u.set a w).get (Reg.dptHoldStat n) = u.get (Reg.dptHoldStat n) := State.get_set_ne _ _ _ _ (Nat.ne_of_lt ha.1)
  h.trans ⟨rfl, fun b hb => State.get_set_ne _ _ _ _ (by omega), congrArg (bits · 2 0) stat,
    congrArg (BitVec.getLsbD · 4) stat⟩

/-- SHORT or OVERLAP. -/
theorem flag (h : Noted n s u) (i : Nat) (b : Bool) (hi : 4 < i ∧ i < 32) : Noted n s (u.setBit (Reg.dptHoldStat n) i b) :=
  h.trans ⟨rfl, fun a ha => State.get_setBit_ne _ _ _ _ _ (by omega), State.fld_setBit_apart _ _ _ _ _ _ hi.2 (by omega),
    State.bit_setBit_apart _ _ _ _ _ hi.2 (by omega)⟩

end Noted

end Sys2Proof.Machine
end

