-- ==== Sys2Proof/Proofs/HoldFreezes.lean ====
section
/-! How a hold freezes its blocks (R194–R197): what fills the open block and writes the directories leaves the map, the
frozen blocks change their owner, and the reserve lends as many. -/

namespace Sys2Proof.Machine

/-! ### Lines and directories -/

/-- Besides the slots, the map stays, and what the Depot knows of units and records. -/
structure LinesKept (s u : State) : Prop extends SlotsKept s u where
  map : u.dpt.map = s.dpt.map
  units : u.dpt.units = s.dpt.units
  recs : u.dpt.recs = s.dpt.recs

namespace LinesKept
variable {s u v : State}

theorem refl (s : State) : LinesKept s s := { SlotsKept.refl s with map := rfl, units := rfl, recs := rfl }

theorem trans (h : LinesKept s u) (k : LinesKept u v) : LinesKept s v :=
  { h.toSlotsKept.trans k.toSlotsKept with
    map := k.map.trans h.map, units := k.units.trans h.units, recs := k.recs.trans h.recs }

theorem foldl {α : Type} {f : State → α → State} (hf : ∀ s x, LinesKept s (f s x)) (l : List α) :
    ∀ s, LinesKept s (l.foldl f s) := by
  induction l with
  | nil => exact refl
  | cons x l ih => exact fun s => (hf s x).trans (ih _)

theorem entries (h : LinesKept s u) : u.mapEnt = s.mapEnt := h.mapEnt h.map

end LinesKept

/-- A line written reaches the memory, its errors and the flip mask's registers. -/
theorem State.writeLine_linesKept (l : Nat) (d : List Byte) (s : State) : LinesKept s (s.writeLine l d) := by
  unfold State.writeLine
  dsimp only
  split
  · exact { SlotsKept.set (.setBit (.setBit (.set (.set (.set (((SlotsKept.refl s).withDpt rfl).withDpt rfl) _ (by decide)) _
      (by decide)) _ (by decide)) _ _ (by decide)) _ _ (by decide)) _ (by decide) with map := rfl, units := rfl, recs := rfl }
  · exact { (SlotsKept.refl s).withDpt rfl with map := rfl, units := rfl, recs := rfl }

theorem State.writeLines_linesKept (ds : List (List Byte)) : ∀ (l : Nat) (s : State), LinesKept s (s.writeLines l ds) := by
  induction ds with
  | nil => exact fun _ s => .refl s
  | cons d ds ih => exact fun l s => (State.writeLine_linesKept l d s).trans (ih _ _)

theorem State.writeDirectory_linesKept (b : Nat) (ring : Bool) (s : State) : LinesKept s (s.writeDirectory b ring) := by
  unfold State.writeDirectory
  have lines := State.writeLines_linesKept (linesOf (s.directoryBytes b ring
    ++ List.replicate (4096 - (s.directoryBytes b ring).length) 0)) ((s.systemBase * blockBytes + 4096 * b) / 64) s
  exact { lines.toSlotsKept.withDpt rfl with map := lines.map, units := lines.units, recs := lines.recs }

theorem State.ringDirectories_linesKept (s : State) : LinesKept s s.ringDirectories :=
  .foldl (fun s b => State.writeDirectory_linesKept b true s) _ s

theorem State.storeDirectories_linesKept (s : State) : LinesKept s s.storeDirectories :=
  .foldl (fun s b => State.writeDirectory_linesKept b false s) _ s

theorem State.setWriterPos_linesKept (ring : Bool) (p : Nat × Nat) (s : State) : LinesKept s (s.setWriterPos ring p) := by
  unfold State.setWriterPos
  cases ring <;> exact { (SlotsKept.refl s).withDpt rfl with map := rfl, units := rfl, recs := rfl }

theorem State.fillBlock_linesKept (ring : Bool) (s : State) : LinesKept s (s.fillBlock ring) := by
  unfold State.fillBlock
  split
  · exact .refl s
  · exact (State.writeLines_linesKept ..).trans (State.setWriterPos_linesKept ..)

/-! ### Blocks in ring order (R176) -/

theorem keyBlock_inj {j k : Nat} (hj : j < 524288) (hk : k < 524288) (h : keyBlock j = keyBlock k) : j = k := by
  unfold keyBlock at h
  omega

/-- From one block to another each block is met once. -/
theorem keysBetween_nodup (a b : Nat) : (keysBetween a b).Nodup := by
  unfold keysBetween
  refine List.Nodup.map_on (fun i hi j hj same => ?_) List.nodup_range
  have lti := List.mem_range.mp hi
  have ltj := List.mem_range.mp hj
  have keys := keyBlock_inj (Nat.mod_lt _ (by decide)) (Nat.mod_lt _ (by decide)) same
  omega

/-! ### Blocks that change their owner -/

theorem State.freezeBlocks_eq (n : Fin 4) (o : BitVec 3) (bs : List Nat) (s : State) :
    s.freezeBlocks n o bs = s.changeEnts (fun e => { e with owner := o, slot := BitVec.ofNat 2 n.val }) bs := rfl

/-- Blocks of one owner frozen into a slot, from the memory of others: they show the slot's owner, and no block changes but
one of that owner or of the reserve. -/
structure Frozen (n : Fin 4) (origin o : BitVec 3) (held : List Nat) (s u : State) : Prop where
  held : ∀ b ∈ held, (s.mapEnt b).owner = origin ∧ (u.mapEnt b).owner = o ∧ (u.mapEnt b).slot = BitVec.ofNat 2 n.val
  others : ∀ b, (s.mapEnt b).owner ≠ origin → (s.mapEnt b).owner ≠ 3 → u.mapEnt b = s.mapEnt b

theorem State.freeze_lend {n : Fin 4} {origin o lent : BitVec 3} {held : List Nat} {k : Nat} {s : State}
    (mine : ∀ b ∈ held, (s.mapEnt b).owner = origin) (notFree : o ≠ 3) :
    SlotsKept s ((s.freezeBlocks n o held).lendBlocks lent k)
      ∧ Frozen n origin o held s ((s.freezeBlocks n o held).lendBlocks lent k)
      ∧ ((s.freezeBlocks n o held).lendBlocks lent k).dpt.mem = s.dpt.mem := by
  rw [State.freezeBlocks_eq]
  have frozen := State.changeEnts_mapKept (fun e => { e with owner := o, slot := BitVec.ofNat 2 n.val }) held s
  generalize hv : s.changeEnts (fun e => { e with owner := o, slot := BitVec.ofNat 2 n.val }) held = v at frozen ⊢
  have lent' := State.lendBlocks_mapKept lent k v
  refine ⟨frozen.toSlotsKept.trans lent'.toSlotsKept, ⟨fun b hb => ?_, fun b notMine notReserve => ?_⟩,
    lent'.mem.trans frozen.mem⟩
  · obtain ⟨e, shown⟩ := State.mapEnt_changeEnts (fun e => { e with owner := o, slot := BitVec.ofNat 2 n.val }) held hb s
    rw [hv] at shown
    have owner : (v.mapEnt b).owner = o := by rw [shown]
    rw [lent'.ent b (by rw [owner]; exact notFree)]
    exact ⟨mine b hb, owner, by rw [shown]⟩
  · have apart := frozen.ent b fun hb => notMine (mine b hb)
    rw [lent'.ent b (by rw [apart]; exact notReserve), apart]

theorem Frozen.before {n : Fin 4} {origin o : BitVec 3} {held : List Nat} {s u v : State} (h : Frozen n origin o held u v)
    (same : u.mapEnt = s.mapEnt) : Frozen n origin o held s v := by
  obtain ⟨mine, others⟩ := h
  rw [same] at mine others
  exact ⟨mine, others⟩

/-! ### The two parts of a hold -/

/-- OVERLAP and SHORT as a freeze sets them. -/
def State.flagHold (n : Fin 4) (overlap short : Bool) (s : State) : State :=
  let s := if overlap then s.setBit (Reg.dptHoldStat n) 6 true else s
  if short then s.setBit (Reg.dptHoldStat n) 5 true else s

theorem State.flagHold_noted (n : Fin 4) (overlap short : Bool) (s : State) : Noted n s (s.flagHold n overlap short) := by
  have first : Noted n s (if overlap then s.setBit (Reg.dptHoldStat n) 6 true else s) := by
    split
    · exact (Noted.refl n s).flag 6 true (by decide)
    · exact .refl n s
  unfold State.flagHold
  dsimp only
  split
  · exact first.flag 5 true (by decide)
  · exact first

theorem State.get_flagHold {n : Fin 4} {a : Nat} (other : a ≠ Reg.dptHoldStat n) (overlap short : Bool) (s : State) :
    (s.flagHold n overlap short).get a = s.get a := by
  unfold State.flagHold
  cases overlap <;> cases short <;> simp [State.get_setBit_ne _ _ _ _ _ other]

/-- A part of a hold has been frozen up to its mark in the slot's record: `held` blocks of one owner are the slot's, in the
state `v`, and the slot's registers tell of it, in the state `w`. -/
structure PartFrozen (n : Fin 4) (origin o : BitVec 3) (count : Nat) (held : List Nat) (s v w : State) : Prop where
  nodup : held.Nodup
  kept : SlotsKept s v
  frozen : Frozen n origin o held s v
  noted : Noted n v w
  counted : w.get count = BitVec.ofNat 32 held.length

/-- A register of a slot other than DPT_HOLDn_STAT. -/
def OfSlot (n : Fin 4) (a : Nat) : Prop := Reg.dptHoldStat n < a ∧ a < Reg.dptHoldStat n + 0x40

theorem ofSlot_holdRegs (n : Fin 4) : OfSlot n (Reg.dptHoldRingBlocks n) ∧ OfSlot n (Reg.dptHoldStoreBlocks n)
    ∧ OfSlot n (Reg.dptHoldT0S n) ∧ OfSlot n (Reg.dptHoldT0Ns n) ∧ OfSlot n (Reg.dptHoldLastSeqLo n)
    ∧ OfSlot n (Reg.dptHoldLastSeqHi n) := by
  simp only [OfSlot, Reg.dptHoldStat, Reg.dptHoldRingBlocks, Reg.dptHoldStoreBlocks, Reg.dptHoldT0S, Reg.dptHoldT0Ns,
    Reg.dptHoldLastSeqLo, Reg.dptHoldLastSeqHi]
  omega

theorem partFrozen {n : Fin 4} {origin o lent : BitVec 3} {count k : Nat} {held : List Nat} {s u x : State}
    (lines : LinesKept s u) (nodup : held.Nodup) (owner : ∀ b ∈ held, (u.mapEnt b).owner = origin) (notFree : o ≠ 3)
    (noted : Noted n ((u.freezeBlocks n o held).lendBlocks lent k) x) (slot : OfSlot n count)
    (counted : x.get count = BitVec.ofNat 32 held.length) (overlap short : Bool) :
    PartFrozen n origin o count held s ((u.freezeBlocks n o held).lendBlocks lent k) (x.flagHold n overlap short) := by
  obtain ⟨kept, frozen, -⟩ := State.freeze_lend (n := n) (lent := lent) (k := k) owner notFree
  exact ⟨nodup, lines.toSlotsKept.trans kept, frozen.before lines.entries, noted.trans (State.flagHold_noted ..),
    (State.get_flagHold (Nat.ne_of_gt slot.1) ..).trans counted⟩

theorem State.freezeRing_shape (n : Fin 4) (s : State) : ∃ held v w, PartFrozen n 1 4 (Reg.dptHoldRingBlocks n) held s v w
    ∧ s.freezeRing n = (w.updHold n fun h => { h with ringDone := true }).holdDone n := by
  unfold State.freezeRing
  extract_lets h u t0 us inSpan inRing oldest free keep
  have lines : LinesKept s u := (State.fillBlock_linesKept ..).trans (State.ringDirectories_linesKept _)
  split
  next blocks overlap span =>
  have mine : blocks.Nodup ∧ ∀ b ∈ blocks, (u.mapEnt b).owner = 1 := by
    split at span
    · obtain ⟨rfl, -⟩ := Prod.mk.inj span
      exact ⟨(keysBetween_nodup ..).filter _, fun b hb => by simpa using (List.mem_filter.mp hb).2⟩
    · obtain ⟨rfl, -⟩ := Prod.mk.inj span
      exact ⟨.nil, fun b hb => absurd hb List.not_mem_nil⟩
  obtain ⟨nodup, owner⟩ := mine
  obtain ⟨ring, -, t0s, t0ns, -, -⟩ := ofSlot_holdRegs n
  extract_lets trim held short v kept v0 v1 v2 w
  have stamped (l : List RUnit) : Noted n v (match l with
      | [] => v
      | u :: rest => v.stamp (Reg.dptHoldT0S n) (Reg.dptHoldT0Ns n) (rest.foldl (fun m x => min m x.tFirst) u.tFirst)) := by
    cases l with
    | nil => exact .refl n v
    | cons u rest => exact ((Noted.refl n v).set _ t0s).set _ t0ns
  exact ⟨held, v, w, partFrozen lines (nodup.sublist (List.drop_sublist ..)) (fun b hb => owner b (List.mem_of_mem_drop hb))
    (by decide) ((stamped kept).set _ ring) ring (State.get_set_same ..) overlap short, rfl⟩

theorem nodup_eraseDups (l : List Nat) : l.eraseDups.Nodup := by
  induction n : l.length using Nat.strong_induction_on generalizing l with
  | _ n ih =>
    cases l with
    | nil =>
      rw [List.eraseDups_nil]
      exact .nil
    | cons a l =>
      rw [List.eraseDups_cons, List.nodup_cons, List.mem_eraseDups]
      refine ⟨by simp, ih _ ?_ _ rfl⟩
      exact n ▸ Nat.lt_succ_of_le (List.length_filter_le ..)

/-- The Store part of a pending hold, with every record of before its acceptance stored. -/
theorem storeHoldFreeze_shape {n : Fin 4} {s : State} (pending : s.holdState n = 1)
    (todo : (s.dpt.holds.get n).storeDone = false) (asked : s.bit (Reg.dptHoldStat n) 4 = true)
    (stored : ∀ r ∈ s.dpt.recs, r.order < (s.dpt.holds.get n).order → r.stored = true) :
    ∃ held v w, PartFrozen n 2 6 (Reg.dptHoldStoreBlocks n) held s v w ∧ v.dpt.mem = s.dpt.mem
      ∧ storeHoldFreeze n s = (w.updHold n fun h => { h with storeDone := true }).holdDone n := by
  unfold storeHoldFreeze
  extract_lets h before mine seqs blocks free overlap res keep trim held gone v v1 v2 v3 w
  have all : before.any (fun r => !r.stored) = false := by
    rw [List.any_eq_false]
    intro r hr
    obtain ⟨mem, earlier⟩ := List.mem_filter.mp hr
    simp [stored r mem (by simpa using earlier)]
  rw [if_neg (by simp [pending, todo, asked, all, h])]
  obtain ⟨-, store, -, -, lastLo, lastHi⟩ := ofSlot_holdRegs n
  have nodup : free.Nodup := (nodup_eraseDups _).filter _
  have owner (b : Nat) (hb : b ∈ held) : (s.mapEnt b).owner = 2 := by
    simpa using (List.mem_filter.mp (List.mem_of_mem_drop hb)).2
  have noted1 : Noted n v v1 := (Noted.refl n v).set _ store
  have noted2 : Noted n v v2 := by
    show Noted n v (if seqs.isEmpty then v1 else v1.set64 _ _ _)
    split
    · exact noted1
    · exact (noted1.set _ lastLo).set _ lastHi
  have counted : v2.get (Reg.dptHoldStoreBlocks n) = BitVec.ofNat 32 held.length := by
    show State.get (if seqs.isEmpty then v1 else v1.set64 _ _ _) _ = _
    split
    · exact State.get_set_same ..
    · have apart : Reg.dptHoldStoreBlocks n ≠ Reg.dptHoldLastSeqLo n
          ∧ Reg.dptHoldStoreBlocks n ≠ Reg.dptHoldLastSeqHi n := by
        simp only [Reg.dptHoldStoreBlocks, Reg.dptHoldLastSeqLo, Reg.dptHoldLastSeqHi]
        omega
      exact ((State.get_set_ne _ _ _ _ apart.2).trans (State.get_set_ne _ _ _ _ apart.1)).trans (State.get_set_same ..)
  exact ⟨held, v, w, partFrozen (.refl s) (nodup.sublist (List.drop_sublist ..)) owner
    (by decide) noted2 store counted overlap (gone || decide (0 < trim)), (State.freeze_lend owner (by decide)).2.2, rfl⟩

/-! ### A slot once a part of it is frozen -/

namespace PartFrozen
variable {n : Fin 4} {origin o : BitVec 3} {count : Nat} {held : List Nat} {s v w : State}

theorem hold (h : PartFrozen n origin o count held s v w) : w.dpt.holds = s.dpt.holds := by
  rw [h.noted.dpt, h.kept.holds]

theorem stat_lt (n : Fin 4) : Reg.dptHoldStat n < Reg.dptStackStat 0 := by
  simp only [Reg.dptHoldStat, Reg.dptStackStat]
  omega

variable (h : PartFrozen n origin o count held s v w) (f : Hold → Hold)
include h

theorem ready : (w.updHold n f).holdReady n = ((f (s.dpt.holds.get n)).ringDone
    && ((f (s.dpt.holds.get n)).storeDone || !s.bit (Reg.dptHoldStat n) 4)) := by
  have store : (w.updHold n f).bit (Reg.dptHoldStat n) 4 = s.bit (Reg.dptHoldStat n) 4 :=
    h.noted.store.trans (h.kept.bit (stat_lt n) 4)
  rw [State.holdReady, State.holds_updHold, store, h.hold]

theorem only : SlotOnly n v ((w.updHold n f).holdDone n) :=
  (h.noted.only.updHold f).trans (State.holdDone_only ..)

theorem holdState : ((w.updHold n f).holdDone n).holdState n
    = if (w.updHold n f).holdReady n then 2 else s.holdState n := by
  rw [State.holdState_holdDone, State.holdState_updHold, h.noted.state, h.kept.holdState]

theorem parts : (((w.updHold n f).holdDone n).dpt.holds.get n).ringDone = (f (s.dpt.holds.get n)).ringDone
    ∧ (((w.updHold n f).holdDone n).dpt.holds.get n).storeDone = (f (s.dpt.holds.get n)).storeDone := by
  obtain ⟨ring, store⟩ := State.parts_holdDone (w.updHold n f) n
  rw [State.holds_updHold, h.hold] at ring store
  exact ⟨ring, store⟩

theorem shown (slot : OfSlot n count) : ((w.updHold n f).holdDone n).get count = BitVec.ofNat 32 held.length :=
  (State.get_holdDone _ _ (Nat.ne_of_gt slot.1)).trans h.counted

theorem mine (b : Nat) (hb : b ∈ held) : (s.mapEnt b).owner = origin
    ∧ (((w.updHold n f).holdDone n).mapEnt b).owner = o
    ∧ (((w.updHold n f).holdDone n).mapEnt b).slot = BitVec.ofNat 2 n.val := by
  rw [(h.only f).mapEnt]
  exact h.frozen.held b hb

theorem apart (b : Nat) (notMine : (s.mapEnt b).owner ≠ origin) (notReserve : (s.mapEnt b).owner ≠ 3) :
    ((w.updHold n f).holdDone n).mapEnt b = s.mapEnt b := by
  rw [(h.only f).mapEnt]
  exact h.frozen.others b notMine notReserve

theorem otherSlots (m : Fin 4) (hm : m ≠ n) : ((w.updHold n f).holdDone n).dpt.holds.get m = s.dpt.holds.get m
    ∧ ((w.updHold n f).holdDone n).holdState m = s.holdState m :=
  ⟨((h.only f).others m hm).trans (congrArg (Vector.get · m) h.kept.holds :),
    ((h.only f).holdState hm).trans (h.kept.holdState m)⟩

theorem ends (op : ∀ x, (f x).op = x.op) (ready : (w.updHold n f).holdReady n = true) {q : OpRef}
    (mine : (s.dpt.holds.get n).op = some q) : OpEnds s ((w.updHold n f).holdDone n) q St.ok
      (beBytes 1 (((w.updHold n f).holdDone n).fld (Reg.dptHoldStat n) 7 0)) := by
  have same : (w.updHold n f).opsOf = s.opsOf := h.noted.ops.trans h.kept.ops
  refine (State.holdDone_ends _ n ready ?_).congr (fun p known => ?_) rfl
  · rw [State.holds_updHold, op, h.hold, mine]
  · rw [State.findOp_congr same, known]

end PartFrozen

end Sys2Proof.Machine
end

