-- ==== Sys2Proof/Proofs/HoldDrains.lean ====
section
/-! How a slot's drain starts and ends, and how its blocks go back (R198, R199). -/

namespace Sys2Proof.Machine

/-! ### What a drain sends -/

theorem State.drainItems_congr {s u : State} (dpt : u.dpt = s.dpt) (same : u.mapEnt = s.mapEnt) :
    u.drainItems = s.drainItems := by
  funext n
  unfold State.drainItems
  rw [dpt, same, State.gensHold_congr same]

/-- The stream of a drain as it starts. -/
def State.freshDrain (s : State) (m : Fin 4) : Stream :=
  { id := drainStream m, next := 0, segs := [], past := [], items := s.drainItems m, loaded := [], ring := none
    ended := false, stopped := false, retx := 0, sentBytes := 0, prbs := 0, op := (s.dpt.holds.get m).drainOp
    slot := some m, final := St.ok }

/-- A stream takes the place of those of its id. -/
def State.replaceStream (y : Stream) (s : State) : State :=
  s.withLnk fun l => { l with streams := (l.streams.filter fun (x : Stream) => x.id != y.id) ++ [y] }

theorem State.stream_replaceStream (y : Stream) (s : State) : (s.replaceStream y).stream y.id = some y := by
  show ((s.lnk.streams.filter fun (x : Stream) => x.id != y.id) ++ [y]).find? (fun x => decide (x.id = y.id)) = some y
  rw [List.find?_append, List.find?_eq_none.mpr fun x hx => by simpa using (List.mem_filter.mp hx).2]
  simp

theorem State.startDrain_eq (m : Fin 4) (s : State) : s.startDrain m =
    ((((s.decodeBlocks (s.slotBlocks m) .mapLookup).replaceStream
      ((s.decodeBlocks (s.slotBlocks m) .mapLookup).freshDrain m)).setHoldState m 4).setBit (Reg.dptHoldStat m) 7
      false).set (Reg.dptHoldDrainedMib m) 0 := rfl

/-- A drain that has started: its stream sends the slot's items from the first on, and nothing but streams, the slot's
registers and what decoding touches is other than before. -/
structure DrainStarted (m : Fin 4) (s t : State) : Prop where
  dpt : t.dpt = (s.decodeBlocks (s.slotBlocks m) .mapLookup).dpt
  port : ∀ p, s.PortKept t p
  ops : t.opsOf = s.opsOf
  state : t.holdState m = 4
  others : ∀ k, k ≠ m → t.holdState k = s.holdState k
  mib : t.get (Reg.dptHoldDrainedMib m) = 0
  stream : ∃ y, t.stream (drainStream m) = some y ∧ y.items = t.drainItems m ∧ y.op = (s.dpt.holds.get m).drainOp
    ∧ y.next = 0 ∧ y.ended = false

theorem State.startDrain_started (m : Fin 4) (s : State) : DrainStarted m s (s.startDrain m) := by
  have kept : SlotsKept s (s.decodeBlocks (s.slotBlocks m) .mapLookup) := State.decodeBlocks_slotsKept ..
  rw [State.startDrain_eq]
  generalize hd : s.decodeBlocks (s.slotBlocks m) .mapLookup = d at kept ⊢
  have slots : Reg.dptHoldStat m < Reg.dptHoldDrainedMib m ∧ Reg.dptHoldDrainedMib m < Reg.dptHoldStat m + 0x40 := by
    simp only [Reg.dptHoldStat, Reg.dptHoldDrainedMib]
    omega
  have shown : SlotOnly m (d.replaceStream (d.freshDrain m)) ((((d.replaceStream (d.freshDrain m)).setHoldState m 4).setBit
      (Reg.dptHoldStat m) 7 false).set (Reg.dptHoldDrainedMib m) 0) :=
    (((SlotOnly.refl m _).setHoldState 4).set _ ⟨Nat.le_refl _, by omega⟩).set _ ⟨Nat.le_of_lt slots.1, slots.2⟩
  have prov (p : Port) : Reg.lnkProvCtrl p < Reg.queRoute := by
    have := p.isLt
    simp only [Reg.lnkProvCtrl, Reg.queRoute]
    omega
  generalize ht : (((d.replaceStream (d.freshDrain m)).setHoldState m 4).setBit (Reg.dptHoldStat m) 7 false).set
    (Reg.dptHoldDrainedMib m) 0 = t at shown ⊢
  have shown_dpt : t.dpt = d.dpt := ht ▸ rfl
  exact {
    dpt := shown_dpt ▸ (hd ▸ rfl)
    port := fun p => {
      heldTx := by rw [shown.lnk]; exact (congrArg Lnk.heldTx kept.lnk :)
      heldRx := by rw [shown.lnk]; exact (congrArg Lnk.heldRx kept.lnk :)
      prov := (shown.low _ (prov p)).trans (kept.get _ (Nat.lt_trans (prov p) (by decide))) }
    ops := (ht ▸ rfl : t.opsOf = d.opsOf).trans kept.ops
    state := by
      rw [← ht, State.holdState, State.fld, State.get_set_ne _ _ _ _ (Nat.ne_of_lt slots.1)]
      exact (State.fld_setBit_apart _ _ _ _ _ _ (by decide) (by decide)).trans (State.holdState_setHoldState _ m 4)
    others := fun k hk => (shown.holdState hk).trans (kept.holdState k)
    mib := ht ▸ State.get_set_same ..
    stream := ⟨d.freshDrain m, by rw [State.stream, shown.lnk]; exact State.stream_replaceStream (d.freshDrain m) d,
      (congrFun (State.drainItems_congr shown_dpt shown.mapEnt) m).symm,
      congrArg (fun h : Vector Hold 4 => (h.get m).drainOp) kept.holds, rfl, rfl⟩ }

/-! ### The drain order (R198) -/

section
variable {s : State}

theorem State.nextDrain_busy {m : Fin 4} (busy : s.holdState m = 4) : s.nextDrain = s := by
  have listed : ∀ m : Fin 4, m ∈ [0, 1, 2, 3] := by decide
  exact if_pos (List.any_eq_true.mpr ⟨m, listed m, by simp [busy]⟩)

theorem State.nextDrain_first {m : Nat} {q : List Nat} (idle : ∀ m, s.holdState m ≠ 4) (order : s.dpt.drainQ = m :: q) :
    s.nextDrain = (s.withDpt fun d => { d with drainQ := q }).startDrain (Fin.ofNat 4 m) := by
  have none_ : ([0, 1, 2, 3] : List (Fin 4)).any (fun m => s.holdState m == 4) = false := by simp [idle]
  rw [State.nextDrain, none_, order]
  rfl

theorem State.nextDrain_empty (empty : s.dpt.drainQ = []) : s.nextDrain = s := by
  rw [State.nextDrain, empty]
  exact ite_self _

/-- What stays as the first slot of the drain order starts, or none does. -/
structure NextDrain (s t : State) : Prop where
  holds : t.dpt.holds = s.dpt.holds
  ops : t.opsOf = s.opsOf
  port : ∀ p, s.PortKept t p
  intact : s.dpt.mapErrs = [] → t.dpt.map = s.dpt.map ∧ t.dpt.units = s.dpt.units ∧ t.dpt.recs = s.dpt.recs
  states : ∀ k : Fin 4, (∀ m ∈ s.dpt.drainQ, Fin.ofNat 4 m ≠ k) → t.holdState k = s.holdState k

theorem NextDrain.refl (s : State) : NextDrain s s :=
  ⟨rfl, rfl, fun _ => ⟨rfl, rfl, rfl⟩, fun _ => ⟨rfl, rfl, rfl⟩, fun _ _ => rfl⟩

theorem State.nextDrain_next (s : State) : NextDrain s s.nextDrain := by
  by_cases busy : ∃ m, s.holdState m = 4
  · obtain ⟨m, busy⟩ := busy
    rw [State.nextDrain_busy busy]
    exact .refl s
  cases order : s.dpt.drainQ with
  | nil =>
    rw [State.nextDrain_empty order]
    exact .refl s
  | cons m q =>
    rw [State.nextDrain_first (fun m draining => busy ⟨m, draining⟩) order]
    have started := State.startDrain_started (Fin.ofNat 4 m) (s.withDpt fun d => { d with drainQ := q })
    generalize hu : (s.withDpt fun d => { d with drainQ := q }) = u at started ⊢
    have decoded := State.decodeBlocks_slotsKept (u.slotBlocks (Fin.ofNat 4 m)) .mapLookup u
    exact {
      holds := by rw [started.dpt, decoded.holds, ← hu]; rfl
      ops := started.ops.trans (hu ▸ rfl)
      port := fun p =>
        have port := started.port p
        ⟨port.heldTx.trans (hu ▸ rfl), port.heldRx.trans (hu ▸ rfl), port.prov.trans (hu ▸ rfl)⟩
      intact := fun clean => by
        rw [started.dpt, State.decodeBlocks_intact (hu ▸ clean : u.dpt.mapErrs = []), ← hu]
        exact ⟨rfl, rfl, rfl⟩
      states := fun k other => (started.others k fun own => other m (order ▸ List.mem_cons_self) own.symm).trans (hu ▸ rfl) }

end

/-! ### Blocks that go back (R199) -/

/-- The registers of a slot as it is freed. -/
theorem State.get_foldl_set_zero (as : List Nat) {a : Nat} (h : a ∈ as) : ∀ s : State,
    (as.foldl (fun (s : State) (a : Nat) => s.set a 0) s).get a = 0 := by
  have stays (as : List Nat) : ∀ s : State, s.get a = 0
      → (as.foldl (fun (s : State) (a : Nat) => s.set a 0) s).get a = 0 := by
    induction as with
    | nil => exact fun _ zero => zero
    | cons b as ih =>
      intro s zero
      refine ih _ ?_
      by_cases own : a = b
      · rw [own, State.get_set_same]
      · rw [State.get_set_ne _ _ _ _ own, zero]
  induction as with
  | nil => exact absurd h List.not_mem_nil
  | cons b as ih =>
    intro s
    by_cases later : a ∈ as
    · exact ih later _
    · obtain rfl := (List.mem_cons.mp h).resolve_right later
      exact stays as _ (State.get_set_same ..)

/-- The entry of a block as it goes back to the region that it was frozen from. -/
def MapEnt.returned (e : MapEnt) : MapEnt := { e with owner := if e.owner = 4 then 1 else 2, slot := 0 }

/-- A slot that is free: its blocks are the Ring's or the Store's again, and nothing of it is left. -/
structure HoldFreed (n : Fin 4) (s u : State) : Prop where
  changed : SlotOnly n (s.changeEnts MapEnt.returned (s.slotBlocks n)) u
  stat : u.get (Reg.dptHoldStat n) = 0
  hold : u.dpt.holds.get n = Hold.reset

theorem SlotOnly.foldl_set_zero {n : Fin 4} {s : State} (as : List Nat)
    (slot : ∀ a ∈ as, Reg.dptHoldStat n ≤ a ∧ a < Reg.dptHoldStat n + 0x40) :
    ∀ u : State, SlotOnly n s u → SlotOnly n s (as.foldl (fun (s : State) (a : Nat) => s.set a 0) u) := by
  induction as with
  | nil => exact fun _ h => h
  | cons a as ih =>
    exact fun u h => ih (fun b hb => slot b (List.mem_cons_of_mem a hb)) _ (h.set 0 (slot a List.mem_cons_self))

/-- The registers that show a slot. -/
def slotRegs (n : Fin 4) : List Nat :=
  [Reg.dptHoldStat n, Reg.dptHoldRingBlocks n, Reg.dptHoldStoreBlocks n, Reg.dptHoldT0S n, Reg.dptHoldT0Ns n,
    Reg.dptHoldT1S n, Reg.dptHoldT1Ns n, Reg.dptHoldDrainedMib n, Reg.dptHoldFirstSeqLo n, Reg.dptHoldFirstSeqHi n,
    Reg.dptHoldLastSeqLo n, Reg.dptHoldLastSeqHi n]

theorem slotRegs_ofSlot : ∀ n : Fin 4, ∀ a ∈ slotRegs n, Reg.dptHoldStat n ≤ a ∧ a < Reg.dptHoldStat n + 0x40 := by
  decide +kernel

theorem State.freeHold_eq (n : Fin 4) (s : State) : s.freeHold n = ((slotRegs n).foldl (fun (s : State) (a : Nat) => s.set a 0)
    (s.changeEnts MapEnt.returned (s.slotBlocks n))).updHold n fun _ => Hold.reset := rfl

theorem State.opsOf_foldl_set_zero (as : List Nat) : ∀ s : State,
    (as.foldl (fun (s : State) (a : Nat) => s.set a 0) s).opsOf = s.opsOf := by
  induction as with
  | nil => exact fun _ => rfl
  | cons a as ih => exact fun s => (ih _).trans (State.opsOf_set ..)

theorem State.opsOf_freeHold (n : Fin 4) (s : State) : (s.freeHold n).opsOf = s.opsOf := by
  rw [State.freeHold_eq]
  exact (State.opsOf_foldl_set_zero ..).trans (State.changeEnts_mapKept ..).ops

theorem State.freeHold_freed (n : Fin 4) (s : State) : HoldFreed n s (s.freeHold n) := by
  rw [State.freeHold_eq]
  exact {
    changed := (SlotOnly.foldl_set_zero _ (slotRegs_ofSlot n) _ (.refl n _)).updHold _
    stat := (State.withDpt_get ..).trans (State.get_foldl_set_zero (slotRegs n) (a := Reg.dptHoldStat n) List.mem_cons_self _)
    hold := State.holds_updHold .. }

namespace HoldFreed
variable {n : Fin 4} {s u : State} (h : HoldFreed n s u)
include h

theorem blocks (b : Nat) (hb : b ∈ s.slotBlocks n) :
    ((u.mapEnt b).owner = 1 ∨ (u.mapEnt b).owner = 2) ∧ (u.mapEnt b).slot = 0 := by
  obtain ⟨e, shown⟩ := State.mapEnt_changeEnts MapEnt.returned (s.slotBlocks n) hb s
  rw [h.changed.mapEnt, shown]
  refine ⟨?_, rfl⟩
  unfold MapEnt.returned
  dsimp only
  split
  · exact .inl rfl
  · exact .inr rfl

theorem others (b : Nat) (hb : b ∉ s.slotBlocks n) : u.mapEnt b = s.mapEnt b := by
  rw [h.changed.mapEnt]
  exact (State.changeEnts_mapKept ..).ent b hb

theorem mem : u.dpt.mem = s.dpt.mem := h.changed.mem.trans (State.changeEnts_mapKept ..).mem

theorem clean (intact : s.MapClean) : u.dpt.units = s.dpt.units ∧ u.dpt.recs = s.dpt.recs := by
  obtain ⟨units, recs⟩ := intact.changeEnts (f := MapEnt.returned) (s.slotBlocks n)
  exact ⟨h.changed.units.trans units, h.changed.recs.trans recs⟩

/-- Operations end without touching the slot. -/
theorem optDone (o : Option OpRef) (st : BitVec 16) (d : List Byte) : HoldFreed n s (u.optDone o st d) where
  changed := h.changed.optDone o st d
  stat := (State.get_optDone ..).trans h.stat
  hold := by rw [State.optDone_dpt, h.hold]

end HoldFreed

theorem HoldFreed.opsDone {n : Fin 4} {s : State} (os : List OpRef) (st : BitVec 16) (d : List Byte) :
    ∀ u : State, HoldFreed n s u → HoldFreed n s (u.opsDone os st d) := by
  induction os with
  | nil => exact fun _ h => h
  | cons o os ih => exact fun u h => ih _ (h.optDone (some o) st d)

end Sys2Proof.Machine
end

