-- ==== Sys2Proof/Proofs/HoldEvents.lean ====
section
/-! The events of holds, drains and releases (R194–R199). -/

namespace Sys2Proof.Machine

/-! ### Freezes (R194–R197) -/

theorem exec_holdFreeze (n : Fin 4) (s : State) :
    exec (.holdFreeze n) s = .next (State.keeping s (holdFreeze n s)) := rfl

theorem exec_storeHoldFreeze (n : Fin 4) (s : State) :
    exec (.storeHoldFreeze n) s = .next (State.keeping s (storeHoldFreeze n s)) := rfl

theorem exec_drainComplete (n : Fin 4) (s : State) :
    exec (.drainComplete n) s = .next (State.keeping s (drainComplete n s)) := rfl

theorem exec_releaseComplete (n : Fin 4) (s : State) :
    exec (.releaseComplete n) s = .next (State.keeping s (releaseComplete n s)) := rfl

/-- A pending hold freezes once its span is over and nothing can still come into it. -/
theorem holdFreeze_due {s : State} {n : Fin 4} (pending : s.holdState n = 1) (todo : (s.dpt.holds.get n).ringDone = false)
    (ended : (s.dpt.holds.get n).ta + usU (s.dpt.holds.get n).post ≤ s.tim.mt)
    (due : (s.dpt.holds.get n).ta + usU (s.dpt.holds.get n).post + usU 100 ≤ s.tim.mt
      ∨ (s.framesBefore ((s.dpt.holds.get n).ta + usU (s.dpt.holds.get n).post) = false
        ∧ ∀ u ∈ s.pendingUnits, (s.dpt.holds.get n).ta + usU (s.dpt.holds.get n).post ≤ u.time)) :
    holdFreeze n s = s.freezeRing n := by
  unfold holdFreeze
  extract_lets h tEnd
  refine if_neg ?_
  have wait : (decide (s.tim.mt < tEnd + usU 100)
      && (s.framesBefore tEnd || s.pendingUnits.any fun u => decide (u.time < tEnd))) = false := by
    rcases due with late | ⟨frames, units⟩
    · rw [decide_eq_false (Nat.not_lt_of_le late), Bool.false_and]
    · have all : s.pendingUnits.any (fun u => decide (u.time < tEnd)) = false := by
        rw [List.any_eq_false]
        intro u hu
        simpa using units u hu
      rw [show s.framesBefore tEnd = false from frames, all, Bool.or_false, Bool.and_false]
  rw [wait, Bool.or_false, decide_eq_false (Nat.not_lt_of_le ended), pending, show h.ringDone = false from todo]
  decide

/-- The Ring part of a pending hold is frozen. -/
structure RingFrozen (n : Fin 4) (held : List Nat) (s t : State) : Prop where
  done : (t.dpt.holds.get n).ringDone = true
  count : t.get (Reg.dptHoldRingBlocks n) = BitVec.ofNat 32 held.length
  nodup : held.Nodup
  mine : ∀ b ∈ held, (s.mapEnt b).owner = 1 ∧ (t.mapEnt b).owner = 4 ∧ (t.mapEnt b).slot = BitVec.ofNat 2 n.val
  apart : ∀ b, (s.mapEnt b).owner ≠ 1 → (s.mapEnt b).owner ≠ 3 → t.mapEnt b = s.mapEnt b
  state : t.holdState n = if (s.dpt.holds.get n).storeDone ∨ s.bit (Reg.dptHoldStat n) 4 = false then 2 else 1
  ends : ∀ q, (s.dpt.holds.get n).op = some q → ((s.dpt.holds.get n).storeDone ∨ s.bit (Reg.dptHoldStat n) 4 = false) →
    OpEnds s t q St.ok (beBytes 1 (t.fld (Reg.dptHoldStat n) 7 0))
  others : ∀ m : Fin 4, m ≠ n → t.dpt.holds.get m = s.dpt.holds.get m ∧ t.holdState m = s.holdState m
  port : ∀ p, s.PortKept t p
  hasOp : ∀ id h op, s.HasOp id h op → t.HasOp id h op

theorem State.freezeRing_freezes {s : State} {n : Fin 4} (pending : s.holdState n = 1) :
    ∃ held, RingFrozen n held s (s.freezeRing n) := by
  obtain ⟨held, v, w, part, eq⟩ := State.freezeRing_shape n s
  generalize hf : (fun h : Hold => { h with ringDone := true }) = f at eq
  have ready : (w.updHold n f).holdReady n = true
      ↔ (s.dpt.holds.get n).storeDone ∨ s.bit (Reg.dptHoldStat n) 4 = false := by
    rw [part.ready, ← hf]
    simp
  rw [eq]
  exact ⟨held, {
    done := (part.parts f).1.trans (hf ▸ rfl)
    count := part.shown f (ofSlot_holdRegs n).1
    nodup := part.nodup
    mine := part.mine f
    apart := part.apart f
    state := by rw [part.holdState f, pending]; simp only [ready]
    ends := fun q op both => part.ends f (fun _ => hf ▸ rfl) (ready.mpr both) op
    others := part.otherSlots f
    port := .of_low ((part.only f).lnk.trans part.kept.lnk) fun a ha =>
      ((part.only f).low a ha).trans (part.kept.get a (Nat.lt_trans ha (by decide)))
    hasOp := fun id h op held => (part.only f).hasOp id h op (held.congr part.kept.ops) }⟩

/-- The Store part of a hold freezes Store blocks, and completes the hold where the Ring part is done. -/
theorem storeHoldFreeze_completes {s : State} {n : Fin 4} (pending : s.holdState n = 1)
    (todo : (s.dpt.holds.get n).storeDone = false) (asked : s.bit (Reg.dptHoldStat n) 4 = true)
    (stored : ∀ r ∈ s.dpt.recs, r.order < (s.dpt.holds.get n).order → r.stored = true) :
    ∃ (t : State) (held : List Nat), exec (.storeHoldFreeze n) s = .next t ∧ (t.dpt.holds.get n).storeDone = true
      ∧ t.get (Reg.dptHoldStoreBlocks n) = BitVec.ofNat 32 held.length ∧ held.Nodup
      ∧ (∀ b ∈ held, (s.mapEnt b).owner = 2 ∧ (t.mapEnt b).owner = 6 ∧ (t.mapEnt b).slot = BitVec.ofNat 2 n.val)
      ∧ (∀ b, (s.mapEnt b).owner ≠ 2 → (s.mapEnt b).owner ≠ 3 → t.mapEnt b = s.mapEnt b)
      ∧ t.holdState n = (if (s.dpt.holds.get n).ringDone then 2 else 1)
      ∧ (∀ q, (s.dpt.holds.get n).op = some q → (s.dpt.holds.get n).ringDone = true →
          OpEnds s t q St.ok (beBytes 1 (t.fld (Reg.dptHoldStat n) 7 0)))
      ∧ t.dpt.mem = s.dpt.mem := by
  obtain ⟨held, v, w, part, mem, eq⟩ := storeHoldFreeze_shape pending todo asked stored
  generalize hf : (fun h : Hold => { h with storeDone := true }) = f at eq
  have ready : (w.updHold n f).holdReady n = (s.dpt.holds.get n).ringDone := by
    rw [part.ready, ← hf]
    simp
  have state := part.holdState f
  rw [ready, pending] at state
  rw [exec_storeHoldFreeze, eq]
  exact ⟨_, held, rfl, (part.parts f).2.trans (hf ▸ rfl), part.shown f (ofSlot_holdRegs n).2.1, part.nodup, part.mine f,
    part.apart f, state, fun q op done => part.ends f (fun _ => hf ▸ rfl) (ready.trans done) op, (part.only f).mem.trans mem⟩

/-! ### Drains (R198, R199) -/

/-- A slot whose drain has sent everything: DRAINED, or RELEASING as AUTO_RELEASE asks for; its drain's operation is done. -/
structure Drained (n : Fin 4) (s u : State) : Prop where
  only : SlotOnly n s u
  state : u.holdState n = if (s.dpt.holds.get n).autoRelease then 6 else 5
  ends : ∀ q, (s.dpt.holds.get n).drainOp = some q → OpEnds s u q St.ok (s.opCounts (some q))

/-- The slot of a drain that has sent everything, before its release and the next drain begin. -/
def State.endDrain (n : Fin 4) (s : State) : State :=
  ((s.setHoldState n 5).optDone (s.dpt.holds.get n).drainOp St.ok (s.opCounts (s.dpt.holds.get n).drainOp)).updHold n
    fun h => { h with drainOp := none }

theorem State.endDrain_ends (s : State) (n : Fin 4) {q : OpRef} (op : (s.dpt.holds.get n).drainOp = some q) :
    OpEnds s (s.endDrain n) q St.ok (s.opCounts (some q)) := by
  rw [State.endDrain, op]
  exact ((s.setHoldState n 5).opDone_ends q St.ok _).congr (fun _ known => known) rfl

theorem drainComplete_eq {s : State} {n : Fin 4} {x : Stream} (known : s.stream (drainStream n) = some x)
    (draining : s.holdState n = 4) (ended : x.ended = true) :
    drainComplete n s = (if (s.dpt.holds.get n).autoRelease then
      (s.endDrain n).beginRelease n (s.dpt.holds.get n).releaseOps else s.endDrain n).nextDrain := by
  unfold drainComplete
  rw [show s.lnk.streams.find? (fun x => decide (x.id = drainStream n)) = some x from known]
  dsimp only
  rw [if_neg (by simp [draining, ended])]
  rfl

theorem State.beginRelease_only (n : Fin 4) (ops : List OpRef) (s : State) : SlotOnly n s (s.beginRelease n ops) :=
  ((SlotOnly.refl n s).setHoldState 6).updHold _

theorem State.holdState_beginRelease (n : Fin 4) (ops : List OpRef) (s : State) : (s.beginRelease n ops).holdState n = 6 :=
  State.holdState_setHoldState s n 6

theorem drainComplete_drained {s : State} {n : Fin 4} {x : Stream} (known : s.stream (drainStream n) = some x)
    (draining : s.holdState n = 4) (ended : x.ended = true) :
    ∃ u, Drained n s u ∧ drainComplete n s = u.nextDrain := by
  have only : SlotOnly n s (s.endDrain n) := (((SlotOnly.refl n s).setHoldState 5).optDone _ _ _).updHold _
  refine ⟨_, ?_, drainComplete_eq known draining ended⟩
  cases auto : (s.dpt.holds.get n).autoRelease with
  | false => exact ⟨only, by
      rw [auto]
      exact (State.holdState_optDone ..).trans (State.holdState_setHoldState s n 5), fun _ => s.endDrain_ends n⟩
  | true => exact ⟨only.trans (State.beginRelease_only ..), by
      rw [auto]
      exact State.holdState_beginRelease .., fun q op => (s.endDrain_ends n op).congr (fun _ known => known) rfl⟩

theorem drainComplete_completes {s : State} {n : Fin 4} {x : Stream} (known : s.stream (drainStream n) = some x)
    (draining : s.holdState n = 4) (ended : x.ended = true) :
    ∃ t, exec (.drainComplete n) s = .next t ∧ (s.dpt.mapErrs = [] ∨ s.dpt.drainQ = [] → t.dpt.map = s.dpt.map)
      ∧ ((∀ m ∈ s.dpt.drainQ, Fin.ofNat 4 m ≠ n) →
          t.holdState n = (if (s.dpt.holds.get n).autoRelease then 6 else 5))
      ∧ (∀ q, (s.dpt.holds.get n).drainOp = some q → OpEnds s t q St.ok (s.opCounts (some q)))
      ∧ (s.dpt.drainQ = [] → t.dpt.drainQ = [] ∧ t.lnk = s.lnk) := by
  obtain ⟨u, drained, eq⟩ := drainComplete_drained known draining ended
  rw [exec_drainComplete, eq]
  have next := u.nextDrain_next
  refine ⟨_, rfl, fun still => ?_, fun others => ?_, fun q op => ?_, fun empty => ?_⟩
  · rcases still with clean | empty
    · have errs : u.dpt.mapErrs = [] := (congrArg Depot.mapErrs drained.only.dpt).trans clean
      exact (next.intact errs).1.trans drained.only.map
    · rw [State.nextDrain_empty (drained.only.drainQ.trans empty)]
      exact drained.only.map
  · exact (next.states n (drained.only.drainQ.symm ▸ others)).trans drained.state
  · exact (drained.ends q op).congr (fun _ known => known) (congrFun (State.findOp_congr next.ops) q)
  · rw [State.nextDrain_empty (drained.only.drainQ.trans empty)]
    exact ⟨drained.only.drainQ.trans empty, drained.only.lnk⟩

/-- The first slot of the drain order starts as no other drains. -/
theorem drainComplete_starts {s : State} {n m : Fin 4} {q : List Nat} {x : Stream} (known : s.stream (drainStream n) = some x)
    (draining : s.holdState n = 4) (ended : x.ended = true) (order : s.dpt.drainQ = m.val :: q) (other : m ≠ n)
    (alone : ∀ k : Fin 4, k ≠ n → s.holdState k ≠ 4) :
    ∃ t y, exec (.drainComplete n) s = .next t ∧ t.dpt.drainQ = q ∧ t.holdState m = 4
      ∧ t.stream (drainStream m) = some y ∧ y.items = t.drainItems m ∧ y.op = (s.dpt.holds.get m).drainOp
      ∧ y.ended = false := by
  obtain ⟨u, drained, eq⟩ := drainComplete_drained known draining ended
  have idle (k : Fin 4) : u.holdState k ≠ 4 := by
    by_cases own : k = n
    · rw [own, drained.state]
      split <;> decide
    · rw [drained.only.holdState own]
      exact alone k own
  have first := State.nextDrain_first idle (drained.only.drainQ.trans order)
  have named : Fin.ofNat 4 m.val = m := Fin.ext (Nat.mod_eq_of_lt m.isLt)
  rw [named] at first
  have started := State.startDrain_started m (u.withDpt fun d => { d with drainQ := q })
  rw [exec_drainComplete, eq, first]
  generalize (u.withDpt fun d => { d with drainQ := q }).startDrain m = t at started ⊢
  obtain ⟨y, shown, items, op, -, going⟩ := started.stream
  refine ⟨_, y, rfl, ?_, started.state, shown, items, op.trans ?_, going⟩
  · rw [State.keeping_dpt, started.dpt, (State.decodeBlocks_slotsKept ..).drainQ]
    rfl
  · exact congrArg Hold.drainOp (drained.only.others m other)

/-! ### Releases (R199) -/

theorem releaseComplete_completes {s : State} {n : Fin 4} (releasing : s.holdState n = 6)
    (settled : ∀ x ∈ s.lnk.streams, ∀ g ∈ x.segs, ∀ p ∈ g.parts, s.itemIn (s.slotBlocks n) p.1 = false) :
    ∃ t, exec (.releaseComplete n) s = .next t ∧ t.get (Reg.dptHoldStat n) = 0 ∧ t.dpt.holds.get n = Hold.reset
      ∧ (∀ b ∈ s.slotBlocks n, ((t.mapEnt b).owner = 1 ∨ (t.mapEnt b).owner = 2) ∧ (t.mapEnt b).slot = 0)
      ∧ (∀ b, b ∉ s.slotBlocks n → t.mapEnt b = s.mapEnt b)
      ∧ (∀ q ∈ (s.dpt.holds.get n).releaseOps, OpEnds s t q St.ok []) ∧ t.dpt.mem = s.dpt.mem
      ∧ (s.dpt.mapErrs = [] → s.bit Reg.dptMapflipCtrl 0 = false →
          t.dpt.units = s.dpt.units ∧ t.dpt.recs = s.dpt.recs) := by
  have eq : releaseComplete n s = (s.freeHold n).opsDone (s.dpt.holds.get n).releaseOps St.ok [] := by
    refine if_neg ?_
    simp only [releasing, bne_self_eq_false, Bool.false_or, List.any_eq_true, not_exists, not_and]
    exact fun x hx g hg p hp itemIn => absurd (settled x hx g hg p hp) (by simp [itemIn])
  have freed := HoldFreed.opsDone (s.dpt.holds.get n).releaseOps St.ok [] _ (State.freeHold_freed n s)
  have ends (q : OpRef) (hq : q ∈ (s.dpt.holds.get n).releaseOps) :
      OpEnds s ((s.freeHold n).opsDone (s.dpt.holds.get n).releaseOps St.ok []) q St.ok [] :=
    (State.opsDone_ends St.ok [] _ _ q hq).congr
      (fun p known => (congrFun (State.findOp_congr (State.opsOf_freeHold n s)) q).trans known) rfl
  rw [exec_releaseComplete, eq]
  generalize (s.freeHold n).opsDone (s.dpt.holds.get n).releaseOps St.ok [] = u at freed ends ⊢
  exact ⟨_, rfl, freed.stat, freed.hold, freed.blocks, freed.others, ends, freed.mem,
    fun clean unarmed => freed.clean ⟨clean, unarmed⟩⟩

/-- Settles O42: each part of a hold freezes blocks of its own region, a drain's end starts the next in the drain order, and a
release returns the slot's blocks. -/
theorem holdEventsComplete : Obligations.HoldEventsComplete := by
  unfold Obligations.HoldEventsComplete
  refine ⟨fun s n pending todo ended due => ?_, fun _ _ => storeHoldFreeze_completes, fun _ _ _ => drainComplete_completes,
    fun _ _ _ _ _ => drainComplete_starts, fun _ _ => releaseComplete_completes⟩
  obtain ⟨held, frozen⟩ := State.freezeRing_freezes pending
  rw [exec_holdFreeze, holdFreeze_due pending todo ended due]
  generalize s.freezeRing n = u at frozen ⊢
  exact ⟨_, held, rfl, frozen.done, frozen.count, frozen.nodup, frozen.mine, frozen.apart, frozen.state, frozen.ends,
    frozen.others⟩

end Sys2Proof.Machine
end

