-- ==== Sys2Proof/Proofs/LongCommands.lean ====
section
/-! What a long command's execution finds, and what its answer shows of what it has begun (R329). -/

namespace Sys2Proof.Machine

/-! ### A command's execution finds the Depot as it was -/

/-- A state in which a request has arrived, and a long operation begun: Depot, links and time are as before, so are the
registers but the ports' counts of frames, and what is known of an operation is known on. -/
structure Entered (s u : State) : Prop where
  dpt : u.dpt = s.dpt
  lnk : u.lnk = s.lnk
  tim : u.tim = s.tim
  modes : u.modes = s.modes
  variant : u.variant = s.variant
  get : ∀ a, a < 0x40104 ∨ 0x401C4 < a → u.get a = s.get a
  known : ∀ o p, s.findOp o = some p → u.findOp o = some p

theorem State.arrived_entered (s : State) (r : Req) : Entered s (s.arrived r) :=
  ⟨rfl, rfl, rfl, rfl, rfl, fun _ ha => s.get_arrived_ne r _ (ne_lnkPortRx r.port ha), fun o p known => by
    rw [State.findOp_congr (s.opsOf_arrived r), known]⟩

theorem Entered.opened {s u : State} (h : Entered s u) (id : Word) (o : Op) : Entered s (u.opened id o) :=
  ⟨h.dpt, h.lnk, h.tim, h.modes, h.variant, h.get, fun q p known => State.findOp_opened (h.known q p known)⟩

namespace Entered
variable {s u : State} (h : Entered s u)
include h

theorem stat_get (n : Fin 4) : u.get (Reg.dptHoldStat n) = s.get (Reg.dptHoldStat n) :=
  h.get _ (by simp only [Reg.dptHoldStat]; omega)

theorem holdState (n : Fin 4) : u.holdState n = s.holdState n := congrArg (bits · 2 0) (h.stat_get n)

theorem mapEnt : u.mapEnt = s.mapEnt := State.mapEnt_congr h.dpt (h.get _ (by decide)) h.variant

theorem opCounts {o : OpRef} {p : Op} (known : s.findOp o = some p) : u.opCounts (some o) = s.opCounts (some o) := by
  show ((u.findOp o).map fun p => p.counts.flatMap (beBytes 4)).getD [] = ((s.findOp o).map _).getD []
  rw [known, h.known o p known]

end Entered

theorem State.arrived_hasBinding (s : State) (r : Req) : (s.arrived r).hasBinding = s.hasBinding := by
  have active : (s.arrived r).mlActive = s.mlActive := by
    unfold State.mlActive State.fld
    rw [s.get_arrived_ne r _ (ne_lnkPortRx r.port (by decide))]
  unfold State.hasBinding State.isActive
  rw [active]
  rfl

/-! ### What an answer shows -/

namespace SameView
variable {u t : State} (h : SameView u t)
include h

theorem mapEnt : t.mapEnt = u.mapEnt := State.mapEnt_congr h.dpt (h.get _) h.variant

theorem holdState (n : Fin 4) : t.holdState n = u.holdState n := congrArg (bits · 2 0) (h.get _)

theorem get64 (lo hi : Nat) : t.get64 lo hi = u.get64 lo hi := by
  rw [State.get64, State.get64, h.get, h.get]

theorem stream (id : BitVec 16) : t.stream id = u.stream id := by
  rw [State.stream, State.stream, h.streams]

theorem drainItems : t.drainItems = u.drainItems := State.drainItems_congr h.dpt h.mapEnt

theorem findOp : t.findOp = u.findOp := State.findOp_congr h.ops

end SameView

/-! ### A long command that begins -/

/-- What a long command begins leaves its port, and every operation. -/
structure Begins (u v : State) : Prop where
  port : ∀ p, u.PortKept v p
  hasOp : ∀ id h op, u.HasOp id h op → v.HasOp id h op

theorem Begins.refl (u : State) : Begins u u := ⟨fun _ => ⟨rfl, rfl, rfl⟩, fun _ _ _ h => h⟩

theorem Begins.trans {u v w : State} (h : Begins u v) (k : Begins v w) : Begins u w where
  port p := ⟨(k.port p).heldTx.trans (h.port p).heldTx, (k.port p).heldRx.trans (h.port p).heldRx,
    (k.port p).prov.trans (h.port p).prov⟩
  hasOp id handle op held := k.hasOp id handle op (h.hasOp id handle op held)

theorem Begins.withDpt {u v : State} (h : Begins u v) (f : Depot → Depot) : Begins u (v.withDpt f) :=
  ⟨fun p => ⟨(h.port p).heldTx, (h.port p).heldRx, (h.port p).prov⟩, h.hasOp⟩

theorem SlotsKept.begins {u v : State} (h : SlotsKept u v) : Begins u v where
  port := .of_low h.lnk fun a ha => h.get a (Nat.lt_trans ha (by decide))
  hasOp _ _ _ held := held.congr h.ops

theorem SlotOnly.begins {n : Fin 4} {u v : State} (h : SlotOnly n u v) : Begins u v where
  port := .of_low h.lnk h.low
  hasOp := h.hasOp

theorem NextDrain.begins {u v : State} (h : NextDrain u v) : Begins u v where
  port := h.port
  hasOp _ _ _ held := held.congr h.ops

/-- A served long command of a session with room is accepted, and shows what it has begun. -/
theorem run_longs {s : State} {f : Form} {r : Req} {x : Session} {body : Session → State → Ans} {counts : List Nat}
    {more : List Byte} {go : OpRef → State → State} (n : Nat) (i : Instr) (h : Served s f r x) (hc : f.closes = false)
    (room : x.HasRoom) (starts : body (x.hear s.tim.now r) (s.arrived r)
      = (s.arrived r).long (x.hear s.tim.now r).id f.op counts more go)
    (begins : ∀ o u, Entered s u → Begins u (go o u)) :
    ∃ t o u, run (receive r.port n i fun s => s.request f r body) s = .next t ∧ Accepted t r f.op more ∧ Entered s u
      ∧ SameView (go o u) t := by
  obtain ⟨k, answer⟩ := h.long_accepted room f.op counts more go
  have entered := (s.arrived_entered r).opened r.session (Op.fresh k f.op counts)
  obtain ⟨port, hasOp⟩ := begins ⟨r.session, k⟩ _ entered
  obtain ⟨t, next, accepted, shown⟩ := run_accepts n i h hc (starts.trans answer)
    ⟨(port r.port).heldTx, (port r.port).heldRx, (port r.port).prov⟩ (hasOp _ _ _)
  exact ⟨t, _, _, next, accepted, entered, shown.toSameView⟩

end Sys2Proof.Machine
end

