-- ==== Sys2Proof/Proofs/HoldCommands.lean ====
section
/-! HOLD, DRAIN and RELEASE (R193, R197–R199, R348). -/

namespace Sys2Proof.Machine

/-! ### HOLD (R193, R197, R348) -/

/-- The slot of an accepted hold: its record and what its registers show. -/
def State.noteHold (n : Fin 4) (h : Hold) (stat : Word) (t1 firstSeq : Nat) (s : State) : State :=
  (((s.updHold n fun _ => h).set (Reg.dptHoldStat n) stat).stamp (Reg.dptHoldT1S n) (Reg.dptHoldT1Ns n) t1).set64
    (Reg.dptHoldFirstSeqLo n) (Reg.dptHoldFirstSeqHi n) firstSeq

structure HoldNoted (n : Fin 4) (h : Hold) (stat : Word) (t1 firstSeq : Nat) (s u : State) : Prop where
  only : SlotOnly n s u
  hold : u.dpt.holds.get n = h
  stat : u.get (Reg.dptHoldStat n) = stat
  seconds : u.get (Reg.dptHoldT1S n) = BitVec.ofNat 32 (secOf t1)
  nanos : u.get (Reg.dptHoldT1Ns n) = BitVec.ofNat 32 (nsOf t1)
  first : u.get64 (Reg.dptHoldFirstSeqLo n) (Reg.dptHoldFirstSeqHi n) = BitVec.ofNat 64 firstSeq

theorem State.noteHold_noted (n : Fin 4) (h : Hold) (stat : Word) (t1 firstSeq : Nat) (s : State) :
    HoldNoted n h stat t1 firstSeq s (s.noteHold n h stat t1 firstSeq) := by
  obtain ⟨stat1, stat2, stat3, stat4⟩ : Reg.dptHoldStat n ≠ Reg.dptHoldT1S n ∧ Reg.dptHoldStat n ≠ Reg.dptHoldT1Ns n
      ∧ Reg.dptHoldStat n ≠ Reg.dptHoldFirstSeqLo n ∧ Reg.dptHoldStat n ≠ Reg.dptHoldFirstSeqHi n := by
    simp only [Reg.dptHoldStat, Reg.dptHoldT1S, Reg.dptHoldT1Ns, Reg.dptHoldFirstSeqLo, Reg.dptHoldFirstSeqHi]
    omega
  obtain ⟨secs1, secs2, secs3, nanos1, nanos2, halves⟩ : Reg.dptHoldT1S n ≠ Reg.dptHoldT1Ns n
      ∧ Reg.dptHoldT1S n ≠ Reg.dptHoldFirstSeqLo n ∧ Reg.dptHoldT1S n ≠ Reg.dptHoldFirstSeqHi n
      ∧ Reg.dptHoldT1Ns n ≠ Reg.dptHoldFirstSeqLo n ∧ Reg.dptHoldT1Ns n ≠ Reg.dptHoldFirstSeqHi n
      ∧ Reg.dptHoldFirstSeqLo n ≠ Reg.dptHoldFirstSeqHi n := by
    simp only [Reg.dptHoldT1S, Reg.dptHoldT1Ns, Reg.dptHoldFirstSeqLo, Reg.dptHoldFirstSeqHi]
    omega
  have slot (a : Nat) (ha : a ∈ slotRegs n) := slotRegs_ofSlot n a ha
  exact {
    only := (((((SlotOnly.refl n s).updHold _).set _ (slot _ (by simp [slotRegs]))).set _ (slot _ (by simp [slotRegs]))).set _
      (slot _ (by simp [slotRegs]))).set _ (slot _ (by simp [slotRegs])) |>.set _ (slot _ (by simp [slotRegs]))
    hold := State.holds_updHold ..
    stat := by
      simp only [State.noteHold, State.set64, State.stamp, State.get_set_ne _ _ _ _ stat1, State.get_set_ne _ _ _ _ stat2,
        State.get_set_ne _ _ _ _ stat3, State.get_set_ne _ _ _ _ stat4, State.get_set_same]
    seconds := by
      simp only [State.noteHold, State.set64, State.stamp, State.get_set_ne _ _ _ _ secs1, State.get_set_ne _ _ _ _ secs2,
        State.get_set_ne _ _ _ _ secs3, State.get_set_same]
    nanos := by
      simp only [State.noteHold, State.set64, State.stamp, State.get_set_ne _ _ _ _ nanos1,
        State.get_set_ne _ _ _ _ nanos2, State.get_set_same]
    first := State.get64_set64 _ _ _ _ halves }

/-- A Store part asked for: the Store's open block is closed and its directories are written (R197). -/
def State.closeStore (store : Bool) (s : State) : State := if store then (s.fillBlock false).storeDirectories else s

theorem State.closeStore_linesKept (store : Bool) (s : State) : LinesKept s (s.closeStore store) := by
  unfold State.closeStore
  split
  · exact (State.fillBlock_linesKept ..).trans (State.storeDirectories_linesKept _)
  · exact .refl s

/-- The record of a hold as it is accepted. -/
def State.acceptedHold (s : State) (pre post : Word) (firstSeq : BitVec 64) (o : OpRef) : Hold :=
  { Hold.reset with ta := s.tim.mt, pre := pre.toNat, post := post.toNat, firstSeq := firstSeq.toNat, order := s.dpt.order
                    op := some o }

theorem State.holdStart_eq (n : Fin 4) (pre post : Word) (store : Bool) (firstSeq : BitVec 64) (o : OpRef) (s : State) :
    s.holdStart n pre post store firstSeq o =
      (let u := (s.closeStore store).noteHold n ((s.closeStore store).acceptedHold pre post firstSeq o)
        (BitVec.ofNat 32 (1 + store.toNat * 16)) ((s.closeStore store).tim.mt + usU post.toNat) firstSeq.toNat
      if u.modes.inner = .hold then u.freezeRing n else u) := rfl

/-- The lowest slot of which something holds. -/
theorem find_lowest {p : Fin 4 → Bool} {n : Fin 4} (here : p n = true) (lower : ∀ m, m < n → p m = false) :
    ([0, 1, 2, 3] : List (Fin 4)).find? p = some n := by
  match n, here, lower with
  | 0, here, _ => simp [here]
  | 1, here, lower => simp [here, lower 0 (by decide)]
  | 2, here, lower => simp [here, lower 0 (by decide), lower 1 (by decide)]
  | 3, here, lower => simp [here, lower 0 (by decide), lower 1 (by decide), lower 2 (by decide)]

theorem hold_inRange {post : Word} {store : Byte} (span : post.toNat ≤ 1000000) (parts : store.toNat ≤ 1) :
    (decide (1000000 < post.toNat) || decide (1 < store.toNat)) = false := by
  rw [decide_eq_false (Nat.not_lt_of_le span), decide_eq_false (Nat.not_lt_of_le parts)]
  rfl

theorem State.hold_starts {s : State} {pre post : Word} {store : Byte} {q : BitVec 64} {n : Fin 4} (x : Session)
    (span : post.toNat ≤ 1000000) (parts : store.toNat ≤ 1) (free : s.holdState n = 0)
    (lowest : ∀ m : Fin 4, m < n → s.holdState m ≠ 0) : s.hold pre post store q x
      = s.long x.id 0x0400 [] (beBytes 1 n.val) fun o s => s.holdStart n pre post (store = 1) q o := by
  unfold State.hold
  rw [hold_inRange span parts, find_lowest (n := n) (by simp [free]) (fun m hm => by simp [lowest m hm])]
  rfl

abbrev holdForm : Form := Form.make 0x0400 24 State.inDepot

/-- The slot of a hold as it begins; what the Depot holds of blocks, units and records is as before. -/
theorem State.holdStart_noted (n : Fin 4) (pre post : Word) (store : Bool) (q : BitVec 64) (o : OpRef) (u : State) :
    ∃ v w, LinesKept u v ∧ HoldNoted n (u.acceptedHold pre post q o) (BitVec.ofNat 32 (1 + store.toNat * 16))
        (u.tim.mt + usU post.toNat) q.toNat v w
      ∧ u.holdStart n pre post store q o = if u.modes.inner = .hold then w.freezeRing n else w := by
  have lines := u.closeStore_linesKept store
  have record : (u.closeStore store).acceptedHold pre post q o = u.acceptedHold pre post q o := by
    rw [State.acceptedHold, State.acceptedHold, lines.tim, lines.order]
  have noted := State.noteHold_noted n (u.acceptedHold pre post q o) (BitVec.ofNat 32 (1 + store.toNat * 16))
    (u.tim.mt + usU post.toNat) q.toNat (u.closeStore store)
  have modes := noted.only.modes.trans (congrArg State.modes lines.rest :)
  rw [State.holdStart_eq, record, lines.tim]
  dsimp only
  rw [modes]
  exact ⟨_, _, lines, noted, rfl⟩

namespace HoldNoted
variable {n : Fin 4} {h : Hold} {store : Bool} {t1 q : Nat} {s u : State}
  (noted : HoldNoted n h (BitVec.ofNat 32 (1 + store.toNat * 16)) t1 q s u)
include noted

theorem pending : u.holdState n = 1 := by
  rw [State.holdState, State.fld, noted.stat]
  cases store <;> rfl

theorem store_bit : u.bit (Reg.dptHoldStat n) 4 = store := by
  rw [State.bit, noted.stat]
  cases store <;> rfl

end HoldNoted

theorem State.holdStart_begins (n : Fin 4) (pre post : Word) (store : Bool) (q : BitVec 64) (o : OpRef) (u : State) :
    Begins u (u.holdStart n pre post store q o) := by
  obtain ⟨v, w, lines, noted, eq⟩ := u.holdStart_noted n pre post store q o
  have begins := lines.begins.trans noted.only.begins
  rw [eq]
  split
  · obtain ⟨held, frozen⟩ := State.freezeRing_freezes noted.pending
    exact begins.trans ⟨frozen.port, frozen.hasOp⟩
  · exact begins

/-- An accepted hold shows the slot that it has begun. -/
theorem hold_accepted {s : State} {r : Req} {x : Session} {pre post : Word} {store : Byte} {q : BitVec 64} {n : Fin 4}
    (h : Served s holdForm r x) (room : x.HasRoom) (span : post.toNat ≤ 1000000) (parts : store.toNat ≤ 1)
    (free : s.holdState n = 0) (lowest : ∀ m : Fin 4, m < n → s.holdState m ≠ 0) :
    ∃ t o u, exec (.hold r pre post store q) s = .next t ∧ Accepted t r 0x0400 (beBytes 1 n.val) ∧ Entered s u
      ∧ SameView (u.holdStart n pre post (store = 1) q o) t := by
  have entered := s.arrived_entered r
  exact run_longs (body := fun x s => s.hold pre post store q x) (wireLen r) (.hold r pre post store q) h rfl room
    (State.hold_starts _ span parts ((entered.holdState n).trans free) fun m hm => (entered.holdState m).symm ▸ lowest m hm)
    fun o u _ => u.holdStart_begins n pre post (store = 1) q o

theorem byteFlag {store : Byte} (parts : store.toNat ≤ 1) : (decide (store = 1)).toNat = store.toNat := by
  rcases Nat.le_one_iff_eq_zero_or_eq_one.mp parts with none_ | one
  · obtain rfl : store = 0 := BitVec.eq_of_toNat_eq none_
    rfl
  · obtain rfl : store = 1 := BitVec.eq_of_toNat_eq one
    rfl

theorem hold_begins {s : State} {r : Req} {x : Session} {pre post : Word} {store : Byte} {q : BitVec 64} {n : Fin 4}
    (h : Served s holdForm r x) (room : x.HasRoom) (span : post.toNat ≤ 1000000) (parts : store.toNat ≤ 1)
    (free : s.holdState n = 0) (lowest : ∀ m : Fin 4, m < n → s.holdState m ≠ 0) (outside : s.modes.inner ≠ .hold) :
    ∃ t o, exec (.hold r pre post store q) s = .next t ∧ Accepted t r 0x0400 (beBytes 1 n.val)
      ∧ t.dpt.holds.get n =
          { Hold.reset with ta := s.tim.mt, pre := pre.toNat, post := post.toNat, firstSeq := q.toNat
                            order := s.dpt.order, op := some o }
      ∧ t.get (Reg.dptHoldStat n) = BitVec.ofNat 32 (1 + 16 * store.toNat)
      ∧ t.get (Reg.dptHoldT1S n) = BitVec.ofNat 32 (secOf (s.tim.mt + usU post.toNat))
      ∧ t.get (Reg.dptHoldT1Ns n) = BitVec.ofNat 32 (nsOf (s.tim.mt + usU post.toNat))
      ∧ t.get64 (Reg.dptHoldFirstSeqLo n) (Reg.dptHoldFirstSeqHi n) = q
      ∧ (∀ m : Fin 4, m ≠ n → t.dpt.holds.get m = s.dpt.holds.get m ∧ t.holdState m = s.holdState m)
      ∧ t.dpt.map = s.dpt.map ∧ t.dpt.units = s.dpt.units ∧ t.dpt.recs = s.dpt.recs := by
  obtain ⟨t, o, u, next, accepted, entered, shown⟩ := hold_accepted h room span parts free lowest (q := q) (pre := pre)
  obtain ⟨v, w, lines, noted, eq⟩ := u.holdStart_noted n pre post (store = 1) q o
  rw [eq, if_neg (by rw [entered.modes]; exact outside)] at shown
  refine ⟨t, o, next, accepted, ?_, ?_, ?_, ?_, ?_, fun m hm => ⟨?_, ?_⟩, ?_, ?_, ?_⟩
  · rw [shown.dpt, noted.hold, State.acceptedHold, entered.tim, entered.dpt]
  · rw [shown.get, noted.stat, byteFlag parts, Nat.mul_comm]
  · rw [shown.get, noted.seconds, entered.tim]
  · rw [shown.get, noted.nanos, entered.tim]
  · rw [shown.get64, noted.first, BitVec.ofNat_toNat, BitVec.setWidth_eq]
  · rw [shown.dpt, noted.only.others m hm, lines.holds, entered.dpt]
  · rw [shown.holdState, noted.only.holdState hm, lines.holdState, entered.holdState]
  · rw [shown.dpt, noted.only.map, lines.map, entered.dpt]
  · rw [shown.dpt, noted.only.units, lines.units, entered.dpt]
  · rw [shown.dpt, noted.only.recs, lines.recs, entered.dpt]

/-- In Hold mode the Ring part is frozen as the hold is accepted (R348). -/
theorem hold_freezes {s : State} {r : Req} {x : Session} {pre post : Word} {store : Byte} {q : BitVec 64} {n : Fin 4}
    (h : Served s holdForm r x) (room : x.HasRoom) (span : post.toNat ≤ 1000000) (parts : store.toNat ≤ 1)
    (free : s.holdState n = 0) (lowest : ∀ m : Fin 4, m < n → s.holdState m ≠ 0) (inside : s.modes.inner = .hold) :
    ∃ (t : State) (held : List Nat), exec (.hold r pre post store q) s = .next t ∧ Accepted t r 0x0400 (beBytes 1 n.val)
      ∧ (t.dpt.holds.get n).ringDone = true ∧ t.holdState n = (if store.toNat = 0 then 2 else 1)
      ∧ t.get (Reg.dptHoldRingBlocks n) = BitVec.ofNat 32 held.length
      ∧ (∀ b ∈ held, (s.mapEnt b).owner = 1 ∧ (t.mapEnt b).owner = 4 ∧ (t.mapEnt b).slot = BitVec.ofNat 2 n.val)
      ∧ (∀ b, (s.mapEnt b).owner ≠ 1 → (s.mapEnt b).owner ≠ 3 → t.mapEnt b = s.mapEnt b)
      ∧ (∀ m : Fin 4, m ≠ n → t.dpt.holds.get m = s.dpt.holds.get m ∧ t.holdState m = s.holdState m) := by
  obtain ⟨t, o, u, next, accepted, entered, shown⟩ := hold_accepted h room span parts free lowest (q := q) (pre := pre)
  obtain ⟨v, w, lines, noted, eq⟩ := u.holdStart_noted n pre post (store = 1) q o
  rw [eq, if_pos (by rw [entered.modes]; exact inside)] at shown
  obtain ⟨held, frozen⟩ := State.freezeRing_freezes noted.pending
  have entries : w.mapEnt = s.mapEnt := noted.only.mapEnt.trans (lines.entries.trans entered.mapEnt)
  have alone : (w.dpt.holds.get n).storeDone = true ∨ w.bit (Reg.dptHoldStat n) 4 = false ↔ store.toNat = 0 := by
    rw [noted.hold, noted.store_bit, ← byteFlag parts]
    simp [State.acceptedHold, Hold.reset]
  refine ⟨t, held, next, accepted, ?_, ?_, ?_, ?_, ?_, fun m hm => ⟨?_, ?_⟩⟩
  · rw [shown.dpt, frozen.done]
  · rw [shown.holdState, frozen.state]
    simp only [alone]
  · rw [shown.get, frozen.count]
  · rw [shown.mapEnt, ← entries]
    exact frozen.mine
  · rw [shown.mapEnt, ← entries]
    exact frozen.apart
  · rw [shown.dpt, (frozen.others m hm).1, noted.only.others m hm, lines.holds, entered.dpt]
  · rw [shown.holdState, (frozen.others m hm).2, noted.only.holdState hm, lines.holdState, entered.holdState]

theorem hold_outOfRange {s : State} {r : Req} {x : Session} {pre post : Word} {store : Byte} {q : BitVec 64}
    (h : Served s holdForm r x) (wrong : 1000000 < post.toNat ∨ 1 < store.toNat) :
    ∃ t, exec (.hold r pre post store q) s = .next t ∧ Replied t r 0x0400 St.badValue [] ∧ t.dpt = s.dpt := by
  refine run_unchanged (body := fun x s => s.hold pre post store q x) (wireLen r) (.hold r pre post store q) h rfl
    (if_pos ?_)
  rwa [Bool.or_eq_true, decide_eq_true_eq, decide_eq_true_eq]

theorem hold_noSlot {s : State} {r : Req} {x : Session} {pre post : Word} {store : Byte} {q : BitVec 64}
    (h : Served s holdForm r x) (span : post.toNat ≤ 1000000) (parts : store.toNat ≤ 1)
    (taken : ∀ m : Fin 4, s.holdState m ≠ 0) :
    ∃ t, exec (.hold r pre post store q) s = .next t ∧ Replied t r 0x0400 St.noSlot [] ∧ t.dpt = s.dpt := by
  refine run_unchanged (body := fun x s => s.hold pre post store q x) (wireLen r) (.hold r pre post store q) h rfl ?_
  have none_ : ([0, 1, 2, 3] : List (Fin 4)).find? (fun n => (s.arrived r).holdState n == 0) = none := by
    rw [List.find?_eq_none]
    intro m _
    simp [(s.arrived_entered r).holdState m, taken m]
  unfold State.hold
  rw [hold_inRange span parts, none_]
  rfl

/-! ### DRAIN (R198) -/

abbrev drainForm : Form := ⟨0x0401, 9, true, false, false, State.inDepot⟩

/-- What a DRAIN asks for, in the slot's record. -/
def Hold.asked (o : OpRef) (mask : BitVec 64) (store auto : Bool) (h : Hold) : Hold :=
  { h with drainOp := some o, mask := mask, drainStore := store, autoRelease := auto }

/-- The slot of an accepted drain, at the end of the drain order. -/
def State.queueDrain (n : Fin 4) (o : OpRef) (mask : BitVec 64) (store auto : Bool) (s : State) : State :=
  ((s.updHold n (Hold.asked o mask store auto)).setHoldState n 3).withDpt fun d => { d with drainQ := d.drainQ ++ [n.val] }

section
variable {s : State} {n : Fin 4} {mask : BitVec 64} {store auto : Bool} {slot : BitVec 16}

theorem slot_named (named : slot.toNat = n.val) : ¬ 3 < slot.toNat ∧ Fin.ofNat 4 slot.toNat = n := by
  have lt := n.isLt
  exact ⟨by omega, Fin.ext (by simp only [Fin.ofNat]; omega)⟩

theorem State.drain_eq (x : Session) (named : slot.toNat = n.val) : s.drain slot mask store auto x =
    if s.holdState n != 2 && s.holdState n != 5 then s.refuse St.busyRunning
    else if !s.hasBinding then s.refuse St.noDataSession
    else s.long x.id 0x0401 [0, 0, 0] [] fun o s => (s.queueDrain n o mask store auto).nextDrain := by
  obtain ⟨small, rfl⟩ := slot_named named
  exact if_neg small

theorem State.drain_busy (x : Session) (named : slot.toNat = n.val) (notHeld : s.holdState n ≠ 2)
    (notDrained : s.holdState n ≠ 5) : s.drain slot mask store auto x = s.refuse St.busyRunning := by
  rw [State.drain_eq x named, if_pos (by simp [notHeld, notDrained])]

/-- A slot that can be drained is refused for a missing session alone. -/
theorem State.drain_ready (x : Session) (named : slot.toNat = n.val) (ready : s.holdState n = 2 ∨ s.holdState n = 5) :
    s.drain slot mask store auto x = if !s.hasBinding then s.refuse St.noDataSession
      else s.long x.id 0x0401 [0, 0, 0] [] fun o s => (s.queueDrain n o mask store auto).nextDrain := by
  rw [State.drain_eq x named, if_neg]
  rcases ready with held | drained
  · simp [held]
  · simp [drained]

end

theorem State.queueDrain_begins (n : Fin 4) (o : OpRef) (mask : BitVec 64) (store auto : Bool) (u : State) :
    Begins u (u.queueDrain n o mask store auto) := (((SlotOnly.refl n u).updHold _).setHoldState 3).begins.withDpt _

theorem State.holdState_queueDrain (n : Fin 4) (o : OpRef) (mask : BitVec 64) (store auto : Bool) (u : State) :
    (u.queueDrain n o mask store auto).holdState n = 3
      ∧ ∀ m, m ≠ n → (u.queueDrain n o mask store auto).holdState m = u.holdState m :=
  ⟨State.holdState_setHoldState _ n 3, fun _ other => State.holdState_setHoldState_ne _ other 3⟩

section
variable {s : State} {r : Req} {x : Session} {n : Fin 4} {mask : BitVec 64} {store auto : Bool}

theorem drain_busy (h : Served s drainForm r x) (named : r.target.toNat = n.val) (notHeld : s.holdState n ≠ 2)
    (notDrained : s.holdState n ≠ 5) :
    ∃ t, exec (.drain r mask store auto) s = .next t ∧ Replied t r 0x0401 St.busyRunning [] ∧ t.dpt = s.dpt := by
  have entered := s.arrived_entered r
  exact run_unchanged (body := fun x s => s.drain r.target mask store auto x) (wireLen r) (.drain r mask store auto) h rfl
    (State.drain_busy _ named (by rwa [entered.holdState]) (by rwa [entered.holdState]))

theorem drain_noSession (h : Served s drainForm r x) (named : r.target.toNat = n.val)
    (ready : s.holdState n = 2 ∨ s.holdState n = 5) (unbound : s.hasBinding = false) :
    ∃ t, exec (.drain r mask store auto) s = .next t ∧ Replied t r 0x0401 St.noDataSession [] ∧ t.dpt = s.dpt := by
  have entered := s.arrived_entered r
  refine run_unchanged (body := fun x s => s.drain r.target mask store auto x) (wireLen r) (.drain r mask store auto) h rfl
    ((State.drain_ready _ named (by rwa [entered.holdState])).trans (if_pos ?_))
  rw [s.arrived_hasBinding, unbound]
  rfl

/-- A drain starts at once, or is QUEUED behind another. -/
theorem drain_begins (h : Served s drainForm r x) (room : x.HasRoom) (named : r.target.toNat = n.val)
    (ready : s.holdState n = 2 ∨ s.holdState n = 5) (bound : s.hasBinding = true) :
    ∃ t o, exec (.drain r mask store auto) s = .next t ∧ Accepted t r 0x0401 []
      ∧ t.dpt.holds.get n = { s.dpt.holds.get n with drainOp := some o, mask := mask, drainStore := store, autoRelease := auto }
      ∧ (s.dpt.mapErrs = [] → t.dpt.map = s.dpt.map ∧ t.dpt.units = s.dpt.units ∧ t.dpt.recs = s.dpt.recs)
      ∧ ((∃ m, s.holdState m = 4) →
          t.holdState n = 3 ∧ t.dpt.drainQ = s.dpt.drainQ ++ [n.val] ∧ t.lnk.streams = s.lnk.streams)
      ∧ ((∀ m, s.holdState m ≠ 4) → s.dpt.drainQ = [] → t.holdState n = 4 ∧ t.dpt.drainQ = []
          ∧ t.get (Reg.dptHoldDrainedMib n) = 0
          ∧ ∃ y, t.stream (drainStream n) = some y ∧ y.items = t.drainItems n ∧ y.op = some o ∧ y.next = 0
            ∧ y.ended = false) := by
  have entered := s.arrived_entered r
  obtain ⟨t, o, u, next, accepted, began, shown⟩ := run_longs
    (body := fun x s => s.drain r.target mask store auto x) (wireLen r) (.drain r mask store auto) h rfl room
    ((State.drain_ready _ named (by rwa [entered.holdState])).trans (if_neg (by rw [s.arrived_hasBinding, bound]; decide)))
    fun o u _ => (u.queueDrain_begins n o mask store auto).trans (State.nextDrain_next _).begins
  have moved := (u.queueDrain n o mask store auto).nextDrain_next
  have record : (u.queueDrain n o mask store auto).dpt.holds.get n = (s.dpt.holds.get n).asked o mask store auto :=
    (State.holds_updHold u n (Hold.asked o mask store auto)).trans (by rw [began.dpt])
  obtain ⟨queued, others⟩ := State.holdState_queueDrain n o mask store auto u
  have order : (u.queueDrain n o mask store auto).dpt.drainQ = s.dpt.drainQ ++ [n.val] := by
    rw [← began.dpt]
    rfl
  refine ⟨t, o, next, accepted, ?_, fun clean => ?_, fun ⟨m, busy⟩ => ?_, fun idle empty => ?_⟩
  · rw [shown.dpt, moved.holds, record]
    rfl
  · have errs : (u.queueDrain n o mask store auto).dpt.mapErrs = [] := (congrArg Depot.mapErrs began.dpt).trans clean
    rw [shown.dpt]
    obtain ⟨map, units, recs⟩ := moved.intact errs
    exact ⟨map.trans (congrArg Depot.map began.dpt :), units.trans (congrArg Depot.units began.dpt :),
      recs.trans (congrArg Depot.recs began.dpt :)⟩
  · have other : m ≠ n := by
      rintro rfl
      omega
    rw [State.nextDrain_busy ((others m other).trans ((began.holdState m).trans busy))] at shown
    exact ⟨(shown.holdState n).trans queued, by rw [shown.dpt, order],
      by rw [shown.streams]; exact congrArg Lnk.streams began.lnk⟩
  · have alone (m : Fin 4) : (u.queueDrain n o mask store auto).holdState m ≠ 4 := by
      by_cases own : m = n
      · rw [own, queued]
        decide
      · rw [others m own, began.holdState]
        exact idle m
    rw [empty] at order
    have first := State.nextDrain_first alone order
    rw [show Fin.ofNat 4 n.val = n from Fin.ext (Nat.mod_eq_of_lt n.isLt)] at first
    rw [first] at shown
    have started := State.startDrain_started n ((u.queueDrain n o mask store auto).withDpt fun d => { d with drainQ := [] })
    obtain ⟨y, known, items, op, start, going⟩ := started.stream
    refine ⟨(shown.holdState n).trans started.state, ?_, (shown.get _).trans started.mib, y, (shown.stream _).trans known,
      ?_, op.trans ?_, start, going⟩
    · rw [shown.dpt, started.dpt, (State.decodeBlocks_slotsKept ..).drainQ]
      rfl
    · rw [items, shown.drainItems]
    · exact congrArg Hold.drainOp record

end

/-! ### RELEASE (R199) -/

abbrev releaseForm : Form := ⟨0x0402, 0, true, false, false, State.inDepot⟩

/-- A QUEUED slot leaves the drain order, its drain `d` ends, and its release `o` begins. -/
def State.releaseQueued (n : Fin 4) (d : Option OpRef) (o : OpRef) (s : State) : State :=
  let s := s.withDpt fun x => { x with drainQ := x.drainQ.filter fun m => m != n.val }
  ((s.optDone d St.ok (s.opCounts d)).updHold n fun h => { h with drainOp := none }).beginRelease n [o]

/-- A drain's stream with nothing to send but the rest of its item in progress. -/
def Stream.curtailed (y : Stream) : Stream :=
  { y with items := [], loaded := (y.loaded.take 1).filter fun (l : Loaded) => decide (0 < l.start) }

/-- A DRAINING slot's drain ends with the item in progress, and its release follows. -/
def State.releaseDraining (n : Fin 4) (o : OpRef) (s : State) : State :=
  let s := s.updHold n fun h => { h with autoRelease := true, releaseOps := h.releaseOps ++ [o] }
  match s.stream (drainStream n) with
  | some y => s.putStream y.curtailed
  | none => s

section
variable {s : State} {n : Fin 4} {slot : BitVec 16} (x : Session) (named : slot.toNat = n.val)
include named

theorem State.release_free (state : s.holdState n = 0) : s.release slot x = s.refuse St.badValue := by
  obtain ⟨small, rfl⟩ := slot_named named
  unfold State.release
  simp only [small, if_false, state]

theorem State.release_pending (state : s.holdState n = 1) :
    s.release slot x = (St.ok, [], (s.freeHold n).optDone (s.dpt.holds.get n).op St.ok (beBytes 1 0)) := by
  obtain ⟨small, rfl⟩ := slot_named named
  unfold State.release
  simp only [small, if_false, state]

theorem State.release_releasing (state : s.holdState n = 6) : s.release slot x = (St.ok, [], s) := by
  obtain ⟨small, rfl⟩ := slot_named named
  unfold State.release
  simp only [small, if_false, state]

theorem State.release_held (state : s.holdState n = 2 ∨ s.holdState n = 5) :
    s.release slot x = s.long x.id 0x0402 [] [] fun o s => s.beginRelease n [o] := by
  obtain ⟨small, rfl⟩ := slot_named named
  unfold State.release
  rcases state with state | state <;> (simp only [small, if_false, state]; rfl)

theorem State.release_queued (state : s.holdState n = 3) :
    s.release slot x = s.long x.id 0x0402 [] [] fun o u => u.releaseQueued n (s.dpt.holds.get n).drainOp o := by
  obtain ⟨small, rfl⟩ := slot_named named
  unfold State.release
  simp only [small, if_false, state]
  rfl

theorem State.release_draining (state : s.holdState n = 4) :
    s.release slot x = s.long x.id 0x0402 [] [] fun o s => s.releaseDraining n o := by
  obtain ⟨small, rfl⟩ := slot_named named
  unfold State.release
  simp only [small, if_false, state]
  rfl

end

theorem State.releaseQueued_begins (n : Fin 4) (d : Option OpRef) (o : OpRef) (u : State) :
    Begins u (u.releaseQueued n d o) :=
  (((Begins.refl u).withDpt _).trans (((SlotOnly.refl n _).optDone d _ _).updHold _).begins).trans
    (State.beginRelease_only ..).begins

theorem State.holds_releaseQueued (n : Fin 4) (d : Option OpRef) (o : OpRef) (u : State) :
    (u.releaseQueued n d o).dpt.holds.get n = { u.dpt.holds.get n with releaseOps := [o], drainOp := none } := by
  rw [State.releaseQueued, State.beginRelease, State.holds_updHold, State.setHoldState_dpt, State.holds_updHold,
    State.optDone_dpt]
  rfl

theorem State.releaseQueued_ends (n : Fin 4) (d o : OpRef) (u : State) :
    OpEnds u (u.releaseQueued n (some d) o) d St.ok (u.opCounts (some d)) :=
  (State.opDone_ends (u.withDpt _) d St.ok (u.opCounts (some d))).congr (fun _ known => known) rfl

theorem State.putStream_begins (y : Stream) (u : State) : Begins u (u.putStream y) :=
  ⟨fun _ => ⟨rfl, rfl, rfl⟩, fun _ _ _ held => held⟩

theorem State.releaseDraining_begins (n : Fin 4) (o : OpRef) (u : State) : Begins u (u.releaseDraining n o) := by
  have noted := ((SlotOnly.refl n u).updHold fun h => { h with autoRelease := true, releaseOps := h.releaseOps ++ [o] }).begins
  unfold State.releaseDraining
  dsimp only
  split
  · exact noted.trans (State.putStream_begins ..)
  · exact noted

section
variable {s : State} {r : Req} {x : Session} {n : Fin 4}

theorem release_pending (h : Served s releaseForm r x) (named : r.target.toNat = n.val) (state : s.holdState n = 1) :
    ∃ t, exec (.release r) s = .next t ∧ Replied t r 0x0402 St.ok [] ∧ t.get (Reg.dptHoldStat n) = 0
      ∧ t.dpt.holds.get n = Hold.reset
      ∧ (∀ b ∈ s.slotBlocks n, ((t.mapEnt b).owner = 1 ∨ (t.mapEnt b).owner = 2) ∧ (t.mapEnt b).slot = 0)
      ∧ (∀ b, b ∉ s.slotBlocks n → t.mapEnt b = s.mapEnt b)
      ∧ (∀ q, (s.dpt.holds.get n).op = some q → OpEnds s t q St.ok [0]) := by
  have entered := s.arrived_entered r
  have answer := State.release_pending (s := s.arrived r) (x.hear s.tim.now r) named ((entered.holdState n).trans state)
  have freed := (State.freeHold_freed n (s.arrived r)).optDone (s.dpt.holds.get n).op St.ok (beBytes 1 0)
  have begins := (State.changeEnts_mapKept MapEnt.returned ((s.arrived r).slotBlocks n) (s.arrived r)).begins.trans
    freed.changed.begins
  obtain ⟨t, next, shown⟩ := run_stateShown (body := fun x s => s.release r.target x) (wireLen r) (.release r) h rfl answer
    (begins.port r.port) (by
      rw [← State.findSession_isSome, State.optDone_isSome, State.findSession_isSome, State.opsOf_freeHold,
        ← State.findSession_isSome, h.found_isSome])
  refine ⟨t, next, shown.replied, (shown.get _).trans freed.stat, by rw [shown.dpt]; exact freed.hold, ?_, ?_,
    fun q op => ?_⟩
  · rw [shown.mapEnt]
    exact freed.blocks
  · rw [shown.mapEnt, ← entered.mapEnt]
    exact freed.others
  · have ends := ((s.arrived r).freeHold n).opDone_ends q St.ok (beBytes 1 0)
    refine ends.congr (fun p known => ?_) ?_
    · rw [State.findOp_congr (State.opsOf_freeHold n _), entered.known q p known]
    · rw [shown.findOp, s.arrived_dpt, op]
      rfl

theorem release_held (h : Served s releaseForm r x) (room : x.HasRoom) (named : r.target.toNat = n.val)
    (state : s.holdState n = 2 ∨ s.holdState n = 5) :
    ∃ t q, exec (.release r) s = .next t ∧ Accepted t r 0x0402 [] ∧ t.holdState n = 6 ∧ t.dpt.map = s.dpt.map
      ∧ t.dpt.holds.get n = { s.dpt.holds.get n with releaseOps := [q] } := by
  have entered := s.arrived_entered r
  obtain ⟨t, o, u, next, accepted, began, shown⟩ := run_longs (body := fun x s => s.release r.target x) (wireLen r)
    (.release r) h rfl room (State.release_held _ named (by rwa [entered.holdState]))
    fun o u _ => (u.beginRelease_only n [o]).begins
  have only := u.beginRelease_only n [o]
  refine ⟨t, o, next, accepted, (shown.holdState n).trans (State.holdState_beginRelease ..), ?_, ?_⟩
  · rw [shown.dpt, only.map, began.dpt]
  · rw [shown.dpt, State.beginRelease, State.holds_updHold, State.setHoldState_dpt, began.dpt]

theorem release_queued (h : Served s releaseForm r x) (room : x.HasRoom) (named : r.target.toNat = n.val)
    (state : s.holdState n = 3) :
    ∃ t q, exec (.release r) s = .next t ∧ Accepted t r 0x0402 [] ∧ t.holdState n = 6 ∧ t.dpt.map = s.dpt.map
      ∧ t.dpt.drainQ = s.dpt.drainQ.filter (fun m => m != n.val)
      ∧ t.dpt.holds.get n = { s.dpt.holds.get n with releaseOps := [q], drainOp := none }
      ∧ (∀ d, (s.dpt.holds.get n).drainOp = some d → OpEnds s t d St.ok (s.opCounts (some d))) := by
  have entered := s.arrived_entered r
  obtain ⟨t, o, u, next, accepted, began, shown⟩ := run_longs (body := fun x s => s.release r.target x) (wireLen r)
    (.release r) h rfl room (State.release_queued _ named ((entered.holdState n).trans state))
    fun o u _ => u.releaseQueued_begins n _ o
  have only : SlotOnly n (u.withDpt fun x => { x with drainQ := x.drainQ.filter fun m => m != n.val })
      (u.releaseQueued n (s.dpt.holds.get n).drainOp o) :=
    (((SlotOnly.refl n _).optDone _ _ _).updHold _).trans (State.beginRelease_only ..)
  refine ⟨t, o, next, accepted, (shown.holdState n).trans (State.holdState_beginRelease ..), ?_, ?_, ?_,
    fun d op p known => ?_⟩
  · rw [shown.dpt]
    exact only.map.trans (congrArg Depot.map began.dpt :)
  · rw [shown.dpt, ← began.dpt]
    exact only.drainQ
  · rw [shown.dpt, State.holds_releaseQueued, began.dpt]
  · rw [s.arrived_dpt, op] at shown
    rw [← began.opCounts known]
    exact ((u.releaseQueued_ends n d o).congr (began.known d) (congrFun shown.findOp d)) p known

theorem release_draining {y : Stream} (h : Served s releaseForm r x) (room : x.HasRoom) (named : r.target.toNat = n.val)
    (state : s.holdState n = 4) (sending : s.stream (drainStream n) = some y) :
    ∃ t q z, exec (.release r) s = .next t ∧ Accepted t r 0x0402 [] ∧ t.holdState n = 4 ∧ t.dpt.map = s.dpt.map
      ∧ t.dpt.holds.get n = { s.dpt.holds.get n with
          autoRelease := true, releaseOps := (s.dpt.holds.get n).releaseOps ++ [q] }
      ∧ t.stream (drainStream n) = some z ∧ z.items = [] ∧ (∀ l ∈ z.loaded, y.loaded.head? = some l ∧ 0 < l.start)
      ∧ z.segs = y.segs := by
  have entered := s.arrived_entered r
  obtain ⟨t, o, u, next, accepted, began, shown⟩ := run_longs (body := fun x s => s.release r.target x) (wireLen r)
    (.release r) h rfl room (State.release_draining _ named ((entered.holdState n).trans state))
    fun o u _ => u.releaseDraining_begins n o
  have known : u.stream (drainStream n) = some y := by
    rw [State.stream, began.lnk]
    exact sending
  have eq : u.releaseDraining n o
      = (u.updHold n fun h => { h with autoRelease := true, releaseOps := h.releaseOps ++ [o] }).putStream y.curtailed := by
    unfold State.releaseDraining
    dsimp only
    rw [show State.stream (u.updHold n _) (drainStream n) = some y from known]
  rw [eq] at shown
  have own : y.curtailed.id = drainStream n := (State.stream_id known :)
  refine ⟨t, o, y.curtailed, next, accepted, ?_, ?_, ?_, ?_, rfl, fun l hl => ?_, rfl⟩
  · exact (shown.holdState n).trans ((began.holdState n).trans state)
  · exact (congrArg Depot.map shown.dpt).trans (congrArg Depot.map began.dpt :)
  · rw [shown.dpt, ← began.dpt]
    exact State.holds_updHold ..
  · rw [shown.stream, ← own, State.stream_putStream]
  · obtain ⟨first, started⟩ := List.mem_filter.mp hl
    cases held : y.loaded with
    | nil => simp [held] at first
    | cons a l' =>
      obtain rfl : l = a := by simpa [held] using first
      exact ⟨rfl, by simpa using started⟩

/-- A release of a slot that is RELEASING already changes nothing. -/
theorem release_again (h : Served s releaseForm r x) (named : r.target.toNat = n.val) (state : s.holdState n = 6) :
    ∃ t, exec (.release r) s = .next t ∧ Replied t r 0x0402 St.ok [] ∧ t.dpt = s.dpt :=
  run_unchanged (body := fun x s => s.release r.target x) (wireLen r) (.release r) h rfl
    (State.release_releasing _ named (((s.arrived_entered r).holdState n).trans state))

theorem release_refused (h : Served s releaseForm r x)
    (wrong : 3 < r.target.toNat ∨ ∃ n : Fin 4, r.target.toNat = n.val ∧ s.holdState n = 0) :
    ∃ t, exec (.release r) s = .next t ∧ Replied t r 0x0402 St.badValue [] ∧ t.dpt = s.dpt := by
  refine run_unchanged (body := fun x s => s.release r.target x) (wireLen r) (.release r) h rfl ?_
  rcases wrong with beyond | ⟨n, named, free⟩
  · exact if_pos beyond
  · exact State.release_free _ named (((s.arrived_entered r).holdState n).trans free)

end

/-- Settles O41: each command passes or fails the checks of R193, R198 and R199 by the states of the slots, and what it begins
is what the answer shows. -/
theorem holdCommandsComplete : Obligations.HoldCommandsComplete := by
  unfold Obligations.HoldCommandsComplete
  exact ⟨fun _ _ _ _ _ _ _ _ => hold_begins, fun _ _ _ _ _ _ _ _ => hold_freezes, fun _ _ _ _ _ _ _ => hold_outOfRange,
    fun _ _ _ _ _ _ _ => hold_noSlot, fun _ _ _ _ _ _ _ => drain_begins, fun _ _ _ _ _ _ _ => drain_busy,
    fun _ _ _ _ _ _ _ => drain_noSession, fun _ _ _ _ => release_pending, fun _ _ _ _ => release_held,
    fun _ _ _ _ => release_queued, fun _ _ _ _ _ => release_draining, fun _ _ _ _ => release_again,
    fun _ _ _ => release_refused⟩

end Sys2Proof.Machine
end

