-- ==== Sys2Proof/Proofs/RequestStreams.lean ====
section
/-! Request streams (R188, R289, R341): what reading for a stream makes of the items that it is to send, and how a stream
starts and is ended. -/

namespace Sys2Proof.Machine

/-! ### The items of a stream, read and still to be read -/

/-- Items in the read queue. -/
def Stream.readItems (x : Stream) : List Item := x.loaded.map fun l => l.item

/-- One read for a stream: its last item has got more bytes, the next one is begun, or one no longer held is passed over. -/
inductive Stream.Reads (s : State) (x y : Stream) : Prop where
  | grown (items : y.items = x.items) (read : y.readItems = x.readItems)
  | opened (i : Item) (rest : List Item) (next : x.items = i :: rest) (items : y.items = rest)
      (read : y.readItems = x.readItems ++ [i])
  | passed (i : Item) (rest : List Item) (next : x.items = i :: rest) (gone : s.itemLength i = none) (items : y.items = rest)
      (read : y.readItems = x.readItems)

theorem Stream.readItems_growLast {x : Stream} {l m : Loaded} (last : x.loaded.getLast? = some l) (grows : l.Grows m) :
    Stream.readItems { x with loaded := x.loaded.dropLast ++ [m] } = x.readItems := by
  have whole : x.loaded.dropLast ++ [l] = x.loaded := List.dropLast_append_getLast? l last
  unfold Stream.readItems
  dsimp only
  conv_rhs => rw [← whole]
  rw [List.map_append, List.map_append, List.map_singleton, List.map_singleton, grows.item]

section
variable {s : State} {id : BitVec 16}

theorem State.stream_itemGone (x : Stream) (i : Item) (s : State) (id : BitVec 16) :
    (s.itemGone x i).stream id = s.stream id := by
  have lnk : (s.itemGone x i).lnk = s.lnk := by
    unfold State.itemGone State.opCount
    split <;> split <;> rfl
  rw [State.stream, lnk, State.stream]

theorem State.HasOp.itemGone {session : Word} {h : Nat} {op : BitVec 16} (held : s.HasOp session h op) (x : Stream) (i : Item) :
    (s.itemGone x i).HasOp session h op := by
  unfold State.itemGone
  split
  · exact held.opCount ..
  · exact State.HasOp.opCount (held.congr (State.opsOf_set ..)) ..

/-- What one read makes of a stream, and that operations are known on. -/
structure ReadOnce (id : BitVec 16) (s t : State) (x : Stream) : Prop where
  stream : ∃ y, t.stream id = some y ∧ x.Reads s y ∧ y.ring = x.ring
  hasOp : ∀ session h op, s.HasOp session h op → t.HasOp session h op

theorem State.stream_put {x y : Stream} (known : s.stream id = some x) (fed : x.Fed y) : (s.putStream y).stream id = some y := by
  have named : y.id = id := fed.id.trans (State.stream_id known)
  exact named ▸ s.stream_putStream y

theorem State.loadRest_reads {x y : Stream} {l : Loaded} (map : s.dpt.mapErrs = []) (lines : s.dpt.errs = [])
    (known : s.stream id = some x) (fed : x.Fed y) (last : y.loaded.getLast? = some l) (src : LogSource) (n : Nat) :
    ReadOnce id s (s.loadRest y l src n) y := by
  have put (u : State) (same : u.stream id = s.stream id) (ops : u.opsOf = s.opsOf) (cells : List Cell) (bad : List Nat) :
      ReadOnce id s (u.putStream { y with loaded := y.loaded.dropLast ++
        [{ l with cells := l.cells ++ cells, bad := bad }] }) y :=
    ⟨⟨_, State.stream_put (same.trans known) (fed.trans (.growLast last (.cells ..))),
      .grown rfl (Stream.readItems_growLast last (.cells ..)), rfl⟩, fun _ _ _ held => held.congr ops⟩
  unfold State.loadRest
  dsimp only
  rw [State.readPart_intact map lines]
  split
  · exact put s rfl rfl _ _
  · exact put s.takeFree.2 rfl rfl _ _

theorem State.loadMore_reads {t : State} {x0 : Stream} (map : s.dpt.mapErrs = []) (lines : s.dpt.errs = [])
    (known : s.stream id = some x0) (more : s.loadMore id = some t) : ReadOnce id s t (s.refill x0) := by
  unfold State.loadMore at more
  simp -zeta only [known] at more
  extract_lets x room src fresh at more
  have fed : x0.Fed x := .refill s x0
  have passed (i : Item) (rest : List Item) (next : x.items = i :: rest) (gone : s.itemLength i = none) :
      ReadOnce id s ((s.putStream { x with items := rest }).itemGone { x with items := rest } i) x := by
    refine ⟨⟨{ x with items := rest }, ?_, .passed i rest next gone rfl rfl, rfl⟩, fun session h op held => ?_⟩
    · exact (State.stream_itemGone ..).trans (State.stream_put known (fed.trans (.items x rest)))
    · exact State.HasOp.itemGone (s := s.putStream _) held _ i
  have read {u : State} (same : u = s) (from_ : LogSource) (i : Item) (n : Nat) (rest : List Item) (next : x.items = i :: rest)
      (l : Loaded) (item : l.item = i) :
      ReadOnce id s ((u.readPart from_ i 0 n).2.putStream { x with items := rest, loaded := x.loaded ++ [l] }) x := by
    rw [same, State.readPart_intact map lines]
    refine ⟨⟨_, State.stream_put known (fed.trans ((Stream.Fed.items x rest).trans (.append _ [l]))),
      .opened i rest next rfl ?_, rfl⟩, fun _ _ _ held => held⟩
    simp [Stream.readItems, item]
  have opened : fresh = some t → ReadOnce id s t x := by
    intro more
    simp only [fresh, State.itemMap_intact map, State.probeRec_intact map lines] at more
    split at more
    · cases more
    next i rest next =>
      split at more
      next q gone =>
        split at more
        · cases more
        · cases more
          exact passed _ _ next gone
      next gone =>
        cases more
        exact passed _ _ next gone
      · obtain ⟨-, rfl⟩ := by simpa only [Option.ite_none_left_eq_some, Option.some.injEq] using more
        exact read (by split <;> rfl) _ _ _ _ next _ rfl
  clear_value fresh
  split at more
  · cases more
  · split at more
    next l last =>
      dsimp only at more
      split at more
      · exact opened more
      · split at more
        · cases more
        · cases more
          exact State.loadRest_reads map lines known fed last ..
    · exact opened more

/-! ### Reading as far as it goes -/

theorem State.Feeds.itemLength {t : State} (h : State.Feeds id s t) : t.itemLength = s.itemLength := by
  have entries := State.mapEnt_congr h.dpt (h.get _ (by decide)) h.variant
  funext i
  cases i with
  | record q => rw [State.itemLength, State.itemLength, State.findRec_congr h.dpt entries]
  | unit q => rw [State.itemLength, State.itemLength, State.findUnit_congr h.dpt entries]
  | prbs => rfl

/-- What every read for a stream keeps of it is kept as the read queue is filled for it. -/
theorem State.loadAll_keeps {P : Stream → Prop} (map : s.dpt.mapErrs = []) (lines : s.dpt.errs = [])
    (step : ∀ (u : State) (x y : Stream), State.Feeds id s u → P x → (u.refill x).Reads u y →
      y.ring = (u.refill x).ring → P y) (n : Nat) :
    ∀ u x, State.Feeds id s u → u.stream id = some x → P x → (∃ y, (u.loadAll id n).stream id = some y ∧ P y)
      ∧ ∀ session h op, u.HasOp session h op → (u.loadAll id n).HasOp session h op := by
  induction n with
  | zero => exact fun u x _ known holds => ⟨⟨x, known, holds⟩, fun _ _ _ held => held⟩
  | succ n ih =>
    intro u x fed known holds
    rw [State.loadAll]
    split
    next t more =>
      have errs : u.dpt.mapErrs = [] ∧ u.dpt.errs = [] := fed.dpt ▸ ⟨map, lines⟩
      obtain ⟨⟨y, known', reads, ring⟩, hasOp⟩ := State.loadMore_reads errs.1 errs.2 known more
      obtain ⟨kept, later⟩ := ih t y (fed.trans (State.loadMore_feeds errs.1 errs.2 more)) known'
        (step u x y fed holds reads ring)
      exact ⟨kept, fun session h op held => later session h op (hasOp session h op held)⟩
    · exact ⟨⟨x, known, holds⟩, fun _ _ _ held => held⟩

/-- A request stream starts with nothing sent, and as far into its items as the read queue takes. -/
theorem State.startRequest_starts {P : Stream → Prop} (map : s.dpt.mapErrs = []) (lines : s.dpt.errs = [])
    (items : List Item) (ring : Option RingReq) (o : OpRef)
    (step : ∀ (u : State) (x y : Stream), u.dpt = s.dpt → u.itemLength = s.itemLength → P x → (u.refill x).Reads u y →
      y.ring = (u.refill x).ring → P y)
    (first : P { Stream.fresh id with items := items, ring := ring, op := some o }) :
    Begins s (s.startRequest id items ring o) ∧ ∃ y, (s.startRequest id items ring o).stream id = some y ∧ P y
      ∧ y.next = 0 ∧ y.ended = false ∧ y.segs = [] := by
  unfold State.startRequest
  generalize hx : ({ Stream.fresh id with items := items, ring := ring, op := some o } : Stream) = x at first ⊢
  have known : (s.putStream x).stream id = some x := by
    have own : x.id = id := by rw [← hx]; rfl
    exact own ▸ s.stream_putStream x
  have feeds := State.loadStream_feeds (s := s.putStream x) (id := id) map lines
  obtain ⟨⟨y, shown, holds⟩, hasOp⟩ := State.loadAll_keeps (s := s.putStream x) (id := id) (P := P) map lines
    (fun u x y fed => step u x y fed.dpt (fed.itemLength.trans rfl)) _ (s.putStream x) x (.refl id _) known first
  refine ⟨⟨fun p => ⟨?_, ?_, ?_⟩, hasOp⟩, y, shown, holds, ?_⟩
  · exact (congrArg (fun u : State => u.lnk.heldTx) feeds.rest :)
  · exact (congrArg (fun u : State => u.lnk.heldRx) feeds.rest :)
  · exact feeds.get _ (by have := p.isLt; simp only [Reg.lnkProvCtrl, Reg.dptOverwritten]; omega)
  · obtain ⟨y', shown', fed⟩ := feeds.stream x known
    obtain rfl : y = y' := Option.some.inj (shown.symm.trans shown')
    rw [fed.rest, ← hx]
    exact ⟨rfl, rfl, rfl⟩

end

/-! ### The items that a request names -/

/-- What a stream has read and still reads are all its items, in order, and those still to be read are held. -/
structure Stream.Due (s : State) (all : List Item) (x : Stream) : Prop where
  order : x.readItems ++ x.items = all
  held : ∀ i ∈ x.items, s.itemLength i ≠ none

section
variable {s u : State} {all : List Item} {x y : Stream}

/-- Items that are held are read in their order, and none is passed over. -/
theorem Stream.Due.reads (due : x.Due s all) (same : u.itemLength = s.itemLength) (reads : x.Reads u y) : y.Due s all := by
  obtain ⟨order, held⟩ := due
  cases reads with
  | grown items read => exact ⟨by rw [items, read, order], items ▸ held⟩
  | opened i rest next items read =>
    rw [next] at order held
    exact ⟨by rw [items, read, List.append_assoc, List.singleton_append, order],
      fun j hj => held j (List.mem_cons_of_mem i (items ▸ hj))⟩
  | passed i rest next gone items read =>
    exact absurd (same ▸ gone) (held i (next ▸ List.mem_cons_self))

/-- What has been read stays ahead of what is read after it. -/
theorem Stream.Reads.ahead (reads : x.Reads u y) (read : all <+: x.readItems) : all <+: y.readItems := by
  cases reads with
  | grown _ same => exact same ▸ read
  | opened _ _ _ _ more => exact more ▸ read.trans (List.prefix_append _ _)
  | passed _ _ _ _ _ same => exact same ▸ read

theorem State.refill_readItems (s : State) (x : Stream) : (s.refill x).readItems = x.readItems := by
  rw [Stream.readItems, Stream.readItems, s.refill_loaded]

/-- A stream that looks for nothing later goes on with its items. -/
theorem State.refill_noRing (s : State) (none_ : x.ring = none) : s.refill x = x := by
  unfold State.refill
  split
  next q _ ring => exact absurd (none_.symm.trans ring) (by simp)
  · rfl

/-- A stream looks for later items only once it has read all that are due. -/
theorem Stream.Due.refill (due : x.Due s all) (u : State) : u.refill x = x ∨ all <+: x.readItems := by
  cases items : x.items with
  | nil =>
    refine .inr ?_
    rw [← due.order, items, List.append_nil]
  | cons i rest =>
    refine .inl ?_
    unfold State.refill
    rw [items]

theorem Stream.due_fresh (id : BitVec 16) (ring : Option RingReq) (o : OpRef) (held : ∀ i ∈ all, s.itemLength i ≠ none) :
    Stream.Due s all { Stream.fresh id with items := all, ring := ring, op := some o } := ⟨rfl, held⟩

end

/-! ### FETCH_RECORDS and FETCH_RING (R188, R341) -/

section
variable {s : State} {id : BitVec 16} (map : s.dpt.mapErrs = []) (lines : s.dpt.errs = []) {all : List Item} (o : OpRef)
  (held : ∀ i ∈ all, s.itemLength i ≠ none)
include map lines held

/-- A stream that only sends the items it names. -/
theorem State.startRequest_exact : Begins s (s.startRequest id all none o)
    ∧ ∃ y, (s.startRequest id all none o).stream id = some y ∧ (y.readItems ++ y.items = all)
      ∧ y.next = 0 ∧ y.ended = false ∧ y.segs = [] := by
  obtain ⟨begins, y, shown, ⟨-, due⟩, rest⟩ := State.startRequest_starts (id := id)
    (P := fun x => x.ring = none ∧ x.Due s all) map lines all none o
    (fun u x y _ same holds reads ring => by
      rw [u.refill_noRing holds.1] at reads ring
      exact ⟨ring.trans holds.1, holds.2.reads same reads⟩)
    ⟨rfl, Stream.due_fresh id none o held⟩
  exact ⟨begins, y, shown, due.order, rest⟩

/-- A stream that looks for units written later once its items have gone. -/
theorem State.startRequest_ring (q : RingReq) : Begins s (s.startRequest id all (some q) o)
    ∧ ∃ y later, (s.startRequest id all (some q) o).stream id = some y ∧ (y.readItems ++ y.items = all ++ later)
      ∧ y.next = 0 ∧ y.ended = false ∧ y.segs = [] := by
  obtain ⟨begins, y, shown, holds, rest⟩ := State.startRequest_starts (id := id)
    (P := fun x => x.Due s all ∨ all <+: x.readItems) map lines all (some q) o
    (fun u x y _ same holds reads _ => by
      have ahead (read : all <+: x.readItems) : all <+: y.readItems :=
        reads.ahead (by rwa [u.refill_readItems])
      rcases holds with due | read
      · rcases due.refill u with going | read
        · rw [going] at reads
          exact .inl (due.reads same reads)
        · exact .inr (ahead read)
      · exact .inr (ahead read))
    (.inl (Stream.due_fresh id (some q) o held))
  rcases holds with due | ⟨later, read⟩
  · exact ⟨begins, y, [], shown, by rw [due.order, List.append_nil], rest⟩
  · exact ⟨begins, y, later ++ y.items, shown, by rw [← read, List.append_assoc], rest⟩

end

section
variable {s : State} {id : BitVec 16}

theorem State.fetchRecords_starts {first : BitVec 64} {n : Word} (x : Session) (request : isRequest id = true) (some_ : n ≠ 0)
    (written : first.toNat + n.toNat ≤ s.seqNext) (free : s.streamRefused id = none) : s.fetchRecords id first n x
      = s.long x.id 0x0302 [0, 0, 0] [] fun o s =>
          s.startRequest id ((List.range n.toNat).map fun i => Item.record (first.toNat + i)) none o := by
  have pos : n.toNat ≠ 0 := fun zero => some_ (BitVec.eq_of_toNat_eq zero)
  unfold State.fetchRecords
  rw [if_neg, free]
  simp only [request, some_, Bool.not_true, decide_false, Bool.false_or, decide_eq_true_eq]
  omega

theorem State.fetchRing_starts {mask : BitVec 64} {a b : Wide} (x : Session) (request : isRequest id = true)
    (fromNs : a.ns.toNat < 1000000000) (toNs : b.ns.toNat < 1000000000) (free : s.streamRefused id = none) :
    s.fetchRing id mask a b x = s.long x.id 0x0403 [0, 0, 0, 0] [] fun o s =>
      s.startRequest id (s.ringItems ⟨mask, Wide.toU a, Wide.toU b, 0⟩)
        (some ⟨mask, Wide.toU a, Wide.toU b, s.unitSeq⟩) o := by
  unfold State.fetchRing
  rw [if_neg, free]
  simp [request, fromNs, toNs]

end

section
variable {s u : State} (entered : Entered s u)
include entered

theorem Entered.findRec : u.findRec = s.findRec := State.findRec_congr entered.dpt entered.mapEnt

theorem Entered.findUnit : u.findUnit = s.findUnit := State.findUnit_congr entered.dpt entered.mapEnt

theorem Entered.ringItems (q : RingReq) : u.ringItems q = s.ringItems q := by
  unfold State.ringItems State.get64
  rw [entered.dpt, entered.get _ (by decide), entered.get _ (by decide)]

end

theorem State.arrived_streamRefused (s : State) (r : Req) (id : BitVec 16) :
    (s.arrived r).streamRefused id = s.streamRefused id := by
  unfold State.streamRefused
  rw [s.arrived_hasBinding, s.arrived_lnk]

abbrev fetchRecordsForm : Form := ⟨0x0302, 12, true, false, false, State.inRun⟩
abbrev fetchRingForm : Form := ⟨0x0403, 38, true, false, false, State.inRun⟩

section
variable {s : State} {r : Req} {x : Session}

theorem fetchRecords_streams {first : BitVec 64} {n : Word} (h : Served s fetchRecordsForm r x) (room : x.HasRoom)
    (request : isRequest r.target = true) (some_ : n ≠ 0) (written : first.toNat + n.toNat ≤ s.seqNext)
    (free : s.streamRefused r.target = none) (lines : s.dpt.errs = []) (map : s.dpt.mapErrs = [])
    (held : ∀ i, i < n.toNat → (s.findRec (first.toNat + i)).isSome = true) :
    ∃ t y, exec (.fetchRecords r first n) s = .next t ∧ Accepted t r 0x0302 [] ∧ t.stream r.target = some y
      ∧ (y.loaded.map fun l => l.item) ++ y.items = (List.range n.toNat).map (fun i => Item.record (first.toNat + i))
      ∧ y.next = 0 ∧ y.ended = false ∧ y.segs = [] := by
  have streams (o : OpRef) (u : State) (entered : Entered s u) := State.startRequest_exact (s := u) (id := r.target)
    (all := (List.range n.toNat).map fun i => Item.record (first.toNat + i)) (entered.dpt ▸ map) (entered.dpt ▸ lines) o
    (by
      intro i hi
      obtain ⟨k, hk, rfl⟩ := List.mem_map.mp hi
      have known := held k (List.mem_range.mp hk)
      rw [State.itemLength, entered.findRec]
      intro none_
      rw [Option.map_eq_none_iff] at none_
      simp [none_] at known)
  obtain ⟨t, o, u, next, accepted, began, shown⟩ := run_longs (body := fun x s => s.fetchRecords r.target first n x)
    (wireLen r) (.fetchRecords r first n) h rfl room
    (State.fetchRecords_starts _ request some_ (by rwa [s.arrived_seqNext]) ((s.arrived_streamRefused r _).trans free))
    fun o u entered => (streams o u entered).1
  obtain ⟨y, known, rest⟩ := (streams o u began).2
  exact ⟨t, y, next, accepted, (shown.stream _).trans known, rest⟩

theorem fetchRing_streams {mask : BitVec 64} {a b : Wide} {items : List Item} (h : Served s fetchRingForm r x)
    (room : x.HasRoom) (request : isRequest r.target = true) (fromNs : a.ns.toNat < 1000000000)
    (toNs : b.ns.toNat < 1000000000) (free : s.streamRefused r.target = none) (lines : s.dpt.errs = [])
    (map : s.dpt.mapErrs = []) (named : items = s.ringItems ⟨mask, Wide.toU a, Wide.toU b, 0⟩)
    (held : ∀ q, Item.unit q ∈ items → (s.findUnit q).isSome = true) :
    ∃ t y later, exec (.fetchRing r mask a b) s = .next t ∧ Accepted t r 0x0403 [] ∧ t.stream r.target = some y
      ∧ (y.loaded.map fun l => l.item) ++ y.items = items ++ later ∧ y.next = 0 ∧ y.ended = false ∧ y.segs = [] := by
  have streams (o : OpRef) (u : State) (entered : Entered s u) := State.startRequest_ring (s := u) (id := r.target)
    (all := u.ringItems ⟨mask, Wide.toU a, Wide.toU b, 0⟩) (entered.dpt ▸ map) (entered.dpt ▸ lines) o
    (by
      rw [entered.ringItems, ← named]
      intro i hi
      obtain ⟨q, -, rfl⟩ := List.mem_map.mp (named ▸ hi)
      have known := held q hi
      rw [State.itemLength, entered.findUnit]
      intro none_
      rw [Option.map_eq_none_iff] at none_
      simp [none_] at known) ⟨mask, Wide.toU a, Wide.toU b, u.unitSeq⟩
  obtain ⟨t, o, u, next, accepted, began, shown⟩ := run_longs (body := fun x s => s.fetchRing r.target mask a b x)
    (wireLen r) (.fetchRing r mask a b) h rfl room
    (State.fetchRing_starts _ request fromNs toNs ((s.arrived_streamRefused r _).trans free))
    fun o u entered => (streams o u entered).1
  obtain ⟨y, later, known, order, rest⟩ := (streams o u began).2
  rw [began.ringItems, ← named] at order
  exact ⟨t, y, later, next, accepted, (shown.stream _).trans known, order, rest⟩

/-! ### STREAM_ABORT (R341) -/

abbrev streamAbortForm : Form := ⟨0x0303, 0, true, false, false, State.inRun⟩

/-- A stream that ends before its next segment. -/
def Stream.aborted (y : Stream) : Stream :=
  { y with ended := true, items := [], loaded := [], ring := none, final := St.aborted }

/-- What the end of a request's operation leaves of its stream. -/
theorem State.requestDone_stream {u : State} {id : BitVec 16} {y : Stream} (known : u.stream id = some y) :
    ∃ o, (u.requestDone id).stream id = some { y with op := o } := by
  rw [State.requestDone, known]
  dsimp only
  split
  · exact ⟨none, State.stream_id known ▸ State.stream_putStream _ { y with op := none }⟩
  · exact ⟨y.op, known⟩

theorem State.requestDone_begins (id : BitVec 16) (u : State) : Begins u (u.requestDone id) := by
  unfold State.requestDone
  split
  · exact .refl u
  next y known =>
    split
    · exact (SlotOnly.optDone (n := 0) (.refl 0 u) _ _ _).begins.trans (State.putStream_begins ..)
    · exact .refl u

theorem State.requestDone_isSome (id : BitVec 16) (u : State) (session : Word) :
    ((u.requestDone id).opsOf session).isSome = (u.opsOf session).isSome := by
  unfold State.requestDone
  split
  · rfl
  next y known =>
    split
    · rw [← u.findSession_isSome, ← State.optDone_isSome u y.op y.final (u.opCounts y.op), State.findSession_isSome]
      rfl
    · rfl

theorem streamAbort_ends {y : Stream} (h : Served s streamAbortForm r x) (request : isRequest r.target = true)
    (known : s.stream r.target = some y) (running : y.settled = false) :
    ∃ t z, exec (.streamAbort r) s = .next t ∧ Replied t r 0x0303 St.ok [] ∧ t.stream r.target = some z
      ∧ z.ended = true ∧ z.items = [] ∧ z.loaded = [] ∧ z.segs = y.segs ∧ z.final = St.aborted := by
  have answer : (s.arrived r).streamAbort r.target
      = (St.ok, [], ((s.arrived r).putStream y.aborted).requestDone r.target) := by
    unfold State.streamAbort
    rw [if_neg (by simp [request]), show (s.arrived r).stream r.target = some y from known]
    dsimp only
    rw [running]
    rfl
  have begins := (State.putStream_begins y.aborted (s.arrived r)).trans (State.requestDone_begins r.target _)
  have open_ : ((((s.arrived r).putStream y.aborted).requestDone r.target).opsOf r.session).isSome = true := by
    rw [State.requestDone_isSome, ← h.found_isSome, State.findSession_isSome]
    rfl
  obtain ⟨t, next, shown⟩ := run_stateShown (body := fun _ s => s.streamAbort r.target) (wireLen r) (.streamAbort r) h rfl
    answer (begins.port r.port) open_
  have own : r.target = y.aborted.id := (State.stream_id known).symm
  obtain ⟨o, left⟩ := State.requestDone_stream (u := (s.arrived r).putStream y.aborted) (id := r.target)
    (own ▸ State.stream_putStream (s.arrived r) y.aborted)
  exact ⟨t, { y.aborted with op := o }, next, shown.replied, (shown.stream _).trans left, rfl, rfl, rfl, rfl, rfl⟩

end

/-- Settles O24: a request stream starts with its items in order, those that the read queue holds already and the others,
and one that is aborted has nothing left to send. -/
theorem requestStreamsStartAndAbort : Obligations.RequestStreamsStartAndAbort := by
  unfold Obligations.RequestStreamsStartAndAbort
  exact ⟨fun _ _ _ _ _ => fetchRecords_streams, fun _ _ _ _ _ _ _ => fetchRing_streams, fun _ _ _ _ => streamAbort_ends⟩

end Sys2Proof.Machine
end

