-- ==== Sys2Proof/Proofs/ScrubSteps.lean ====
section
/-! A scrub step (R204, R206) in a state that no step reaches: the line to scrub lies far past the last fitted one, and the
bucket of its stack is none of the five. -/

namespace Sys2Proof.Machine

/-- A Depot that scrubs, with line 63 · 2^29 as its next: the largest Depot has 4 stacks of 2^29 lines (R174). -/
def farScrub : State :=
  { State.reset with
    modes := { Modes.reset with depot := true }
    regs := [(Reg.pwrGrant, 2), (Reg.dptScrubCfg, 0x80000000)]
    dpt := { Depot.reset with scrubLine := 63 * 536870912 } }

theorem farScrub_scrubs : farScrub.modes.depot = true ∧ farScrub.bit Reg.dptScrubCfg 31 = true
    ∧ farScrub.bit Reg.pwrGrant 1 = true := by decide +kernel

theorem farScrub_last : farScrub.fitted * 4096 ≤ farScrub.scrubTarget + 1 := by decide +kernel

theorem farScrub_passes : farScrub.get Reg.dptScrubPasses = 0 := by decide +kernel

/-- The counter of errors corrected in the far line's stack is the counter of passes. -/
theorem dptCeCnt_farScrub : Reg.dptCeCnt (farScrub.scrubTarget / 536870912) = Reg.dptScrubPasses := by decide +kernel

/-- So a pass that ends with an error corrected there counts twice. -/
theorem scrubWith_farScrub_passes : (scrubWith [(0, 1)] farScrub).get Reg.dptScrubPasses = 2 := by decide +kernel

theorem exec_scrubStep (upset : List (Nat × Byte)) (s : State) :
    exec (.scrubStep upset) s = .next (State.keeping s (scrubWith upset s)) := rfl

/-- Refutes O52: its first clause, of a pass that ends with the step, takes every line to scrub, also that of `farScrub`
(`dptCeCnt_farScrub`): DPT_SCRUB_PASSES counts the error that has come into that line besides the pass. No step from the
reset state takes the scrubber past the last fitted line. -/
theorem not_depotCareCompletes : ¬ Obligations.DepotCareCompletes := by
  unfold Obligations.DepotCareCompletes
  rintro ⟨steps, -⟩
  obtain ⟨depot, scrubs, granted⟩ := farScrub_scrubs
  obtain ⟨t, next, last, -⟩ := steps farScrub [(0, 1)] depot scrubs granted
  obtain ⟨-, counted, -⟩ := last farScrub_last
  rw [exec_scrubStep] at next
  rw [← Host.Outcome.next.inj next, Counted, State.keeping_get, scrubWith_farScrub_passes, farScrub_passes] at counted
  exact absurd counted (by decide)

end Sys2Proof.Machine
end

