-- ==== Sys2Proof/Proofs/EngineGrants.lean ====
section
/-! The engines that a GRANT admits (R228): the first of those that are enabled and not quarantined. -/

namespace Sys2Proof.Machine

/-- The first `n` numbers with `p` are the numbers with `p` that have fewer than `n` such numbers below them. -/
theorem mem_take_filter_range (p : Nat → Bool) (n e m : Nat) :
    e ∈ ((List.range m).filter p).take n ↔ e < m ∧ p e = true ∧ ((List.range e).filter p).length < n := by
  induction m with
  | zero => simp
  | succ m ih =>
    have last : e ∈ ([m].filter p).take (n - ((List.range m).filter p).length)
        ↔ e = m ∧ p e = true ∧ ((List.range m).filter p).length < n := by
      cases hp : p m
      · refine iff_of_false (by simp [hp]) ?_
        rintro ⟨rfl, he, -⟩
        exact Bool.false_ne_true (hp.symm.trans he)
      · by_cases room : ((List.range m).filter p).length < n
        · obtain ⟨k, hk⟩ : ∃ k, n - ((List.range m).filter p).length = k + 1 := ⟨_, (Nat.succ_pred_eq_of_pos (by omega)).symm⟩
          simp only [List.filter_cons, hp, if_true, List.filter_nil, hk, List.take_succ_cons, List.take_nil,
            List.mem_singleton, room, and_true]
          exact ⟨fun eq => ⟨eq, eq ▸ hp⟩, And.left⟩
        · simp [room, Nat.sub_eq_zero_of_le (Nat.le_of_not_lt room)]
    rw [List.range_succ, List.filter_append, List.take_append, List.mem_append, ih, last]
    constructor
    · rintro (⟨below, rest⟩ | ⟨rfl, rest⟩)
      · exact ⟨Nat.lt_succ_of_lt below, rest⟩
      · exact ⟨Nat.lt_succ_self e, rest⟩
    · rintro ⟨below, rest⟩
      rcases Nat.lt_succ_iff_lt_or_eq.mp below with below | rfl
      · exact .inl ⟨below, rest⟩
      · exact .inr ⟨rfl, rest⟩

/-- Settles O58: the granted engines are the first GRANT numbers below 32 of enabled engines that are not quarantined. -/
theorem grantedEnginesAreTheLowest : Obligations.GrantedEnginesAreTheLowest := by
  unfold Obligations.GrantedEnginesAreTheLowest
  intro s e
  rw [State.grantedEngines, mem_take_filter_range, Bool.and_eq_true, Bool.not_eq_true', and_assoc]
  exact and_iff_right e.isLt

end Sys2Proof.Machine
end

