-- ==== Sys2Proof/Proofs/QuarantineRelease.lean ====
section
/-! The release of a quarantined engine (R222): the write has cleared CMP_QUAR, a WC register, before its effect looks there
for the engines to release, so it restarts no fault window. -/

namespace Sys2Proof.Machine

/-- The session of the host that writes CMP_QUAR. -/
def releasingHost : Session :=
  { slot := 0, id := 1, ip := 1, udp := 1, port := 6, version := 1, timeout := secU 10, last := 0, high := none, cache := [],
    atn := 0, atnAt := [], snaps := [], highs := [], marks := [], ops := [], nonce := none, auth := [], report := [],
    taken := [] }

/-- Its REG_WRITE, with 8 bytes of parameters. -/
def releaseRequest : Req :=
  { port := 6, mac := 1, ip := 1, udp := 1, udpLen := 44, magic := 0x4256, version := 1, flags := 0, target := 0, seq := 1,
    session := 1, plen := 8, module := 0xFFFF, resv := false, presv := false, crcOk := true, frameLost := false, ahead := 0 }

/-- Standby with engine 0 in quarantine after three lasting faults within 1 s, and the management port up. -/
def quarantinedEngine : State :=
  { State.reset with
    modes := { Modes.reset with inner := .standby, base := .standby, control := true, data := true }
    regs := [(Reg.clkPllStat, 0x10000), (Reg.lnkPortStat 6, 1), (Reg.cmpQuar, 1)]
    cmp := { Cmp.reset with faults := [(0, [1, 2, 3])] }
    bcp := { Bcp.reset with sessions := [releasingHost] } }

theorem quarantinedEngine_quiet : quarantinedEngine.Quiet releaseRequest.port := by
  constructor <;> decide +kernel

theorem quarantinedEngine_served : Served quarantinedEngine writeForm releaseRequest releasingHost := by
  refine ⟨quarantinedEngine_quiet, ?_, ?_, ?_, ?_, ?_, ?_, ?_, ?_, ?_, ?_⟩ <;> decide +kernel

theorem quarantinedEngine_reaches : quarantinedEngine.addrRefused Reg.cmpQuar = none := by decide +kernel

theorem quarantinedEngine_quarantined : (1 &&& quarantinedEngine.get Reg.cmpQuar).getLsbD 0 = true := by decide +kernel

theorem exec_quarantineRelease (r : Req) (v : Word) (s : State) : exec (.quarantineRelease r v) s
    = .next (State.keeping s (receive r.port (wireLen r) (.quarantineRelease r v) (rxQuarantineRelease r v) s)) := rfl

/-- Released, the engine keeps the window of its three faults. -/
theorem quarantineRelease_faults : (receive releaseRequest.port (wireLen releaseRequest) (.quarantineRelease releaseRequest 1)
    (rxQuarantineRelease releaseRequest 1) quarantinedEngine).cmp.faults = [(0, [1, 2, 3])] := by decide +kernel

/-- Refutes O32: its first clause has the windows of the released engines restart (R222). The write of 1 to the bit of engine 0
in `quarantinedEngine` leaves that engine's three faults in its window, since its effect finds the bit cleared already. -/
theorem not_engineWritesComplete : ¬ Obligations.EngineWritesComplete := by
  unfold Obligations.EngineWritesComplete
  rintro ⟨release, -⟩
  obtain ⟨u, next, -, -, windows, -⟩ := release quarantinedEngine releaseRequest releasingHost 1 quarantinedEngine_served
    quarantinedEngine_reaches
  rw [exec_quarantineRelease] at next
  have left : (0, [1, 2, 3]) ∈ u.cmp.faults := by
    rw [← Host.Outcome.next.inj next, State.keeping_cmp, quarantineRelease_faults]
    exact List.mem_singleton.mpr rfl
  exact Bool.false_ne_true (((windows _).mp left).2.symm.trans quarantinedEngine_quarantined)

end Sys2Proof.Machine
end

