-- ==== Sys2Proof/Proofs/EngineQueues.lean ====
section
/-! The compression engines' queues (R218–R223): what leaves a slot, what begins, and what offering the waiting retries may
do. -/

namespace Sys2Proof.Machine

/-! ### Blocks and slots -/

@[simp] theorem sameBlock_self (u : UnitB) : sameBlock u u = true := by simp [sameBlock]

@[simp] theorem State.updJobs_jobs_same (s : State) (e : Fin 32) (f : List Job → List Job) :
    (s.updJobs e f).jobs e = f (s.jobs e) := upd_get_same ..

theorem State.updJobs_jobs_ne (s : State) {e x : Fin 32} (f : List Job → List Job) (h : x ≠ e) :
    (s.updJobs e f).jobs x = s.jobs x := upd_get_ne _ _ _ _ h

@[simp] theorem State.updJobs_get (s : State) (e : Fin 32) (f : List Job → List Job) (a : Nat) :
    (s.updJobs e f).get a = s.get a := rfl

@[simp] theorem State.updJobs_ready (s : State) (e : Fin 32) (f : List Job → List Job) :
    (s.updJobs e f).cmp.ready = s.cmp.ready := rfl

@[simp] theorem State.dropBlock_jobs (s : State) (u : UnitB) (e : Fin 32) :
    (s.dropBlock u).jobs e = (s.jobs e).filter fun j => !sameBlock j.unit u := by
  show (s.cmp.jobs.map fun js => js.filter fun (j : Job) => !sameBlock j.unit u)[e.val] = _
  rw [Vector.getElem_map]
  rfl

@[simp] theorem State.dropBlock_ready (s : State) (u : UnitB) : (s.dropBlock u).cmp.ready = s.cmp.ready := rfl

@[simp] theorem State.readyRaw_jobs (s : State) (eng : Bool) (u : UnitB) (e : Fin 32) :
    (s.readyRaw eng u).jobs e = s.jobs e := rfl

@[simp] theorem State.readyRaw_ready (s : State) (eng : Bool) (u : UnitB) :
    (s.readyRaw eng u).cmp.ready = s.cmp.ready ++ [⟨u, false, eng, wordBytes u.words⟩] := rfl

@[simp] theorem State.bump_jobs (s : State) (a : Nat) (e : Fin 32) : (s.bump a).jobs e = s.jobs e := rfl

@[simp] theorem State.keeping_jobs (old s : State) (e : Fin 32) : (State.keeping old s).jobs e = s.jobs e := rfl

theorem mem_allEngines (e : Fin 32) : e ∈ allEngines := by
  refine List.mem_map.mpr ⟨e, List.mem_range.mpr e.isLt, Fin.ext ?_⟩
  exact Nat.mod_eq_of_lt e.isLt

theorem nodup_allEngines : allEngines.Nodup := by decide

/-- Every engine has its turn. -/
theorem State.mem_roundRobin (s : State) (e : Fin 32) : e ∈ s.roundRobin := by
  have turn : (s.cmp.lastEng + 1 + (e.val + 32 - (s.cmp.lastEng + 1) % 32) % 32) % 32 = e.val := by omega
  exact List.mem_map.mpr ⟨_, List.mem_range.mpr (Nat.mod_lt _ (by decide)), Fin.ext turn⟩

/-- The first engine in turn with `p` among those with `q`. -/
theorem State.find_roundRobin (s : State) (q p : Fin 32 → Bool) :
    (s.roundRobin.filter q).find? p = s.roundRobin.find? fun x => q x && p x := by
  rw [List.find?_filter]
  congr 1
  funext x
  rw [Bool.decide_and, Bool.decide_eq_true, Bool.decide_eq_true]

/-! ### Units that become ready -/

/-- The Ring writer's units have only become more, and no register outside `l` has changed. -/
structure ReadyGrown (l : List Nat) (s t : State) : Prop where
  regs : s.KeepsRegs t l
  ready : s.cmp.ready <+: t.cmp.ready

namespace ReadyGrown
variable {l : List Nat} {s t u : State}

theorem refl (l : List Nat) (s : State) : ReadyGrown l s s := ⟨fun _ _ => rfl, List.prefix_rfl⟩

theorem trans (h : ReadyGrown l s t) (k : ReadyGrown l t u) : ReadyGrown l s u :=
  ⟨fun a ha => (k.regs a ha).trans (h.regs a ha), h.ready.trans k.ready⟩

theorem foldl {α : Type} {f : State → α → State} (hf : ∀ s x, ReadyGrown l s (f s x)) (xs : List α) (s : State) :
    ReadyGrown l s (xs.foldl f s) :=
  List.foldlRecOn xs f (motive := ReadyGrown l s) (refl l s) fun t h x _ => h.trans (hf t x)

/-- A block leaves its slots raw, and a counter of `l` counts it. -/
theorem sentRaw {a : Nat} (ha : a ∈ l) (eng : Bool) (v : UnitB) (s : State) :
    ReadyGrown l s (((s.dropBlock v).readyRaw eng v).bump a) :=
  ⟨fun _ hk => State.get_bump_ne _ _ _ fun eq => hk (eq ▸ ha), List.prefix_append _ _⟩

end ReadyGrown

/-! ### Blocks that begin (R223, R226) -/

/-- The same block in the same slot: at most its encoding has begun. -/
def Job.SameBut (j k : Job) : Prop :=
  k = { j with started := k.started, inject := k.inject, injectRetry := k.injectRetry }

theorem Job.SameBut.unit {j k : Job} (h : j.SameBut k) : k.unit = j.unit := (congrArg Job.unit h :)

theorem Job.SameBut.trans {i j k : Job} (h : i.SameBut j) (g : j.SameBut k) : i.SameBut k := by
  unfold Job.SameBut at *
  rw [g, h]

/-- Blocks have begun in their slots, and an armed injection may have been used: nothing else has changed of the engines,
and no register but CMP_INJECT. -/
structure Begun (s t : State) : Prop where
  jobs : ∀ e, ∃ f : Job → Job, (∀ j : Job, j.SameBut (f j)) ∧ t.jobs e = (s.jobs e).map f
  rest : t.cmp = { s.cmp with jobs := t.cmp.jobs }
  regs : s.KeepsRegs t [Reg.cmpInject]

namespace Begun
variable {s t u : State}

theorem refl (s : State) : Begun s s := ⟨fun _ => ⟨id, fun _ => rfl, (List.map_id _).symm⟩, rfl, fun _ _ => rfl⟩

theorem trans (h : Begun s t) (k : Begun t u) : Begun s u where
  jobs e := by
    obtain ⟨f, sameF, eqF⟩ := h.jobs e
    obtain ⟨g, sameG, eqG⟩ := k.jobs e
    exact ⟨g ∘ f, fun j => (sameF j).trans (sameG _), by rw [eqG, eqF, List.map_map]⟩
  rest := by rw [k.rest, h.rest]
  regs a ha := (k.regs a ha).trans (h.regs a ha)

theorem ready (h : Begun s t) : t.cmp.ready = s.cmp.ready := by rw [h.rest]
theorem readyGrown {l : List Nat} (h : Begun s t) (mem : Reg.cmpInject ∈ l) : ReadyGrown l s t :=
  ⟨fun a ha => h.regs a fun eq => ha (List.mem_singleton.mp eq ▸ mem), by rw [h.ready]⟩

theorem building (h : Begun s t) : t.cmp.building = s.cmp.building := by rw [h.rest]
theorem lastEng (h : Begun s t) : t.cmp.lastEng = s.cmp.lastEng := by rw [h.rest]

theorem mem (h : Begun s t) {e : Fin 32} {j : Job} (hj : j ∈ s.jobs e) : ∃ k ∈ t.jobs e, j.SameBut k := by
  obtain ⟨f, same, eq⟩ := h.jobs e
  exact ⟨f j, eq ▸ List.mem_map_of_mem hj, same j⟩

theorem of_mem (h : Begun s t) {e : Fin 32} {k : Job} (hk : k ∈ t.jobs e) : ∃ j ∈ s.jobs e, j.SameBut k := by
  obtain ⟨f, same, eq⟩ := h.jobs e
  obtain ⟨j, hj, rfl⟩ := List.mem_map.mp (eq ▸ hk)
  exact ⟨j, hj, same j⟩

end Begun

/-- Jobs of one engine that are changed within `Job.SameBut`. -/
theorem State.updJobs_begun (e : Fin 32) {f : Job → Job} (same : ∀ j : Job, j.SameBut (f j)) (s : State) :
    Begun s (s.updJobs e fun js => js.map f) where
  jobs x := by
    by_cases h : x = e
    · exact ⟨f, same, by rw [h, State.updJobs_jobs_same]⟩
    · exact ⟨id, fun _ => rfl, by rw [State.updJobs_jobs_ne _ _ h, List.map_id]⟩
  rest := rfl
  regs _ _ := rfl

theorem Begun.setInject {s t : State} (h : Begun s t) (i : Nat) (b : Bool) : Begun s (t.setBit Reg.cmpInject i b) :=
  h.trans ⟨fun _ => ⟨id, fun _ => rfl, (List.map_id _).symm⟩, rfl,
    fun _ ha => State.get_setBit_ne _ _ _ _ _ (List.ne_of_not_mem_cons ha)⟩

/-- What a block becomes as its encoding begins, with an injection where one hits it (R226). -/
def Job.begin (j : Job) (hit both : Bool) (x : Job) : Job :=
  if sameBlock x.unit j.unit then
    { x with started := true, inject := if hit then true else x.inject, injectRetry := if hit then both else x.injectRetry }
  else x

theorem Job.begin_sameBut (j : Job) (hit both : Bool) (x : Job) : x.SameBut (j.begin hit both x) := by
  unfold Job.begin
  split <;> rfl

theorem State.startEngine_begun (e : Fin 32) (s : State) : Begun s (s.startEngine e) := by
  unfold State.startEngine
  split
  · exact .refl s
  · split
    · exact .refl s
    · next j _ _ =>
      dsimp only
      generalize (j.first.isNone && (s.get Reg.cmpInject).getLsbD 0 && bits (s.get Reg.cmpInject) 20 16 == e.val) = hit
      have begun := s.updJobs_begun e (j.begin_sameBut hit ((s.get Reg.cmpInject).getLsbD 1))
      cases hit with
      | false => exact begun
      | true => exact (begun.setInject 0 false).setInject 8 true

theorem State.startEngines_begun (s : State) : Begun s s.startEngines :=
  List.foldlRecOn allEngines _ (motive := Begun s) (.refl s) fun t h e _ => h.trans (t.startEngine_begun e)

/-! ### Retries that are offered (R219, R220, R223) -/

section
variable {s : State} {e r : Fin 32} {j : Job}

/-- What a waiting retry becomes on the engine of its first attempt, once another engine has it. -/
def Job.lentOut (j x : Job) : Job := if sameBlock x.unit j.unit then { x with waiting := false, lent := true } else x

/-- What it is on the engine that it goes to. -/
def Job.retryFrom (e : Fin 32) (j : Job) : Job :=
  { j with first := some e.val, waiting := false, lent := false, started := false, inject := j.injectRetry }

theorem State.offerRetry_unresolved (alone : ∀ x, x ≠ e → s.eligible j.unit.chan x = false) :
    s.offerRetry e j = ((s.dropBlock j.unit).readyRaw false j.unit).bump Reg.cmpUnresolved := by
  have empty : (s.roundRobin.filter fun x => x != e && s.eligible j.unit.chan x) = [] := by
    refine List.filter_eq_nil_iff.mpr fun x _ => ?_
    by_cases h : x = e
    · simp [h]
    · simp [alone x h]
  rw [State.offerRetry, empty]
  rfl

/-- A retry goes to the first engine in turn that is not its own, eligible and with a free slot. -/
theorem State.offerRetry_lends
    (found : (s.roundRobin.find? fun x => x != e && s.eligible j.unit.chan x && s.freeSlot x) = some r) :
    s.offerRetry e j = (s.updJobs e fun js => js.map j.lentOut).updJobs r fun js =>
      (js.filter fun (x : Job) => x.started) ++ j.retryFrom e :: js.filter fun (x : Job) => !x.started := by
  have free := s.find_roundRobin (fun x => x != e && s.eligible j.unit.chan x) s.freeSlot
  rw [found] at free
  have offered : (s.roundRobin.filter fun x => x != e && s.eligible j.unit.chan x).isEmpty = false :=
    List.isEmpty_eq_false_iff_exists_mem.mpr ⟨r, List.mem_of_find?_eq_some free⟩
  unfold State.offerRetry
  simp only [offered, Bool.false_eq_true, if_false, free]
  rfl

theorem State.offerRetry_waits (others : ∃ x, x ≠ e ∧ s.eligible j.unit.chan x = true)
    (found : (s.roundRobin.find? fun x => x != e && s.eligible j.unit.chan x && s.freeSlot x) = none) :
    s.offerRetry e j = s := by
  have free := s.find_roundRobin (fun x => x != e && s.eligible j.unit.chan x) s.freeSlot
  rw [found] at free
  obtain ⟨x, other, eligible⟩ := others
  have offered : (s.roundRobin.filter fun x => x != e && s.eligible j.unit.chan x).isEmpty = false :=
    List.isEmpty_eq_false_iff_exists_mem.mpr ⟨x, List.mem_filter.mpr ⟨s.mem_roundRobin x, by simp [other, eligible]⟩⟩
  unfold State.offerRetry
  simp only [offered, Bool.false_eq_true, if_false, free]

/-- One offer, by its three outcomes. -/
theorem State.offerRetry_cases (s : State) (e : Fin 32) (j : Job) :
    s.offerRetry e j = ((s.dropBlock j.unit).readyRaw false j.unit).bump Reg.cmpUnresolved
      ∨ (∃ r, s.offerRetry e j = (s.updJobs e fun js => js.map j.lentOut).updJobs r fun js =>
          (js.filter fun (x : Job) => x.started) ++ j.retryFrom e :: js.filter fun (x : Job) => !x.started)
      ∨ s.offerRetry e j = s := by
  by_cases others : ∃ x, x ≠ e ∧ s.eligible j.unit.chan x = true
  · cases found : s.roundRobin.find? fun x => x != e && s.eligible j.unit.chan x && s.freeSlot x with
    | none => exact .inr (.inr (State.offerRetry_waits others found))
    | some r => exact .inr (.inl ⟨r, State.offerRetry_lends found⟩)
  · refine .inl (State.offerRetry_unresolved fun x other => ?_)
    exact Bool.not_eq_true _ ▸ fun eligible => others ⟨x, other, eligible⟩

end

theorem State.offerRetry_readyGrown (s : State) (e : Fin 32) (j : Job) :
    ReadyGrown [Reg.cmpUnresolved, Reg.cmpInject] s (s.offerRetry e j) := by
  rcases s.offerRetry_cases e j with raw | ⟨r, lent⟩ | same
  · rw [raw]
    exact .sentRaw List.mem_cons_self false j.unit s
  · rw [lent]
    exact ⟨fun _ _ => rfl, List.prefix_rfl⟩
  · rw [same]
    exact .refl _ s

theorem State.offerRetries_readyGrown (s : State) : ReadyGrown [Reg.cmpUnresolved, Reg.cmpInject] s s.offerRetries := by
  have round (s : State) : ReadyGrown [Reg.cmpUnresolved, Reg.cmpInject] s
      (s.waitingJobs.foldl (fun (s : State) (x : Fin 32 × Job) => s.offerRetry x.1 x.2) s) :=
    .foldl (f := fun (s : State) (x : Fin 32 × Job) => s.offerRetry x.1 x.2)
      (fun s x => s.offerRetry_readyGrown x.1 x.2) _ s
  unfold State.offerRetries
  refine ReadyGrown.trans (.foldl (fun s _ => ?_) s.waitingJobs s)
    ((State.startEngines_begun _).readyGrown (List.mem_cons_of_mem _ List.mem_cons_self))
  exact round s

/-! ### Which units the engines hold -/

/-- Every unit in an engine is one of `p`. -/
def State.UnitsIn (p : UnitB → Prop) (s : State) : Prop := ∀ e, ∀ j ∈ s.jobs e, p j.unit

theorem State.mem_waitingJobs {s : State} {x : Fin 32 × Job} (h : x ∈ s.waitingJobs) :
    x.2 ∈ s.jobs x.1 ∧ x.2.waiting = true := by
  obtain ⟨e, -, h⟩ := List.mem_flatMap.mp h
  obtain ⟨j, hj, rfl⟩ := List.mem_map.mp h
  exact List.mem_filter.mp hj

namespace State.UnitsIn
variable {p : UnitB → Prop} {s t : State}

theorem begun (h : s.UnitsIn p) (k : Begun s t) : t.UnitsIn p := fun e _ hj => by
  obtain ⟨i, hi, same⟩ := k.of_mem hj
  exact same.unit ▸ h e i hi

/-- A retry takes its own unit to the other engine. -/
theorem offerRetry (h : s.UnitsIn p) {j : Job} (hj : p j.unit) (e : Fin 32) : (s.offerRetry e j).UnitsIn p := by
  rcases s.offerRetry_cases e j with raw | ⟨r, lent⟩ | same
  · rw [raw]
    intro x k hk
    rw [State.bump_jobs, State.readyRaw_jobs, State.dropBlock_jobs] at hk
    exact h x k (List.mem_of_mem_filter hk)
  · have marked : (s.updJobs e fun js => js.map j.lentOut).UnitsIn p := by
      intro x k hk
      by_cases own : x = e
      · rw [own, State.updJobs_jobs_same] at hk
        obtain ⟨i, hi, rfl⟩ := List.mem_map.mp hk
        have unit : (j.lentOut i).unit = i.unit := by unfold Job.lentOut; split <;> rfl
        exact unit ▸ h e i hi
      · rw [State.updJobs_jobs_ne _ _ own] at hk
        exact h x k hk
    rw [lent]
    intro x k hk
    by_cases taker : x = r
    · rw [taker, State.updJobs_jobs_same, List.mem_append, List.mem_cons] at hk
      rcases hk with hk | rfl | hk
      · exact marked r k (List.mem_of_mem_filter hk)
      · exact hj
      · exact marked r k (List.mem_of_mem_filter hk)
    · rw [State.updJobs_jobs_ne _ _ taker] at hk
      exact marked x k hk
  · rw [same]
    exact h

theorem offerRetries (h : s.UnitsIn p) : s.offerRetries.UnitsIn p := by
  have round (t : State) (ht : t.UnitsIn p) :
      (t.waitingJobs.foldl (fun (s : State) (x : Fin 32 × Job) => s.offerRetry x.1 x.2) t).UnitsIn p :=
    List.foldlRecOn t.waitingJobs _ (motive := State.UnitsIn p) ht fun u hu x hx =>
      hu.offerRetry (ht _ _ (State.mem_waitingJobs hx).1) x.1
  exact (List.foldlRecOn s.waitingJobs _ (motive := State.UnitsIn p) h fun t ht _ _ => round t ht).begun
    (State.startEngines_begun _)

end State.UnitsIn

/-! ### One retry that waits -/

theorem flatMap_eq_of_unique {α β : Type} {f : α → List β} {a : α} : ∀ {l : List α}, l.Nodup → a ∈ l →
    (∀ x, x ≠ a → f x = []) → l.flatMap f = f a
  | b :: l, hl, ha, others => by
    obtain ⟨hb, hl⟩ := List.nodup_cons.mp hl
    rw [List.flatMap_cons]
    rcases List.mem_cons.mp ha with rfl | ha
    · rw [List.flatMap_eq_nil_iff.mpr fun x hx => others x fun eq => hb (eq ▸ hx), List.append_nil]
    · rw [others b fun eq => hb (eq ▸ ha), List.nil_append, flatMap_eq_of_unique hl ha others]

theorem State.waitingJobs_single {s : State} {e : Fin 32} {j : Job} (own : s.jobs e = [j]) (waiting : j.waiting = true)
    (others : ∀ x, x ≠ e → ∀ k ∈ s.jobs x, k.waiting = false) : s.waitingJobs = [(e, j)] := by
  refine (flatMap_eq_of_unique nodup_allEngines (mem_allEngines e) fun x hx => ?_).trans ?_
  · rw [List.filter_eq_nil_iff.mpr fun k hk => by simp [others x hx k hk], List.map_nil]
  · rw [own, List.filter_cons_of_pos waiting, List.filter_nil, List.map_singleton]

/-- One waiting retry is offered once. -/
theorem State.offerRetries_single {s : State} {e : Fin 32} {j : Job} (one : s.waitingJobs = [(e, j)]) :
    s.offerRetries = (s.offerRetry e j).startEngines := by
  unfold State.offerRetries
  rw [one, List.foldl_cons, List.foldl_nil, one, List.foldl_cons, List.foldl_nil]

end Sys2Proof.Machine
end

