-- ==== Sys2Proof/Proofs/EngineOutcomes.lean ====
section
/-! A complete unit on its way, and the outcomes of an engine's attempt (R218–R222). -/

namespace Sys2Proof.Machine

theorem exec_unitComplete (c : Fin 64) (s : State) :
    exec (.unitComplete c) s = .next (State.keeping s (unitComplete c s)) := rfl

theorem exec_engineResult (e : Fin 32) (mismatch : Bool) (s : State) :
    exec (.engineResult e mismatch) s = .next (State.keeping s (engineResult e mismatch s)) := rfl

theorem exec_cmpDeadlineExpire (e : Fin 32) (s : State) :
    exec (.cmpDeadlineExpire e) s = .next (State.keeping s (cmpDeadlineExpire e s)) := rfl

theorem counted_keeping (s t old : State) (a n : Nat) : Counted s (State.keeping old t) a n = Counted s t a n := rfl

/-- A counter that has counted one, and then stays. -/
theorem Counted.of_bump {s t : State} {a : Nat} (h : t.get a = s.get a) : Counted s (t.bump a) a 1 :=
  (t.counted_bump a).congr h.symm rfl

theorem Counted.of_get {s t u : State} {a n : Nat} (h : Counted s t a n) (k : u.get a = t.get a) : Counted s u a n :=
  h.congr rfl k

theorem Counted.trans {s t u : State} {a m n : Nat} (h : Counted s t a m) (k : Counted t u a n) : Counted s u a (m + n) := by
  unfold Counted at *
  omega

/-! ### A complete unit (R218) -/

section
variable {s : State} {c : Fin 64} {u : UnitB}

/-- A unit that has left those that are being built. -/
def State.takeUnit (u : UnitB) (s : State) : State :=
  s.withCmp fun x => { x with building := x.building.filter fun (v : UnitB) => !sameBlock v u }

/-- A unit in an engine's free slot, to be settled by the deadline in force (R221). -/
def State.giveUnit (u : UnitB) (e : Fin 32) (s : State) : State :=
  (s.updJobs e fun js => js ++ [⟨u, s.tim.now, s.tim.now + usU (s.fld Reg.cmpDeadline 6 0), none, false, false, false, false,
    false⟩]).withCmp fun x => { x with lastEng := e.val }

theorem State.giveUnit_jobs (u : UnitB) (e : Fin 32) (s : State) : (s.giveUnit u e).jobs e
    = s.jobs e ++ [⟨u, s.tim.now, s.tim.now + usU (s.fld Reg.cmpDeadline 6 0), none, false, false, false, false, false⟩] :=
  State.updJobs_jobs_same ..

/-- The way of a complete unit, by what `eligible` and `free` engines there are. -/
theorem unitComplete_found
    (found : (s.cmp.building.find? fun (x : UnitB) => x.chan = c.val && x.full) = some u) : unitComplete c s =
      if !s.bit Reg.cmpCtrl 0 || (s.roundRobin.filter fun e => s.eligible c e).isEmpty then (s.takeUnit u).readyRaw false u
      else match s.roundRobin.find? fun (x : Fin 32) => s.eligible c x && s.freeSlot x with
        | none => ((s.takeUnit u).readyRaw false u).bump Reg.cmpRawBusy
        | some e => ((s.takeUnit u).giveUnit u e).startEngines := by
  rw [← s.find_roundRobin, unitComplete, found]
  rfl

theorem unitComplete_unwanted
    (found : (s.cmp.building.find? fun (x : UnitB) => x.chan = c.val && x.full) = some u)
    (unwanted : s.bit Reg.cmpCtrl 0 = false ∨ ∀ e : Fin 32, s.eligible c e = false) :
    unitComplete c s = (s.takeUnit u).readyRaw false u := by
  rw [unitComplete_found found]
  refine if_pos ?_
  rcases unwanted with off | noEngine
  · rw [off]
    rfl
  · rw [List.filter_eq_nil_iff.mpr fun e _ => by rw [noEngine e]; exact Bool.false_ne_true]
    exact Bool.or_true _

theorem eligible_filter_nonempty (eligible : ∃ e : Fin 32, s.eligible c e = true) :
    (s.roundRobin.filter fun e => s.eligible c e).isEmpty = false := by
  obtain ⟨e, he⟩ := eligible
  exact List.isEmpty_eq_false_iff_exists_mem.mpr ⟨e, List.mem_filter.mpr ⟨s.mem_roundRobin e, he⟩⟩

theorem unitComplete_busy
    (found : (s.cmp.building.find? fun (x : UnitB) => x.chan = c.val && x.full) = some u)
    (on : s.bit Reg.cmpCtrl 0 = true) (eligible : ∃ e : Fin 32, s.eligible c e = true)
    (busy : ∀ e : Fin 32, s.eligible c e = true → s.freeSlot e = false) :
    unitComplete c s = ((s.takeUnit u).readyRaw false u).bump Reg.cmpRawBusy := by
  have noEngine : (s.roundRobin.find? fun (x : Fin 32) => s.eligible c x && s.freeSlot x) = none := by
    refine List.find?_eq_none.mpr fun e _ both => ?_
    obtain ⟨he, free⟩ := Bool.and_eq_true_iff.mp both
    exact Bool.false_ne_true ((busy e he).symm.trans free)
  rw [unitComplete_found found, on, eligible_filter_nonempty eligible, noEngine]
  rfl

theorem unitComplete_given {e : Fin 32}
    (found : (s.cmp.building.find? fun (x : UnitB) => x.chan = c.val && x.full) = some u)
    (on : s.bit Reg.cmpCtrl 0 = true)
    (free : (s.roundRobin.find? fun (x : Fin 32) => s.eligible c x && s.freeSlot x) = some e) :
    unitComplete c s = ((s.takeUnit u).giveUnit u e).startEngines := by
  have eligible : s.eligible c e = true := by
    have both := List.find?_some free
    exact (Bool.and_eq_true_iff.mp both).1
  rw [unitComplete_found found, on, eligible_filter_nonempty ⟨e, eligible⟩, free]
  rfl

/-- In every case the unit is no longer one that is being built. -/
theorem unitComplete_building
    (found : (s.cmp.building.find? fun (x : UnitB) => x.chan = c.val && x.full) = some u) :
    (unitComplete c s).cmp.building = s.cmp.building.filter (fun (v : UnitB) => !sameBlock v u) := by
  rw [unitComplete_found found]
  split
  · rfl
  · split
    · rfl
    · exact (State.startEngines_begun _).building

theorem unitComplete_sends (found : (s.cmp.building.find? fun (x : UnitB) => x.chan = c.val && x.full) = some u) :
    ∃ t, exec (.unitComplete c) s = .next t ∧ t.cmp.building = s.cmp.building.filter (fun (v : UnitB) => !sameBlock v u)
      ∧ ((s.bit Reg.cmpCtrl 0 = false ∨ ∀ e : Fin 32, s.eligible c e = false) →
          t.cmp.ready = s.cmp.ready ++ [⟨u, false, false, wordBytes u.words⟩] ∧ t.cmp.jobs = s.cmp.jobs ∧ t.regs = s.regs)
      ∧ (s.bit Reg.cmpCtrl 0 = true → (∃ e : Fin 32, s.eligible c e = true) →
          (∀ e : Fin 32, s.eligible c e = true → s.freeSlot e = false) →
          t.cmp.ready = s.cmp.ready ++ [⟨u, false, false, wordBytes u.words⟩] ∧ t.cmp.jobs = s.cmp.jobs
            ∧ Counted s t Reg.cmpRawBusy 1)
      ∧ (∀ e : Fin 32, s.bit Reg.cmpCtrl 0 = true →
          (s.roundRobin.find? fun (x : Fin 32) => s.eligible c x && s.freeSlot x) = some e →
          t.cmp.ready = s.cmp.ready ∧ t.cmp.lastEng = e.val
            ∧ ∃ j ∈ t.jobs e, j.unit = u ∧ j.at_ = s.tim.now ∧ j.first = none
              ∧ j.due = s.tim.now + usU (s.fld Reg.cmpDeadline 6 0)) := by
  refine ⟨_, exec_unitComplete c s, unitComplete_building found, fun unwanted => ?_, fun on eligible busy => ?_,
    fun e on free => ?_⟩
  · rw [State.keeping_cmp, State.keeping_regs, unitComplete_unwanted found unwanted]
    exact ⟨rfl, rfl, rfl⟩
  · rw [State.keeping_cmp, counted_keeping, unitComplete_busy found on eligible busy]
    exact ⟨rfl, rfl, .of_bump rfl⟩
  · rw [State.keeping_cmp, State.keeping_jobs, unitComplete_given found on free]
    have begun := State.startEngines_begun ((s.takeUnit u).giveUnit u e)
    obtain ⟨k, mem, same⟩ := begun.mem (State.giveUnit_jobs u e (s.takeUnit u) ▸
      List.mem_append_right _ (List.mem_singleton.mpr rfl))
    rw [begun.ready, begun.lastEng]
    exact ⟨rfl, rfl, k, mem, same.unit, (congrArg Job.at_ same :), (congrArg Job.first same :), (congrArg Job.due same :)⟩

end

/-! ### Engines' registers -/

theorem cmpEngBlocks_apart (e : Fin 32) : Reg.cmpEngBlocks e ∉ [Reg.cmpUnresolved, Reg.cmpInject]
    ∧ Reg.cmpEngBlocks e ≠ Reg.cmpNoGain ∧ Reg.cmpEngBlocks e ≠ Reg.cmpCompBlocks := by
  simp only [Reg.cmpEngBlocks, Reg.cmpUnresolved, Reg.cmpInject, Reg.cmpNoGain, Reg.cmpCompBlocks, List.mem_cons,
    List.not_mem_nil, or_false]
  omega

theorem cmpEngFault_apart (e f : Fin 32) : Reg.cmpEngFault f ∉ [Reg.cmpUnresolved, Reg.cmpInject]
    ∧ Reg.cmpEngFault f ≠ Reg.cmpEngBlocks e ∧ Reg.cmpEngFault f ≠ Reg.cmpQuar ∧ Reg.cmpEngFault f ≠ Reg.cmpRawBusy := by
  have := f.isLt
  simp only [Reg.cmpEngFault, Reg.cmpEngBlocks, Reg.cmpUnresolved, Reg.cmpInject, Reg.cmpQuar, Reg.cmpRawBusy, List.mem_cons,
    List.not_mem_nil, or_false]
  omega

theorem cmpEngBlocks_ne_fault (e f : Fin 32) :
    Reg.cmpEngBlocks e ∉ [Reg.cmpEngFault f, Reg.cmpQuar, Reg.cmpRawBusy] := by
  have := f.isLt
  simp only [Reg.cmpEngFault, Reg.cmpEngBlocks, Reg.cmpQuar, Reg.cmpRawBusy, List.mem_cons, List.not_mem_nil, or_false]
  omega

/-- The bytes' counters, which a verified block moves on (R227). -/
abbrev byteCounters : List Nat := [Reg.cmpBytesInLo, Reg.cmpBytesInHi, Reg.cmpBytesOutLo, Reg.cmpBytesOutHi]

theorem engineCounters_notByte (e f : Fin 32) : Reg.cmpEngBlocks e ∉ byteCounters ∧ Reg.cmpEngFault f ∉ byteCounters := by
  simp only [Reg.cmpEngFault, Reg.cmpEngBlocks, Reg.cmpBytesInLo, Reg.cmpBytesInHi, Reg.cmpBytesOutLo, Reg.cmpBytesOutHi,
    List.mem_cons, List.not_mem_nil, or_false]
  omega

/-! ### What an outcome leaves -/

/-- A list that goes on after `l` and `a`. -/
theorem eq_append_cons_drop {α : Type} {l m : List α} {a : α} (h : l ++ [a] <+: m) :
    m = l ++ a :: m.drop (l.length + 1) := by
  obtain ⟨n, rfl⟩ := h
  simp [List.drop_append]

/-- A block that leaves its slots raw. -/
theorem State.sentRaw_get (s : State) (eng : Bool) (u : UnitB) (a : Nat) :
    ((s.dropBlock u).readyRaw eng u).get a = s.get a := rfl

theorem State.settleVerified_ready (u : UnitB) (body : List Byte) (s : State) :
    (s.settleVerified u body).cmp.ready = s.cmp.ready ++ [⟨u, true, true, body⟩] := rfl

theorem State.settleVerified_keepsRegs (u : UnitB) (body : List Byte) (s : State) :
    s.KeepsRegs (s.settleVerified u body) byteCounters := by
  intro a ha
  simp only [List.mem_cons, List.not_mem_nil, or_false, not_or] at ha
  obtain ⟨inLo, inHi, outLo, outHi⟩ := ha
  exact (State.get_set64_ne _ _ _ _ _ outLo outHi).trans (State.get_set64_ne _ _ _ _ _ inLo inHi)

/-- The waiting retries that are offered afterwards touch no other counter. -/
theorem Counted.offerRetries {s t : State} {a n : Nat} (h : Counted s t a n)
    (ha : a ∉ [Reg.cmpUnresolved, Reg.cmpInject]) : Counted s t.offerRetries a n :=
  h.congr rfl (t.offerRetries_readyGrown.regs a ha)

theorem State.fld_offerRetries {t : State} {a : Nat} (ha : a ∉ [Reg.cmpUnresolved, Reg.cmpInject]) (hi lo : Nat) :
    t.offerRetries.fld a hi lo = t.fld a hi lo := congrArg (bits · hi lo) (t.offerRetries_readyGrown.regs a ha)

/-- What has become ready stands before what the retries add. -/
theorem State.offerRetries_ready {s t : State} {x : Ready} (h : t.cmp.ready = s.cmp.ready ++ [x]) :
    t.offerRetries.cmp.ready = s.cmp.ready ++ x :: t.offerRetries.cmp.ready.drop (s.cmp.ready.length + 1) :=
  eq_append_cons_drop (h ▸ t.offerRetries_readyGrown.ready)

/-! ### An attempt's end (R219, R220) -/

section
variable {s : State} {e : Fin 32} {mismatch : Bool} {j : Job}

theorem engineResult_noGain (active : activeJob (s.jobs e) = some j) (first : j.first = none)
    (long : 65536 ≤ (compressed j.unit.words).length) : engineResult e mismatch s
      = ((((s.dropBlock j.unit).readyRaw true j.unit).bump Reg.cmpNoGain).bump (Reg.cmpEngBlocks e)).offerRetries := by
  unfold engineResult
  simp only [active, first, decide_eq_true long, if_true]

theorem engineResult_verified (active : activeJob (s.jobs e) = some j) (first : j.first = none)
    (short : (compressed j.unit.words).length < 65536) (good : (mismatch || j.inject) = false) : engineResult e mismatch s
      = (((s.settleVerified j.unit (compressed j.unit.words)).bump Reg.cmpCompBlocks).bump
          (Reg.cmpEngBlocks e)).offerRetries := by
  unfold engineResult
  simp only [active, first, decide_eq_false (Nat.not_le_of_gt short), good, Bool.false_eq_true, if_false]

/-- A first attempt's block as it begins to wait for another engine. -/
def Job.wait (j x : Job) : Job := if sameBlock x.unit j.unit then { x with waiting := true } else x

theorem engineResult_mismatched (active : activeJob (s.jobs e) = some j) (first : j.first = none)
    (short : (compressed j.unit.words).length < 65536) (bad : (mismatch || j.inject) = true) : engineResult e mismatch s
      = (s.updJobs e fun js => js.map j.wait).offerRetries := by
  unfold engineResult
  simp only [active, first, decide_eq_false (Nat.not_le_of_gt short), bad, Bool.false_eq_true, if_false, if_true]
  rfl

theorem engineResult_retryVerified {f : Fin 32} (active : activeJob (s.jobs e) = some j) (first : j.first = some f.val)
    (short : (compressed j.unit.words).length < 65536) (good : (mismatch || j.inject) = false) : engineResult e mismatch s
      = (((s.settleVerified j.unit (compressed j.unit.words)).bumpFld (Reg.cmpEngFault f) 31 16 1).bump
          (Reg.cmpEngBlocks e)).offerRetries := by
  have same : Fin.ofNat 32 f.val = f := Fin.ext (Nat.mod_eq_of_lt f.isLt)
  unfold engineResult
  simp only [active, first, same, decide_eq_false (Nat.not_le_of_gt short), good, Bool.or_self, Bool.false_eq_true, if_false]

theorem engineResult_retryFailed {f : Fin 32} (active : activeJob (s.jobs e) = some j) (first : j.first = some f.val)
    (failed : 65536 ≤ (compressed j.unit.words).length ∨ (mismatch || j.inject) = true) : engineResult e mismatch s
      = ((((s.dropBlock j.unit).readyRaw true j.unit).bump (Reg.cmpEngBlocks e)).lastingFault f).offerRetries := by
  have same : Fin.ofNat 32 f.val = f := Fin.ext (Nat.mod_eq_of_lt f.isLt)
  have raw : (decide (65536 ≤ (compressed j.unit.words).length) || (mismatch || j.inject)) = true := by
    rcases failed with long | bad
    · rw [decide_eq_true long, Bool.true_or]
    · rw [bad, Bool.or_true]
  unfold engineResult
  simp only [active, first, same, raw, if_true]

/-! ### First attempts (R219) -/

theorem engineResult_first {body : List Byte} (active : activeJob (s.jobs e) = some j) (first : j.first = none)
    (hbody : body = compressed j.unit.words) :
    ∃ t more, exec (.engineResult e mismatch) s = .next t
      ∧ (65536 ≤ body.length → t.cmp.ready = s.cmp.ready ++ ⟨j.unit, false, true, wordBytes j.unit.words⟩ :: more
          ∧ Counted s t Reg.cmpNoGain 1 ∧ Counted s t (Reg.cmpEngBlocks e) 1)
      ∧ (body.length < 65536 → (mismatch || j.inject) = false →
          t.cmp.ready = s.cmp.ready ++ ⟨j.unit, true, true, body⟩ :: more
            ∧ Counted s t Reg.cmpCompBlocks 1 ∧ Counted s t (Reg.cmpEngBlocks e) 1) := by
  subst hbody
  obtain ⟨apart, noGain, compBlocks⟩ := cmpEngBlocks_apart e
  refine ⟨_, (engineResult e mismatch s).cmp.ready.drop (s.cmp.ready.length + 1), exec_engineResult e mismatch s,
    fun long => ?_, fun short good => ?_⟩
  · rw [State.keeping_cmp, counted_keeping, counted_keeping, engineResult_noGain active first long]
    refine ⟨State.offerRetries_ready (by rw [State.bump_cmp, State.bump_cmp, State.readyRaw_ready, State.dropBlock_ready]),
      Counted.offerRetries (.of_get (.of_bump (s.sentRaw_get true j.unit _)) ?_) (by decide),
      Counted.offerRetries (.of_bump ?_) apart⟩
    · exact State.get_bump_ne _ _ _ noGain.symm
    · rw [State.get_bump_ne _ _ _ noGain, State.sentRaw_get]
  · have kept := s.settleVerified_keepsRegs j.unit (compressed j.unit.words)
    rw [State.keeping_cmp, counted_keeping, counted_keeping, engineResult_verified active first short good]
    refine ⟨State.offerRetries_ready (by rw [State.bump_cmp, State.bump_cmp, State.settleVerified_ready]),
      Counted.offerRetries (.of_get (.of_bump (kept _ (by decide))) ?_) (by decide), Counted.offerRetries (.of_bump ?_) apart⟩
    · exact State.get_bump_ne _ _ _ compBlocks.symm
    · rw [State.get_bump_ne _ _ _ compBlocks, kept _ (engineCounters_notByte e e).1]

/-- An engine whose one block's first attempt has failed, and no other block waits: that block is the one to be offered. -/
theorem waits_single (one : s.jobs e = [j]) (idle : ∀ x : Fin 32, ∀ k ∈ s.jobs x, k.waiting = false) :
    (s.updJobs e fun js => js.map j.wait).waitingJobs = [(e, { j with waiting := true })] := by
  have own : (s.updJobs e fun js => js.map j.wait).jobs e = [{ j with waiting := true }] := by
    rw [State.updJobs_jobs_same, one, List.map_singleton, Job.wait, sameBlock_self, if_pos rfl]
  exact State.waitingJobs_single own rfl fun x hx k hk => idle x k (State.updJobs_jobs_ne s _ hx ▸ hk)

theorem activeJob_single (one : s.jobs e = [j]) (here : j.waiting = false) (own : j.lent = false) :
    activeJob (s.jobs e) = some j := by
  rw [one, activeJob, List.find?_cons_of_pos (by simp [here, own])]

/-- A mismatched first attempt is the one block to be offered to another engine. -/
theorem engineResult_offers (one : s.jobs e = [j]) (here : j.waiting = false) (own : j.lent = false) (first : j.first = none)
    (short : (compressed j.unit.words).length < 65536) (bad : (mismatch || j.inject) = true)
    (idle : ∀ x : Fin 32, ∀ k ∈ s.jobs x, k.waiting = false) : engineResult e mismatch s
      = ((s.updJobs e fun js => js.map j.wait).offerRetry e { j with waiting := true }).startEngines := by
  rw [engineResult_mismatched (activeJob_single one here own) first short bad,
    State.offerRetries_single (waits_single one idle)]

theorem State.freeSlot_wait (s : State) (e x : Fin 32) (f : Job → Job) :
    (s.updJobs e fun js => js.map f).freeSlot x = s.freeSlot x := by
  have length : ((s.updJobs e fun js => js.map f).jobs x).length = (s.jobs x).length := by
    by_cases h : x = e
    · rw [h, State.updJobs_jobs_same, List.length_map]
    · rw [State.updJobs_jobs_ne _ _ h]
  unfold State.freeSlot
  rw [length]
  rfl

/-- A mismatched block is retried on the next eligible engine with a free slot, and its first engine keeps its slot (R220). -/
theorem engineResult_retried {r : Fin 32} (one : s.jobs e = [j]) (here : j.waiting = false) (own : j.lent = false)
    (first : j.first = none) (short : (compressed j.unit.words).length < 65536) (bad : (mismatch || j.inject) = true)
    (idle : ∀ x : Fin 32, ∀ k ∈ s.jobs x, k.waiting = false)
    (found : (s.roundRobin.find? fun (x : Fin 32) => x != e && s.eligible j.unit.chan x && s.freeSlot x) = some r) :
    ∃ t, exec (.engineResult e mismatch) s = .next t ∧ t.cmp.ready = s.cmp.ready
      ∧ (∃ k ∈ t.jobs r, k.unit = j.unit ∧ k.first = some e.val) ∧ ∃ k ∈ t.jobs e, k.unit = j.unit ∧ k.lent = true := by
  have other : e ≠ r := by
    rintro rfl
    simpa using List.find?_some found
  have lends := State.offerRetry_lends (s := s.updJobs e fun js => js.map j.wait) (e := e) (r := r)
    (j := { j with waiting := true }) (by simp only [State.freeSlot_wait]; exact found)
  refine ⟨_, exec_engineResult e mismatch s, ?_⟩
  rw [State.keeping_cmp, State.keeping_jobs, State.keeping_jobs, engineResult_offers one here own first short bad idle, lends]
  generalize hu : State.updJobs r _ (State.updJobs e _ (State.updJobs e _ s)) = u
  have begun := u.startEngines_begun
  have taken : ∃ k ∈ u.jobs r, k = Job.retryFrom e { j with waiting := true } := by
    rw [← hu, State.updJobs_jobs_same]
    exact ⟨_, List.mem_append_right _ List.mem_cons_self, rfl⟩
  have lent : { j with waiting := false, lent := true } ∈ u.jobs e := by
    rw [← hu, State.updJobs_jobs_ne _ _ other, State.updJobs_jobs_same, State.updJobs_jobs_same, one]
    simp [Job.wait, Job.lentOut]
  obtain ⟨_, mem, rfl⟩ := taken
  obtain ⟨k, hk, same⟩ := begun.mem mem
  obtain ⟨l, hl, sameLent⟩ := begun.mem lent
  have ready : u.cmp.ready = s.cmp.ready := by rw [← hu]; rfl
  exact ⟨begun.ready.trans ready, ⟨k, hk, same.unit, (congrArg Job.first same :)⟩,
    l, hl, sameLent.unit, (congrArg Job.lent sameLent :)⟩

/-- With no other eligible engine it is unresolved, and stored raw (R219). -/
theorem engineResult_unresolved (one : s.jobs e = [j]) (here : j.waiting = false) (own : j.lent = false)
    (first : j.first = none) (short : (compressed j.unit.words).length < 65536) (bad : (mismatch || j.inject) = true)
    (idle : ∀ x : Fin 32, ∀ k ∈ s.jobs x, k.waiting = false)
    (alone : ∀ x : Fin 32, x ≠ e → s.eligible j.unit.chan x = false) :
    ∃ t, exec (.engineResult e mismatch) s = .next t ∧ Counted s t Reg.cmpUnresolved 1
      ∧ t.cmp.ready = s.cmp.ready ++ [⟨j.unit, false, false, wordBytes j.unit.words⟩] := by
  have raw := State.offerRetry_unresolved (s := s.updJobs e fun js => js.map j.wait) (e := e)
    (j := { j with waiting := true }) alone
  refine ⟨_, exec_engineResult e mismatch s, ?_⟩
  rw [counted_keeping, State.keeping_cmp, engineResult_offers one here own first short bad idle, raw,
    (State.startEngines_begun _).ready]
  refine ⟨.of_get (.of_bump ?_) ((State.startEngines_begun _).regs _ (by decide)), ?_⟩
  · rw [State.sentRaw_get, State.updJobs_get]
  · rw [State.bump_cmp, State.readyRaw_ready, State.dropBlock_ready, State.updJobs_ready]

/-! ### Retries (R220, R222) -/

/-- The lasting faults that the window of an engine holds (R222). -/
def State.recentFaults (s : State) (f : Fin 32) : List Nat :=
  ((lookupK f.val s.cmp.faults).getD []).filter fun (a : Nat) => decide (s.tim.now ≤ a + secU 1)

/-- A lasting fault of an engine is counted, and stands in its window. -/
def State.noteFault (f : Fin 32) (s : State) : State :=
  (s.bumpFld (Reg.cmpEngFault f) 15 0 1).withCmp fun x =>
    { x with faults := putK f.val (s.recentFaults f ++ [s.tim.now]) x.faults }

/-- A block of an engine that is quarantined goes raw, counted in CMP_RAW_BUSY. -/
def State.sendBusy (j : Job) (s : State) : State := ((s.dropBlock j.unit).readyRaw true j.unit).bump Reg.cmpRawBusy

theorem State.sendBusy_readyGrown (s : State) (j : Job) : ReadyGrown [Reg.cmpRawBusy] s (s.sendBusy j) :=
  .sentRaw List.mem_cons_self true j.unit s

theorem State.lastingFault_eq (f : Fin 32) (s : State) : s.lastingFault f =
    if (s.recentFaults f ++ [s.tim.now]).length < 3 then s.noteFault f
    else (((s.noteFault f).setBit Reg.cmpQuar f true).attend Atn.cmp |>.jobs f).foldl
      (fun (s : State) (j : Job) => s.sendBusy j)
      (((s.noteFault f).setBit Reg.cmpQuar f true).attend Atn.cmp) := rfl

theorem State.lastingFault_few {f : Fin 32} (few : ¬ 2 ≤ (s.recentFaults f).length) : s.lastingFault f = s.noteFault f := by
  rw [State.lastingFault_eq, if_pos]
  rw [List.length_append, List.length_singleton]
  omega

/-- At the third the engine is quarantined, and its other blocks leave it. -/
theorem State.lastingFault_third {f : Fin 32} (third : 2 ≤ (s.recentFaults f).length) :
    ReadyGrown [Reg.cmpRawBusy] (((s.noteFault f).setBit Reg.cmpQuar f true).attend Atn.cmp) (s.lastingFault f) := by
  rw [State.lastingFault_eq, if_neg]
  · exact .foldl State.sendBusy_readyGrown _ _
  · rw [List.length_append, List.length_singleton]
    omega

theorem State.noteFault_get (f : Fin 32) (s : State) {a : Nat} (h : a ≠ Reg.cmpEngFault f) :
    (s.noteFault f).get a = s.get a := State.get_bumpFld_ne _ _ _ _ _ _ h

theorem State.quarantine_get (f : Fin 32) (s : State) {a : Nat} (h : a ≠ Reg.cmpQuar) :
    ((s.setBit Reg.cmpQuar f true).attend Atn.cmp).get a = s.get a := State.get_setBit_ne _ _ _ _ _ h

theorem State.quarantine_ready (f : Fin 32) (s : State) :
    (((s.noteFault f).setBit Reg.cmpQuar f true).attend Atn.cmp).cmp.ready = s.cmp.ready := rfl

theorem State.lastingFault_readyGrown (f : Fin 32) (s : State) :
    ReadyGrown [Reg.cmpEngFault f, Reg.cmpQuar, Reg.cmpRawBusy] s (s.lastingFault f) := by
  by_cases third : 2 ≤ (s.recentFaults f).length
  · have grown := State.lastingFault_third third
    refine ⟨fun a ha => ?_, State.quarantine_ready f s ▸ grown.ready⟩
    simp only [List.mem_cons, List.not_mem_nil, or_false, not_or] at ha
    obtain ⟨fault, quar, busy⟩ := ha
    rw [grown.regs a (List.mem_singleton.not.mpr busy), State.quarantine_get _ _ quar, State.noteFault_get _ _ fault]
  · rw [State.lastingFault_few third]
    exact ⟨fun a ha => State.noteFault_get _ _ (List.ne_of_not_mem_cons ha), List.prefix_rfl⟩

theorem State.fld_noteFault (f : Fin 32) (s : State) :
    (s.noteFault f).fld (Reg.cmpEngFault f) 15 0 = min 65535 (s.fld (Reg.cmpEngFault f) 15 0 + 1) :=
  State.fld_bumpFld_same _ _ _ _ _ (by decide)

theorem State.fld_lastingFault (f : Fin 32) (s : State) :
    (s.lastingFault f).fld (Reg.cmpEngFault f) 15 0 = min 65535 (s.fld (Reg.cmpEngFault f) 15 0 + 1) := by
  obtain ⟨-, -, quar, busy⟩ := cmpEngFault_apart f f
  rw [← State.fld_noteFault]
  by_cases third : 2 ≤ (s.recentFaults f).length
  · have kept := (State.lastingFault_third third).regs (Reg.cmpEngFault f) (List.mem_singleton.not.mpr busy)
    rw [State.fld, kept, State.quarantine_get _ _ quar, State.fld]
  · rw [State.lastingFault_few third]

theorem State.lastingFault_quarantines {f : Fin 32} (third : 2 ≤ (s.recentFaults f).length) :
    (s.lastingFault f).bit Reg.cmpQuar f = true := by
  rw [State.bit, (State.lastingFault_third third).regs Reg.cmpQuar (by decide)]
  exact State.bit_setBit_same _ _ _ _ f.isLt

/-- A retry that verifies is stored compressed and counts a transient of the first engine; one that fails is stored raw and
counts a lasting fault of it (R220). -/
theorem engineResult_retry {f : Fin 32} {body : List Byte} (active : activeJob (s.jobs e) = some j)
    (first : j.first = some f.val) (hbody : body = compressed j.unit.words) :
    ∃ t more, exec (.engineResult e mismatch) s = .next t ∧ Counted s t (Reg.cmpEngBlocks e) 1
      ∧ (body.length < 65536 → (mismatch || j.inject) = false →
          t.cmp.ready = s.cmp.ready ++ ⟨j.unit, true, true, body⟩ :: more
            ∧ t.fld (Reg.cmpEngFault f) 31 16 = min 65535 (s.fld (Reg.cmpEngFault f) 31 16 + 1))
      ∧ ((65536 ≤ body.length ∨ (mismatch || j.inject) = true) →
          t.cmp.ready = s.cmp.ready ++ ⟨j.unit, false, true, wordBytes j.unit.words⟩ :: more
            ∧ t.fld (Reg.cmpEngFault f) 15 0 = min 65535 (s.fld (Reg.cmpEngFault f) 15 0 + 1)
            ∧ (2 ≤ (((lookupK f.val s.cmp.faults).getD []).filter fun (a : Nat) => decide (s.tim.now ≤ a + secU 1)).length →
                t.bit Reg.cmpQuar f = true)) := by
  subst hbody
  obtain ⟨blocksApart, -, -⟩ := cmpEngBlocks_apart e
  obtain ⟨faultApart, notBlocks, -, -⟩ := cmpEngFault_apart e f
  obtain ⟨blocksNotByte, faultNotByte⟩ := engineCounters_notByte e f
  have verified := s.settleVerified_keepsRegs j.unit (compressed j.unit.words)
  have fault := ((s.dropBlock j.unit).readyRaw true j.unit).bump (Reg.cmpEngBlocks e) |>.lastingFault_readyGrown f
  refine ⟨_, (engineResult e mismatch s).cmp.ready.drop (s.cmp.ready.length + 1), exec_engineResult e mismatch s, ?_,
    fun short good => ?_, fun failed => ?_⟩
  · rw [counted_keeping]
    by_cases failed : 65536 ≤ (compressed j.unit.words).length ∨ (mismatch || j.inject) = true
    · rw [engineResult_retryFailed active first failed]
      exact (Counted.of_get (.of_bump (s.sentRaw_get true j.unit _)) (fault.regs _ (cmpEngBlocks_ne_fault e f))).offerRetries
        blocksApart
    · obtain ⟨short, good⟩ := not_or.mp failed
      rw [engineResult_retryVerified active first (Nat.lt_of_not_le short) (Bool.eq_false_of_not_eq_true good)]
      exact (Counted.of_bump ((State.get_bumpFld_ne _ _ _ _ _ _ notBlocks.symm).trans
        (verified _ blocksNotByte))).offerRetries blocksApart
  · rw [State.keeping_cmp, State.keeping_fld, engineResult_retryVerified active first short good,
      State.fld_offerRetries faultApart]
    refine ⟨State.offerRetries_ready (by rw [State.bump_cmp, State.bumpFld_cmp, State.settleVerified_ready]), ?_⟩
    rw [State.fld, State.get_bump_ne _ _ _ notBlocks, ← State.fld, State.fld_bumpFld_same _ _ _ _ _ (by decide), State.fld,
      verified _ faultNotByte]
    rfl
  · rw [State.keeping_cmp, State.keeping_fld, State.keeping_bit, engineResult_retryFailed active first failed,
      State.fld_offerRetries faultApart, State.fld_lastingFault, State.fld, State.get_bump_ne _ _ _ notBlocks,
      State.sentRaw_get]
    refine ⟨eq_append_cons_drop (fault.ready.trans (State.offerRetries_readyGrown _).ready), rfl, fun third => ?_⟩
    rw [State.bit, (State.offerRetries_readyGrown _).regs Reg.cmpQuar (by decide), ← State.bit]
    exact State.lastingFault_quarantines third

end

/-! ### Blocks that are late (R221) -/

section
variable {s : State} {e : Fin 32}

/-- A block that is not settled by its deadline goes raw; one that waits for a retry was unresolved. -/
def State.sendLate (j : Job) (s : State) : State :=
  let s := (s.dropBlock j.unit).readyRaw false j.unit
  if j.waiting then s.bump Reg.cmpUnresolved else s.bump Reg.cmpLate

theorem cmpDeadlineExpire_eq (e : Fin 32) (s : State) : cmpDeadlineExpire e s
    = (((s.jobs e).filter fun j => decide (j.due ≤ s.tim.now)).foldl (fun (s : State) (j : Job) => s.sendLate j)
        s).offerRetries := rfl

theorem State.sendLate_ready (j : Job) (s : State) :
    (s.sendLate j).cmp.ready = s.cmp.ready ++ [⟨j.unit, false, false, wordBytes j.unit.words⟩] := by
  unfold State.sendLate
  dsimp only
  split <;> rfl

theorem State.sendLate_jobs (j : Job) (s : State) (x : Fin 32) :
    (s.sendLate j).jobs x = (s.jobs x).filter fun k => !sameBlock k.unit j.unit := by
  unfold State.sendLate
  dsimp only
  split <;> rw [State.bump_jobs, State.readyRaw_jobs, State.dropBlock_jobs]

theorem State.sendLate_counted (j : Job) (s : State) : Counted s (s.sendLate j) Reg.cmpLate (!j.waiting).toNat := by
  unfold State.sendLate
  dsimp only
  cases j.waiting with
  | true => exact (Counted.refl s _).of_get (State.get_bump_ne _ _ _ (by decide))
  | false => exact .of_bump (s.sentRaw_get ..)

theorem State.sendAllLate_ready (late : List Job) : ∀ s : State, (late.foldl (fun s j => s.sendLate j) s).cmp.ready
    = s.cmp.ready ++ late.map fun (j : Job) => ⟨j.unit, false, false, wordBytes j.unit.words⟩ := by
  induction late with
  | nil => exact fun s => (List.append_nil _).symm
  | cons j late ih =>
    intro s
    rw [List.foldl_cons, ih, State.sendLate_ready, List.append_assoc, List.map_cons, List.singleton_append]

theorem State.sendAllLate_counted (late : List Job) : ∀ s : State,
    Counted s (late.foldl (fun s j => s.sendLate j) s) Reg.cmpLate (late.filter fun (j : Job) => !j.waiting).length := by
  induction late with
  | nil => exact fun s => .refl s _
  | cons j late ih =>
    intro s
    have count : ((j :: late).filter fun (j : Job) => !j.waiting).length
        = (!j.waiting).toNat + (late.filter fun (j : Job) => !j.waiting).length := by
      cases h : j.waiting <;> simp [h, Nat.add_comm]
    rw [count]
    exact (s.sendLate_counted j).trans (ih _)

/-- No slot holds a block of the late ones any longer. -/
theorem State.sendAllLate_unitsIn (late : List Job) : ∀ {s : State} {p : UnitB → Prop}, s.UnitsIn p →
    (late.foldl (fun s j => s.sendLate j) s).UnitsIn fun u => p u ∧ ∀ j ∈ late, sameBlock u j.unit = false := by
  induction late with
  | nil => exact fun h e j hj => ⟨h e j hj, fun _ mem => absurd mem List.not_mem_nil⟩
  | cons j late ih =>
    intro s p h
    have left : (s.sendLate j).UnitsIn fun u => p u ∧ sameBlock u j.unit = false := by
      intro x k hk
      rw [State.sendLate_jobs, List.mem_filter, Bool.not_eq_true'] at hk
      exact ⟨h x k hk.1, hk.2⟩
    intro x k hk
    obtain ⟨⟨own, first⟩, rest⟩ := ih left x k hk
    exact ⟨own, List.forall_mem_cons.mpr ⟨first, rest⟩⟩

theorem cmpDeadlineExpire_settles {late : List Job}
    (hlate : late = (s.jobs e).filter (fun (j : Job) => decide (j.due ≤ s.tim.now))) :
    ∃ t more, exec (.cmpDeadlineExpire e) s = .next t
      ∧ t.cmp.ready = s.cmp.ready ++ late.map (fun (j : Job) => ⟨j.unit, false, false, wordBytes j.unit.words⟩) ++ more
      ∧ Counted s t Reg.cmpLate (late.filter fun (j : Job) => !j.waiting).length
      ∧ (∀ j ∈ late, ∀ x : Fin 32, ∀ k ∈ t.jobs x, sameBlock k.unit j.unit = false) := by
  obtain ⟨more, grown⟩ := (State.offerRetries_readyGrown (late.foldl (fun s j => s.sendLate j) s)).ready
  have all : s.UnitsIn fun _ => True := fun _ _ _ => trivial
  have gone := (State.sendAllLate_unitsIn late all).offerRetries
  refine ⟨_, more, exec_cmpDeadlineExpire e s, ?_⟩
  simp only [State.keeping_cmp, State.keeping_jobs, counted_keeping]
  rw [cmpDeadlineExpire_eq, ← hlate, ← grown, State.sendAllLate_ready]
  exact ⟨rfl, (s.sendAllLate_counted late).offerRetries (by decide), fun j hj x k hk => (gone x k hk).2 j hj⟩

end

end Sys2Proof.Machine
end

