-- ==== Sys2Proof/Proofs/RingWriter.lean ====
section
/-! The Ring writer (R184, R185) and the statement on compression and the Ring. -/

namespace Sys2Proof.Machine

theorem exec_ringUnitWrite (s : State) : exec .ringUnitWrite s = .next (State.keeping s (ringUnitWrite s)) := rfl

theorem DepotKept.cmp {s u : State} (h : DepotKept s u) : u.cmp = s.cmp := (congrArg State.cmp h.1 :)

theorem LinesKept.cmp {s u : State} (h : LinesKept s u) : u.cmp = s.cmp := (congrArg State.cmp h.rest :)

theorem LinesKept.unitSeq {s u : State} (h : LinesKept s u) : u.unitSeq = s.unitSeq := by
  unfold State.unitSeq State.get64
  rw [h.get _ (by decide), h.get _ (by decide)]

theorem State.unitSeq_set64 (s : State) (n : Nat) :
    (s.set64 Reg.dptUnitSeqLo Reg.dptUnitSeqHi n).unitSeq = n % 2 ^ 64 := by
  rw [State.unitSeq, State.get64_set64 _ _ _ _ (by decide), BitVec.toNat_ofNat]

/-- The unit that the Ring writer enters for what it has written at a place. -/
def Ready.placed (r : Ready) (seq block offset : Nat) (gens : List (Nat × BitVec 32)) : RUnit :=
  ⟨seq, r.unit.chan, block, offset, r.body.length, descriptorBytes r seq block offset, gens,
    (r.unit.span.map fun y => y.1).getD r.unit.time, (r.unit.span.map fun y => y.2).getD r.unit.time, r.unit.span.isSome⟩

/-- The oldest ready unit is written: it enters the Ring's units as the last one, under the next UNIT_SEQ. -/
theorem ringUnitWrite_places {s : State} {r : Ready} {rest : List Ready} (oldest : s.cmp.ready = r :: rest)
    (depot : s.modes.depot = true) : ∃ u block offset gens, LinesKept u (ringUnitWrite s) ∧ u.cmp.ready = rest
      ∧ u.unitSeq = (s.unitSeq + 1) % 2 ^ 64
      ∧ u.dpt.units.getLast? = some (r.placed s.unitSeq block offset gens) := by
  have taken := State.allocate_depotKept true 63 ((r.body.length + 63) / 64) (s.withCmp fun x => { x with ready := rest })
  unfold ringUnitWrite
  simp only [oldest, depot, Bool.not_true, Bool.false_eq_true, if_false]
  generalize State.allocate true 63 ((r.body.length + 63) / 64) (s.withCmp fun x => { x with ready := rest }) = a at taken ⊢
  obtain ⟨block, offset, gens, v⟩ := a
  have written := State.writePart_depotKept (fun _ _ _ => false) gens offset
    ((cellsOf (stackIsland block) (if r.fromEngine then 4 else 1) 4 r.body).map fun (c : Cell) => c.data) v
  refine ⟨_, block, offset, gens, State.ringDirectories_linesKept _, ?_, State.unitSeq_set64 .., ?_⟩
  · rw [State.set64_cmp, State.withCmp_cmp, State.withDpt_cmp]
    exact congrArg Cmp.ready (written.cmp.trans taken.cmp)
  · rw [State.set64_dpt, State.withCmp_dpt, State.withDpt_dpt]
    exact List.getLast?_concat

theorem ringUnitWrite_writes {s : State} {r : Ready} {rest : List Ready} (oldest : s.cmp.ready = r :: rest)
    (depot : s.modes.depot = true) :
    ∃ t x, exec .ringUnitWrite s = .next t ∧ t.cmp.ready = rest ∧ t.unitSeq = (s.unitSeq + 1) % 2 ^ 64
      ∧ t.dpt.units.getLast? = some x ∧ x.useq = s.unitSeq ∧ x.chan = r.unit.chan ∧ x.length = r.body.length
      ∧ x.descriptor = descriptorBytes r s.unitSeq x.block x.offset := by
  obtain ⟨u, block, offset, gens, kept, ready, seq, last⟩ := ringUnitWrite_places oldest depot
  refine ⟨_, r.placed s.unitSeq block offset gens, exec_ringUnitWrite s, ?_, ?_, ?_, rfl, rfl, rfl, rfl⟩
  · rw [State.keeping_cmp, kept.cmp, ready]
  · exact kept.unitSeq.trans seq
  · rw [State.keeping_dpt, kept.units, last]

/-! ### The statement -/

/-- Settles O51: each unit's way, and each outcome, is an equation of its event, and the retries that are offered afterwards
only add units to those that are ready. -/
theorem compressionAndRingComplete : Obligations.CompressionAndRingComplete := by
  unfold Obligations.CompressionAndRingComplete
  exact ⟨fun _ _ _ => unitComplete_sends, fun _ _ _ _ _ => engineResult_first,
    fun _ _ _ _ _ => engineResult_retried, fun _ _ _ _ => engineResult_unresolved, fun _ _ _ _ _ _ => engineResult_retry,
    fun _ _ _ => cmpDeadlineExpire_settles, fun _ _ _ => ringUnitWrite_writes⟩

end Sys2Proof.Machine
end
